-- ==== Sys2Proof/Word.lean ====
section
/-! DEFINITION. The word types of the machine (R4, R5) and their plainest arithmetic: byte, half, word, dword,
and little-endian joining of bytes. -/

namespace Sys2Proof

/-- A byte (R5). -/
abbrev Byte := BitVec 8
/-- A word, 32 bits (R5). -/
abbrev Word32 := BitVec 32
/-- A dword, 64 bits (R5). -/
abbrev Dword := BitVec 64
/-- A virtual address: 57 bits (R3). -/
abbrev Va := BitVec 57
/-- A mask over the 32 threads of a weft, bit `t` for thread `t` (R90). -/
abbrev Mask := BitVec 32

end Sys2Proof
end

