-- ==== Sys2Proof/Syntax.lean ====
section
/-! DEFINITION. The instruction set as data: registers and operand forms (R17-R35), one operand record per
instruction shape, the arguments of the machine's own steps, and `Instr`, with one constructor per row of the
opcode table: the weft instructions first, then the steps that engines, supervisor, front end and fabric take. -/

namespace Sys2Proof

/-! ## Operands -/

/-- The issue fields every instruction carries: HINT, PRED with PNEG, and U (R17, R26, R28, R35). -/
structure Guard where
  hint : BitVec 3
  uni  : Bool
  neg  : Bool
  pred : BitVec 3
  deriving DecidableEq, Repr

/-- A register field (R29). `bad n` is the reserved encoding 0xCA + n, which step 7 of R36 refuses. -/
inductive Reg where
  | v (n : BitVec 7)
  | s (n : BitVec 6)
  | k (n : BitVec 3)
  | zero
  | lane
  | bad (n : Fin 54)
  deriving DecidableEq, Repr

/-- A source field with its trap-on-empty bit (R33). -/
structure Src where
  reg : Reg
  te  : Bool
  deriving DecidableEq, Repr

/-- A source that the 96-bit form replaces by the 32-bit immediate (R20). -/
inductive SrcI where
  | reg (a : Src)
  | imm (v : BitVec 32)
  deriving DecidableEq, Repr

/-- The integer modifiers of R34: width .I32, .UN, .SAT. -/
structure IMod where
  w32 : Bool
  un  : Bool
  sat : Bool
  deriving DecidableEq, Repr

/-- Floating-point width (R34). -/
inductive FWidth where | f64 | f32 | f16 | bf16
  deriving DecidableEq, Repr

/-- Rounding code of an instruction: 000 takes FPCTL.RMODE (R34, R64). -/
inductive RMode where | fpctl | rne | rtz | rup | rdn | rna
  deriving DecidableEq, Repr

/-- The nested scopes of R321. -/
inductive Scope where | weft | bolt | course | span | domain
  deriving DecidableEq, Repr

/-- Semantics of fences and atomics (R201, R204). -/
inductive Sem where | relaxed | acq | rel | ar
  deriving DecidableEq, Repr

/-- Integer conditions of R124. -/
inductive ICond where | eq | ne | lt | le | gt | ge
  deriving DecidableEq, Repr

/-- Floating-point conditions of R135. -/
inductive FCond where | eq | ne | lt | le | gt | ge | num | nan
  deriving DecidableEq, Repr

/-- The fold operations of SCAN and REDUCE (R165). -/
inductive FoldOp where | add | min | max | and | or | xor
  deriving DecidableEq, Repr

/-- The element types of SCAN and REDUCE (R165). -/
inductive FoldTy where | i64 | i32 | u64 | u32 | f64 | f32
  deriving DecidableEq, Repr

/-- LXCH modes (R164). -/
inductive XchMode where | at | below | above | flip
  deriving DecidableEq, Repr

/-- VOTE modes (R162). -/
inductive VoteMode where | all | any | same
  deriving DecidableEq, Repr

/-- Operations of ATOM and RED (R202). -/
inductive AtomOp where
  | add | min | max | umin | umax | and | or | xor | xchg | cas | inc | dec | fadd
  deriving DecidableEq, Repr

/-- BUFSTATE operations (R237, R239). -/
inductive BufOp where | get | fill | drain | free | wfull | wfree
  deriving DecidableEq, Repr

/-- The six approximate functions (R137). -/
inductive ApproxFn where | rcp | rsq | exp2 | log2 | sin | cos
  deriving DecidableEq, Repr

/-- What an ATOM or RED addresses: the spaces of MOD 7:6 and SA (R201). -/
inductive AtomBase where
  | record (n : BitVec 8)
  | own
  | bolt (b : Src)
  | vault
  deriving DecidableEq, Repr

/-- The immediate sub-fields of the 96-bit form of ATOM and RED (R201). -/
structure AtomExt where
  ord   : Bool
  scope : Scope
  add   : BitVec 16
  deriving DecidableEq, Repr

/-- The merge mode of MMA and MLOOP (R296). -/
inductive Merge where | arr | ord
  deriving DecidableEq, Repr

/-- Sparsity patterns of MSPARSE (R295). -/
inductive SpPat where | off | s24 | s48
  deriving DecidableEq, Repr

/-! ## Operand records, one per instruction shape -/

structure IUn where (g : Guard) (m : IMod) (d : Reg) (a : Src)
  deriving DecidableEq, Repr
structure IBin where (g : Guard) (m : IMod) (d : Reg) (a : Src) (b : SrcI)
  deriving DecidableEq, Repr
structure ITri where (g : Guard) (m : IMod) (d : Reg) (a : Src) (b : SrcI) (c : Src)
  deriving DecidableEq, Repr
structure ICmpArgs where (g : Guard) (w32 un : Bool) (cond : ICond) (d : Reg) (a : Src) (b : SrcI)
  deriving DecidableEq, Repr
structure LeaArgs where (g : Guard) (un : Bool) (n : BitVec 3) (d : Reg) (a : Src) (b : SrcI)
  deriving DecidableEq, Repr
structure LUn where (g : Guard) (d : Reg) (a : Src)
  deriving DecidableEq, Repr
structure LBin where (g : Guard) (d : Reg) (a : Src) (b : SrcI)
  deriving DecidableEq, Repr
structure FUn where (g : Guard) (w : FWidth) (r : RMode) (d : Reg) (a : Src)
  deriving DecidableEq, Repr
structure FBin where (g : Guard) (w : FWidth) (r : RMode) (d : Reg) (a : Src) (b : SrcI)
  deriving DecidableEq, Repr
structure FTri where (g : Guard) (w : FWidth) (r : RMode) (d : Reg) (a : Src) (b : SrcI) (c : Src)
  deriving DecidableEq, Repr
structure FMinMaxArgs where (g : Guard) (w : FWidth) (nan : Bool) (d : Reg) (a : Src) (b : SrcI)
  deriving DecidableEq, Repr
structure FCmpArgs where (g : Guard) (w : FWidth) (cond : FCond) (d : Reg) (a : Src) (b : SrcI)
  deriving DecidableEq, Repr
structure DotArgs where (g : Guard) (r : RMode) (d : Reg) (a b c : Src)
  deriving DecidableEq, Repr
structure CvtArgs where (g : Guard) (tgt : BitVec 4) (r : RMode) (x : Bool) (d : Reg) (a : Src)
  deriving DecidableEq, Repr
/-- CVTS (R144): a `b` naming ZERO gives no scale; `c` is present exactly under .SR. -/
structure CvtsArgs where (g : Guard) (tgt : BitVec 4) (r : RMode) (d : Reg) (a b : Src) (c : Option Src)
  deriving DecidableEq, Repr
structure PackArgs where (g : Guard) (e : BitVec 4) (d : Reg) (a b : Src)
  deriving DecidableEq, Repr
structure UnpackArgs where (g : Guard) (e : BitVec 4) (d : Reg) (a : Src)
  deriving DecidableEq, Repr
structure SettagArgs where (g : Guard) (tag : BitVec 6) (d : Reg) (a : Src)
  deriving DecidableEq, Repr
structure CvtkArgs where (g : Guard) (all : Bool) (d : Reg) (k : Src)
  deriving DecidableEq, Repr
structure Movi96Args where (g : Guard) (tag : BitVec 6) (d : Reg) (imm : BitVec 32)
  deriving DecidableEq, Repr
structure Movi128Args where (g : Guard) (tag : BitVec 6) (d : Reg) (imm : BitVec 64)
  deriving DecidableEq, Repr
structure SelArgs where (g : Guard) (d : Reg) (a b : Src) (k : Src)
  deriving DecidableEq, Repr
structure BcastArgs where (g : Guard) (d : Reg) (a b : Src)
  deriving DecidableEq, Repr
structure MovkImmArgs where (g : Guard) (d : Reg) (imm : BitVec 32)
  deriving DecidableEq, Repr
structure MovkToArgs where (g : Guard) (d : Reg) (k : Src)
  deriving DecidableEq, Repr
structure KBin where (g : Guard) (d : Reg) (a b : Src)
  deriving DecidableEq, Repr
structure KUn where (g : Guard) (d : Reg) (a : Src)
  deriving DecidableEq, Repr
structure KpopcArgs where (g : Guard) (live : Bool) (d : Reg) (k : Src)
  deriving DecidableEq, Repr
structure VoteArgs where (g : Guard) (mode : VoteMode) (d : Reg) (a : Src)
  deriving DecidableEq, Repr
/-- LXCH (R164): `grp` is the group code 0 to 4, `flag` the flag mask's index. -/
structure LxchArgs where (g : Guard) (mode : XchMode) (grp : Fin 5) (flag : BitVec 3) (d : Reg) (a : Src) (b : SrcI)
  deriving DecidableEq, Repr
structure ScanArgs where (g : Guard) (op : FoldOp) (exc : Bool) (ty : FoldTy) (d : Reg) (a : Src)
  deriving DecidableEq, Repr
structure ReduceArgs where (g : Guard) (op : FoldOp) (ty : FoldTy) (d : Reg) (a : Src)
  deriving DecidableEq, Repr
structure MatchArgs where (g : Guard) (all : Bool) (d : Reg) (a : Src)
  deriving DecidableEq, Repr
structure ElectArgs where (g : Guard) (d : Reg)
  deriving DecidableEq, Repr
structure CompactArgs where (g : Guard) (d : Reg) (a : Src) (k : Src)
  deriving DecidableEq, Repr
structure BraArgs where (g : Guard) (tag : BitVec 8) (off : BitVec 32)
  deriving DecidableEq, Repr
structure BrxArgs where (g : Guard) (tag : BitVec 8) (a : Src) (off : BitVec 32)
  deriving DecidableEq, Repr
structure CallArgs where (g : Guard) (d : Reg) (off : BitVec 32)
  deriving DecidableEq, Repr
structure CallRArgs where (g : Guard) (d : Reg) (a : Src) (off : BitVec 32)
  deriving DecidableEq, Repr
structure RetArgs where (g : Guard) (a : Src)
  deriving DecidableEq, Repr
structure JoinArgs where (g : Guard) (tag : BitVec 8)
  deriving DecidableEq, Repr
structure CodeArgs where (g : Guard) (code : Option (BitVec 32))
  deriving DecidableEq, Repr
structure DecArgs where (g : Guard) (i32 : Bool) (d : Reg) (a : Src) (c : Reg)
  deriving DecidableEq, Repr
structure DecdArgs where (g : Guard) (i32 : Bool) (d : Reg) (a b : Src) (c : Reg)
  deriving DecidableEq, Repr
structure DecsArgs where (g : Guard) (d : Reg) (a b : Src) (c : Reg)
  deriving DecidableEq, Repr
/-- LD and LDU (R196, R197). -/
structure LdArgs where
  (g : Guard) (fmt : Fin 11) (acq : Option Scope) (d : Reg) (br : BitVec 8) (off : Src) (add : Option (BitVec 32))
  deriving DecidableEq, Repr
/-- ST and STU (R196, R197). -/
structure StArgs where
  (g : Guard) (r : RMode) (sat : Bool) (rel : Option Scope) (br : BitVec 8) (off : Src) (add : Option (BitVec 32))
  (data : Src)
  deriving DecidableEq, Repr
/-- LDS (R200): `bolt` is the register of the .X form; `kind` 0 to 14. -/
structure LdsArgs where
  (g : Guard) (kind : Fin 15) (acq : Option Scope) (bolt : Option Src) (d : Reg) (off : Src) (add : Option (BitVec 32))
  deriving DecidableEq, Repr
/-- STS (R200): `size` is the log2 of the bytes stored. -/
structure StsArgs where
  (g : Guard) (size : BitVec 2) (rel : Option Scope) (bolt : Option Src) (off : Src) (add : Option (BitVec 32))
  (data : Src)
  deriving DecidableEq, Repr
structure LdvArgs where
  (g : Guard) (kind : Fin 15) (acq : Option Scope) (d : Reg) (off : Src) (add : Option (BitVec 32))
  deriving DecidableEq, Repr
structure StvArgs where
  (g : Guard) (size : BitVec 2) (rel : Option Scope) (off : Src) (add : Option (BitVec 32)) (data : Src)
  deriving DecidableEq, Repr
structure AtomArgs where
  (g : Guard) (op : AtomOp) (sem : Sem) (base : AtomBase) (d : Reg) (off : Src) (c : Src) (ext : Option AtomExt)
  deriving DecidableEq, Repr
structure RedArgs where
  (g : Guard) (op : AtomOp) (sem : Sem) (base : AtomBase) (off : Src) (c : Src) (ext : Option AtomExt)
  deriving DecidableEq, Repr
structure FenceArgs where (g : Guard) (sem : Sem) (scope : Scope)
  deriving DecidableEq, Repr
structure WaitvArgs where
  (g : Guard) (eq w64 : Bool) (acq : Option Scope) (d : Reg) (br : BitVec 8) (off : Src) (add : Option (BitVec 32))
  (a : Src)
  deriving DecidableEq, Repr
structure PrefArgs where (g : Guard) (l2 : Bool) (br : BitVec 8) (off : Src) (add : Option (BitVec 32))
  deriving DecidableEq, Repr
structure ClineArgs where (g : Guard) (op : Fin 5) (br : BitVec 8) (off : Src) (add : Option (BitVec 32))
  deriving DecidableEq, Repr
structure LeaseArgs where (g : Guard) (d : Reg) (a : SrcI)
  deriving DecidableEq, Repr
structure BrloadArgs where (g : Guard) (br : BitVec 8) (off : Src) (add : Option (BitVec 32))
  deriving DecidableEq, Repr
structure BufdeclArgs where
  (g : Guard) (fill : Bool) (d : Reg) (bar base len : Src) (add : Option (BitVec 32))
  deriving DecidableEq, Repr
structure BufrelArgs where (g : Guard) (base : Src) (add : Option (BitVec 32))
  deriving DecidableEq, Repr
structure BufstateArgs where (g : Guard) (d : Reg) (base : Src) (add : Option (BitVec 32))
  deriving DecidableEq, Repr
structure BarinitArgs where (g : Guard) (crs : Bool) (d : Reg) (off pmask : Src) (add : Option (BitVec 32))
  deriving DecidableEq, Repr
structure BarinvalArgs where (g : Guard) (off : Src) (add : Option (BitVec 32))
  deriving DecidableEq, Repr
structure BararriveArgs where (g : Guard) (all : Bool) (d : Reg) (bolt : Option Src) (off : Src) (add : Option (BitVec 32))
  deriving DecidableEq, Repr
/-- BAREXPECT (R239): `arr = some all` is .ARR with or without .ALL. -/
structure BarexpectArgs where
  (g : Guard) (arr : Option Bool) (d : Reg) (bolt : Option Src) (off bytes : Src) (add : Option (BitVec 32))
  deriving DecidableEq, Repr
structure BarwaitArgs where (g : Guard) (bolt : Option Src) (off phase : Src) (add : Option (BitVec 32))
  deriving DecidableEq, Repr
structure BarphaseArgs where (g : Guard) (d : Reg) (bolt : Option Src) (off : Src) (add : Option (BitVec 32))
  deriving DecidableEq, Repr
structure CpysliceArgs where (g : Guard) (d : Reg) (a lo cnt : Src) (add : Option (BitVec 32))
  deriving DecidableEq, Repr
structure CpyregLdArgs where (g : Guard) (d : Reg) (off bar : Src) (count1 : BitVec 7) (barv : Bool)
  deriving DecidableEq, Repr
structure CpyregStArgs where (g : Guard) (a off bar : Src) (count1 : BitVec 7) (barv : Bool)
  deriving DecidableEq, Repr
structure CpyArgs where (g : Guard) (d : Reg) (h : Src)
  deriving DecidableEq, Repr
structure LayoutArgs where
  (g : Guard) (d : Reg) (off bolt st0 st1 st2 : Src) (esz : Fin 5) (perm : Fin 4)
  deriving DecidableEq, Repr
structure MclaimArgs where (g : Guard) (d : Reg) (a : Src)
  deriving DecidableEq, Repr
structure MrelArgs where (g : Guard) (a : Src)
  deriving DecidableEq, Repr
/-- MLOAD (R289): `sc` is present exactly for tag MXFP4x16. -/
structure MloadArgs where (g : Guard) (slot : BitVec 5) (layout : Src) (tag : BitVec 6) (sc : Option Src)
  deriving DecidableEq, Repr
structure MloopArgs where
  (g : Guard) (merge : Merge) (sp sc : Bool) (contrib : BitVec 12) (d : Reg) (br : BitVec 8) (off loop bar : Src)
  deriving DecidableEq, Repr
structure MmaArgs where
  (g : Guard) (merge : Merge) (sp sc : Bool) (contrib : BitVec 12) (d : Reg) (br : BitVec 8) (off : Src)
  (slotA slotB : BitVec 5)
  deriving DecidableEq, Repr
structure MscaleArgs where (g : Guard) (a b c xa : Src)
  deriving DecidableEq, Repr
structure MsparseArgs where (g : Guard) (pat : SpPat) (slot : BitVec 5) (a b : Src)
  deriving DecidableEq, Repr
structure MfenceArgs where (g : Guard) (d : Reg)
  deriving DecidableEq, Repr
structure MwaitArgs where (g : Guard) (d : Reg) (n : SrcI)
  deriving DecidableEq, Repr
structure PlainArgs where (g : Guard)
  deriving DecidableEq, Repr
structure PopwArgs where (g : Guard) (d : Reg) (q : BitVec 8)
  deriving DecidableEq, Repr
structure PushwArgs where (g : Guard) (d : Reg) (q : BitVec 8) (a : Src)
  deriving DecidableEq, Repr
structure NotifyArgs where (g : Guard) (l a : Src)
  deriving DecidableEq, Repr
structure MbindArgs where (g : Guard) (d : Reg) (l k : Src)
  deriving DecidableEq, Repr
/-- XLD (R470): `acq` is .ACQ.DOMAIN; `add` the signed 28-bit element addend. -/
structure XldArgs where
  (g : Guard) (fmt : Fin 11) (acq : Bool) (d : Reg) (br : BitVec 8) (off : Src) (add : BitVec 28)
  deriving DecidableEq, Repr
structure XstArgs where
  (g : Guard) (r : RMode) (sat rel : Bool) (br : BitVec 8) (off data : Src) (add : BitVec 28)
  deriving DecidableEq, Repr
structure XatomArgs where
  (g : Guard) (op : AtomOp) (sem : Sem) (d : Reg) (br : BitVec 8) (off c : Src) (add : BitVec 28)
  deriving DecidableEq, Repr
structure XsigArgs where (g : Guard) (br : BitVec 8) (tw : Src) (cnt : SrcI)
  deriving DecidableEq, Repr
structure XfenceArgs where (g : Guard) (sem : Sem)
  deriving DecidableEq, Repr
structure GetsrArgs where (g : Guard) (d : Reg) (num : BitVec 12)
  deriving DecidableEq, Repr
structure SetsrArgs where (g : Guard) (num : BitVec 12) (a : Src)
  deriving DecidableEq, Repr
structure GetidArgs where (g : Guard) (id : BitVec 3) (d : Reg)
  deriving DecidableEq, Repr
structure ClockArgs where (g : Guard) (d : Reg)
  deriving DecidableEq, Repr
structure HaltArgs where (g : Guard) (a : Src)
  deriving DecidableEq, Repr

/-! ## Arguments of the machine's own steps -/

/-- A fabric packet (R468), its header fields apart from its payload. `aborts` lists the 8-byte units that an
RDATA or ADATA flags as aborted (R469). -/
structure Packet where
  fwd     : BitVec 128
  ret     : BitVec 128
  seg     : Nat
  cls     : Bool
  last    : Nat
  hleft   : Nat
  typ     : BitVec 8
  ordered : Bool
  domid   : BitVec 32
  srcpos  : BitVec 24
  dstpos  : BitVec 24
  addr    : BitVec 64
  len     : Nat
  ridx    : Nat
  tag     : BitVec 32
  payload : List Byte
  aborts  : List Nat
  deriving DecidableEq, Repr

/-- A context command (R376); `done` is the hub address of its result. -/
structure CtxCmd where
  weft : Nat
  bolt : Nat
  course : Nat
  asid : Nat
  arg : Nat
  tag : BitVec 8
  mask : Mask
  value : Dword
  done : Nat
  deriving DecidableEq, Repr

/-- The 32 bytes of an invalidation command (R358), as its fields. `reserved` says that some reserved field is
nonzero. -/
structure InvCmd where
  vabase : Dword
  npages : Nat
  asid : BitVec 16
  flags : BitVec 8
  reserved : Bool
  done : Nat
  deriving DecidableEq, Repr

/-- An error event as the detecting unit raises it (R365); `cls` and `unit` name the unit of R366. -/
structure ErrIn where
  pa : Nat
  cls : Nat
  die : Nat
  idx : Nat
  kind : Nat
  consumer : Nat
  asid : Nat
  now : Nat
  deriving DecidableEq, Repr

/-- What a reset finds (R448): straps, firmware images offered by the boot source, the
resources that work, and the gateway ports' modes (0 Ultra Ethernet, 1 UALink, R487). -/
structure BootIn where
  straps : BitVec 8
  clocksOk : Bool
  fuseParityOk : Bool
  images : List (List Byte)
  stacksOk : BitVec 16
  activePos : List Nat
  portsOk : BitVec 12
  gatesOk : BitVec 4
  supervisorOk : Bool
  gwModes : List Nat
  ltboot : BitVec 32
  deriving DecidableEq, Repr

/-- A journal entry of the active supervisor (R424). -/
inductive JEntry where
  | bind (qid slot : Nat)
  | placement (text : List Byte)
  | ccbWrite (asid : Nat)
  | delegChange (asid : Nat)
  | release (span : Nat)
  deriving DecidableEq, Repr

/-- Hub resources of R370. -/
inductive HubRes where | secrets | sram | tables | queues | placement | ltime | fabric | other
  deriving DecidableEq, Repr

/-- RISC-V modes of the harts (R369). -/
inductive HMode where | m | s | u
  deriving DecidableEq, Repr

/-- A flit as a port receives it (R457): its content, its trailer and, for each lane, its two computed parities
(R458). -/
structure Flit where
  content : List Byte
  crc : BitVec 64
  seq : BitVec 16
  ackseq : BitVec 16
  stop : BitVec 8
  vc : BitVec 3
  idle : Bool
  nak : Bool
  lpar : BitVec 16
  deriving DecidableEq, Repr

/-- An incoming gateway request (R488, R489): memory key, offset in its region, bytes to write or their count. -/
structure GwReq where
  port : Nat
  key : Nat
  off : Nat
  len : Nat
  data : List Byte
  atomOp : Option AtomOp
  deriving DecidableEq, Repr

/-- A relocation against `.text` as the loader hands it to the rewriter (R49): its type, its place in the text, S + A, and
the table start T of a jump-table entry. -/
structure Reloc where
  typ : Nat
  off : Nat
  value : Int
  table : Int
  deriving DecidableEq, Repr

/-- A section of a kernel's file beside `.text` (R50): its address once loaded, its bytes and their relocations. -/
structure DataSection where
  at_ : Va
  bytes : List Byte
  relocs : List Reloc
  deriving DecidableEq, Repr

/-- A kernel load (R445): the target ASID, the load base, the ELF file's bytes, the address of its `.text` once loaded, the
bytes of `.text` and their relocations, the other sections, and the HINT the latency model gives each instruction, by its place. -/
structure CodeIn where
  asid : Nat
  base : Va
  elf : List Byte
  textAt : Va
  text : List Byte
  relocs : List Reloc
  others : List DataSection
  hints : List (Nat × BitVec 3)
  deriving DecidableEq, Repr

/-- Why a walk is made (R352). -/
inductive XKind where | read | write | rw | fetch
  deriving DecidableEq, Repr

/-! ## The instructions and steps -/

/-- One constructor per row of spec/opcode_table.json, in the table's order. -/
inductive Instr where
  | iadd (o : IBin) | isub (o : IBin) | ineg (o : IUn) | imul (o : IBin) | imulhi (o : IBin) | imad (o : ITri)
  | imin (o : IBin) | imax (o : IBin) | iabs (o : IUn) | isel (o : ITri) | icmpk (o : ICmpArgs) | icmp (o : ICmpArgs)
  | lea (o : LeaArgs)
  | and (o : LBin) | or (o : LBin) | xor (o : LBin) | not (o : LUn) | andn (o : LBin)
  | shl (o : IBin) | shr (o : IBin) | sar (o : IBin) | rot (o : IBin) | bfx (o : IBin) | bfi (o : ITri)
  | popc (o : IUn) | clz (o : IUn) | ctz (o : IUn) | brev (o : IUn)
  | fadd (o : FBin) | fsub (o : FBin) | fmul (o : FBin) | ffma (o : FTri) | fmin (o : FMinMaxArgs)
  | fmax (o : FMinMaxArgs) | fabs (o : FUn) | fneg (o : FUn) | fcmpk (o : FCmpArgs) | fcmp (o : FCmpArgs)
  | fdiv (o : FBin) | fsqrt (o : FUn) | frcp (o : FUn) | frsq (o : FUn) | fexp2 (o : FUn) | flog2 (o : FUn)
  | fsin (o : FUn) | fcos (o : FUn) | frint (o : FUn) | fclass (o : FUn) | fscale (o : FBin) | fgetexp (o : FUn)
  | padd (o : FBin) | pmul (o : FBin) | pfma (o : FTri) | dot8F8 (o : DotArgs) | dot8I8 (o : DotArgs)
  | cvt (o : CvtArgs) | cvts (o : CvtsArgs) | pack (o : PackArgs) | unpack (o : UnpackArgs) | settag (o : SettagArgs)
  | gettag (o : LUn) | cvtk (o : CvtkArgs) | mov (o : LUn) | movi96 (o : Movi96Args) | movi128 (o : Movi128Args)
  | sel (o : SelArgs) | bcast (o : BcastArgs) | movkFromScalar (o : LUn) | movkImmediate (o : MovkImmArgs)
  | movkToScalar (o : MovkToArgs) | kand (o : KBin) | kor (o : KBin) | kxor (o : KBin) | knot (o : KUn)
  | kpopc (o : KpopcArgs)
  | vote (o : VoteArgs) | ballot (o : LUn) | lxch (o : LxchArgs) | scan (o : ScanArgs) | reduce (o : ReduceArgs)
  | matchLanes (o : MatchArgs) | elect (o : ElectArgs) | compact (o : CompactArgs)
  | bra (o : BraArgs) | brx (o : BrxArgs) | call (o : CallArgs) | callR (o : CallRArgs) | ret (o : RetArgs)
  | join (o : JoinArgs) | exit (o : PlainArgs) | yield (o : PlainArgs) | nop (o : PlainArgs) | brk (o : CodeArgs)
  | trap (o : CodeArgs) | rft (o : PlainArgs)
  | decrle (o : DecArgs) | decbits (o : DecArgs) | decdelta (o : DecdArgs) | decsign (o : DecsArgs)
  | ld (o : LdArgs) | st (o : StArgs) | ldu (o : LdArgs) | stu (o : StArgs) | lds (o : LdsArgs) | sts (o : StsArgs)
  | ldv (o : LdvArgs) | stv (o : StvArgs) | atom (o : AtomArgs) | red (o : RedArgs) | fence (o : FenceArgs)
  | waitv (o : WaitvArgs) | pref (o : PrefArgs) | cline (o : ClineArgs) | lease (o : LeaseArgs)
  | brload (o : BrloadArgs)
  | bufdecl (o : BufdeclArgs) | bufrel (o : BufrelArgs) | bufstateGet (o : BufstateArgs)
  | bufstateFill (o : BufstateArgs) | bufstateDrain (o : BufstateArgs) | bufstateFree (o : BufstateArgs)
  | bufstateWfull (o : BufstateArgs) | bufstateWfree (o : BufstateArgs)
  | barinit (o : BarinitArgs) | barinval (o : BarinvalArgs) | bararrive (o : BararriveArgs)
  | barexpect (o : BarexpectArgs) | barwait (o : BarwaitArgs) | barphase (o : BarphaseArgs)
  | cpyslice (o : CpysliceArgs) | cpyregLd (o : CpyregLdArgs) | cpyregSt (o : CpyregStArgs) | cpystat (o : CpyArgs)
  | cpycancel (o : CpyArgs) | layout (o : LayoutArgs) | mclaim (o : MclaimArgs) | mrel (o : MrelArgs)
  | mload (o : MloadArgs) | mloop (o : MloopArgs) | mma (o : MmaArgs) | mscale (o : MscaleArgs)
  | msparse (o : MsparseArgs) | mfence (o : MfenceArgs) | mwait (o : MwaitArgs) | mcommit (o : PlainArgs)
  | popw (o : PopwArgs) | pushw (o : PushwArgs) | notify (o : NotifyArgs) | mbind (o : MbindArgs)
  | xld (o : XldArgs) | xst (o : XstArgs) | xatom (o : XatomArgs) | xsig (o : XsigArgs) | xfence (o : XfenceArgs)
  | getsr (o : GetsrArgs) | setsr (o : SetsrArgs) | getid (o : GetidArgs) | clock (o : ClockArgs)
  | canon (o : PlainArgs) | halt (o : HaltArgs)
  -- the machine's own steps; `w`, `b` and so on are the model's handles of wefts, bolts, courses, spans
  | trapRecordPublish (w : Nat) | trapRingSlotFree
  | loadDataLands (w fid : Nat) (mask : Mask) | abortCompletion (w fid : Nat) | weftEnd (w : Nat)
  | decodeLands (w fid : Nat) | waitvPoll (w fid : Nat) | homeSliceAccess (core idx : Nat)
  | heddlePendingTimeout (w : Nat) | heddleRotation (core : Nat) | leaseWindow (w misses : Nat)
  | fastSwitch (core span : Nat) | bankSwap (core : Nat) | spillComplete (core : Nat) | slowSwitch (out inn : Nat)
  | boltReload (b : Nat) | heddleRebuild (cluster : Nat)
  | copyStart (b h : Nat) | copyElementLand (b h : Nat) (frames : List Nat) | mloadComplete (core id : Nat) | matrixStep (core id : Nat)
  | contributionArrival (n : Nat) | batchComplete (w n : Nat)
  | pageWalkComplete (core asid : Nat) (va : Va) (kind : XKind) | heldWalkRetry (pa : Nat) (entry : Dword)
  | invalidate (c : InvCmd) | invalidationComplete (n : Nat)
  | patrolScrub (pa : Nat) (now : Nat) | errorRecord (e : ErrIn) | lateralLinkRetry (link now : Nat)
  | resume (c : CtxCmd) | redirect (c : CtxCmd) | setreg (c : CtxCmd) | getreg (c : CtxCmd) | kill (c : CtxCmd)
  | ctxset (c : CtxCmd) | engreply (c : CtxCmd)
  | watchdogFire (asid now : Nat) | deviceReset (b : BootIn) | attestationReport (nonce : List Byte)
  | svnMinimumRaise (kind : Nat) (cmd sig : List Byte) | supervisorTakeover | journalCommit (e : JEntry)
  | hubAccessFault (hart : Nat) (res : HubRes) (write : Bool) (now : Nat)
  | doorbellKick (qid : Nat) (value : Dword) (now : Nat) | queueBind (qid slot : Nat) | queueResume (qid : Nat)
  | slotFetch (qid : Nat) | nopPacket (qid : Nat) | dispatch (qid : Nat) | feed (qid : Nat) | indirect (qid : Nat)
  | predicate (qid : Nat) | loop (qid : Nat) | writePacket (qid : Nat) | wait (qid now : Nat) | waitPoll (qid : Nat)
  | waitTimeout (qid now : Nat) | fetchfence (qid : Nat) | signalPacket (qid : Nat) | copy (qid : Nat)
  | checkpoint (qid now : Nat) | preemptSwitch (qid : Nat) | preemptSave (qid now : Nat) | preemptMove (qid now : Nat)
  | preemptRestore (qid : Nat) | bind (qid : Nat)
  | coursePlacement (span cluster : Nat) (cores : List Nat) | spanComplete (span : Nat)
  | completionRecordWrite (span : Nat) | feedMove (q : Nat) | feedAppendRetry (qid : Nat)
  | eventDispatch (hart : Nat) | queueCoreWatchdog (hart now : Nat) | deferExpiry (span now : Nat)
  | capture (span : Nat) | checkpointDrain (n : Nat) | pullTimeout (n now : Nat) | deadlineCheck (now : Nat)
  | codeRewrite (x : CodeIn)
  | pstepEval (watts temp : Nat) (now : Nat) | powerCapCall (watts : Nat)
  | pldmFirmwareUpdate (image : List Byte)
  | flitReceive (port : Nat) (f : Flit) (now : Nat) | portStateChange (port : Nat) (up : Bool)
  | routerHop (p : Packet)
  | fabricWrite (p : Packet) | read (p : Packet) | rdata (p : Packet) | fabricAtom (p : Packet) | adata (p : Packet)
  | fabricSignal (p : Packet) | marker (p : Packet) | mack (p : Packet) | notice (p : Packet) | error (p : Packet)
  | withdraw (p : Packet) | pull (p : Packet) | page (p : Packet) | piece (p : Packet) | linkstate (p : Packet)
  | qnotify (p : Packet) | remoteTimeout (tag now : Nat) | rtflush (value : Dword)
  | registerWrite (addr : Nat) (value : Dword) (mode : HMode)
  | uetRmaWrite (r : GwReq) | uetRmaRead (r : GwReq) | uetSend (r : GwReq) | ualinkRequest (r : GwReq)
  | symbolLockLoss (port lane now : Nat) | release (p : Packet) | gatewayResponse (tag : Nat) (ok : Bool) (data : List Byte)
  | hbmStackLoss (stack : Nat) | migrationCopy (asid : Nat) (va : Va) (newFrame : Nat)
  deriving DecidableEq, Repr

end Sys2Proof
end

