-- ==== Sys2Proof/Decode.lean ====
section
/-! DEFINITION. Instruction words (R17-R20, R24-R39 and the encoding tables of the instruction chapters): the fields of
word 0 and of the words after it, the decoder from fields to `Instr` (steps 3, 5 and 6 of R36; the register classes of
step 7 are checked when the instruction executes), and after it the encoder written from the same tables. -/

namespace Sys2Proof

/-! ## Fields -/

/-- Word 0 without LEN (R17). -/
structure Word0 where
  major : BitVec 8
  u     : Bool
  pred  : BitVec 3
  pneg  : Bool
  dst   : BitVec 8
  sa    : BitVec 8
  sb    : BitVec 8
  sc    : BitVec 8
  te    : BitVec 3
  mod   : BitVec 8
  hint  : BitVec 3
  rsv   : BitVec 3
  deriving DecidableEq, Repr

/-- The extension word (R19). -/
structure Ext where
  xa   : BitVec 8
  xb   : BitVec 8
  xc   : BitVec 8
  xd   : BitVec 8
  xte  : BitVec 4
  ximm : BitVec 28
  deriving DecidableEq, Repr

/-- What follows word 0, by LEN (R18). -/
inductive Tail where
  | none
  | imm (v : BitVec 32)
  | long (v : BitVec 64)
  deriving DecidableEq, Repr

/-- An instruction word as fields. -/
structure Enc where
  w : Word0
  t : Tail
  deriving DecidableEq, Repr

/-- LEN of a word (R17). -/
def Tail.len : Tail → BitVec 2
  | .none => 1
  | .imm _ => 2
  | .long _ => 3

/-- Length in bytes. -/
def Tail.size : Tail → Nat
  | .none => 8
  | .imm _ => 12
  | .long _ => 16

/-- The 64 bits of word 0 (R17). -/
def Word0.bits (w : Word0) (len : BitVec 2) : BitVec 64 :=
  w.rsv ++ w.hint ++ w.mod ++ w.te ++ w.sc ++ w.sb ++ w.sa ++ w.dst ++ BitVec.ofBool w.pneg ++ w.pred ++
    BitVec.ofBool w.u ++ w.major ++ len

/-- The fields of the 64 bits of word 0 (R17). -/
def Word0.ofBits (x : BitVec 64) : Word0 :=
  { major := x.extractLsb' 2 8, u := x.getLsbD 10, pred := x.extractLsb' 11 3, pneg := x.getLsbD 14,
    dst := x.extractLsb' 15 8, sa := x.extractLsb' 23 8, sb := x.extractLsb' 31 8, sc := x.extractLsb' 39 8,
    te := x.extractLsb' 47 3, mod := x.extractLsb' 50 8, hint := x.extractLsb' 58 3, rsv := x.extractLsb' 61 3 }

/-- The 64 bits of an extension word (R19). -/
def Ext.bits (e : Ext) : BitVec 64 := e.ximm ++ e.xte ++ e.xd ++ e.xc ++ e.xb ++ e.xa

/-- The fields of an extension word (R19). -/
def Ext.ofBits (x : BitVec 64) : Ext :=
  { xa := x.extractLsb' 0 8, xb := x.extractLsb' 8 8, xc := x.extractLsb' 16 8, xd := x.extractLsb' 24 8,
    xte := x.extractLsb' 32 4, ximm := x.extractLsb' 36 28 }

/-- The register a field names (R29). -/
def Reg.ofField (f : BitVec 8) : Reg :=
  if f.toNat < 0x80 then .v (f.truncate 7)
  else if f.toNat < 0xC0 then .s (f.truncate 6)
  else if f.toNat < 0xC8 then .k (f.truncate 3)
  else if f.toNat = 0xC8 then .zero
  else if f.toNat = 0xC9 then .lane
  else .bad ⟨(f.toNat - 0xCA) % 54, Nat.mod_lt _ (by decide)⟩

/-- The field that names a register (R29). -/
def Reg.field : Reg → BitVec 8
  | .v n => n.zeroExtend 8
  | .s n => 0x80 ||| n.zeroExtend 8
  | .k n => 0xC0 ||| n.zeroExtend 8
  | .zero => 0xC8
  | .lane => 0xC9
  | .bad n => BitVec.ofNat 8 (0xCA + n.val)

/-- The register has a full/empty bit, so that its TE bit may be set (R29, R33). Reserved encodings are left to
step 7. -/
def Reg.teable : Reg → Bool
  | .k _ | .zero | .lane => false
  | _ => true

/-- A source's TE bit is allowed (R33). -/
def Src.ok (s : Src) : Bool := !s.te || s.reg.teable

/-- The source a field and its TE bit give. -/
def Src.ofField (f : BitVec 8) (te : Bool) : Src := ⟨Reg.ofField f, te⟩

/-- An unused field: 0x00 with TE clear (R32). -/
def Src.unused : Src := ⟨.v 0, false⟩

/-- A resource field (R31): an index with TE clear. -/
def Src.index (f : BitVec 8) : Src := ⟨Reg.ofField f, false⟩

namespace Enc

def a (e : Enc) : Src := .ofField e.w.sa (e.w.te.getLsbD 0)
def b (e : Enc) : Src := .ofField e.w.sb (e.w.te.getLsbD 1)
def c (e : Enc) : Src := .ofField e.w.sc (e.w.te.getLsbD 2)
def d (e : Enc) : Reg := .ofField e.w.dst
def noA (e : Enc) : Bool := e.w.sa == 0 && !e.w.te.getLsbD 0
def noB (e : Enc) : Bool := e.w.sb == 0 && !e.w.te.getLsbD 1
def noC (e : Enc) : Bool := e.w.sc == 0 && !e.w.te.getLsbD 2
def noD (e : Enc) : Bool := e.w.dst == 0
def resA (e : Enc) : Bool := !e.w.te.getLsbD 0
def resC (e : Enc) : Bool := !e.w.te.getLsbD 2
def guard (e : Enc) : Guard := ⟨e.w.hint, e.w.u, e.w.pneg, e.w.pred⟩
/-- Bits `n` up of MOD, `k` of them. -/
def m (e : Enc) (n k : Nat) : BitVec k := e.w.mod.extractLsb' n k

end Enc

/-- U and PRED with PNEG are assigned values (R26, R28). -/
def Guard.ok (uni : Bool) (g : Guard) : Bool := (uni || !g.uni) && !(g.neg && g.pred == 0)

/-- PRED and PNEG must be 0 (R155). -/
def Guard.plain (g : Guard) : Bool := !g.uni && !g.neg && g.pred == 0

/-- Go on when the condition holds. -/
def req (c : Bool) : Option Unit := if c then some () else none

/-! ## Codes of the MOD sub-fields -/

def RMode.code : RMode → BitVec 3
  | .fpctl => 0 | .rne => 1 | .rtz => 2 | .rup => 3 | .rdn => 4 | .rna => 5
def RMode.ofCode (x : BitVec 3) : Option RMode :=
  match x.toNat with
  | 0 => some .fpctl | 1 => some .rne | 2 => some .rtz | 3 => some .rup | 4 => some .rdn | 5 => some .rna | _ => none

def FWidth.code : FWidth → BitVec 2
  | .f64 => 0 | .f32 => 1 | .f16 => 2 | .bf16 => 3
def FWidth.ofCode (x : BitVec 2) : FWidth :=
  match x.toNat with
  | 0 => .f64 | 1 => .f32 | 2 => .f16 | _ => .bf16

def Scope.code : Scope → BitVec 3
  | .weft => 0 | .bolt => 1 | .course => 2 | .span => 3 | .domain => 4
def Scope.ofCode (x : BitVec 3) : Option Scope :=
  match x.toNat with
  | 0 => some .weft | 1 => some .bolt | 2 => some .course | 3 => some .span | 4 => some .domain | _ => none

/-- The two-bit local scope reaches COURSE (R196). -/
def Scope.local : Scope → Bool
  | .weft | .bolt | .course => true
  | _ => false

def Sem.code : Sem → BitVec 2
  | .relaxed => 0 | .acq => 1 | .rel => 2 | .ar => 3
def Sem.ofCode (x : BitVec 2) : Sem :=
  match x.toNat with
  | 0 => .relaxed | 1 => .acq | 2 => .rel | _ => .ar

def ICond.code : ICond → BitVec 3
  | .eq => 0 | .ne => 1 | .lt => 2 | .le => 3 | .gt => 4 | .ge => 5
def ICond.ofCode (x : BitVec 3) : Option ICond :=
  match x.toNat with
  | 0 => some .eq | 1 => some .ne | 2 => some .lt | 3 => some .le | 4 => some .gt | 5 => some .ge | _ => none

def FCond.code : FCond → BitVec 3
  | .eq => 0 | .ne => 1 | .lt => 2 | .le => 3 | .gt => 4 | .ge => 5 | .num => 6 | .nan => 7
def FCond.ofCode (x : BitVec 3) : FCond :=
  match x.toNat with
  | 0 => .eq | 1 => .ne | 2 => .lt | 3 => .le | 4 => .gt | 5 => .ge | 6 => .num | _ => .nan

def FoldOp.code : FoldOp → BitVec 3
  | .add => 0 | .min => 1 | .max => 2 | .and => 3 | .or => 4 | .xor => 5
def FoldOp.ofCode (x : BitVec 3) : Option FoldOp :=
  match x.toNat with
  | 0 => some .add | 1 => some .min | 2 => some .max | 3 => some .and | 4 => some .or | 5 => some .xor | _ => none

def FoldTy.code : FoldTy → BitVec 3
  | .i64 => 0 | .i32 => 1 | .u64 => 2 | .u32 => 3 | .f64 => 4 | .f32 => 5
def FoldTy.ofCode (x : BitVec 3) : Option FoldTy :=
  match x.toNat with
  | 0 => some .i64 | 1 => some .i32 | 2 => some .u64 | 3 => some .u32 | 4 => some .f64 | 5 => some .f32 | _ => none

/-- .AND, .OR and .XOR have no float type (R165). -/
def foldOk (op : FoldOp) (ty : FoldTy) : Bool :=
  match op, ty with
  | .and, .f64 | .and, .f32 | .or, .f64 | .or, .f32 | .xor, .f64 | .xor, .f32 => false
  | _, _ => true

def XchMode.code : XchMode → BitVec 2
  | .at => 0 | .below => 1 | .above => 2 | .flip => 3
def XchMode.ofCode (x : BitVec 2) : XchMode :=
  match x.toNat with
  | 0 => .at | 1 => .below | 2 => .above | _ => .flip

def VoteMode.code : VoteMode → BitVec 8
  | .all => 0 | .any => 1 | .same => 2
def VoteMode.ofCode (x : BitVec 8) : Option VoteMode :=
  match x.toNat with
  | 0 => some .all | 1 => some .any | 2 => some .same | _ => none

def AtomOp.code : AtomOp → BitVec 4
  | .add => 0 | .min => 1 | .max => 2 | .umin => 3 | .umax => 4 | .and => 5 | .or => 6 | .xor => 7 | .xchg => 8
  | .cas => 9 | .inc => 10 | .dec => 11 | .fadd => 12
def AtomOp.ofCode (x : BitVec 4) : Option AtomOp :=
  match x.toNat with
  | 0 => some .add | 1 => some .min | 2 => some .max | 3 => some .umin | 4 => some .umax | 5 => some .and
  | 6 => some .or | 7 => some .xor | 8 => some .xchg | 9 => some .cas | 10 => some .inc | 11 => some .dec
  | 12 => some .fadd | _ => none

/-- A number below `n`, or none. -/
def finOf (n : Nat) (x : Nat) : Option (Fin n) := if h : x < n then some ⟨x, h⟩ else none

/-- The tags of R52. -/
def tagValid (t : BitVec 6) : Bool :=
  let rd := t.toNat / 16
  let f := t.toNat % 16
  if f = 7 then rd < 3 else if f = 8 then rd = 0 || rd = 2 else f ≤ 10 && rd = 0

/-- Numbers of the system-register map (R174). -/
def sysregs : List Nat :=
  [0x000, 0x001, 0x002, 0x003, 0x004, 0x005, 0x010, 0x011, 0x012, 0x013, 0x014, 0x015, 0x016, 0x017,
   0x020, 0x021, 0x022, 0x023, 0x024, 0x025, 0x026]

/-! ## Decoders, one per shape -/

namespace Dec

/-- MOD bits 2:0 of the integer family (R34), with the choices an entry allows. -/
def imod (e : Enc) : IMod := ⟨e.w.mod.getLsbD 0, e.w.mod.getLsbD 1, e.w.mod.getLsbD 2⟩
def imodOk (un sat : Bool) (m : IMod) : Bool := (un || !m.un) && (sat || !m.sat)

/-- Source B or the 96-bit immediate in its place (R20). -/
def srcB (e : Enc) : Option SrcI :=
  match e.t with
  | .none => do req e.b.ok; pure (.reg e.b)
  | .imm v => do req e.noB; pure (.imm v)
  | .long _ => none

/-- The signed addend of the 96-bit form, which displaces no field (R196, R239). -/
def addend (e : Enc) : Option (Option (BitVec 32)) :=
  match e.t with
  | .none => some none
  | .imm v => some (some v)
  | .long _ => none

def only64 (e : Enc) : Option Unit := req (e.t == .none)

def ext (e : Enc) : Option Ext :=
  match e.t with
  | .long v => some (Ext.ofBits v)
  | _ => none

def imm (e : Enc) : Option (BitVec 32) :=
  match e.t with
  | .imm v => some v
  | _ => none

def iun (un sat : Bool) (e : Enc) : Option IUn := do
  only64 e
  req (e.guard.ok true && imodOk un sat (imod e) && e.m 3 5 == 0 && e.a.ok && e.noB && e.noC)
  pure ⟨e.guard, imod e, e.d, e.a⟩

def ibin (un sat : Bool) (e : Enc) : Option IBin := do
  req (e.guard.ok true && imodOk un sat (imod e) && e.m 3 5 == 0 && e.a.ok && e.noC)
  let b ← srcB e
  pure ⟨e.guard, imod e, e.d, e.a, b⟩

def itri (un sat : Bool) (e : Enc) : Option ITri := do
  req (e.guard.ok true && imodOk un sat (imod e) && e.m 3 5 == 0 && e.a.ok && e.c.ok)
  let b ← srcB e
  pure ⟨e.guard, imod e, e.d, e.a, b, e.c⟩

def icmp (e : Enc) : Option ICmpArgs := do
  let c ← ICond.ofCode (e.m 3 3)
  req (e.guard.ok true && e.m 2 1 == 0 && e.m 6 2 == 0 && e.a.ok && e.noC)
  let b ← srcB e
  pure ⟨e.guard, e.w.mod.getLsbD 0, e.w.mod.getLsbD 1, c, e.d, e.a, b⟩

def lea (e : Enc) : Option LeaArgs := do
  req (e.guard.ok true && e.m 0 1 == 0 && e.m 2 1 == 0 && e.m 6 2 == 0 && e.a.ok && e.noC)
  let b ← srcB e
  pure ⟨e.guard, e.w.mod.getLsbD 1, e.m 3 3, e.d, e.a, b⟩

def lun (uni : Bool) (e : Enc) : Option LUn := do
  only64 e
  req (e.guard.ok uni && e.w.mod == 0 && e.a.ok && e.noB && e.noC)
  pure ⟨e.guard, e.d, e.a⟩

def lbin (e : Enc) : Option LBin := do
  req (e.guard.ok true && e.w.mod == 0 && e.a.ok && e.noC)
  let b ← srcB e
  pure ⟨e.guard, e.d, e.a, b⟩

/-- Rounding codes allowed: all six, or 000 only. -/
def rmode (any : Bool) (x : BitVec 3) : Option RMode := do
  let r ← RMode.ofCode x
  req (any || r == .fpctl)
  pure r

def fun1 (any : Bool) (e : Enc) : Option FUn := do
  only64 e
  let r ← rmode any (e.m 2 3)
  req (e.guard.ok true && e.m 5 3 == 0 && e.a.ok && e.noB && e.noC)
  pure ⟨e.guard, FWidth.ofCode (e.m 0 2), r, e.d, e.a⟩

/-- A binary16 or BF16 immediate has bits 31:16 zero (R20). -/
def fimmOk (w : FWidth) : SrcI → Bool
  | .reg _ => true
  | .imm v => match w with
    | .f64 | .f32 => true
    | .f16 | .bf16 => v.extractLsb' 16 16 == 0

def fbin (e : Enc) : Option FBin := do
  let r ← rmode true (e.m 2 3)
  req (e.guard.ok true && e.m 5 3 == 0 && e.a.ok && e.noC)
  let b ← srcB e
  req (fimmOk (FWidth.ofCode (e.m 0 2)) b)
  pure ⟨e.guard, FWidth.ofCode (e.m 0 2), r, e.d, e.a, b⟩

/-- FSCALE: its immediate is an integer (R136). -/
def fscale (e : Enc) : Option FBin := do
  let r ← rmode true (e.m 2 3)
  req (e.guard.ok true && e.m 5 3 == 0 && e.a.ok && e.noC)
  let b ← srcB e
  pure ⟨e.guard, FWidth.ofCode (e.m 0 2), r, e.d, e.a, b⟩

def ftri (e : Enc) : Option FTri := do
  let r ← rmode true (e.m 2 3)
  req (e.guard.ok true && e.m 5 3 == 0 && e.a.ok && e.c.ok)
  let b ← srcB e
  req (fimmOk (FWidth.ofCode (e.m 0 2)) b)
  pure ⟨e.guard, FWidth.ofCode (e.m 0 2), r, e.d, e.a, b, e.c⟩

def fminmax (e : Enc) : Option FMinMaxArgs := do
  req (e.guard.ok true && e.m 2 3 == 0 && e.m 6 2 == 0 && e.a.ok && e.noC)
  let b ← srcB e
  req (fimmOk (FWidth.ofCode (e.m 0 2)) b)
  pure ⟨e.guard, FWidth.ofCode (e.m 0 2), e.w.mod.getLsbD 5, e.d, e.a, b⟩

def fcmp (e : Enc) : Option FCmpArgs := do
  req (e.guard.ok true && e.m 2 3 == 0 && e.a.ok && e.noC)
  let b ← srcB e
  req (fimmOk (FWidth.ofCode (e.m 0 2)) b)
  pure ⟨e.guard, FWidth.ofCode (e.m 0 2), FCond.ofCode (e.m 5 3), e.d, e.a, b⟩

/-- The packed widths are .F16 and .BF16 (R139). -/
def packed : FWidth → Bool
  | .f16 | .bf16 => true
  | _ => false

def pbin (e : Enc) : Option FBin := do
  only64 e
  let r ← rmode true (e.m 2 3)
  req (e.guard.ok true && packed (FWidth.ofCode (e.m 0 2)) && e.m 5 3 == 0 && e.a.ok && e.b.ok && e.noC)
  pure ⟨e.guard, FWidth.ofCode (e.m 0 2), r, e.d, e.a, .reg e.b⟩

def ptri (e : Enc) : Option FTri := do
  only64 e
  let r ← rmode true (e.m 2 3)
  req (e.guard.ok true && packed (FWidth.ofCode (e.m 0 2)) && e.m 5 3 == 0 && e.a.ok && e.b.ok && e.c.ok)
  pure ⟨e.guard, FWidth.ofCode (e.m 0 2), r, e.d, e.a, .reg e.b, e.c⟩

def dot (any : Bool) (e : Enc) : Option DotArgs := do
  only64 e
  let r ← rmode any (e.m 2 3)
  req (e.guard.ok true && e.m 0 2 == 0 && e.m 5 3 == 0 && e.a.ok && e.b.ok && e.c.ok)
  pure ⟨e.guard, r, e.d, e.a, e.b, e.c⟩

def cvt (e : Enc) : Option CvtArgs := do
  only64 e
  let r ← rmode true (e.m 4 3)
  req (e.guard.ok true && e.a.ok && e.noB && e.noC)
  pure ⟨e.guard, e.m 0 4, r, e.w.mod.getLsbD 7, e.d, e.a⟩

/-- The targets of CVTS: 0x5 to 0x9 and 0xB to 0xD (R144). -/
def cvtsTarget (t : BitVec 4) : Bool := 5 ≤ t.toNat && t.toNat ≤ 13 && t.toNat != 10

def cvts (e : Enc) : Option CvtsArgs := do
  only64 e
  req (e.guard.ok true && cvtsTarget (e.m 0 4) && e.m 7 1 == 0 && e.a.ok && e.b.ok)
  if e.m 4 3 == 6 then do
    req e.c.ok
    pure ⟨e.guard, e.m 0 4, .fpctl, e.d, e.a, e.b, some e.c⟩
  else do
    let r ← rmode true (e.m 4 3)
    req e.noC
    pure ⟨e.guard, e.m 0 4, r, e.d, e.a, e.b, none⟩

def pack (e : Enc) : Option PackArgs := do
  only64 e
  req (e.guard.ok true && e.m 4 4 == 0 && e.a.ok && e.b.ok && e.noC)
  pure ⟨e.guard, e.m 0 4, e.d, e.a, e.b⟩

def unpack (e : Enc) : Option UnpackArgs := do
  only64 e
  req (e.guard.ok true && e.m 4 4 == 0 && e.a.ok && e.noB && e.noC)
  pure ⟨e.guard, e.m 0 4, e.d, e.a⟩

def settag (e : Enc) : Option SettagArgs := do
  only64 e
  req (e.guard.ok true && e.m 6 2 == 0 && tagValid (e.m 0 6) && e.a.ok && e.noB && e.noC)
  pure ⟨e.guard, e.m 0 6, e.d, e.a⟩

def cvtk (e : Enc) : Option CvtkArgs := do
  only64 e
  req (e.guard.ok true && e.m 1 7 == 0 && e.a.ok && e.noB && e.noC)
  pure ⟨e.guard, e.w.mod.getLsbD 0, e.d, e.a⟩

/-- The 96-bit immediate of MOVI fits its tag (R149). -/
def movi96Ok (tag : BitVec 6) (v : BitVec 32) : Bool :=
  tagValid tag && (!(tag == 5 || tag == 6) || v.extractLsb' 16 16 == 0)

/-- The 128-bit immediate of MOVI fits its tag (R149). -/
def movi128Ok (tag : BitVec 6) (v : BitVec 64) : Bool :=
  tagValid tag && (!(tag == 2 || tag == 4) || v.extractLsb' 32 32 == 0)

def movi (e : Enc) : Option Instr := do
  req (e.guard.ok true && e.m 6 2 == 0 && e.noA && e.noB && e.noC)
  match e.t with
  | .none => none
  | .imm v => do
    req (movi96Ok (e.m 0 6) v)
    pure (.movi96 ⟨e.guard, e.m 0 6, e.d, v⟩)
  | .long v => do
    req (movi128Ok (e.m 0 6) v)
    pure (.movi128 ⟨e.guard, e.m 0 6, e.d, v⟩)

def sel (e : Enc) : Option SelArgs := do
  only64 e
  req (e.guard.ok true && e.w.mod == 0 && e.a.ok && e.b.ok && e.c.ok)
  pure ⟨e.guard, e.d, e.a, e.b, e.c⟩

def bcast (e : Enc) : Option BcastArgs := do
  only64 e
  req (e.guard.ok false && e.w.mod == 0 && e.a.ok && e.b.ok && e.noC)
  pure ⟨e.guard, e.d, e.a, e.b⟩

/-- MOVK (R152): the form is told by the length and, in 64 bits, by whether SA names a mask. -/
def movk (e : Enc) : Option Instr := do
  req (e.guard.ok false && e.w.mod == 0 && e.noB && e.noC)
  match e.t with
  | .none => do
    req e.a.ok
    match e.a.reg with
    | .k _ => pure (.movkToScalar ⟨e.guard, e.d, e.a⟩)
    | _ => pure (.movkFromScalar ⟨e.guard, e.d, e.a⟩)
  | .imm v => do
    req e.noA
    pure (.movkImmediate ⟨e.guard, e.d, v⟩)
  | .long _ => none

def kbin (e : Enc) : Option KBin := do
  only64 e
  req (e.guard.ok false && e.w.mod == 0 && e.a.ok && e.b.ok && e.noC)
  pure ⟨e.guard, e.d, e.a, e.b⟩

def kun (e : Enc) : Option KUn := do
  only64 e
  req (e.guard.ok false && e.w.mod == 0 && e.a.ok && e.noB && e.noC)
  pure ⟨e.guard, e.d, e.a⟩

def kpopc (e : Enc) : Option KpopcArgs := do
  only64 e
  req (e.guard.ok false && e.m 1 7 == 0 && e.a.ok && e.noB && e.noC)
  pure ⟨e.guard, e.w.mod.getLsbD 0, e.d, e.a⟩

def vote (e : Enc) : Option VoteArgs := do
  only64 e
  let mode ← VoteMode.ofCode e.w.mod
  req (e.guard.ok false && e.a.ok && e.noB && e.noC)
  pure ⟨e.guard, mode, e.d, e.a⟩

/-- In the 96-bit form of LXCH only imm[7:0] may be nonzero (R164). -/
def lxchImmOk : SrcI → Bool
  | .reg _ => true
  | .imm v => v.extractLsb' 8 24 == 0

def lxch (e : Enc) : Option LxchArgs := do
  let g ← finOf 5 (e.m 2 3).toNat
  req (e.guard.ok false && e.a.ok && e.noC)
  let b ← srcB e
  req (lxchImmOk b)
  pure ⟨e.guard, XchMode.ofCode (e.m 0 2), g, e.m 5 3, e.d, e.a, b⟩

def scan (e : Enc) : Option ScanArgs := do
  only64 e
  let op ← FoldOp.ofCode (e.m 0 3)
  let ty ← FoldTy.ofCode (e.m 4 3)
  req (e.guard.ok false && e.m 7 1 == 0 && foldOk op ty && e.a.ok && e.noB && e.noC)
  pure ⟨e.guard, op, e.w.mod.getLsbD 3, ty, e.d, e.a⟩

def reduce (e : Enc) : Option ReduceArgs := do
  only64 e
  let op ← FoldOp.ofCode (e.m 0 3)
  let ty ← FoldTy.ofCode (e.m 4 3)
  req (e.guard.ok false && e.m 3 1 == 0 && e.m 7 1 == 0 && foldOk op ty && e.a.ok && e.noB && e.noC)
  pure ⟨e.guard, op, ty, e.d, e.a⟩

def matchLanes (e : Enc) : Option MatchArgs := do
  only64 e
  req (e.guard.ok false && e.m 1 7 == 0 && e.a.ok && e.noB && e.noC)
  pure ⟨e.guard, e.w.mod.getLsbD 0, e.d, e.a⟩

def elect (e : Enc) : Option ElectArgs := do
  only64 e
  req (e.guard.ok false && e.w.mod == 0 && e.noA && e.noB && e.noC)
  pure ⟨e.guard, e.d⟩

def compact (e : Enc) : Option CompactArgs := do
  only64 e
  req (e.guard.ok false && e.w.mod == 0 && e.a.ok && e.b.ok && e.noC)
  pure ⟨e.guard, e.d, e.a, e.b⟩

def bra (e : Enc) : Option BraArgs := do
  let v ← imm e
  req (e.guard.ok false && e.noD && e.noA && e.noB && e.noC)
  pure ⟨e.guard, e.w.mod, v⟩

def brx (e : Enc) : Option BrxArgs := do
  let v ← imm e
  req (e.guard.ok false && e.noD && e.a.ok && e.noB && e.noC)
  pure ⟨e.guard, e.w.mod, e.a, v⟩

def call (e : Enc) : Option Instr := do
  let v ← imm e
  req (e.guard.plain && e.m 1 7 == 0 && e.noB && e.noC)
  if e.w.mod.getLsbD 0 then do
    req e.a.ok
    pure (.callR ⟨e.guard, e.d, e.a, v⟩)
  else do
    req e.noA
    pure (.call ⟨e.guard, e.d, v⟩)

def ret (e : Enc) : Option RetArgs := do
  only64 e
  req (e.guard.plain && e.w.mod == 0 && e.noD && e.a.ok && e.noB && e.noC)
  pure ⟨e.guard, e.a⟩

def join (e : Enc) : Option JoinArgs := do
  only64 e
  req (e.guard.plain && e.noD && e.noA && e.noB && e.noC)
  pure ⟨e.guard, e.w.mod⟩

/-- No operands; `plain` asks for k0. -/
def bare (plain : Bool) (e : Enc) : Option PlainArgs := do
  only64 e
  req ((if plain then e.guard.plain else e.guard.ok false) && e.w.mod == 0 && e.noD && e.noA && e.noB && e.noC)
  pure ⟨e.guard⟩

def code (e : Enc) : Option CodeArgs := do
  let v ← addend e
  req (e.guard.ok false && e.w.mod == 0 && e.noD && e.noA && e.noB && e.noC)
  pure ⟨e.guard, v⟩

def dec (e : Enc) : Option DecArgs := do
  only64 e
  req (e.guard.ok false && e.m 1 7 == 0 && e.a.ok && e.noB && e.resC)
  pure ⟨e.guard, e.w.mod.getLsbD 0, e.d, e.a, e.c.reg⟩

def decd (e : Enc) : Option DecdArgs := do
  only64 e
  req (e.guard.ok false && e.m 1 7 == 0 && e.a.ok && e.b.ok && e.resC)
  pure ⟨e.guard, e.w.mod.getLsbD 0, e.d, e.a, e.b, e.c.reg⟩

def decs (e : Enc) : Option DecsArgs := do
  only64 e
  req (e.guard.ok false && e.w.mod == 0 && e.a.ok && e.b.ok && e.resC)
  pure ⟨e.guard, e.d, e.a, e.b, e.c.reg⟩

/-- An optional scope: its code must be 0 when the semantics bit is clear (R196). -/
def optScope (on : Bool) (x : BitVec 3) : Option (Option Scope) :=
  if on then do
    let s ← Scope.ofCode x
    pure (some s)
  else do
    req (x == 0)
    pure none

/-- The two-bit local scope (R196). -/
def optLocal (on : Bool) (x : BitVec 2) : Option (Option Scope) := do
  req (x != 3)
  optScope on (x.zeroExtend 3)

def ld (e : Enc) : Option LdArgs := do
  let fmt ← finOf 11 (e.m 0 4).toNat
  let acq ← optScope (e.w.mod.getLsbD 4) (e.m 5 3)
  req (e.guard.ok false && e.resA && e.b.ok && e.noC)
  let add ← addend e
  pure ⟨e.guard, fmt, acq, e.d, e.w.sa, e.b, add⟩

def st (e : Enc) : Option StArgs := do
  let r ← rmode true (e.m 0 3)
  let rel ← optScope (e.w.mod.getLsbD 4) (e.m 5 3)
  req (e.guard.ok false && e.noD && e.resA && e.b.ok && e.c.ok)
  let add ← addend e
  pure ⟨e.guard, r, e.w.mod.getLsbD 3, rel, e.w.sa, e.b, add, e.c⟩

/-- The bolt operand of a .X form (R200, R239). -/
def boltX (x : Bool) (e : Enc) : Option (Option Src) :=
  if x then do
    req e.a.ok
    pure (some e.a)
  else do
    req e.noA
    pure none

def lds (e : Enc) : Option LdsArgs := do
  let kind ← finOf 15 (e.m 0 4).toNat
  let acq ← optLocal (e.w.mod.getLsbD 4) (e.m 5 2)
  let bx ← boltX (e.w.mod.getLsbD 7) e
  req (e.guard.ok false && e.b.ok && e.noC)
  let add ← addend e
  pure ⟨e.guard, kind, acq, bx, e.d, e.b, add⟩

def sts (e : Enc) : Option StsArgs := do
  let rel ← optLocal (e.w.mod.getLsbD 4) (e.m 5 2)
  let bx ← boltX (e.w.mod.getLsbD 7) e
  req (e.guard.ok false && e.m 2 2 == 0 && e.noD && e.b.ok && e.c.ok)
  let add ← addend e
  pure ⟨e.guard, e.m 0 2, rel, bx, e.b, add, e.c⟩

def ldv (e : Enc) : Option LdvArgs := do
  let kind ← finOf 15 (e.m 0 4).toNat
  let acq ← optLocal (e.w.mod.getLsbD 4) (e.m 5 2)
  req (e.guard.ok false && e.m 7 1 == 0 && e.noA && e.b.ok && e.noC)
  let add ← addend e
  pure ⟨e.guard, kind, acq, e.d, e.b, add⟩

def stv (e : Enc) : Option StvArgs := do
  let rel ← optLocal (e.w.mod.getLsbD 4) (e.m 5 2)
  req (e.guard.ok false && e.m 7 1 == 0 && e.m 2 2 == 0 && e.noD && e.noA && e.b.ok && e.c.ok)
  let add ← addend e
  pure ⟨e.guard, e.m 0 2, rel, e.b, add, e.c⟩

/-- The space of an ATOM or RED (R201). -/
def atomBase (e : Enc) : Option AtomBase :=
  match (e.m 6 2).toNat with
  | 0 => do req e.resA; pure (.record e.w.sa)
  | 1 => do req e.noA; pure .own
  | 2 => do req e.a.ok; pure (.bolt e.a)
  | _ => do req e.noA; pure .vault

/-- A scope above COURSE is reserved with a scratchpad or vault space (R201). -/
def atomScopeOk (b : AtomBase) (s : Scope) : Bool :=
  match b with
  | .record _ => true
  | _ => s.local

/-- The sub-fields of the 96-bit form fit the operation, the semantics and the space (R201). -/
def atomExtOk (op : AtomOp) (sem : Sem) (b : AtomBase) : Option AtomExt → Bool
  | none => sem == .relaxed
  | some x => (!x.ord || op == .fadd) && (sem != .relaxed || x.scope == .weft) && atomScopeOk b x.scope

def atomExt (e : Enc) : Option (Option AtomExt) :=
  match e.t with
  | .none => some none
  | .imm v => do
    req (v.extractLsb' 20 12 == 0)
    let s ← Scope.ofCode (v.extractLsb' 16 3)
    pure (some ⟨v.getLsbD 19, s, v.extractLsb' 0 16⟩)
  | .long _ => none

def atom (e : Enc) : Option AtomArgs := do
  let op ← AtomOp.ofCode (e.m 0 4)
  let base ← atomBase e
  let x ← atomExt e
  req (e.guard.ok false && atomExtOk op (Sem.ofCode (e.m 4 2)) base x && e.b.ok && e.c.ok)
  pure ⟨e.guard, op, Sem.ofCode (e.m 4 2), base, e.d, e.b, e.c, x⟩

/-- RED has no XCHG, no CAS and no acquire (R201, R202). -/
def redOk (op : AtomOp) (sem : Sem) : Bool := op != .xchg && op != .cas && (sem == .relaxed || sem == .rel)

def red (e : Enc) : Option RedArgs := do
  let op ← AtomOp.ofCode (e.m 0 4)
  let base ← atomBase e
  let x ← atomExt e
  req (e.guard.ok false && redOk op (Sem.ofCode (e.m 4 2)) && atomExtOk op (Sem.ofCode (e.m 4 2)) base x &&
    e.noD && e.b.ok && e.c.ok)
  pure ⟨e.guard, op, Sem.ofCode (e.m 4 2), base, e.b, e.c, x⟩

def fence (e : Enc) : Option FenceArgs := do
  only64 e
  let s ← Scope.ofCode (e.m 2 3)
  req (e.guard.ok false && Sem.ofCode (e.m 0 2) != .relaxed && e.m 5 3 == 0 && e.noD && e.noA && e.noB && e.noC)
  pure ⟨e.guard, Sem.ofCode (e.m 0 2), s⟩

def waitv (e : Enc) : Option WaitvArgs := do
  let acq ← optScope (e.w.mod.getLsbD 3) (e.m 4 3)
  req (e.guard.ok false && e.m 1 1 == 0 && e.m 7 1 == 0 && e.resA && e.b.ok && e.c.ok)
  let add ← addend e
  pure ⟨e.guard, e.w.mod.getLsbD 0, e.w.mod.getLsbD 2, acq, e.d, e.w.sa, e.b, add, e.c⟩

def pref (e : Enc) : Option PrefArgs := do
  req (e.guard.ok false && e.m 1 7 == 0 && e.noD && e.resA && e.b.ok && e.noC)
  let add ← addend e
  pure ⟨e.guard, e.w.mod.getLsbD 0, e.w.sa, e.b, add⟩

def cline (e : Enc) : Option ClineArgs := do
  let op ← finOf 5 (e.m 0 3).toNat
  req (e.guard.ok false && e.m 3 5 == 0 && e.noD && e.resA && e.b.ok && e.noC)
  let add ← addend e
  pure ⟨e.guard, op, e.w.sa, e.b, add⟩

def lease (e : Enc) : Option LeaseArgs := do
  req (e.guard.ok false && e.w.mod == 0 && e.noB && e.noC)
  match e.t with
  | .none => do req e.a.ok; pure ⟨e.guard, e.d, .reg e.a⟩
  | .imm v => do req e.noA; pure ⟨e.guard, e.d, .imm v⟩
  | .long _ => none

def brload (e : Enc) : Option BrloadArgs := do
  req (e.guard.ok false && e.w.mod == 0 && e.noA && e.b.ok && e.noC)
  let add ← addend e
  pure ⟨e.guard, e.w.dst, e.b, add⟩

def bufdecl (e : Enc) : Option BufdeclArgs := do
  req (e.guard.ok false && e.m 1 7 == 0 && e.a.ok && e.b.ok && e.c.ok)
  let add ← addend e
  pure ⟨e.guard, e.w.mod.getLsbD 0, e.d, e.a, e.b, e.c, add⟩

def bufrel (e : Enc) : Option BufrelArgs := do
  req (e.guard.ok false && e.w.mod == 0 && e.noD && e.noA && e.b.ok && e.noC)
  let add ← addend e
  pure ⟨e.guard, e.b, add⟩

def bufstate (e : Enc) : Option Instr := do
  req (e.guard.ok false && e.m 3 5 == 0 && e.noA && e.b.ok && e.noC)
  let add ← addend e
  match (e.m 0 3).toNat with
  | 0 => pure (.bufstateGet ⟨e.guard, e.d, e.b, add⟩)
  | 1 => pure (.bufstateFill ⟨e.guard, e.d, e.b, add⟩)
  | 2 => pure (.bufstateDrain ⟨e.guard, e.d, e.b, add⟩)
  | 3 => pure (.bufstateFree ⟨e.guard, e.d, e.b, add⟩)
  | 4 => pure (.bufstateWfull ⟨e.guard, e.d, e.b, add⟩)
  | 5 => pure (.bufstateWfree ⟨e.guard, e.d, e.b, add⟩)
  | _ => none

def barinit (e : Enc) : Option BarinitArgs := do
  req (e.guard.ok false && e.m 1 7 == 0 && e.noA && e.b.ok && e.c.ok)
  let add ← addend e
  pure ⟨e.guard, e.w.mod.getLsbD 0, e.d, e.b, e.c, add⟩

def barinval (e : Enc) : Option BarinvalArgs := do
  req (e.guard.ok false && e.w.mod == 0 && e.noD && e.noA && e.b.ok && e.noC)
  let add ← addend e
  pure ⟨e.guard, e.b, add⟩

def bararrive (e : Enc) : Option BararriveArgs := do
  let bx ← boltX (e.w.mod.getLsbD 7) e
  req (e.guard.ok false && e.m 1 6 == 0 && e.b.ok && e.noC)
  let add ← addend e
  pure ⟨e.guard, e.w.mod.getLsbD 0, e.d, bx, e.b, add⟩

/-- .ALL of BAREXPECT stands only with .ARR (R239). -/
def arrOf (arr all : Bool) : Option (Option Bool) :=
  if arr then some (some all) else do req (!all); pure none

def barexpect (e : Enc) : Option BarexpectArgs := do
  let bx ← boltX (e.w.mod.getLsbD 7) e
  let arr ← arrOf (e.w.mod.getLsbD 0) (e.w.mod.getLsbD 1)
  req (e.guard.ok false && e.m 2 5 == 0 && e.b.ok && e.c.ok)
  let add ← addend e
  pure ⟨e.guard, arr, e.d, bx, e.b, e.c, add⟩

def barwait (e : Enc) : Option BarwaitArgs := do
  let bx ← boltX (e.w.mod.getLsbD 7) e
  req (e.guard.ok false && e.m 0 7 == 0 && e.noD && e.b.ok && e.c.ok)
  let add ← addend e
  pure ⟨e.guard, bx, e.b, e.c, add⟩

def barphase (e : Enc) : Option BarphaseArgs := do
  let bx ← boltX (e.w.mod.getLsbD 7) e
  req (e.guard.ok false && e.m 0 7 == 0 && e.b.ok && e.noC)
  let add ← addend e
  pure ⟨e.guard, e.d, bx, e.b, add⟩

def cpyslice (e : Enc) : Option CpysliceArgs := do
  req (e.guard.ok false && e.w.mod == 0 && e.a.ok && e.b.ok && e.c.ok)
  let add ← addend e
  pure ⟨e.guard, e.d, e.a, e.b, e.c, add⟩

/-- XA to XD and the XTE bits are zero (R19). -/
def noX (x : Ext) : Bool := x.xa == 0 && x.xb == 0 && x.xc == 0 && x.xd == 0 && x.xte == 0

def cpyreg (e : Enc) : Option Instr := do
  let x ← ext e
  req (e.guard.ok false && e.m 1 7 == 0 && e.b.ok && e.c.ok && x.ximm.extractLsb' 8 20 == 0 && noX x)
  if e.w.mod.getLsbD 0 then do
    req (e.noD && e.a.ok)
    pure (.cpyregSt ⟨e.guard, e.a, e.b, e.c, x.ximm.extractLsb' 0 7, x.ximm.getLsbD 7⟩)
  else do
    req e.noA
    pure (.cpyregLd ⟨e.guard, e.d, e.b, e.c, x.ximm.extractLsb' 0 7, x.ximm.getLsbD 7⟩)

def cpy (e : Enc) : Option CpyArgs := do
  only64 e
  req (e.guard.ok false && e.w.mod == 0 && e.a.ok && e.noB && e.noC)
  pure ⟨e.guard, e.d, e.a⟩

def xa (x : Ext) : Src := .ofField x.xa (x.xte.getLsbD 0)
def xb (x : Ext) : Src := .ofField x.xb (x.xte.getLsbD 1)

def layout (e : Enc) : Option LayoutArgs := do
  let x ← ext e
  let esz ← finOf 5 (x.ximm.extractLsb' 0 3).toNat
  let perm ← finOf 4 (x.ximm.extractLsb' 3 4).toNat
  req (e.guard.ok false && e.w.mod == 0 && e.a.ok && e.b.ok && e.c.ok && (xa x).ok && (xb x).ok &&
    x.xc == 0 && x.xd == 0 && x.xte.extractLsb' 2 2 == 0 && x.ximm.extractLsb' 7 21 == 0)
  pure ⟨e.guard, e.d, e.a, e.b, e.c, xa x, xb x, esz, perm⟩

def mclaim (e : Enc) : Option MclaimArgs := do
  only64 e
  req (e.guard.ok false && e.w.mod == 0 && e.a.ok && e.noB && e.noC)
  pure ⟨e.guard, e.d, e.a⟩

def mrel (e : Enc) : Option MrelArgs := do
  only64 e
  req (e.guard.ok false && e.w.mod == 0 && e.noD && e.a.ok && e.noB && e.noC)
  pure ⟨e.guard, e.a⟩

/-- An operand-slot index is below 32 (R31). -/
def slot (f : BitVec 8) : Option (BitVec 5) := do
  req (f.extractLsb' 5 3 == 0)
  pure (f.extractLsb' 0 5)

def mload (e : Enc) : Option MloadArgs := do
  let x ← ext e
  let k ← slot e.w.dst
  req (e.guard.ok false && e.w.mod == 0 && e.a.ok && e.noC && noX x && x.ximm.extractLsb' 6 22 == 0 && tagValid (x.ximm.extractLsb' 0 6))
  if x.ximm.extractLsb' 0 6 == 9 then do
    req e.b.ok
    pure ⟨e.guard, k, e.a, x.ximm.extractLsb' 0 6, some e.b⟩
  else do
    req e.noB
    pure ⟨e.guard, k, e.a, x.ximm.extractLsb' 0 6, none⟩

def mergeOf (x : BitVec 2) : Option Merge :=
  match x.toNat with
  | 0 => some .arr | 1 => some .ord | _ => none

def mloop (e : Enc) : Option MloopArgs := do
  let x ← ext e
  let m ← mergeOf (x.ximm.extractLsb' 12 2)
  req (e.guard.ok false && e.w.mod == 0 && e.resA && e.b.ok && e.c.ok && (xa x).ok && x.xb == 0 && x.xc == 0 &&
    x.xd == 0 && x.xte.extractLsb' 1 3 == 0 && x.ximm.extractLsb' 16 12 == 0)
  pure ⟨e.guard, m, x.ximm.getLsbD 14, x.ximm.getLsbD 15, x.ximm.extractLsb' 0 12, e.d, e.w.sa, e.b, e.c, xa x⟩

def mma (e : Enc) : Option MmaArgs := do
  let x ← ext e
  let m ← mergeOf (x.ximm.extractLsb' 12 2)
  let sa ← slot e.w.sc
  let sb ← slot x.xa
  req (e.guard.ok false && e.w.mod == 0 && e.resA && e.b.ok && e.resC && x.xb == 0 && x.xc == 0 &&
    x.xd == 0 && x.xte == 0 && x.ximm.extractLsb' 16 12 == 0)
  pure ⟨e.guard, m, x.ximm.getLsbD 14, x.ximm.getLsbD 15, x.ximm.extractLsb' 0 12, e.d, e.w.sa, e.b, sa, sb⟩

def mscale (e : Enc) : Option MscaleArgs := do
  let x ← ext e
  req (e.guard.ok false && e.w.mod == 0 && e.noD && e.a.ok && e.b.ok && e.c.ok && (xa x).ok && x.xb == 0 &&
    x.xc == 0 && x.xd == 0 && x.xte.extractLsb' 1 3 == 0 && x.ximm == 0)
  pure ⟨e.guard, e.a, e.b, e.c, xa x⟩

def patOf (x : BitVec 2) : Option SpPat :=
  match x.toNat with
  | 0 => some .off | 1 => some .s24 | 2 => some .s48 | _ => none

def msparse (e : Enc) : Option MsparseArgs := do
  let x ← ext e
  let p ← patOf (x.ximm.extractLsb' 0 2)
  let k ← slot e.w.sa
  req (e.guard.ok false && e.w.mod == 0 && e.noD && e.resA && e.b.ok && e.c.ok && noX x && x.ximm.extractLsb' 2 26 == 0)
  pure ⟨e.guard, p, k, e.b, e.c⟩

def mfence (e : Enc) : Option MfenceArgs := do
  only64 e
  req (e.guard.ok false && e.w.mod == 0 && e.noA && e.noB && e.noC)
  pure ⟨e.guard, e.d⟩

def mwait (e : Enc) : Option MwaitArgs := do
  req (e.guard.ok false && e.w.mod == 0 && e.noB && e.noC)
  match e.t with
  | .none => do req e.a.ok; pure ⟨e.guard, e.d, .reg e.a⟩
  | .imm v => do req e.noA; pure ⟨e.guard, e.d, .imm v⟩
  | .long _ => none

def popw (e : Enc) : Option PopwArgs := do
  only64 e
  req (e.guard.ok false && e.w.mod == 0 && e.resA && e.noB && e.noC)
  pure ⟨e.guard, e.d, e.w.sa⟩

def pushw (e : Enc) : Option PushwArgs := do
  only64 e
  req (e.guard.ok false && e.w.mod == 0 && e.resA && e.b.ok && e.noC)
  pure ⟨e.guard, e.d, e.w.sa, e.b⟩

def notify (e : Enc) : Option NotifyArgs := do
  only64 e
  req (e.guard.ok false && e.w.mod == 0 && e.noD && e.a.ok && e.b.ok && e.noC)
  pure ⟨e.guard, e.a, e.b⟩

def mbind (e : Enc) : Option MbindArgs := do
  only64 e
  req (e.guard.ok false && e.w.mod == 0 && e.a.ok && e.b.ok && e.noC)
  pure ⟨e.guard, e.d, e.a, e.b⟩

/-- MOD 7:5 of XLD and XST: 100 with the semantics bit, 000 without (R470). -/
def xscope (on : Bool) (x : BitVec 3) : Bool := if on then x == 4 else x == 0

def xld (e : Enc) : Option XldArgs := do
  let x ← ext e
  let fmt ← finOf 11 (e.m 0 4).toNat
  req (e.guard.ok false && xscope (e.w.mod.getLsbD 4) (e.m 5 3) && e.resA && e.b.ok && e.noC && noX x)
  pure ⟨e.guard, fmt, e.w.mod.getLsbD 4, e.d, e.w.sa, e.b, x.ximm⟩

def xst (e : Enc) : Option XstArgs := do
  let x ← ext e
  let r ← rmode true (e.m 0 3)
  req (e.guard.ok false && xscope (e.w.mod.getLsbD 4) (e.m 5 3) && e.noD && e.resA && e.b.ok && e.c.ok && noX x)
  pure ⟨e.guard, r, e.w.mod.getLsbD 3, e.w.mod.getLsbD 4, e.w.sa, e.b, e.c, x.ximm⟩

def xatom (e : Enc) : Option XatomArgs := do
  let x ← ext e
  let op ← AtomOp.ofCode (e.m 0 4)
  req (e.guard.ok false && e.m 6 2 == 0 && e.resA && e.b.ok && e.c.ok && noX x)
  pure ⟨e.guard, op, Sem.ofCode (e.m 4 2), e.d, e.w.sa, e.b, e.c, x.ximm⟩

def xsig (e : Enc) : Option XsigArgs := do
  req (e.guard.ok false && e.w.mod == 0 && e.noD && e.resA && e.b.ok)
  match e.t with
  | .none => do req e.c.ok; pure ⟨e.guard, e.w.sa, e.b, .reg e.c⟩
  | .imm v => do req e.noC; pure ⟨e.guard, e.w.sa, e.b, .imm v⟩
  | .long _ => none

def xfence (e : Enc) : Option XfenceArgs := do
  only64 e
  req (e.guard.ok false && Sem.ofCode (e.m 0 2) != .relaxed && e.m 2 6 == 0 && e.noD && e.noA && e.noB && e.noC)
  pure ⟨e.guard, Sem.ofCode (e.m 0 2)⟩

/-- An assigned system-register number, immediate bits 95:76 zero (R39). -/
def sysNum (v : BitVec 32) : Bool := v.extractLsb' 12 20 == 0 && sysregs.contains (v.extractLsb' 0 12).toNat

def getsr (e : Enc) : Option GetsrArgs := do
  let v ← imm e
  req (e.guard.ok false && e.w.mod == 0 && e.noA && e.noB && e.noC && sysNum v)
  pure ⟨e.guard, e.d, v.extractLsb' 0 12⟩

def setsr (e : Enc) : Option SetsrArgs := do
  let v ← imm e
  req (e.guard.ok false && e.w.mod == 0 && e.noD && e.a.ok && e.noB && e.noC && sysNum v)
  pure ⟨e.guard, v.extractLsb' 0 12, e.a⟩

def getid (e : Enc) : Option GetidArgs := do
  only64 e
  req (e.guard.ok false && e.m 3 5 == 0 && e.noA && e.noB && e.noC)
  pure ⟨e.guard, e.m 0 3, e.d⟩

def clock (e : Enc) : Option ClockArgs := do
  only64 e
  req (e.guard.ok false && e.w.mod == 0 && e.noA && e.noB && e.noC)
  pure ⟨e.guard, e.d⟩

def halt (e : Enc) : Option HaltArgs := do
  only64 e
  req (e.guard.ok false && e.w.mod == 0 && e.noD && e.a.ok && e.noB && e.noC)
  pure ⟨e.guard, e.a⟩

end Dec

/-- The opcode map (R38): the instruction an encoding stands for, none where R36 raises the illegal-instruction fault
at step 5 or 6. -/
def decode (e : Enc) : Option Instr :=
  if e.w.rsv ≠ 0 then none
  else match e.w.major.toNat with
  | 0x01 => (Dec.ibin true true e).map .iadd
  | 0x02 => (Dec.ibin true true e).map .isub
  | 0x03 => (Dec.iun false true e).map .ineg
  | 0x04 => (Dec.ibin true true e).map .imul
  | 0x05 => (Dec.ibin true false e).map .imulhi
  | 0x06 => (Dec.itri true true e).map .imad
  | 0x07 => (Dec.ibin true false e).map .imin
  | 0x08 => (Dec.ibin true false e).map .imax
  | 0x09 => (Dec.iun false true e).map .iabs
  | 0x0A => (Dec.itri false false e).map .isel
  | 0x0B => (Dec.icmp e).map .icmpk
  | 0x0C => (Dec.icmp e).map .icmp
  | 0x0D => (Dec.lea e).map .lea
  | 0x10 => (Dec.lbin e).map .and
  | 0x11 => (Dec.lbin e).map .or
  | 0x12 => (Dec.lbin e).map .xor
  | 0x13 => (Dec.lun true e).map .not
  | 0x14 => (Dec.lbin e).map .andn
  | 0x15 => (Dec.ibin true true e).map .shl
  | 0x16 => (Dec.ibin false false e).map .shr
  | 0x17 => (Dec.ibin false false e).map .sar
  | 0x18 => (Dec.ibin false false e).map .rot
  | 0x19 => (Dec.ibin true false e).map .bfx
  | 0x1A => (Dec.itri false false e).map .bfi
  | 0x1B => (Dec.iun false false e).map .popc
  | 0x1C => (Dec.iun false false e).map .clz
  | 0x1D => (Dec.iun false false e).map .ctz
  | 0x1E => (Dec.iun false false e).map .brev
  | 0x20 => (Dec.fbin e).map .fadd
  | 0x21 => (Dec.fbin e).map .fsub
  | 0x22 => (Dec.fbin e).map .fmul
  | 0x23 => (Dec.ftri e).map .ffma
  | 0x24 => (Dec.fminmax e).map .fmin
  | 0x25 => (Dec.fminmax e).map .fmax
  | 0x26 => (Dec.fun1 false e).map .fabs
  | 0x27 => (Dec.fun1 false e).map .fneg
  | 0x28 => (Dec.fcmp e).map .fcmpk
  | 0x29 => (Dec.fcmp e).map .fcmp
  | 0x2A => (Dec.fbin e).map .fdiv
  | 0x2B => (Dec.fun1 true e).map .fsqrt
  | 0x2C => (Dec.fun1 false e).map .frcp
  | 0x2D => (Dec.fun1 false e).map .frsq
  | 0x2E => (Dec.fun1 false e).map .fexp2
  | 0x2F => (Dec.fun1 false e).map .flog2
  | 0x30 => (Dec.fun1 false e).map .fsin
  | 0x31 => (Dec.fun1 false e).map .fcos
  | 0x32 => (Dec.fun1 true e).map .frint
  | 0x33 => (Dec.fun1 false e).map .fclass
  | 0x34 => (Dec.fscale e).map .fscale
  | 0x35 => (Dec.fun1 false e).map .fgetexp
  | 0x38 => (Dec.pbin e).map .padd
  | 0x39 => (Dec.pbin e).map .pmul
  | 0x3A => (Dec.ptri e).map .pfma
  | 0x3B => (Dec.dot true e).map .dot8F8
  | 0x3C => (Dec.dot false e).map .dot8I8
  | 0x40 => (Dec.cvt e).map .cvt
  | 0x41 => (Dec.cvts e).map .cvts
  | 0x42 => (Dec.pack e).map .pack
  | 0x43 => (Dec.unpack e).map .unpack
  | 0x44 => (Dec.settag e).map .settag
  | 0x45 => (Dec.lun true e).map .gettag
  | 0x46 => (Dec.cvtk e).map .cvtk
  | 0x48 => (Dec.lun true e).map .mov
  | 0x49 => Dec.movi e
  | 0x4A => (Dec.sel e).map .sel
  | 0x4B => (Dec.bcast e).map .bcast
  | 0x4C => Dec.movk e
  | 0x50 => (Dec.kbin e).map .kand
  | 0x51 => (Dec.kbin e).map .kor
  | 0x52 => (Dec.kbin e).map .kxor
  | 0x53 => (Dec.kun e).map .knot
  | 0x54 => (Dec.kpopc e).map .kpopc
  | 0x58 => (Dec.vote e).map .vote
  | 0x59 => (Dec.lun false e).map .ballot
  | 0x5A => (Dec.lxch e).map .lxch
  | 0x5B => (Dec.scan e).map .scan
  | 0x5C => (Dec.reduce e).map .reduce
  | 0x5D => (Dec.matchLanes e).map .matchLanes
  | 0x5E => (Dec.elect e).map .elect
  | 0x5F => (Dec.compact e).map .compact
  | 0x60 => (Dec.bra e).map .bra
  | 0x61 => (Dec.brx e).map .brx
  | 0x62 => Dec.call e
  | 0x63 => (Dec.ret e).map .ret
  | 0x64 => (Dec.join e).map .join
  | 0x65 => (Dec.bare false e).map .exit
  | 0x66 => (Dec.bare true e).map .yield
  | 0x67 => (Dec.bare true e).map .nop
  | 0x68 => (Dec.code e).map .brk
  | 0x69 => (Dec.code e).map .trap
  | 0x6A => (Dec.bare true e).map .rft
  | 0x70 => (Dec.dec e).map .decrle
  | 0x71 => (Dec.dec e).map .decbits
  | 0x72 => (Dec.decd e).map .decdelta
  | 0x73 => (Dec.decs e).map .decsign
  | 0x80 => (Dec.ld e).map .ld
  | 0x81 => (Dec.st e).map .st
  | 0x82 => (Dec.ld e).map .ldu
  | 0x83 => (Dec.st e).map .stu
  | 0x84 => (Dec.lds e).map .lds
  | 0x85 => (Dec.sts e).map .sts
  | 0x86 => (Dec.ldv e).map .ldv
  | 0x87 => (Dec.stv e).map .stv
  | 0x88 => (Dec.atom e).map .atom
  | 0x89 => (Dec.red e).map .red
  | 0x8A => (Dec.fence e).map .fence
  | 0x8B => (Dec.waitv e).map .waitv
  | 0x8C => (Dec.pref e).map .pref
  | 0x8D => (Dec.cline e).map .cline
  | 0x8E => (Dec.lease e).map .lease
  | 0x8F => (Dec.brload e).map .brload
  | 0x90 => (Dec.bufdecl e).map .bufdecl
  | 0x91 => (Dec.bufrel e).map .bufrel
  | 0x92 => Dec.bufstate e
  | 0x94 => (Dec.barinit e).map .barinit
  | 0x95 => (Dec.barinval e).map .barinval
  | 0x96 => (Dec.bararrive e).map .bararrive
  | 0x97 => (Dec.barexpect e).map .barexpect
  | 0x98 => (Dec.barwait e).map .barwait
  | 0x99 => (Dec.barphase e).map .barphase
  | 0xA0 => (Dec.cpyslice e).map .cpyslice
  | 0xA1 => Dec.cpyreg e
  | 0xA2 => (Dec.cpy e).map .cpystat
  | 0xA3 => (Dec.cpy e).map .cpycancel
  | 0xA4 => (Dec.layout e).map .layout
  | 0xA8 => (Dec.mclaim e).map .mclaim
  | 0xA9 => (Dec.mrel e).map .mrel
  | 0xAA => (Dec.mload e).map .mload
  | 0xAB => (Dec.mloop e).map .mloop
  | 0xAC => (Dec.mma e).map .mma
  | 0xAD => (Dec.mscale e).map .mscale
  | 0xAE => (Dec.msparse e).map .msparse
  | 0xAF => (Dec.mfence e).map .mfence
  | 0xB0 => (Dec.mwait e).map .mwait
  | 0xB1 => (Dec.bare false e).map .mcommit
  | 0xB8 => (Dec.popw e).map .popw
  | 0xB9 => (Dec.pushw e).map .pushw
  | 0xBA => (Dec.notify e).map .notify
  | 0xBB => (Dec.mbind e).map .mbind
  | 0xC0 => (Dec.xld e).map .xld
  | 0xC1 => (Dec.xst e).map .xst
  | 0xC2 => (Dec.xatom e).map .xatom
  | 0xC3 => (Dec.xsig e).map .xsig
  | 0xC4 => (Dec.xfence e).map .xfence
  | 0xD0 => (Dec.getsr e).map .getsr
  | 0xD1 => (Dec.setsr e).map .setsr
  | 0xD2 => (Dec.getid e).map .getid
  | 0xD3 => (Dec.clock e).map .clock
  | 0xD4 => (Dec.bare false e).map .canon
  | 0xD5 => (Dec.halt e).map .halt
  | _ => none

/-- What the fetch of an instruction finds (R36, steps 3 to 6). -/
inductive Fetched where
  /-- LEN is 00. -/
  | illegalLength
  /-- Fewer bytes than the length are left before the end of the block. -/
  | crosses
  /-- The encoding is not assigned. -/
  | illegal
  /-- An instruction and its length in bytes. -/
  | instr (i : Instr) (len : Nat)
  deriving DecidableEq, Repr

/-- Bytes, the lowest first, as one number (R4). -/
def bytesNat : List Byte → Nat
  | [] => 0
  | b :: t => b.toNat + 256 * bytesNat t

/-- Read the instruction at the front of the bytes from a PC to the end of its 32-byte block (R36, steps 3 to 6). -/
def decodeBytes (bs : List Byte) : Fetched :=
  let w := BitVec.ofNat 64 (bytesNat (bs.take 8))
  let len := (w.extractLsb' 0 2).toNat
  if len = 0 then .illegalLength
  else
    let n := 4 + 4 * len
    if bs.length < n then .crosses
    else
      let t : Tail :=
        if len = 1 then .none
        else if len = 2 then .imm (BitVec.ofNat 32 (bytesNat ((bs.drop 8).take 4)))
        else .long (BitVec.ofNat 64 (bytesNat ((bs.drop 8).take 8)))
      match decode ⟨Word0.ofBits w, t⟩ with
      | some i => .instr i n
      | none => .illegal

/-! ## The encoder -/

namespace Encode

/-- Word 0 and tail from an entry's fields. -/
def make (maj : Nat) (g : Guard) (mod : BitVec 8) (d : BitVec 8) (a b c : Src) (t : Tail) : Enc :=
  ⟨{ major := BitVec.ofNat 8 maj, u := g.uni, pred := g.pred, pneg := g.neg, dst := d, sa := a.reg.field,
     sb := b.reg.field, sc := c.reg.field,
     te := BitVec.ofBool c.te ++ BitVec.ofBool b.te ++ BitVec.ofBool a.te, mod := mod, hint := g.hint, rsv := 0 }, t⟩

/-- Source B of a form whose 96-bit immediate stands for it. -/
def srcOf : SrcI → Src
  | .reg a => a
  | .imm _ => .unused
def tailOf : SrcI → Tail
  | .reg _ => .none
  | .imm v => .imm v
/-- The tail of an optional addend. -/
def addend : Option (BitVec 32) → Tail
  | none => .none
  | some v => .imm v

abbrev bit (b : Bool) : BitVec 1 := BitVec.ofBool b

def imod (m : IMod) : BitVec 8 := (0 : BitVec 5) ++ bit m.sat ++ bit m.un ++ bit m.w32

def iun (maj : Nat) (o : IUn) : Enc := make maj o.g (imod o.m) o.d.field o.a .unused .unused .none
def ibin (maj : Nat) (o : IBin) : Enc := make maj o.g (imod o.m) o.d.field o.a (srcOf o.b) .unused (tailOf o.b)
def itri (maj : Nat) (o : ITri) : Enc := make maj o.g (imod o.m) o.d.field o.a (srcOf o.b) o.c (tailOf o.b)
def icmp (maj : Nat) (o : ICmpArgs) : Enc :=
  make maj o.g ((0 : BitVec 2) ++ o.cond.code ++ (0 : BitVec 1) ++ bit o.un ++ bit o.w32) o.d.field o.a (srcOf o.b)
    .unused (tailOf o.b)
def lea (o : LeaArgs) : Enc :=
  make 0x0D o.g ((0 : BitVec 2) ++ o.n ++ (0 : BitVec 1) ++ bit o.un ++ (0 : BitVec 1)) o.d.field o.a (srcOf o.b)
    .unused (tailOf o.b)
def lun (maj : Nat) (o : LUn) : Enc := make maj o.g 0 o.d.field o.a .unused .unused .none
def lbin (maj : Nat) (o : LBin) : Enc := make maj o.g 0 o.d.field o.a (srcOf o.b) .unused (tailOf o.b)
def fmod (w : FWidth) (r : RMode) : BitVec 8 := (0 : BitVec 3) ++ r.code ++ w.code
def fun1 (maj : Nat) (o : FUn) : Enc := make maj o.g (fmod o.w o.r) o.d.field o.a .unused .unused .none
def fbin (maj : Nat) (o : FBin) : Enc :=
  make maj o.g (fmod o.w o.r) o.d.field o.a (srcOf o.b) .unused (tailOf o.b)
def ftri (maj : Nat) (o : FTri) : Enc := make maj o.g (fmod o.w o.r) o.d.field o.a (srcOf o.b) o.c (tailOf o.b)
def fminmax (maj : Nat) (o : FMinMaxArgs) : Enc :=
  make maj o.g ((0 : BitVec 2) ++ bit o.nan ++ (0 : BitVec 3) ++ o.w.code) o.d.field o.a (srcOf o.b) .unused (tailOf o.b)
def fcmp (maj : Nat) (o : FCmpArgs) : Enc :=
  make maj o.g (o.cond.code ++ (0 : BitVec 3) ++ o.w.code) o.d.field o.a (srcOf o.b) .unused (tailOf o.b)
def dot (maj : Nat) (o : DotArgs) : Enc :=
  make maj o.g ((0 : BitVec 3) ++ o.r.code ++ (0 : BitVec 2)) o.d.field o.a o.b o.c .none
def cvt (o : CvtArgs) : Enc := make 0x40 o.g (bit o.x ++ o.r.code ++ o.tgt) o.d.field o.a .unused .unused .none
/-- The rounding code of CVTS: 110 with a seed operand (R144). -/
def cvts (o : CvtsArgs) : Enc :=
  match o.c with
  | some c => make 0x41 o.g ((6 : BitVec 4) ++ o.tgt) o.d.field o.a o.b c .none
  | none => make 0x41 o.g ((0 : BitVec 1) ++ o.r.code ++ o.tgt) o.d.field o.a o.b .unused .none
def kbin (maj : Nat) (o : KBin) : Enc := make maj o.g 0 o.d.field o.a o.b .unused .none
/-- A MOD field whose only bit is bit 0. -/
def mod1 (b : Bool) : BitVec 8 := (0 : BitVec 7) ++ bit b
def fold (op : FoldOp) (exc : Bool) (ty : FoldTy) : BitVec 8 := (0 : BitVec 1) ++ ty.code ++ bit exc ++ op.code
def bare (maj : Nat) (o : PlainArgs) : Enc := make maj o.g 0 0 .unused .unused .unused .none
def code (maj : Nat) (o : CodeArgs) : Enc := make maj o.g 0 0 .unused .unused .unused (addend o.code)
def dec (maj : Nat) (o : DecArgs) : Enc := make maj o.g (mod1 o.i32) o.d.field o.a .unused ⟨o.c, false⟩ .none
/-- Semantics bit and scope code of an optional acquire or release (R196). -/
def optScope (s : Option Scope) : BitVec 4 :=
  match s with
  | none => 0
  | some s => s.code ++ (1 : BitVec 1)
/-- The same with the two-bit local scope. -/
def optLocal (s : Option Scope) : BitVec 3 :=
  match s with
  | none => 0
  | some s => s.code.extractLsb' 0 2 ++ (1 : BitVec 1)
def ld (maj : Nat) (o : LdArgs) : Enc :=
  make maj o.g (optScope o.acq ++ BitVec.ofNat 4 o.fmt.val) o.d.field (.index o.br) o.off .unused (addend o.add)
def st (maj : Nat) (o : StArgs) : Enc :=
  make maj o.g (optScope o.rel ++ bit o.sat ++ o.r.code) 0 (.index o.br) o.off o.data (addend o.add)
def boltX (b : Option Src) : Src := b.getD .unused
def lds (o : LdsArgs) : Enc :=
  make 0x84 o.g (bit o.bolt.isSome ++ optLocal o.acq ++ BitVec.ofNat 4 o.kind.val) o.d.field (boltX o.bolt) o.off .unused
    (addend o.add)
def sts (o : StsArgs) : Enc :=
  make 0x85 o.g (bit o.bolt.isSome ++ optLocal o.rel ++ (0 : BitVec 2) ++ o.size) 0 (boltX o.bolt) o.off o.data
    (addend o.add)
def ldv (o : LdvArgs) : Enc :=
  make 0x86 o.g ((0 : BitVec 1) ++ optLocal o.acq ++ BitVec.ofNat 4 o.kind.val) o.d.field .unused o.off .unused
    (addend o.add)
def stv (o : StvArgs) : Enc :=
  make 0x87 o.g ((0 : BitVec 1) ++ optLocal o.rel ++ (0 : BitVec 2) ++ o.size) 0 .unused o.off o.data (addend o.add)
def space : AtomBase → BitVec 2
  | .record _ => 0 | .own => 1 | .bolt _ => 2 | .vault => 3
def baseSrc : AtomBase → Src
  | .record n => .index n
  | .bolt b => b
  | .own | .vault => .unused
def atomTail : Option AtomExt → Tail
  | none => .none
  | some x => .imm ((0 : BitVec 12) ++ bit x.ord ++ x.scope.code ++ x.add)
def atom (o : AtomArgs) : Enc :=
  make 0x88 o.g (space o.base ++ o.sem.code ++ o.op.code) o.d.field (baseSrc o.base) o.off o.c (atomTail o.ext)
def red (o : RedArgs) : Enc :=
  make 0x89 o.g (space o.base ++ o.sem.code ++ o.op.code) 0 (baseSrc o.base) o.off o.c (atomTail o.ext)
def waitv (o : WaitvArgs) : Enc :=
  make 0x8B o.g ((0 : BitVec 1) ++ optScope o.acq ++ bit o.w64 ++ (0 : BitVec 1) ++ bit o.eq) o.d.field (.index o.br)
    o.off o.a (addend o.add)
def bufstate (op : BitVec 8) (o : BufstateArgs) : Enc :=
  make 0x92 o.g op o.d.field .unused o.base .unused (addend o.add)
/-- Bits 0, 1 and 7 of MOD of the barrier instructions (R239). -/
def barMod (b0 b1 x : Bool) : BitVec 8 := bit x ++ (0 : BitVec 5) ++ bit b1 ++ bit b0
def barexpect (o : BarexpectArgs) : Enc :=
  make 0x97 o.g (barMod o.arr.isSome (o.arr.getD false) o.bolt.isSome) o.d.field (boltX o.bolt) o.off o.bytes
    (addend o.add)
/-- An extension word with sources in XA and XB. -/
def extAB (a b : Src) (ximm : BitVec 28) : Tail :=
  .long (Ext.bits { xa := a.reg.field, xb := b.reg.field, xc := 0, xd := 0,
                    xte := (0 : BitVec 2) ++ bit b.te ++ bit a.te, ximm := ximm })
def ext0 (ximm : BitVec 28) : Tail := extAB .unused .unused ximm
def cpyregImm (count1 : BitVec 7) (barv : Bool) : BitVec 28 := (0 : BitVec 20) ++ bit barv ++ count1
def layout (o : LayoutArgs) : Enc :=
  make 0xA4 o.g 0 o.d.field o.off o.bolt o.st0
    (extAB o.st1 o.st2 ((0 : BitVec 21) ++ BitVec.ofNat 4 o.perm.val ++ BitVec.ofNat 3 o.esz.val))
def slot (k : BitVec 5) : BitVec 8 := (0 : BitVec 3) ++ k
def mergeCode : Merge → BitVec 2
  | .arr => 0 | .ord => 1
def mmaImm (m : Merge) (sp sc : Bool) (contrib : BitVec 12) : BitVec 28 :=
  (0 : BitVec 12) ++ bit sc ++ bit sp ++ mergeCode m ++ contrib
def patCode : SpPat → BitVec 28
  | .off => 0 | .s24 => 1 | .s48 => 2
def xscope (on : Bool) : BitVec 4 := if on then 9 else 0

end Encode

/-- The encoding of an instruction, from the encoding tables of the manual; the machine's own steps have none. -/
def encode : Instr → Option Enc
  | .iadd o => some (Encode.ibin 0x01 o)
  | .isub o => some (Encode.ibin 0x02 o)
  | .ineg o => some (Encode.iun 0x03 o)
  | .imul o => some (Encode.ibin 0x04 o)
  | .imulhi o => some (Encode.ibin 0x05 o)
  | .imad o => some (Encode.itri 0x06 o)
  | .imin o => some (Encode.ibin 0x07 o)
  | .imax o => some (Encode.ibin 0x08 o)
  | .iabs o => some (Encode.iun 0x09 o)
  | .isel o => some (Encode.itri 0x0A o)
  | .icmpk o => some (Encode.icmp 0x0B o)
  | .icmp o => some (Encode.icmp 0x0C o)
  | .lea o => some (Encode.lea o)
  | .and o => some (Encode.lbin 0x10 o)
  | .or o => some (Encode.lbin 0x11 o)
  | .xor o => some (Encode.lbin 0x12 o)
  | .not o => some (Encode.lun 0x13 o)
  | .andn o => some (Encode.lbin 0x14 o)
  | .shl o => some (Encode.ibin 0x15 o)
  | .shr o => some (Encode.ibin 0x16 o)
  | .sar o => some (Encode.ibin 0x17 o)
  | .rot o => some (Encode.ibin 0x18 o)
  | .bfx o => some (Encode.ibin 0x19 o)
  | .bfi o => some (Encode.itri 0x1A o)
  | .popc o => some (Encode.iun 0x1B o)
  | .clz o => some (Encode.iun 0x1C o)
  | .ctz o => some (Encode.iun 0x1D o)
  | .brev o => some (Encode.iun 0x1E o)
  | .fadd o => some (Encode.fbin 0x20 o)
  | .fsub o => some (Encode.fbin 0x21 o)
  | .fmul o => some (Encode.fbin 0x22 o)
  | .ffma o => some (Encode.ftri 0x23 o)
  | .fmin o => some (Encode.fminmax 0x24 o)
  | .fmax o => some (Encode.fminmax 0x25 o)
  | .fabs o => some (Encode.fun1 0x26 o)
  | .fneg o => some (Encode.fun1 0x27 o)
  | .fcmpk o => some (Encode.fcmp 0x28 o)
  | .fcmp o => some (Encode.fcmp 0x29 o)
  | .fdiv o => some (Encode.fbin 0x2A o)
  | .fsqrt o => some (Encode.fun1 0x2B o)
  | .frcp o => some (Encode.fun1 0x2C o)
  | .frsq o => some (Encode.fun1 0x2D o)
  | .fexp2 o => some (Encode.fun1 0x2E o)
  | .flog2 o => some (Encode.fun1 0x2F o)
  | .fsin o => some (Encode.fun1 0x30 o)
  | .fcos o => some (Encode.fun1 0x31 o)
  | .frint o => some (Encode.fun1 0x32 o)
  | .fclass o => some (Encode.fun1 0x33 o)
  | .fscale o => some (Encode.fbin 0x34 o)
  | .fgetexp o => some (Encode.fun1 0x35 o)
  | .padd o => some (Encode.fbin 0x38 o)
  | .pmul o => some (Encode.fbin 0x39 o)
  | .pfma o => some (Encode.ftri 0x3A o)
  | .dot8F8 o => some (Encode.dot 0x3B o)
  | .dot8I8 o => some (Encode.dot 0x3C o)
  | .cvt o => some (Encode.cvt o)
  | .cvts o => some (Encode.cvts o)
  | .pack o => some (Encode.make 0x42 o.g ((0 : BitVec 4) ++ o.e) o.d.field o.a o.b .unused .none)
  | .unpack o => some (Encode.make 0x43 o.g ((0 : BitVec 4) ++ o.e) o.d.field o.a .unused .unused .none)
  | .settag o => some (Encode.make 0x44 o.g ((0 : BitVec 2) ++ o.tag) o.d.field o.a .unused .unused .none)
  | .gettag o => some (Encode.lun 0x45 o)
  | .cvtk o => some (Encode.make 0x46 o.g (Encode.mod1 o.all) o.d.field o.k .unused .unused .none)
  | .mov o => some (Encode.lun 0x48 o)
  | .movi96 o => some (Encode.make 0x49 o.g ((0 : BitVec 2) ++ o.tag) o.d.field .unused .unused .unused (.imm o.imm))
  | .movi128 o => some (Encode.make 0x49 o.g ((0 : BitVec 2) ++ o.tag) o.d.field .unused .unused .unused (.long o.imm))
  | .sel o => some (Encode.make 0x4A o.g 0 o.d.field o.a o.b o.k .none)
  | .bcast o => some (Encode.make 0x4B o.g 0 o.d.field o.a o.b .unused .none)
  | .movkFromScalar o => some (Encode.lun 0x4C o)
  | .movkImmediate o => some (Encode.make 0x4C o.g 0 o.d.field .unused .unused .unused (.imm o.imm))
  | .movkToScalar o => some (Encode.make 0x4C o.g 0 o.d.field o.k .unused .unused .none)
  | .kand o => some (Encode.kbin 0x50 o)
  | .kor o => some (Encode.kbin 0x51 o)
  | .kxor o => some (Encode.kbin 0x52 o)
  | .knot o => some (Encode.make 0x53 o.g 0 o.d.field o.a .unused .unused .none)
  | .kpopc o => some (Encode.make 0x54 o.g (Encode.mod1 o.live) o.d.field o.k .unused .unused .none)
  | .vote o => some (Encode.make 0x58 o.g o.mode.code o.d.field o.a .unused .unused .none)
  | .ballot o => some (Encode.lun 0x59 o)
  | .lxch o => some (Encode.make 0x5A o.g (o.flag ++ BitVec.ofNat 3 o.grp.val ++ o.mode.code) o.d.field o.a (Encode.srcOf o.b)
      .unused (Encode.tailOf o.b))
  | .scan o => some (Encode.make 0x5B o.g (Encode.fold o.op o.exc o.ty) o.d.field o.a .unused .unused .none)
  | .reduce o => some (Encode.make 0x5C o.g (Encode.fold o.op false o.ty) o.d.field o.a .unused .unused .none)
  | .matchLanes o => some (Encode.make 0x5D o.g (Encode.mod1 o.all) o.d.field o.a .unused .unused .none)
  | .elect o => some (Encode.make 0x5E o.g 0 o.d.field .unused .unused .unused .none)
  | .compact o => some (Encode.make 0x5F o.g 0 o.d.field o.a o.k .unused .none)
  | .bra o => some (Encode.make 0x60 o.g o.tag 0 .unused .unused .unused (.imm o.off))
  | .brx o => some (Encode.make 0x61 o.g o.tag 0 o.a .unused .unused (.imm o.off))
  | .call o => some (Encode.make 0x62 o.g 0 o.d.field .unused .unused .unused (.imm o.off))
  | .callR o => some (Encode.make 0x62 o.g 1 o.d.field o.a .unused .unused (.imm o.off))
  | .ret o => some (Encode.make 0x63 o.g 0 0 o.a .unused .unused .none)
  | .join o => some (Encode.make 0x64 o.g o.tag 0 .unused .unused .unused .none)
  | .exit o => some (Encode.bare 0x65 o)
  | .yield o => some (Encode.bare 0x66 o)
  | .nop o => some (Encode.bare 0x67 o)
  | .brk o => some (Encode.code 0x68 o)
  | .trap o => some (Encode.code 0x69 o)
  | .rft o => some (Encode.bare 0x6A o)
  | .decrle o => some (Encode.dec 0x70 o)
  | .decbits o => some (Encode.dec 0x71 o)
  | .decdelta o => some (Encode.make 0x72 o.g (Encode.mod1 o.i32) o.d.field o.a o.b ⟨o.c, false⟩ .none)
  | .decsign o => some (Encode.make 0x73 o.g 0 o.d.field o.a o.b ⟨o.c, false⟩ .none)
  | .ld o => some (Encode.ld 0x80 o)
  | .st o => some (Encode.st 0x81 o)
  | .ldu o => some (Encode.ld 0x82 o)
  | .stu o => some (Encode.st 0x83 o)
  | .lds o => some (Encode.lds o)
  | .sts o => some (Encode.sts o)
  | .ldv o => some (Encode.ldv o)
  | .stv o => some (Encode.stv o)
  | .atom o => some (Encode.atom o)
  | .red o => some (Encode.red o)
  | .fence o => some (Encode.make 0x8A o.g ((0 : BitVec 3) ++ o.scope.code ++ o.sem.code) 0 .unused .unused .unused .none)
  | .waitv o => some (Encode.waitv o)
  | .pref o => some (Encode.make 0x8C o.g (Encode.mod1 o.l2) 0 (.index o.br) o.off .unused (Encode.addend o.add))
  | .cline o => some (Encode.make 0x8D o.g (BitVec.ofNat 8 o.op.val) 0 (.index o.br) o.off .unused (Encode.addend o.add))
  | .lease o => some (Encode.make 0x8E o.g 0 o.d.field (Encode.srcOf o.a) .unused .unused (Encode.tailOf o.a))
  | .brload o => some (Encode.make 0x8F o.g 0 o.br .unused o.off .unused (Encode.addend o.add))
  | .bufdecl o => some (Encode.make 0x90 o.g (Encode.mod1 o.fill) o.d.field o.bar o.base o.len (Encode.addend o.add))
  | .bufrel o => some (Encode.make 0x91 o.g 0 0 .unused o.base .unused (Encode.addend o.add))
  | .bufstateGet o => some (Encode.bufstate 0 o)
  | .bufstateFill o => some (Encode.bufstate 1 o)
  | .bufstateDrain o => some (Encode.bufstate 2 o)
  | .bufstateFree o => some (Encode.bufstate 3 o)
  | .bufstateWfull o => some (Encode.bufstate 4 o)
  | .bufstateWfree o => some (Encode.bufstate 5 o)
  | .barinit o => some (Encode.make 0x94 o.g (Encode.mod1 o.crs) o.d.field .unused o.off o.pmask (Encode.addend o.add))
  | .barinval o => some (Encode.make 0x95 o.g 0 0 .unused o.off .unused (Encode.addend o.add))
  | .bararrive o => some (Encode.make 0x96 o.g (Encode.barMod o.all false o.bolt.isSome) o.d.field (Encode.boltX o.bolt) o.off
      .unused (Encode.addend o.add))
  | .barexpect o => some (Encode.barexpect o)
  | .barwait o => some (Encode.make 0x98 o.g (Encode.barMod false false o.bolt.isSome) 0 (Encode.boltX o.bolt) o.off o.phase
      (Encode.addend o.add))
  | .barphase o => some (Encode.make 0x99 o.g (Encode.barMod false false o.bolt.isSome) o.d.field (Encode.boltX o.bolt) o.off
      .unused (Encode.addend o.add))
  | .cpyslice o => some (Encode.make 0xA0 o.g 0 o.d.field o.a o.lo o.cnt (Encode.addend o.add))
  | .cpyregLd o => some (Encode.make 0xA1 o.g 0 o.d.field .unused o.off o.bar (Encode.ext0 (Encode.cpyregImm o.count1 o.barv)))
  | .cpyregSt o => some (Encode.make 0xA1 o.g 1 0 o.a o.off o.bar (Encode.ext0 (Encode.cpyregImm o.count1 o.barv)))
  | .cpystat o => some (Encode.make 0xA2 o.g 0 o.d.field o.h .unused .unused .none)
  | .cpycancel o => some (Encode.make 0xA3 o.g 0 o.d.field o.h .unused .unused .none)
  | .layout o => some (Encode.layout o)
  | .mclaim o => some (Encode.make 0xA8 o.g 0 o.d.field o.a .unused .unused .none)
  | .mrel o => some (Encode.make 0xA9 o.g 0 0 o.a .unused .unused .none)
  | .mload o => some (Encode.make 0xAA o.g 0 (Encode.slot o.slot) o.layout (o.sc.getD .unused) .unused
      (Encode.ext0 ((0 : BitVec 22) ++ o.tag)))
  | .mloop o => some (Encode.make 0xAB o.g 0 o.d.field (.index o.br) o.off o.loop
      (Encode.extAB o.bar .unused (Encode.mmaImm o.merge o.sp o.sc o.contrib)))
  | .mma o => some (Encode.make 0xAC o.g 0 o.d.field (.index o.br) o.off (.index (Encode.slot o.slotA))
      (Encode.extAB (.index (Encode.slot o.slotB)) .unused (Encode.mmaImm o.merge o.sp o.sc o.contrib)))
  | .mscale o => some (Encode.make 0xAD o.g 0 0 o.a o.b o.c (Encode.extAB o.xa .unused 0))
  | .msparse o => some (Encode.make 0xAE o.g 0 0 (.index (Encode.slot o.slot)) o.a o.b (Encode.ext0 (Encode.patCode o.pat)))
  | .mfence o => some (Encode.make 0xAF o.g 0 o.d.field .unused .unused .unused .none)
  | .mwait o => some (Encode.make 0xB0 o.g 0 o.d.field (Encode.srcOf o.n) .unused .unused (Encode.tailOf o.n))
  | .mcommit o => some (Encode.bare 0xB1 o)
  | .popw o => some (Encode.make 0xB8 o.g 0 o.d.field (.index o.q) .unused .unused .none)
  | .pushw o => some (Encode.make 0xB9 o.g 0 o.d.field (.index o.q) o.a .unused .none)
  | .notify o => some (Encode.make 0xBA o.g 0 0 o.l o.a .unused .none)
  | .mbind o => some (Encode.make 0xBB o.g 0 o.d.field o.l o.k .unused .none)
  | .xld o => some (Encode.make 0xC0 o.g (Encode.xscope o.acq ++ BitVec.ofNat 4 o.fmt.val) o.d.field (.index o.br) o.off .unused
      (Encode.ext0 o.add))
  | .xst o => some (Encode.make 0xC1 o.g (Encode.xscope o.rel ++ Encode.bit o.sat ++ o.r.code) 0 (.index o.br) o.off o.data
      (Encode.ext0 o.add))
  | .xatom o => some (Encode.make 0xC2 o.g ((0 : BitVec 2) ++ o.sem.code ++ o.op.code) o.d.field (.index o.br) o.off o.c
      (Encode.ext0 o.add))
  | .xsig o => some (Encode.make 0xC3 o.g 0 0 (.index o.br) o.tw (Encode.srcOf o.cnt) (Encode.tailOf o.cnt))
  | .xfence o => some (Encode.make 0xC4 o.g ((0 : BitVec 6) ++ o.sem.code) 0 .unused .unused .unused .none)
  | .getsr o => some (Encode.make 0xD0 o.g 0 o.d.field .unused .unused .unused (.imm ((0 : BitVec 20) ++ o.num)))
  | .setsr o => some (Encode.make 0xD1 o.g 0 0 o.a .unused .unused (.imm ((0 : BitVec 20) ++ o.num)))
  | .getid o => some (Encode.make 0xD2 o.g ((0 : BitVec 5) ++ o.id) o.d.field .unused .unused .unused .none)
  | .clock o => some (Encode.make 0xD3 o.g 0 o.d.field .unused .unused .unused .none)
  | .canon o => some (Encode.bare 0xD4 o)
  | .halt o => some (Encode.make 0xD5 o.g 0 0 o.a .unused .unused .none)
  | .trapRecordPublish _ | .trapRingSlotFree | .loadDataLands _ _ _ | .abortCompletion _ _ | .weftEnd _
  | .decodeLands _ _ | .waitvPoll _ _ | .homeSliceAccess _ _ | .heddlePendingTimeout _ | .heddleRotation _
  | .leaseWindow _ _ | .fastSwitch _ _ | .bankSwap _ | .spillComplete _ | .slowSwitch _ _ | .boltReload _
  | .heddleRebuild _ | .copyStart _ _ | .copyElementLand _ _ _ | .mloadComplete _ _ | .matrixStep _ _
  | .contributionArrival _ | .batchComplete _ _ | .pageWalkComplete _ _ _ _ | .heldWalkRetry _ _
  | .invalidate _ | .invalidationComplete _ | .patrolScrub _ _ | .errorRecord _ | .lateralLinkRetry _ _
  | .resume _ | .redirect _ | .setreg _ | .getreg _ | .kill _ | .ctxset _ | .engreply _ | .watchdogFire _ _
  | .deviceReset _ | .attestationReport _ | .svnMinimumRaise _ _ _ | .supervisorTakeover | .journalCommit _
  | .hubAccessFault _ _ _ _ | .doorbellKick _ _ _ | .queueBind _ _ | .queueResume _ | .slotFetch _
  | .nopPacket _ | .dispatch _ | .feed _ | .indirect _ | .predicate _ | .loop _ | .writePacket _ | .wait _ _
  | .waitPoll _ | .waitTimeout _ _ | .fetchfence _ | .signalPacket _ | .copy _ | .checkpoint _ _
  | .preemptSwitch _ | .preemptSave _ _ | .preemptMove _ _ | .preemptRestore _ | .bind _
  | .coursePlacement _ _ _ | .spanComplete _ | .completionRecordWrite _ | .feedMove _ | .feedAppendRetry _
  | .eventDispatch _ | .queueCoreWatchdog _ _ | .deferExpiry _ _ | .capture _ | .checkpointDrain _
  | .pullTimeout _ _ | .deadlineCheck _ | .codeRewrite _ | .pstepEval _ _ _ | .powerCapCall _
  | .pldmFirmwareUpdate _ | .flitReceive _ _ _ | .portStateChange _ _ | .routerHop _ | .fabricWrite _
  | .read _ | .rdata _ | .fabricAtom _ | .adata _ | .fabricSignal _ | .marker _ | .mack _ | .notice _
  | .error _ | .withdraw _ | .pull _ | .page _ | .piece _ | .linkstate _ | .qnotify _ | .remoteTimeout _ _
  | .rtflush _ | .registerWrite _ _ _ | .uetRmaWrite _ | .uetRmaRead _ | .uetSend _ | .ualinkRequest _
  | .symbolLockLoss _ _ _ | .release _ | .gatewayResponse _ _ _ | .hbmStackLoss _ | .migrationCopy _ _ _ => none

/-- The `n` low bytes of a number, the lowest first (R4). -/
def natBytes : Nat → Nat → List Byte
  | 0, _ => []
  | n + 1, x => BitVec.ofNat 8 x :: natBytes n (x / 256)

/-- The bytes of an encoding as they stand in memory (R4, R17, R18). -/
def Enc.bytes (e : Enc) : List Byte :=
  natBytes 8 (e.w.bits e.t.len).toNat ++
    match e.t with
    | .none => []
    | .imm v => natBytes 4 v.toNat
    | .long v => natBytes 8 v.toNat

/-- The bytes of an instruction. -/
def encodeBytes (i : Instr) : Option (List Byte) := (encode i).map Enc.bytes

/-- The instruction the decoder reads from a word given as one number, bit 0 the least significant bit of the first
byte; bits above `nbits`, up to the longest instruction, are 0. -/
def decodeTableWord (nbits w : Nat) : Option Instr :=
  match decodeBytes (natBytes 16 (w % 2 ^ nbits)) with
  | .instr i _ => some i
  | _ => none

end Sys2Proof
end

