-- ==== Sys2Proof/Config.lean ====
section
/-! DEFINITION. What the manual leaves open or names without giving: free values and functions with no body, so that
no proof can rest on a value of theirs. -/

namespace Sys2Proof.Config

/-- The core clock cycles that a core counts until the n-th read of a clock (R172); the manual gives no cycle count of
an execution. Log entry 8. -/
opaque freeElapsed : Nat → Nat

/-- The set of the L1 that a line belongs to (R258), whose number and mapping the manual does not give. Log entry 10. -/
opaque l1Set : Nat → Nat

/-- A choice between two outcomes that the manual leaves to the machine: the n-th one made (R310, R356). Log entry 10. -/
opaque freeChoice : Nat → Bool

/-- The result code that the unpublished map of R138 returns for an input code, in the F64 (true) or F32 format. It is
used only where it lies within the bounds of R137. Log entry 5. -/
opaque approxCode : ApproxFn → Bool → Nat → Nat

/-- SHA3-512 of a byte string (R380), which the manual names and does not define. Log entry 6. -/
opaque sha3 : List Byte → List Byte

/-- KMAC256 with a key over a byte string (R382, R433). Log entry 6. -/
opaque kmac : List Byte → List Byte → List Byte

/-- ML-DSA verification of a signature over a message with the key of a signer (R380, R451). Log entry 6. -/
opaque mldsaVerify : Nat → List Byte → List Byte → Bool

/-- The device's ML-DSA signature over a message (R381). Log entry 6. -/
opaque mldsaSign : List Byte → List Byte

/-- ML-KEM decapsulation of a ciphertext with the device key (R382). Log entry 6. -/
opaque mlkemDecap : List Byte → List Byte

/-- The logical slice position, 0 to 511, of a 64 KiB granule on its loom die (R309): a fixed hash the manual does not
give. Log entry 7. -/
opaque slicePos : Nat → Nat

/-- The 64-bit CRC of a flit's content (R457), whose polynomial the manual names by a
standard (ECMA-182) and whose bit order and start value it does not give. Log entry 6. -/
opaque crc64 : List Byte → BitVec 64

/-- The serial number the manufacturer gave the device (R381, R440). Log entry 16. -/
opaque serial : List Byte

/-- The ML-KEM-1024 encapsulation key that the n-th boot makes (R381). Log entry 6. -/
opaque kemPublic : Nat → List Byte

/-- Which four DRAM dies of its stack an HBM line lies on (R346), as one number: the striping, which the manual does not give. Log
entry 7. -/
opaque lineStripe : Nat → Nat

/-- The row of an HBM line as a unit of its loom die (R365, R366), whose numbering the manual does not give. Log entry 7. -/
opaque hbmRow : Nat → Nat

/-- The DRAM die of a loom die's 64 on which a row unit of it lies (R366). Log entry 7. -/
opaque rowDie : Nat → Nat → Nat

/-- The place in the core aperture (R347), in words of 8 bytes, of a word of a core's storage: 0 register file, 1 scratchpad, 2 operand
slots, 3 vault; by physical position among the device's 2,112 and by word. The manual gives no layout. Log entry 7. -/
opaque apertureAt : Nat → Nat → Nat → Nat

/-- A physical address of the core aperture lies in a register-file header (R366), whose place the manual does not give. Log entry 7. -/
opaque headerAt : Nat → Bool

/-- UALink's atomics include an operation on a number of bytes (R487, R489), which the manual leaves to that standard. Log
entry 15. -/
opaque ualinkAtom : AtomOp → Nat → Bool

end Sys2Proof.Config
end

