-- ==== Sys2Proof/Machine/Store.lean ====
section
/-! DEFINITION. The one form in which the state holds data found by a number: a list of (key, value) pairs with
strictly rising keys. Memory, scratchpads, vaults, registers and every table of the state are such lists. `get` and
`put` treat an unlisted key as holding a default and never list that default, so equal contents are equal lists. -/

namespace Sys2Proof

/-- Data found by a natural number. -/
abbrev Store (α : Type) := List (Nat × α)

/-- The value listed at key `k`. -/
def Store.find {α : Type} : Store α → Nat → Option α
  | [], _ => none
  | (a, v) :: t, k => if a = k then some v else Store.find t k

/-- List `v` at key `k`. -/
def Store.insert {α : Type} : Store α → Nat → α → Store α
  | [], k, v => [(k, v)]
  | (a, x) :: t, k, v =>
    if k < a then (k, v) :: (a, x) :: t
    else if k = a then (k, v) :: t
    else (a, x) :: Store.insert t k v

/-- Unlist key `k`. -/
def Store.erase {α : Type} : Store α → Nat → Store α
  | [], _ => []
  | (a, x) :: t, k => if a = k then Store.erase t k else (a, x) :: Store.erase t k

/-- The value at key `k`, `d` where none is listed. -/
def Store.get {α : Type} (d : α) (l : Store α) (k : Nat) : α := (Store.find l k).getD d

/-- Write `v` at key `k`; the default `d` is never listed. -/
def Store.put {α : Type} [DecidableEq α] (d : α) (l : Store α) (k : Nat) (v : α) : Store α :=
  if v = d then Store.erase l k else Store.insert l k v

/-- Change the value listed at key `k`, if one is. -/
def Store.modify {α : Type} (l : Store α) (k : Nat) (f : α → α) : Store α :=
  match Store.find l k with
  | some v => Store.insert l k (f v)
  | none => l

/-- `m` with what `l` lists put over it. -/
def Store.over {α : Type} [DecidableEq α] (d : α) (m l : Store α) : Store α := l.foldl (fun m p => Store.put d m p.1 p.2) m

/-- What `b` holds otherwise than `a`. -/
def Store.diff {α : Type} [DecidableEq α] (d : α) (a b : Store α) : Store α :=
  (a.map (·.1) ++ b.map (·.1)).foldl (fun m k =>
    if Store.get d b k = Store.get d a k then m else Store.insert m k (Store.get d b k)) []

/-- Keys rise strictly, and all lie above `lo` when it is given. -/
def Store.sortedFrom {α : Type} : Option Nat → Store α → Bool
  | _, [] => true
  | lo, (a, _) :: t => (match lo with | none => true | some b => decide (b < a)) && Store.sortedFrom (some a) t

/-- The canonical form: keys rise strictly and no entry equals the default. -/
def Store.wf {α : Type} [DecidableEq α] (d : α) (l : Store α) : Bool :=
  Store.sortedFrom none l && l.all (fun p => decide (p.2 ≠ d))

/-- One more than the largest key, 0 when nothing is listed: a handle not in use. -/
def Store.fresh {α : Type} (l : Store α) : Nat := l.foldl (fun n p => max n (p.1 + 1)) 0

/-- `n` bytes from address `a`, the lowest first; an unlisted byte reads as 0. -/
def Store.bytes (l : Store Byte) (a : Nat) : Nat → List Byte
  | 0 => []
  | n + 1 => Store.get 0 l a :: Store.bytes l (a + 1) n

/-- Write bytes from address `a` up. -/
def Store.putBytes (l : Store Byte) (a : Nat) : List Byte → Store Byte
  | [] => l
  | b :: t => Store.putBytes (Store.put 0 l a b) (a + 1) t

/-- Bytes as a number, little-endian (R4). -/
def leNat : List Byte → Nat
  | [] => 0
  | b :: t => b.toNat + 256 * leNat t

/-- The `n` low bytes of a number, little-endian (R4). -/
def natLe : Nat → Nat → List Byte
  | 0, _ => []
  | n + 1, x => BitVec.ofNat 8 x :: natLe n (x / 256)

/-- The value of `n` bytes at `a`. -/
def Store.readNat (l : Store Byte) (a n : Nat) : Nat := leNat (Store.bytes l a n)

/-- Write the `n` low bytes of `x` at `a`. -/
def Store.writeNat (l : Store Byte) (a n x : Nat) : Store Byte := Store.putBytes l a (natLe n x)

end Sys2Proof
end

