-- ==== Sys2Proof/Machine/Num.lean ====
section
/-! DEFINITION. Numbers (R51-R85): the binary formats and their readings, exact values, the one rounding of R64 with the
flags of R68, sums and products of exact values, square root, stochastic rounding (R71) and the approximate functions
(R137, R138). -/

namespace Sys2Proof.Machine

/-! ## Formats -/

/-- The five rounding modes (R64). -/
inductive Rnd where | rne | rtz | rup | rdn | rna
  deriving DecidableEq, Repr

/-- What the codes above the largest finite one mean: IEEE infinities and NaNs, one NaN code, or nothing (R56-R58). -/
inductive Special where | ieee | nanOnly | finite
  deriving DecidableEq, Repr

/-- A binary floating-point format (R56-R58): exponent and fraction widths, bias, special codes. -/
structure FSpec where
  eb : Nat
  mb : Nat
  bias : Nat
  sp : Special
  /-- FP8 NaNs are all treated as quiet (R57). -/
  signalling : Bool
  deriving DecidableEq, Repr

def FSpec.f64 : FSpec := ⟨11, 52, 1023, .ieee, true⟩
def FSpec.f32 : FSpec := ⟨8, 23, 127, .ieee, true⟩
def FSpec.f16 : FSpec := ⟨5, 10, 15, .ieee, true⟩
def FSpec.bf16 : FSpec := ⟨8, 7, 127, .ieee, true⟩
/-- E4M3 under a NaN reading (R57). -/
def FSpec.e4m3 (rd : Nat) : FSpec := ⟨4, 3, 7, if rd = 0 then .ieee else if rd = 1 then .nanOnly else .finite, false⟩
/-- E5M2 under a NaN reading (R57). -/
def FSpec.e5m2 (rd : Nat) : FSpec := ⟨5, 2, 15, if rd = 0 then .ieee else .finite, false⟩
def FSpec.e2m1 : FSpec := ⟨2, 1, 1, .finite, false⟩

/-- Bits of the format. -/
def FSpec.width (f : FSpec) : Nat := 1 + f.eb + f.mb
/-- log2 of the smallest subnormal. -/
def FSpec.qmin (f : FSpec) : Int := 1 - (f.bias : Int) - (f.mb : Int)
/-- Code, without sign, of the largest finite magnitude. -/
def FSpec.maxCode (f : FSpec) : Nat :=
  match f.sp with
  | .ieee => (2 ^ f.eb - 1) * 2 ^ f.mb - 1
  | .nanOnly => 2 ^ (f.eb + f.mb) - 2
  | .finite => 2 ^ (f.eb + f.mb) - 1
/-- Code, without sign, of ∞. -/
def FSpec.infCode (f : FSpec) : Nat := (2 ^ f.eb - 1) * 2 ^ f.mb
/-- The sign bit's weight. -/
def FSpec.signBit (f : FSpec) : Nat := 2 ^ (f.eb + f.mb)
/-- The default NaN (R61); +0 where the reading has none (R73). -/
def FSpec.nanCode (f : FSpec) : Nat :=
  match f.sp with
  | .finite => 0
  | .nanOnly => 2 ^ (f.eb + f.mb) - 1
  | .ieee => if f.signalling || f.mb = 2 then f.infCode + 2 ^ (f.mb - 1) else f.infCode + (2 ^ f.mb - 1)

/-- An exact value: NaN, ±∞, or ±m·2^e. -/
inductive FVal where
  | nan (signalling : Bool)
  | inf (neg : Bool)
  | fin (neg : Bool) (m : Nat) (e : Int)
  deriving DecidableEq, Repr

/-- The value a code stands for (R56-R58). -/
def FSpec.decode (f : FSpec) (x : Nat) : FVal :=
  let neg := x / f.signBit % 2 = 1
  let c := x % f.signBit
  let ex := c / 2 ^ f.mb
  let fr := c % 2 ^ f.mb
  if c ≤ f.maxCode then
    if ex = 0 then .fin neg fr f.qmin
    else .fin neg (2 ^ f.mb + fr) (f.qmin + ex - 1)
  else match f.sp with
    | .ieee => if c = f.infCode then .inf neg else .nan (f.signalling && fr < 2 ^ (f.mb - 1))
    | _ => .nan false

def FVal.isNan : FVal → Bool
  | .nan _ => true
  | _ => false
def FVal.isSig : FVal → Bool
  | .nan s => s
  | _ => false
def FVal.neg : FVal → FVal
  | .nan s => .nan s
  | .inf n => .inf (!n)
  | .fin n m e => .fin (!n) m e
def FVal.abs : FVal → FVal
  | .nan s => .nan s
  | .inf _ => .inf false
  | .fin _ m e => .fin false m e
/-- The sign bit of a value that is no NaN. -/
def FVal.sign : FVal → Bool
  | .nan _ => false
  | .inf n => n
  | .fin n _ _ => n
/-- Multiply by a power of two, exactly. -/
def FVal.scale (k : Int) : FVal → FVal
  | .fin n m e => .fin n m (e + k)
  | v => v

/-! ## Flags -/

/-- The FPSTAT flags (R66). -/
abbrev Flags := BitVec 6
def Flags.none : Flags := 0
def Flags.nx : Flags := 1
def Flags.uf : Flags := 2
def Flags.of : Flags := 4
def Flags.dz : Flags := 8
def Flags.nv : Flags := 16
def Flags.iof : Flags := 32

/-! ## Rounding -/

/-- An exact magnitude on a binary grid: `m`·2^`e`, or strictly between that and (m+1)·2^`e` when `sticky`. A sticky
magnitude carries at least three bits more than the format it is rounded to. -/
structure Mag where
  m : Nat
  e : Int
  sticky : Bool
  deriving DecidableEq, Repr

/-- Round up the magnitude, given the kept significand's parity, and how the discarded part compares with half a unit
(`half`: 0 below, 1 equal, 2 above) when it is not zero (R64). -/
def roundUp (r : Rnd) (neg odd : Bool) (half : Nat) : Bool :=
  match r with
  | .rne => half = 2 || (half = 1 && odd)
  | .rna => 1 ≤ half
  | .rtz => false
  | .rup => !neg
  | .rdn => neg

/-- Cut a magnitude to the grid 2^q: significand in units of 2^q and whether anything was lost. -/
def Mag.cut (x : Mag) (r : Rnd) (neg : Bool) (q : Int) : Nat × Bool :=
  if q ≤ x.e then (x.m * 2 ^ (x.e - q).toNat, x.sticky)
  else
    let sh := (q - x.e).toNat
    let sig := x.m / 2 ^ sh
    let low := x.m % 2 ^ sh
    let h := 2 ^ (sh - 1)
    if low = 0 && !x.sticky then (sig, false)
    else
      let half := if low < h then 0 else if low = h && !x.sticky then 1 else 2
      (if roundUp r neg (sig % 2 = 1) half then sig + 1 else sig, true)

/-- The grid of a magnitude rounded to `mb` fraction bits with no lower limit. -/
def Mag.grid (x : Mag) (mb : Nat) : Int := x.e + (Nat.log2 x.m : Int) - mb

/-- The code, without sign, of ∞ or of the largest finite magnitude that an overflow gives (R64, R73). -/
def FSpec.overflow (f : FSpec) (r : Rnd) (neg : Bool) : Nat :=
  match f.sp with
  | .ieee =>
    match r with
    | .rne | .rna => f.infCode
    | .rtz => f.maxCode
    | .rup => if neg then f.maxCode else f.infCode
    | .rdn => if neg then f.infCode else f.maxCode
  | _ => f.maxCode

/-- The result lies below the smallest normal after rounding with an unbounded exponent (R68). -/
def FSpec.tiny (f : FSpec) (r : Rnd) (neg : Bool) (x : Mag) : Bool :=
  let q := x.grid f.mb
  let sig := (x.cut r neg q).1
  -- sig·2^q < 2^(1 - bias)
  sig != 0 && (q + (Nat.log2 sig : Int) < f.qmin + f.mb)

/-- A code with its sign. -/
def FSpec.signed (f : FSpec) (neg : Bool) (c : Nat) : Nat := if neg then f.signBit + c else c

/-- Round a magnitude to the format (R64, R68): the code and the flags. -/
def FSpec.round (f : FSpec) (r : Rnd) (neg : Bool) (x : Mag) : Nat × Flags :=
  if x.m = 0 && !x.sticky then (f.signed neg 0, 0)
  else
    let q := max (x.grid f.mb) f.qmin
    let (sig, nx) := x.cut r neg q
    let c := (q - f.qmin).toNat * 2 ^ f.mb + sig
    if f.maxCode < c then (f.signed neg (f.overflow r neg), Flags.of ||| Flags.nx)
    else
      (f.signed neg c,
       if nx then (if f.tiny r neg x then Flags.uf ||| Flags.nx else Flags.nx) else 0)

/-- Round a value to the format, a NaN giving the default NaN and a signalling one NV (R61, R62, R73). -/
def FSpec.roundVal (f : FSpec) (r : Rnd) : FVal → Nat × Flags
  | .nan s => (f.nanCode, if f.sp == .ieee && !s then 0 else Flags.nv)
  | .inf n => match f.sp with
    | .ieee => (f.signed n f.infCode, 0)
    | _ => (f.signed n f.maxCode, Flags.of ||| Flags.nx)
  | .fin n m e => f.round r n ⟨m, e, false⟩

/-- Replace a subnormal code by a zero of its sign, with UF and NX (R69). -/
def FSpec.flush (f : FSpec) (x : Nat × Flags) : Nat × Flags :=
  let c := x.1 % f.signBit
  if c ≠ 0 && c < 2 ^ f.mb then (x.1 - c, x.2 ||| Flags.uf ||| Flags.nx) else x

/-- Read a code, a subnormal one as a zero of its sign under FTZ (R69). -/
def FSpec.read (f : FSpec) (ftz : Bool) (x : Nat) : FVal :=
  match f.decode x with
  | .fin n m e => if ftz && m < 2 ^ f.mb && e = f.qmin then .fin n 0 f.qmin else .fin n m e
  | v => v

/-! ## Exact sums and products -/

/-- An exact finite number m·2^e with an integer m. -/
structure Dy where
  m : Int
  e : Int
  deriving DecidableEq, Repr

/-- The exact sum. -/
def Dy.add (a b : Dy) : Dy :=
  if a.m = 0 then b else if b.m = 0 then a
  else if a.e ≤ b.e then ⟨a.m + b.m * 2 ^ (b.e - a.e).toNat, a.e⟩
  else ⟨a.m * 2 ^ (a.e - b.e).toNat + b.m, b.e⟩

def Dy.mul (a b : Dy) : Dy := ⟨a.m * b.m, a.e + b.e⟩
def Dy.neg (a : Dy) : Dy := ⟨-a.m, a.e⟩
/-- a < b. -/
def Dy.lt (a b : Dy) : Bool := (a.add b.neg).m < 0
def Dy.le (a b : Dy) : Bool := (a.add b.neg).m ≤ 0
def Dy.abs (a : Dy) : Dy := ⟨a.m.natAbs, a.e⟩
/-- The finite value as a signed number; 0 for the others. -/
def FVal.dy : FVal → Dy
  | .fin n m e => ⟨if n then -(m : Int) else m, e⟩
  | _ => ⟨0, 0⟩

/-- What an exact sum has met so far: NaN and NV, infinities of each sign, the finite part, and whether every term so
far was −0, or was +0. -/
structure Sum where
  nan : Bool
  nv : Bool
  pinf : Bool
  ninf : Bool
  fin : Dy
  allNegZero : Bool
  allPosZero : Bool
  deriving DecidableEq, Repr

def Sum.zero : Sum := ⟨false, false, false, false, ⟨0, 0⟩, true, true⟩

/-- Add a term. -/
def Sum.add (s : Sum) (v : FVal) : Sum :=
  match v with
  | .nan sg => { s with nan := true, nv := s.nv || sg }
  | .inf n => { s with pinf := s.pinf || !n, ninf := s.ninf || n, allNegZero := false, allPosZero := false }
  | .fin n m e =>
    { s with fin := s.fin.add (FVal.dy (.fin n m e)), allNegZero := s.allNegZero && n && m = 0,
             allPosZero := s.allPosZero && !n && m = 0 }

/-- The exact product of two values; ∞ × 0 is a NaN that raises NV, and so does a signalling NaN (R62, R83). -/
def FVal.mul (a b : FVal) : FVal × Bool :=
  match a, b with
  | .inf _, .fin _ 0 _ | .fin _ 0 _, .inf _ => (.nan false, true)
  | .nan s, .nan t => (.nan false, s || t)
  | .nan s, _ => (.nan false, s)
  | _, .nan s => (.nan false, s)
  | .inf n, .inf k => (.inf (n != k), false)
  | .inf n, .fin k _ _ => (.inf (n != k), false)
  | .fin n _ _, .inf k => (.inf (n != k), false)
  | .fin n m e, .fin k p f => (.fin (n != k) (m * p) (e + f), false)

/-- Add a product. -/
def Sum.addMul (s : Sum) (a b : FVal) : Sum :=
  let (p, nv) := FVal.mul a b
  let s' := s.add p
  { s' with nv := s'.nv || nv }

/-- The value of a sum as one exact value: infinities of both signs make a NaN with NV; an exact zero is +0, or −0
when every term was −0 or the mode is RDN and not every term was +0 (R62). -/
def Sum.val (s : Sum) (r : Rnd) : FVal × Bool :=
  if s.nan then (.nan false, s.nv)
  else if s.pinf && s.ninf then (.nan false, true)
  else if s.pinf then (.inf false, s.nv)
  else if s.ninf then (.inf true, s.nv)
  else if s.fin.m = 0 then (.fin (s.allNegZero || (r == .rdn && !s.allPosZero)) 0 0, s.nv)
  else (.fin (s.fin.m < 0) s.fin.m.natAbs s.fin.e, s.nv)

/-- Round a sum once. -/
def Sum.round (s : Sum) (f : FSpec) (r : Rnd) : Nat × Flags :=
  let (v, nv) := s.val r
  let (c, fl) := f.roundVal r v
  (c, if nv then fl ||| Flags.nv else fl)

/-! ## Division and square root -/

/-- The quotient of two positive magnitudes, with enough bits for any format of 53 bits or fewer. -/
def magDiv (m : Nat) (e : Int) (p : Nat) (f : Int) : Mag :=
  let sh := 120 + Nat.log2 p
  let n := m * 2 ^ sh
  ⟨n / p, e - f - sh, n % p ≠ 0⟩

/-- Floor of the square root, bit by bit from 2^(k-1) down. -/
def sqrtBits (n : Nat) : Nat → Nat → Nat
  | 0, r => r
  | k + 1, r =>
    let t := r + 2 ^ k
    sqrtBits n k (if t * t ≤ n then t else r)

/-- Floor of the square root. -/
def natSqrt (n : Nat) : Nat := sqrtBits n (Nat.log2 n / 2 + 1) 0

/-- The square root of a positive magnitude. -/
def magSqrt (m : Nat) (e : Int) : Mag :=
  -- m·2^e = n·2^(2k) with n of at least 128 bits
  let e' := e - 128
  let odd := e' % 2 = 1
  let n := m * 2 ^ (if odd then 129 else 128)
  let k := (if odd then e' - 1 else e') / 2
  let r := natSqrt n
  ⟨r, k, r * r ≠ n⟩

/-! ## Philox (R71) -/

/-- One round of Philox4x32. -/
def philoxRound (c : Nat × Nat × Nat × Nat) (k0 k1 : Nat) : Nat × Nat × Nat × Nat :=
  let (c0, c1, c2, c3) := c
  let p0 := 0xD2511F53 * c0
  let p1 := 0xCD9E8D57 * c2
  ((p1 / 2 ^ 32) ^^^ c1 ^^^ k0, p1 % 2 ^ 32, (p0 / 2 ^ 32) ^^^ c3 ^^^ k1, p0 % 2 ^ 32)

/-- Rounds of Philox4x32 with the key schedule. -/
def philoxRounds : Nat → Nat × Nat × Nat × Nat → Nat → Nat → Nat × Nat × Nat × Nat
  | 0, c, _, _ => c
  | n + 1, c, k0, k1 =>
    philoxRounds n (philoxRound c k0 k1) ((k0 + 0x9E3779B9) % 2 ^ 32) ((k1 + 0xBB67AE85) % 2 ^ 32)

/-- The first output word of Philox4x32-10 for a seed and an element index. The manual names the generator; its
constants are the published ones. Log entry 14. -/
def philox (seed index : Nat) : Nat :=
  (philoxRounds 10 (index % 2 ^ 32, index / 2 ^ 32 % 2 ^ 32, 0, 0) (seed % 2 ^ 32) (seed / 2 ^ 32 % 2 ^ 32)).1

/-- Stochastic rounding of a finite nonzero exact value (R71). -/
def FSpec.stochastic (f : FSpec) (neg : Bool) (m : Nat) (e : Int) (seed index : Nat) : Nat × Flags :=
  let x : Mag := ⟨m, e, false⟩
  let q := max (x.grid f.mb) f.qmin
  if m = 0 || q ≤ e then f.round .rtz neg x
  else
    let sh := (q - e).toNat
    let a := m / 2 ^ sh
    let low := m % 2 ^ sh
    if low = 0 then f.round .rtz neg x
    else
      let d := low * 2 ^ 32 / 2 ^ sh
      let sig := if philox seed index < d then a + 1 else a
      let c := (q - f.qmin).toNat * 2 ^ f.mb + sig
      if f.maxCode < c then (f.signed neg f.maxCode, Flags.of ||| Flags.nx)
      else (f.signed neg c, if sig ≠ 0 && c < 2 ^ f.mb then Flags.uf ||| Flags.nx else Flags.nx)

/-! ## Operations -/

/-- Round a sum of two values (FADD). -/
def fAdd (f : FSpec) (r : Rnd) (a b : FVal) : Nat × Flags := ((Sum.zero.add a).add b).round f r
/-- Round a product (FMUL). -/
def fMul (f : FSpec) (r : Rnd) (a b : FVal) : Nat × Flags :=
  let (p, nv) := FVal.mul a b
  let (c, fl) := f.roundVal r p
  (c, if nv then fl ||| Flags.nv else fl)
/-- Round a·b + c once (FFMA); ∞ × 0 raises NV whatever c is. -/
def fFma (f : FSpec) (r : Rnd) (a b c : FVal) : Nat × Flags := ((Sum.zero.addMul a b).add c).round f r
/-- Round a/b (FDIV). -/
def fDiv (f : FSpec) (r : Rnd) (a b : FVal) : Nat × Flags :=
  match a, b with
  | .nan s, .nan t => (f.nanCode, if s || t then Flags.nv else 0)
  | .nan s, _ => (f.nanCode, if s then Flags.nv else 0)
  | _, .nan s => (f.nanCode, if s then Flags.nv else 0)
  | .inf _, .inf _ => (f.nanCode, Flags.nv)
  | .inf n, .fin k _ _ => (f.signed (n != k) f.infCode, 0)
  | .fin n _ _, .inf k => (f.signed (n != k) 0, 0)
  | .fin n m e, .fin k p g =>
    if p = 0 then (if m = 0 then (f.nanCode, Flags.nv) else (f.signed (n != k) f.infCode, Flags.dz))
    else if m = 0 then (f.signed (n != k) 0, 0)
    else f.round r (n != k) (magDiv m e p g)
/-- Round √a (FSQRT). -/
def fSqrt (f : FSpec) (r : Rnd) (a : FVal) : Nat × Flags :=
  match a with
  | .nan s => (f.nanCode, if s then Flags.nv else 0)
  | .inf n => if n then (f.nanCode, Flags.nv) else (f.infCode, 0)
  | .fin n m e =>
    if m = 0 then (f.signed n 0, 0)
    else if n then (f.nanCode, Flags.nv)
    else f.round r false (magSqrt m e)

/-- a < b for values that are no NaN. -/
def FVal.lt (a b : FVal) : Bool :=
  match a, b with
  | .inf n, .inf k => n && !k
  | .inf n, _ => n
  | _, .inf k => !k
  | x, y => x.dy.lt y.dy
/-- a = b for values that are no NaN; −0 equals +0. -/
def FVal.eq (a b : FVal) : Bool := !a.lt b && !b.lt a

/-- Round a finite value to an integer in a mode: the integer and whether it changed. -/
def roundInt (r : Rnd) (n : Bool) (m : Nat) (e : Int) : Int × Bool :=
  let (k, nx) := (Mag.mk m e false).cut r n 0
  (if n then -(k : Int) else k, nx)

/-! ## Approximate functions (R137, R138) -/

/-- Fixed-point numbers here are integers in units of 2^-P, P the precision. Sum of the series of a recurrence: each
term is the one before times `x` over `d k`. -/
def fxSeries (P : Nat) (x : Int) (d : Nat → Nat) : Nat → Nat → Int → Int → Int
  | 0, _, _, acc => acc
  | n + 1, k, term, acc =>
    let t := term * x / 2 ^ P / (d k : Int)
    fxSeries P x d n (k + 1) t (acc + t)

/-- atanh or atan of 1/q: sum of ± 1/((2k+1) q^(2k+1)). -/
def fxInv (P q : Nat) (alt : Bool) : Nat → Nat → Nat → Int → Int
  | 0, _, _, acc => acc
  | n + 1, k, pw, acc =>
    let t : Int := (pw / (2 * k + 1) : Nat)
    fxInv P q alt n (k + 1) (pw / (q * q)) (if alt && k % 2 = 1 then acc - t else acc + t)

/-- π in units of 2^-P, by Machin's formula. -/
def fxPi (P : Nat) : Int :=
  16 * fxInv P 5 true (P / 4 + 4) 0 (2 ^ P / 5) 0 - 4 * fxInv P 239 true (P / 15 + 4) 0 (2 ^ P / 239) 0

/-- ln 2 = 2 atanh(1/3). -/
def fxLn2 (P : Nat) : Int := 2 * fxInv P 3 false (P / 3 + 4) 0 (2 ^ P / 3) 0

/-- e^x for 0 ≤ x < 1. -/
def fxExp (P : Nat) (x : Int) : Int := fxSeries P x (fun k => k) 80 1 (2 ^ P) (2 ^ P)

/-- Powers of z² over odd numbers: atanh z. -/
def fxAtanh (P : Nat) (z2 : Int) : Nat → Nat → Int → Int → Int
  | 0, _, _, acc => acc
  | n + 1, k, pw, acc => fxAtanh P z2 n (k + 1) (pw * z2 / 2 ^ P) (acc + pw / ((2 * k + 1 : Nat) : Int))

/-- ln t for t in [1, 2). -/
def fxLn (P : Nat) (t : Int) : Int :=
  let z := (t - 2 ^ P) * 2 ^ P / (t + 2 ^ P)
  2 * fxAtanh P (z * z / 2 ^ P) 90 0 z 0

/-- Sum of ± x^k/k!, k stepping by two: cos from k = 0, sin from k = 1. -/
def fxTrig (P : Nat) (x2 : Int) : Nat → Nat → Int → Int → Int
  | 0, _, _, acc => acc
  | n + 1, k, term, acc =>
    let t := -(term * x2 / 2 ^ P) / (((k + 1) * (k + 2) : Nat) : Int)
    fxTrig P x2 n (k + 2) t (acc + t)

/-- m·2^e in units of 2^-P, rounded down. -/
def fxOf (P : Nat) (m : Nat) (e : Int) : Int :=
  if 0 ≤ e + P then (m : Int) * 2 ^ (e + P).toNat else ((m / 2 ^ (-(e + P)).toNat : Nat) : Int)

/-- sin and cos of a positive m·2^e, in units of 2^-1400: the argument is reduced by π/2 exactly enough for every
magnitude. -/
def fxSinCos (m : Nat) (e : Int) : Int × Int :=
  let P := 1400
  let x := fxOf P m e
  let h := fxPi P / 2
  let n := x / h
  let y := x - n * h
  let y2 := y * y / 2 ^ P
  let s := fxTrig P y2 110 1 y y
  let c := fxTrig P y2 110 0 (2 ^ P) (2 ^ P)
  match (n % 4).toNat with
  | 0 => (s, c)
  | 1 => (c, -s)
  | 2 => (-s, -c)
  | _ => (-c, s)

/-- The reference value of an approximate function at a finite nonzero m·2^e (negative when `n`), close to the exact
one by far more bits than the bounds of R137 need. -/
def approxRef (fn : ApproxFn) (n : Bool) (m : Nat) (e : Int) : Dy :=
  match fn with
  | .rcp =>
    let q := magDiv 1 0 m e
    ⟨if n then -(q.m : Int) else q.m, q.e⟩
  | .rsq =>
    let q := magDiv 1 0 m e
    let r := magSqrt q.m q.e
    ⟨r.m, r.e⟩
  | .exp2 =>
    let P := 300
    let x := if n then -(fxOf P m e) else fxOf P m e
    let k := x / 2 ^ P
    let fr := x - k * 2 ^ P
    ⟨fxExp P (fr * fxLn2 P / 2 ^ P), k - P⟩
  | .log2 =>
    let P := 300
    let k := Nat.log2 m
    let t := fxOf P m (-(k : Int))
    ⟨(e + k) * 2 ^ P + fxLn P t * 2 ^ P / fxLn2 P, -(P : Int)⟩
  | .sin => let s := (fxSinCos m e).1; ⟨if n then -s else s, -1400⟩
  | .cos => ⟨(fxSinCos m e).2, -1400⟩

/-- One unit in the last place of a number in a format. -/
def FSpec.ulp (f : FSpec) (y : Dy) : Dy :=
  if y.m = 0 then ⟨1, f.qmin⟩
  else ⟨1, max (Mag.grid ⟨y.m.natAbs, y.e, false⟩ f.mb) f.qmin⟩

/-- The bound of R137 at the reference value `y` for an input of magnitude m·2^e. -/
def approxBound (fn : ApproxFn) (f : FSpec) (m : Nat) (e : Int) (y : Dy) : Dy :=
  let u := f.ulp y
  let two : Dy := ⟨2, u.e⟩
  let wide := f.mb = 52
  let bigger (a b : Dy) : Dy := if a.lt b then b else a
  match fn with
  | .rcp | .rsq => u
  | .exp2 => two
  | .log2 =>
    let x : Dy := ⟨m, e⟩
    if Dy.le ⟨1, -1⟩ x && Dy.le x ⟨2, 0⟩ then bigger two ⟨1, if wide then -50 else -22⟩ else two
  | .sin | .cos => bigger two ⟨1, if wide then -53 else -24⟩

/-- The "Exact inputs" column of R137, for finite nonzero m·2^e. -/
def approxExact (fn : ApproxFn) (f : FSpec) (n : Bool) (m : Nat) (e : Int) : Bool :=
  let k := e + Nat.log2 m
  let pow2 := m = 2 ^ Nat.log2 m
  match fn with
  | .rcp => pow2 && f.qmin + f.mb ≤ -k && -k ≤ f.bias
  | .rsq => pow2 && !n && k % 2 = 0
  | .exp2 =>
    let whole := (0 ≤ e) || m % 2 ^ (-e).toNat = 0
    whole && decide (k < 12) &&
      (let v : Int := if 0 ≤ e then m * 2 ^ e.toNat else (m / 2 ^ (-e).toNat : Nat)
       let w := if n then -v else v
       decide (f.qmin ≤ w) && decide (w ≤ f.bias))
  | .log2 => pow2 && !n
  | .sin | .cos => false

/-- Exponents beyond which the result of FEXP2 leaves the format altogether; a power of two as far outside it then stands for the
exact result. -/
def exp2Far (m : Nat) (e : Int) : Bool := 12 ≤ e + (Nat.log2 m : Int)

/-- A signed number rounded RNE to the format. -/
def FSpec.nearest (f : FSpec) (y : Dy) : Nat × Flags :=
  f.round .rne (y.m < 0) ⟨y.m.natAbs, y.e, false⟩

/-- The result of an approximate function in the F64 or F32 format for an input code (R137, R138): the special and the
exact results, and otherwise the code of the unpublished map where it lies within the bound, the nearest value where it
does not. A special input that gives an infinity or a NaN raises DZ or NV alone (DEDUCED, log 136). -/
def approxAt (fn : ApproxFn) (f : FSpec) (ftz : Bool) (x : Nat) : Nat × Flags :=
  match f.read ftz x with
  | .nan s => (f.nanCode, if s then Flags.nv else 0)
  | .inf n =>
    match fn with
    | .rcp => (f.signed n 0, 0)
    | .rsq => if n then (f.nanCode, Flags.nv) else (0, 0)
    | .exp2 => if n then (0, 0) else (f.infCode, 0)
    | .log2 => if n then (f.nanCode, Flags.nv) else (f.infCode, 0)
    | .sin | .cos => (f.nanCode, Flags.nv)
  | .fin n m e =>
    if m = 0 then
      match fn with
      | .rcp | .rsq => (f.signed n f.infCode, Flags.dz)
      | .exp2 => f.nearest ⟨1, 0⟩
      | .log2 => (f.signed true f.infCode, Flags.dz)
      | .sin => (f.signed n 0, 0)
      | .cos => f.nearest ⟨1, 0⟩
    else if n && (fn == .rsq || fn == .log2) then (f.nanCode, Flags.nv)
    else
      let y := if fn == .exp2 && exp2Far m e then ⟨1, if n then 2 * f.qmin else 2 * f.bias⟩ else approxRef fn n m e
      let near := f.nearest y
      if approxExact fn f n m e then (near.1, near.2 &&& ~~~ (Flags.nx ||| Flags.uf))
      else
        let cand := Config.approxCode fn (f.mb = 52) x % 2 ^ f.width
        let c := match f.decode cand with
          | .fin k p g =>
            if ((FVal.fin k p g).dy.add y.neg).abs.le (approxBound fn f m e y) then cand else near.1
          | _ => near.1
        let low := c % f.signBit
        (c, if f.maxCode < low then Flags.of ||| Flags.nx
            else if (low ≠ 0 && low < 2 ^ f.mb) || (low = 0 && near.2 &&& Flags.uf ≠ 0) then Flags.uf ||| Flags.nx
            else Flags.nx)

end Sys2Proof.Machine
end

