-- ==== Sys2Proof/Machine/State.lean ====
section
/-! DEFINITION. The state of one Raltex K9 device as plain data: wefts, bolts, courses, spans, cores, contexts, memory,
queues, events, supervisor, boot, power, fabric and gateway state; the reasons a step can stop; and the state after
reset. Every field names the rule that gives it. -/

namespace Sys2Proof.Machine

/-! ## Wefts -/

/-- A register's 64 bits, format tag and full bit (R51, R90). -/
structure Cell where
  val  : Dword
  tag  : BitVec 6
  full : Bool
  deriving DecidableEq, Repr

/-- The content of every register at weft launch: 0, RAW, full (R91). -/
def Cell.launch : Cell := ⟨0, 0, true⟩

/-- A path: a PC and the threads that execute from it (R98). -/
structure Path where
  pc   : Va
  mask : Mask
  deriving DecidableEq, Repr

/-- An entry of the reconvergence stack (R99). -/
structure REntry where
  tag  : BitVec 8
  jset : Mask
  arr  : Mask
  rpc  : Option Va
  pend : List Path
  deriving DecidableEq, Repr

/-- The values a fault carries (R175, R177, R180): cause code, INFO, FIELD, TRAPPC, TRAPADDR, TRAPMASK. -/
structure Trap where
  cause : BitVec 8
  info  : BitVec 32
  field : BitVec 8
  pc    : Va
  addr  : Va
  mask  : Mask
  deriving DecidableEq, Repr

/-- Where a fault is delivered (R178). -/
inductive Route where | supervisor | context | mailbox
  deriving DecidableEq, Repr

/-- The trap record of a parked weft (R182): its trap values, TSTAT and ACTM as they stood, its place, whether the
record has been published and the event number it then got. -/
structure TrapRec where
  t : Trap
  tstat : Dword
  actm : Mask
  route : Route
  published : Bool
  seq : Nat
  deriving DecidableEq, Repr

/-- The heddle's states of a weft (R251). -/
inductive HState where | active | ready | pending | parked | swapped | ended
  deriving DecidableEq, Repr

/-- What a held weft waits on; the kinds are those the watchdog tells apart (R385, R386). -/
inductive Wait where
  /-- Registers, each with the threads in which it must be full. -/
  | register (l : List (Reg × Mask))
  /-- A phase of the barrier at an offset of a bolt's scratchpad. -/
  | barrier (owner off : Nat) (phase : Word32)
  | buffer (owner off : Nat) (phase : Word32)
  | mwait | copyRecord
  | release | drain | mig | ringFull | seqEntry | canon | remote | stopped
  deriving DecidableEq, Repr

/-- Where one element of a thread's group lies: its byte address (physical), the bit in that byte, and the address of
its scale; `none` is a clipped element (R190). `uses` are the translations it was reached through: a page's first granule and its
granules (R359). -/
structure ELoc where
  thr   : Nat
  j     : Nat
  at_   : Option (Nat × Nat)
  scale : Option Nat
  uses  : List (Nat × Nat)
  deriving DecidableEq, Repr

/-- One thread's read-modify-write of an ATOM in flight (R202), and the translations it was reached through (R359). -/
structure AtomReq where
  thr : Nat
  addr : Option Nat
  uses : List (Nat × Nat)
  tag : BitVec 6
  a : Dword
  c1 : Dword
  deriving DecidableEq, Repr

/-- What a long-latency producer in flight will write (R93). -/
inductive FlightKind where
  /-- LD and LDU: element places, register format, encoding, NaN reading, scale mode, acquire scope, cache use,
  EXT. -/
  | load (d : Reg) (fmt : Nat) (enc nan smode : Nat) (locs : List ELoc) (acq : Option Scope) (l1 ext : Bool)
  /-- LDS, LDV and decodes: values already read, for each thread; the scalar cursor of a decode; aborted threads;
  whether the cursor aborts. -/
  | ready (d : Reg) (cells : List (Nat × Cell)) (cursor : Option (Reg × Cell)) (dead : Mask) (curDead : Bool)
      (nv : Bool) (decode : Bool)
  /-- ATOM in global memory: whether it is an ordered FADD (R203), the threads' read-modify-writes and its acquire. -/
  | atom (d : Reg) (op : AtomOp) (ord : Bool) (reqs : List AtomReq) (acq : Option Scope)
  /-- WAITV: words still polled, by thread: virtual address (none when clipped) and value compared. -/
  | waitv (d : Reg) (eq w64 : Bool) (words : List (Nat × Option Nat × Dword)) (acq : Option Scope) (ext : Bool)
      (tag : BitVec 6) (pc : Va)
  /-- POPW into s`base` to s`base`+7 from a feed queue. -/
  | popw (base q : Nat) (pc : Va)
  /-- XLD: remote element places, and the bytes that have returned, by remote virtual address. -/
  | xld (d : Reg) (fmt : Nat) (enc nan smode : Nat) (locs : List ELoc) (acq : Bool) (got : Store Byte)
      (bad : List Nat)
  /-- XATOM with a destination: the operand's tag in each thread. -/
  | xatom (d : Reg) (tags : List (Nat × BitVec 6)) (acq : Bool)
  deriving DecidableEq, Repr

/-- A producer in flight: its number (also its place in issue order), the threads not yet landed, and the threads
whose read was answered by an abort completion not yet taken (R93, R109). -/
structure Flight where
  fid : Nat
  mask : Mask
  aborted : Mask
  kind : FlightKind
  deriving DecidableEq, Repr

/-- The scale layout set by MSCALE (R294). -/
structure ScaleLayout where
  a : Int
  b : Int
  c : Int
  xa : Int
  deriving DecidableEq, Repr

/-- The sparsity layout set by MSPARSE (R295). -/
structure SparseLayout where
  s48 : Bool
  slot : Nat
  a : Int
  b : Int
  deriving DecidableEq, Repr

/-- A batch of matrix instructions (R298): its number, flags in status order, whether an earlier batch's error dropped
it, whether it is closed and whether it has completed, the instructions issued into it, the instructions and
contributions not yet finished, and the parts its ordered commits went to, by their first byte and their bytes, with their
contributor (R315). -/
structure Batch where
  num : Nat
  flags : BitVec 6
  aborted : Bool
  closed : Bool
  complete : Bool
  issued : Nat
  left : Nat
  parts : List (Nat × Nat × Nat)
  deriving DecidableEq, Repr

/-- A weft: its architected register state (R90), identity (R96), trap registers (R174), heddle record (R251-R258)
and the matrix state that belongs to it (R283-R301). In a protected launch `vr` and `ks` hold the even threads, and `oddV`,
`oddK` and `oddF` what the odd threads hold otherwise than their partners: cells of vector registers, masks and producers in
flight (R112); they list nothing while each pair agrees. `flights` are its producers in flight, `sAbort` the scalars whose
producer was aborted (R110), `pend` a failure to be taken at its next boundary (R479, R299), `issued` and `misses` the instructions and the
lost-locality misses of its lease window (R258), `fired` that its mailbox has fired and it has not been admitted since (R259),
`relTags` the markers a
DOMAIN release of it waits for (R480), `bad` its register words that are uncorrectable (R361), `pendPath` the path of the remote
failure in `pend` (R378), `seek` the instructions it has issued since the doffer's request, 64 once it must
stay (R428). -/
structure Weft where
  bolt : Nat
  id : Nat
  prot : Bool
  vregs : Nat
  sregs : Nat
  status : HState
  wait : Option Wait
  vr : Store Cell
  sr : Store Cell
  ks : Store Mask
  oddV : Store Cell
  oddK : Store Mask
  oddF : List Flight
  pc : Va
  active : Mask
  stack : List REntry
  dlm : Mask
  exm : Mask
  fpctl : Dword
  fpstat : Dword
  trapcause : Dword
  trappc : Dword
  trapaddr : Dword
  trapmask : Dword
  tstat : Dword
  thvec : Dword
  trec : Option TrapRec
  pend : Option Trap
  mfail : Option Trap
  flights : List Flight
  sAbort : List Nat
  repeatPhase : Option (Nat × Nat × Word32)
  leaseDecl : Nat
  lease : Nat
  measured : Nat
  lowWindows : Nat
  issued : Nat
  misses : Nat
  slot : Option Nat
  passed : Nat
  since : Nat
  scale : Option ScaleLayout
  sparse : Option SparseLayout
  nextBatch : Nat
  chain : Option Nat
  batches : List Batch
  handler : Bool
  fired : Bool
  relTags : Option (List Nat)
  bad : List Nat
  pendPath : Nat
  seek : Nat
  deriving DecidableEq, Repr

/-! ## Bolts, courses, spans -/

/-- A buffer record as its five words (R184). -/
structure BufRec where
  w0 : Dword
  w1 : Dword
  w2 : Dword
  w3 : Dword
  w4 : Dword
  deriving DecidableEq, Repr

/-- States of a declared buffer (R235). -/
inductive BufSt where | free | filling | full | draining
  deriving DecidableEq, Repr

/-- A declared buffer (R235). -/
structure DBuf where
  base : Nat
  len : Nat
  st : BufSt
  bar : Nat
  wph : Word32
  wv : Bool
  deriving DecidableEq, Repr

/-- An entry of a bolt's part of its core's barrier table (R229): the owning bolt's handle, the object's offset, the
arrival sets of the bolt's own wefts by weft index, and, in the owner's entry, the phases into which bytes from another device have been
counted (R385, R481). -/
structure BarEnt where
  owner : Nat
  off : Nat
  arr : Store Mask
  remote : List Word32
  deriving DecidableEq, Repr

/-- States of a copy (R264, R280). A `ready` copy has its last slice and has not started to walk. -/
inductive CopySt where | opened | ready | running | done | error
  deriving DecidableEq, Repr

/-- A translation that a copy has pinned (R276): the granule, whether for writes, the frame, and the page of the entry used: its
first granule and its granules. -/
structure Pin where
  page : Nat
  write : Bool
  frame : Nat
  vpn : Nat
  span : Nat
  deriving DecidableEq, Repr

/-- A copy record (R264-R282): the descriptor's offset and its 16 words, the records its GLOBAL sides name as they were
read, contributing wefts with the place of their slice in the order of happenings, the position of the next element of
the nest, the place in that order at which the copy finished, the event number of a translation hold and the supervisor's
refusal (R495), whether its barrier has been invalidated (R234), the pages of a shadow with their frames (R275, R320), the
elements whose landing is withheld (R319), registers of a REGS destination still empty (R270), the translations pinned
(R276), the data a CPYREG.ST read (R279), the bytes gathered for uncorrectable lines that the copy replaces whole (R364), and
the pages of a shadow that came with an image and have no frame yet. -/
structure Copy where
  off : Nat
  st : CopySt
  err : Nat
  landed : Nat
  desc : List Dword
  srec : BufRec
  drec : BufRec
  parts : List Nat
  contrib : List (Nat × Nat)
  slices : List (Nat × Nat)
  next : Nat
  order : Nat
  held : Option Nat
  refused : Bool
  barGone : Bool
  pages : List (Nat × Nat)
  withheld : Nat
  empties : List Nat
  tr : List Pin
  snap : Option (List Dword)
  gather : Store Byte
  saved : List (Nat × List Byte)
  deriving DecidableEq, Repr

/-- An operand slot (R283, R284): tag, owning weft's handle, bytes, uncorrectable dwords, pins, a release that waits. -/
structure Slot where
  tag : BitVec 6
  owner : Option Nat
  data : Store Byte
  bad : List Nat
  pins : Nat
  relPend : Bool
  deriving DecidableEq, Repr

/-- A step of an MMA chain: its slots, the place in its batch and the issue stamp of its MMA, and the snapshots of the
weft's scale and sparsity layouts that it took (R294, R295, R297). -/
structure MStep where
  a : Nat
  b : Nat
  place : Nat
  at_ : Nat
  scale : Option ScaleLayout
  sparse : Option SparseLayout
  deriving DecidableEq, Repr

/-- What a sequencer entry or an MLOAD in progress does (R289, R297). -/
inductive MKind where
  | mload (slot : Nat) (layout : Dword × Dword × Dword) (tag : BitVec 6) (sc : Option Nat)
  | mma (steps : List MStep)
  | mloop (loop : Dword) (bar : Option (Nat × Word32)) (scale : Option ScaleLayout) (sparse : Option SparseLayout)
  deriving DecidableEq, Repr

/-- A sequencer entry (R290, R291, R301), or an MLOAD in progress: the weft, its batch and the instruction's place in it,
the accumulator record by index and as it was read, tile offset and options, the next step, the first uncommitted step,
whether it takes no more steps, the partial T by element, the slots pinned, the translation hold. -/
structure SeqEntry where
  weft : Nat
  batch : Nat
  place : Nat
  kind : MKind
  br : Nat
  acc : BufRec
  off : Int
  merge : Merge
  sp : Bool
  sc : Bool
  contrib : Nat
  next : Nat
  done : Nat
  closed : Bool
  part : Store Dword
  pinned : List Nat
  held : Option Nat
  refused : Bool
  deriving DecidableEq, Repr

/-- One RED gathered in a core's update-only copy of a line (R311, R312), in arrival order. -/
structure RedEntry where
  course : Nat
  bolt : Nat
  weft : Nat
  seq : Nat
  pa : Nat
  op : AtomOp
  w8 : Bool
  flt : Bool
  ord : Bool
  a : Dword
  deriving DecidableEq, Repr

/-- A sequence of ordered FADDs to a word of a scratchpad or vault (R203): its offset, whether it is 8 bytes wide, the value it
started from, the value so far and the addends. -/
structure OrdFold where
  off : Nat
  w8 : Bool
  base : Nat
  now : Nat
  adds : List RedEntry
  deriving DecidableEq, Repr

/-- A bolt (R223-R240): identity, core, scratchpad bytes and their uncorrectable dwords, sequences of
ordered FADDs (R203), record table (R188), buffer
table, barrier entries, copies and the next handle (R271), and where its state stands (R260, R262). -/
structure Bolt where
  course : Nat
  id : Nat
  core : Nat
  nwefts : Nat
  scratch : Nat
  sp : Store Byte
  spBad : List Nat
  folds : List OrdFold
  recs : List BufRec
  bufs : List DBuf
  bars : List BarEnt
  copies : Store Copy
  nextHandle : Nat
  swapped : Bool
  out : Bool
  savedSlots : Store Slot
  savedSeq : Store SeqEntry
  deriving DecidableEq, Repr

/-- A course: its vault window (R305-R307). -/
structure Course where
  span : Nat
  id : Nat
  cluster : Nat
  nbolts : Nat
  vlen : Nat
  vault : Store Byte
  vBad : List Nat
  folds : List OrdFold
  handler : Bool
  start : Nat
  ended : Bool
  deriving DecidableEq, Repr

/-- A kernel descriptor (R46) with its record table. -/
structure Kernel where
  addr : Nat
  entry : Va
  vregs : Nat
  sregs : Nat
  prot : Bool
  mbox : Bool
  scratch : Nat
  lease : Nat
  wefts : Nat
  bolts : Nat
  recs : List BufRec
  deriving DecidableEq, Repr

/-- Why a span is ending (R173, R377, R434). -/
inductive SpanEnd where | running | halted (code : Word32) | killed | origin
  deriving DecidableEq, Repr

/-- A capture in progress (R428-R430): mode 1 SAVE, 2 MOVE, 3 CHECKPOINT; the queue whose packet asked for it; the
image address and its tier descriptors; whether Seek has started and when the deferral ends. -/
structure CaptureReq where
  mode : Nat
  qid : Nat
  addr : Nat
  tiers : List (Nat × Dword × Nat × Nat × Dword)
  seeking : Bool
  deadline : Nat
  deriving DecidableEq, Repr

/-- A span: the DISPATCH that made it (R404), its placement (R406) and how it ends (R408). -/
structure Span where
  asid : Nat
  qid : Nat
  pkt : Nat
  cls : Nat
  kernel : Kernel
  courses : Nat
  flags : BitVec 32
  cvw : Dword
  compl : Nat
  args : List (Dword × BitVec 6)
  placed : Nat
  ending : SpanEnd
  completed : Option Nat
  released : Bool
  recorded : Bool
  capture : Option CaptureReq
  switched : Option (Nat × Nat)
  submitted : Nat
  rel : Nat
  idSpan : Nat
  idSpans : Nat
  ctime : Nat
  inst : Nat
  deriving DecidableEq, Repr

/-! ## Cores -/

/-- A valid L1 line: its physical line number and 64 bytes (R308, R310). -/
structure L1Line where
  line : Nat
  data : List Byte
  deriving DecidableEq, Repr

/-- A write-buffer entry (R308): storing bolt and weft, place in issue order, bytes from a physical address, and the translations
it was reached through (R359). -/
structure WEntry where
  bolt : Nat
  weft : Nat
  seq : Nat
  pa : Nat
  uses : List (Nat × Nat)
  data : List Byte
  deriving DecidableEq, Repr

/-- Where a core stands in a bank switch (R260): the outgoing and the incoming span. -/
inductive Switch where | none | requested (inn : Nat) | spilling (out : Nat)
  deriving DecidableEq, Repr

/-- A victim tag of an L1 set (R258): the set, the evicted line, the slot of the weft whose access evicted it. -/
structure Victim where
  set : Nat
  line : Nat
  slot : Nat
  deriving DecidableEq, Repr

/-- A core position in service, by logical number (R223, R302): slots, sequencer, L1 lines, those of them that are uncorrectable
(R363), the lines of its instruction cache and those of them that are uncorrectable (R3, R363), victim tags, newest first (R258),
write buffer, update-only copies, bank switch, the span whose context the shadow bank holds, preloaded or being spilled (R223,
R260), the handler record's binding (R259), the cycles counted since its reset (R172). -/
structure Core where
  slots : Store Slot
  seqr : Store SeqEntry
  l1 : List L1Line
  l1Bad : List Nat
  icache : List Nat
  icBad : List Nat
  victims : List Victim
  wbuf : List WEntry
  upd : List RedEntry
  switch : Switch
  shadow : Option Nat
  stopping : Bool
  handler : Option Nat
  cc : Nat
  deriving DecidableEq, Repr

/-- A cluster (R302, R304, R332): its VSPLIT code, its 264 positions as the supervisor numbered them (the physical position of each
logical one, where they differ, and the spares), and whether it is in service. -/
structure Cluster where
  vsplit : BitVec 3
  phys : Store Nat
  spares : List Nat
  inService : Bool
  deriving DecidableEq, Repr

/-! ## Contexts, translation, accumulators -/

/-- STATE of a context control block (R373). -/
inductive CtxSt where | free | live | stopping | killed
  deriving DecidableEq, Repr

/-- A mailbox binding (R413, R420): line address, the handler's descriptor address, its core, its running bolt,
PENDING, the binding weft's span and the handler kernel as read. -/
structure MBox where
  line : Nat
  pa : Nat
  descr : Nat
  core : Nat
  bolt : Option Nat
  pending : Bool
  span : Nat
  kern : Kernel
  deriving DecidableEq, Repr

/-- A kernel's load record (R445): base, ELF digest and the bytes loaded. Its register map is the identity on this part. -/
structure LoadRec where
  base : Va
  digest : List Byte
  len : Nat
  deriving DecidableEq, Repr

/-- A path of the egress (R480): requests since the last acknowledged marker, the markers outstanding, the failures
not yet reported (R479), its last use. -/
structure Egress where
  asid : Nat
  ridx : Nat
  count : Nat
  markers : List Nat
  failed : List (Nat × Va)
  used : Nat
  deriving DecidableEq, Repr

/-- A context: its control block (R373), mailbox bindings, load records, and the time of its last progress or exempt
wait for the watchdog (R386). -/
structure Ctx where
  trans : Dword
  deleg : Dword
  peer : Dword
  peermb : Word32
  wdwin : Word32
  st : CtxSt
  peerbase : Dword
  mboxes : List MBox
  loads : List LoadRec
  progress : Nat
  deriving DecidableEq, Repr

/-- A cached translation (R355): core 0 to 2047, or 2048 for a cluster TLB entry; the page's first granule and
granule count; the leaf entry. -/
structure TlbEnt where
  core : Nat
  asid : Nat
  vpn : Nat
  span : Nat
  entry : Dword
  deriving DecidableEq, Repr

/-- An invalidation in progress (R358, R359). -/
structure Inval where
  asid : Nat
  all : Bool
  vpn : Nat
  n : Nat
  done : Nat
  deriving DecidableEq, Repr

/-- An entry of the walkers' shared cache (R355): a non-leaf entry by its context, its level and the address bits above what it maps. -/
structure WalkEnt where
  asid : Nat
  level : Nat
  pre : Nat
  entry : Nat
  deriving DecidableEq, Repr

/-- A contribution to one accumulator part (R313, R315): its weft, batch and sequencer entry, contributor, mode, place in program order,
the part by the physical address of its first byte and its bytes, elements by physical address, element kind (0 F32, 1 F64, 2 INT32),
final mark, whether it has reached its slice and stalls for want of room (R316), and the translations it was reached through (R359). -/
structure Contribution where
  weft : Nat
  batch : Nat
  entry : Nat
  contrib : Nat
  merge : Merge
  ordinal : Nat
  part : Nat
  len : Nat
  kind : Nat
  elems : List (Nat × Dword)
  final : Bool
  stalled : Bool
  uses : List (Nat × Nat)
  deriving DecidableEq, Repr

/-- An ordered sequence of an accumulator part (R315), found by the part's first byte: the part's bytes, NEXT and the contributions
held. -/
structure AccPart where
  len : Nat
  next : Nat
  held : List Contribution
  deriving DecidableEq, Repr

/-! ## Queues -/

/-- A level of an INDIRECT stack entry (R388). -/
structure Level where
  addr : Nat
  count : Nat
  pos : Nat
  deriving DecidableEq, Repr

/-- A slot fetched ahead (R397): its level, sequence number and 256 bytes. -/
structure FSlot where
  level : Nat
  n : Nat
  data : List Byte
  deriving DecidableEq, Repr

/-- Where the packet now at its turn stands: not started; held by a migrating or following page; a DISPATCH whose course 0 has no
place yet (R406). -/
inductive QPhase where | idle | held | dispatching (span : Nat)
  deriving DecidableEq, Repr

/-- A packet that has started and not completed, while others of its queue may go on (R395): a WAIT that waits since a time, a FEED
without room, a capture of a span, a memory packet whose writes are still to be performed. -/
inductive GoKind where | waiting (since : Nat) | feeding | capturing (span : Nat) | writing
  deriving DecidableEq, Repr

/-- Where a queue's front end stood at a packet (R388, R399): RIDX, DEPTH, SKIP, the loop fields, STACK, and the stamps of the
packets started last, by level (R395). -/
structure QPos where
  ridx : Nat
  depth : Nat
  skip : Nat
  loopleft : Nat
  loopn : Nat
  loopdepth : Nat
  loopstart : Nat
  stack : List Level
  lastPk : Store Nat
  deriving DecidableEq, Repr

/-- A started packet: the stamp of its start, what it does, its sequence number and bytes, and where its queue stood at it. -/
structure Going where
  stamp : Nat
  kind : GoKind
  n : Nat
  data : List Byte
  at_ : QPos
  deriving DecidableEq, Repr

/-- A queue state block (R388), with what the front end holds beside it: whether a hardware slot holds the queue (R389), slots fetched, spans not yet completed by
this queue's packets (for ORD), other packets that have started and not completed (R395), submission times, the halt slot (R409), the
queue key (R382), and by level the stamp of the last packet started (R395). -/
structure Queue where
  ring : Nat
  nslot : Nat
  asid : Nat
  cls : Nat
  en : Bool
  keyed : Bool
  halted : Bool
  widx : Nat
  ridx : Nat
  deadline : Nat
  err : Nat
  depth : Nat
  hwslot : Nat
  bound : Bool
  skip : Nat
  lastseq : Nat
  drops : Nat
  loopleft : Nat
  loopn : Nat
  loopdepth : Nat
  loopstart : Nat
  stack : List Level
  fetched : List FSlot
  phase : QPhase
  running : List (Nat × Nat × Nat)
  going : List Going
  submitted : List (Nat × Nat)
  haltslot : List Byte
  key : Option (List Byte)
  lastPk : Store Nat
  deriving DecidableEq, Repr

/-- A feed queue's descriptor (R410) with its waiting pops: weft handle and flight number, oldest first. Its records lie in vault
memory, at VBASE of the core aperture. -/
structure FeedQ where
  vbase : Nat
  asid : Nat
  cap : Nat
  xbase : Nat
  xcap : Nat
  head : Nat
  vtail : Nat
  tail : Nat
  pops : List (Nat × Nat)
  deriving DecidableEq, Repr

/-! ## Events, supervisor, boot, power, faults -/

/-- A numbered event (R378): kind, subkind, argument, and the queue it belongs to for the event queue. -/
structure Event where
  seq : Nat
  kind : Nat
  sub : Nat
  arg : Nat
  deriving DecidableEq, Repr

/-- A queue core (R422, R423): the event it holds, the time of its watchdog kick, restarts. -/
structure QCore where
  held : Option Event
  kicked : Nat
  restarts : Nat
  retired : Bool
  deriving DecidableEq, Repr

/-- Where a hart stands (R369, R380): waiting for its release, in the boot ROM, running its role's code, retired. -/
inductive HartSt where | waiting | rom | running | retired
  deriving DecidableEq, Repr

/-- A hart (R369, R370, R375, R380): where it stands, where its firmware's code begins, the interrupts raised at it and not yet taken:
trap records (R375), errors (R362), and the last access fault it took, a write's or not (R370). -/
structure Hart where
  st : HartSt
  entry : Nat
  irqTrap : Bool
  irqErr : Bool
  fault : Option Bool
  deriving DecidableEq, Repr

/-- The supervisor complex (R369, R424-R426); `order` is the order in which its placement policy takes the clusters (R406). -/
structure Sup where
  active : Nat
  standby : Bool
  journal : List JEntry
  base : Nat
  placement : List Byte
  order : List Nat
  attest : List (List Byte)
  deriving DecidableEq, Repr

/-- An error event that waits for its record (R365): its number and what the detecting unit saw. -/
structure ErrRec where
  seq : Nat
  pa : Nat
  cls : Nat
  die : Nat
  idx : Nat
  kind : Nat
  consumer : Nat
  asid : Nat
  time : Nat
  deriving DecidableEq, Repr

/-- A unit under fault counting (R366, R367). -/
structure UnitRec where
  cls : Nat
  die : Nat
  idx : Nat
  times : List Nat
  lasting : Bool
  deriving DecidableEq, Repr

/-- Boot and identity state (R380-R382, R448-R450); `loaded` are the images in place in the order of their kinds: LOAD, SIZE and
ENTRY; `locked` says that the monitor has set the hub's memory protection and locked it (R370). -/
structure Boot where
  straps : Dword
  bootst : Dword
  meas : List (List Byte)
  svn : List Nat
  svnMin : List Nat
  staged : List (List Byte)
  kemKey : Nat
  loaded : List (Nat × Nat × Nat)
  locked : Bool
  deriving DecidableEq, Repr

/-- Power and thermal state (R449, R452). -/
structure Power where
  pstep : Nat
  cap : Nat
  capSet : Bool
  stepSince : Nat
  clearSince : Nat
  hotSince : Option Nat
  off : Bool
  deriving DecidableEq, Repr

/-! ## Fabric and gateways -/

/-- A domain-table entry (R467). -/
structure DomEnt where
  domid : Word32
  asid : Nat
  idSpan : Nat
  idSpans : Nat
  valid : Bool
  peerlost : Bool
  dpos : BitVec 24
  dshape : BitVec 24
  deriving DecidableEq, Repr

/-- An Enmal port (R456-R459): link up, the flit number expected next and last sent, the flits not acknowledged,
stop bits, retries in a row, lanes in use and events, retrainings. -/
structure Port where
  up : Bool
  rxNext : BitVec 16
  nak : Bool
  txSeq : BitVec 16
  replay : List Flit
  stop : BitVec 8
  retries : Nat
  spareUsed : Bool
  crcFails : List Nat
  retrains : Nat
  deriving DecidableEq, Repr

/-- A remote request that awaits its response, or the marker that covers it (R472-R480); `gw` marks one that a gateway
port carries (R487), whose type and data are then what the port was given. -/
structure Req where
  tag : Nat
  asid : Nat
  ridx : Nat
  weft : Nat
  fid : Option Nat
  thr : Nat
  addr : Va
  len : Nat
  sent : Nat
  gw : Bool
  typ : BitVec 8
  data : List Byte
  deriving DecidableEq, Repr

/-- A gateway's region-table entry (R488). -/
structure Region where
  asid : Nat
  base : Nat
  len : Nat
  r : Bool
  w : Bool
  feed : Option Nat
  deriving DecidableEq, Repr

/-- A gateway's answer to an incoming request (R488, R489). -/
inductive GwAns where | ok (data : List Byte) | protection | notReady | unsupported
  deriving DecidableEq, Repr

/-- A page pull (R440): the context, the page's address, the request's TAG and time, the parts of the page that have come, by
their place, and whether the page has proved unreachable. -/
structure Pull where
  asid : Nat
  va : Nat
  tag : Nat
  since : Nat
  got : Store (List Byte)
  dead : Bool
  deriving DecidableEq, Repr

/-- An image whose pages this device holds after a MOVE (R439-R441). -/
structure HeldImage where
  digest : List Byte
  asid : Nat
  pages : List (Nat × Nat)
  deriving DecidableEq, Repr

/-- A device that holds pages of an image restored here (R440): the context, the image's digest, the holder's position and the
granules still to follow. -/
structure Holder where
  asid : Nat
  digest : List Byte
  pos : BitVec 24
  left : List Nat
  deriving DecidableEq, Repr

/-- A checkpoint that drains (R442, R443): frames still pending with their piece numbers, pieces of the image not yet
sent, the tags of pieces sent and not acknowledged. -/
structure Ckpt where
  qid : Nat
  span : Nat
  image : List Byte
  frames : List (Nat × Nat)
  imgLeft : List Nat
  sent : List Nat
  tiers : List (Nat × Dword × Nat × Nat × Dword)
  deriving DecidableEq, Repr

/-- Fabric state (R460-R485). -/
structure Fabric where
  cfg : Dword
  rtbase : Dword
  rto : Dword
  cache : Store (List Byte)
  domains : Store DomEnt
  ports : Store Port
  egress : List Egress
  reqs : List Req
  out : List Packet
  links : List (Nat × Nat × Packet)
  inbox : List Packet
  nextTag : Nat
  gwmode : List Nat
  regions : Store Region
  gwout : List GwAns
  topo : Store (List Byte)
  topoGen : Nat
  deriving DecidableEq, Repr

/-! ## The device -/

/-- Whose turn it is: a weft issues, or a step of another agent happens. -/
inductive Task where
  | issue (w : Nat)
  | ev (i : Instr)
  deriving DecidableEq, Repr

/-- The state of one K9. -/
structure State where
  agenda : List Task
  cur : Nat
  wefts : Store Weft
  bolts : Store Bolt
  courses : Store Course
  spans : Store Span
  cores : Store Core
  clusters : Store Cluster
  ctxs : Store Ctx
  mem : Store Byte
  memBad : List Nat
  l2Bad : List Nat
  hubBad : List Nat
  aper : Store Byte
  aperBad : List Nat
  lostStacks : List Nat
  deadDies : List (Nat × Nat)
  tlb : List TlbEnt
  wcache : List WalkEnt
  oldPages : List Nat
  invals : List Inval
  contribs : List Contribution
  accs : Store AccPart
  queues : Store Queue
  kicks : List Nat
  feTurn : Store Nat
  feeds : Store FeedQ
  nextSeq : Nat
  events : List Event
  evq : List Event
  trapRing : List (List Byte)
  evRing : List (List Byte)
  harts : Store Hart
  qcores : Store QCore
  sup : Sup
  boot : Boot
  power : Power
  units : List UnitRec
  windows : Store Dword
  repairs : List (Nat × Nat × Nat)
  degraded : Bool
  errWait : List ErrRec
  errRing : List (List Byte)
  fab : Fabric
  pulls : List Pull
  heldImages : List HeldImage
  holders : List Holder
  ckpts : List Ckpt
  ckptRegion : Store Byte
  estimates : Store Nat
  hubRegs : Store Dword
  ltime : Nat
  order : Nat
  free : Nat
  deriving DecidableEq, Repr

/-! ## Why a step stops -/

/-- Why the machine stops. -/
inductive Fault where
  /-- Raised by the step and by every meaning's device once thermal step 4 has powered the module off (R452, R453):
  all state is lost. Safe: nothing runs on a module without power. -/
  | poweredOff
  deriving DecidableEq, Repr

/-- Why an instruction has no meaning. -/
inductive Refusal where
  /-- Raised by a dispatch arm with no meaning yet. Safe: nothing is claimed of it. -/
  | notModelled (mnemonic : String)
  /-- Raised by a weft instruction that is executed while no weft of the state is the running one; no step does so.
  Safe: the hardware has no such case. -/
  | noWeft
  deriving DecidableEq, Repr

/-! ## Reset -/

/-- A core after reset: nothing in it (R448). -/
def Core.reset : Core :=
  { slots := [], seqr := [], l1 := [], l1Bad := [], icache := [], icBad := [], victims := [], wbuf := [], upd := [], switch := .none, shadow := none,
    stopping := false, handler := none, cc := 0 }

/-- A slot nobody owns: zero bytes, RAW (R284). -/
def Slot.empty : Slot := { tag := 0, owner := none, data := [], bad := [], pins := 0, relPend := false }

/-- A cluster after reset: logical positions are the physical ones of the same number and the last 8 are spares (R302), split code
000. -/
def Cluster.reset : Cluster := { vsplit := 0, phys := [], spares := [256, 257, 258, 259, 260, 261, 262, 263], inService := true }

/-- A hart that waits for its release (R380). -/
def Hart.reset : Hart := { st := .waiting, entry := 0, irqTrap := false, irqErr := false, fault := none }

/-- A control block after reset: WDWIN 2,000,000 (R373), the rest 0. -/
def Ctx.reset : Ctx :=
  { trans := 0, deleg := 0, peer := 0, peermb := 0, wdwin := 2000000, st := .free, peerbase := 0, mboxes := [],
    loads := [], progress := 0 }

/-- A queue state block after reset: every field 0 (R388). -/
def Queue.reset : Queue :=
  { ring := 0, nslot := 0, asid := 0, cls := 0, en := false, keyed := false, halted := false, widx := 0, ridx := 0,
    deadline := 0, err := 0, depth := 0, hwslot := 0, bound := false, skip := 0, lastseq := 0, drops := 0, loopleft := 0,
    loopn := 0, loopdepth := 0, loopstart := 0, stack := [], fetched := [], phase := .idle, running := [],
    going := [], submitted := [], haltslot := [], key := none, lastPk := [] }

/-- An unbound feed queue: a zero descriptor (R410). -/
def FeedQ.reset : FeedQ :=
  { vbase := 0, asid := 0, cap := 0, xbase := 0, xcap := 0, head := 0, vtail := 0, tail := 0, pops := [] }

/-- A port after reset: down until it trains (R448). -/
def Port.reset : Port :=
  { up := false, rxNext := 0, nak := false, txSeq := 0, replay := [], stop := 0, retries := 0, spareUsed := false,
    crcFails := [], retrains := 0 }

/-- The absent weft: ended, with no threads; what an unused handle reads as. -/
def Weft.absent : Weft :=
  { bolt := 0, id := 0, prot := false, vregs := 8, sregs := 0, status := .ended, wait := none, vr := [], sr := [],
    ks := [], oddV := [], oddK := [], oddF := [], pc := 0, active := 0, stack := [], dlm := 0, exm := 0, fpctl := 1, fpstat := 0, trapcause := 0,
    trappc := 0, trapaddr := 0, trapmask := 0, tstat := 0, thvec := 0, trec := none, pend := none, mfail := none,
    flights := [], sAbort := [], repeatPhase := none, leaseDecl := 0, lease := 65536, measured := 65536, lowWindows := 0, issued := 0,
    misses := 0,
    slot := none, passed := 0, since := 0, scale := none, sparse := none, nextBatch := 0, chain := none,
    batches := [], handler := false, fired := false, relTags := none, bad := [], pendPath := 0, seek := 0 }

/-- An absent bolt. -/
def Bolt.absent : Bolt :=
  { course := 0, id := 0, core := 0, nwefts := 0, scratch := 0, sp := [], spBad := [], folds := [], recs := [], bufs := [], bars := [],
    copies := [], nextHandle := 1, swapped := false, out := false, savedSlots := [], savedSeq := [] }

/-- An absent course. -/
def Course.absent : Course :=
  { span := 0, id := 0, cluster := 0, nbolts := 0, vlen := 0, vault := [], vBad := [], folds := [], handler := false, start := 0, ended := false }

/-- An absent kernel. -/
def Kernel.absent : Kernel :=
  { addr := 0, entry := 0, vregs := 8, sregs := 0, prot := false, mbox := false, scratch := 0, lease := 0, wefts := 0,
    bolts := 0, recs := [] }

/-- An absent span. -/
def Span.absent : Span :=
  { asid := 0, qid := 0, pkt := 0, cls := 0, kernel := Kernel.absent, courses := 0, flags := 0, cvw := 0, compl := 0,
    args := [], placed := 0, ending := .running, completed := none, released := false, recorded := false,
    capture := none, switched := none, submitted := 0, rel := 0, idSpan := 0, idSpans := 1, ctime := 0, inst := 0 }

/-- The device right after reset, before the boot sequence (R448): no weft, bolt, course, span or live context; HBM
with nothing listed; every register at the value the manual gives, or at the value the assumption log names. -/
def State.reset : State :=
  { agenda := [], cur := 0, wefts := [], bolts := [], courses := [], spans := [], cores := [], clusters := [],
    ctxs := [], mem := [], memBad := [], l2Bad := [], hubBad := [], aper := [], aperBad := [], lostStacks := [], deadDies := [], tlb := [], wcache := [], oldPages := [], invals := [], contribs := [],
    accs := [], queues := [], kicks := [], feTurn := [], feeds := [], nextSeq := 1, events := [], evq := [], trapRing := [],
    evRing := [], harts := [(0, { Hart.reset with st := .rom })], qcores := [],
    sup := { active := 2, standby := true, journal := [], base := 0, placement := [], order := [0, 1, 2, 3, 4, 5, 6, 7], attest := [] },
    boot := { straps := 0, bootst := 0, meas := [], svn := [], svnMin := [], staged := [], kemKey := 0, loaded := [], locked := false },
    power := { pstep := 0, cap := 3600, capSet := false, stepSince := 0, clearSince := 0, hotSince := none,
               off := false },
    units := [], windows := [], repairs := [], degraded := false, errWait := [], errRing := [],
    fab := { cfg := 0, rtbase := 0, rto := 10000, cache := [], domains := [], ports := [], egress := [], reqs := [],
             out := [], links := [], inbox := [], nextTag := 0, gwmode := [], regions := [], gwout := [], topo := [], topoGen := 0 },
    pulls := [], heldImages := [], holders := [], ckpts := [], ckptRegion := [], estimates := [], hubRegs := [], ltime := 0, order := 0,
    free := 0 }

end Sys2Proof.Machine
end

