-- ==== Sys2Proof/Machine/Conv.lean ====
section
/-! DEFINITION. Tagged register contents (R51-R55), reading and finishing integers (R121), conversions (R72-R77) and the
conversion stage's pairs and element conversions (R185, R192-R195). -/

namespace Sys2Proof.Machine

/-! ## Tags -/

/-- The FMT code of a tag (R51). -/
def fmtOf (t : BitVec 6) : Nat := t.toNat % 16
/-- The NaN reading of a tag (R51). -/
def readOf (t : BitVec 6) : Nat := t.toNat / 16

abbrev tagRAW : BitVec 6 := 0
abbrev tagI64 : BitVec 6 := 1
abbrev tagI32 : BitVec 6 := 2
abbrev tagF64 : BitVec 6 := 3
abbrev tagF32 : BitVec 6 := 4
abbrev tagF16 : BitVec 6 := 5
abbrev tagBF16 : BitVec 6 := 6
abbrev tagE4M3 : BitVec 6 := 7
abbrev tagE5M2 : BitVec 6 := 8
abbrev tagMX : BitVec 6 := 9
abbrev tagI8 : BitVec 6 := 10

/-- Element count of a format (R53). -/
def elemCount (fmt : Nat) : Nat :=
  if fmt ≤ 4 then 1 else if fmt ≤ 6 then 4 else if fmt = 9 then 16 else 8
/-- Element width in bits (R53). -/
def elemBits (fmt : Nat) : Nat :=
  match fmt with
  | 0 | 1 | 3 => 64
  | 2 | 4 => 32
  | 5 | 6 => 16
  | 9 => 4
  | _ => 8

/-- Element `i` of a register (R53). -/
def elemAt (fmt : Nat) (x : Nat) (i : Nat) : Nat := x / 2 ^ (elemBits fmt * i) % 2 ^ elemBits fmt

/-- A register's bits from its elements, element 0 lowest. -/
def packElems (fmt : Nat) : List Nat → Nat
  | [] => 0
  | c :: t => c % 2 ^ elemBits fmt + 2 ^ elemBits fmt * packElems fmt t

/-- Put one element. -/
def setElem (fmt x i c : Nat) : Nat :=
  let w := elemBits fmt
  x - elemAt fmt x i * 2 ^ (w * i) + c % 2 ^ w * 2 ^ (w * i)

/-- A full register value; INT32 and F32 have bits 63:32 zero (R53). -/
def mkCell (x : Nat) (tag : BitVec 6) : Cell :=
  let y := if fmtOf tag = 2 || fmtOf tag = 4 then x % 2 ^ 32 else x
  ⟨BitVec.ofNat 64 y, tag, true⟩

/-- The format a floating-point tag names; none for the others. -/
def fspecOfTag (t : BitVec 6) : Option FSpec :=
  match fmtOf t with
  | 3 => some .f64
  | 4 => some .f32
  | 5 => some .f16
  | 6 => some .bf16
  | 7 => some (.e4m3 (readOf t))
  | 8 => some (.e5m2 (readOf t))
  | 9 => some .e2m1
  | _ => none

/-- The format of a floating-point width (R34). -/
def fspecOfWidth : FWidth → FSpec
  | .f64 => .f64 | .f32 => .f32 | .f16 => .f16 | .bf16 => .bf16
/-- The tag of a floating-point width (R55). -/
def tagOfWidth : FWidth → BitVec 6
  | .f64 => tagF64 | .f32 => tagF32 | .f16 => tagF16 | .bf16 => tagBF16

/-! ## Integers -/

/-- Two's complement reading of the low `w` bits. -/
def sextNat (w x : Nat) : Int :=
  let b := x % 2 ^ w
  if b < 2 ^ (w - 1) then (b : Int) else (b : Int) - 2 ^ w

/-- The low `w` bits of an integer. -/
def wrapNat (w : Nat) (x : Int) : Nat := (x % 2 ^ w).toNat

/-- Read of R121: an INT64 or INT32 source at width `w`. -/
def readInt (c : Cell) (w : Nat) (un : Bool) : Int :=
  let n := if fmtOf c.tag = 2 then 32 else 64
  let b := c.val.toNat % 2 ^ n
  let b : Nat := if n < w then (if un then b else wrapNat w (sextNat n b)) else b
  if un then ((b % 2 ^ w : Nat) : Int) else sextNat w b

/-- Lowest value of an integer of `w` bits. -/
def intLo (w : Nat) (un : Bool) : Int := if un then 0 else -(2 ^ (w - 1))
/-- Highest value of an integer of `w` bits. -/
def intHi (w : Nat) (un : Bool) : Int := if un then 2 ^ w - 1 else 2 ^ (w - 1) - 1
/-- An exact integer out of range (R121, R75). -/
def outOfRange (w : Nat) (un : Bool) (x : Int) : Bool := x < intLo w un || intHi w un < x
/-- The nearest value in range. -/
def clampInt (w : Nat) (un : Bool) (x : Int) : Int := min (max x (intLo w un)) (intHi w un)
/-- INT(W) (R121). -/
def intTag (w : Nat) : BitVec 6 := if w = 32 then tagI32 else tagI64

/-- Finish of R121: the register value and the flag it raises. -/
def finish (x : Int) (w : Nat) (un sat : Bool) : Cell × Flags :=
  let y := if sat then clampInt w un x else x
  (mkCell (wrapNat w y) (intTag w), if outOfRange w un x then Flags.iof else 0)

/-- An integer to an integer of `w` bits (R75). -/
def toIntN (x : Int) (w : Nat) (un sat : Bool) : Nat × Flags :=
  (wrapNat w (if sat then clampInt w un x else x), if outOfRange w un x then Flags.iof else 0)

/-- A floating-point value to an integer of `w` bits (R74). -/
def floatToInt (r : Rnd) (v : FVal) (w : Nat) (un : Bool) : Nat × Flags :=
  match v with
  | .nan _ => (0, Flags.nv)
  | .inf n => (wrapNat w (if n then intLo w un else intHi w un), Flags.nv)
  | .fin n m e =>
    let (k, nx) := roundInt r n m e
    if outOfRange w un k then (wrapNat w (clampInt w un k), Flags.nv)
    else (wrapNat w k, if nx then Flags.nx else 0)

/-- An integer to a floating-point format, rounded (R72). -/
def intToFloat (f : FSpec) (r : Rnd) (x : Int) : Nat × Flags := f.round r (x < 0) ⟨x.natAbs, 0, false⟩

/-! ## CVT (R142, R143) -/

/-- What a CVT target code names. -/
inductive CvtTarget where
  | int (w : Nat) (un : Bool)
  | float (f : FSpec)

/-- The targets of R142: the kind and the result tag. -/
def cvtTarget (t : BitVec 4) : CvtTarget × BitVec 6 :=
  match t.toNat with
  | 0x0 => (.int 8 true, tagI8)
  | 0x1 => (.int 64 false, tagI64)
  | 0x2 => (.int 32 false, tagI32)
  | 0x3 => (.float .f64, tagF64)
  | 0x4 => (.float .f32, tagF32)
  | 0x5 => (.float .f16, tagF16)
  | 0x6 => (.float .bf16, tagBF16)
  | 0x7 => (.float (.e4m3 0), 0x07)
  | 0x8 => (.float (.e5m2 0), 0x08)
  | 0x9 => (.float .e2m1, tagMX)
  | 0xA => (.int 8 false, tagI8)
  | 0xB => (.float (.e4m3 1), 0x17)
  | 0xC => (.float (.e4m3 2), 0x27)
  | 0xD => (.float (.e5m2 2), 0x28)
  | 0xE => (.int 32 true, tagI32)
  | _ => (.int 64 true, tagI64)

/-- A format that FTZ leaves alone: FP8 and E2M1 (R69). -/
def FSpec.small (f : FSpec) : Bool := f.eb + f.mb < 8

/-- A value into a format (R72): a conversion of a format and reading to itself returns the value, its NaN quiet unless it is a
signalling one; any other narrows or widens. -/
def FSpec.convert (f s : FSpec) (r : Rnd) (v : FVal) : Nat × Flags :=
  match v with
  | .nan sg => if s = f then (f.nanCode, if sg then Flags.nv else 0) else f.roundVal r v
  | _ => f.roundVal r v

/-- One element of CVT: source tag and code, target, mode, bit 7, FTZ. -/
def convertElem (tag : BitVec 6) (x : Nat) (tgt : CvtTarget) (r : Rnd) (b7 ftz : Bool) : Nat × Flags :=
  match fspecOfTag tag, tgt with
  | some s, .float f =>
    let z := ftz && !s.small && !f.small
    let y := f.convert s r (s.read z x)
    if z then f.flush y else y
  | some s, .int w un => floatToInt r (s.read (ftz && !s.small) x) w un
  | none, .int w un =>
    let src := elemBits (fmtOf tag)
    let v : Int := if un then (x % 2 ^ src : Nat) else sextNat src x
    toIntN v w un b7
  | none, .float f =>
    let src := elemBits (fmtOf tag)
    let v : Int := if b7 then (x % 2 ^ src : Nat) else sextNat src x
    intToFloat f r v

/-! ## Blocks (R76, R77) -/

/-- An E8M0 code as a value (R58). -/
def e8m0 (c : Nat) : FVal := if c % 256 = 255 then .nan false else .fin false 1 ((c % 256 : Nat) - 127)

/-- The scale exponent of R76 over finite values; 0 when all are zero. -/
def mxExp (xs : List FVal) : Int :=
  let top := xs.foldl (fun (acc : Option Int) v =>
    match v with
    | .fin _ m e => if m = 0 then acc else
        let k := e + Nat.log2 m
        match acc with
        | none => some k
        | some j => some (max j k)
    | _ => acc) none
  match top with
  | none => 0
  | some k => min (max (k - 2) (-127)) 127

/-- R76: the scale code of a block, the codes of its elements, the flags. -/
def mxBlock (r : Rnd) (xs : List FVal) : Nat × List Nat × Flags :=
  if xs.any (fun v => match v with | .fin _ _ _ => false | _ => true) then
    (0xFF, xs.map (fun _ => 0), Flags.nv)
  else
    let e := mxExp xs
    let cs := xs.map (fun v => FSpec.e2m1.roundVal r (v.scale (-e)))
    ((e + 127).toNat, cs.map (·.1), cs.foldl (fun a c => a ||| c.2) 0)

/-- R77: the binary32 scale of a SIGN1 block and the flags of its rounding (R68). -/
def signScale (r : Rnd) (xs : List FVal) : Nat × Flags :=
  if xs.any FVal.isNan then (FSpec.f32.nanCode, Flags.nv)
  else if xs.any (fun v => match v with | .inf _ => true | _ => false) then (FSpec.f32.infCode, 0)
  else
    let s := xs.foldl (fun (a : Dy) v => a.add v.abs.dy) ⟨0, 0⟩
    if s.m = 0 then (0, 0)
    else
      FSpec.f32.round r false (magDiv s.m.natAbs s.e xs.length 0)

/-! ## The conversion stage (R185, R192-R195) -/

/-- Element size of an encoding in bits (R185). -/
def encBits (enc : Nat) : Nat :=
  match enc with
  | 0x00 | 0x01 | 0x03 => 64
  | 0x02 | 0x04 | 0x0C => 32
  | 0x05 | 0x06 | 0x0E | 0x0F => 16
  | 0x09 => 4
  | 0x0D => 1
  | _ => 8

/-- The floating-point format of an encoding; none for integers, B64 and SIGN1. -/
def encSpec (enc nan : Nat) : Option FSpec :=
  match enc with
  | 0x03 => some .f64
  | 0x04 => some .f32
  | 0x05 => some .f16
  | 0x06 => some .bf16
  | 0x07 => some (.e4m3 nan)
  | 0x08 => some (.e5m2 nan)
  | 0x09 => some .e2m1
  | _ => none

/-- An integer encoding is signed. -/
def encSigned (enc : Nat) : Bool := enc = 0x01 || enc = 0x02 || enc = 0x0A || enc = 0x0E
/-- An integer encoding. -/
def encInt (enc : Nat) : Bool := enc = 0x01 || enc = 0x02 || (0x0A ≤ enc && enc ≤ 0x0C) || enc = 0x0E || enc = 0x0F

/-- How a pair of R192 moves an element. -/
inductive PairKind where | pass | int | float
  deriving DecidableEq, Repr

/-- The load pairs of R192. -/
def loadPair (enc fmt : Nat) : Option PairKind :=
  match enc with
  | 0x00 => if fmt = 0 || fmt = 1 || fmt = 3 then some .pass else none
  | 0x01 => if fmt = 1 then some .int else none
  | 0x02 | 0x0C | 0x0E | 0x0F => if fmt = 1 || fmt = 2 then some .int else none
  | 0x0A | 0x0B => if fmt = 1 || fmt = 2 then some .int else if fmt = 10 then some .pass else none
  | 0x03 => if fmt = 3 then some .float else none
  | 0x04 => if fmt = 3 || fmt = 4 then some .float else none
  | 0x05 | 0x06 => if 3 ≤ fmt && fmt ≤ 6 then some .float else none
  | 0x07 => if 3 ≤ fmt && fmt ≤ 6 then some .float else if fmt = 7 then some .pass else none
  | 0x08 => if 3 ≤ fmt && fmt ≤ 6 then some .float else if fmt = 8 then some .pass else none
  | 0x09 => if 3 ≤ fmt && fmt ≤ 6 then some .float else if fmt = 9 then some .pass else none
  | 0x0D => if 4 ≤ fmt && fmt ≤ 6 then some .float else none
  | _ => none

/-- The store pairs of R192. -/
def storePair (enc fmt : Nat) : Option PairKind :=
  match enc with
  | 0x01 => if fmt = 1 || fmt = 2 then some .int else none
  | 0x03 | 0x04 => if 3 ≤ fmt && fmt ≤ 6 then some .float else none
  | 0x0D => if 3 ≤ fmt && fmt ≤ 6 then some .float else none
  | _ => loadPair enc fmt

/-- One element on load: code and its block's scale to a code of the register format (R192, R193). -/
def loadElem (enc nan fmt : Nat) (code : Nat) (scale : FVal) : Nat × Flags :=
  match loadPair enc fmt with
  | some .pass => (code, 0)
  | some .int =>
    let w := encBits enc
    let v : Int := if encSigned enc then sextNat w code else (code % 2 ^ w : Nat)
    (wrapNat (elemBits fmt) v, 0)
  | some .float =>
    match fspecOfTag (BitVec.ofNat 6 fmt) with
    | none => (0, 0)
    | some f =>
      if enc = 0x0D then f.roundVal .rne (if code % 2 = 1 then scale.neg else scale)
      else match encSpec enc nan with
        | none => (0, 0)
        | some s =>
          let (p, nv) := FVal.mul (s.decode code) scale
          let (c, fl) := f.roundVal .rne p
          (c, if nv then fl ||| Flags.nv else fl)
  | none => (0, 0)

/-- One element on store to an encoding without blocks (R192, R193). -/
def storeElem (enc nan : Nat) (tag : BitVec 6) (x : Nat) (r : Rnd) (sat : Bool) : Nat × Flags :=
  match storePair enc (fmtOf tag) with
  | some .pass => (x, 0)
  | some .int => toIntN (sextNat (elemBits (fmtOf tag)) x) (encBits enc) (!encSigned enc) sat
  | some .float =>
    match fspecOfTag tag, encSpec enc nan with
    | some s, some f => f.roundVal r (s.decode x)
    | _, _ => (0, 0)
  | none => (0, 0)

end Sys2Proof.Machine
end

