-- ==== Sys2Proof/Machine/Ops.lean ====
section
/-! DEFINITION. The named operations on the state that every meaning uses: finding a weft, its bolt, course, span,
context and core; registers (R29, R90-R93); event numbers (R378); where a fault is delivered and taking it (R177-R182),
and the return from a trap (R181). -/

namespace Sys2Proof.Machine

/-- The outcome type of every meaning. -/
abbrev Out := Host.Outcome State Fault Refusal

/-! ## Finding things -/

def State.weft (s : State) (h : Nat) : Weft := Store.get Weft.absent s.wefts h
def State.bolt (s : State) (h : Nat) : Bolt := Store.get Bolt.absent s.bolts h
def State.course (s : State) (h : Nat) : Course := Store.get Course.absent s.courses h
def State.span (s : State) (h : Nat) : Span := Store.get Span.absent s.spans h
def State.core (s : State) (n : Nat) : Core := Store.get Core.reset s.cores n
def State.ctx (s : State) (asid : Nat) : Ctx := Store.get Ctx.reset s.ctxs asid
def State.queue (s : State) (q : Nat) : Queue := Store.get Queue.reset s.queues q
def State.cluster (s : State) (c : Nat) : Cluster := Store.get Cluster.reset s.clusters c
def State.feed (s : State) (q : Nat) : FeedQ := Store.get FeedQ.reset s.feeds q

def State.setWeft (s : State) (h : Nat) (w : Weft) : State := { s with wefts := Store.insert s.wefts h w }
def State.setBolt (s : State) (h : Nat) (b : Bolt) : State := { s with bolts := Store.insert s.bolts h b }
def State.setCourse (s : State) (h : Nat) (c : Course) : State := { s with courses := Store.insert s.courses h c }
def State.setSpan (s : State) (h : Nat) (x : Span) : State := { s with spans := Store.insert s.spans h x }
def State.setCore (s : State) (n : Nat) (c : Core) : State := { s with cores := Store.insert s.cores n c }
def State.setCtx (s : State) (asid : Nat) (c : Ctx) : State := { s with ctxs := Store.insert s.ctxs asid c }
def State.setQueue (s : State) (q : Nat) (x : Queue) : State := { s with queues := Store.insert s.queues q x }
def State.setFeed (s : State) (q : Nat) (x : FeedQ) : State := { s with feeds := Store.insert s.feeds q x }

def State.boltOf (s : State) (w : Weft) : Bolt := s.bolt w.bolt
def State.courseOf (s : State) (w : Weft) : Course := s.course (s.boltOf w).course
def State.spanOf (s : State) (w : Weft) : Span := s.span (s.courseOf w).span
/-- The ASID of a weft's context. -/
def State.asidOf (s : State) (w : Weft) : Nat := (s.spanOf w).asid
def State.ctxOf (s : State) (w : Weft) : Ctx := s.ctx (s.asidOf w)
/-- The core a weft's bolt stands on. -/
def State.coreOf (s : State) (w : Weft) : Nat := (s.boltOf w).core

/-- The handle of the bolt with an index in a course (R96). -/
def State.boltIn (s : State) (course id : Nat) : Option Nat :=
  (s.bolts.find? (fun p => p.2.course = course && p.2.id = id)).map (·.1)
/-- The handle of the weft with an index in a bolt. -/
def State.weftIn (s : State) (bolt id : Nat) : Option Nat :=
  (s.wefts.find? (fun p => p.2.bolt = bolt && p.2.id = id)).map (·.1)
/-- The handles of a bolt's wefts. -/
def State.weftsOf (s : State) (bolt : Nat) : List Nat := (s.wefts.filter (fun p => p.2.bolt = bolt)).map (·.1)

/-- The next stamp of the device's one order of happenings. -/
def State.stamp (s : State) : Nat × State := (s.order, { s with order := s.order + 1 })

/-! ## Threads -/

/-- Logical threads of a weft: 32, or 16 in a protected launch (R112). -/
def Weft.n (w : Weft) : Nat := if w.prot then 16 else 32
/-- The bits of a weft's logical threads. -/
def Weft.bits (w : Weft) : Mask := if w.prot then 0xFFFF else 0xFFFFFFFF
/-- Threads neither dead nor exited, whatever path they are on. -/
def Weft.alive (w : Weft) : Mask := w.bits &&& ~~~(w.dlm ||| w.exm)
/-- Live(w): the active threads neither dead nor exited (R98). -/
def Weft.live (w : Weft) : Mask := w.active &&& w.alive

/-- The thread numbers of a mask, ascending. -/
def threads (m : Mask) : List Nat := (List.range 32).filter (fun t => m.getLsbD t)
/-- The mask of one thread. -/
def tbit (t : Nat) : Mask := BitVec.ofNat 32 (2 ^ t)
/-- The mask of a list of threads. -/
def maskOf (l : List Nat) : Mask := l.foldl (fun m t => m ||| tbit t) 0
/-- Set bits. -/
def popMask (m : Mask) : Nat := (threads m).length

/-! ## Registers -/

/-- A mask register as a source; k0 reads all ones (R29). -/
def Weft.k (w : Weft) (n : BitVec 3) : Mask := if n = 0 then 0xFFFFFFFF else Store.get 0 w.ks n.toNat
/-- Write a mask register; k0 discards, and a protected launch writes bits 31:16 as zero (R29, R113). The shadows receive the same
(R112). -/
def Weft.setK (w : Weft) (n : BitVec 3) (m : Mask) : Weft :=
  if n = 0 then w else
    { w with ks := Store.put 0 w.ks n.toNat (m &&& w.bits), oddK := Store.erase w.oddK n.toNat }

/-- The key of a vector register's cell in a thread. -/
def vkey (n t : Nat) : Nat := n * 32 + t
def Weft.v (w : Weft) (n t : Nat) : Cell := Store.get Cell.launch w.vr (vkey n t)
def Weft.s (w : Weft) (n : Nat) : Cell := Store.get Cell.launch w.sr n
/-- Write a vector register's cell of a thread, and of its shadow (R112). -/
def Weft.setV (w : Weft) (n t : Nat) (c : Cell) : Weft :=
  { w with vr := Store.put Cell.launch w.vr (vkey n t) c, oddV := Store.erase w.oddV (vkey n t),
           bad := if c.full then w.bad.filter (fun k => k ≠ vkey n t) else w.bad }
/-- The key of a scalar's word in a weft's register file, after the vector registers' (R361). -/
def skey (n : Nat) : Nat := 4096 + n
/-- Write a scalar register's cell. A whole word written is uncorrectable no longer (R364). -/
def Weft.setS (w : Weft) (n : Nat) (c : Cell) : Weft :=
  { w with sr := Store.put Cell.launch w.sr n c, bad := if c.full then w.bad.filter (fun k => k ≠ skey n) else w.bad }

/-- What a source register delivers to a thread (R27, R29): ZERO 0, LANE the thread index as INT32. -/
def Weft.cell (w : Weft) (r : Reg) (t : Nat) : Cell :=
  match r with
  | .v n => w.v n.toNat t
  | .s n => w.s n.toNat
  | .k n => ⟨(w.k n).zeroExtend 64, tagRAW, true⟩
  | .zero => ⟨0, tagRAW, true⟩
  | .lane => ⟨BitVec.ofNat 64 t, tagI32, true⟩
  | .bad _ => ⟨0, tagRAW, true⟩

/-- Write a value to a destination in a thread, or once for a scalar; ZERO discards (R29). -/
def Weft.put (w : Weft) (r : Reg) (t : Nat) (c : Cell) : Weft :=
  match r with
  | .v n => w.setV n.toNat t c
  | .s n => w.setS n.toNat c
  | .k n => w.setK n (c.val.truncate 32)
  | .zero | .lane | .bad _ => w

/-- Write a value per thread, ascending. -/
def Weft.putAll (w : Weft) (r : Reg) (l : List (Nat × Cell)) : Weft := l.foldl (fun w p => w.put r p.1 p.2) w

/-- Mark a destination empty in a thread, its value and tag kept (R93). A scalar's new producer ends what an earlier one's abort
left (R110). -/
def Weft.setEmpty (w : Weft) (r : Reg) (t : Nat) : Weft :=
  match r with
  | .v n => w.setV n.toNat t { w.v n.toNat t with full := false }
  | .s n => { w.setS n.toNat { w.s n.toNat with full := false } with sAbort := w.sAbort.filter (fun m => m ≠ n.toNat) }
  | _ => w

/-- Mark a destination empty in each thread of a mask, or once for a scalar. -/
def Weft.emptyAll (w : Weft) (r : Reg) (m : Mask) : Weft :=
  match r with
  | .v _ => (threads m).foldl (fun w t => w.setEmpty r t) w
  | _ => if m = 0 then w else w.setEmpty r 0

/-- Is the register full in a thread; registers without the bit always are (R29). -/
def Weft.fullAt (w : Weft) (r : Reg) (t : Nat) : Bool :=
  match r with
  | .v n => (w.v n.toNat t).full
  | .s n => (w.s n.toNat).full
  | _ => true

/-! ## The shadows of a protected launch (R112 to R115) -/

/-- Some pair of a protected launch disagrees in a register, a mask or a producer in flight. -/
def Weft.shadowed (w : Weft) : Bool := w.prot && !(w.oddV.isEmpty && w.oddK.isEmpty && w.oddF.isEmpty)

/-- The weft as its odd threads hold it. -/
def Weft.oddView (w : Weft) : Weft :=
  { w with vr := Store.over Cell.launch w.vr w.oddV, ks := Store.over 0 w.ks w.oddK,
           flights := w.flights.map (fun f => (w.oddF.find? (fun x => x.fid = f.fid)).getD f),
           oddV := [], oddK := [], oddF := [] }

/-- The weft of the even threads beside what the odd threads hold. -/
def Weft.withOdd (w o : Weft) : Weft :=
  { w with oddV := Store.diff Cell.launch w.vr o.vr, oddK := Store.diff 0 w.ks o.ks,
           oddF := o.flights.filter (fun x => w.flights.any (fun f => f.fid = x.fid && f ≠ x)) }

/-- The even threads' state with what the odd threads' execution leaves in the weft. -/
def State.withOdd (a : State) (h : Nat) (b : State) : State :=
  { a with wefts := Store.modify a.wefts h (fun w => w.withOdd (b.weft h)) }

/-- A landing for both threads of each pair. -/
def State.both (s : State) (h : Nat) (f : State → State) : State :=
  if (s.weft h).shadowed then (f s).withOdd h (f (s.setWeft h (s.weft h).oddView)) else f s

/-- A register is full in a thread and in its shadow. -/
def Weft.fullPair (w : Weft) (r : Reg) (t : Nat) : Bool := w.fullAt r t && w.oddView.fullAt r t

/-- The register `n` places after a vector or scalar register. -/
def regPlus (r : Reg) (n : Nat) : Reg :=
  match r with
  | .v a => .v (a + BitVec.ofNat 7 n)
  | .s a => .s (a + BitVec.ofNat 6 n)
  | r => r

/-! ## The program counter -/

/-- The PC of R22 after an instruction of `len` bytes. A path that runs past the last address goes on at 0: R22 gives a fault to
instructions that transfer only (DESIGN CHOICE, log 134). -/
def nextPc (pc : Va) (len : Nat) : Va :=
  let p := pc + BitVec.ofNat 57 len
  if p.extractLsb' 0 5 = 28 then p + 4 else p

/-! ## Events -/

/-- The 64-byte record of a machine event (R378). -/
def eventRecord (seq sub arg : Nat) : List Byte :=
  natLe 8 seq ++ natLe 2 sub ++ List.replicate 6 0 ++ natLe 8 arg ++ List.replicate 40 0

/-- Number an event (R378). Kinds 2, 3 and 4 also enter the event queue of the queue cores (R422); the record of a machine event, kind
5, goes to the supervisor's event ring. -/
def State.event (s : State) (kind sub arg : Nat) : State :=
  let e : Event := { seq := s.nextSeq, kind := kind, sub := sub, arg := arg }
  { s with nextSeq := s.nextSeq + 1, events := s.events ++ [e],
           evq := if 2 ≤ kind && kind ≤ 4 then s.evq ++ [e] else s.evq,
           evRing := if kind = 5 then s.evRing ++ [eventRecord s.nextSeq sub arg] else s.evRing }

/-! ## Harts (R369) -/

def State.hart (s : State) (n : Nat) : Hart := Store.get Hart.reset s.harts n
def State.setHart (s : State) (n : Nat) (x : Hart) : State := { s with harts := Store.insert s.harts n x }
/-- Interrupt the active supervisor hart: a trap record (R375), or an error (R362). -/
def State.irqTrap (s : State) : State := s.setHart s.sup.active { s.hart s.sup.active with irqTrap := true }
def State.irqErr (s : State) : State := s.setHart s.sup.active { s.hart s.sup.active with irqErr := true }

/-! ## Traps -/

/-- Causes of R177 by name. -/
abbrev cIllegal : BitVec 8 := 0x01
abbrev cLength : BitVec 8 := 0x02
abbrev cBoundary : BitVec 8 := 0x03
abbrev cRegister : BitVec 8 := 0x04
abbrev cTag : BitVec 8 := 0x05
abbrev cEmpty : BitVec 8 := 0x06
abbrev cBuffer : BitVec 8 := 0x07
abbrev cBarrier : BitVec 8 := 0x08
abbrev cRange : BitVec 8 := 0x09
abbrev cSparse : BitVec 8 := 0x0A
abbrev cTranslation : BitVec 8 := 0x0B
abbrev cProtection : BitVec 8 := 0x0C
abbrev cFetch : BitVec 8 := 0x0D
abbrev cAbort : BitVec 8 := 0x0E
abbrev cProtected : BitVec 8 := 0x0F
abbrev cWatchdog : BitVec 8 := 0x10
abbrev cPeer : BitVec 8 := 0x11
abbrev cInvalid : BitVec 8 := 0x12
abbrev cBreak : BitVec 8 := 0x13
abbrev cSoft : BitVec 8 := 0x14
abbrev cMissing : BitVec 8 := 0x15

/-- A fault at the weft's PC. -/
def Weft.fault (w : Weft) (cause : BitVec 8) (info : Nat := 0) (field : Nat := 0) (addr : Nat := 0) (mask : Mask := 0) :
    Trap :=
  { cause := cause, info := BitVec.ofNat 32 info, field := BitVec.ofNat 8 field, pc := w.pc,
    addr := BitVec.ofNat 57 addr, mask := mask }

/-- Causes never delivered in context (R177). -/
def neverInContext (c : BitVec 8) : Bool := c == cTranslation || c == cFetch || c == cWatchdog

/-- DELEG with the bits of those causes forced to 00 (R178, R374). -/
def delegMask (d : Dword) : Dword := d &&& ~~~(BitVec.ofNat 64 (3 * 2 ^ 22 + 3 * 2 ^ 26 + 3 * 2 ^ 32))

/-- The two ROUTE bits of a cause (R178). -/
def routeBits (d : Dword) (c : BitVec 8) : Nat := d.toNat / 2 ^ (2 * c.toNat) % 4

/-- Where a fault is delivered (R178, R179). -/
def faultRoute (c : Ctx) (w : Weft) (cause : BitVec 8) : Route :=
  if neverInContext cause || w.tstat.getLsbD 0 then .supervisor
  else match routeBits (delegMask c.deleg) cause with
    | 1 => if w.thvec = 0 then .supervisor else .context
    | 2 => if c.peer.getLsbD 63 then .mailbox else .supervisor
    | _ => .supervisor

/-- TRAPCAUSE of a fault (R175). -/
def causeWord (t : Trap) : Dword := (0 : BitVec 16) ++ t.info ++ t.field ++ t.cause

/-- TSTAT.DEPTH, TSTAT.NEST and TSTAT.INH as a word (R176). -/
def tstatWord (depth : Nat) (nest inh : Bool) : Dword :=
  BitVec.ofNat 64 (depth % 32 * 256 + (if nest then 2 else 0) + (if inh then 1 else 0))
/-- TSTAT with NEST set. -/
def setNest (x : Dword) : Dword := x ||| 2

/-- Taking a fault in context (R180). Bits 1:0 of TRAPPC read 0 (R174). -/
def Weft.enterHandler (w : Weft) (t : Trap) : Weft :=
  { w with trapcause := causeWord t, trappc := t.pc.zeroExtend 64 &&& ~~~3, trapaddr := t.addr.zeroExtend 64,
           trapmask := (t.mask &&& w.bits).zeroExtend 64,
           tstat := tstatWord w.stack.length (w.tstat.getLsbD 1) true,
           pc := w.thvec.truncate 57, wait := none, repeatPhase := none }

/-- Parking a weft with the values its trap record will carry (R182); NEST is set when a handler was running (R179).
The weft leaves its barrel slot (R251). -/
def Weft.park (w : Weft) (t : Trap) (r : Route) : Weft :=
  let ts := if w.tstat.getLsbD 0 then setNest w.tstat else w.tstat
  { w with tstat := ts, wait := none, repeatPhase := none, status := .parked, slot := none,
           trec := some { t := { t with mask := t.mask &&& w.bits }, tstat := ts, actm := w.active, route := r,
                          published := false, seq := 0 } }

/-! ## Scratchpad bytes -/

/-- The four words of the object at an offset of a bolt's scratchpad (R228). -/
def Bolt.word (b : Bolt) (off k : Nat) : Nat := Store.readNat b.sp (off + 8 * k) 8
/-- A barrier object stands registered at an offset of its owner's scratchpad (R229); other bytes are no object. -/
def State.isObject (s : State) (bh off : Nat) : Bool := (s.bolt bh).bars.any (fun e => e.owner = bh && e.off = off)
/-- STATE of a barrier object; INVALID where none is registered (R228). -/
def State.barState (s : State) (bh off : Nat) : Nat :=
  if s.isObject bh off then (s.bolt bh).word off 0 / 2 ^ 29 % 8 else 0
/-- PHASE of a barrier object. -/
def Bolt.barPhase (b : Bolt) (off : Nat) : Word32 := BitVec.ofNat 32 (b.word off 0 / 2 ^ 32)
/-- A phase wait on `p` returns (R233). -/
def phasePassed (phase p : Word32) : Bool :=
  let d := (phase - p).toNat
  1 ≤ d && d < 2 ^ 31

/-! ## The heddle (R251-R259) -/

/-- Insertion into a list sorted by a key; equal keys keep their order. -/
def insertBy {α : Type} (key : α → Nat) (x : α) : List α → List α
  | [] => [x]
  | y :: t => if key x < key y then x :: y :: t else y :: insertBy key x t

/-- Stable sort by a key. -/
def sortBy {α : Type} (key : α → Nat) (l : List α) : List α := l.foldl (fun acc x => insertBy key x acc) []

/-- The wefts of a core. -/
def State.coreWefts (s : State) (n : Nat) : List (Nat × Weft) :=
  s.wefts.filter (fun p => (s.boltOf p.2).core = n && !(s.boltOf p.2).out)

/-- The wefts of a core in a state of the heddle. -/
def State.inState (s : State) (n : Nat) (st : HState) : List (Nat × Weft) :=
  (s.coreWefts n).filter (fun p => p.2.status = st)

/-- The lease that applies at the weft's next admission (R209, R255). -/
def Weft.wantLease (w : Weft) : Nat := if w.leaseDecl = 0 then w.measured else w.leaseDecl

/-- Leases together never exceed this (R255). -/
def leaseCap : Nat := 1835008

/-- The queue class of a weft (R254). -/
def State.classOf (s : State) (w : Weft) : Nat := (s.spanOf w).cls

/-- The admission queue: a handler whose mailbox has just fired first, then by class, then by the time the weft became READY (R254,
R259). -/
def State.admitQueue (s : State) (n : Nat) : List (Nat × Weft) :=
  sortBy (fun p => if p.2.fired then 0 else 1 + s.classOf p.2) (sortBy (fun p => p.2.since) (s.inState n .ready))

/-- The lease sum of the active wefts. -/
def State.leaseSum (s : State) (n : Nat) : Nat := (s.inState n .active).foldl (fun a p => a + p.2.lease) 0

/-- The lowest free barrel slot. -/
def State.freeSlot (s : State) (n : Nat) : Option Nat :=
  (List.range 8).find? (fun i => !(s.inState n .active).any (fun p => p.2.slot = some i))

/-- A queued weft fits: a slot is free and its lease fits beside the active ones (R256). -/
def State.fits (s : State) (n : Nat) (w : Weft) : Bool :=
  (s.freeSlot n).isSome && s.leaseSum n + w.wantLease ≤ leaseCap

/-- A slot's victim tags are cleared (R258). -/
def State.clearVictims (s : State) (n slot : Nat) : State :=
  let c := s.core n
  if c.victims.any (fun v => v.slot = slot) then s.setCore n { c with victims := c.victims.filter (fun v => v.slot ≠ slot) } else s

/-- Move a weft to the lowest free slot; its changed lease takes effect (R255, R256), and the victim tags of the slot's last weft are
gone (R258). -/
def State.admitTo (s : State) (n h : Nat) : State :=
  let w := s.weft h
  match s.freeSlot n with
  | none => s
  | some i =>
    let (t, s) := s.stamp
    (s.clearVictims n i).setWeft h { w with status := .active, slot := some i, lease := w.wantLease, since := t, fired := false }

/-- Admit of R256 over the rest of the queue, with the leases of the blocking wefts passed over so far. -/
def State.admitList (s : State) (n : Nat) : List (Nat × Weft) → List Nat → State
  | [], _ => s
  | (h, w) :: t, blockers =>
    if blockers.any (fun b => w.wantLease < b) then
      s.admitList n t (if 4 ≤ w.passed then w.wantLease :: blockers else blockers)
    else if s.fits n w then (s.admitTo n h).admitList n t blockers
    else s.admitList n t (if 4 ≤ w.passed then w.wantLease :: blockers else blockers)

/-- Admit (R256), unless the core has stopped issuing for a switch or a rebuild (R260, R263). -/
def State.admitWefts (s : State) (n : Nat) : State :=
  if (s.core n).stopping then s else s.admitList n (s.admitQueue n) []

/-- Join the tail of the admission queue with a passed count of 0 (R253); a handler whose mailbox has just fired counts as passed
four times (R259); a weft of a bolt that is swapped out stays SWAPPED (R262). -/
def State.ready (s : State) (h : Nat) : State :=
  let w := s.weft h
  if (s.boltOf w).swapped then s.setWeft h { w with status := .swapped, slot := none }
  else
    let (t, s) := s.stamp
    s.setWeft h { w with status := .ready, slot := none, passed := if w.fired then 4 else 0, since := t }

/-- The condition a waiting weft waits on has cleared, for the kinds of wait whose condition the state shows. -/
def State.waitClear (s : State) (w : Weft) : Bool :=
  match w.wait with
  | some (.register l) =>
    l.all (fun p => match p.1 with
      | .s n => (w.s n.toNat).full || (p.2 ≠ 0 && w.sAbort.contains n.toNat)
      | r => (threads (p.2 &&& w.alive)).all (fun t => w.fullPair r t))
  | some (.barrier o off ph) => s.barState o off ≠ 1 || phasePassed ((s.bolt o).barPhase off) ph
  | some (.buffer o off ph) => s.barState o off ≠ 1 || phasePassed ((s.bolt o).barPhase off) ph
  | none => true
  | _ => false

/-- Every pending weft whose wait has cleared becomes READY (R253), and freed slots are filled (R256). -/
def State.wake (s : State) : State :=
  let hs := (s.wefts.filter (fun p => p.2.status = .pending && s.waitClear p.2)).map (·.1)
  if hs = [] then s
  else
    let s := hs.foldl (fun s h => s.ready h) s
    (hs.map (fun h => s.coreOf (s.weft h))).foldl (fun s n => s.admitWefts n) s

/-! ## Rolling back the array (R301) and swapping a bolt out (R262) -/

/-- A slot loses a pin; one whose release waits for that is free when none is left (R284). -/
def Slot.unpin (x : Slot) : Slot :=
  if x.relPend && x.pins ≤ 1 then Slot.empty else { x with pins := x.pins - 1 }

/-- Release a sequencer entry's pins. -/
def Core.unpin (c : Core) (l : List Nat) : Core :=
  { c with slots := l.foldl (fun st k => Store.modify st k Slot.unpin) c.slots }

/-- Roll an entry back to its last accepted commit; its slots stay pinned, so they hold what the steps will read again (R301). -/
def Core.rollback (c : Core) (id : Nat) : Core :=
  match Store.find c.seqr id with
  | none => c
  | some e => { c with seqr := Store.insert c.seqr id { e with next := e.done, part := [], held := none, refused := false } }

/-- Roll back every entry whose weft satisfies `p`. -/
def Core.rollbackAll (c : Core) (p : Nat → Bool) : Core :=
  (c.seqr.filter (fun x => p x.2.weft)).foldl (fun c x => c.rollback x.1) c

/-- Swap a bolt out: its wefts become SWAPPED, the one that faulted and others that had parked among them, and its entries in the
array roll back (R262, R301). -/
def State.swapOut (s : State) (bh : Nat) : State :=
  let b := s.bolt bh
  if b.swapped then s
  else
    let s := s.setBolt bh { b with swapped := true }
    let s := (s.weftsOf bh).foldl (fun s h =>
      let w := s.weft h
      if w.status = .ended then s else s.setWeft h { w with status := .swapped, slot := none }) s
    let s := s.setCore b.core ((s.core b.core).rollbackAll (fun h => (s.weft h).bolt = bh))
    s.admitWefts b.core

/-- Slots of the supervisor trap ring (R375). -/
def trapRingSlots : Nat := 4096

/-- TAKING A FAULT (R177-R182): in context the trap registers are written and the PC becomes THVEC; otherwise the weft
parks at the faulting instruction, and `trapRecordPublish` later writes its record. With the supervisor's ring full the
weft stays at the instruction, untrapped (R375). A fetch-page fault also swaps the bolt out (R262). -/
def takeTrap (s : State) (h : Nat) (t : Trap) : State :=
  let w := s.weft h
  let n := s.coreOf w
  match faultRoute (s.ctxOf w) w t.cause with
  | .context => s.setWeft h (w.enterHandler t)
  | .supervisor =>
    if trapRingSlots ≤ s.trapRing.length then s.setWeft h { w with wait := some .ringFull }
    else
      let s := s.setWeft h (w.park t .supervisor)
      if t.cause = cFetch then s.swapOut w.bolt else s.admitWefts n
  | .mailbox => (s.setWeft h (w.park t .mailbox)).admitWefts n

/-- The return from a trap in context (R181): PC := TRAPPC and INH := 0. -/
def Weft.returnFromTrap (w : Weft) : Weft :=
  { w with pc := w.trappc.truncate 57, tstat := w.tstat &&& ~~~1 }

/-- RFT may return: a handler runs and the stack is as deep as at its entry (R181). -/
def Weft.mayReturn (w : Weft) : Bool :=
  w.tstat.getLsbD 0 && w.stack.length % 32 = w.tstat.toNat / 256 % 32

/-! ## Little-endian access to byte stores -/

/-- Whether any of `n` bytes from `a` lies in a listed protected unit of `u` bytes. -/
def badIn (bad : List Nat) (u a n : Nat) : Bool := bad.any (fun x => a < (x + 1) * u && x * u < a + n)

/-- The offset of the first uncorrectable word that some bytes meet. -/
def firstBad (bad : List Nat) (off n : Nat) : Nat :=
  8 * (((List.range ((off + n - 1) / 8 + 1 - off / 8)).map (fun i => off / 8 + i)).find? (fun u => bad.contains u)).getD 0

end Sys2Proof.Machine
end

