-- ==== Sys2Proof/Machine/Trans.lean ====
section
/-! DEFINITION. Virtual to physical addresses: the page tables of R349 to R354 as they stand in memory, the checks of
R351 and R352, the walkers' A and D bits (R353) and the cached translations of R355 and R356. -/

namespace Sys2Proof.Machine

/-- Bytes of HBM (R347). -/
abbrev hbmSize : Nat := 0xC000000000
/-- Bytes of one HBM stack (R346). -/
abbrev stackSize : Nat := 0xC00000000
/-- Bytes of a page granule (R349). -/
abbrev granule : Nat := 0x8000

/-- Take some of a list's entries, each by a number that says which of those left. -/
def pickSome {α : Type} : Nat → Nat → List α → List α
  | 0, _, _ => []
  | n + 1, x, l =>
    match l[x % l.length]? with
    | some a => a :: pickSome n (x / l.length) (l.eraseIdx (x % l.length))
    | none => []

/-- The four different DRAM dies of its stack that a line lies on (R346); which ones is free. -/
def lineDies (line : Nat) : List Nat := pickSome 4 (Config.lineStripe line) (List.range 16)

/-- The 64-byte line of a physical address is beyond a write's repair: its stack is lost (R364), or it touches a DRAM die
that failed after another of its stack (R368). -/
def State.lineLost (s : State) (pa : Nat) : Bool :=
  s.lostStacks.contains (pa / stackSize) || s.deadDies.any (fun d => d.1 = pa / stackSize && (lineDies (pa / 64)).contains d.2)

/-- The 64-byte line of a physical address does not read: it is uncorrectable or lost (R362), or no memory stands there (R347). -/
def State.lineBad (s : State) (pa : Nat) : Bool := s.memBad.contains (pa / 64) || s.lineLost pa || hbmSize ≤ pa

/-! ## Errors as events (R361, R362, R365) -/

/-- The physical position, 0 to 263, of a logical position of a cluster (R302). -/
def State.physOf (s : State) (n : Nat) : Nat := Store.get (n % 256) (s.cluster (n / 256)).phys (n % 256)

/-- The core aperture (R347) and the hub aperture. -/
abbrev coreAperture : Nat := 0x8000000000000
abbrev hubAperture : Nat := 0x9000000000000

/-- The physical address of an 8-byte word of a core's storage. -/
def State.apertureOf (s : State) (kind n word : Nat) : Nat :=
  coreAperture + 8 * (Config.apertureAt kind (n / 256 * 264 + s.physOf n) word % 2 ^ 37)

/-- Where an error lies (R361): an HBM line, a clean L2 line, a word of a bolt's scratchpad, of a core's slot, of a weft's register
file, of a course's vault window, an L1 line, a word of hub SRAM or of the core aperture beside the windows, and an address where
nothing is (R347). A word of hub SRAM that a hart reads counts as that hart's (R387). -/
inductive ErrAt where
  | line (pa : Nat)
  | l2 (pa : Nat)
  | sp (bolt off : Nat)
  | slot (core i off : Nat)
  | reg (weft key : Nat)
  | vault (course off : Nat)
  | l1 (core pa : Nat)
  | hub (pa : Nat)
  | sram (hart pa : Nat)
  | nothing (pa : Nat)
  deriving DecidableEq, Repr

/-- The slice of a 64 KiB granule: its loom die and position (R309). -/
def sliceOf (g : Nat) : Nat := g * 65536 / stackSize / 4 * 512 + Config.slicePos g % 512

/-- VLEN's granules over a course's bolts (R306): the bolt under whose core an offset of the window lies. -/
def vaultBolt (cvw : Dword) (nbolts off : Nat) : Nat :=
  let g := off / 4096
  if cvw.getLsbD 36 then g / (cvw.toNat % 2 ^ 32 / (4096 * nbolts)) else g % nbolts

/-- The core under which a byte of a course's vault window lies (R306). -/
def State.vaultCore (s : State) (c off : Nat) : Nat :=
  let x := s.course c
  match s.boltIn c (vaultBolt (s.span x.span).cvw x.nbolts off) with
  | some b => (s.bolt b).core
  | none => x.cluster * 256

/-- The class, loom die and index of a core position (R365, R366): its physical number within the die. -/
def State.unitOf (s : State) (cls n : Nat) : Nat × Nat × Nat := (cls, n / 512 % 4, n / 256 % 2 * 264 + s.physOf n)

/-- The address and the unit of an error (R365). -/
def State.errPlace (s : State) (x : ErrAt) : Nat × Nat × Nat × Nat :=
  match x with
  | .line pa => (pa / 64 * 64, 4, pa / stackSize / 4, Config.hbmRow (pa / 64) % 1024)
  | .l2 pa => (pa / 64 * 64, s.unitOf 2 (sliceOf (pa / 65536)))
  | .sp b off => (s.apertureOf 1 (s.bolt b).core (off / 8), s.unitOf 1 (s.bolt b).core)
  | .slot n i off => (s.apertureOf 2 n (2048 * i + off / 8), s.unitOf 1 n)
  | .reg h k => (s.apertureOf 0 (s.coreOf (s.weft h)) (65536 * h + k), s.unitOf 1 (s.coreOf (s.weft h)))
  | .vault c off => (s.apertureOf 3 (s.vaultCore c off) (off / 8), s.unitOf 2 (s.vaultCore c off))
  | .l1 n pa => (pa / 64 * 64, s.unitOf 1 n)
  | .sram h pa => (pa / 8 * 8, 7, 0, h)
  | .hub pa | .nothing pa => (pa, 0, 0, 0)

/-- A detecting unit hands an error to the arbiter (R362, R365): an event of kind 0 whose subkind packs KIND and CONSUMER and whose
argument is the address, its record for the service hart, and an interrupt of the supervisor for kinds 1 and 3 (R378). -/
def State.errEvent (s : State) (kind consumer asid : Nat) (x : ErrAt) : State :=
  let p := s.errPlace x
  let r : ErrRec := { seq := s.nextSeq, pa := p.1, cls := p.2.1, die := p.2.2.1, idx := p.2.2.2, kind := kind, consumer := consumer,
                      asid := asid, time := s.ltime }
  let t : State := { s.event 0 (kind + 256 * consumer) p.1 with errWait := s.errWait ++ [r] }
  if kind = 1 || kind = 3 then t.irqErr else t

/-- A line does not read or takes no write (R347, R362): the event of the line, or of an address where nothing is. -/
def State.lineEvent (s : State) (consumer asid pa : Nat) : State :=
  if pa < hbmSize then s.errEvent 1 consumer asid (.line pa) else s.errEvent 3 consumer asid (.nothing pa)

/-- Where a walk ends: a leaf with its level and the address of its entry, or the INFO of R352. -/
inductive Walk where
  | leaf (level at_ entry : Nat)
  | bad (info : Nat)
  deriving DecidableEq, Repr

/-- Bytes a leaf of a level maps (R349). -/
def pageSize (level : Nat) : Nat := if level = 0 then granule else if level = 1 then 0x8000000 else 0x8000000000

/-- ADDR of a table entry (R350). -/
def entryAddr (e : Nat) : Nat := e / 2 ^ 15 % 2 ^ 37 * 2 ^ 15

/-- A valid entry is malformed at a level (R351). -/
def malformed (level e : Nat) : Bool :=
  let res := e / 2 ^ 56 ≠ 0 || e.testBit 52 || e / 2 ^ 8 % 2 ^ 7 ≠ 0 || e.testBit 5
  let a := entryAddr e
  if e.testBit 1 then
    res || level = 3 || a % pageSize level ≠ 0 || hbmSize < a + pageSize level || (e.testBit 3 && e.testBit 4)
  else
    res || level = 0 || hbmSize ≤ a || e / 4 % 8 ≠ 0 || e / 64 % 4 ≠ 0 || e / 2 ^ 53 % 8 ≠ 0

/-- The index of an address at a level (R349). -/
def walkIndex (va level : Nat) : Nat := if level = 3 then va / 2 ^ 51 % 64 else va / 2 ^ (15 + 12 * level) % 4096

/-- The walk of R349 from a table at a level; the first argument bounds its steps. -/
def State.walkFrom (s : State) (va : Nat) : Nat → Nat → Nat → Walk
  | 0, _, _ => .bad 3
  | fuel + 1, table, level =>
    let a := table + 8 * walkIndex va level
    if s.lineBad a then .bad 7
    else
      let e := Store.readNat s.mem a 8
      if !e.testBit 0 then .bad (if e.testBit 54 then 6 else 1)
      else if malformed level e then .bad 3
      else if e.testBit 1 then .leaf level a e
      else s.walkFrom va fuel (entryAddr e) (level - 1)

/-- The walk of an ASID's tables; a context whose translation word has EN clear maps nothing (R354). -/
def State.walk (s : State) (asid va : Nat) : Walk :=
  let t := (s.ctx asid).trans.toNat
  if t.testBit 0 then s.walkFrom va 4 (entryAddr t) 3 else .bad 1

/-- The address of the last entry that a walk reads. -/
def State.walkLast (s : State) (va : Nat) : Nat → Nat → Nat → Nat
  | 0, table, _ => table
  | fuel + 1, table, level =>
    let a := table + 8 * walkIndex va level
    let e := Store.readNat s.mem a 8
    if s.lineBad a || !e.testBit 0 || malformed level e || e.testBit 1 then a else s.walkLast va fuel (entryAddr e) (level - 1)

/-! ### The walkers' shared cache (R355) -/

/-- Entries of the walk cache (R355). -/
def walkCacheSize : Nat := 1024

/-- The address bits above what an entry of a level maps. -/
def walkPrefix (va level : Nat) : Nat := va / 2 ^ (15 + 12 * level)

/-- The non-leaf entries that a walk meets. -/
def State.walkMeets (s : State) (asid va : Nat) : Nat → Nat → Nat → List WalkEnt
  | 0, _, _ => []
  | fuel + 1, table, level =>
    let a := table + 8 * walkIndex va level
    let e := Store.readNat s.mem a 8
    if s.lineBad a || !e.testBit 0 || malformed level e || e.testBit 1 then []
    else ⟨asid, level, walkPrefix va level, e⟩ :: s.walkMeets asid va fuel (entryAddr e) (level - 1)

/-- The walk from the deepest non-leaf entry that the cache holds for an address. -/
def State.walkCached (s : State) (asid va : Nat) : Walk :=
  match [1, 2, 3].findSome? (fun l => s.wcache.find? (fun x => x.asid = asid && x.level = l && x.pre = walkPrefix va l)) with
  | some x => s.walkFrom va 4 (entryAddr x.entry) (x.level - 1)
  | none => s.walk asid va

/-- The non-leaf entries of a walk enter the cache; the oldest leave a full one (DESIGN CHOICE, log 10). -/
def State.cacheWalk (s : State) (asid va : Nat) : State :=
  let l := s.walkMeets asid va 4 (entryAddr (s.ctx asid).trans.toNat) 3
  let rest := s.wcache.filter (fun x => !l.any (fun y => y.asid = x.asid && y.level = x.level && y.pre = x.pre))
  { s with wcache := (l ++ rest).take walkCacheSize }

/-- The next of the choices the manual leaves to the machine. -/
def State.choose (s : State) : State × Bool := ({ s with free := s.free + 1 }, Config.freeChoice s.free)

/-- A walk as the walkers make it: where their cache and the tables differ it may end by either (R356). -/
def State.walkNow (s : State) (asid va : Nat) : State × Walk :=
  if s.walkCached asid va = s.walk asid va then (s, s.walk asid va)
  else
    let (t, old) := s.choose
    (t, if old then s.walkCached asid va else s.walk asid va)

/-- What a translation answers: a physical address, a fault's cause and INFO (R352), or a hold on a migrating page. -/
inductive Xlat where
  | ok (pa : Nat)
  | fault (cause : BitVec 8) (info : Nat)
  | mig
  deriving DecidableEq, Repr

/-- The permissions of R352 at a leaf. -/
def leafCheck (e : Nat) (k : XKind) : Option (BitVec 8 × Nat) :=
  let r := e.testBit 2
  let w := e.testBit 3
  let x := e.testBit 4
  let cow := e.testBit 53
  match k with
  | .fetch => if x then none else some (cFetch, 2)
  | .read => if r then none else some (cProtection, 7)
  | .write => if w then none else if cow then some (cTranslation, 2) else some (cProtection, 7)
  | .rw =>
    if !r then some (cProtection, 7)
    else if w then none else if cow then some (cTranslation, 2) else some (cProtection, 7)

/-- The access writes. -/
def xwrites : XKind → Bool
  | .write | .rw => true
  | _ => false

/-- A leaf after its use: A set, and D for a write (R353). -/
def usedLeaf (e : Nat) (k : XKind) : Nat := e ||| 64 ||| (if xwrites k then 128 else 0)

/-- The cluster TLB that serves a core. -/
def clusterTlb (core : Nat) : Nat := 2048 + core / 256

/-- A cached translation matches an address. -/
def TlbEnt.holds (t : TlbEnt) (who asid va : Nat) : Bool :=
  t.core = who && t.asid = asid && t.vpn * granule ≤ va && va < (t.vpn + t.span) * granule

/-- The cached translation a core finds: its own TLB first, then its cluster's (R355). -/
def State.tlbFind (s : State) (core asid va : Nat) : Option TlbEnt :=
  match s.tlb.find? (fun t => t.holds core asid va) with
  | some t => some t
  | none => s.tlb.find? (fun t => t.holds (clusterTlb core) asid va)

/-- Entries of a core TLB and of a cluster TLB (R355). -/
def tlbSize (who : Nat) : Nat := if who < 2048 then 512 else 16384

/-- The first entries of one TLB, as many as it holds, among all. -/
def tlbCap (who : Nat) : Nat → List TlbEnt → List TlbEnt
  | _, [] => []
  | n, t :: rest =>
    if t.core ≠ who then t :: tlbCap who n rest
    else match n with
      | 0 => tlbCap who 0 rest
      | n + 1 => t :: tlbCap who n rest

/-- Fill a translation into the core's and the cluster's TLB (R355); the entry filled longest ago leaves a full one (DESIGN CHOICE, log
10). -/
def State.tlbFill (s : State) (core asid va level entry : Nat) : State :=
  let n := pageSize level / granule
  let v := va / granule / n * n
  let mk (c : Nat) : TlbEnt := { core := c, asid := asid, vpn := v, span := n, entry := BitVec.ofNat 64 entry }
  let keep (l : List TlbEnt) (c : Nat) := l.filter (fun t => !(t.core = c && t.asid = asid && t.vpn < v + n && v < t.vpn + t.span))
  let put (l : List TlbEnt) (c : Nat) := tlbCap c (tlbSize c) (mk c :: keep l c)
  { s with tlb := put (put s.tlb (clusterTlb core)) core }

/-- The physical address of a leaf's page at an address. -/
def leafPa (level e va : Nat) : Nat := entryAddr e + va % pageSize level

/-- Use a leaf: check the access, set A and D in the tables and fill the TLBs and the walk cache; a fault or a hold fills nothing
(R355). A table entry that does not read raises its error event first (R362, R379). -/
def State.useWalk (s : State) (core asid va : Nat) (k : XKind) : State × Xlat :=
  match s.walkNow asid va with
  | (s, .bad i) =>
    (if i = 7 then s.lineEvent 6 asid (s.walkLast va 4 (entryAddr (s.ctx asid).trans.toNat) 3) else s,
     .fault (if k = .fetch then cFetch else cTranslation) i)
  | (s, .leaf level a e) =>
    if e.testBit 55 then (s, .mig)
    else match leafCheck e k with
      | some (c, i) => (s, .fault c i)
      | none =>
        let e' := usedLeaf e k
        let s : State := if e' = e then s else { s with mem := Store.writeNat s.mem a 8 e' }
        ((s.cacheWalk asid va).tlbFill core asid va level e', .ok (leafPa level e' va))

/-- The level of a cached translation. -/
def TlbEnt.level (t : TlbEnt) : Nat := if t.span = 1 then 0 else if t.span = 4096 then 1 else 2

/-- TRANSLATE an address of an ASID for a core (R349-R356). Where a cached translation differs from the tables the access
may use either, until an invalidation completes (R356); a cached entry with D clear misses on a write (R353). -/
def State.translate (s : State) (core asid va : Nat) (k : XKind) : State × Xlat :=
  if 2 ^ 57 ≤ va then (s, .fault (if k = .fetch then cFetch else cTranslation) 4)
  else match s.tlbFind core asid va with
    | none => s.useWalk core asid va k
    | some t =>
      if xwrites k && !t.entry.getLsbD 7 then s.useWalk core asid va k
      else
        let cached : Xlat := match leafCheck t.entry.toNat k with
          | some (c, i) => .fault c i
          | none => .ok (leafPa t.level t.entry.toNat va)
        if s.walk asid va = .leaf t.level (match s.walk asid va with | .leaf _ a _ => a | .bad _ => 0) t.entry.toNat then
          (s, cached)
        else
          let (s, old) := s.choose
          if old then (s, cached) else s.useWalk core asid va k

/-- The page through which a core's access to an address was translated just now: its first granule and its granules (R359). -/
def State.usedPage (s : State) (core asid va : Nat) : Nat × Nat :=
  match s.tlbFind core asid va with
  | some t => (t.vpn, t.span)
  | none => (va / granule, 1)

/-- The requester number of translations that no core makes: the hub's (front end, fabric). It has no TLB of its own. -/
abbrev hubCore : Nat := 4096

/-- Translate for the hub, which walks every time. -/
def State.hubTranslate (s : State) (asid va : Nat) (k : XKind) : State × Xlat :=
  if 2 ^ 57 ≤ va then (s, .fault cTranslation 4)
  else match s.useWalk hubCore asid va k with
    | (t, r) => ({ t with tlb := s.tlb }, r)

end Sys2Proof.Machine
end

