-- ==== Sys2Proof/Machine/Barrier.lean ====
section
/-! DEFINITION. Barrier objects (R228-R234) and declared buffers (R235-R238): the fields of an object in its scratchpad
bytes, the events that act on it, what a phase's completion does, errors, invalidation, and the buffer-state checks. -/

namespace Sys2Proof.Machine

/-- The fields of a barrier object (R228). -/
structure BarObj where
  phase : Nat
  state : Nat
  crs : Bool
  errinfo : Nat
  atgt : Nat
  acnt : Nat
  btgt : Nat
  dcnt : Nat
  bcnt : Nat
  pmask : Nat
  deriving DecidableEq, Repr

/-- Read the object at an offset. -/
def Bolt.obj (b : Bolt) (off : Nat) : BarObj :=
  let w0 := b.word off 0
  let w1 := b.word off 1
  let w2 := b.word off 2
  { phase := w0 / 2 ^ 32, state := w0 / 2 ^ 29 % 8, crs := w0 / 2 ^ 28 % 2 = 1, errinfo := w0 / 2 ^ 20 % 256,
    atgt := w0 % 2 ^ 20, acnt := w1 / 2 ^ 44, btgt := w1 % 2 ^ 40, dcnt := w2 / 2 ^ 44, bcnt := w2 % 2 ^ 40,
    pmask := b.word off 3 }

/-- A word of the object at an offset is uncorrectable (R361). -/
def Bolt.objBad (b : Bolt) (off : Nat) : Bool := badIn b.spBad 8 off 32

/-- Write the object at an offset whole. -/
def Bolt.putObj (b : Bolt) (off : Nat) (o : BarObj) : Bolt :=
  let w0 := o.phase % 2 ^ 32 * 2 ^ 32 + o.state * 2 ^ 29 + (if o.crs then 2 ^ 28 else 0) + o.errinfo * 2 ^ 20 + o.atgt
  let w1 := o.acnt * 2 ^ 44 + o.btgt
  let w2 := o.dcnt * 2 ^ 44 + o.bcnt
  { b with sp := Store.putBytes b.sp off (natLe 8 w0 ++ natLe 8 w1 ++ natLe 8 w2 ++ natLe 8 o.pmask),
           spBad := b.spBad.filter (fun u => u < off / 8 || off / 8 + 4 ≤ u) }

/-- Change fields of the object at an offset; in an uncorrectable one nothing changes (R364). -/
def Bolt.setObj (b : Bolt) (off : Nat) (o : BarObj) : Bolt := if b.objBad off then b else b.putObj off o

/-- Change fields of an object, or withhold the write with its event. -/
def State.setObj (s : State) (owner off : Nat) (o : BarObj) : State :=
  if (s.bolt owner).objBad off then s.errEvent 1 7 0 (.sp owner (firstBad (s.bolt owner).spBad off 32)) else s.setBolt owner ((s.bolt owner).putObj off o)

/-- A read of a registered object finds an uncorrectable word (R362). -/
def State.objAborts (s : State) (owner off : Nat) : Bool := s.isObject owner off && (s.bolt owner).objBad off

/-- Change the table entries of a barrier in every bolt (R229). -/
def State.mapBars (s : State) (owner off : Nat) (f : BarEnt → BarEnt) : State :=
  { s with bolts := s.bolts.map (fun p => (p.1, { p.2 with bars := p.2.bars.map (fun e =>
      if e.owner = owner && e.off = off then f e else e) })) }

/-- Offsets of the barrier objects of a bolt's scratchpad that are not INVALID. -/
def Bolt.objects (b : Bolt) (bh : Nat) : List Nat := (b.bars.filter (fun e => e.owner = bh)).map (·.off)

/-- Two byte ranges share a byte. -/
def overlap (a n b m : Nat) : Bool := a < b + m && b < a + n

/-- The arrival set of a weft of a bolt at a barrier. -/
def State.arrSet (s : State) (bh wid owner off : Nat) : Mask :=
  match (s.bolt bh).bars.find? (fun e => e.owner = owner && e.off = off) with
  | some e => Store.get 0 e.arr wid
  | none => 0

/-- Put an arrival set. -/
def State.setArr (s : State) (bh wid owner off : Nat) (m : Mask) : State :=
  let b := s.bolt bh
  s.setBolt bh { b with bars := b.bars.map (fun e =>
    if e.owner = owner && e.off = off then { e with arr := Store.put 0 e.arr wid m } else e) }

/-- The transitions of the declared buffers bound to a completed phase (R238). -/
def DBuf.complete (d : DBuf) (off : Nat) (phase : Word32) : DBuf :=
  if d.bar = off && d.wv && d.wph = phase then
    { d with wv := false, st := match d.st with
      | .filling => .full
      | .draining => .free
      | x => x }
  else d

/-- Word `i` of a copy's descriptor (R265). -/
def Copy.w (c : Copy) (i : Nat) : Nat := (c.desc.getD i 0).toNat
/-- BARV and BAROFF (R265). -/
def Copy.barv (c : Copy) : Bool := (c.w 3).testBit 20
def Copy.baroff (c : Copy) : Nat := c.w 3 % 2 ^ 20

/-- A copy that is open or running (R264). -/
def Copy.live (c : Copy) : Bool :=
  match c.st with
  | .done | .error => false
  | _ => true

/-- A 32-bit half of a descriptor's word, the low one first. -/
def Copy.half (c : Copy) (base k : Nat) : Nat := c.w (base + k / 2) / 2 ^ (32 * (k % 2)) % 2 ^ 32
/-- COUNT`k`. -/
def Copy.count (c : Copy) (k : Nat) : Nat := c.half 4 k
/-- Bytes of an element. -/
def Copy.esz (c : Copy) : Nat := 2 ^ (c.w 3 / 2 ^ 32 % 8)
/-- The elements of one index of counter 5. -/
def Copy.inner (c : Copy) : Nat := c.count 0 * c.count 1 * c.count 2 * c.count 3 * c.count 4

/-- The indices of the union of some slices, as a count. -/
def sliceCount (l : List (Nat × Nat)) : Nat :=
  ((sortBy (fun p => p.1) l).foldl (fun (a : Nat × Nat) p =>
    (a.1 + (p.1 + p.2 - max a.2 p.1), max a.2 (p.1 + p.2))) (0, 0)).1

/-- The bytes a live copy may still land: of an open one, the whole nest (R485). -/
def Copy.owed (c : Copy) : Nat :=
  (if c.st = .opened then c.count 5 else sliceCount c.slices) * c.inner * c.esz - c.landed

/-- The context's entry in the domain table has PEERLOST set (R467, R485). -/
def State.peerLost (s : State) (asid : Nat) : Bool := s.fab.domains.any (fun p => p.2.valid && p.2.asid = asid && p.2.peerlost)

/-- The bytes a barrier still needs that no copy of this device will count into it (R485). -/
def State.remoteShort (s : State) (owner off : Nat) : Int :=
  let b := s.bolt owner
  let o := b.obj off
  let own : Nat := (b.copies.filter (fun p => p.2.live && p.2.barv && p.2.baroff = off && !p.2.barGone)).foldl (fun a p => a + p.2.owed) 0
  (o.btgt : Int) - (o.bcnt : Int) - (own : Int)

/-- R485: while PEERLOST is set, a barrier that still needs bytes from outside the device enters ERRPEER. -/
def State.peerCheck (s : State) (owner off : Nat) : State :=
  let b := s.bolt owner
  let o := b.obj off
  if o.state = 1 && s.peerLost (s.span (s.course b.course).span).asid && 0 < s.remoteShort owner off then
    s.setObj owner off { o with state := 3, errinfo := 0 }
  else s

/-- Check of R230, made after every event: complete the phase, or find a byte overrun. -/
def State.barCheck (s : State) (owner off : Nat) : State :=
  let b := s.bolt owner
  let o := b.obj off
  if o.state ≠ 1 || b.objBad off then s
  else if o.acnt = o.atgt && o.bcnt = o.btgt then
    let b : Bolt := { b with bufs := b.bufs.map (fun (d : DBuf) => d.complete off (BitVec.ofNat 32 o.phase)) }
    let s := s.setBolt owner (b.setObj off { o with phase := (o.phase + 1) % 2 ^ 32, acnt := o.dcnt, bcnt := 0, btgt := 0 })
    (s.mapBars owner off (fun e => { e with arr := [] })).peerCheck owner off
  else if o.acnt = o.atgt && o.btgt < o.bcnt then s.setObj owner off { o with state := 2, errinfo := 2 }
  else s.peerCheck owner off

/-- Weft `wid` of bolt `bh` takes part in the barrier (R229). -/
def State.participant (s : State) (owner off bh wid : Nat) : Bool :=
  let o := (s.bolt owner).obj off
  o.pmask.testBit wid && (if o.crs then (s.bolt bh).course = (s.bolt owner).course else bh = owner)

/-- Count arrivals of the threads `m` of a participant (R230). -/
def State.barArrive (s : State) (owner off bh wid : Nat) (m : Mask) : State :=
  let o := (s.bolt owner).obj off
  let s := s.setArr bh wid owner off (s.arrSet bh wid owner off ||| m)
  s.setObj owner off { o with acnt := o.acnt + popMask m }

/-- Expect bytes (R230). -/
def State.barExpect (s : State) (owner off a : Nat) : State :=
  let o := (s.bolt owner).obj off
  s.setObj owner off { o with btgt := o.btgt + a }

/-- Count landed bytes (R230); a count of 2^40 is not kept and ends the barrier (R475). -/
def State.barLand (s : State) (owner off k : Nat) : State :=
  let o := (s.bolt owner).obj off
  if o.state ≠ 1 then s
  else if 2 ^ 40 ≤ o.bcnt + k then s.setObj owner off { o with state := 2, errinfo := 2 }
  else (s.setObj owner off { o with bcnt := o.bcnt + k }).barCheck owner off

/-- The barrier enters an error state (R233): ERRCOPY 2 or ERRPEER 3. -/
def State.barError (s : State) (owner off st info : Nat) : State :=
  let o := (s.bolt owner).obj off
  if s.barState owner off = 1 then s.setObj owner off { o with state := st, errinfo := info } else s

/-- Thread `t` of a weft dies or exits: it departs from one barrier (R230). -/
def State.departOne (s : State) (bh wid t owner off : Nat) : State :=
  let o := (s.bolt owner).obj off
  if s.barState owner off ≠ 1 || !s.participant owner off bh wid then s
  else
    let arr := s.arrSet bh wid owner off
    let s := if arr.getLsbD t then s.setObj owner off { o with dcnt := o.dcnt + 1 }
      else (s.setArr bh wid owner off (arr ||| tbit t)).setObj owner off
        { o with dcnt := o.dcnt + 1, acnt := o.acnt + 1 }
    s.barCheck owner off

/-- The threads `m` of weft `wid` of bolt `bh` depart from every barrier registered by the bolt (R230), and wefts that
waited are released. -/
def State.depart (s : State) (bh wid : Nat) (m : Mask) : State :=
  let s := (threads m).foldl (fun s t =>
    (s.bolt bh).bars.foldl (fun s e => s.departOne bh wid t e.owner e.off) s) s
  s.wake

/-- Raise a fault in a weft that stands at a boundary: at once when it can run or waits, at its next boundary when its
bolt is swapped out or its core has stopped (R233, R479). -/
def State.trapAt (s : State) (h : Nat) (t : Trap) : State :=
  let w := s.weft h
  match w.status with
  | .active | .ready => takeTrap s h t
  | .pending =>
    let s := takeTrap s h t
    if (s.weft h).status = .pending then (s.ready h).admitWefts (s.coreOf w) else s
  | _ => s.setWeft h { w with pend := some t }

/-- A weft is held in a phase wait on the object (R233). -/
def Weft.waitsOn (w : Weft) (owner off : Nat) : Bool :=
  match w.wait, w.repeatPhase with
  | some _, some (o, f, _) => o = owner && f = off
  | _, _ => false

/-! ## The end of a copy (R274) -/

/-- Change a copy of a bolt. -/
def State.mapCopy (s : State) (bh hd : Nat) (f : Copy → Copy) : State :=
  let b := s.bolt bh
  s.setBolt bh { b with copies := Store.modify b.copies hd f }

/-- A register file whose copy has ended: registers still empty become 0, RAW and full (R274). -/
def Weft.fillEmpties (w : Weft) (l : List Nat) : Weft :=
  { w with vr := l.foldl (fun vr k => Store.put Cell.launch vr k ⟨0, tagRAW, true⟩) w.vr,
           oddV := w.oddV.filter (fun p => !l.contains p.1) }

/-- INDEX of the destination (R266). -/
def Copy.dindex (c : Copy) : Nat := c.w 2 / 2 ^ 35 % 256

/-- A copy ends in error with a code (R274): what was written stays, its shadow is dropped, its barrier enters ERRCOPY
unless it had left LIVE, and the registers it left empty are filled. A copy that has finished is left alone. -/
def State.endCopy (s : State) (bh hd code : Nat) : State :=
  match Store.find (s.bolt bh).copies hd with
  | none => s
  | some c =>
    if !c.live then s
    else
      let (t, s) := s.stamp
      let s := s.mapCopy bh hd (fun c =>
        { c with st := .error, err := code, order := t, held := none, pages := [], saved := [], withheld := 0, empties := [], tr := [], gather := [] })
      let s := match s.weftIn bh c.dindex with
        | some h => if c.empties.isEmpty then s else s.setWeft h ((s.weft h).fillEmpties c.empties)
        | none => s
      if c.barv && code ≠ 4 && code ≠ 10 && !c.barGone then s.barError bh c.baroff 2 1 else s

/-- The copies of a bolt that count into an object as it is invalidated: those that have their slices end with code 4, one
still open keeps the fact until it starts (R234, R274). -/
def State.barCopies (s : State) (owner off : Nat) : State :=
  ((s.bolt owner).copies.filter (fun p => p.2.live && p.2.barv && p.2.baroff = off)).foldl (fun (s : State) p =>
    if p.2.st = .opened then s.mapCopy owner p.1 (fun c => { c with barGone := true }) else s.endCopy owner p.1 4) s

/-- Invalidate a barrier object in one step (R234): STATE INVALID with PHASE kept, out of every table, and every weft
that waits on it trapped. -/
def State.barInvalidate (s : State) (owner off : Nat) : State :=
  let b := s.bolt owner
  let o := b.obj off
  let s := (s.setBolt owner (b.setObj off { o with state := 0 })).barCopies owner off
  let s : State := { s with bolts := s.bolts.map (fun (p : Nat × Bolt) => (p.1, { p.2 with bars := p.2.bars.filter (fun (e : BarEnt) =>
      !(e.owner = owner && e.off = off)) })) }
  let hs := (s.wefts.filter (fun (p : Nat × Weft) => p.2.waitsOn owner off)).map (·.1)
  hs.foldl (fun s h =>
    let w := s.weft h
    s.trapAt h (w.fault cBarrier (info := 1) (addr := off) (mask := w.live))) s

/-- The fault of a wait, an arrival or an expect aimed at an object that is not LIVE (R233). `waited` says the weft
already stood in a wait on it. -/
def State.barFault (s : State) (w : Weft) (owner off : Nat) (m : Mask) (waited : Bool) : Trap :=
  let o := (s.bolt owner).obj off
  match s.barState owner off with
  | 2 => w.fault cBarrier (info := 2 + 256 * o.errinfo) (addr := off) (mask := m)
  | 3 => w.fault cPeer (addr := off) (mask := m)
  | _ => w.fault cBarrier (info := if waited then 1 else 3) (addr := off) (mask := m)

/-! ## Declared buffers -/

def BufSt.code : BufSt → Nat
  | .free => 0 | .filling => 1 | .full => 2 | .draining => 3

/-- A weft access is legal in a buffer's state (R236). -/
def BufSt.weftOk (st : BufSt) (write : Bool) : Bool :=
  match st with
  | .full | .draining => !write
  | .filling => write
  | .free => false

/-- An engine access is legal in a buffer's state (R236). -/
def BufSt.engineOk (st : BufSt) (write : Bool) : Bool :=
  match st with
  | .full | .draining => !write
  | .filling => write
  | .free => false

/-- The first declared buffer, by base, that an access of `n` bytes meets in a state that forbids it: its state and the
first byte concerned (R236, R249). -/
def Bolt.bufRefuses (b : Bolt) (a n : Nat) (write : Bool) : Option (BufSt × Nat) :=
  ((sortBy (fun d => d.base) (b.bufs.filter (fun d => overlap a n d.base d.len && !d.st.weftOk write))).head?).map
    (fun d => (d.st, max a d.base))

/-- A write of `n` bytes touches a barrier object that is not INVALID (R227). -/
def Bolt.hitsObject (b : Bolt) (bh a n : Nat) : Bool := (b.objects bh).any (fun f => overlap a n f 32)

end Sys2Proof.Machine
end

