-- ==== Sys2Proof/Machine/Route.lean ====
section
/-! DEFINITION. The device's place in the fabric: route words and what routers check (R463, R464), the route table and its
cache (R466), building and sending packets (R468), the egress's paths, markers and reported failures (R479, R480), and the
pulls of pages that follow (R440). -/

namespace Sys2Proof.Machine

/-! ## The device's place (R460) -/

/-- FABCFG.EN. -/
def State.fabOn (s : State) : Bool := s.fab.cfg.getLsbD 63
/-- Extent of a dimension. -/
def State.extent (s : State) (d : Nat) : Nat := s.fab.cfg.toNat / 2 ^ (24 + 4 * d) % 16 + 1
/-- POS. -/
def State.fpos (s : State) : BitVec 24 := s.fab.cfg.truncate 24
/-- A coordinate of a position. -/
def coord (p : BitVec 24) (d : Nat) : Nat := p.toNat / 2 ^ (4 * d) % 16
/-- Put a coordinate. -/
def setCoord (p : BitVec 24) (d v : Nat) : BitVec 24 :=
  BitVec.ofNat 24 (p.toNat - coord p d * 2 ^ (4 * d) + v % 16 * 2 ^ (4 * d))

/-- POS plus a relative coordinate word, each dimension modulo its extent (R466). -/
def State.destOf (s : State) (rc : BitVec 24) : BitVec 24 :=
  (List.range 6).foldl (fun p d =>
    let r : Int := sextNat 4 (coord rc d)
    setCoord p d (((coord s.fpos d : Nat) + r) % (s.extent d : Int)).toNat) 0

/-! ## Route words (R463, R464) -/

def segOf (r : BitVec 128) (i : Nat) : Nat := r.toNat / 2 ^ (10 * i) % 1024
def segPort (g : Nat) : Nat := g % 16
def segHops (g : Nat) : Nat := g / 16 % 32
def segDc (g : Nat) : Bool := g / 512 % 2 = 1
def routeSegs (r : BitVec 128) : Nat := r.toNat / 2 ^ 80 % 8
def routeTc (r : BitVec 128) : Nat := r.toNat / 2 ^ 83 % 4

/-- Seg(i) of R464: the packet in segment `i`, or the reason it is dropped. -/
def State.enterSeg (s : State) (p : Packet) (i : Nat) : Packet ⊕ Nat :=
  let g := segOf p.fwd i
  let d := segPort g / 2
  if 11 < segPort g || segHops g = 0 || s.extent d - 1 < segHops g then .inr 2
  else if p.cls && !segDc g then .inr 2
  else
    let turn := segDc g && !p.cls
    let last := if turn then 7 else p.last
    if last ≠ 7 && d ≤ last then .inr 2
    else .inl { p with seg := i, cls := p.cls || turn, last := d, hleft := segHops g }

/-- One hop of R464 from this device's position: the port and virtual channel, and the packet as it leaves. -/
def State.hop (s : State) (p : Packet) : (Nat × Nat × Packet) ⊕ Nat :=
  let port := segPort (segOf p.fwd p.seg)
  let d := port / 2
  let up := port % 2 = 0
  let at_ := coord s.fpos d
  let wrap := if up then at_ = s.extent d - 1 else at_ = 0
  if !(Store.get Port.reset s.fab.ports port).up then .inr 1
  else if wrap && p.cls then .inr 2
  else
    let q : Packet := if wrap then { p with cls := true, last := d } else p
    .inl (port, 2 * routeTc p.fwd + (if q.cls then 1 else 0), { q with hleft := q.hleft - 1 })

/-! ## The route table (R466) -/

/-- A route-table entry. -/
structure RtEnt where
  fwd : BitVec 128
  ret : BitVec 128
  domid : BitVec 32
  asid : Nat
  valid : Bool
  broken : Bool
  gw : Bool
  rcoord : BitVec 24
  gwdest : BitVec 32
  deriving DecidableEq, Repr

/-- Bytes `a` to `a+n-1` of a byte list as a number. -/
def fieldAt (l : List Byte) (a n : Nat) : Nat := leNat ((l.drop a).take n)

/-- A route's reserved bits and the segments above NSEGM1 are zero (R463). -/
def routeOk (r : BitVec 128) : Bool := r.toNat / 2 ^ 85 = 0 && r.toNat % 2 ^ 80 / 2 ^ (10 * (routeSegs r + 1)) = 0

/-- The reserved fields of an entry's 64 bytes are zero, those of its two routes among them (R463, R466). -/
def rtEntOk (l : List Byte) : Bool :=
  routeOk (BitVec.ofNat 128 (fieldAt l 0 16)) && routeOk (BitVec.ofNat 128 (fieldAt l 16 16)) && fieldAt l 38 1 < 8 &&
    fieldAt l 39 1 = 0 && fieldAt l 43 1 = 0 && fieldAt l 48 16 = 0

/-- An entry's fields. One with a reserved field that is not zero is used as one that is not VALID (DESIGN CHOICE, log 147). -/
def RtEnt.ofBytes (l : List Byte) : RtEnt :=
  { fwd := BitVec.ofNat 128 (fieldAt l 0 16), ret := BitVec.ofNat 128 (fieldAt l 16 16),
    domid := BitVec.ofNat 32 (fieldAt l 32 4), asid := fieldAt l 36 2, valid := (fieldAt l 38 1).testBit 0 && rtEntOk l,
    broken := (fieldAt l 38 1).testBit 1, gw := (fieldAt l 38 1).testBit 2, rcoord := BitVec.ofNat 24 (fieldAt l 40 4),
    gwdest := BitVec.ofNat 32 (fieldAt l 44 4) }

/-- Address of a route-table entry. -/
def State.rtAddr (s : State) (ridx : Nat) : Nat := s.fab.rtbase.toNat + 64 * ridx

/-- The entry the hub uses: the cached one, or the one in memory, which it then caches (R466). An entry that does not read raises its
error event, and no entry is used (R362). -/
def State.route (s : State) (ridx : Nat) : State × RtEnt :=
  match Store.find s.fab.cache ridx with
  | some l => (s, RtEnt.ofBytes l)
  | none =>
    if s.lineBad (s.rtAddr ridx) then (s.lineEvent 0 0 (s.rtAddr ridx), RtEnt.ofBytes [])
    else
    let l := Store.bytes s.mem (s.rtAddr ridx) 64
    ({ s with fab := { s.fab with cache := Store.insert s.fab.cache ridx l } }, RtEnt.ofBytes l)

/-- The hub sets BROKEN in an entry (R484), in memory and in its cache. -/
def State.breakRoute (s : State) (ridx : Nat) : State :=
  let a := s.rtAddr ridx + 38
  let b := Store.get 0 s.mem a ||| 2
  let s : State := { s with mem := Store.put 0 s.mem a b }
  match Store.find s.fab.cache ridx with
  | none => s
  | some l =>
    let l' := l.set 38 (l.getD 38 0 ||| 2)
    { s with fab := { s.fab with cache := Store.insert s.fab.cache ridx l' } }

/-! ## Packets (R468, R469) -/

abbrev tWRITE : BitVec 8 := 0x01
abbrev tREAD : BitVec 8 := 0x02
abbrev tRDATA : BitVec 8 := 0x03
abbrev tATOM : BitVec 8 := 0x04
abbrev tADATA : BitVec 8 := 0x05
abbrev tSIGNAL : BitVec 8 := 0x06
abbrev tMARKER : BitVec 8 := 0x07
abbrev tMACK : BitVec 8 := 0x08
abbrev tNOTICE : BitVec 8 := 0x09
abbrev tERROR : BitVec 8 := 0x0A
abbrev tWITHDRAW : BitVec 8 := 0x0B
abbrev tPULL : BitVec 8 := 0x0C
abbrev tPAGE : BitVec 8 := 0x0D
abbrev tPIECE : BitVec 8 := 0x0E
abbrev tPACK : BitVec 8 := 0x0F
abbrev tLINKSTATE : BitVec 8 := 0x10
abbrev tQNOTIFY : BitVec 8 := 0x11

/-- Requests and responses (R469). -/
def isResponse (t : BitVec 8) : Bool :=
  t == tRDATA || t == tADATA || t == tMACK || t == tNOTICE || t == tERROR || t == tPAGE || t == tPACK

/-- A request packet of an entry (R466, R468). -/
def State.mkRequest (s : State) (e : RtEnt) (ridx : Nat) (typ : BitVec 8) (ordered : Bool) (addr len tag : Nat)
    (payload : List Byte) : Packet :=
  { fwd := e.fwd, ret := e.ret, seg := 0, cls := false, last := 7, hleft := 0, typ := typ, ordered := ordered,
    domid := e.domid, srcpos := s.fpos, dstpos := s.destOf e.rcoord, addr := BitVec.ofNat 64 addr, len := len,
    ridx := ridx, tag := BitVec.ofNat 32 tag, payload := payload, aborts := [] }

/-- The response to a request: the routes exchanged, the path restarted (R468). -/
def State.mkResponse (s : State) (p : Packet) (typ : BitVec 8) (payload : List Byte) (aborts : List Nat) : Packet :=
  { p with fwd := p.ret, ret := p.fwd, seg := 0, cls := false, last := 7, hleft := 0, typ := typ, ordered := false,
           srcpos := s.fpos, dstpos := p.srcpos, len := payload.length, payload := payload, aborts := aborts }

/-- The hub sends a packet; with FABCFG.EN clear it is dropped (R460). -/
def State.emit (s : State) (p : Packet) : State :=
  if s.fabOn then { s with fab := { s.fab with out := s.fab.out ++ [p] } } else s

/-- A tag for a request. -/
def State.newTag (s : State) : Nat × State :=
  (s.fab.nextTag % 2 ^ 31, { s with fab := { s.fab with nextTag := s.fab.nextTag + 1 } })

/-! ## Paths of the egress (R480) -/

/-- A path counts requests that no acknowledged marker covers. -/
def Egress.busy (e : Egress) : Bool := e.count ≠ 0 || !e.markers.isEmpty

def State.mapPath (s : State) (asid ridx : Nat) (f : Egress → Egress) : State :=
  { s with fab := { s.fab with egress := s.fab.egress.map (fun (e : Egress) =>
      if e.asid = asid && e.ridx = ridx then f e else e) } }

/-- Paths the egress can count (R480). -/
def pathLimit : Nat := 4096

/-- The path exists already, or one more can be counted. -/
def State.pathRoom (s : State) (asid ridx : Nat) : Bool :=
  s.fab.egress.any (fun e => e.asid = asid && e.ridx = ridx && e.busy) ||
    (s.fab.egress.filter (fun e => e.busy)).length < pathLimit

/-- Count one more request on a path. -/
def State.countPath (s : State) (asid ridx : Nat) : State :=
  let (t, s) := s.stamp
  if s.fab.egress.any (fun e => e.asid = asid && e.ridx = ridx) then
    s.mapPath asid ridx (fun e => { e with count := e.count + 1, used := t })
  else
    { s with fab := { s.fab with egress := s.fab.egress ++
        [{ asid := asid, ridx := ridx, count := 1, markers := [], failed := [], used := t }] } }

/-- Send a MARKER on a path; it covers every request counted so far. -/
def State.sendMarker (s : State) (asid ridx : Nat) : State :=
  let (s, e) := s.route ridx
  let (t, s) := s.newTag
  let s := s.mapPath asid ridx (fun p => { p with count := 0, markers := p.markers ++ [t] })
  let q : Req := { tag := t, asid := asid, ridx := ridx, weft := 0, fid := none, thr := 0, addr := 0, len := 0, sent := s.ltime,
                   gw := false, typ := tMARKER, data := [] }
  let s : State := { s with fab := { s.fab with reqs := s.fab.reqs ++ [q] } }
  s.emit (s.mkRequest e ridx tMARKER true 0 0 t [])

/-- Make room for a new path: a MARKER on the least recently used counted path that has none outstanding (R480). -/
def State.evictPath (s : State) : State :=
  match (sortBy (fun (e : Egress) => e.used) (s.fab.egress.filter (fun e => e.count ≠ 0 && e.markers.isEmpty))).head? with
  | some e => s.sendMarker e.asid e.ridx
  | none => s

/-- A MARKER on every path of a context whose count is not zero; the tags of all its markers outstanding (R480). -/
def State.markAll (s : State) (asid : Nat) : State × List Nat :=
  let s := (s.fab.egress.filter (fun e => e.asid = asid && e.count ≠ 0)).foldl (fun (s : State) e =>
    s.sendMarker asid e.ridx) s
  (s, (s.fab.egress.filter (fun e => e.asid = asid)).flatMap (fun e => e.markers))

/-- Some marker of the list is still unanswered. -/
def State.unanswered (s : State) (tags : List Nat) : Bool :=
  s.fab.egress.any (fun e => e.markers.any (fun t => tags.contains t))

/-- The path of the failure that a release of the context reports next. -/
def State.failedPath (s : State) (asid : Nat) : Nat :=
  ((s.fab.egress.find? (fun e => e.asid = asid && !e.failed.isEmpty)).map (fun e => e.ridx)).getD 0

/-- A failure that a release of the context must report, and the state with it taken off (R479). -/
def State.takeFailure (s : State) (asid : Nat) : Option (Nat × Va × State) :=
  match s.fab.egress.find? (fun e => e.asid = asid && !e.failed.isEmpty) with
  | some e =>
    match e.failed with
    | (i, a) :: rest => some (i, a, s.mapPath asid e.ridx (fun p => { p with failed := rest }))
    | [] => none
  | none => none

/-- A write sent through a gateway has not completed (R487). -/
def State.gwBusy (s : State) (asid : Nat) : Bool :=
  s.fab.reqs.any (fun r => r.asid = asid && r.gw && r.fid = none)

/-! ## Domains (R467) -/

/-- The VALID domain-table entry of a DOMID. -/
def State.domainOf (s : State) (domid : BitVec 32) : Option (Nat × DomEnt) :=
  s.fab.domains.find? (fun p => p.2.valid && p.2.domid = domid && p.2.domid ≠ 0)

/-! ## Pages that follow (R439, R440) -/

/-- Indices of the route-table entries of which memory or the hub's cache holds anything; every other entry is zero and
so not VALID. -/
def State.routesHeld (s : State) : List Nat :=
  let inTable := (s.mem.filter (fun p => s.fab.rtbase.toNat ≤ p.1 && p.1 < s.fab.rtbase.toNat + 64 * 65536)).map (fun p =>
    (p.1 - s.fab.rtbase.toNat) / 64)
  sortBy (fun r => r) (inTable ++ s.fab.cache.map (·.1)).eraseDups

/-- A usable route to a position: VALID, not BROKEN, through no gateway. -/
def State.routeTo (s : State) (pos : BitVec 24) : Option (Nat × RtEnt) :=
  s.routesHeld.findSome? (fun r =>
    let e := (s.route r).2
    if e.valid && !e.broken && !e.gw && s.destOf e.rcoord = pos then some (r, e) else none)

/-- ADDR of the PULL that stands for RELEASE. -/
def releaseAddr : Nat := 2 ^ 64 - 1

/-- Ask a holder for a page, or release its image; a request without a route is not sent. -/
def State.sendPull (s : State) (x : Holder) (addr : Nat) : Option (Nat × State) :=
  match s.routeTo x.pos with
  | none => none
  | some (r, e) =>
    let s := (s.route r).1
    let (t, s) := s.newTag
    some (t, s.emit (s.mkRequest e r tPULL false addr 64 t x.digest))

/-- A page has been touched: if it is to follow and no pull of it has been made, it is pulled from its holder. A page without
a holder or a route to it is unreachable. -/
def State.pullFor (s : State) (asid va : Nat) : State :=
  let page := va / granule
  if s.walk asid va ≠ .bad 6 || s.pulls.any (fun p => p.asid = asid && p.va / granule = page) then s
  else
    let dead : Pull := { asid := asid, va := page * granule, tag := 0, since := s.ltime, got := [], dead := true }
    match s.holders.find? (fun x => x.asid = asid && x.left.contains page) with
    | none => { s with pulls := s.pulls ++ [dead] }
    | some x =>
      match s.sendPull x (page * granule) with
      | none => { s with pulls := s.pulls ++ [dead] }
      | some (t, s) => { s with pulls := s.pulls ++ [{ dead with tag := t, dead := false }] }

/-- Holders of which nothing is left to follow, or all of a context's, get a RELEASE and are forgotten. -/
def State.releaseHolders (s : State) (gone : Holder → Bool) : State :=
  let s := (s.holders.filter gone).foldl (fun (s : State) x => ((s.sendPull x releaseAddr).map (·.2)).getD s) s
  { s with holders := s.holders.filter (fun x => !gone x) }

/-- The context drops its images: its holders free their pages. -/
def State.dropImages (s : State) (asid : Nat) : State :=
  let s := s.releaseHolders (fun x => x.asid = asid)
  { s with pulls := s.pulls.filter (fun p => p.asid ≠ asid) }

end Sys2Proof.Machine
end

