-- ==== Sys2Proof/Machine/Launch.lean ====
section
/-! DEFINITION. Making bolts and wefts: kernel descriptors (R46) and the limits of R45, buffer records (R184 to R188), a
weft at launch (R91), what fits on a core (R224), and the start of a mailbox handler (R413, R414). -/

namespace Sys2Proof.Machine

/-! ## Buffer records (R184-R187) -/

/-- A buffer record's fields (R184). -/
structure Rec where
  base : Nat
  len : Nat
  enc : Nat
  nan : Nat
  ilv : Nat
  smode : Nat
  sblk : Nat
  sbase : Nat
  stride : Nat
  shadow : Bool
  rdonly : Bool
  ext : Bool
  bounds : Nat
  cache : Nat
  ord : Bool
  rv : Bool
  ridx : Nat
  rcoord : BitVec 24
  deriving DecidableEq, Repr

/-- The fields of a record's words. -/
def BufRec.fields (r : BufRec) : Rec :=
  let w0 := r.w0.toNat
  let w1 := r.w1.toNat
  let w2 := r.w2.toNat
  let w3 := r.w3.toNat
  let w4 := r.w4.toNat
  { base := w0 % 2 ^ 57, len := w1 % 2 ^ 40, enc := w1 / 2 ^ 40 % 256, nan := w1 / 2 ^ 48 % 4, ilv := w1 / 2 ^ 50 % 8,
    smode := w1 / 2 ^ 53 % 8, sblk := w1 / 2 ^ 56, sbase := w2 % 2 ^ 57, stride := w3 % 2 ^ 32,
    shadow := w3.testBit 63, rdonly := w3.testBit 62, ext := w3.testBit 61, bounds := w3 / 2 ^ 59 % 4,
    cache := w3 / 2 ^ 56 % 8, ord := w3.testBit 55, rv := w4.testBit 63, ridx := w4 / 2 ^ 24 % 2 ^ 16,
    rcoord := BitVec.ofNat 24 w4 }

/-- A record from 40 bytes. -/
def BufRec.ofBytes (l : List Byte) : BufRec :=
  let w (i : Nat) : Dword := BitVec.ofNat 64 (fieldAt l (8 * i) 8)
  ⟨w 0, w 1, w 2, w 3, w 4⟩

/-- The 40 bytes of a record. -/
def BufRec.bytes (r : BufRec) : List Byte :=
  natLe 8 r.w0.toNat ++ natLe 8 r.w1.toNat ++ natLe 8 r.w2.toNat ++ natLe 8 r.w3.toNat ++ natLe 8 r.w4.toNat

/-- The rows of R185 and R186: NAN and SMODE allowed with an encoding. -/
def encRow (enc nan smode : Nat) : Bool :=
  match enc with
  | 0x07 => nan ≤ 2 && smode ≤ 2
  | 0x08 => (nan = 0 || nan = 2) && smode ≤ 2
  | 0x09 => nan = 0 && smode ≤ 1
  | 0x0D => nan = 0 && smode = 2
  | n => n < 16 && nan = 0 && smode = 0

/-- The scale's rules of R186. -/
def scaleRow (r : Rec) : Bool :=
  match r.smode with
  | 0 => r.sblk = 0 && r.sbase = 0
  | 1 => r.sblk = 5
  | 2 => 5 ≤ r.sblk && r.sblk ≤ 16 && r.sbase % 4 = 0
  | _ => false

/-- A record is well formed (R187); reserved BOUNDS and CACHE codes count as reserved fields. -/
def BufRec.ok (b : BufRec) : Bool :=
  let r := b.fields
  let n := encBits r.enc / 8
  b.w0.toNat < 2 ^ 57 && b.w2.toNat < 2 ^ 57 && b.w3.toNat / 2 ^ 32 % 2 ^ 23 = 0 && b.w4.toNat / 2 ^ 40 % 2 ^ 23 = 0 &&
    r.bounds ≤ 1 && r.cache ≤ 3 && encRow r.enc r.nan r.smode && scaleRow r && r.ilv ≤ 5 &&
    (if n = 0 then r.stride = 0 else r.base % n = 0 && r.stride % n = 0)

/-! ## Kernel descriptors (R45, R46) -/

/-- The fields of a descriptor's 64 bytes, its record table not yet read. ENTRY is the low 57 bits of its field, and bits 63:57
are not checked (DESIGN CHOICE, log 143). -/
def Kernel.ofBytes (addr : Nat) (l : List Byte) : Kernel :=
  { addr := addr, entry := BitVec.ofNat 57 (fieldAt l 0 8), vregs := fieldAt l 8 2, sregs := fieldAt l 10 1,
    prot := (fieldAt l 11 1).testBit 0, mbox := (fieldAt l 11 1).testBit 1, scratch := fieldAt l 12 4,
    lease := fieldAt l 16 4, wefts := fieldAt l 20 2, bolts := fieldAt l 22 2, recs := [] }

/-- RECTAB and NRECS of a descriptor. -/
def recTab (l : List Byte) : Nat × Nat := (fieldAt l 24 8, fieldAt l 32 2)

/-- Reserved bytes zero and fields within the limits of R45 (R405). -/
def descrOk (l : List Byte) : Bool :=
  let k := Kernel.ofBytes 0 l
  fieldAt l 11 1 < 4 && fieldAt l 34 2 = 0 && fieldAt l 40 24 = 0 &&
    8 ≤ k.vregs && k.vregs ≤ 128 && k.vregs % 8 = 0 && k.sregs ≤ 64 && k.scratch ≤ 524288 && k.scratch % 256 = 0 &&
    (k.lease = 0 || (16384 ≤ k.lease && k.lease ≤ 1048576 && k.lease % 16384 = 0)) &&
    1 ≤ k.wefts && k.wefts ≤ 64 && 1 ≤ k.bolts && k.bolts ≤ 256 && fieldAt l 32 2 ≤ 256

/-- Register bytes of one weft (R92). -/
def Kernel.regBytes (k : Kernel) : Nat := 256 * k.vregs + 8 * k.sregs

/-! ## Placement on a core (R224, R225, R406) -/

/-- Register bytes of a weft. -/
def Weft.regBytes (w : Weft) : Nat := 256 * w.vregs + 8 * w.sregs

/-- A bolt's registers and weft records are free: its last weft has ended and its copies have completed (R225). -/
def State.boltFreed (s : State) (bh : Nat) : Bool :=
  (s.weftsOf bh).all (fun h => (s.weft h).status = .ended) &&
    (s.bolt bh).copies.all (fun p => p.2.st = .done || p.2.st = .error)

/-- A course has ended: every bolt of it is free (R225). -/
def State.courseOver (s : State) (c : Nat) : Bool :=
  (s.course c).ended && s.bolts.all (fun p => p.2.course ≠ c || s.boltFreed p.1)

/-- A course that is over gives up its scratchpads, with the barrier objects and buffers in them (R225). -/
def State.freeCourse (s : State) (c : Nat) : State :=
  if s.courseOver c then
    { s with bolts := s.bolts.map (fun (p : Nat × Bolt) => (p.1, if p.2.course = c then
        { p.2 with sp := [], spBad := [], folds := [], bars := [], bufs := [] } else p.2)) }
  else s

/-- The wefts that hold a weft record on a core, a handler's reserved one left out: those of every bolt resident there. -/
def State.residents (s : State) (n : Nat) : List (Nat × Weft) :=
  s.wefts.filter (fun p => (s.boltOf p.2).core = n && !(s.boltOf p.2).out && !p.2.handler && !s.boltFreed p.2.bolt)

/-- Register bytes in use on a core; a bolt's are freed with its last weft (R225), a handler's are taken at MBIND (R259). -/
def State.regsUsed (s : State) (n : Nat) : Nat :=
  (s.residents n).foldl (fun a p => a + p.2.regBytes) 0 +
    (s.ctxs.flatMap (fun p => p.2.mboxes.filter (fun m => m.core = n))).foldl (fun a m => a + m.kern.regBytes) 0

/-- A core's shadow bank is being spilled from a span's context, whose bytes stay taken (R260). -/
def State.spilling (s : State) (n sp : Nat) : Bool := (s.core n).switch = .spilling sp

/-- Scratchpad bytes in use on a core: a bolt's last until its course ends (R225), and those of a context that is being spilled until
the spill has ended (R260). -/
def State.scratchUsed (s : State) (n : Nat) : Nat :=
  (s.bolts.filter (fun p => p.2.core = n && (!p.2.out || s.spilling n (s.course p.2.course).span) &&
      !(s.course p.2.course).handler && !s.courseOver p.2.course)).foldl
      (fun a p => a + p.2.scratch) 0 +
    (s.ctxs.flatMap (fun p => p.2.mboxes.filter (fun m => m.core = n))).foldl (fun a m => a + m.kern.scratch) 0

/-- Bytes a core gives weft registers (R223). -/
abbrev regFile : Nat := 458752
/-- Bytes of a core's scratchpad (R223). -/
abbrev scratchSize : Nat := 524288

/-- One bolt of a kernel fits on a core as it stands (R224). -/
def State.boltFits (s : State) (n : Nat) (k : Kernel) : Bool :=
  (s.residents n).length + k.wefts ≤ 64 && s.regsUsed n + k.wefts * k.regBytes ≤ regFile &&
    s.scratchUsed n + k.scratch ≤ scratchSize

/-- Declared leases of a core stay within eight active sets (R406). -/
def State.leasesFit (s : State) (n : Nat) (k : Kernel) : Bool :=
  (s.residents n).foldl (fun a p => a + p.2.leaseDecl) 0 + k.wefts * k.lease ≤ 8 * leaseCap

/-! ## A weft at launch (R91) -/

/-- A weft of a kernel as it launches: READY, with no argument written yet. -/
def Weft.launch (k : Kernel) (bolt id : Nat) : Weft :=
  { Weft.absent with
    bolt := bolt, id := id, prot := k.prot, vregs := k.vregs, sregs := k.sregs, status := .ready,
    pc := k.entry, active := if k.prot then 0xFFFF else 0xFFFFFFFF, leaseDecl := k.lease,
    lease := if k.lease = 0 then 65536 else k.lease }

/-- Write arguments into s0 upward (R407). -/
def Weft.withArgs (w : Weft) (args : List (Dword × BitVec 6)) : Weft :=
  (args.zipIdx).foldl (fun w p => w.setS p.2 ⟨p.1.1, p.1.2, true⟩) w

/-- A bolt as it launches: zero scratchpad, the kernel's records (R188, R226). -/
def Bolt.launch (k : Kernel) (course id core : Nat) : Bolt :=
  { Bolt.absent with course := course, id := id, core := core, nwefts := k.wefts, scratch := k.scratch, recs := k.recs }

/-- Add a weft and let it join the admission queue. -/
def State.addWeft (s : State) (w : Weft) : Nat × State :=
  let h := Store.fresh s.wefts
  (h, (s.setWeft h w).ready h)

/-- Start a mailbox's handler (R413, R414): one bolt of one weft in the reserved record of its core, with the line's
eight dwords in s0 to s7. -/
def State.startHandler (s : State) (asid : Nat) (m : MBox) : State :=
  let c := Store.fresh s.courses
  let b := Store.fresh s.bolts
  let s := s.setCourse c { Course.absent with span := m.span, nbolts := 1, handler := true,
                                              cluster := m.core / 256 }
  let s := s.setBolt b (Bolt.launch m.kern c 0 m.core)
  let core := s.core m.core
  let s := s.setCore m.core { core with l1 := [], l1Bad := [] }
  let bad := s.lineBad m.pa
  let s := if bad then s.lineEvent 2 asid m.pa else s
  let words := (List.range 8).map (fun i => BitVec.ofNat 64 (Store.readNat s.mem (m.pa + 8 * i) 8))
  let w : Weft := { Weft.launch m.kern b 0 with handler := true, fired := true }
  let w := (words.zipIdx).foldl (fun (w : Weft) p => w.setS p.2 ⟨if bad then 0 else p.1, tagI64, !bad⟩) w
  let w : Weft := if bad then { w with sAbort := List.range 8 } else w
  let (_, s) := s.addWeft w
  let x := s.ctx asid
  let s := s.setCtx asid { x with mboxes := x.mboxes.map (fun (n : MBox) =>
    if n.line = m.line then { n with bolt := some b, pending := false } else n) }
  s.admitWefts m.core

/-- The binding of a line. -/
def State.mailboxAt (s : State) (pa : Nat) : Option (Nat × MBox) :=
  s.ctxs.findSome? (fun p => (p.2.mboxes.find? (fun m => m.pa / 64 = pa / 64)).map (fun m => (p.1, m)))

/-- A write to a line has been performed: its mailbox fires (R413). -/
def State.fire (s : State) (pa : Nat) : State :=
  match s.mailboxAt pa with
  | none => s
  | some (asid, m) =>
    match m.bolt with
    | none => s.startHandler asid m
    | some _ =>
      let x := s.ctx asid
      s.setCtx asid { x with mboxes := x.mboxes.map (fun (n : MBox) =>
        if n.line = m.line then { n with pending := true } else n) }

end Sys2Proof.Machine
end

