-- ==== Sys2Proof/Machine/Home.lean ====
section
/-! DEFINITION. What is performed at a home slice (R309): reads and writes of HBM lines with uncorrectable lines (R211,
R362, R364), the combine of update-only copies (R203, R311, R312), the accumulator adders (R313 to R317), the polls a
write triggers (R206), mailboxes (R413) and the frames of a draining checkpoint (R442). -/

namespace Sys2Proof.Machine

/-! ## Read-modify-writes (R202) -/

/-- The new value of an atomic operation on `n` bytes. -/
def atomicNew (op : AtomOp) (n : Nat) (flt : Bool) (old a c1 : Nat) : Nat :=
  let w := 8 * n
  let old := old % 2 ^ w
  let a := a % 2 ^ w
  match op with
  | .add => if flt then old else (old + a) % 2 ^ w
  | .min => if sextNat w old ≤ sextNat w a then old else a
  | .max => if sextNat w a ≤ sextNat w old then old else a
  | .umin => min old a
  | .umax => max old a
  | .and => old &&& a
  | .or => old ||| a
  | .xor => old ^^^ a
  | .xchg => a
  | .cas => if old = a then c1 % 2 ^ w else old
  | .inc => if a ≤ old then 0 else old + 1
  | .dec => if old = 0 || a < old then a else old - 1
  | .fadd =>
    let f : FSpec := if n = 4 then .f32 else .f64
    (fAdd f .rne (f.decode old) (f.decode a)).1

/-! ## Update-only copies (R311, R312) -/

/-- One addend for R203's fold: where it stands in the order, and its value. -/
def RedEntry.before (x y : RedEntry) : Bool :=
  x.course < y.course || (x.course = y.course && (x.bolt < y.bolt || (x.bolt = y.bolt &&
    (x.weft < y.weft || (x.weft = y.weft && x.seq < y.seq)))))

/-- Insertion in the order of R203. -/
def insertRed (x : RedEntry) : List RedEntry → List RedEntry
  | [] => [x]
  | y :: t => if x.before y then x :: y :: t else y :: insertRed x t

/-- The fold of R203 over sorted addends of one address: a partial sum per bolt, added when the bolt is done. -/
def foldReds (n : Nat) : List RedEntry → Option (Nat × Nat × Nat) → Nat → Nat
  | [], none, v => v
  | [], some (_, _, sum), v => atomicNew .fadd n true v sum 0
  | e :: t, none, v => foldReds n t (some (e.course, e.bolt, atomicNew .fadd n true 0 e.a.toNat 0)) v
  | e :: t, some (c, b, sum), v =>
    if e.course = c && e.bolt = b then foldReds n t (some (c, b, atomicNew .fadd n true sum e.a.toNat 0)) v
    else foldReds n t (some (e.course, e.bolt, atomicNew .fadd n true 0 e.a.toNat 0)) (atomicNew .fadd n true v sum 0)

/-- Every update-only entry of the device for a line, in arrival order. -/
def State.redsOf (s : State) (line : Nat) : List RedEntry :=
  sortBy (fun e => e.seq) (s.cores.flatMap (fun p => p.2.upd.filter (fun e => e.pa / 64 = line)))

/-- The addresses named by a list of entries, each once. -/
def redAddrs (l : List RedEntry) : List Nat := (l.map (fun e => e.pa)).eraseDups

/-- Apply the entries of one address to memory. -/
def applyReds (m : Store Byte) (l : List RedEntry) (pa : Nat) : Store Byte :=
  let es := l.filter (fun e => e.pa = pa)
  match es with
  | [] => m
  | e :: _ =>
    let n := if e.w8 then 8 else 4
    let old := Store.readNat m pa n
    let v := if e.ord && e.flt then foldReds n (es.foldl (fun acc x => insertRed x acc) []) none old
      else es.foldl (fun v x => atomicNew x.op n x.flt v x.a.toNat 0) old
    Store.writeNat m pa n v

/-- The home recalls every update-only copy of a line and combines them (R311). An uncorrectable line keeps nothing of
them (R211). -/
def State.recall (s : State) (line : Nat) : State :=
  match s.redsOf line with
  | [] => s
  | l =>
    let s : State := { s with cores := s.cores.map (fun (p : Nat × Core) =>
      (p.1, { p.2 with upd := p.2.upd.filter (fun e => e.pa / 64 ≠ line) })) }
    if s.lineBad (line * 64) then s.lineEvent 7 0 (line * 64)
    else { s with mem := (redAddrs l).foldl (fun m a => applyReds m l a) s.mem }

/-- The lines of a byte range. -/
def linesOf (pa n : Nat) : List Nat := (List.range ((pa + n - 1) / 64 + 1 - pa / 64)).map (fun i => pa / 64 + i)

/-- Recall every line of a range. -/
def State.recallRange (s : State) (pa n : Nat) : State := (linesOf pa n).foldl (fun s l => s.recall l) s

/-- A clean L2 line that is uncorrectable is dropped and read again from HBM; the error counts as a corrected one (R363). -/
def State.mendL2 (s : State) (line : Nat) : State :=
  if s.l2Bad.contains line then
    ({ s with l2Bad := s.l2Bad.filter (fun x => x ≠ line) } : State).errEvent 0 0 0 (.l2 (line * 64))
  else s

/-- READ at the home for a context: the bytes, or an abort completion (R310, R362). -/
def State.homeRead (s : State) (pa n consumer asid : Nat) : State × Option (List Byte) :=
  let s := (linesOf pa n).foldl (fun s l => s.mendL2 l) (s.recallRange pa n)
  match (linesOf pa n).find? (fun l => s.lineBad (l * 64)) with
  | some l => (s.lineEvent consumer asid (l * 64), none)
  | none => (s, some (Store.bytes s.mem pa n))

/-! ## Accumulator adders (R291, R313-R317) -/

/-- Bytes of an element of a kind: 0 F32, 1 F64, 2 INT32. -/
def kindBytes (k : Nat) : Nat := if k = 1 then 8 else 4

/-- One merge (R291): the new value and its flags. -/
def mergeElem (k old t : Nat) : Nat × Flags :=
  match k with
  | 2 => toIntN (sextNat 32 old + sextNat 32 t) 32 false false
  | 1 => fAdd .f64 .rne (FSpec.f64.decode old) (FSpec.f64.decode t)
  | _ => fAdd .f32 .rne (FSpec.f32.decode old) (FSpec.f32.decode t)

/-- Apply the elements of a contribution; those of an uncorrectable line are left out (R333). -/
def State.applyElems (s : State) (k : Nat) : List (Nat × Dword) → Flags → State × Flags
  | [], fl => (s, fl)
  | (pa, t) :: rest, fl =>
    let s := s.recall (pa / 64)
    if s.lineBad pa then s.applyElems k rest fl
    else
      let n := kindBytes k
      let (v, f) := mergeElem k (Store.readNat s.mem pa n) t.toNat
      State.applyElems { s with mem := Store.writeNat s.mem pa n v } k rest (fl ||| f)

/-- Change a batch of a weft. -/
def Weft.mapBatch (w : Weft) (n : Nat) (f : Batch → Batch) : Weft :=
  { w with batches := w.batches.map (fun (b : Batch) => if b.num = n then f b else b) }

def State.mapWeft (s : State) (h : Nat) (f : Weft → Weft) : State := { s with wefts := Store.modify s.wefts h f }

/-- Apply a contribution to its part as one access: it is accepted, and its flags join its batch (R291, R313). -/
def State.applyContribution (s : State) (c : Contribution) : State :=
  let bad := c.elems.filter (fun p => s.lineBad p.1)
  let (s, fl) := s.applyElems c.kind c.elems 0
  let s := (bad.map (fun p => p.1 / 64)).eraseDups.foldl (fun (s : State) l => s.lineEvent 7 (s.asidOf (s.weft c.weft)) (l * 64)) s
  s.mapWeft c.weft (fun w => w.mapBatch c.batch (fun b => { b with flags := b.flags ||| fl, left := b.left - 1 }))

/-- A part whose sequence has not begun, or has ended (R315). -/
def AccPart.none : AccPart := { len := 0, next := 0, held := [] }

def State.acc (s : State) (part : Nat) : AccPart := Store.get AccPart.none s.accs part
def State.setAcc (s : State) (part : Nat) (a : AccPart) : State := { s with accs := Store.put AccPart.none s.accs part a }

/-- Apply held contributions of the contributor at NEXT, and go on while a final mark ends a group (R315). The fuel
bounds the groups passed. -/
def State.advanceAcc (s : State) (part : Nat) : Nat → Bool → State
  | 0, _ => s
  | _ + 1, false => s
  | fuel + 1, true =>
    let a := s.acc part
    let n := a.next + 1
    let mine := sortBy (fun c => c.ordinal) (a.held.filter (fun c => c.contrib = n))
    let s := s.setAcc part { a with next := n, held := a.held.filter (fun c => c.contrib ≠ n) }
    let s := mine.foldl (fun (s : State) c => s.applyContribution c) s
    s.advanceAcc part fuel (match mine.getLast? with | some c => c.final | none => false)

/-- The byte limit of a slice's reorder area under its cluster's split (R316). -/
def State.areaLimit (s : State) (slice : Nat) : Nat :=
  match (Store.get Cluster.reset s.clusters (slice / 256)).vsplit.toNat with
  | 3 => 2 ^ 19
  | 4 => 2 ^ 18
  | _ => 2 ^ 20

/-- Bytes of a contribution. -/
def Contribution.bytes (c : Contribution) : Nat := c.elems.length * kindBytes c.kind

/-- The reorder area of a part's slice has no room for a contribution (R316). -/
def State.areaFull (s : State) (c : Contribution) : Bool :=
  let slice (part : Nat) : Nat := sliceOf (part / 65536)
  let held := (s.accs.filter (fun p => slice p.1 = slice c.part)).flatMap (fun p => p.2.held)
  16 ≤ held.length || s.areaLimit (slice c.part) < held.foldl (fun a x => a + x.bytes) 0 + c.bytes

/-- A contribution finds no room at its slice: its turn has not come and the area is full (R316). -/
def State.accStalls (s : State) (c : Contribution) : Bool :=
  c.merge ≠ .arr && decide ((s.acc c.part).next < c.contrib) && s.areaFull c

/-- A contribution is taken at its slice (R314, R315): applied, or held for its turn. -/
def State.arriveContribution (s : State) (c : Contribution) : State :=
  if c.merge = .arr then s.applyContribution c
  else
    let a := s.acc c.part
    if c.contrib < a.next then s.applyContribution c
    else
      let a := { a with len := max a.len c.len }
      let s := s.setAcc c.part a
      if c.contrib = a.next then (s.applyContribution c).advanceAcc c.part (a.held.length + 1) c.final
      else s.setAcc c.part { a with held := a.held ++ [c] }

/-- Take a stalled contribution whose turn it is, if one can be applied or held. -/
def State.retryOne (s : State) : State :=
  match s.contribs.find? (fun c => c.stalled && !s.accStalls c) with
  | none => s
  | some c => ({ s with contribs := s.contribs.erase c } : State).arriveContribution { c with stalled := false }

/-- Retry the stalled contributions (R316); the fuel bounds the retries. -/
def State.retryStalled (s : State) : Nat → State
  | 0 => s
  | n + 1 => (s.retryOne).retryStalled n

/-- A part's sequence ends: what is held and what has stalled is applied first, in ascending contributor and program order (R317). -/
def State.endSequence (s : State) (part : Nat) : State :=
  let mine (c : Contribution) : Bool := c.stalled && c.part = part && c.merge = .ord
  let all := sortBy (fun c => c.contrib) (sortBy (fun c => c.ordinal) ((s.acc part).held ++ s.contribs.filter mine))
  let s : State := { s with contribs := s.contribs.filter (fun c => !mine c) }
  let s := all.foldl (fun (s : State) c => s.applyContribution c) (s.setAcc part AccPart.none)
  s.retryStalled s.contribs.length

/-- The parts with a sequence that has a byte among some bytes. -/
def State.partsAt (s : State) (pa n : Nat) : List Nat :=
  ((s.accs.filter (fun p => overlap p.1 p.2.len pa n)).map (·.1) ++
    (s.contribs.filter (fun c => c.stalled && c.merge = .ord && overlap c.part c.len pa n)).map (·.part)).eraseDups

/-- A write to bytes of parts ends their sequences (R317). -/
def State.endSequences (s : State) (pa n : Nat) : State := (s.partsAt pa n).foldl (fun (s : State) p => s.endSequence p) s

/-! ## Draining checkpoints (R442, R443) -/

/-- Piece bytes as the packets that carry them, 4,096 at a time (R468). -/
def chunks : Nat → List Byte → List (List Byte)
  | 0, _ => []
  | n + 1, l => if l.isEmpty then [] else l.take 4096 :: chunks n (l.drop 4096)

/-- The address space of requests that the hub makes for itself: none of a context's. -/
def hubAsid : Nat := 4096

/-- Send piece `i` of a checkpoint to its tier (R443); its packets await their answers. -/
def State.sendPiece (s : State) (c : Ckpt) (i : Nat) (data : List Byte) : State × List Nat :=
  let m := c.tiers.length
  match c.tiers[i % (max m 1)]? with
  | none => (s, [])
  | some (kind, route, base, _, _) =>
    let at_ := base + granule * (i / m)
    ((chunks 8 data).zipIdx).foldl (fun (acc : State × List Nat) p =>
      let (t, s) := acc.1.newTag
      let va := at_ + 4096 * p.2
      if kind = 2 then
        let q : Req := { tag := t, asid := hubAsid, ridx := 0, weft := 0, fid := none, thr := 0, addr := BitVec.ofNat 57 va,
                         len := p.1.length, sent := s.ltime, gw := true, typ := tPIECE, data := p.1 }
        ({ s with fab := { s.fab with reqs := s.fab.reqs ++ [q] } }, acc.2 ++ [t])
      else
        let ridx := route.toNat / 2 ^ 24 % 2 ^ 16
        let (s, e) := s.route ridx
        (s.emit (s.mkRequest e ridx tPIECE false va p.1.length t p.1), acc.2 ++ [t])) (s, [])

/-- Send every piece of a checkpoint that lies in a frame; the frame is pending no longer (R442). -/
def State.drainOf (s : State) (c : Ckpt) (frame : Nat) : State × Ckpt :=
  let data := Store.bytes s.mem (frame * granule) granule
  let (s, tags) := (c.frames.filter (fun p => p.1 = frame)).foldl (fun (acc : State × List Nat) p =>
    let (s, t) := acc.1.sendPiece c p.2 data
    (s, acc.2 ++ t)) (s, [])
  (s, { c with frames := c.frames.filter (fun p => p.1 ≠ frame), sent := c.sent ++ tags })

/-- Copy a pending frame out before it is written (R442). -/
def State.drainFrame (s : State) (frame : Nat) : State :=
  if s.ckpts.any (fun c => c.frames.any (fun p => p.1 = frame)) then
    let (s, l) := s.ckpts.foldl (fun (acc : State × List Ckpt) c =>
      let (s, c) := acc.1.drainOf c frame
      (s, acc.2 ++ [c])) (s, [])
    { s with ckpts := l }
  else s

/-! ## One weft's accesses to one address (R198) -/

/-- The physical address of a virtual one as the tables stand, without the effects of a walk. -/
def State.peekPa (s : State) (asid va : Nat) : Option Nat :=
  match s.walk asid va with
  | .leaf level _ e => some (leafPa level e va)
  | .bad _ => none

/-- The operand of an atomic operation is 8 bytes wide (R202). -/
def wide8 (tag : BitVec 6) : Bool := !(fmtOf tag = 2 || fmtOf tag = 4)
/-- Bytes of the operand. -/
def atomBytes (tag : BitVec 6) : Nat := if wide8 tag then 8 else 4

/-- Physical byte ranges that a flight's unlanded threads will read, scales among them. -/
def State.flightRanges (s : State) (asid : Nat) (f : Flight) : List (Nat × Nat) :=
  match f.kind with
  | .load _ _ enc _ smode locs _ _ _ =>
    (locs.filter (fun x => f.mask.getLsbD x.thr)).flatMap (fun x =>
      (x.at_.map (fun p => (p.1, max 1 (encBits enc / 8)))).toList ++
        (x.scale.map (fun a => (a, if smode = 1 then 1 else 4))).toList)
  | .atom _ _ _ reqs _ =>
    reqs.filterMap (fun x => if f.mask.getLsbD x.thr then x.addr.map (fun a => (a, atomBytes x.tag)) else none)
  | .waitv _ _ w64 words _ _ _ _ =>
    words.filterMap (fun x => if f.mask.getLsbD x.1 then
      (x.2.1.bind (fun va => s.peekPa asid va)).map (fun a => (a, if w64 then 8 else 4)) else none)
  | _ => []

/-- Two lists of ranges share a byte. -/
def rangesMeet (l m : List (Nat × Nat)) : Bool := l.any (fun p => m.any (fun q => overlap p.1 p.2 q.1 q.2))

/-- An earlier flight of the weft still reads bytes of the ranges. -/
def State.olderFlight (s : State) (w : Weft) (before : Nat) (l : List (Nat × Nat)) : Bool :=
  w.flights.any (fun f => f.fid < before && rangesMeet (s.flightRanges (s.asidOf w) f) l)

/-- A buffered write of the weft's bolt covers bytes of the ranges; a later one of the same weft does not count. -/
def State.boltBuffered (s : State) (h : Nat) (before : Nat) (l : List (Nat × Nat)) : Bool :=
  let w := s.weft h
  (s.core (s.coreOf w)).wbuf.any (fun e => e.bolt = w.bolt && !(e.weft = h && before < e.seq) &&
    rangesMeet [(e.pa, e.data.length)] l)

/-! ## WAITV polls (R206) -/

/-- A thread's word of a WAITV and the value it is compared with. -/
def waitvHolds (eq w64 : Bool) (word cmp : Nat) : Bool :=
  let m := if w64 then 2 ^ 64 else 2 ^ 32
  if eq then word % m = cmp % m else word % m ≠ cmp % m

/-- Drop a core's valid L1 lines: an acquire at COURSE scope or wider (R329). -/
def State.acquireL1 (s : State) (core : Nat) : State := s.setCore core { s.core core with l1 := [], l1Bad := [] }

/-- The acquire at a scope (R329). -/
def State.acquire (s : State) (core : Nat) (sc : Scope) : State :=
  match sc with
  | .weft | .bolt => s
  | _ => s.acquireL1 core

/-- Drop one line of a core's L1, so that a value read at the home is never followed by an older copy (R322). -/
def State.dropLine (s : State) (core line : Nat) : State :=
  let c := s.core core
  if c.l1.any (fun x => x.line = line) || c.l1Bad.contains line then
    s.setCore core { c with l1 := c.l1.filter (fun x => x.line ≠ line), l1Bad := c.l1Bad.filter (fun x => x ≠ line) }
  else s

/-- Lines of an L1 of 2 MiB (R3, R223). -/
def l1Lines : Nat := 32768

/-- A line leaves a full L1: it goes into a victim tag of its set with the slot of the weft whose access evicted it (R258). Which
set a line belongs to is free. -/
def pushVictim (l : List Victim) (line slot : Nat) : List Victim :=
  let v : Victim := { set := Config.l1Set line, line := line, slot := slot }
  v :: l.filter (fun x => x.set ≠ v.set) ++ (l.filter (fun x => x.set = v.set)).take 3

/-- Fill or refresh a core's L1 copy of a line from its home, for a weft in a slot; a full L1 loses the line filled longest ago
(DESIGN CHOICE, log 10). -/
def State.fillL1 (s : State) (n : Nat) (slot : Option Nat) (line : Nat) : State :=
  let c := s.core n
  let x : L1Line := { line := line, data := Store.bytes s.mem (64 * line) 64 }
  let l := x :: c.l1.filter (fun y => y.line ≠ line)
  let vs := match slot, (l.drop l1Lines).head? with
    | some i, some y => pushVictim c.victims y.line i
    | _, _ => c.victims
  s.setCore n { c with l1 := l.take l1Lines, l1Bad := c.l1Bad.filter (fun y => y ≠ line), victims := vs }

/-- A weft's access misses a line in its core's L1: a lost-locality miss when a victim tag carries the line and the weft's slot
(R258). -/
def State.noteMiss (s : State) (h line : Nat) : State :=
  let w := s.weft h
  if (s.core (s.coreOf w)).victims.any (fun v => v.line = line && w.slot = some v.slot) then
    s.setWeft h { w with misses := w.misses + 1 }
  else s

/-- Change a flight of a weft; one with no threads left is gone. -/
def Weft.setFlight (w : Weft) (fid : Nat) (f : Flight → Flight) : Weft :=
  let l := w.flights.map (fun (x : Flight) => if x.fid = fid then f x else x)
  { w with flights := l.filter (fun x => x.mask ≠ 0 || x.aborted ≠ 0) }

/-- A poll of a word waits for the weft's earlier reads of it and for its bolt's buffered writes to it (R198, R322). -/
def State.pollWaits (s : State) (h : Nat) (fid pa n : Nat) : Bool :=
  s.olderFlight (s.weft h) fid [(pa, n)] || s.boltBuffered h fid [(pa, n)]

/-- One poll of one word: fill the thread's destination when the condition holds, or note its abort. A word whose page
is not there is not read. -/
def State.pollWord (s : State) (h : Nat) (f : Flight) (d : Reg) (eq w64 : Bool) (acq : Option Scope) (tag : BitVec 6)
    (wd : Nat × Option Nat × Dword) : State :=
  let t := wd.1
  let w := s.weft h
  let land (s : State) (v : Nat) : State :=
    let s := s.mapWeft h (fun w => (w.put d t (mkCell v tag)).setFlight f.fid (fun x => { x with mask := x.mask &&& ~~~tbit t }))
    match acq with
    | some sc => s.acquire (s.coreOf w) sc
    | none => s
  if !f.mask.getLsbD t then s
  else match wd.2.1 with
    | none => if waitvHolds eq w64 0 wd.2.2.toNat then land s 0 else s
    | some va =>
      match s.translate (s.coreOf w) (s.asidOf w) va .read with
      | (s, .ok pa) =>
        if s.pollWaits h f.fid pa (if w64 then 8 else 4) then s
        else match s.homeRead pa (if w64 then 8 else 4) 1 (s.asidOf w) with
        | (s, none) =>
          s.mapWeft h (fun w => w.setFlight f.fid (fun x => { x with mask := x.mask &&& ~~~tbit t, aborted := x.aborted ||| tbit t }))
        | (s, some l) =>
          let s := s.dropLine (s.coreOf w) (pa / 64)
          if waitvHolds eq w64 (leNat l) wd.2.2.toNat then land s (leNat l) else s
      | (s, _) => s

/-- Poll every word of a WAITV flight. -/
def State.pollFlight (s : State) (h : Nat) (f : Flight) : State :=
  match f.kind with
  | .waitv d eq w64 words acq _ tag _ =>
    words.foldl (fun (s : State) wd =>
      match (s.weft h).flights.find? (fun x => x.fid = f.fid) with
      | some f' => s.pollWord h f' d eq w64 acq tag wd
      | none => s) s
  | _ => s

/-- A WAITV flight polls a word of a line, as far as the offset within a granule shows. -/
def Flight.polls (f : Flight) (pa : Nat) : Bool :=
  match f.kind with
  | .waitv _ _ _ words _ _ _ _ =>
    words.any (fun wd => match wd.2.1 with | some va => va / 64 % 512 = pa / 64 % 512 | none => false)
  | _ => false

/-- A write to a line through its home slice triggers a read of every poll of it (R206). -/
def State.triggerPolls (s : State) (pa : Nat) : State :=
  (s.wefts.flatMap (fun p => (p.2.flights.filter (fun f => f.polls pa)).map (fun f => (p.1, f)))).foldl
    (fun (s : State) x => s.pollFlight x.1 x.2) s

/-! ## Writes -/

/-- What follows every write performed at a home slice: polls and mailboxes. -/
def State.written (s : State) (pa : Nat) : State := (s.triggerPolls pa).fire pa

/-- WRITE bytes of one line at the home. `ends` says that the write ends the ordered sequences it touches (R317). A
write that does not replace an uncorrectable line whole is withheld (R364). -/
def State.writeLine (s : State) (pa : Nat) (l : List Byte) (ends : Bool) : State :=
  let s := (s.recall (pa / 64)).mendL2 (pa / 64)
  let s := if ends then s.endSequences pa l.length else s
  let s := s.drainFrame (pa / granule)
  if s.lineBad pa then
    if l.length = 64 && pa % 64 = 0 && pa < hbmSize && !s.lineLost pa then
      ({ s with memBad := s.memBad.filter (fun x => x ≠ pa / 64), mem := Store.putBytes s.mem pa l } : State).written pa
    else s.lineEvent 7 0 pa
  else ({ s with mem := Store.putBytes s.mem pa l } : State).written pa

/-- WRITE bytes at their homes, line by line. The fuel bounds the lines. -/
def State.writeLines (s : State) (ends : Bool) : Nat → Nat → List Byte → State
  | 0, _, _ => s
  | _ + 1, _, [] => s
  | n + 1, pa, l =>
    let k := 64 - pa % 64
    (s.writeLine pa (l.take k) ends).writeLines ends n (pa + k) (l.drop k)

/-- WRITE bytes at a physical address. -/
def State.homeWrite (s : State) (pa : Nat) (l : List Byte) (ends : Bool := true) : State :=
  s.writeLines ends (l.length / 64 + 2) pa l

/-- An ATOM at the home (R202, R311): combine, read, write; the value read, or an abort completion. -/
def State.homeAtom (s : State) (op : AtomOp) (n : Nat) (flt : Bool) (pa a c1 asid : Nat) : State × Option Nat :=
  match s.homeRead pa n 1 asid with
  | (s, none) => (s, none)
  | (s, some l) =>
    let old := leNat l
    (s.writeLine pa (natLe n (atomicNew op n flt old a c1)) false, some old)

/-- Where a weft's addends stand in R203's order: its course. -/
def State.courseRank (s : State) (w : Weft) : Nat := (s.courseOf w).span * 2 ^ 33 + (s.courseOf w).id

/-- One thread's RED into its core's update-only copy (R311): copies of another operation, width or ordering combine
first, and the core's valid copy of the line goes. -/
def State.redAt (s : State) (h : Nat) (x : RedEntry) : State :=
  let line := x.pa / 64
  let other := (s.redsOf line).any (fun y => y.op ≠ x.op || y.w8 ≠ x.w8 || y.ord ≠ x.ord)
  let s := if other then s.recall line else s
  let n := s.coreOf (s.weft h)
  let s := s.dropLine n line
  let c := s.core n
  s.setCore n { c with upd := c.upd ++ [x] }

/-- An addend of a weft's FADD, or the operand of another RED, at its place in R203's order. -/
def State.redEntry (s : State) (w : Weft) (seq pa : Nat) (op : AtomOp) (ord : Bool) (c : Cell) : RedEntry :=
  { course := s.courseRank w, bolt := (s.boltOf w).id, weft := w.id, seq := seq, pa := pa, op := op, w8 := wide8 c.tag,
    flt := op = .fadd, ord := ord, a := c.val }

/-- An ordered ATOM.FADD at the home: after the combine it starts the next sequence of the fold as its first contribution
(R311); the value it returns is the combined one. -/
def State.homeOrdered (s : State) (h fid : Nat) (q : AtomReq) (pa : Nat) : State × Option Nat :=
  match s.homeRead pa (atomBytes q.tag) 1 (s.asidOf (s.weft h)) with
  | (s, none) => (s, none)
  | (s, some l) => (s.redAt h (s.redEntry (s.weft h) fid pa .fadd true ⟨q.a, q.tag, true⟩), some (leNat l))

/-- A release would still wait for a global write of the bolt (R329). -/
def State.undrained (s : State) (bolt : Nat) : Bool :=
  (s.core (s.bolt bolt).core).wbuf.any (fun e => e.bolt = bolt)

end Sys2Proof.Machine
end

