-- ==== Sys2Proof/Machine/Paths.lean ====
section
/-! DEFINITION. Paths and the reconvergence stack of a weft (R98-R109): branching, JOIN, YIELD, the removal of exited and
dead threads, and the choice of the path that runs. -/

namespace Sys2Proof.Machine

/-- Make a path pending in a list of paths; two paths at one PC merge (R100). -/
def addPath (p : Path) : List Path → List Path
  | [] => [p]
  | q :: t => if q.pc = p.pc then { q with mask := q.mask ||| p.mask } :: t else q :: addPath p t

/-- The pending path with the lowest PC and the others. -/
def lowestPath : List Path → Option (Path × List Path)
  | [] => none
  | p :: t =>
    match lowestPath t with
    | none => some (p, t)
    | some (q, r) => if p.pc.toNat ≤ q.pc.toNat then some (p, t) else some (q, p :: r)

/-- With a path running, merge it with a pending path that stands at its PC, and pop every entry that has collapsed
(R100). The fuel bounds the entries popped. -/
def collapse : Nat → Path → List REntry → Path × List REntry
  | 0, p, st => (p, st)
  | _ + 1, p, [] => (p, [])
  | n + 1, p, e :: rest =>
    let same := e.pend.filter (fun q => q.pc = p.pc)
    let p' : Path := { p with mask := same.foldl (fun m q => m ||| q.mask) p.mask }
    let pend := e.pend.filter (fun q => q.pc ≠ p.pc)
    if e.arr = 0 && pend.isEmpty && p'.mask = e.jset then collapse n p' rest
    else (p', { e with pend := pend } :: rest)

/-- With no path running, take the next one (R100, R103): an entry all of whose threads have arrived releases, its path
continuing at the resume address or arriving at the entry below when that one carries the same tag; otherwise the top
entry's pending path with the lowest PC runs. `none` when nothing is left. -/
def runNext : Nat → List REntry → Option (Path × List REntry)
  | 0, _ => none
  | _ + 1, [] => none
  | n + 1, e :: rest =>
    match lowestPath e.pend with
    | some (p, others) => some (collapse (rest.length + 2) p ({ e with pend := others } :: rest))
    | none =>
      if e.arr ≠ e.jset then none
      else if e.arr = 0 then runNext n rest
      else
        match rest with
        | d :: ds =>
          if d.tag = e.tag && e.arr &&& ~~~d.jset = 0 then
            runNext n ({ d with arr := d.arr ||| e.arr,
                                rpc := match d.rpc with | some x => some x | none => e.rpc } :: ds)
          else some (collapse (rest.length + 2) ⟨e.rpc.getD 0, e.arr⟩ rest)
        | [] => some (⟨e.rpc.getD 0, e.arr⟩, [])

/-- Let the next path run, or leave the weft without an active thread. -/
def Weft.nextPath (w : Weft) : Weft :=
  match runNext (w.stack.length + 1) w.stack with
  | some (p, st) => { w with pc := p.pc, active := p.mask, stack := st }
  | none => { w with active := 0 }

/-- Move the running path to a PC, merging and collapsing as R100 lays down. -/
def Weft.goto (w : Weft) (pc : Va) : Weft :=
  let (p, st) := collapse (w.stack.length + 1) ⟨pc, w.active⟩ w.stack
  { w with pc := p.pc, active := p.mask, stack := st }

/-- A branch of the running path to the given paths, one per thread set (R99). One path moves whole; more push an entry
with the branch's join tag. -/
def Weft.branch (w : Weft) (tag : BitVec 8) (ps : List Path) : Weft :=
  match ps.foldl (fun l p => if p.mask = 0 then l else addPath p l) [] with
  | [] => w
  | [p] => w.goto p.pc
  | l => Weft.nextPath { w with active := 0, stack := ⟨tag, w.active, 0, none, l⟩ :: w.stack }

/-- Entries above the uppermost one that carries a tag lose the threads of a path that joins it (R102). -/
def joinAt (tag : BitVec 8) (m : Mask) (rpc : Va) : List REntry → Option (List REntry)
  | [] => none
  | e :: rest =>
    if e.tag = tag then
      some ({ e with arr := e.arr ||| m, rpc := match e.rpc with | some x => some x | none => some rpc } :: rest)
    else (joinAt tag m rpc rest).map (fun r => { e with jset := e.jset &&& ~~~m } :: r)

/-- JOIN (R102): `next` is the PC after it. -/
def Weft.join (w : Weft) (tag : BitVec 8) (next : Va) : Weft :=
  match joinAt tag w.active next w.stack with
  | none => w.goto next
  | some st => Weft.nextPath { w with active := 0, stack := st }

/-- YIELD (R106): the running path becomes pending at `next`, and the pending path with the lowest PC above it runs, or
the lowest of all. Alone in its entry, or with an empty stack, the path goes on. -/
def Weft.yield (w : Weft) (next : Va) : Weft :=
  match w.stack with
  | [] => w.goto next
  | e :: rest =>
    if e.pend.isEmpty then w.goto next
    else
      let l := addPath ⟨next, w.active⟩ e.pend
      let pick := match lowestPath (l.filter (fun p => next.toNat < p.pc.toNat)) with
        | some (p, _) => some p
        | none => (lowestPath l).map (·.1)
      match pick with
      | none => w.goto next
      | some p =>
        let (q, st) := collapse (w.stack.length + 1) p ({ e with pend := l.filter (fun x => x.pc ≠ p.pc) } :: rest)
        { w with pc := q.pc, active := q.mask, stack := st }

/-- Remove threads from an entry (R108). -/
def REntry.remove (e : REntry) (m : Mask) : REntry :=
  { e with jset := e.jset &&& ~~~m, arr := e.arr &&& ~~~m,
           pend := (e.pend.map (fun p => { p with mask := p.mask &&& ~~~m })).filter (fun p => p.mask ≠ 0) }

/-- Remove threads that have exited or died from the paths and the stack (R108, R109). -/
def Weft.leave (w : Weft) (m : Mask) : Weft :=
  let w' : Weft := { w with active := w.active &&& ~~~m, stack := w.stack.map (fun (e : REntry) => e.remove m) }
  if w'.alive = 0 then { w' with active := 0, stack := [] }
  else if w'.active = 0 then w'.nextPath
  else w'.goto w'.pc

/-- The threads of a mask exit (R108). -/
def Weft.exitThreads (w : Weft) (m : Mask) : Weft := { w with exm := w.exm ||| m }.leave m

/-- The threads of a mask die (R109). -/
def Weft.killThreads (w : Weft) (m : Mask) : Weft := { w with dlm := w.dlm ||| m }.leave m

/-- A weft all of whose threads have exited or died issues nothing more: it leaves its barrel slot and ends once what it
issued has been accepted (R108, R159). -/
def State.retireIfEmpty (s : State) (h : Nat) : State :=
  let w := s.weft h
  if w.alive = 0 && (w.status = .active || w.status = .ready || w.status = .pending) then
    (s.setWeft h { w with status := .pending, slot := none, wait := some .drain, repeatPhase := none }).admitWefts (s.coreOf w)
  else s

/-- Threads of a weft die: the weft loses them and its barriers see them depart (R109, R230). -/
def State.kill (s : State) (h : Nat) (m : Mask) : State :=
  let w := s.weft h
  let d := m &&& w.alive
  if d = 0 then s
  else (((s.setWeft h (w.killThreads d)).depart w.bolt w.id d).retireIfEmpty h).wake

/-- Threads of a weft exit: as for death, with EXM for DLM (R108, R230). -/
def State.exit (s : State) (h : Nat) (m : Mask) : State :=
  let w := s.weft h
  (((s.setWeft h (w.exitThreads m)).depart w.bolt w.id m).retireIfEmpty h).wake

/-- The running path's PC after an instruction of `len` bytes that transfers no control. -/
def Weft.advance (w : Weft) (len : Nat) : Weft := w.goto (nextPc w.pc len)

end Sys2Proof.Machine
end

