-- ==== Sys2Proof/Machine/Operands.lean ====
section
/-! DEFINITION. Operand forms of the weft instructions: the classes and counts of step 7 of R36, the protected-mode limit
of step 8, full and empty registers (step 9, R94), tags (step 10, R55), the threads an instruction selects (R26 to R28),
immediates (R20), and what an instruction's execution comes to. -/

namespace Sys2Proof.Machine

/-- Register classes (R29). -/
inductive RC where | v | s | k | z | l
  deriving DecidableEq, Repr

/-- The class of a register field; a reserved encoding has none. -/
def regClass : Reg → Option RC
  | .v _ => some .v
  | .s _ => some .s
  | .k _ => some .k
  | .zero => some .z
  | .lane => some .l
  | .bad _ => none

/-- A register operand: its field number as TRAPCAUSE.FIELD counts (R175), register, TE bit, classes its entry accepts,
whether it is a destination, the registers it spans, the formats step 10 accepts (none: any), and the threads whose copies
it reads where those are not the selected ones (R151, R164). -/
structure Opnd where
  fld : Nat
  reg : Reg
  te : Bool
  cls : List RC
  dst : Bool
  cnt : Nat
  tags : Option (List Nat)
  at_ : Option Mask
  deriving DecidableEq, Repr

/-- The operands of an instruction in the order of R36, the buffer records it names, whether it is a matrix instruction
(R113), and a field its entry finds wrong for another reason. -/
structure Form where
  g : Guard
  ops : List Opnd
  recs : List Nat
  matrix : Bool
  wrong : Option Nat
  deriving DecidableEq, Repr

/-- A form with no records. -/
def Form.plain (g : Guard) (ops : List Opnd) : Form := { g := g, ops := ops, recs := [], matrix := false, wrong := none }

/-! ## Building operands -/

/-- A source. -/
def opS (fld : Nat) (cls : List RC) (tags : Option (List Nat)) (a : Src) : Opnd :=
  { fld := fld, reg := a.reg, te := a.te, cls := cls, dst := false, cnt := 1, tags := tags, at_ := none }
/-- A source that the immediate may replace. -/
def opSI (fld : Nat) (cls : List RC) (tags : Option (List Nat)) : SrcI → List Opnd
  | .reg a => [opS fld cls tags a]
  | .imm _ => []
/-- A destination. -/
def opDst (fld : Nat) (cls : List RC) (r : Reg) : Opnd :=
  { fld := fld, reg := r, te := false, cls := cls, dst := true, cnt := 1, tags := none, at_ := none }
/-- The destination field. -/
def opD (cls : List RC) (r : Reg) : Opnd := opDst 4 cls r

/-- Classes of an integer source (R121), of a floating-point source (R131), of a per-thread destination. -/
abbrev cInt : List RC := [.v, .s, .z, .l]
abbrev cFlt : List RC := [.v, .s, .z]
abbrev cDst : List RC := [.v, .z]
/-- Formats of an integer operand (R55). -/
abbrev tInt : Option (List Nat) := some [1, 2]

/-- Bytes of an instruction whose source B may be an immediate. -/
def lenI : SrcI → Nat
  | .reg _ => 8
  | .imm _ => 12
/-- Bytes of an instruction with an optional addend. -/
def lenA : Option (BitVec 32) → Nat
  | none => 8
  | some _ => 12

/-! ## Reading operands -/

/-- Sext(imm, 64) as an INT64 value (R20). -/
def immCell (v : BitVec 32) : Cell := ⟨v.signExtend 64, tagI64, true⟩

/-- What an integer or bitwise source delivers. -/
def Weft.src (w : Weft) (a : SrcI) (t : Nat) : Cell :=
  match a with
  | .reg r => w.cell r.reg t
  | .imm v => immCell v

/-- A signed addend. -/
def addInt : Option (BitVec 32) → Int
  | none => 0
  | some v => v.toInt

/-- Threads an instruction computes for: once for a uniform one, by thread otherwise. -/
def lanesOf (g : Guard) (sel : Mask) : List Nat := if g.uni then [0] else threads sel

/-- The threads that the predicate selects among the live active ones (R28). -/
def Weft.selected (w : Weft) (g : Guard) : Mask :=
  w.live &&& (if g.neg then ~~~(w.k g.pred) else w.k g.pred)

/-! ## Steps 7 to 10 of R36 -/

/-- The registers of an operand. -/
def Opnd.regs (o : Opnd) : List Reg := (List.range o.cnt).map (fun i => regPlus o.reg i)

/-- The index of the last register spanned, before it wraps. -/
def Opnd.last (o : Opnd) : Nat :=
  match o.reg with
  | .v n => n.toNat + o.cnt - 1
  | .s n => n.toNat + o.cnt - 1
  | _ => 0

/-- The classes an operand accepts: a uniform instruction names scalars for vectors (R26). -/
def Opnd.classes (o : Opnd) (uni : Bool) : List RC :=
  if uni then
    (if o.dst && o.cls.contains .v then [RC.s] else []) ++ o.cls.filter (fun c => c = .s || c = .z || c = .k)
  else o.cls

/-- Step 7 for one operand: class and declared counts (R29, R30). -/
def Opnd.regOk (o : Opnd) (uni : Bool) (w : Weft) : Bool :=
  match regClass o.reg with
  | none => false
  | some c =>
    (o.classes uni).contains c &&
      (match c with
       | .v => o.last < w.vregs
       | .s => o.last < w.sregs
       | _ => true)

/-- The register field at fault that comes first in the order of R36: the operands' own, and the one the entry finds wrong, which
stands before a later source and before DST. -/
def Form.badField (f : Form) (w : Weft) : Option Nat :=
  match f.ops.find? (fun o => !o.regOk f.g.uni w), f.wrong with
  | some o, some n => some (if o.dst || n < o.fld then n else o.fld)
  | some o, none => some o.fld
  | none, x => x

/-- Steps 7 and 8 of R36: the fault of a form, if it has one. -/
def Form.decodeFault (f : Form) (s : State) (w : Weft) : Option Trap :=
  match f.badField w with
  | some n => some (w.fault cRegister (field := n))
  | none =>
    match f.recs.find? (fun r => (s.boltOf w).recs.length ≤ r) with
    | some r => some (w.fault cMissing (info := r))
    | none => if f.matrix && w.prot then some (w.fault cProtected) else none

/-- Threads in which some register of an operand is empty. A scalar counts for every selected thread. -/
def Opnd.emptyIn (o : Opnd) (w : Weft) (sel : Mask) : Mask :=
  let m := o.at_.getD sel
  match regClass o.reg with
  | some .v => maskOf ((threads m).filter (fun t => o.regs.any (fun r => !w.fullAt r t)))
  | some .s => if o.regs.any (fun r => !w.fullAt r 0) then sel else 0
  | _ => 0

/-- A register is a scalar whose producer was aborted (R110). -/
def Weft.isAborted (w : Weft) (r : Reg) : Bool :=
  match r with
  | .s n => w.sAbort.contains n.toNat && !w.fullAt r 0
  | _ => false

/-- What step 9 finds. -/
inductive Ready where
  | go
  | trap (t : Trap)
  | hold (wt : Wait)
  deriving DecidableEq, Repr

/-- Step 9 (R94, R110): sources with TE set, then a scalar source whose producer was aborted, then blocking on the empty sources
and on a destination still empty, an aborted one too (DEDUCED, log 35). A scalar destination is waited for under no thread's name. -/
def Form.ready (f : Form) (w : Weft) (sel : Mask) : Ready :=
  match f.ops.find? (fun o => !o.dst && o.te && o.emptyIn w sel ≠ 0) with
  | some o => .trap (w.fault cEmpty (field := o.fld) (mask := o.emptyIn w sel))
  | none =>
    match f.ops.find? (fun o => !o.dst && o.regs.any (fun r => w.isAborted r)) with
    | some o => .trap (w.fault cAbort (field := o.fld) (mask := sel))
    | none =>
      let l := f.ops.flatMap (fun o =>
        let m := o.emptyIn w sel
        if m = 0 then [] else
          o.regs.filterMap (fun r =>
            match regClass r with
            | some .v => some (r, maskOf ((threads m).filter (fun t => !w.fullAt r t)))
            | _ => if w.fullAt r 0 then none else some (r, if o.dst then 0 else sel)))
      if l.isEmpty then .go else .hold (.register l)

/-- Threads whose copy of an operand carries a tag it does not accept (R55); ZERO, LANE and masks pass. -/
def Opnd.badTags (o : Opnd) (w : Weft) (sel : Mask) : Mask :=
  match o.tags with
  | none => 0
  | some l =>
    match regClass o.reg with
    | some .v => maskOf ((threads sel).filter (fun t => !l.contains (fmtOf (w.cell o.reg t).tag)))
    | some .s => if l.contains (fmtOf (w.cell o.reg 0).tag) then 0 else sel
    | _ => 0

/-- Step 10: the first operand whose tag is not accepted. -/
def Form.tagFault (f : Form) (w : Weft) (sel : Mask) : Option Trap :=
  (f.ops.find? (fun o => o.badTags w sel ≠ 0)).map (fun o =>
    w.fault cTag (field := o.fld) (mask := o.badTags w sel))

/-! ## Execution -/

/-- What the execution of a weft instruction comes to: it completes and the path goes on after it; it completes and has
moved the path itself; it faults; or the weft holds at it. -/
inductive Eff where
  | done (s : State)
  | moved (s : State)
  | trap (s : State) (t : Trap)
  | hold (s : State) (wt : Wait)
  deriving DecidableEq

/-- The threads of which a form reads an uncorrectable vector word (R361). -/
def Form.badThreads (f : Form) (w : Weft) (sel : Mask) : Mask :=
  maskOf ((threads sel).filter (fun t => f.ops.any (fun o => !o.dst && o.regs.any (fun r => match r with
    | .v n => w.bad.contains (vkey n.toNat t)
    | _ => false))))

/-- The first scalar source whose word is uncorrectable: the operand and the word's key. -/
def Form.badScalar (f : Form) (w : Weft) : Option (Opnd × Nat) :=
  f.ops.findSome? (fun o => if o.dst then none else o.regs.findSome? (fun r => match r with
    | .s n => if w.bad.contains (skey n.toNat) then some (o, skey n.toNat) else none
    | _ => none))

/-- An uncorrectable register word answers its read with an abort completion (R362): a scalar's read traps the weft (R110), a vector
word's kills the thread, and the instruction goes on for the others (R109; DEDUCED, log 148). None where every word reads. -/
def State.regAbort (s : State) (h : Nat) (f : Form) (w : Weft) (sel : Mask) : Option Eff :=
  if w.bad.isEmpty then none
  else match f.badScalar w with
    | some (o, k) => some (.trap (s.errEvent 1 2 (s.asidOf w) (.reg h k)) (w.fault cAbort (field := o.fld) (mask := sel)))
    | none =>
      let m := f.badThreads w sel
      if m = 0 then none
      else some (.moved (((threads m).foldl (fun (s : State) t => s.errEvent 1 1 (s.asidOf w) (.reg h t)) s).kill h m))

/-- Execute a form's body once steps 7 to 10 have passed. An instruction that selects no thread has no effect (R26,
R28). -/
def State.operate (s : State) (h : Nat) (f : Form) (body : Weft → Mask → Eff) : Eff :=
  let w := s.weft h
  match f.decodeFault s w with
  | some t => .trap s t
  | none =>
    let sel := w.selected f.g
    if sel = 0 then .done s
    else match f.ready w sel with
      | .trap t => .trap s t
      | .hold x => .hold s x
      | .go =>
        match s.regAbort h f w sel with
        | some e => e
        | none =>
          match f.tagFault w sel with
          | some t => .trap s t
          | none => body w sel

/-- The wait of a weft ends. -/
def Weft.cleared (w : Weft) : Weft := { w with wait := none, repeatPhase := none, relTags := none }

/-- What an execution leaves: the next state of the machine. -/
def Eff.settle (h len : Nat) : Eff → State
  | .done s => s.setWeft h ((s.weft h).cleared.advance len)
  | .moved s => s
  | .trap s t => takeTrap (s.setWeft h { s.weft h with relTags := none }) h t
  | .hold s x => s.setWeft h { s.weft h with wait := some x }

/-! ## Both threads of a pair (R113, R114) -/

/-- What the comparison of a pair looks at: all but the registers, which may hold what loads brought, and the producers in flight
in which the two threads differ already. -/
def Weft.visible (w : Weft) (skip : List Flight) : Weft :=
  { w with vr := [], ks := [], oddV := [], oddK := [], oddF := [],
           flights := w.flights.filter (fun f => !skip.any (fun x => x.fid = f.fid)) }

/-- The same of an execution. -/
def Eff.visible (h : Nat) (skip : List Flight) (e : Eff) : Eff :=
  let see (s : State) : State := { s with wefts := Store.modify s.wefts h (fun w => w.visible skip) }
  match e with
  | .done s => .done (see s)
  | .moved s => .moved (see s)
  | .trap s t => .trap (see s) t
  | .hold s x => .hold (see s) x

/-- The state an execution leaves. -/
def Eff.state : Eff → State
  | .done s | .moved s | .trap s _ | .hold s _ => s

/-- The two executions of an instruction give a mask register two new values. -/
def masksClash (w a b : Weft) : Bool :=
  (List.range 8).any (fun n =>
    let k (x : Weft) := x.k (BitVec.ofNat 3 n)
    k a ≠ k b && (k a ≠ k w || k b ≠ k w.oddView))

/-- The even and the odd threads of a mask execute an instruction differently (R114). -/
def State.pairClash (s : State) (h : Nat) (f : State → Nat → Eff) (m : Mask) : Bool :=
  let w := s.weft h
  let e := f (s.setWeft h { w with active := w.active &&& m }) h
  let o := f (s.setWeft h { w.oddView with active := w.active &&& m }) h
  e.visible h w.oddF ≠ o.visible h w.oddF || masksClash w (e.state.weft h) (o.state.weft h)

/-- The protected-mode mismatch fault, which reports the lowest pair that disagrees (R114). -/
def State.mismatch (s : State) (h : Nat) (f : State → Nat → Eff) : Trap :=
  let w := s.weft h
  w.fault cProtected (mask := tbit (((threads w.live).find? (fun t => s.pairClash h f (tbit t))).getD 0))

/-- An instruction of a weft in which some pair disagrees: the odd threads execute it as the even ones do. At a point of R114 the
two executions are compared and a mismatch withholds the effect; elsewhere each thread keeps its own result, and where only one of
the two faults, the even threads decide (log 9). An empty register of either holds both. -/
def State.runPair (s : State) (h : Nat) (point : Bool) (f : State → Nat → Eff) : Eff :=
  match f s h, f (s.setWeft h (s.weft h).oddView) h with
  | .hold a x, _ => .hold a x
  | _, .hold _ x => .hold s x
  | e, o =>
    if point && s.pairClash h f (BitVec.allOnes 32) then .trap s (s.mismatch h f)
    else match e, o with
      | .done a, .done b => .done (a.withOdd h b)
      | .moved a, .moved b => .moved (a.withOdd h b)
      | e, _ => e

/-- Run a meaning for the weft whose turn it is (R86): it must stand in a barrel slot. In a weft whose pairs all agree the two
executions of a pair are one. -/
def runAt (point : Bool) (s : State) (len : Nat) (f : State → Nat → Eff) : Out :=
  if (s.weft s.cur).status = .active then
    .next (((if (s.weft s.cur).shadowed then s.runPair s.cur point f else f s s.cur).settle s.cur len).wake)
  else .refused .noWeft

/-- Run an instruction whose pairs are compared when it is uniform (R114). -/
abbrev runWeft (g : Guard) (s : State) (len : Nat) (f : State → Nat → Eff) : Out := runAt g.uni s len f

/-- Run an instruction that is one of R114's points. -/
abbrev runPoint (s : State) (len : Nat) (f : State → Nat → Eff) : Out := runAt true s len f

end Sys2Proof.Machine
end

