-- ==== Sys2Proof/Machine/Flags.lean ====
section
/-! DEFINITION. FPCTL and FPSTAT (R65 to R70): the rounding mode that holds, flushing, the sticky flags of an instruction,
the invalid-operation trap, and writing the results of an instruction with its flags. -/

namespace Sys2Proof.Machine

/-- FPCTL.RMODE as a mode (R65). SETSR and RESTORE refuse the reserved codes 000, 110 and 111, so no weft holds one; the
function is total and rounds them as 001 does (DESIGN CHOICE, log 135). -/
def rndOfCode (c : Nat) : Rnd :=
  match c with
  | 2 => .rtz
  | 3 => .rup
  | 4 => .rdn
  | 5 => .rna
  | _ => .rne

/-- The mode FPCTL holds. -/
def Weft.ctlMode (w : Weft) : Rnd := rndOfCode (w.fpctl.toNat % 8)
/-- FPCTL.FTZ. -/
def Weft.ftz (w : Weft) : Bool := w.fpctl.getLsbD 6
/-- FPCTL.INVT. -/
def Weft.invt (w : Weft) : Bool := w.fpctl.getLsbD 7

/-- The mode of an instruction (R63). -/
def Weft.mode (w : Weft) (r : RMode) : Rnd :=
  match r with
  | .fpctl => w.ctlMode
  | .rne => .rne
  | .rtz => .rtz
  | .rup => .rup
  | .rdn => .rdn
  | .rna => .rna

/-- Set flags in FPSTAT; they are sticky (R66). -/
def Weft.raise (w : Weft) (fl : Flags) : Weft := { w with fpstat := w.fpstat ||| fl.zeroExtend 64 }

/-- One thread's result: its value and the flags it raises. -/
structure Lane where
  t : Nat
  c : Cell
  fl : Flags
  deriving DecidableEq, Repr

/-- The OR of the flags of all threads (R67). -/
def orFlags (l : List Lane) : Flags := l.foldl (fun a x => a ||| x.fl) 0

/-- The threads that raise NV. -/
def nvMask (l : List Lane) : Mask := maskOf ((l.filter (fun x => x.fl &&& Flags.nv ≠ 0)).map (fun x => x.t))

/-- The fault of R70, if INVT is set and some thread raises NV; a uniform instruction names the selected threads. -/
def Weft.invalid (w : Weft) (uni : Bool) (sel : Mask) (l : List Lane) : Option Trap :=
  if w.invt && nvMask l ≠ 0 then some (w.fault cInvalid (mask := if uni then sel else nvMask l)) else none

/-- Write results and flags, or fault under INVT and write nothing (R67, R70). -/
def State.writeLanes (s : State) (h : Nat) (d : Reg) (uni : Bool) (sel : Mask) (l : List Lane) : Eff :=
  let w := s.weft h
  match w.invalid uni sel l with
  | some t => .trap s t
  | none => .done (s.setWeft h ((w.putAll d (l.map (fun x => (x.t, x.c)))).raise (orFlags l)))

/-- Write a mask with the flags of the threads that made it. -/
def State.writeMask (s : State) (h : Nat) (d : Reg) (uni : Bool) (sel m : Mask) (l : List Lane) : Eff :=
  let w := s.weft h
  match w.invalid uni sel l with
  | some t => .trap s t
  | none =>
    match d with
    | .k n => .done (s.setWeft h ((w.setK n m).raise (orFlags l)))
    | _ => .done (s.setWeft h (w.raise (orFlags l)))

/-- An instruction that computes one value per thread, or once when uniform. -/
def computed (f : Form) (d : Reg) (val : Weft → Nat → Cell × Flags) (s : State) (h : Nat) : Eff :=
  s.operate h f (fun w sel => s.writeLanes h d f.g.uni sel ((lanesOf f.g sel).map (fun t =>
    let r := val w t
    ⟨t, r.1, r.2⟩)))

/-- A comparison into a mask (R125): each selected thread's bit, or all 32 bits when uniform. -/
def compared (f : Form) (d : Reg) (val : Weft → Nat → Bool × Flags) (s : State) (h : Nat) : Eff :=
  s.operate h f (fun w sel =>
    let l := (lanesOf f.g sel).map (fun t => (t, val w t))
    let ls : List Lane := l.map (fun p => ⟨p.1, Cell.launch, p.2.2⟩)
    let hit := maskOf ((l.filter (fun p => p.2.1)).map (fun p => p.1))
    let old : Mask := match d with | .k n => w.k n | _ => 0
    let m := if f.g.uni then (if hit = 0 then 0 else 0xFFFFFFFF) else (old &&& ~~~sel) ||| hit
    s.writeMask h d f.g.uni sel m ls)

end Sys2Proof.Machine
end

