-- ==== Sys2Proof/Machine/Integer.lean ====
section
/-! DEFINITION. Integer and address arithmetic, comparison and selection, bitwise, shift and bit-field instructions
(R121 to R130). -/

namespace Sys2Proof.Machine

/-- The width an integer instruction names (R34). -/
def widthOf (w32 : Bool) : Nat := if w32 then 32 else 64

/-- A register source read as an integer (R121). -/
def Weft.int (w : Weft) (W : Nat) (un : Bool) (a : Src) (t : Nat) : Int := readInt (w.cell a.reg t) W un
/-- Source B read as an integer, from a register or the immediate. -/
def Weft.intB (w : Weft) (W : Nat) (un : Bool) (b : SrcI) (t : Nat) : Int := readInt (w.src b t) W un

def unForm (g : Guard) (cls : List RC) (tags : Option (List Nat)) (d : Reg) (a : Src) : Form :=
  .plain g [opS 1 cls tags a, opD cDst d]
def binForm (g : Guard) (cls : List RC) (tags : Option (List Nat)) (d : Reg) (a : Src) (b : SrcI) : Form :=
  .plain g ([opS 1 cls tags a] ++ opSI 2 cls tags b ++ [opD cDst d])
def triForm (g : Guard) (cls : List RC) (tags : Option (List Nat)) (d : Reg) (a : Src) (b : SrcI) (c : Src) : Form :=
  .plain g ([opS 1 cls tags a] ++ opSI 2 cls tags b ++ [opS 3 cls tags c, opD cDst d])

/-- An integer instruction of one source (R122). -/
def intUn (o : IUn) (x : Int → Int) (s : State) : Out :=
  let W := widthOf o.m.w32
  runWeft o.g s 8 (computed (unForm o.g cInt tInt o.d o.a) o.d (fun w t =>
    finish (x (w.int W o.m.un o.a t)) W o.m.un o.m.sat))

/-- An integer instruction of two sources (R122). -/
def intBin (o : IBin) (x : Nat → Int → Int → Int) (s : State) : Out :=
  let W := widthOf o.m.w32
  runWeft o.g s (lenI o.b) (computed (binForm o.g cInt tInt o.d o.a o.b) o.d (fun w t =>
    finish (x W (w.int W o.m.un o.a t) (w.intB W o.m.un o.b t)) W o.m.un o.m.sat))

/-- IADD (R122). -/
def execIadd (o : IBin) (s : State) : Out := intBin o (fun _ a b => a + b) s
/-- ISUB (R122). -/
def execIsub (o : IBin) (s : State) : Out := intBin o (fun _ a b => a - b) s
/-- INEG (R122). -/
def execIneg (o : IUn) (s : State) : Out := intUn o (fun a => -a) s
/-- IMUL (R122). -/
def execImul (o : IBin) (s : State) : Out := intBin o (fun _ a b => a * b) s
/-- IMULHI: the high half of the product (R122). -/
def execImulhi (o : IBin) (s : State) : Out := intBin o (fun W a b => (a * b) / 2 ^ W) s
/-- IMAD (R122). -/
def execImad (o : ITri) (s : State) : Out :=
  let W := widthOf o.m.w32
  runWeft o.g s (lenI o.b) (computed (triForm o.g cInt tInt o.d o.a o.b o.c) o.d (fun w t =>
    finish (w.int W o.m.un o.a t * w.intB W o.m.un o.b t + w.int W o.m.un o.c t) W o.m.un o.m.sat))
/-- IMIN (R122). -/
def execImin (o : IBin) (s : State) : Out := intBin o (fun _ a b => min a b) s
/-- IMAX (R122). -/
def execImax (o : IBin) (s : State) : Out := intBin o (fun _ a b => max a b) s
/-- IABS (R122). -/
def execIabs (o : IUn) (s : State) : Out := intUn o (fun a => (a.natAbs : Int)) s

/-- ISEL (R126): A when C is not zero, B when it is. -/
def execIsel (o : ITri) (s : State) : Out :=
  let W := widthOf o.m.w32
  runWeft o.g s (lenI o.b) (computed (triForm o.g cInt tInt o.d o.a o.b o.c) o.d (fun w t =>
    finish (if w.int W false o.c t ≠ 0 then w.int W false o.a t else w.intB W false o.b t) W false false))

/-- A condition of R124. -/
def ICond.holds (c : ICond) (a b : Int) : Bool :=
  match c with
  | .eq => a = b
  | .ne => a ≠ b
  | .lt => a < b
  | .le => a ≤ b
  | .gt => b < a
  | .ge => b ≤ a

/-- The outcome of a comparison in a thread. -/
def icmpHolds (o : ICmpArgs) (w : Weft) (t : Nat) : Bool :=
  let W := widthOf o.w32
  ICond.holds o.cond (w.int W o.un o.a t) (w.intB W o.un o.b t)

/-- ICMPK (R125). -/
def execIcmpk (o : ICmpArgs) (s : State) : Out :=
  runWeft o.g s (lenI o.b) (compared (.plain o.g ([opS 1 cInt tInt o.a] ++ opSI 2 cInt tInt o.b ++ [opD [.k] o.d])) o.d
    (fun w t => (icmpHolds o w t, 0)))

/-- ICMP (R126). -/
def execIcmp (o : ICmpArgs) (s : State) : Out :=
  runWeft o.g s (lenI o.b) (computed (binForm o.g cInt tInt o.d o.a o.b) o.d (fun w t =>
    (mkCell (if icmpHolds o w t then 1 else 0) (intTag (widthOf o.w32)), 0)))

/-- LEA (R123). -/
def execLea (o : LeaArgs) (s : State) : Out :=
  runWeft o.g s (lenI o.b) (computed (binForm o.g cInt tInt o.d o.a o.b) o.d (fun w t =>
    finish (w.int 64 o.un o.a t + w.intB 64 o.un o.b t * 2 ^ o.n.toNat) 64 o.un false))

/-! ## Bitwise (R127) -/

/-- The tags of the sources that take part in the tag rule: registers other than ZERO (R494). -/
def bitTag (w : Weft) (t : Nat) (l : List Reg) : BitVec 6 :=
  match l.filter (fun r => r ≠ .zero) with
  | [] => tagRAW
  | r :: rest =>
    let g := (w.cell r t).tag
    if rest.all (fun x => (w.cell x t).tag = g) then g else tagRAW

/-- The register sources of a bitwise instruction. -/
def bitRegs (a : Src) : SrcI → List Reg
  | .reg b => [a.reg, b.reg]
  | .imm _ => [a.reg]

/-- A bitwise instruction of two sources. -/
def bitBin (o : LBin) (f : Dword → Dword → Dword) (s : State) : Out :=
  runWeft o.g s (lenI o.b) (computed (binForm o.g cInt none o.d o.a o.b) o.d (fun w t =>
    (mkCell (f (w.cell o.a.reg t).val (w.src o.b t).val).toNat (bitTag w t (bitRegs o.a o.b)), 0)))

/-- AND (R127). -/
def execAnd (o : LBin) (s : State) : Out := bitBin o (fun a b => a &&& b) s
/-- OR (R127). -/
def execOr (o : LBin) (s : State) : Out := bitBin o (fun a b => a ||| b) s
/-- XOR (R127). -/
def execXor (o : LBin) (s : State) : Out := bitBin o (fun a b => a ^^^ b) s
/-- ANDN (R127). -/
def execAndn (o : LBin) (s : State) : Out := bitBin o (fun a b => a &&& ~~~b) s
/-- NOT (R127). -/
def execNot (o : LUn) (s : State) : Out :=
  runWeft o.g s 8 (computed (unForm o.g cInt none o.d o.a) o.d (fun w t =>
    (mkCell (~~~(w.cell o.a.reg t).val).toNat (bitTag w t [o.a.reg]), 0)))

/-! ## Shifts and bit fields (R128 to R130) -/

/-- The bits of a register source at a width; an INT32 read at 64 bits is extended by the instruction's signedness. -/
def Weft.bitsOf (w : Weft) (W : Nat) (un : Bool) (a : Src) (t : Nat) : Nat := wrapNat W (w.int W un a t)

/-- The bits of a register source of an instruction without .UN. -/
def Weft.bitsA (w : Weft) (W : Nat) (a : Src) (t : Nat) : Nat := w.bitsOf W false a t

/-- Bits `l` of source B at bit `n` (R128, R129). -/
def Weft.fieldB (w : Weft) (b : SrcI) (t n l : Nat) : Nat :=
  (wrapNat 64 (readInt (w.src b t) 64 false)) / 2 ^ n % 2 ^ l

/-- A shift or a bit-field instruction whose result is W bits and sets no flag. -/
def shiftOp (o : IBin) (f : Weft → Nat → Nat → Nat) (s : State) : Out :=
  let W := widthOf o.m.w32
  runWeft o.g s (lenI o.b) (computed (binForm o.g cInt tInt o.d o.a o.b) o.d (fun w t =>
    (mkCell (f w t W % 2 ^ W) (intTag W), 0)))

/-- SHL (R128). -/
def execShl (o : IBin) (s : State) : Out :=
  let W := widthOf o.m.w32
  runWeft o.g s (lenI o.b) (computed (binForm o.g cInt tInt o.d o.a o.b) o.d (fun w t =>
    finish (w.int W o.m.un o.a t * 2 ^ w.fieldB o.b t 0 8) W o.m.un o.m.sat))
/-- SHR (R128). -/
def execShr (o : IBin) (s : State) : Out :=
  shiftOp o (fun w t W => w.bitsA W o.a t / 2 ^ w.fieldB o.b t 0 8) s
/-- SAR (R128). -/
def execSar (o : IBin) (s : State) : Out :=
  shiftOp o (fun w t W => wrapNat W (w.int W false o.a t / 2 ^ w.fieldB o.b t 0 8)) s
/-- ROT (R128). -/
def execRot (o : IBin) (s : State) : Out :=
  shiftOp o (fun w t W =>
    let c := w.fieldB o.b t 0 8 % W
    let x := w.bitsA W o.a t
    x * 2 ^ c % 2 ^ W + x / 2 ^ (W - c)) s

/-- The extracted field of R129. -/
def bfxBits (x p l W : Nat) (un : Bool) : Nat :=
  if l = 0 || W ≤ p then 0
  else
    let m := min l (W - p)
    let f := x / 2 ^ p % 2 ^ m
    if un then f else wrapNat W (sextNat m f)

/-- BFX (R129). -/
def execBfx (o : IBin) (s : State) : Out :=
  shiftOp o (fun w t W => bfxBits (w.bitsOf W o.m.un o.a t) (w.fieldB o.b t 0 8) (w.fieldB o.b t 8 8) W o.m.un) s

/-- The inserted field of R129. -/
def bfiBits (c a p l W : Nat) : Nat :=
  if l = 0 || W ≤ p then c
  else
    let m := min l (W - p)
    c - c / 2 ^ p % 2 ^ m * 2 ^ p + a % 2 ^ m * 2 ^ p

/-- BFI (R129). -/
def execBfi (o : ITri) (s : State) : Out :=
  let W := widthOf o.m.w32
  runWeft o.g s (lenI o.b) (computed (triForm o.g cInt tInt o.d o.a o.b o.c) o.d (fun w t =>
    (mkCell (bfiBits (w.bitsA W o.c t) (w.bitsA W o.a t) (w.fieldB o.b t 0 8) (w.fieldB o.b t 8 8) W) (intTag W), 0)))

/-- A count or reversal of the bits of A (R130). -/
def bitUn (o : IUn) (f : Nat → Nat → Nat) (s : State) : Out :=
  let W := widthOf o.m.w32
  runWeft o.g s 8 (computed (unForm o.g cInt tInt o.d o.a) o.d (fun w t =>
    (mkCell (f W (w.bitsA W o.a t)) (intTag W), 0)))

/-- Set bits among the low `n`. -/
def popNat : Nat → Nat → Nat
  | 0, _ => 0
  | n + 1, x => x % 2 + popNat n (x / 2)
/-- Zero bits below the lowest set one among the low `n`. -/
def ctzNat : Nat → Nat → Nat
  | 0, _ => 0
  | n + 1, x => if x % 2 = 1 then 0 else 1 + ctzNat n (x / 2)
/-- The low `n` bits in reverse order. -/
def revNat : Nat → Nat → Nat
  | 0, _ => 0
  | n + 1, x => x % 2 * 2 ^ n + revNat n (x / 2)

/-- POPC (R130). -/
def execPopc (o : IUn) (s : State) : Out := bitUn o popNat s
/-- CLZ (R130). -/
def execClz (o : IUn) (s : State) : Out := bitUn o (fun W x => if x = 0 then W else W - 1 - Nat.log2 x) s
/-- CTZ (R130). -/
def execCtz (o : IUn) (s : State) : Out := bitUn o ctzNat s
/-- BREV (R130). -/
def execBrev (o : IUn) (s : State) : Out := bitUn o revNat s

end Sys2Proof.Machine
end

