-- ==== Sys2Proof/Machine/Float.lean ====
section
/-! DEFINITION. Floating-point instructions (R131 to R138), packed and dot products (R139 to R141). -/

namespace Sys2Proof.Machine

/-! ## Operands (R131) -/

/-- The format code an operand of a width carries (R55). -/
def tFlt (w : FWidth) : Option (List Nat) := some [fmtOf (tagOfWidth w)]

/-- A binary32 code widened to binary64, the bits of a NaN kept (R20). -/
def widen32 (x : Nat) : Nat :=
  if x / 2 ^ 23 % 2 ^ 8 = 255 then x / 2 ^ 31 * 2 ^ 63 + 2047 * 2 ^ 52 + x % 2 ^ 23 * 2 ^ 29
  else (FSpec.f64.roundVal .rne (FSpec.f32.decode x)).1

/-- The code an immediate gives at a width (R20). -/
def fimmCode (w : FWidth) (v : BitVec 32) : Nat :=
  match w with
  | .f64 => widen32 v.toNat
  | .f32 => v.toNat
  | .f16 | .bf16 => v.toNat % 2 ^ 16

/-- Element `i` of a register as a code of a width. -/
def Weft.fcodeAt (w : Weft) (wd : FWidth) (a : Src) (t i : Nat) : Nat :=
  (w.cell a.reg t).val.toNat / 2 ^ ((fspecOfWidth wd).width * i) % 2 ^ (fspecOfWidth wd).width

/-- Element 0 of a register source (R54). -/
def Weft.fcode (w : Weft) (wd : FWidth) (a : Src) (t : Nat) : Nat := w.fcodeAt wd a t 0

/-- The code of source B. -/
def Weft.fcodeB (w : Weft) (wd : FWidth) (b : SrcI) (t : Nat) : Nat :=
  match b with
  | .reg a => w.fcode wd a t
  | .imm v => fimmCode wd v

/-- The value of a code as an instruction reads it: a subnormal is a zero under FTZ (R69). -/
def Weft.fval (w : Weft) (wd : FWidth) (x : Nat) : FVal := (fspecOfWidth wd).read w.ftz x

/-- A result delivered: flushed under FTZ (R69), in element 0, with the width's tag (R54). -/
def Weft.fout (w : Weft) (wd : FWidth) (r : Nat × Flags) : Cell × Flags :=
  let y := if w.ftz then (fspecOfWidth wd).flush r else r
  (mkCell y.1 (tagOfWidth wd), y.2)

/-- A correctly rounded instruction of one source (R132). -/
def fltUn (o : FUn) (f : FSpec → Rnd → FVal → Nat × Flags) (s : State) : Out :=
  runWeft o.g s 8 (computed (unForm o.g cFlt (tFlt o.w) o.d o.a) o.d (fun w t =>
    w.fout o.w (f (fspecOfWidth o.w) (w.mode o.r) (w.fval o.w (w.fcode o.w o.a t)))))

/-- A correctly rounded instruction of two sources (R132). -/
def fltBin (o : FBin) (f : FSpec → Rnd → FVal → FVal → Nat × Flags) (s : State) : Out :=
  runWeft o.g s (lenI o.b) (computed (binForm o.g cFlt (tFlt o.w) o.d o.a o.b) o.d (fun w t =>
    w.fout o.w (f (fspecOfWidth o.w) (w.mode o.r) (w.fval o.w (w.fcode o.w o.a t)) (w.fval o.w (w.fcodeB o.w o.b t)))))

/-- FADD (R132). -/
def execFadd (o : FBin) (s : State) : Out := fltBin o fAdd s
/-- FSUB (R132). -/
def execFsub (o : FBin) (s : State) : Out := fltBin o (fun f r a b => fAdd f r a b.neg) s
/-- FMUL (R132). -/
def execFmul (o : FBin) (s : State) : Out := fltBin o fMul s
/-- FDIV (R132). -/
def execFdiv (o : FBin) (s : State) : Out := fltBin o fDiv s
/-- FSQRT (R132). -/
def execFsqrt (o : FUn) (s : State) : Out := fltUn o fSqrt s
/-- FFMA: one rounding (R132). -/
def execFfma (o : FTri) (s : State) : Out :=
  runWeft o.g s (lenI o.b) (computed (triForm o.g cFlt (tFlt o.w) o.d o.a o.b o.c) o.d (fun w t =>
    w.fout o.w (fFma (fspecOfWidth o.w) (w.mode o.r) (w.fval o.w (w.fcode o.w o.a t)) (w.fval o.w (w.fcodeB o.w o.b t))
      (w.fval o.w (w.fcode o.w o.c t)))))

/-! ## Minimum, maximum, sign (R133, R134) -/

/-- Minimum or maximum of two values (R133): −0 lies below +0; `nan` is the .NAN variant. -/
def fMinMax (isMax nan : Bool) (f : FSpec) (a b : FVal) : Nat × Flags :=
  let fl : Flags := if a.isSig || b.isSig then Flags.nv else 0
  let pick : FVal :=
    if a.isNan || b.isNan then
      (if nan || (a.isNan && b.isNan) then .nan false else if a.isNan then b else a)
    else
      let aLow := a.lt b || (a.eq b && a.sign)
      if aLow != isMax then a else b
  ((f.roundVal .rne pick).1, fl)

/-- FMIN and FMAX. -/
def fltMinMax (isMax : Bool) (o : FMinMaxArgs) (s : State) : Out :=
  runWeft o.g s (lenI o.b) (computed (binForm o.g cFlt (tFlt o.w) o.d o.a o.b) o.d (fun w t =>
    let r := fMinMax isMax o.nan (fspecOfWidth o.w) (w.fval o.w (w.fcode o.w o.a t)) (w.fval o.w (w.fcodeB o.w o.b t))
    (mkCell r.1 (tagOfWidth o.w), r.2)))

/-- FMIN (R133). -/
def execFmin (o : FMinMaxArgs) (s : State) : Out := fltMinMax false o s
/-- FMAX (R133). -/
def execFmax (o : FMinMaxArgs) (s : State) : Out := fltMinMax true o s

/-- A code with a subnormal made a zero of its sign under FTZ (R69, R134). -/
def Weft.flushed (w : Weft) (f : FSpec) (x : Nat) : Nat :=
  let c := x % f.signBit
  if w.ftz && c < 2 ^ f.mb then x - c else x

/-- FABS (R134). -/
def execFabs (o : FUn) (s : State) : Out :=
  let f := fspecOfWidth o.w
  runWeft o.g s 8 (computed (unForm o.g cFlt (tFlt o.w) o.d o.a) o.d (fun w t =>
    (mkCell (w.flushed f (w.fcode o.w o.a t) % f.signBit) (tagOfWidth o.w), 0)))
/-- FNEG (R134). -/
def execFneg (o : FUn) (s : State) : Out :=
  let f := fspecOfWidth o.w
  runWeft o.g s 8 (computed (unForm o.g cFlt (tFlt o.w) o.d o.a) o.d (fun w t =>
    (mkCell (w.flushed f (w.fcode o.w o.a t) ^^^ f.signBit) (tagOfWidth o.w), 0)))

/-! ## Comparison (R135) -/

/-- A condition of R135: its outcome and the flags. -/
def FCond.holds (c : FCond) (a b : FVal) : Bool × Flags :=
  let un := a.isNan || b.isNan
  let sig := a.isSig || b.isSig
  let ordered := match c with | .lt | .le | .gt | .ge => true | _ => false
  let fl : Flags := if sig || (un && ordered) then Flags.nv else 0
  let r := match c with
    | .eq => !un && a.eq b
    | .ne => un || !a.eq b
    | .lt => !un && a.lt b
    | .le => !un && !b.lt a
    | .gt => !un && b.lt a
    | .ge => !un && !a.lt b
    | .num => !un
    | .nan => un
  (r, fl)

/-- The outcome of a floating-point comparison in a thread. -/
def fcmpHolds (o : FCmpArgs) (w : Weft) (t : Nat) : Bool × Flags :=
  FCond.holds o.cond (w.fval o.w (w.fcode o.w o.a t)) (w.fval o.w (w.fcodeB o.w o.b t))

/-- FCMPK (R135, R125). -/
def execFcmpk (o : FCmpArgs) (s : State) : Out :=
  runWeft o.g s (lenI o.b) (compared
    (.plain o.g ([opS 1 cFlt (tFlt o.w) o.a] ++ opSI 2 cFlt (tFlt o.w) o.b ++ [opD [.k] o.d])) o.d (fcmpHolds o))

/-- FCMP (R135). -/
def execFcmp (o : FCmpArgs) (s : State) : Out :=
  runWeft o.g s (lenI o.b) (computed
    (.plain o.g ([opS 1 cFlt (tFlt o.w) o.a] ++ opSI 2 cFlt (tFlt o.w) o.b ++ [opD [.v] o.d])) o.d (fun w t =>
    let r := fcmpHolds o w t
    (mkCell (if r.1 then 1 else 0) tagI32, r.2)))

/-! ## Integral value, class, scale, exponent (R136) -/

/-- FRINT's result: an integral value of the same sign. -/
def fRint (f : FSpec) (r : Rnd) (a : FVal) : Nat × Flags :=
  match a with
  | .fin n m e =>
    let (k, nx) := (Mag.mk m e false).cut r n 0
    if m = 0 then (f.signed n 0, 0)
    else ((f.round .rne n ⟨k, 0, false⟩).1, if nx then Flags.nx else 0)
  | v => f.roundVal r v

/-- FRINT (R136). -/
def execFrint (o : FUn) (s : State) : Out := fltUn o fRint s

/-- The FCLASS bit of a value (R136). -/
def fClass (f : FSpec) (a : FVal) : Nat :=
  match a with
  | .nan sg => if sg then 0 else 1
  | .inf n => if n then 2 else 9
  | .fin n m e =>
    if m = 0 then (if n then 5 else 6)
    else if e = f.qmin && m < 2 ^ f.mb then (if n then 4 else 7)
    else if n then 3 else 8

/-- FCLASS (R136). -/
def execFclass (o : FUn) (s : State) : Out :=
  runWeft o.g s 8 (computed (unForm o.g cFlt (tFlt o.w) o.d o.a) o.d (fun w t =>
    (mkCell (2 ^ fClass (fspecOfWidth o.w) (w.fval o.w (w.fcode o.w o.a t))) tagI32, 0)))

/-- A power of two beyond which every scaled value overflows or vanishes in every format. -/
def clampExp (n : Int) : Int := min (max n (-5000)) 5000

/-- FSCALE (R136). -/
def execFscale (o : FBin) (s : State) : Out :=
  runWeft o.g s (lenI o.b) (computed
    (.plain o.g ([opS 1 cFlt (tFlt o.w) o.a] ++ opSI 2 cInt tInt o.b ++ [opD cDst o.d])) o.d (fun w t =>
      w.fout o.w ((fspecOfWidth o.w).roundVal (w.mode o.r)
        ((w.fval o.w (w.fcode o.w o.a t)).scale (clampExp (w.intB 64 false o.b t))))))

/-- FGETEXP's result (R136). -/
def fGetExp (a : FVal) : Int × Flags :=
  match a with
  | .nan _ => (-(2 ^ 31), Flags.nv)
  | .inf _ => (2 ^ 31 - 1, Flags.nv)
  | .fin _ m e => if m = 0 then (-(2 ^ 31), Flags.nv) else (e + Nat.log2 m, 0)

/-- FGETEXP (R136). -/
def execFgetexp (o : FUn) (s : State) : Out :=
  runWeft o.g s 8 (computed (unForm o.g cFlt (tFlt o.w) o.d o.a) o.d (fun w t =>
    let r := fGetExp (w.fval o.w (w.fcode o.w o.a t))
    (mkCell (wrapNat 32 r.1) tagI32, r.2)))

/-! ## Approximate functions (R137, R138) -/

/-- A narrow width: the F32 algorithm's result rounded once with RNE (R137). NX stands for every finite input that the
table does not list as exact in the width; OF and UF are those of the delivered result (R68), so an underflow of the F32 step that
the delivered result does not show raises none. -/
def approxNarrow (fn : ApproxFn) (f : FSpec) (a : FVal) : Nat × Flags :=
  let x := (FSpec.f32.roundVal .rne a).1
  let y := approxAt fn .f32 false x
  let z := f.roundVal .rne (FSpec.f32.decode y.1)
  let inexact : Bool := match a with
    | .fin n m e => decide (m ≠ 0) && !(n && (fn == .rsq || fn == .log2)) && !approxExact fn f n m e
    | _ => false
  let fl := (y.2 &&& ~~~Flags.uf) ||| z.2 ||| (if inexact then Flags.nx else 0)
  let low := z.1 % f.signBit
  let tiny := (low ≠ 0 && low < 2 ^ f.mb) || (low = 0 && y.2 &&& Flags.uf ≠ 0)
  (z.1, if fl &&& Flags.nx ≠ 0 && tiny then fl ||| Flags.uf else fl)

/-- An approximate function at a width. -/
def approxWidth (fn : ApproxFn) (wd : FWidth) (ftz : Bool) (x : Nat) : Nat × Flags :=
  match wd with
  | .f64 => approxAt fn .f64 ftz x
  | .f32 => approxAt fn .f32 ftz x
  | .f16 | .bf16 =>
    match (fspecOfWidth wd).read ftz x with
    | .nan sg => ((fspecOfWidth wd).nanCode, if sg then Flags.nv else 0)
    | v => approxNarrow fn (fspecOfWidth wd) v

/-- An approximate function (R137). -/
def approxOp (fn : ApproxFn) (o : FUn) (s : State) : Out :=
  runWeft o.g s 8 (computed (unForm o.g cFlt (tFlt o.w) o.d o.a) o.d (fun w t =>
    w.fout o.w (approxWidth fn o.w w.ftz (w.fcode o.w o.a t))))

/-- FRCP (R137). -/
def execFrcp (o : FUn) (s : State) : Out := approxOp .rcp o s
/-- FRSQ (R137). -/
def execFrsq (o : FUn) (s : State) : Out := approxOp .rsq o s
/-- FEXP2 (R137). -/
def execFexp2 (o : FUn) (s : State) : Out := approxOp .exp2 o s
/-- FLOG2 (R137). -/
def execFlog2 (o : FUn) (s : State) : Out := approxOp .log2 o s
/-- FSIN (R137). -/
def execFsin (o : FUn) (s : State) : Out := approxOp .sin o s
/-- FCOS (R137). -/
def execFcos (o : FUn) (s : State) : Out := approxOp .cos o s

/-! ## Packed (R139) -/

/-- Four elements computed one by one, their flags joined. -/
def Weft.packed4 (w : Weft) (wd : FWidth) (f : Nat → Nat × Flags) : Cell × Flags :=
  let l := (List.range 4).map (fun i => if w.ftz then (fspecOfWidth wd).flush (f i) else f i)
  (mkCell (packElems 5 (l.map (fun p => p.1))) (tagOfWidth wd), l.foldl (fun a p => a ||| p.2) 0)

/-- The value of element `i` of a source. -/
def Weft.felem (w : Weft) (wd : FWidth) (a : Src) (t i : Nat) : FVal := w.fval wd (w.fcodeAt wd a t i)
/-- The value of element `i` of source B, which is always a register. -/
def Weft.felemB (w : Weft) (wd : FWidth) (b : SrcI) (t i : Nat) : FVal :=
  match b with
  | .reg a => w.felem wd a t i
  | .imm v => w.fval wd (fimmCode wd v)

/-- A packed instruction of two sources. -/
def packBin (o : FBin) (f : FSpec → Rnd → FVal → FVal → Nat × Flags) (s : State) : Out :=
  runWeft o.g s 8 (computed (binForm o.g cFlt (tFlt o.w) o.d o.a o.b) o.d (fun w t =>
    w.packed4 o.w (fun i => f (fspecOfWidth o.w) (w.mode o.r) (w.felem o.w o.a t i) (w.felemB o.w o.b t i))))

/-- PADD (R139). -/
def execPadd (o : FBin) (s : State) : Out := packBin o fAdd s
/-- PMUL (R139). -/
def execPmul (o : FBin) (s : State) : Out := packBin o fMul s
/-- PFMA (R139). -/
def execPfma (o : FTri) (s : State) : Out :=
  runWeft o.g s 8 (computed (triForm o.g cFlt (tFlt o.w) o.d o.a o.b o.c) o.d (fun w t =>
    w.packed4 o.w (fun i => fFma (fspecOfWidth o.w) (w.mode o.r) (w.felem o.w o.a t i) (w.felemB o.w o.b t i)
      (w.felem o.w o.c t i))))

/-! ## Dot products (R140, R141, R78) -/

/-- Element `i` of an FP8 register by its own tag; ZERO is eight zeros (R494). -/
def Weft.fp8 (w : Weft) (a : Src) (t i : Nat) : FVal :=
  let c := w.cell a.reg t
  match fspecOfTag c.tag with
  | some f => f.decode (elemAt 7 c.val.toNat i)
  | none => .fin false 0 0

/-- DOT8.F8 (R140). -/
def execDot8F8 (o : DotArgs) (s : State) : Out :=
  runWeft o.g s 8 (computed (.plain o.g [opS 1 cFlt (some [7, 8]) o.a, opS 2 cFlt (some [7, 8]) o.b,
      opS 3 cFlt (some [4]) o.c, opD cDst o.d]) o.d (fun w t =>
    let c := FSpec.f32.decode ((w.cell o.c.reg t).val.toNat % 2 ^ 32)
    let sum := (List.range 8).foldl (fun (a : Sum) i => a.addMul (w.fp8 o.a t i) (w.fp8 o.b t i)) (Sum.zero.add c)
    let r := sum.round .f32 (w.mode o.r)
    (mkCell r.1 tagF32, r.2)))

/-- DOT8.I8 (R141). -/
def execDot8I8 (o : DotArgs) (s : State) : Out :=
  runWeft o.g s 8 (computed (.plain o.g [opS 1 cFlt (some [10]) o.a, opS 2 cFlt (some [10]) o.b,
      opS 3 cInt tInt o.c, opD cDst o.d]) o.d (fun w t =>
    let e (a : Src) (i : Nat) : Int := sextNat 8 (elemAt 10 (w.cell a.reg t).val.toNat i)
    let c : Int := sextNat 32 (w.cell o.c.reg t).val.toNat
    finish ((List.range 8).foldl (fun (x : Int) i => x + e o.a i * e o.b i) c) 32 false false))

end Sys2Proof.Machine
end

