-- ==== Sys2Proof/Machine/Convert.lean ====
section
/-! DEFINITION. Conversion (R142 to R144), element moves, tags and masks (R145 to R147), moves and mask logic (R148 to
R154). -/

namespace Sys2Proof.Machine

/-! ## CVT (R143) -/

/-- The tag and the bits CVT reads; ZERO is one INT64 zero (R494). -/
def Weft.cvtSrc (w : Weft) (a : Src) (t : Nat) : BitVec 6 × Nat :=
  match a.reg with
  | .zero => (tagI64, 0)
  | r => ((w.cell r t).tag, (w.cell r t).val.toNat)

/-- CVT of one register: elements past the shorter count are zero (R143). -/
def cvtRegister (w : Weft) (tag : BitVec 6) (x : Nat) (tgt : BitVec 4) (r : Rnd) (b7 : Bool) : Cell × Flags :=
  let (k, rt) := cvtTarget tgt
  let nd := elemCount (fmtOf rt)
  let n := min (elemCount (fmtOf tag)) nd
  let l := (List.range n).map (fun j => convertElem tag (elemAt (fmtOf tag) x j) k r b7 w.ftz)
  (mkCell (packElems (fmtOf rt) (l.map (fun p => p.1))) rt, l.foldl (fun a p => a ||| p.2) 0)

/-- CVT (R143). -/
def execCvt (o : CvtArgs) (s : State) : Out :=
  runWeft o.g s 8 (computed (unForm o.g cInt (some [1, 2, 3, 4, 5, 6, 7, 8, 9, 10]) o.d o.a) o.d (fun w t =>
    let (tag, x) := w.cvtSrc o.a t
    cvtRegister w tag x o.tgt (w.mode o.r) o.x))

/-! ## CVTS (R144) -/

/-- Round one element of CVTS: by a mode, or stochastically with a seed and an index (R71). -/
def cvtsRound (f : FSpec) (r : Rnd) (sr : Option (Nat × Nat)) (v : FVal) (j : Nat) : Nat × Flags :=
  match sr, v with
  | some (seed, base), .fin n m e => f.stochastic n m e seed ((base + j) % 2 ^ 64)
  | _, v => f.roundVal r v

/-- The scale code CVTS uses for an E2M1 target with none given (R76). -/
def mxScaleCode (l : List FVal) : Nat :=
  let e : Int := mxExp l + 127
  if l.any (fun v => match v with | .fin _ _ _ => false | _ => true) then 255 else e.toNat

/-- CVTS into E2M1 (R144): codes 0 to 13 and the scale code. -/
def cvtsMx (l : List FVal) (given : Option Nat) (r : Rnd) (sr : Option (Nat × Nat)) : Nat × Flags :=
  let c : Nat := match given with | some c => c | none => mxScaleCode l
  if c = 255 then (255 * 2 ^ 56, Flags.nv)
  else
    let e : Int := (c : Int) - 127
    let q := l.zipIdx.map (fun p => cvtsRound .e2m1 r sr (p.1.scale (-e)) p.2)
    (packElems 9 (q.map (fun p => p.1)) + c * 2 ^ 56, q.foldl (fun a p => a ||| p.2) 0)

/-- CVTS into another target (R144). -/
def cvtsPlain (f : FSpec) (fmt : Nat) (ftz : Bool) (l : List FVal) (given : Option Nat) (r : Rnd)
    (sr : Option (Nat × Nat)) : Nat × Flags :=
  match given with
  | some 255 => (packElems fmt (l.map (fun _ => f.nanCode)), Flags.nv)
  | _ =>
    let k : Int := match given with | some c => 127 - (c : Int) | none => 0
    let q := l.zipIdx.map (fun p =>
      let y := cvtsRound f r sr (p.1.scale k) p.2
      if ftz then f.flush y else y)
    (packElems fmt (q.map (fun p => p.1)), q.foldl (fun a p => a ||| p.2) 0)

/-- The elements CVTS converts; ZERO is one F32 zero (R494). -/
def Weft.cvtsElems (w : Weft) (a : Src) (ftz : Bool) (t : Nat) : List FVal :=
  match a.reg with
  | .zero => [.fin false 0 0]
  | r =>
    let c := w.cell r t
    match fspecOfTag c.tag with
    | some f => (List.range (elemCount (fmtOf c.tag))).map (fun i => f.read ftz (elemAt (fmtOf c.tag) c.val.toNat i))
    | none => []

/-- The register operands of CVTS: B may name ZERO for no scale; C and C + 1 are read under .SR. -/
def cvtsForm (o : CvtsArgs) : Form :=
  .plain o.g ([opS 1 cFlt (some [3, 4, 5, 6]) o.a, opS 2 cInt tInt o.b] ++
    (match o.c with | some c => [{ opS 3 [.v, .s] none c with cnt := 2 }] | none => []) ++ [opD cDst o.d])

/-- What CVTS gives a thread. -/
def cvtsLane (o : CvtsArgs) (w : Weft) (t : Nat) : Cell × Flags :=
  let (k, rt) := cvtTarget o.tgt
  let given : Option Nat := if o.b.reg = .zero then none else some ((w.cell o.b.reg t).val.toNat % 256)
  let sr : Option (Nat × Nat) := o.c.map (fun c =>
    ((w.cell c.reg t).val.toNat, (w.cell (regPlus c.reg 1) t).val.toNat))
  match k with
  | .float f =>
    if o.tgt = 9 then
      let r := cvtsMx (w.cvtsElems o.a false t) given (w.mode o.r) sr
      (mkCell r.1 rt, r.2)
    else
      let z := w.ftz && !f.small
      let r := cvtsPlain f (fmtOf rt) z (w.cvtsElems o.a z t) given (w.mode o.r) sr
      (mkCell r.1 rt, r.2)
  | .int _ _ => (Cell.launch, 0)

/-- CVTS (R144). -/
def execCvts (o : CvtsArgs) (s : State) : Out := runWeft o.g s 8 (computed (cvtsForm o) o.d (cvtsLane o))

/-! ## PACK and UNPACK (R145) -/

/-- The tag PACK works by: that of A, or of B where A names ZERO. -/
def packTag (w : Weft) (o : PackArgs) (t : Nat) : BitVec 6 :=
  if o.a.reg = .zero then (w.cell o.b.reg t).tag else (w.cell o.a.reg t).tag

/-- Threads whose element index lies past the count of the tag. -/
def indexPast (e : BitVec 4) (sel : Mask) (g : Guard) (tag : Nat → BitVec 6) : Mask :=
  let l := (lanesOf g sel).filter (fun t => elemCount (fmtOf (tag t)) ≤ e.toNat)
  if g.uni then (if l.isEmpty then 0 else sel) else maskOf l

/-- Threads whose A and B carry different tags. -/
def tagsDiffer (w : Weft) (o : PackArgs) (sel : Mask) : Mask :=
  if o.a.reg = .zero || o.b.reg = .zero then 0
  else
    let l := (lanesOf o.g sel).filter (fun t => (w.cell o.a.reg t).tag ≠ (w.cell o.b.reg t).tag)
    if o.g.uni then (if l.isEmpty then 0 else sel) else maskOf l

/-- The form of PACK: its sources may not both be ZERO (R494). -/
def packForm (o : PackArgs) : Form :=
  { Form.plain o.g [opS 1 cFlt none o.a, opS 2 cFlt none o.b, opD [.v] o.d] with
    wrong := if o.a.reg = .zero && o.b.reg = .zero then some 1 else none }

/-- What PACK gives a thread: B with element E replaced by element 0 of A. -/
def packLane (o : PackArgs) (w : Weft) (t : Nat) : Cell :=
  mkCell (setElem (fmtOf (packTag w o t)) (w.cell o.b.reg t).val.toNat o.e.toNat
    (elemAt (fmtOf (packTag w o t)) (w.cell o.a.reg t).val.toNat 0)) (packTag w o t)

/-- PACK (R145). -/
def execPack (o : PackArgs) (s : State) : Out :=
  runWeft o.g s 8 (fun s h => s.operate h (packForm o) (fun w sel =>
    let past := indexPast o.e sel o.g (packTag w o)
    if past ≠ 0 then .trap s (w.fault cTag (field := if o.a.reg = .zero then 2 else 1) (mask := past))
    else if tagsDiffer w o sel ≠ 0 then .trap s (w.fault cTag (field := 2) (mask := tagsDiffer w o sel))
    else s.writeLanes h o.d o.g.uni sel ((lanesOf o.g sel).map (fun t => ⟨t, packLane o w t, 0⟩))))

/-- What UNPACK gives a thread: element E of A, alone. -/
def unpackLane (o : UnpackArgs) (w : Weft) (t : Nat) : Cell :=
  mkCell (elemAt (fmtOf (w.cell o.a.reg t).tag) (w.cell o.a.reg t).val.toNat o.e.toNat) (w.cell o.a.reg t).tag

/-- UNPACK (R145). -/
def execUnpack (o : UnpackArgs) (s : State) : Out :=
  runWeft o.g s 8 (fun s h => s.operate h (.plain o.g [opS 1 [.v, .s] none o.a, opD [.v] o.d]) (fun w sel =>
    let past := indexPast o.e sel o.g (fun t => (w.cell o.a.reg t).tag)
    if past ≠ 0 then .trap s (w.fault cTag (field := 1) (mask := past))
    else s.writeLanes h o.d o.g.uni sel ((lanesOf o.g sel).map (fun t => ⟨t, unpackLane o w t, 0⟩))))

/-! ## Tags and masks (R146, R147) -/

/-- SETTAG (R146). -/
def execSettag (o : SettagArgs) (s : State) : Out :=
  runWeft o.g s 8 (computed (unForm o.g cInt none o.d o.a) o.d (fun w t =>
    (mkCell (w.cell o.a.reg t).val.toNat o.tag, 0)))

/-- GETTAG (R146). -/
def execGettag (o : LUn) (s : State) : Out :=
  runWeft o.g s 8 (computed (unForm o.g cInt none o.d o.a) o.d (fun w t =>
    (mkCell (w.cell o.a.reg t).tag.toNat tagI32, 0)))

/-- The bits of a mask source. -/
def Weft.maskSrc (w : Weft) (r : Reg) : Mask :=
  match r with
  | .k n => w.k n
  | _ => 0

/-- The bit a mask source gives a thread; a uniform instruction asks for any live active thread (R147, R150). -/
def Weft.kbit (w : Weft) (g : Guard) (r : Reg) (t : Nat) : Bool :=
  if g.uni then w.maskSrc r &&& w.live ≠ 0 else (w.maskSrc r).getLsbD t

/-- CVTK (R147). -/
def execCvtk (o : CvtkArgs) (s : State) : Out :=
  runWeft o.g s 8 (computed (.plain o.g [opS 1 [.k] none o.k, opD cDst o.d]) o.d (fun w t =>
    let b := w.kbit o.g o.k.reg t
    if o.all then (mkCell (if b then 2 ^ 64 - 1 else 0) tagI64, 0) else (mkCell (if b then 1 else 0) tagI32, 0)))

/-! ## Moves (R148 to R151) -/

/-- MOV (R148). -/
def execMov (o : LUn) (s : State) : Out :=
  runWeft o.g s 8 (computed (.plain o.g [opS 1 cInt none o.a, opD [.v] o.d]) o.d (fun w t =>
    ({ w.cell o.a.reg t with full := true }, 0)))

/-- The bits of a 96-bit MOVI (R149). -/
def movi96Bits (tag : BitVec 6) (v : BitVec 32) : Nat :=
  match fmtOf tag with
  | 1 => (v.signExtend 64).toNat
  | 3 => widen32 v.toNat
  | _ => v.toNat

/-- MOVI of 96 bits (R149). -/
def execMovi96 (o : Movi96Args) (s : State) : Out :=
  runWeft o.g s 12 (computed (.plain o.g [opD cDst o.d]) o.d (fun _ _ => (mkCell (movi96Bits o.tag o.imm) o.tag, 0)))
/-- MOVI of 128 bits (R149). -/
def execMovi128 (o : Movi128Args) (s : State) : Out :=
  runWeft o.g s 16 (computed (.plain o.g [opD cDst o.d]) o.d (fun _ _ => (mkCell o.imm.toNat o.tag, 0)))

/-- SEL (R150): a chosen ZERO takes the other source's tag. -/
def execSel (o : SelArgs) (s : State) : Out :=
  runWeft o.g s 8 (computed (.plain o.g [opS 1 cInt none o.a, opS 2 cInt none o.b, opS 3 [.k] none o.k, opD cDst o.d]) o.d
    (fun w t =>
      let b := w.kbit o.g o.k.reg t
      let x := if b then o.a.reg else o.b.reg
      let y := if b then o.b.reg else o.a.reg
      let c := w.cell x t
      ({ c with tag := if x = .zero then (w.cell y t).tag else c.tag, full := true }, 0)))

/-- The thread BCAST reads (R151). -/
def Weft.bcastFrom (w : Weft) (b : Src) : Nat := (readInt (w.cell b.reg 0) 64 true).toNat % w.n

/-- The form of BCAST: A is looked at in one thread only, and not at all when that thread is dead or exited. -/
def bcastForm (o : BcastArgs) (w : Weft) : Form :=
  let look : Mask := if w.fullAt o.b.reg 0 then tbit (w.bcastFrom o.b) &&& ~~~(w.dlm ||| w.exm) else 0
  .plain o.g [{ opS 1 [.v] none o.a with at_ := some look }, opS 2 [.s, .z] tInt o.b, opD cDst o.d]

/-- What BCAST gives every thread: A of the thread it reads, 0 RAW when that thread is dead or exited. -/
def bcastCell (o : BcastArgs) (w : Weft) : Cell :=
  if (w.dlm ||| w.exm).getLsbD (w.bcastFrom o.b) then Cell.launch else { w.cell o.a.reg (w.bcastFrom o.b) with full := true }

/-- BCAST (R151). -/
def execBcast (o : BcastArgs) (s : State) : Out :=
  runWeft o.g s 8 (fun s h => s.operate h (bcastForm o (s.weft h)) (fun w sel =>
    s.writeLanes h o.d false sel ((threads sel).map (fun t => ⟨t, bcastCell o w, 0⟩))))

/-! ## Mask moves and logic (R152 to R154) -/

/-- A whole-mask operation: it runs once when the predicate selects a live active thread (R152). -/
def maskOp (f : Form) (d : Reg) (m : Weft → Mask) (s : State) : Out :=
  runWeft f.g s 8 (fun s h => s.operate h f (fun w sel => s.writeMask h d true sel (m w) []))

/-- MOVK from a scalar (R152). -/
def execMovkFromScalar (o : LUn) (s : State) : Out :=
  maskOp (.plain o.g [opS 1 [.s] none o.a, opD [.k] o.d]) o.d (fun w => (w.cell o.a.reg 0).val.truncate 32) s
/-- MOVK of an immediate (R152). -/
def execMovkImmediate (o : MovkImmArgs) (s : State) : Out :=
  runWeft o.g s 12 (fun s h => s.operate h (.plain o.g [opD [.k] o.d]) (fun _ sel => s.writeMask h o.d true sel o.imm []))
/-- MOVK to a scalar (R152). -/
def execMovkToScalar (o : MovkToArgs) (s : State) : Out :=
  runWeft o.g s 8 (fun s h => s.operate h (.plain o.g [opS 1 [.k] none o.k, opD [.s] o.d]) (fun w sel =>
    s.writeLanes h o.d true sel [⟨0, mkCell (w.maskSrc o.k.reg).toNat tagI32, 0⟩]))

/-- KAND, KOR and KXOR (R153). -/
def kBin (o : KBin) (f : Mask → Mask → Mask) (s : State) : Out :=
  maskOp (.plain o.g [opS 1 [.k] none o.a, opS 2 [.k] none o.b, opD [.k] o.d]) o.d
    (fun w => f (w.maskSrc o.a.reg) (w.maskSrc o.b.reg)) s
/-- KAND (R153). -/
def execKand (o : KBin) (s : State) : Out := kBin o (fun a b => a &&& b) s
/-- KOR (R153). -/
def execKor (o : KBin) (s : State) : Out := kBin o (fun a b => a ||| b) s
/-- KXOR (R153). -/
def execKxor (o : KBin) (s : State) : Out := kBin o (fun a b => a ^^^ b) s
/-- KNOT (R153). -/
def execKnot (o : KUn) (s : State) : Out :=
  maskOp (.plain o.g [opS 1 [.k] none o.a, opD [.k] o.d]) o.d (fun w => ~~~(w.maskSrc o.a.reg)) s

/-- KPOPC (R154). -/
def execKpopc (o : KpopcArgs) (s : State) : Out :=
  runWeft o.g s 8 (fun s h => s.operate h (.plain o.g [opS 1 [.k] none o.k, opD [.s] o.d]) (fun w sel =>
    let m := w.maskSrc o.k.reg
    s.writeLanes h o.d true sel [⟨0, mkCell (popMask (if o.live then m &&& w.alive else m)) tagI32, 0⟩]))

end Sys2Proof.Machine
end

