-- ==== Sys2Proof/Machine/Lanes.lean ====
section
/-! DEFINITION. Cross-lane operations (R161 to R166). The contributors are the selected threads; a result goes to them,
once to a scalar, or whole to a mask with 0 in the bits of the others. -/

namespace Sys2Proof.Machine

/-- An INT32 value. -/
def i32Cell (n : Nat) : Cell := mkCell n tagI32

/-- Write a cross-lane result (R161): a mask, a scalar once, or each contributor's value. -/
def State.crossOut (s : State) (h : Nat) (d : Reg) (sel m : Mask) (sc : Cell) (v : Nat → Cell) : Eff :=
  match d with
  | .k n => .done (s.setWeft h ((s.weft h).setK n m))
  | .s n => .done (s.setWeft h ((s.weft h).setS n.toNat sc))
  | _ => .done (s.setWeft h ((s.weft h).putAll d ((threads sel).map (fun t => (t, v t)))))

/-- The condition of a thread (R162): its bit of a mask source, or an integer that is not zero. -/
def Weft.cond (w : Weft) (a : Src) (t : Nat) : Bool :=
  match a.reg with
  | .k n => (w.k n).getLsbD t
  | r => readInt (w.cell r t) 64 true ≠ 0

/-- The form of VOTE and BALLOT. -/
def condForm (g : Guard) (d : Reg) (a : Src) : Form := .plain g [opS 1 [.k, .v, .s] tInt a, opD [.v, .s, .k] d]

/-- The outcome of a vote over the contributors (R163). -/
def voteHolds (w : Weft) (mode : VoteMode) (a : Src) (sel : Mask) : Bool :=
  let l := (threads sel).map (fun t => w.cond a t)
  match mode with
  | .all => l.all id
  | .any => l.any id
  | .same => l.all id || !l.any id

/-- VOTE (R163). -/
def execVote (o : VoteArgs) (s : State) : Out :=
  runWeft o.g s 8 (fun s h => s.operate h (condForm o.g o.d o.a) (fun w sel =>
    let r := voteHolds w o.mode o.a sel
    let c := i32Cell (if r then 1 else 0)
    s.crossOut h o.d sel (if r then sel else 0) c (fun _ => c)))

/-- BALLOT (R163). -/
def execBallot (o : LUn) (s : State) : Out :=
  runWeft o.g s 8 (fun s h => s.operate h (condForm o.g o.d o.a) (fun w sel =>
    let m := maskOf ((threads sel).filter (fun t => w.cond o.a t))
    s.crossOut h o.d sel m (i32Cell m.toNat) (fun _ => i32Cell m.toNat)))

/-! ## LXCH (R164) -/

/-- The thread LXCH reads for thread `t`, if the exchange is within the group. -/
def lxchFrom (mode : XchMode) (size b t : Nat) : Option Nat :=
  let base := t - t % size
  let o := t % size
  match mode with
  | .at => some (base + b % size)
  | .below => if b ≤ o then some (t - b) else none
  | .above => if o + b < size then some (t + b) else none
  | .flip => some (base + (o ^^^ (b % size)))

/-- The group size of a group code. -/
def lxchSize (w : Weft) (grp : Fin 5) : Nat := min (32 / 2 ^ grp.val) w.n

/-- The low byte of LXCH's source B in a thread. -/
def lxchB (w : Weft) (b : SrcI) (t : Nat) : Nat := (w.src b t).val.toNat % 256

/-- The register source B of LXCH is full in a thread. -/
def lxchReady (w : Weft) (b : SrcI) (t : Nat) : Bool :=
  match b with
  | .reg r => w.fullAt r.reg t
  | .imm _ => true

/-- The threads whose A LXCH looks at: the contributors, and those they read that are neither dead nor exited. -/
def lxchReads (o : LxchArgs) (w : Weft) (sel : Mask) : Mask :=
  let gone := w.dlm ||| w.exm
  sel ||| maskOf ((threads sel).filterMap (fun t =>
    if lxchReady w o.b t then
      (match lxchFrom o.mode (lxchSize w o.grp) (lxchB w o.b t) t with
       | some j => if gone.getLsbD j then none else some j
       | none => none)
    else none))

/-- What LXCH gives a thread, and its flag. -/
def lxchValue (o : LxchArgs) (w : Weft) (t : Nat) : Cell × Bool :=
  let own := w.cell o.a.reg t
  match lxchFrom o.mode (lxchSize w o.grp) (lxchB w o.b t) t with
  | none => (own, true)
  | some j => if (w.dlm ||| w.exm).getLsbD j then (⟨0, own.tag, true⟩, true) else (w.cell o.a.reg j, false)

/-- The form of LXCH. -/
def lxchForm (o : LxchArgs) (w : Weft) : Form :=
  .plain o.g ([{ opS 1 [.v] none o.a with at_ := some (lxchReads o w (w.selected o.g)) }] ++ opSI 2 cInt tInt o.b ++ [opD [.v] o.d])

/-- LXCH (R164). -/
def execLxch (o : LxchArgs) (s : State) : Out :=
  runWeft o.g s (lenI o.b) (fun s h => s.operate h (lxchForm o (s.weft h)) (fun w sel =>
        let l := (threads sel).map (fun t => (t, lxchValue o w t))
        let w' := w.putAll o.d (l.map (fun p => (p.1, { p.2.1 with full := true })))
        .done (s.setWeft h (w'.setK o.flag (maskOf ((l.filter (fun p => p.2.2)).map (fun p => p.1)))))))

/-! ## SCAN and REDUCE (R165) -/

/-- Width, and unsigned, of an integer fold type. -/
def foldIntTy : FoldTy → Nat × Bool
  | .i64 => (64, false)
  | .i32 => (32, false)
  | .u64 => (64, true)
  | .u32 => (32, true)
  | .f64 => (64, false)
  | .f32 => (32, false)
/-- The floating-point width of a fold type. -/
def foldFltTy : FoldTy → Option FWidth
  | .f64 => some .f64
  | .f32 => some .f32
  | _ => none

/-- One integer step. -/
def foldInt (op : FoldOp) (W : Nat) (un : Bool) (a x : Int) : Int :=
  let bits (f : Nat → Nat → Nat) : Int :=
    let r := f (wrapNat W a) (wrapNat W x)
    if un then (r : Int) else sextNat W r
  match op with
  | .add => a + x
  | .min => min a x
  | .max => max a x
  | .and => bits (fun p q => p &&& q)
  | .or => bits (fun p q => p ||| q)
  | .xor => bits (fun p q => p ^^^ q)

/-- The identity of an integer fold. -/
def foldIntId (op : FoldOp) (W : Nat) (un : Bool) : Int :=
  match op with
  | .add | .or | .xor => 0
  | .and => if un then 2 ^ W - 1 else -1
  | .min => intHi W un
  | .max => intLo W un

/-- An integer fold over the contributors: each one's place with the accumulator before and after it. -/
def foldInts (op : FoldOp) (W : Nat) (un : Bool) (x : Nat → Int) : List Nat → Option Int → List (Nat × Option Int × Int)
  | [], _ => []
  | t :: rest, acc =>
    let a := match acc with | none => x t | some y => foldInt op W un y (x t)
    (t, acc, a) :: foldInts op W un x rest (some a)

/-- One floating-point step on codes, flushed under FTZ. -/
def foldFlt (op : FoldOp) (w : Weft) (wd : FWidth) (a x : Nat) : Nat × Flags :=
  let f := fspecOfWidth wd
  match op with
  | .min => fMinMax false false f (w.fval wd a) (w.fval wd x)
  | .max => fMinMax true false f (w.fval wd a) (w.fval wd x)
  | _ =>
    let r := fAdd f w.ctlMode (w.fval wd a) (w.fval wd x)
    if w.ftz then f.flush r else r

/-- The identity of a floating-point fold. -/
def foldFltId (op : FoldOp) (wd : FWidth) : Nat :=
  let f := fspecOfWidth wd
  match op with
  | .min => f.infCode
  | .max => f.signed true f.infCode
  | _ => 0

/-- A floating-point fold over the contributors, with the flags of each step. -/
def foldFlts (op : FoldOp) (w : Weft) (wd : FWidth) (x : Nat → Nat) :
    List Nat → Option Nat → List (Nat × Option Nat × Nat × Flags)
  | [], _ => []
  | t :: rest, acc =>
    let r := match acc with | none => (x t, (0 : Flags)) | some y => foldFlt op w wd y (x t)
    (t, acc, r.1, r.2) :: foldFlts op w wd x rest (some r.1)

/-- The contributors' results of a fold: exclusive values and inclusive ones, with flags. -/
def foldLanes (w : Weft) (op : FoldOp) (ty : FoldTy) (a : Src) (sel : Mask) (exc : Bool) : List Lane :=
  match foldFltTy ty with
  | some wd =>
    let x (t : Nat) : Nat := w.flushed (fspecOfWidth wd) (w.fcode wd a t)
    (foldFlts op w wd x (threads sel) none).map (fun p =>
      ⟨p.1, mkCell (if exc then p.2.1.getD (foldFltId op wd) else p.2.2.1) (tagOfWidth wd), p.2.2.2⟩)
  | none =>
    let (W, un) := foldIntTy ty
    (foldInts op W un (fun t => w.int W un a t) (threads sel) none).map (fun p =>
      let r := finish (if exc then p.2.1.getD (foldIntId op W un) else p.2.2) W un false
      ⟨p.1, r.1, r.2⟩)

/-- Formats a fold type accepts. -/
def foldTags (ty : FoldTy) : Option (List Nat) :=
  match foldFltTy ty with
  | some wd => tFlt wd
  | none => tInt

/-- SCAN (R165). -/
def execScan (o : ScanArgs) (s : State) : Out :=
  runWeft o.g s 8 (fun s h => s.operate h (.plain o.g [opS 1 [.v, .s] (foldTags o.ty) o.a, opD [.v] o.d]) (fun w sel =>
    s.writeLanes h o.d false sel (foldLanes w o.op o.ty o.a sel o.exc)))

/-- The lanes of REDUCE: the last accumulator for every contributor; only a float step raises a flag in its thread. -/
def reduceLanes (w : Weft) (o : ReduceArgs) (sel : Mask) : List Lane :=
  let l := foldLanes w o.op o.ty o.a sel false
  match l.getLast? with
  | none => []
  | some x => l.map (fun y => ⟨y.t, x.c, if (foldFltTy o.ty).isSome then y.fl else x.fl⟩)

/-- REDUCE (R165). -/
def execReduce (o : ReduceArgs) (s : State) : Out :=
  runWeft o.g s 8 (fun s h => s.operate h (.plain o.g [opS 1 [.v, .s] (foldTags o.ty) o.a, opD [.v, .s] o.d]) (fun w sel =>
    s.writeLanes h o.d false sel (reduceLanes w o sel)))

/-! ## MATCH, ELECT, COMPACT (R163, R166) -/

/-- Two cells agree in all 64 bits and tag. -/
def Cell.same (a b : Cell) : Bool := a.val = b.val && a.tag = b.tag

/-- What MATCH gives a thread: whether all contributors agree, or the mask of those that agree with it. -/
def matchCell (o : MatchArgs) (w : Weft) (sel : Mask) (t : Nat) : Cell :=
  let l := threads sel
  if o.all then i32Cell (if l.all (fun t => l.all (fun u => (w.cell o.a.reg t).same (w.cell o.a.reg u))) then 1 else 0)
  else i32Cell (maskOf (l.filter (fun u => (w.cell o.a.reg u).same (w.cell o.a.reg t)))).toNat

/-- MATCH (R163). -/
def execMatchLanes (o : MatchArgs) (s : State) : Out :=
  runWeft o.g s 8 (fun s h => s.operate h (.plain o.g [opS 1 [.v] none o.a, opD (if o.all then [.v, .s] else [.v]) o.d])
    (fun w sel => s.crossOut h o.d sel 0 (matchCell o w sel 0) (matchCell o w sel)))

/-- ELECT (R163): the lowest contributor. -/
def execElect (o : ElectArgs) (s : State) : Out :=
  runWeft o.g s 8 (fun s h => s.operate h (.plain o.g [opD [.v, .s, .k] o.d]) (fun _ sel =>
    let t0 := (threads sel).headD 0
    s.crossOut h o.d sel (tbit t0) (i32Cell t0) (fun t => i32Cell (if t = t0 then 1 else 0))))

/-- COMPACT (R166). -/
def execCompact (o : CompactArgs) (s : State) : Out :=
  runWeft o.g s 8 (fun s h => s.operate h (.plain o.g [opS 1 [.v] none o.a, opS 2 [.k] none o.k, opD [.v] o.d]) (fun w sel =>
    let from_ := (threads sel).filter (fun t => (w.maskSrc o.k.reg).getLsbD t)
    .done (s.setWeft h (w.putAll o.d (((threads sel).zip from_).map (fun p =>
      (p.1, { w.cell o.a.reg p.2 with full := true })))))))

end Sys2Proof.Machine
end

