-- ==== Sys2Proof/Machine/Control.lean ====
section
/-! DEFINITION. Control flow (R155 to R160) and the return from a trap (R181). -/

namespace Sys2Proof.Machine

/-- PC + 4 × Sext(offset, 64) (R24), exact. -/
def targetOf (pc : Va) (off : BitVec 32) : Int := (pc.toNat : Int) + 4 * off.toInt

/-- A target lies in the 57-bit space (R158). -/
def inSpace (x : Int) : Bool := 0 ≤ x && x < 2 ^ 57

/-- Bits 56:0 of an exact target. -/
def low57 (x : Int) : Nat := wrapNat 57 x

/-- The fault of a target outside the space: fetch page with INFO 4 (R158). -/
def Weft.farTarget (w : Weft) (x : Int) (m : Mask) : Trap := w.fault cFetch (info := 4) (addr := low57 x) (mask := m)

/-- BRA (R156). -/
def execBra (o : BraArgs) (s : State) : Out :=
  runPoint s 12 (fun s h => s.operate h (.plain o.g []) (fun w sel =>
    let x := targetOf w.pc o.off
    if !inSpace x then .trap s (w.farTarget x sel)
    else .moved (s.setWeft h (w.cleared.branch o.tag
      [⟨BitVec.ofNat 57 x.toNat, sel⟩, ⟨nextPc w.pc 12, w.active &&& ~~~sel⟩]))))

/-! ## Code reads (R362, R363) -/

/-- Lines of an instruction cache of 128 KiB (R3). -/
def icLines : Nat := 2048

/-- Bytes of one line of code as a core fetches them. A line in the instruction cache is read there; one that is uncorrectable there
is dropped and fetched again from its code page, and the error counts as a corrected one (R363). A line fetched enters the cache,
and the one fetched longest ago leaves a full one (DESIGN CHOICE, log 10). Code does not change while a kernel runs (R50), so the
cache holds what its page holds. -/
def State.codeRead (s : State) (w : Weft) (pa n : Nat) : State × Option (List Byte) :=
  let core := s.coreOf w
  let line := pa / 64
  let c := s.core core
  let s := if c.icBad.contains line then
      (s.setCore core { c with icache := c.icache.filter (fun x => x ≠ line), icBad := c.icBad.filter (fun x => x ≠ line) }).errEvent 0 0 0
        (.l1 core (line * 64))
    else s
  if (s.core core).icache.contains line then (s, some (Store.bytes s.mem pa n))
  else match s.homeRead pa n 5 (s.asidOf w) with
    | (s, none) => (s, none)
    | (s, some l) => (s.setCore core { s.core core with icache := (line :: (s.core core).icache).take icLines }, some l)

/-! ## BRX (R157) -/

/-- A word read through instruction-fetch translation. -/
inductive CodeWord where
  | ok (v : BitVec 32)
  | trap (t : Trap)
  | mig

/-- Read a code word at a 64-bit address for a weft (R157, R362). -/
def State.codeWord (s : State) (w : Weft) (va : Nat) (m : Mask) : State × CodeWord :=
  match s.translate (s.coreOf w) (s.asidOf w) va .fetch with
  | (s, .mig) => (s, .mig)
  | (s, .fault c i) => (s, .trap (w.fault c (info := i) (addr := va) (mask := m)))
  | (s, .ok pa) =>
    match s.codeRead w pa 4 with
    | (s, none) => (s, .trap (w.fault cAbort (addr := va) (mask := m)))
    | (s, some l) => (s, .ok (BitVec.ofNat 32 (leNat l)))

/-- The targets of the selected threads, read one after another: each thread's exact target. -/
def State.brxTargets (s : State) (w : Weft) (T : Nat) (idx : Nat → Nat) :
    List Nat → List (Nat × Int) → State × (List (Nat × Int) ⊕ Option Trap)
  | [], acc => (s, .inl acc)
  | t :: rest, acc =>
    match s.codeWord w ((T + 4 * idx t) % 2 ^ 64) (tbit t) with
    | (s, .mig) => (s, .inr none)
    | (s, .trap x) => (s, .inr (some x))
    | (s, .ok v) => s.brxTargets w T idx rest (acc ++ [(t, (T : Int) + 4 * v.toInt)])

/-- The jump itself, once every index is in range and every entry read. -/
def State.brxGo (s : State) (h : Nat) (w : Weft) (o : BrxArgs) (sel : Mask) (l : List (Nat × Int)) : Eff :=
  let far := l.filter (fun p => !inSpace p.2)
  match far with
  | p :: _ => .trap s (w.farTarget p.2 (maskOf (far.map (fun q => q.1))))
  | [] =>
    .moved (s.setWeft h (w.cleared.branch o.tag (l.map (fun p => (⟨BitVec.ofNat 57 p.2.toNat, tbit p.1⟩ : Path)) ++
      [⟨nextPc w.pc 12, w.active &&& ~~~sel⟩])))

/-- BRX (R157). -/
def execBrx (o : BrxArgs) (s : State) : Out :=
  runPoint s 12 (fun s h => s.operate h (.plain o.g [opS 1 cFlt tInt o.a]) (fun w sel =>
    let T := wrapNat 64 (targetOf w.pc o.off)
    match s.codeWord w (wrapNat 64 (targetOf w.pc o.off - 4)) sel with
    | (s, .mig) => .hold s .mig
    | (s, .trap x) => .trap s x
    | (s, .ok n) =>
      let idx (t : Nat) : Nat := (w.int 64 true o.a t).toNat
      let past := maskOf ((threads sel).filter (fun t => n.toNat ≤ idx t))
      if past ≠ 0 then .trap s (w.fault cRange (field := 1) (addr := T) (mask := past))
      else
        match s.brxTargets w T idx (threads sel) [] with
        | (s, .inr none) => .hold s .mig
        | (s, .inr (some x)) => .trap s x
        | (s, .inl l) => s.brxGo h w o sel l))

/-! ## Calls (R158) -/

/-- Move the whole running path to an exact target, or fault. -/
def State.transfer (s : State) (h : Nat) (w : Weft) (x : Int) (sel : Mask) : Eff :=
  if inSpace x then .moved (s.setWeft h (w.cleared.goto (BitVec.ofNat 57 x.toNat))) else .trap s (w.farTarget x sel)

/-- The return address CALL saves, as INT64 (R22, R158). -/
def returnCell (w : Weft) : Cell := mkCell (nextPc w.pc 12).toNat tagI64

/-- CALL to a label (R158). -/
def execCall (o : CallArgs) (s : State) : Out :=
  runPoint s 12 (fun s h => s.operate h (.plain o.g [opD [.s] o.d]) (fun w sel =>
    s.transfer h (w.put o.d 0 (returnCell w)) (targetOf w.pc o.off) sel))

/-- CALL.R: A is INT64, or INT32 zero-extended; the sum is taken in 64 bits (R158). -/
def execCallR (o : CallRArgs) (s : State) : Out :=
  runPoint s 12 (fun s h => s.operate h (.plain o.g [opS 1 [.s] tInt o.a, opD [.s] o.d]) (fun w sel =>
    let x := wrapNat 64 (w.int 64 true o.a 0 + 4 * o.off.toInt)
    s.transfer h (w.put o.d 0 (returnCell w)) (x : Int) sel))

/-- RET (R158). -/
def execRet (o : RetArgs) (s : State) : Out :=
  runPoint s 8 (fun s h => s.operate h (.plain o.g [opS 1 [.s] (some [1]) o.a]) (fun w sel =>
    s.transfer h w ((w.cell o.a.reg 0).val.toNat : Int) sel))

/-! ## Joining, ending, yielding (R159) -/

/-- JOIN (R102). -/
def execJoin (o : JoinArgs) (s : State) : Out :=
  runWeft o.g s 8 (fun s h => s.operate h (.plain o.g []) (fun w _ =>
    .moved (s.setWeft h (w.cleared.join o.tag (nextPc w.pc 8)))))

/-- EXIT (R108): the selected threads leave; the others of the path go on. -/
def execExit (o : PlainArgs) (s : State) : Out :=
  runPoint s 8 (fun s h => s.operate h (.plain o.g []) (fun w sel =>
    .moved ((s.setWeft h { w.cleared with pc := nextPc w.pc 8 }).exit h sel)))

/-- YIELD (R106). -/
def execYield (o : PlainArgs) (s : State) : Out :=
  runWeft o.g s 8 (fun s h => s.operate h (.plain o.g []) (fun w _ =>
    .moved (s.setWeft h (w.cleared.yield (nextPc w.pc 8)))))

/-- NOP (R155): nothing but the next PC. -/
def execNop (o : PlainArgs) (s : State) : Out :=
  runWeft o.g s 8 (fun s h => s.operate h (.plain o.g []) (fun _ _ => .done s))

/-! ## Software faults and the return (R160, R181) -/

/-- Bytes of BRK and TRAP. -/
def codeLen : Option (BitVec 32) → Nat
  | none => 8
  | some _ => 12

/-- The code of BRK and TRAP, 0 in the short form. -/
def codeOf : Option (BitVec 32) → Nat
  | none => 0
  | some c => c.toNat

/-- BRK: the breakpoint fault at its own PC (R160). -/
def execBrk (o : CodeArgs) (s : State) : Out :=
  runWeft o.g s (codeLen o.code) (fun s h => s.operate h (.plain o.g []) (fun w sel =>
    .trap s (w.fault cBreak (info := codeOf o.code) (mask := sel))))

/-- TRAP: the software-trap fault, TRAPPC past it (R160). -/
def execTrap (o : CodeArgs) (s : State) : Out :=
  runWeft o.g s (codeLen o.code) (fun s h => s.operate h (.plain o.g []) (fun w sel =>
    .trap s { w.fault cSoft (info := codeOf o.code) (mask := sel) with pc := nextPc w.pc (codeLen o.code) }))

/-- RFT (R181). -/
def execRft (o : PlainArgs) (s : State) : Out :=
  runWeft o.g s 8 (fun s h => s.operate h (.plain o.g []) (fun w sel =>
    if w.mayReturn then
      let w := w.cleared.returnFromTrap
      .moved (s.setWeft h (w.goto w.pc))
    else .trap s (w.fault cIllegal (mask := sel))))

end Sys2Proof.Machine
end

