-- ==== Sys2Proof/Machine/Access.lean ====
section
/-! DEFINITION. Memory access as the weft instructions share it: the elements of a record and their checks (R187 to R191),
scratchpad and vault accesses (R200, R226, R227, R236), the write buffer (R308), what a release waits for and an acquire
does (R205, R329, R480), and the order in which one weft's accesses to one address are performed (R198). -/

namespace Sys2Proof.Machine

/-! ## Elements of a record (R187, R190) -/

/-- Where an element starts: its exact byte address, its bit in that byte, the bytes it touches. -/
structure Spot where
  at_ : Int
  bit : Nat
  n : Nat
  deriving DecidableEq, Repr

/-- Bytes from one element to the next (R187). -/
def Rec.step (r : Rec) : Nat := if r.stride = 0 then encBits r.enc / 8 else r.stride

/-- The place of element `i` (R187). -/
def Rec.spot (r : Rec) (i : Int) : Spot :=
  match encBits r.enc with
  | 4 => ⟨r.base + i / 2, 4 * (i % 2).toNat, 1⟩
  | 1 => ⟨r.base + i / 8, (i % 8).toNat, 1⟩
  | z => ⟨r.base + i * r.step, 0, z / 8⟩

/-- ok of R190. -/
def Rec.inside (r : Rec) (i : Int) : Bool :=
  let p := r.spot i
  0 ≤ i && p.at_ + p.n ≤ (r.base + r.len : Nat)

/-- Bytes of a scale (R186). -/
def scaleBytes (smode : Nat) : Nat := if smode = 1 then 1 else 4

/-- The block of an element. -/
def Rec.block (r : Rec) (i : Int) : Nat := (i / 2 ^ r.sblk).toNat

/-- The address of an element's scale (R186). -/
def Rec.scaleAt (r : Rec) (i : Int) : Nat := r.sbase + r.block i * scaleBytes r.smode

/-- The group size of a register format through a record (R190, R194). -/
def Rec.group (r : Rec) (fmt : Nat) : Nat := if fmt = 9 && r.smode = 1 then 14 else elemCount fmt

/-- Element `j` of a group at `e` (R190). -/
def Rec.index (r : Rec) (e : Int) (j : Nat) : Int := e + (j * 2 ^ r.ilv : Nat)

/-- A pair reads or writes scales through a record: no P pair does, but for MXFP4x16 (R192, R194). -/
def Rec.usesScale (r : Rec) (p : PairKind) (fmt : Nat) : Bool := r.smode ≠ 0 && (p = .float || fmt = 9)

/-- An element to be accessed: thread, place in its group, index, and the threads a fault at it names. -/
structure Elem where
  thr : Nat
  j : Nat
  i : Int
  who : Mask
  deriving DecidableEq, Repr

/-- The threads an access is made for: each selected one, or the weft once (R197). -/
def lanesWho (once : Bool) (sel : Mask) : List (Nat × Mask) :=
  if once then [(0, sel)] else (threads sel).map (fun t => (t, tbit t))

/-- The elements of an access in the order of R190, `fmt` giving each thread's register format. -/
def Rec.elems (r : Rec) (fmt : Nat → Nat) (e : Nat → Int) (l : List (Nat × Mask)) : List Elem :=
  l.flatMap (fun p => (List.range (r.group (fmt p.1))).map (fun j => ⟨p.1, j, r.index (e p.1) j, p.2⟩))

/-- Bits 56:0 of an exact address. -/
def addr57 (x : Int) : Nat := wrapNat 57 x

/-- The elements' places, a fault, or a hold on a migrating page. -/
inductive Places where
  | ok (l : List ELoc)
  | trap (t : Trap)
  | mig

/-- An exact virtual address translated for a weft: a physical address, a fault naming threads, or a hold. -/
def State.place1 (s : State) (w : Weft) (va : Nat) (k : XKind) (who : Mask) : State × (Nat ⊕ Option Trap) :=
  match s.translate (s.coreOf w) (s.asidOf w) va k with
  | (s, .mig) => (s, .inr none)
  | (s, .fault c i) => (s, .inr (some (w.fault c (info := i) (addr := va) (mask := who))))
  | (s, .ok pa) => (s, .inl pa)

/-- The page through which a weft's access was translated just now (R359). -/
def State.usedBy (s : State) (w : Weft) (va : Nat) : Nat × Nat := s.usedPage (s.coreOf w) (s.asidOf w) va

/-- The checks of R190, element after element: bounds, then translation, then its scale's translation. A fault or a hold leaves
what its own walk did and nothing of the accesses before it, which are not made (R15, R353); a fault at a scale gives the scale's
address (DEDUCED, log 138). -/
def State.resolveFrom (s0 s : State) (w : Weft) (r : Rec) (k : XKind) (scaled : Bool) : List Elem → List ELoc → State × Places
  | [], acc => (s, .ok acc)
  | x :: rest, acc =>
    let p := r.spot x.i
    let stop (va : Nat) (y : Option Trap) : State × Places :=
      ((s0.place1 w va k x.who).1, match y with | some t => .trap t | none => .mig)
    if !r.inside x.i then
      if r.bounds = 1 then s0.resolveFrom s w r k scaled rest (acc ++ [⟨x.thr, x.j, none, none, []⟩])
      else (s0, .trap (w.fault cProtection (info := 1) (addr := addr57 p.at_) (mask := x.who)))
    else match s.place1 w p.at_.toNat k x.who with
      | (_, .inr y) => stop p.at_.toNat y
      | (s, .inl pa) =>
        let u := s.usedBy w p.at_.toNat
        if !scaled then s0.resolveFrom s w r k scaled rest (acc ++ [⟨x.thr, x.j, some (pa, p.bit), none, [u]⟩])
        else match s.place1 w (r.scaleAt x.i) k x.who with
          | (_, .inr y) => stop (r.scaleAt x.i) y
          | (s, .inl sc) => s0.resolveFrom s w r k scaled rest
              (acc ++ [⟨x.thr, x.j, some (pa, p.bit), some sc, [u, s.usedBy w (r.scaleAt x.i)]⟩])

/-- The places of an access's elements, or the first check that fails. -/
def State.resolve (s : State) (w : Weft) (r : Rec) (k : XKind) (scaled : Bool) (l : List Elem) (acc : List ELoc) :
    State × Places :=
  s.resolveFrom s w r k scaled l acc

/-- A form that names a buffer record. -/
def recForm (g : Guard) (br : BitVec 8) (ops : List Opnd) : Form :=
  { g := g, ops := ops, recs := [br.toNat], matrix := false, wrong := none }

/-- The record an instruction names. -/
def State.recordOf (s : State) (w : Weft) (br : BitVec 8) : BufRec := (s.boltOf w).recs.getD br.toNat ⟨0, 0, 0, 0, 0⟩

/-- The faults of a record itself (R187, R191). They are faults of the record, not of an address, so TRAPADDR is 0 (DEDUCED, log
139). -/
def Weft.recordFault (w : Weft) (b : BufRec) (write : Bool) (sel : Mask) : Option Trap :=
  let r := b.fields
  if !b.ok then some (w.fault cTag (info := 1) (mask := sel))
  else if write && r.rdonly then some (w.fault cProtection (info := 2) (mask := sel))
  else if write && r.shadow then some (w.fault cProtection (info := 3) (mask := sel))
  else if r.rv then some (w.fault cProtection (info := 5) (mask := sel))
  else none

/-- The element index or byte offset of a thread (R190, R196). -/
def Weft.offset (w : Weft) (off : Src) (add : Int) (t : Nat) : Int := w.int 64 false off t + add

/-- Selected threads whose MXFP4x16 group crosses a block. R194 gives the fault among the rules of MXFP4x16 registers, and R195
spreads the groups of other registers over blocks, so it is taken for MXFP4x16 alone (DEDUCED, log 140). -/
def Rec.crossing (r : Rec) (fmt : Nat → Nat) (e : Nat → Int) (l : List (Nat × Mask)) : Mask :=
  (l.filter (fun p => fmt p.1 = 9 && r.smode = 1 &&
    (List.range 14).any (fun j => r.index (e p.1) j / 32 ≠ r.index (e p.1) 0 / 32))).foldl (fun m p => m ||| p.2) 0

/-- The fault of groups that cross a block: the first address concerned is that of the lowest thread's first element (R210). -/
def Rec.crossFault (r : Rec) (w : Weft) (e : Nat → Int) (cut : Mask) : Trap :=
  w.fault cTag (info := 3) (addr := addr57 (r.spot (r.index (e ((threads cut).headD 0)) 0)).at_) (mask := cut)

/-! ## One weft's accesses in order (R198) -/

/-- A register names a scalar. -/
def isScalar : Reg → Bool
  | .s _ => true
  | _ => false

/-- The destination of a flight. -/
def Flight.dest (f : Flight) : Reg :=
  match f.kind with
  | .load d .. => d
  | .ready d .. => d
  | .atom d .. => d
  | .waitv d .. => d
  | .popw b .. => .s (BitVec.ofNat 6 b)
  | .xld d .. => d
  | .xatom d .. => d

/-- A flight belongs to some of the threads; one of a scalar belongs to all. -/
def Flight.meets (f : Flight) (sel : Mask) : Bool := isScalar f.dest || f.mask &&& sel ≠ 0

/-- A flight's acquire, if it makes one when it lands. -/
def Flight.acquires (f : Flight) : Bool :=
  let wide (a : Option Scope) : Bool := match a with
    | some .weft => false
    | some _ => true
    | none => false
  match f.kind with
  | .load _ _ _ _ _ _ a _ _ => wide a
  | .atom _ _ _ _ a => wide a
  | .waitv _ _ _ _ a _ _ _ => wide a
  | .xld _ _ _ _ _ _ a _ _ => a
  | .xatom _ _ a => a
  | _ => false

/-- A flight that is a read of local memory not yet performed. -/
def Flight.reads (f : Flight) : Bool :=
  match f.kind with
  | .load .. => true
  | .atom .. => true
  | .waitv .. => true
  | _ => false

/-- Some selected thread has an acquire that has not been performed: what it does next waits (R325). -/
def Weft.acquiring (w : Weft) (sel : Mask) : Bool := w.flights.any (fun f => f.acquires && f.meets sel)

/-- Some selected thread has a read that has not been performed. -/
def Weft.owesReads (w : Weft) (sel : Mask) : Bool := w.flights.any (fun f => f.reads && f.meets sel)

/-- Execute a form that accesses memory or synchronises. -/
def State.access (s : State) (h : Nat) (f : Form) (body : Weft → Mask → Eff) : Eff :=
  s.operate h f (fun w sel => if w.acquiring sel then .hold s .release else body w sel)

/-! ## Releases (R323, R329, R480) -/

/-- What a release comes to: done, a wait, or a failure it must report. -/
inductive Rel where
  | go (s : State)
  | hold (s : State) (wt : Wait)
  | trap (s : State) (t : Trap)

/-- A release at a scope above BOLT waits for the bolt's writes. -/
def Scope.course : Scope → Bool
  | .weft | .bolt => false
  | _ => true

/-- The release of R480 once the SPAN release is done: markers on every path, and the failures found on them. -/
def State.releaseDomain (s : State) (h : Nat) (sel : Mask) : Rel :=
  let w := s.weft h
  let asid := s.asidOf w
  let failed (s : State) (next : State → Rel) : Rel :=
    match s.takeFailure asid with
    | some (i, a, s) => .trap s { w.fault cPeer (info := i) (mask := sel) with addr := a }
    | none => next s
  match w.relTags with
  | none => failed s (fun s =>
      let (s, tags) := s.markAll asid
      if tags.isEmpty && !s.gwBusy asid then .go s
      else .hold (s.setWeft h { s.weft h with relTags := some tags }) .remote)
  | some tags =>
    if s.unanswered tags || s.gwBusy asid then .hold s .remote
    else failed s (fun s => .go (s.setWeft h { s.weft h with relTags := none }))

/-- A release by the selected threads at a scope: their reads have been performed, at COURSE scope and wider the bolt's
global writes too, and at DOMAIN scope the markers are answered. -/
def State.release (s : State) (h : Nat) (sel : Mask) (sc : Scope) : Rel :=
  let w := s.weft h
  if sc = .weft then .go s
  else if w.owesReads sel then .hold s .release
  else if Scope.course sc && s.undrained w.bolt then .hold s .release
  else if sc = .domain then s.releaseDomain h sel
  else .go s

/-- Release if the instruction carries one, then go on. -/
def State.releasing (s : State) (h : Nat) (sel : Mask) (sc : Option Scope) (next : State → Eff) : Eff :=
  match sc with
  | none => next s
  | some x => match s.release h sel x with
    | .go s => next s
    | .hold s wt => .hold s wt
    | .trap s t => .trap s t

/-- Acquire if the instruction carries one whose read has been performed. -/
def State.acquiresNow (s : State) (core : Nat) (sc : Option Scope) : State :=
  match sc with
  | none => s
  | some x => s.acquire core x

/-! ## The write buffer (R308) -/

/-- Bytes from an address cut at 64-byte lines. -/
def lineCuts : Nat → Nat → List Byte → List (Nat × List Byte)
  | 0, _, _ => []
  | _ + 1, _, [] => []
  | n + 1, pa, l => (pa, l.take (64 - pa % 64)) :: lineCuts n (pa + (64 - pa % 64)) (l.drop (64 - pa % 64))

/-- A cached translation leads to a frame. -/
def TlbEnt.covers (t : TlbEnt) (frame : Nat) : Bool :=
  entryAddr t.entry.toNat / granule ≤ frame && frame < entryAddr t.entry.toNat / granule + t.span

/-- The pages through which a core has just reached an address of a frame (R359). -/
def State.usesAt (s : State) (core asid pa : Nat) : List (Nat × Nat) :=
  ((s.tlb.filter (fun t => (t.core = core || t.core = clusterTlb core) && t.asid = asid && t.covers (pa / granule))).map
    (fun t => (t.vpn, t.span))).eraseDups

/-- Put writes into the write buffer of the weft's core, one place in the weft's order for all of them. -/
def State.pushStores (s : State) (h : Nat) (l : List (Nat × List Byte)) : State :=
  let w := s.weft h
  let (seq, s) := s.stamp
  let n := s.coreOf w
  let c := s.core n
  let es := (l.flatMap (fun p => lineCuts (p.2.length / 64 + 2) p.1 p.2)).map (fun p =>
    ({ bolt := w.bolt, weft := h, seq := seq, pa := p.1, uses := s.usesAt n (s.asidOf w) p.1, data := p.2 } : WEntry))
  s.setCore n { c with wbuf := c.wbuf ++ es }

/-! ## Scratchpad and vault (R200, R226, R227, R236) -/

/-- What an offset addresses: the scratchpad of a bolt or the vault window of a course, by handle. -/
inductive Space where
  | sp (b : Nat)
  | vt (c : Nat)
  deriving DecidableEq, Repr

/-- Bytes of a space. -/
def State.spaceLen (s : State) : Space → Nat
  | .sp b => (s.bolt b).scratch
  | .vt c => (s.course c).vlen

/-- The bytes at an offset of a space. -/
def State.spaceRead (s : State) (x : Space) (off n : Nat) : List Byte :=
  match x with
  | .sp b => Store.bytes (s.bolt b).sp off n
  | .vt c => Store.bytes (s.course c).vault off n

/-- The place of an error in a space (R365), and the address space that meets it. -/
def Space.errAt (x : Space) (off : Nat) : ErrAt :=
  match x with
  | .sp b => .sp b off
  | .vt c => .vault c off
def State.spaceAsid (s : State) : Space → Nat
  | .sp b => (s.span (s.course (s.bolt b).course).span).asid
  | .vt c => (s.span (s.course c).span).asid

/-- Uncorrectable 8-byte words of a space. -/
def State.spaceBad (s : State) : Space → List Nat
  | .sp b => (s.bolt b).spBad
  | .vt c => (s.course c).vBad

/-- The running ordered sequences of a space (R203). -/
def State.spaceFolds (s : State) : Space → List OrdFold
  | .sp b => (s.bolt b).folds
  | .vt c => (s.course c).folds

/-- Set the running ordered sequences of a space. -/
def State.setFolds (s : State) (x : Space) (l : List OrdFold) : State :=
  match x with
  | .sp b => s.setBolt b { s.bolt b with folds := l }
  | .vt c => s.setCourse c { s.course c with folds := l }

/-- An access to some bytes of a space ends the ordered sequences there (R203). -/
def State.spaceSplit (s : State) (x : Space) (off n : Nat) : State :=
  let l := s.spaceFolds x
  let k := l.filter (fun f => !overlap f.off (if f.w8 then 8 else 4) off n)
  if k = l then s else s.setFolds x k

/-- Accesses to some ranges of a space end the ordered sequences there. -/
def State.spaceSplits (s : State) (x : Space) (l : List (Nat × Nat)) : State :=
  l.foldl (fun (s : State) p => s.spaceSplit x p.1 p.2) s

/-- A read of some bytes of a space meets an uncorrectable word: the event of the first. -/
def State.spaceError (s : State) (consumer : Nat) (x : Space) (off n : Nat) : State :=
  s.errEvent 1 consumer (s.spaceAsid x) (x.errAt (firstBad (s.spaceBad x) off n))

/-- Write at most eight bytes that lie in one word. A write that does not replace an uncorrectable word whole is withheld
(R211, R364). -/
def State.spaceWrite (s : State) (x : Space) (off : Nat) (l : List Byte) : State :=
  let u := off / 8
  let s := s.spaceSplit x off l.length
  if (s.spaceBad x).contains u && l.length < 8 then s.errEvent 1 7 (s.spaceAsid x) (x.errAt (8 * u))
  else match x with
    | .sp b =>
      let y := s.bolt b
      s.setBolt b { y with sp := Store.putBytes y.sp off l, spBad := y.spBad.filter (fun v => v ≠ u) }
    | .vt c =>
      let y := s.course c
      s.setCourse c { y with vault := Store.putBytes y.vault off l, vBad := y.vBad.filter (fun v => v ≠ u) }

/-- One thread's access to a space. -/
structure SAcc where
  thr : Nat
  sp : Space
  off : Nat
  n : Nat
  who : Mask
  deriving DecidableEq, Repr

/-- The space a thread addresses: its own scratchpad, another bolt's by an unsigned index, or the vault. -/
inductive Target where
  | own
  | bolt (a : Src)
  | vault
  deriving DecidableEq, Repr

/-- The space, or none for a bolt index at or above ID.BOLTS (R200). -/
def State.spaceOf (s : State) (w : Weft) (x : Target) (t : Nat) : Option Space :=
  match x with
  | .own => some (.sp w.bolt)
  | .vault => some (.vt (s.boltOf w).course)
  | .bolt a => (s.boltIn (s.boltOf w).course (w.int 64 true a t).toNat).map .sp

/-- Checks of R200 thread by thread: the bolt's index, alignment, the allocation. -/
def State.spacePlaces (s : State) (w : Weft) (x : Target) (e : Nat → Int) (n : Nat → Nat) :
    List Nat → List SAcc → List SAcc ⊕ Trap
  | [], acc => .inl acc
  | t :: rest, acc =>
    match s.spaceOf w x t with
    | none => .inr (w.fault cProtection (info := 6) (addr := addr57 (e t)) (mask := tbit t))
    | some sp =>
      if e t % (n t : Int) ≠ 0 then .inr (w.fault cProtection (info := 4) (addr := addr57 (e t)) (mask := tbit t))
      else if e t < 0 || (s.spaceLen sp : Int) < e t + n t then
        .inr (w.fault cProtection (info := 1) (addr := addr57 (e t)) (mask := tbit t))
      else s.spacePlaces w x e n rest (acc ++ [⟨t, sp, (e t).toNat, n t, tbit t⟩])

/-- The fault of an access whose bytes belong to a barrier object or to a buffer in a state that forbids it (R227,
R236). -/
def State.guarded (s : State) (w : Weft) (write : Bool) (a : SAcc) : Option Trap :=
  match a.sp with
  | .vt _ => none
  | .sp b =>
    let y := s.bolt b
    if write && y.hitsObject b a.off a.n then
      some (w.fault cProtection (info := 8) (addr := a.off) (mask := a.who))
    else (y.bufRefuses a.off a.n write).map (fun p =>
      w.fault cBuffer (info := p.1.code + (if write then 4 else 0)) (addr := p.2) (mask := a.who))

/-- All checks of a scratchpad or vault access, before any effect. -/
def State.spaceChecked (s : State) (w : Weft) (write : Bool) (x : Target) (e : Nat → Int) (n : Nat → Nat) (sel : Mask) :
    List SAcc ⊕ Trap :=
  match s.spacePlaces w x e n (threads sel) [] with
  | .inr t => .inr t
  | .inl l => match l.findSome? (fun a => s.guarded w write a) with
    | some t => .inr t
    | none => .inl l

/-- An access meets an uncorrectable word. -/
def State.accBad (s : State) (a : SAcc) : Bool := badIn (s.spaceBad a.sp) 8 a.off a.n

/-- Operand of an optional .X field. -/
def boltOps : Option Src → List Opnd
  | none => []
  | some a => [opS 1 [.v, .s] tInt a]
/-- The target an optional .X field names. -/
def boltTarget : Option Src → Target
  | none => .own
  | some a => .bolt a

/-- Classes of an offset field (R196). -/
abbrev cOff : List RC := [.v, .s, .z, .l]

/-- Issue a read whose bytes have been taken: cells by thread, the threads whose read was answered by an abort. -/
def State.issueReady (s : State) (h : Nat) (d : Reg) (sel : Mask) (cells : List (Nat × Cell)) (dead : Mask) : State :=
  let (fid, s) := s.stamp
  let w := (s.weft h).emptyAll d sel
  let f : Flight := { fid := fid, mask := sel &&& ~~~dead, aborted := dead,
                      kind := .ready d cells none dead false false false }
  s.setWeft h { w with flights := w.flights ++ [f] }

/-- Issue a producer that reads when it lands. -/
def State.issueFlight (s : State) (h : Nat) (d : Reg) (sel m : Mask) (k : FlightKind) : State :=
  let (fid, s) := s.stamp
  let w := (s.weft h).emptyAll d sel
  let f : Flight := { fid := fid, mask := m, aborted := 0, kind := k }
  s.setWeft h { w with flights := w.flights ++ [f] }

end Sys2Proof.Machine
end

