-- ==== Sys2Proof/Machine/Buffers.lean ====
section
/-! DEFINITION. Barriers and declared buffers as instructions (R239 to R250): BARINIT, BARINVAL, BARARRIVE, BAREXPECT, BARWAIT,
BARPHASE, BUFDECL, BUFREL and the operations of BUFSTATE. -/

namespace Sys2Proof.Machine

/-- Classes of every register field of R239. -/
abbrev cBar : List RC := [.s, .z]

/-- The operand of an optional .X field. -/
def xOps : Option Src → List Opnd
  | none => []
  | some a => [opS 1 cBar tInt a]

/-- The checks of R240: the bolt's index, alignment, the allocation. The owner's handle and the offset, or a fault. -/
def State.barTarget (s : State) (w : Weft) (bolt : Option Src) (off : Src) (add : Option (BitVec 32)) (align : Nat)
    (sel : Mask) : (Nat × Nat) ⊕ Trap :=
  let e := w.offset off (addInt add) 0
  let owner := match bolt with
    | none => some w.bolt
    | some a => s.boltIn (s.boltOf w).course (w.int 64 true a 0).toNat
  match owner with
  | none => .inr (w.fault cProtection (info := 6) (mask := sel))
  | some b =>
    if e % (align : Int) ≠ 0 then .inr (w.fault cProtection (info := 4) (addr := addr57 e) (mask := sel))
    else if e < 0 || ((s.bolt b).scratch : Int) < e + align then
      .inr (w.fault cProtection (info := 1) (addr := addr57 e) (mask := sel))
    else .inl (b, e.toNat)

/-- The object or buffer an instruction of R239 names, then its own part. -/
def State.barAt (s : State) (bolt : Option Src) (off : Src) (add : Option (BitVec 32)) (align : Nat)
    (body : State → Weft → Mask → Nat → Nat → Eff) (w : Weft) (sel : Mask) : Eff :=
  match s.barTarget w bolt off add align sel with
  | .inr t => .trap s t
  | .inl (b, f) => body s w sel b f

/-- An instruction of R239: its form, then its own part at the object or buffer it names. -/
def barOp (g : Guard) (bolt : Option Src) (off : Src) (ops : List Opnd) (add : Option (BitVec 32)) (align : Nat)
    (body : State → Weft → Mask → Nat → Nat → Eff) (s : State) (h : Nat) : Eff :=
  s.access h (.plain g (xOps bolt ++ ops)) (s.barAt bolt off add align body)

/-- Read the object at an offset: an uncorrectable word in it traps the weft, for the read has no lane to kill (R110, R362; DEDUCED, log
156). -/
def State.objRead (s : State) (w : Weft) (b f : Nat) (sel : Mask) (next : Eff) : Eff :=
  if s.objAborts b f then
    .trap (s.errEvent 1 2 (s.asidOf w) (.sp b (firstBad (s.bolt b).spBad f 32)))
      (w.fault cAbort (addr := firstBad (s.bolt b).spBad f 32) (mask := sel))
  else next

/-- Write D as INT64. -/
def State.answered (s : State) (h : Nat) (d : Reg) (x : Nat) : State := s.setWeft h ((s.weft h).put d 0 (mkCell x tagI64))

/-- Write D as INT64 and complete. -/
def State.answer (s : State) (h : Nat) (d : Reg) (x : Nat) : Eff := .done (s.answered h d x)

/-- The scope of a barrier (R228). -/
def State.barScope (s : State) (owner off : Nat) : Scope := if ((s.bolt owner).obj off).crs then .course else .bolt

/-- The acquire of a phase wait that has returned for a phase (R232, R481). -/
def State.phaseAcquire (s : State) (core owner off : Nat) (p : Word32) : State :=
  let sig := (s.bolt owner).bars.any (fun e => e.owner = owner && e.off = off && e.remote.contains p)
  if s.barScope owner off = .course || sig then s.acquireL1 core else s

/-- The weft is held in a phase wait on the object. -/
def Weft.waited (w : Weft) (owner off : Nat) : Bool := w.waitsOn owner off

/-- Hold the weft in a phase wait. -/
def State.holdPhase (s : State) (h owner off : Nat) (p : Word32) (wt : Wait) : Eff :=
  .hold (s.setWeft h { s.weft h with repeatPhase := some (owner, off, p) }) wt

/-- A phase wait (R233): goes on once phase `p` has passed, faults when the object is not LIVE, holds otherwise. -/
def State.phaseWait (s : State) (h owner off : Nat) (p : Word32) (sel : Mask) (wt : Wait) (next : State → Eff) : Eff :=
  let w := s.weft h
  if phasePassed ((s.bolt owner).barPhase off) p then next (s.phaseAcquire (s.coreOf w) owner off p)
  else if s.barState owner off ≠ 1 then .trap s (s.barFault w owner off sel (w.waited owner off))
  else s.holdPhase h owner off p wt

/-! ## BARINIT and BARINVAL (R241, R242) -/

/-- The bolts that register a barrier (R229). -/
def State.barBolts (s : State) (owner : Nat) (crs : Bool) (pmask : Nat) : List Nat :=
  if crs && pmask ≠ 0 then (s.bolts.filter (fun p => p.2.course = (s.bolt owner).course)).map (·.1) else [owner]

/-- A bolt's part of its core's barrier table has room (R223), the object's own entry not counted. -/
def State.barRoom (s : State) (owner off bh : Nat) : Bool :=
  let mine (b : Bolt) : Nat := (b.bars.filter (fun e => !(e.owner = owner && e.off = off))).length
  mine (s.bolt bh) < 32 &&
    ((s.bolts.filter (fun p => p.2.core = (s.bolt bh).core && !p.2.out && !s.courseOver p.2.course)).map (fun p => mine p.2)).sum < 64

/-- Participant threads that have died or exited (R241). -/
def State.barDead (s : State) (bs : List Nat) (pmask : Nat) : Nat :=
  ((s.wefts.filter (fun p => bs.contains p.2.bolt && pmask.testBit p.2.id)).map (fun p =>
    popMask ((p.2.dlm ||| p.2.exm) &&& p.2.bits))).sum

/-- Write and register a fresh LIVE object (R229, R241). -/
def State.barCreate (s : State) (owner off : Nat) (crs : Bool) (pmask : Nat) (n : Nat) : State :=
  let bs := s.barBolts owner crs pmask
  let dead := s.barDead bs pmask
  let parts := ((List.range 64).filter (fun i => pmask.testBit i)).length
  let s : State := { s with bolts := s.bolts.map (fun (p : Nat × Bolt) =>
    (p.1, if bs.contains p.1 then { p.2 with bars := p.2.bars ++ [⟨owner, off, [], []⟩] } else p.2)) }
  s.setBolt owner ((s.bolt owner).putObj off
    { phase := 0, state := 1, crs := crs, errinfo := 0, atgt := n * parts * (if crs then bs.length else 1),
      acnt := dead, btgt := 0, dcnt := dead, bcnt := 0, pmask := pmask })

/-- BARINIT. -/
def barinitOp (o : BarinitArgs) : State → Nat → Eff :=
  fun s h => barOp o.g none o.off [opS 2 cBar tInt o.off, opS 3 cBar tInt o.pmask, opD cBar o.d] o.add 32 (fun s w sel b f =>
    let pm := (w.int 64 true o.pmask 0).toNat
    let y := s.bolt b
    if 2 ^ y.nwefts ≤ pm || y.bufs.any (fun d => overlap f 32 d.base d.len) then
      .trap s (w.fault cProtection (info := 9) (addr := f) (mask := sel))
    else if !(s.barBolts b o.crs pm).all (fun x => s.barRoom b f x) then s.answer h o.d 1
    else s.releasing h sel (some (if o.crs then .course else .bolt)) (fun s =>
      let s := if s.barState b f = 0 then s else s.barInvalidate b f
      (s.barCreate b f o.crs pm w.n).answer h o.d 0)) s h

def execBarinit (o : BarinitArgs) (s : State) : Out := runWeft o.g s (lenA o.add) (barinitOp o)

/-- BARINVAL. -/
def execBarinval (o : BarinvalArgs) (s : State) : Out :=
  runWeft o.g s (lenA o.add) (barOp o.g none o.off [opS 2 cBar tInt o.off] o.add 32 (fun s _ _ b f =>
    .done (if s.barState b f = 0 then s else s.barInvalidate b f)))

/-! ## BARARRIVE and BAREXPECT (R230, R243) -/

/-- The threads that arrive, and whether the weft must first wait for the phase to end. -/
def State.arrivals (s : State) (w : Weft) (all : Bool) (sel : Mask) (owner off : Nat) : Mask × Bool :=
  let have_ := s.arrSet w.bolt w.id owner off
  if all then
    let t := w.alive &&& ~~~have_
    (t, t = 0)
  else (sel, sel &&& have_ ≠ 0)

/-- The event of an arrival, an expect, or both, at the object (R230). -/
def State.barHappen (s : State) (h owner off : Nat) (t : Mask) (bytes : Option Nat) : State :=
  let w := s.weft h
  let s := match bytes with
    | some a => s.barExpect owner off a
    | none => s
  let s := if t = 0 then s else s.barArrive owner off w.bolt w.id t
  s.barCheck owner off

/-- The event, the phase it happened in going to D (R230, R243). -/
def State.barEvent (s : State) (h : Nat) (d : Reg) (owner off : Nat) (t : Mask) (bytes : Option Nat) : Eff :=
  (s.barHappen h owner off t bytes).answer h d ((s.bolt owner).obj off).phase

/-- The acquire of the phase a weft waited for on the object before its instruction went on. -/
def State.afterWait (s : State) (w : Weft) (owner off : Nat) : State :=
  match w.waited owner off, w.repeatPhase with
  | true, some (_, _, p) => s.phaseAcquire (s.coreOf w) owner off p
  | _, _ => s

/-- Arrive with the selected or all live threads, expecting bytes or not. `arr` is none for a plain expect. -/
def barDo (arr : Option Bool) (bytes : Option (Weft → Nat)) (d : Reg) (s : State) (h : Nat) (w : Weft) (sel : Mask)
    (b f : Nat) : Eff :=
  let a := bytes.map (fun x => x w)
  let held := w.waited b f
  let tooMany : Bool := match a with
    | some x => 2 ^ 40 ≤ ((s.bolt b).obj f).btgt + x
    | none => false
  if s.barState b f ≠ 1 then .trap s (s.barFault w b f sel held)
  else if arr.isSome && !s.participant b f w.bolt w.id then
    .trap s (w.fault cProtection (info := 9) (addr := f) (mask := sel))
  else if tooMany then
    .trap s (w.fault cBarrier (info := 4) (addr := f) (mask := sel))
  else match arr with
    | none => s.barEvent h d b f 0 a
    | some all =>
      let (t, again) := s.arrivals w all sel b f
      let ph := (s.bolt b).barPhase f
      if again then s.holdPhase h b f ph (.barrier b f ph)
      else
        let s := s.afterWait w b f
        s.releasing h t (some (s.barScope b f)) (fun s => s.barEvent h d b f t a)

/-- BARARRIVE. -/
def execBararrive (o : BararriveArgs) (s : State) : Out :=
  runWeft o.g s (lenA o.add) (fun s h =>
    barOp o.g o.bolt o.off [opS 2 cBar tInt o.off, opD cBar o.d] o.add 32
      (fun s w sel b f => s.objRead w b f sel (barDo (some o.all) none o.d s h w sel b f)) s h)

/-- BAREXPECT. -/
def execBarexpect (o : BarexpectArgs) (s : State) : Out :=
  runWeft o.g s (lenA o.add) (fun s h =>
    barOp o.g o.bolt o.off [opS 2 cBar tInt o.off, opS 3 cBar tInt o.bytes, opD cBar o.d] o.add 32
      (fun s w sel b f => s.objRead w b f sel (barDo o.arr (some (fun w => (w.int 64 true o.bytes 0).toNat)) o.d s h w sel b f)) s h)

/-! ## BARWAIT and BARPHASE (R244, R245) -/

/-- BARWAIT. -/
def execBarwait (o : BarwaitArgs) (s : State) : Out :=
  runWeft o.g s (lenA o.add) (fun s h =>
    barOp o.g o.bolt o.off [opS 2 cBar tInt o.off, opS 3 cBar tInt o.phase] o.add 32 (fun s w sel b f =>
      let p : Word32 := BitVec.ofInt 32 (w.int 64 true o.phase 0)
      s.objRead w b f sel (s.phaseWait h b f p sel (.barrier b f p) (fun s => .done s))) s h)

/-- BARPHASE: PHASE, STATE and ERRINFO, whatever the state; it waits for nothing and orders nothing. -/
def execBarphase (o : BarphaseArgs) (s : State) : Out :=
  runWeft o.g s (lenA o.add) (fun s h =>
    s.operate h (.plain o.g (xOps o.bolt ++ [opS 2 cBar tInt o.off, opD cBar o.d]))
      (s.barAt o.bolt o.off o.add 32 (fun s w sel b f =>
        let x := (s.bolt b).obj f
        s.objRead w b f sel (s.answer h o.d (x.phase + s.barState b f * 2 ^ 32 + x.errinfo * 2 ^ 35)))))

/-! ## BUFDECL and BUFREL (R246, R247) -/

/-- The declared buffer at a base. -/
def Bolt.bufAt (b : Bolt) (base : Nat) : Option DBuf := b.bufs.find? (fun d => d.base = base)

/-- Replace the declared buffer at a base. -/
def Bolt.setBuf (b : Bolt) (d : DBuf) : Bolt := { b with bufs := b.bufs.map (fun (x : DBuf) => if x.base = d.base then d else x) }

/-- BUFDECL. -/
def bufdeclOp (o : BufdeclArgs) : State → Nat → Eff :=
  fun s h => barOp o.g none o.base [opS 1 cBar tInt o.bar, opS 2 cBar tInt o.base, opS 3 cBar tInt o.len, opD cBar o.d]
      o.add 64 (fun s w sel b base =>
    let y := s.bolt b
    let bar := w.int 64 false o.bar 0
    let len := (w.int 64 true o.len 0).toNat
    let prot (i : Nat) : Eff := .trap s (w.fault cProtection (info := i) (addr := base) (mask := sel))
    s.objRead w b bar.toNat sel <|
    if bar < 0 || s.barState b bar.toNat ≠ 1 then
      .trap s { s.barFault w b bar.toNat sel false with addr := BitVec.ofNat 57 (addr57 bar),
                                                        info := if bar < 0 then 3 else (s.barFault w b bar.toNat sel false).info }
    else if len = 0 || len % 64 ≠ 0 then prot 9
    else if y.scratch < base + len then prot 1
    else if y.bufs.any (fun d => overlap base len d.base d.len) || y.hitsObject b base len then prot 9
    else if 32 ≤ y.bufs.length then s.answer h o.d 1
    else
      let ph := y.barPhase bar.toNat
      let d : DBuf := { base := base, len := len, st := if o.fill then .filling else .free, bar := bar.toNat,
                        wph := if o.fill then ph else 0, wv := o.fill }
      (s.setBolt b { y with bufs := y.bufs ++ [d] }).answer h o.d 0) s h

def execBufdecl (o : BufdeclArgs) (s : State) : Out := runWeft o.g s (lenA o.add) (bufdeclOp o)

/-- An operation on the buffer at a base; one that no declared buffer starts at faults (R248, R249). -/
def bufOp (g : Guard) (base : Src) (ops : List Opnd) (add : Option (BitVec 32))
    (body : State → Weft → Mask → Nat → DBuf → Eff) (s : State) (h : Nat) : Eff :=
  barOp g none base ([opS 2 cBar tInt base] ++ ops) add 64 (fun s w sel b f =>
    match (s.bolt b).bufAt f with
    | some d => body s w sel b d
    | none => .trap s (w.fault cBuffer (info := 16) (addr := f) (mask := sel))) s h

/-- The wait of a buffer operation on its owning barrier. -/
def State.bufWait (s : State) (h b : Nat) (d : DBuf) (sel : Mask) (next : State → Eff) : Eff :=
  s.objRead (s.weft h) b d.bar sel (s.phaseWait h b d.bar d.wph sel (.buffer b d.bar d.wph) next)

/-- BUFREL: a weft that waited finds the buffer as the completion of the phase left it; one whose owning barrier is not LIVE goes at once, unless the weft already waited on it. -/
def execBufrel (o : BufrelArgs) (s : State) : Out :=
  runWeft o.g s (lenA o.add) (fun s h =>
    bufOp o.g o.base [] o.add (fun s w sel b d =>
      let remove (s : State) : Eff :=
        let y := s.bolt b
        .done (s.setBolt b { y with bufs := y.bufs.filter (fun x => x.base ≠ d.base) })
      if d.st = .free || d.st = .full || (s.barState b d.bar ≠ 1 && !w.waited b d.bar) then
        remove (s.afterWait w b d.bar)
      else s.bufWait h b d sel remove) s h)

/-! ## BUFSTATE (R237, R238, R248) -/

/-- What an operation does in a state (R237): nothing, a fault, a wait before its change, or its change. -/
inductive BufAct where | keep | refuse | wait (x : Option BufSt) | bind (x : BufSt) | set (x : BufSt)
  deriving DecidableEq, Repr

/-- The table of R237. -/
def bufAct (op : BufOp) (st : BufSt) : BufAct :=
  match op, st with
  | .get, _ => .keep
  | .fill, .free => .bind .filling
  | .fill, .draining => .wait (some .filling)
  | .fill, _ => .refuse
  | .drain, .filling => .wait (some .draining)
  | .drain, .full => .bind .draining
  | .drain, _ => .refuse
  | .free, .free => .keep
  | .free, .filling => .wait (some .free)
  | .free, .full => .set .free
  | .free, .draining => .wait none
  | .wfull, .filling => .wait none
  | .wfull, .full => .keep
  | .wfull, _ => .refuse
  | .wfree, .free => .keep
  | .wfree, .draining => .wait none
  | .wfree, _ => .refuse

/-- WPH, WV and the state as D receives them (R248). -/
def DBuf.word (d : DBuf) : Nat := d.wph.toNat * 2 ^ 32 + (if d.wv then 4 else 0) + d.st.code

/-- The operation is a release (R238). -/
def BufOp.releases : BufOp → Bool
  | .fill | .drain | .free => true
  | _ => false

/-- Make a change that needs no more waiting. -/
def State.bufSet (s : State) (b : Nat) (d : DBuf) (act : BufAct) : State :=
  let y := s.bolt b
  let bind (x : BufSt) : DBuf := { d with st := x, wph := y.barPhase d.bar, wv := true }
  let d' : DBuf := match act with
    | .bind x => bind x
    | .set x => { d with st := x, wv := false }
    | .wait (some .free) => { d with st := .free, wv := false }
    | .wait (some x) => bind x
    | _ => d
  s.setBolt b (y.setBuf d')

/-- One operation of BUFSTATE. A weft that waited finds the buffer as the completion of the phase left it. -/
def bufstateOp (op : BufOp) (o : BufstateArgs) (s : State) (h : Nat) : Eff :=
  bufOp o.g o.base [opD cBar o.d] o.add (fun s w sel b d =>
    let go (act : BufAct) (s : State) : Eff :=
      s.releasing h sel (if BufOp.releases op then some (s.barScope b d.bar) else none) (fun s => (s.bufSet b d act).answer h o.d d.word)
    match bufAct op d.st with
    | .refuse => .trap s (w.fault cBuffer (info := d.st.code + 8) (addr := d.base) (mask := sel))
    | .wait x => s.bufWait h b d sel (fun s => go (.wait x) s)
    | act => go act (s.afterWait w b d.bar)) s h

/-- BUFSTATE.GET. -/
def execBufstateGet (o : BufstateArgs) (s : State) : Out := runWeft o.g s (lenA o.add) (bufstateOp .get o)
/-- BUFSTATE.FILL. -/
def execBufstateFill (o : BufstateArgs) (s : State) : Out := runWeft o.g s (lenA o.add) (bufstateOp .fill o)
/-- BUFSTATE.DRAIN. -/
def execBufstateDrain (o : BufstateArgs) (s : State) : Out := runWeft o.g s (lenA o.add) (bufstateOp .drain o)
/-- BUFSTATE.FREE. -/
def execBufstateFree (o : BufstateArgs) (s : State) : Out := runWeft o.g s (lenA o.add) (bufstateOp .free o)
/-- BUFSTATE.WFULL. -/
def execBufstateWfull (o : BufstateArgs) (s : State) : Out := runWeft o.g s (lenA o.add) (bufstateOp .wfull o)
/-- BUFSTATE.WFREE. -/
def execBufstateWfree (o : BufstateArgs) (s : State) : Out := runWeft o.g s (lenA o.add) (bufstateOp .wfree o)

end Sys2Proof.Machine
end

