-- ==== Sys2Proof/Machine/Landing.lean ====
section
/-! DEFINITION. What happens after a memory instruction has issued: its data landing (R93, R192, R310), aborts (R109, R110,
R171, R211), decodes landing (R170), WAITV polls (R206) and buffered writes performed at their home slices (R308, R309). -/

namespace Sys2Proof.Machine

/-! ## What a load reads (R308, R310) -/

/-- The bolt's buffered writes over bytes from an address: for each byte its value, if one is buffered. The weft's own
later writes do not count. -/
def State.buffered (s : State) (h fid pa n : Nat) : List (Option Byte) :=
  let w := s.weft h
  let es := (s.core (s.coreOf w)).wbuf.filter (fun e => e.bolt = w.bolt && !(e.weft = h && fid < e.seq))
  (List.range n).map (fun i =>
    ((es.filter (fun e => e.pa ≤ pa + i && pa + i < e.pa + e.data.length)).getLast?).bind (fun e => e.data[pa + i - e.pa]?))

/-- Bytes of one line read at the home; the core keeps a copy of the line, or none when the access bypasses L1. -/
def State.readHome (s : State) (h pa k consumer : Nat) (l1 : Bool) : State × Option (List Byte) :=
  match s.homeRead pa k consumer (s.asidOf (s.weft h)) with
  | (s, none) => (s, none)
  | (s, some l) =>
    let w := s.weft h
    (if l1 then s.fillL1 (s.coreOf w) w.slot (pa / 64) else s.dropLine (s.coreOf w) (pa / 64), some l)

/-- An uncorrectable L1 line, which is never dirty, is dropped, and the read fetches it again (R363). -/
def State.mendL1 (s : State) (core line : Nat) : State :=
  if (s.core core).l1Bad.contains line then (s.dropLine core line).errEvent 0 0 0 (.l1 core (line * 64)) else s

/-- Bytes of one line as the caches of a weft's core and their home give them: where a valid L1 copy differs from the home, or the
home would have to combine or abort first, either may be read (R310). -/
def State.readCached (s : State) (h pa k consumer : Nat) (l1 : Bool) : State × Option (List Byte) :=
  let s := s.mendL1 (s.coreOf (s.weft h)) (pa / 64)
  match (s.core (s.coreOf (s.weft h))).l1.find? (fun x => x.line = pa / 64) with
  | some x =>
    let old := (x.data.drop (pa % 64)).take k
    if !l1 then s.readHome h pa k consumer l1
    else if old = Store.bytes s.mem pa k && (s.redsOf (pa / 64)).isEmpty && !s.lineBad pa then (s, some old)
    else
      let (s, keep) := s.choose
      if keep then (s, some old) else s.readHome h pa k consumer l1
  | none => (if l1 then s.noteMiss h (pa / 64) else s).readHome h pa k consumer l1

/-- Bytes that a load of a weft returns. -/
def State.loadBytes (s : State) (h fid pa k consumer : Nat) (l1 : Bool) : State × Option (List Byte) :=
  let buf := s.buffered h fid pa k
  if buf.all (fun b => b.isSome) then (s, some (buf.map (fun b => b.getD 0)))
  else match s.readCached h pa k consumer l1 with
    | (s, none) => (s, none)
    | (s, some l) => (s, some ((buf.zip l).map (fun p => p.1.getD p.2)))

/-! ## The conversion stage on a load (R192 to R194) -/

/-- What the landing of an LD needs to know. -/
structure LoadIn where
  h : Nat
  fid : Nat
  fmt : Nat
  enc : Nat
  nan : Nat
  smode : Nat
  l1 : Bool
  consumer : Nat
  deriving DecidableEq, Repr

/-- A scale as a value (R58, R186). -/
def scaleVal (smode : Nat) (l : List Byte) : FVal := if smode = 1 then e8m0 (leNat l) else FSpec.f32.decode (leNat l)

/-- The scale of an element: one where it has none. -/
def State.readScale (s : State) (x : LoadIn) (a : Option Nat) : State × Option (List Byte) :=
  match a with
  | none => (s, some [])
  | some a => s.loadBytes x.h x.fid a (scaleBytes x.smode) x.consumer x.l1

/-- One element: its code in the register's format and its flags; none when an abort answered. -/
def State.readElem (s : State) (x : LoadIn) (e : ELoc) : State × Option (Nat × Flags) :=
  match e.at_ with
  | none => (s, some (0, 0))
  | some (pa, bit) =>
    match s.loadBytes x.h x.fid pa (max 1 (encBits x.enc / 8)) x.consumer x.l1 with
    | (s, none) => (s, none)
    | (s, some l) =>
      let code := leNat l / 2 ^ bit % 2 ^ encBits x.enc
      match s.readScale x e.scale with
      | (s, none) => (s, none)
      | (s, some sc) => (s, some (loadElem x.enc x.nan x.fmt code (if sc.isEmpty then .fin false 1 0 else scaleVal x.smode sc)))

/-- The elements of a thread in order; none when any was answered by an abort. -/
def State.readElems (s : State) (x : LoadIn) : List ELoc → State × Option (List Nat × Flags)
  | [] => (s, some ([], 0))
  | e :: rest =>
    match s.readElem x e with
    | (s, none) => (s, none)
    | (s, some (c, f)) =>
      match s.readElems x rest with
      | (s, none) => (s, none)
      | (s, some (l, g)) => (s, some (c :: l, f ||| g))

/-- The scale byte that an MXFP4x16 register carries: that of element 0's block (R194); 0 where element 0 is clipped and so names
no block (DESIGN CHOICE, log 137). -/
def State.readMxScale (s : State) (x : LoadIn) (l : List ELoc) : State × Option Nat :=
  match l.head? with
  | some { scale := some a, .. } =>
    if x.fmt = 9 then match s.loadBytes x.h x.fid a 1 x.consumer x.l1 with
      | (s, none) => (s, none)
      | (s, some b) => (s, some (leNat b))
    else (s, some 0)
  | _ => (s, some 0)

/-- One thread's register, or none when an abort answered. -/
def State.readLane (s : State) (x : LoadIn) (l : List ELoc) : State × Option (Cell × Flags) :=
  match s.readElems x l with
  | (s, none) => (s, none)
  | (s, some (codes, fl)) =>
    match s.readMxScale x l with
    | (s, none) => (s, none)
    | (s, some sc) =>
      let tag : BitVec 6 := BitVec.ofNat 6 (x.fmt + (if x.fmt = 7 || x.fmt = 8 then 16 * x.nan else 0))
      (s, some (mkCell (packElems x.fmt codes + sc * 2 ^ 56) tag, fl))

/-! ## Landing -/

/-- Land one thread's value in a flight, or note the abort that answered it. -/
def State.landLane (s : State) (h fid : Nat) (d : Reg) (t : Nat) (r : Option (Cell × Flags)) : State :=
  match r with
  | some (c, fl) => s.mapWeft h (fun w => ((w.put d t c).raise fl).setFlight fid (fun x => { x with mask := x.mask &&& ~~~tbit t }))
  | none => s.mapWeft h (fun w => w.setFlight fid (fun x =>
      { x with mask := x.mask &&& ~~~tbit t, aborted := x.aborted ||| tbit t }))

/-- A flight of a weft. -/
def Weft.flight (w : Weft) (fid : Nat) : Option Flight := w.flights.find? (fun f => f.fid = fid)

/-- The flight narrowed to some of its threads. -/
def Flight.part (f : Flight) (m : Mask) : Flight := { f with mask := f.mask &&& m }

/-- The reads of some threads of a flight can be performed now: the weft's earlier reads of those bytes have been, and those of
the flight's own lower threads; an ATOM also waits for its bolt's buffered writes there (R88, R198). -/
def State.canLand (s : State) (h : Nat) (f : Flight) (m : Mask) : Bool :=
  let w := s.weft h
  let l := s.flightRanges (s.asidOf w) (f.part m)
  let of (t : Nat) : List (Nat × Nat) := s.flightRanges (s.asidOf w) (f.part (tbit t))
  !s.olderFlight w f.fid l &&
    (threads (f.mask &&& ~~~m)).all (fun u => (threads (f.mask &&& m)).all (fun t => t < u || !rangesMeet (of u) (of t))) &&
    (match f.kind with
     | .atom .. => !s.boltBuffered h f.fid l
     | _ => true)

/-- One thread's ATOM at the home (R202, R311). -/
def State.landAtom (s : State) (h : Nat) (f : Flight) (d : Reg) (op : AtomOp) (ord : Bool) (q : AtomReq) : State :=
  match q.addr with
  | none => s.landLane h f.fid d q.thr (some (mkCell 0 q.tag, 0))
  | some pa =>
    match if ord then s.homeOrdered h f.fid q pa else
        s.homeAtom op (atomBytes q.tag) false pa q.a.toNat q.c1.toNat (s.asidOf (s.weft h)) with
    | (s, none) => s.landLane h f.fid d q.thr none
    | (s, some old) =>
      (s.dropLine (s.coreOf (s.weft h)) (pa / 64)).landLane h f.fid d q.thr (some (mkCell old q.tag, 0))

/-- Perform the reads of some threads of a flight and write what they return. -/
def State.landFlight (s : State) (h : Nat) (f : Flight) (m : Mask) : State :=
  let w := s.weft h
  let n := s.coreOf w
  match f.kind with
  | .load d fmt enc nan smode locs acq l1 _ =>
    let s := s.acquiresNow n acq
    let x : LoadIn := { h := h, fid := f.fid, fmt := fmt, enc := enc, nan := nan, smode := smode, l1 := l1,
                        consumer := if isScalar d then 2 else 1 }
    (threads (f.mask &&& m)).foldl (fun (s : State) t =>
      match s.readLane x (locs.filter (fun e => e.thr = t)) with
      | (s, r) => s.landLane h f.fid d t r) s
  | .atom d op ord reqs acq =>
    let s := (reqs.filter (fun q => (f.mask &&& m).getLsbD q.thr)).foldl (fun (s : State) q => s.landAtom h f d op ord q) s
    s.acquiresNow n acq
  | .ready d cells _ _ _ _ false =>
    (cells.filter (fun p => (f.mask &&& m).getLsbD p.1)).foldl (fun (s : State) p =>
      s.landLane h f.fid d p.1 (some (p.2, 0))) s
  | _ => s

/-- Land or abort a flight in the even threads and in the odd ones, each with the flight as it holds it. -/
def State.eachFlight (s : State) (h fid : Nat) (f : State → Flight → State) : State :=
  s.both h (fun s => match (s.weft h).flight fid with | some x => f s x | none => s)

/-- LOAD_DATA_LANDS (R93): data of some threads of an LD, LDU, LDS, LDV or ATOM. -/
def execLoadDataLands (w fid : Nat) (mask : Mask) (s : State) : Out :=
  match (s.weft w).flight fid with
  | some f => .next (if s.canLand w f mask then (s.eachFlight w fid (fun s f => s.landFlight w f mask)).wake else s)
  | none => .next s

/-! ## Decodes -/

/-- What a landing decode writes: the elements of its live threads, the cursor unless it was lost, NV of a signalling
scale (R169 to R171). -/
def Weft.landDecode (w : Weft) (f : Flight) : Weft :=
  match f.kind with
  | .ready d cells cursor _ curDead nv true =>
    let w := w.putAll d (cells.filter (fun p => f.mask.getLsbD p.1))
    let w := match cursor with
      | some (c, x) => if curDead then w else w.put c 0 x
      | none => w
    w.raise (if nv then Flags.nv else 0)
  | _ => w

/-- A decode whose elements have not landed. -/
def Flight.isDecode (f : Flight) : Bool :=
  match f.kind with
  | .ready _ _ _ _ _ _ true => true
  | _ => false


/-- The kind of a decode that has landed: nothing of it is left to be written. -/
def FlightKind.landed : FlightKind → FlightKind
  | .ready d cells _ dead _ _ true => .ready d cells none dead false false true
  | k => k

/-- Registers whose producer was aborted: a scalar destination, or the cursor of a decode that has not landed. -/
def Flight.lostScalars (f : Flight) : List Nat :=
  (match f.dest with | .s n => [n.toNat] | _ => []) ++
    (match f.kind with
     | .ready _ _ (some (.s c, _)) _ true _ true => [c.toNat]
     | _ => [])

/-- A flight of a decode lands in a weft: what it delivers is written, and a lost cursor is known to be lost (R110, R171). -/
def Weft.decodeLanded (w : Weft) (f : Flight) : Weft :=
  let w := w.landDecode f
  { w with sAbort := w.sAbort ++ f.lostScalars }.setFlight f.fid (fun y => { y with mask := 0, kind := y.kind.landed })

/-- DECODE_LANDS (R170): the elements and the cursor become full together. -/
def execDecodeLands (w fid : Nat) (s : State) : Out :=
  match (s.weft w).flight fid with
  | some f =>
    if f.isDecode && f.mask ≠ 0 then
      .next (s.eachFlight w fid (fun s f => s.mapWeft w (fun x => x.decodeLanded f))).wake
    else .next s
  | none => .next s

/-! ## Aborts (R109, R110, R171, R211) -/

/-- The threads of a flight answered by an abort; a pair of which either was dies together (R115). -/
def Weft.abortedOf (w : Weft) (f : Flight) : Mask :=
  match w.oddF.find? (fun x => x.fid = f.fid) with
  | some g => f.aborted ||| g.aborted
  | none => f.aborted

/-- The abort of a flight is taken: a decode none of whose elements is left writes its cursor with it, and a scalar destination
is known to be lost. -/
def Weft.abortTaken (w : Weft) (f : Flight) : Weft :=
  let w := if f.isDecode then (if f.mask = 0 then w.decodeLanded f else w) else { w with sAbort := w.sAbort ++ f.lostScalars }
  w.setFlight f.fid (fun y => { y with aborted := 0 })

/-- ABORT_COMPLETION: the threads whose reads were answered by an abort die, their destinations staying empty; an aborted
scalar traps at its first use. -/
def execAbortCompletion (w fid : Nat) (s : State) : Out :=
  match (s.weft w).flight fid with
  | some f =>
    let dead := (s.weft w).abortedOf f
    if dead = 0 then .next s
    else
      let s := s.eachFlight w fid (fun s f => s.mapWeft w (fun x => x.abortTaken f))
      .next (if isScalar f.dest then s.wake else (s.kill w dead).wake)
  | none => .next s

/-! ## Polls -/

/-- WAITV_POLL (R206). -/
def execWaitvPoll (w fid : Nat) (s : State) : Out :=
  match (s.weft w).flight fid with
  | some f => .next (s.pollFlight w f).wake
  | none => .next s

/-! ## Buffered writes -/

/-- The storing core's L1 copy of a line takes the bytes when the home acknowledges (R308). -/
def Core.ackStore (c : Core) (e : WEntry) : Core :=
  { c with l1 := c.l1.map (fun (x : L1Line) => if x.line = e.pa / 64 then
      { x with data := (x.data.take (e.pa % 64)) ++ e.data ++ x.data.drop (e.pa % 64 + e.data.length) } else x) }

/-- Entry `i` of a core's write buffer may be performed: no earlier write of its bolt touches its bytes, and no earlier read
of its weft is still to be made there (R198). -/
def State.canPerform (s : State) (c : Core) (i : Nat) (e : WEntry) : Bool :=
  !(c.wbuf.take i).any (fun x => x.bolt = e.bolt && overlap x.pa x.data.length e.pa e.data.length) &&
    !s.olderFlight (s.weft e.weft) e.seq [(e.pa, e.data.length)]

/-- HOME_SLICE_ACCESS (R308, R309): a buffered write of a core is performed at its home. -/
def execHomeSliceAccess (core idx : Nat) (s : State) : Out :=
  let c := s.core core
  match c.wbuf[idx]? with
  | some e =>
    if s.canPerform c idx e then
      let s := (s.setCore core { c with wbuf := c.wbuf.eraseIdx idx }).homeWrite e.pa e.data
      .next ((s.setCore core ((s.core core).ackStore e)).wake)
    else .next s
  | none => .next s

end Sys2Proof.Machine
end

