-- ==== Sys2Proof/Machine/Memory.lean ====
section
/-! DEFINITION. The memory instructions of MAJOR 0x80 to 0x8F (R189, R196 to R209): loads and stores through records with the
conversion stage, scratchpad and vault accesses, atomics and reductions, fences, polling, hints, leases and the loading
of records. -/

namespace Sys2Proof.Machine

/-! ## LD and LDU (R197) -/

/-- A load through a record, per thread or once. -/
def loadOp (once : Bool) (o : LdArgs) (s : State) (h : Nat) : Eff :=
  let offs : List RC := if once then [.s, .z] else cOff
  let dst : List RC := if once then [.s] else [.v]
  s.access h (recForm o.g o.br [opS 2 offs tInt o.off, opD dst o.d]) (fun w sel =>
    let b := s.recordOf w o.br
    let r := b.fields
    match w.recordFault b false sel, loadPair r.enc o.fmt with
    | some t, _ => .trap s t
    | none, none => .trap s (w.fault cTag (info := 2) (mask := sel))
    | none, some p =>
      let l := lanesWho once sel
      let e := w.offset o.off (addInt o.add)
      let cut := r.crossing (fun _ => o.fmt) e l
      let scaled := r.usesScale p o.fmt
      if cut ≠ 0 then .trap s (r.crossFault w e cut)
      else match s.resolve w r .read scaled (r.elems (fun _ => o.fmt) e l) [] with
        | (s, .mig) => .hold s .mig
        | (s, .trap t) => .trap s t
        | (s, .ok locs) =>
          .done (s.issueFlight h o.d sel (if once then 1 else sel)
            (.load o.d o.fmt r.enc r.nan (if scaled then r.smode else 0) locs o.acq (r.cache = 0 || r.cache = 2) r.ext)))

/-- LD. -/
def execLd (o : LdArgs) (s : State) : Out := runWeft o.g s (lenA o.add) (loadOp false o)
/-- LDU. -/
def execLdu (o : LdArgs) (s : State) : Out := runWeft o.g s (lenA o.add) (loadOp true o)

/-! ## ST and STU (R192 to R197) -/

/-- A thread's register to be stored. -/
structure SItem where
  thr : Nat
  who : Mask
  c : Cell
  deriving DecidableEq, Repr

/-- The tag faults of the registers stored (R192, R194): no pair, or READ other than NAN; then a scaled FP8 store. -/
def storeFault (w : Weft) (r : Rec) (l : List SItem) : Option Trap :=
  let bad := l.filter (fun x => (storePair r.enc (fmtOf x.c.tag)).isNone ||
    ((fmtOf x.c.tag = 7 || fmtOf x.c.tag = 8) && readOf x.c.tag ≠ r.nan))
  let all := l.foldl (fun m x => m ||| x.who) 0
  if !bad.isEmpty then some (w.fault cTag (info := 2) (mask := bad.foldl (fun m x => m ||| x.who) 0))
  else if (r.enc = 7 || r.enc = 8) && r.smode ≠ 0 then some (w.fault cTag (info := 3) (mask := all))
  else none

/-- An element to be written: its place, index, code in its register, and its register. -/
structure PElem where
  pa : Nat
  bit : Nat
  i : Int
  raw : Nat
  c : Cell
  deriving DecidableEq, Repr

/-- P of R195: the elements within bounds, by thread and then by place in the group. -/
def presentElems (r : Rec) (e : Nat → Int) (l : List SItem) (locs : List ELoc) : List PElem :=
  locs.filterMap (fun x => match x.at_, l.find? (fun y => y.thr = x.thr) with
    | some (pa, bit), some y => some ⟨pa, bit, r.index (e x.thr) x.j, elemAt (fmtOf y.c.tag) y.c.val.toNat x.j, y.c⟩
    | _, _ => none)

/-- Put a field of at most eight bits into a byte. -/
def putBits (m : Store Byte) (a bit n code : Nat) : Store Byte :=
  let old := (Store.get 0 m a).toNat
  Store.insert m a (BitVec.ofNat 8 (old - old / 2 ^ bit % 2 ^ n * 2 ^ bit + code % 2 ^ n * 2 ^ bit))

/-- A store that rewrites no block (R192, R195): bytes by physical address, flags. -/
def plainStore (r : Rec) (mode : Rnd) (sat : Bool) (ps : List PElem) : List (Nat × List Byte) × Flags :=
  let cs := ps.map (fun p => (p, storeElem r.enc r.nan p.c.tag p.raw mode sat))
  let fl := cs.foldl (fun a x => a ||| x.2.2) 0
  if encBits r.enc = 4 then
    ((cs.foldl (fun m x => putBits m x.1.pa x.1.bit 4 x.2.1) ([] : Store Byte)).map (fun p => (p.1, [p.2])), fl)
  else (cs.map (fun x => (x.1.pa, natLe (encBits r.enc / 8) x.2.1)), fl)

/-- The exact value of a present element; an MXFP4x16 register carries its own scale (R194). -/
def PElem.value (p : PElem) : FVal :=
  match fspecOfTag p.c.tag with
  | none => .nan false
  | some f =>
    let v := f.decode p.raw
    if fmtOf p.c.tag = 9 then (FVal.mul v (e8m0 (p.c.val.toNat / 2 ^ 56))).1 else v

/-- One block of R195: the codes of its present elements by index, its scale's bytes, the flags. A block all of whose
elements come from MXFP4x16 registers takes their codes and the last one's scale (R194). -/
def blockStore (r : Rec) (mode : Rnd) (ps : List PElem) : List (Int × Nat) × List Byte × Flags :=
  let last : Store PElem := ps.foldl (fun m p => Store.insert m p.i.toNat p) []
  let xs := last.map (fun p => p.2)
  if r.enc = 0x0D then
    let (sc, fl) := signScale mode (xs.map PElem.value)
    (xs.map (fun p => (p.i, if p.value.isNan then 0 else p.raw / 2 ^ (elemBits (fmtOf p.c.tag) - 1) % 2)), natLe 4 sc, fl)
  else if xs.all (fun p => fmtOf p.c.tag = 9) then
    (xs.map (fun p => (p.i, p.raw)), natLe 1 (match ps.getLast? with | some p => p.c.val.toNat / 2 ^ 56 | none => 0), 0)
  else
    let (sc, cs, fl) := mxBlock mode (xs.map PElem.value)
    ((xs.map (fun p => p.i)).zip cs, natLe 1 sc, fl)

/-- The bytes of block `K` from its codes: virtual address, bytes within bounds (R76, R195). -/
def blockBytes (r : Rec) (K : Nat) (codes : List (Int × Nat)) : Nat × List Byte :=
  let z := encBits r.enc
  let n := 2 ^ r.sblk * z / 8
  let a := r.base + K * n
  let m := codes.foldl (fun (m : Store Byte) p =>
    let q := r.spot p.1
    putBits m q.at_.toNat q.bit z p.2) ([] : Store Byte)
  (a, Store.bytes m a (min n (r.base + r.len - a)))

/-- The writes of a store that rewrites whole blocks, in ascending block: virtual addresses, bytes and the threads
concerned, and the flags. -/
def wholeStore (r : Rec) (mode : Rnd) (who : Mask) (ps : List PElem) : List (Nat × List Byte × Mask) × Flags :=
  let ks := sortBy (fun k => k) (ps.map (fun p => r.block p.i)).eraseDups
  ks.foldl (fun acc K =>
    let (codes, sc, fl) := blockStore r mode (ps.filter (fun p => r.block p.i = K))
    let (a, l) := blockBytes r K codes
    (acc.1 ++ [(a, l, who), (r.sbase + K * scaleBytes r.smode, sc, who)], acc.2 ||| fl)) ([], 0)

/-- Translate the bytes of a write page by page. The fuel bounds the pages. -/
def State.placeBytesAt (s : State) (w : Weft) (who : Mask) : Nat → Nat → List Byte → List (Nat × List Byte) →
    State × (List (Nat × List Byte) ⊕ Option Trap)
  | 0, _, _, acc => (s, .inl acc)
  | fuel + 1, va, l, acc =>
    if l.isEmpty then (s, .inl acc)
    else
      let k := granule - va % granule
      match s.place1 w va .write who with
      | (s, .inr x) => (s, .inr x)
      | (s, .inl pa) => s.placeBytesAt w who fuel (va + k) (l.drop k) (acc ++ [(pa, l.take k)])

/-- Translate every write of a list. -/
def State.placeWrites (s : State) (w : Weft) : List (Nat × List Byte × Mask) → List (Nat × List Byte) →
    State × (List (Nat × List Byte) ⊕ Option Trap)
  | [], acc => (s, .inl acc)
  | (va, l, who) :: rest, acc =>
    match s.placeBytesAt w who (l.length / granule + 2) va l acc with
    | (s, .inr x) => (s, .inr x)
    | (s, .inl acc) => s.placeWrites w rest acc

/-- The store rewrites whole blocks (R195). -/
def Rec.wholeBlocks (r : Rec) : Bool := r.enc = 0x0D || (r.enc = 0x09 && r.smode = 1)

/-- A store through a record, per thread or once. -/
def storeOp (once : Bool) (o : StArgs) (s : State) (h : Nat) : Eff :=
  let offs : List RC := if once then [.s, .z] else cOff
  let data : List RC := if once then [.s] else [.v]
  s.access h (recForm o.g o.br [opS 2 offs tInt o.off, opS 3 data none o.data]) (fun w sel =>
    let b := s.recordOf w o.br
    let r := b.fields
    let l := lanesWho once sel
    let items := l.map (fun p => ({ thr := p.1, who := p.2, c := w.cell o.data.reg p.1 } : SItem))
    match w.recordFault b true sel, storeFault w r items with
    | some t, _ => .trap s t
    | none, some t => .trap s t
    | none, none =>
      let e := w.offset o.off (addInt o.add)
      let fmt (t : Nat) : Nat := fmtOf (w.cell o.data.reg t).tag
      let cut := r.crossing fmt e l
      let mode := w.mode o.r
      let s0 := s
      let finish (s : State) (ws : List (Nat × List Byte)) (fl : Flags) : Eff :=
        s.releasing h sel o.rel (fun s =>
          .done ((s.setWeft h ((s.weft h).raise fl)).pushStores h ws))
      if cut ≠ 0 then .trap s (r.crossFault w e cut)
      else match s.resolve w r .write (r.smode ≠ 0) (r.elems fmt e l) [] with
        | (s, .mig) => .hold s .mig
        | (s, .trap t) => .trap s t
        | (s, .ok locs) =>
          let ps := presentElems r e items locs
          if r.wholeBlocks then
            let (vs, fl) := wholeStore r mode sel ps
            match s.placeWrites w vs [] with
            | (_, .inr none) => .hold s0 .mig
            | (_, .inr (some t)) => .trap (s0.place1 w t.addr.toNat .write sel).1 t
            | (s, .inl ws) => finish s ws fl
          else
            let (ws, fl) := plainStore r mode o.sat ps
            finish s ws fl)

/-- ST. -/
def execSt (o : StArgs) (s : State) : Out := runPoint s (lenA o.add) (storeOp false o)
/-- STU. -/
def execStu (o : StArgs) (s : State) : Out := runPoint s (lenA o.add) (storeOp true o)

/-! ## LDS, STS, LDV and STV (R200) -/

/-- Bytes, result tag and sign extension of a kind (R196). -/
def ldsKind (k : Nat) : Nat × BitVec 6 × Bool :=
  match k with
  | 11 => (1, tagI32, false)
  | 12 => (1, tagI32, true)
  | 13 => (2, tagI32, false)
  | 14 => (2, tagI32, true)
  | k => (if k = 2 || k = 4 then 4 else 8, BitVec.ofNat 6 k, false)

/-- The cell of the bytes read. -/
def ldsCell (k : Nat) (l : List Byte) : Cell :=
  let (n, tag, sg) := ldsKind k
  mkCell (if sg then wrapNat 32 (sextNat (8 * n) (leNat l)) else leNat l) tag

/-- Report an uncorrectable word an access met. -/
def State.accError (s : State) (a : SAcc) : State := s.spaceError 1 a.sp a.off a.n

/-- Issue a scratchpad or vault load whose bytes are read now, in the space's one order; a bad word gives an abort. -/
def State.issueSpaceLoad (s : State) (h : Nat) (d : Reg) (sel : Mask) (kind : Nat) (l : List SAcc) : State :=
  let bad := l.filter (fun a => s.accBad a)
  let good := l.filter (fun a => !s.accBad a)
  let cells := good.map (fun a => (a.thr, ldsCell kind (s.spaceRead a.sp a.off a.n)))
  let s := l.foldl (fun (s : State) a => s.spaceSplit a.sp a.off a.n) s
  (bad.foldl (fun (s : State) a => s.accError a) s).issueReady h d sel cells (maskOf (bad.map (fun a => a.thr)))

/-- The form of a scratchpad or vault load. -/
def spaceLoadForm (g : Guard) (xops : List Opnd) (d : Reg) (off : Src) : Form :=
  .plain g (xops ++ [opS 2 cOff tInt off, opD [.v] d])

/-- A scratchpad or vault load. -/
def spaceLoad (g : Guard) (kind : Nat) (acq : Option Scope) (x : Target) (xops : List Opnd) (d : Reg) (off : Src)
    (add : Option (BitVec 32)) (s : State) (h : Nat) : Eff :=
  s.access h (spaceLoadForm g xops d off) (fun w sel =>
    match s.spaceChecked w false x (w.offset off (addInt add)) (fun _ => (ldsKind kind).1) sel with
    | .inr t => .trap s t
    | .inl l => .done ((s.issueSpaceLoad h d sel kind l).acquiresNow (s.coreOf w) acq))

/-- LDS. -/
def execLds (o : LdsArgs) (s : State) : Out :=
  runWeft o.g s (lenA o.add) (spaceLoad o.g o.kind o.acq (boltTarget o.bolt) (boltOps o.bolt) o.d o.off o.add)
/-- LDV. -/
def execLdv (o : LdvArgs) (s : State) : Out := runWeft o.g s (lenA o.add) (spaceLoad o.g o.kind o.acq .vault [] o.d o.off o.add)

/-- The form of a scratchpad or vault store. -/
def spaceStoreForm (g : Guard) (xops : List Opnd) (off data : Src) : Form :=
  .plain g (xops ++ [opS 2 cOff tInt off, opS 3 cFlt none data])

/-- A scratchpad or vault store of 2^`size` bytes of the source, whatever its tag. -/
def spaceStore (g : Guard) (size : Nat) (rel : Option Scope) (x : Target) (xops : List Opnd) (off : Src)
    (add : Option (BitVec 32)) (data : Src) (s : State) (h : Nat) : Eff :=
  s.access h (spaceStoreForm g xops off data) (fun w sel =>
    match s.spaceChecked w true x (w.offset off (addInt add)) (fun _ => 2 ^ size) sel with
    | .inr t => .trap s t
    | .inl l =>
      s.releasing h sel rel (fun s =>
        .done (l.foldl (fun (s : State) a =>
          s.spaceWrite a.sp a.off (natLe a.n (w.cell data.reg a.thr).val.toNat)) s)))

/-- STS. -/
def execSts (o : StsArgs) (s : State) : Out :=
  runPoint s (lenA o.add) (spaceStore o.g o.size.toNat o.rel (boltTarget o.bolt) (boltOps o.bolt) o.off o.add o.data)
/-- STV. -/
def execStv (o : StvArgs) (s : State) : Out :=
  runPoint s (lenA o.add) (spaceStore o.g o.size.toNat o.rel .vault [] o.off o.add o.data)

/-! ## ATOM and RED (R201 to R203, R311) -/

/-- The formats an operation's operand accepts (R202). -/
def atomTags (op : AtomOp) : Option (List Nat) :=
  match op with
  | .xchg | .cas => none
  | .fadd => some [3, 4]
  | _ => tInt

/-- The operand: XCHG accepts ZERO, CAS names two registers (R202, R494). -/
def atomOpnd (op : AtomOp) (c : Src) : Opnd :=
  match op with
  | .cas => { opS 3 [.v, .s] none c with cnt := 2 }
  | op => opS 3 cFlt (atomTags op) c

/-- The operand's cell in a thread; ZERO is an INT64 zero (R494), of the operand's own width for FADD. -/
def Weft.atomCell (w : Weft) (c : Src) (t : Nat) (op : AtomOp) : Cell :=
  match c.reg with
  | .zero => ⟨0, if op = .fadd then tagF64 else tagI64, true⟩
  | r => w.cell r t

/-- The value of register C + 1, for CAS. -/
def Weft.atomC1 (w : Weft) (c : Src) (t : Nat) (op : AtomOp) : Cell :=
  if op = .cas then w.cell (regPlus c.reg 1) t else w.atomCell c t op

/-- The threads whose C + 1 carries another tag than C (R202). -/
def Weft.casBad (w : Weft) (c : Src) (op : AtomOp) (sel : Mask) : Mask :=
  if op = .cas then maskOf ((threads sel).filter (fun t => (w.atomC1 c t op).tag ≠ (w.atomCell c t op).tag)) else 0

/-- An encoding takes a width (R202). -/
def atomEnc (r : Rec) (n : Nat) : Bool :=
  r.smode = 0 && (if n = 4 then r.enc = 0x02 || r.enc = 0x0C || r.enc = 0x04 else r.enc = 0 || r.enc = 0x01 || r.enc = 0x03)

/-- Register operands of the memory operand. -/
def baseOps : AtomBase → List Opnd
  | .bolt b => [opS 1 [.v, .s] tInt b]
  | _ => []
/-- Records the memory operand names. -/
def baseRecs : AtomBase → List Nat
  | .record n => [n.toNat]
  | _ => []

/-- What the memory operand addresses outside global memory. -/
def baseTarget : AtomBase → Target
  | .bolt b => .bolt b
  | .vault => .vault
  | _ => .own

/-- The signed addend of the 96-bit form (R201). -/
def atomAdd : Option AtomExt → Int
  | none => 0
  | some x => x.add.toInt
/-- Bytes of ATOM and RED. -/
def atomLen : Option AtomExt → Nat
  | none => 8
  | some _ => 12
/-- The scope of the acquire, if the semantics include one. -/
def semAcq (sem : Sem) (x : Option AtomExt) : Option Scope :=
  match sem, x with
  | .acq, some e | .ar, some e => some e.scope
  | _, _ => none
/-- The scope of the release, if the semantics include one. -/
def semRel (sem : Sem) (x : Option AtomExt) : Option Scope :=
  match sem, x with
  | .rel, some e | .ar, some e => some e.scope
  | _, _ => none
/-- .ORD of the 96-bit form. -/
def extOrd : Option AtomExt → Bool
  | some e => e.ord
  | none => false

/-- An ordered FADD: .ORD, or a record with ORD set (R203). -/
def isOrdered (op : AtomOp) (x : Option AtomExt) (r : Rec) : Bool := op = .fadd && (extOrd x || r.ord)

/-- An ATOM or RED without its destination. -/
structure AtomIn where
  op : AtomOp
  base : AtomBase
  off : Src
  c : Src
  add : Int
  deriving DecidableEq, Repr

/-- What an ATOM or RED does once checked: on places of global memory, or on scratchpad and vault bytes. -/
inductive AtomAt where
  | global (r : Rec) (locs : List ELoc)
  | space (l : List SAcc)

/-- The checks of ATOM and RED, then `next`. -/
def State.atomChecked (s : State) (w : Weft) (sel : Mask) (o : AtomIn) (next : State → AtomAt → Eff) : Eff :=
  let n (t : Nat) : Nat := atomBytes (w.atomCell o.c t o.op).tag
  let e := w.offset o.off o.add
  if w.casBad o.c o.op sel ≠ 0 then .trap s (w.fault cTag (field := 3) (mask := w.casBad o.c o.op sel))
  else match o.base with
    | .record br =>
      let b := s.recordOf w br
      let r := b.fields
      let bad := maskOf ((threads sel).filter (fun t => !atomEnc r (n t)))
      match w.recordFault b true sel with
      | some t => .trap s t
      | none =>
        if bad ≠ 0 then .trap s (w.fault cTag (info := 2) (mask := bad))
        else match s.resolve w r .rw false (r.elems (fun _ => 0) e (lanesWho false sel)) [] with
          | (s, .mig) => .hold s .mig
          | (s, .trap t) => .trap s t
          | (s, .ok locs) => next s (.global r locs)
    | b => match s.spaceChecked w true (baseTarget b) e n sel with
      | .inr t => .trap s t
      | .inl l => next s (.space l)

/-- One read-modify-write in a scratchpad or vault: the old value, or none where the word is uncorrectable (R211). -/
def State.spaceAtom (s : State) (w : Weft) (o : AtomIn) (a : SAcc) : State × Option Nat :=
  let c := w.atomCell o.c a.thr o.op
  if s.accBad a then (s.accError a, none)
  else
    let old := leNat (s.spaceRead a.sp a.off a.n)
    let new := atomicNew o.op a.n false old c.val.toNat (w.atomC1 o.c a.thr o.op).val.toNat
    (s.spaceWrite a.sp a.off (natLe a.n new), some old)

/-- One addend of an ordered FADD to a word of a space (R203): the word holds the fold of its sequence, which goes on while nothing
else has touched the word. -/
def State.spaceAddend (s : State) (x : Space) (off : Nat) (e : RedEntry) : State :=
  let n := if e.w8 then 8 else 4
  let cur := leNat (s.spaceRead x off n)
  let f : OrdFold := ((s.spaceFolds x).find? (fun f => f.off = off && f.w8 = e.w8 && f.now = cur)).getD
    { off := off, w8 := e.w8, base := cur, now := cur, adds := [] }
  let adds := insertRed e f.adds
  let now := foldReds n adds none f.base
  let s := s.spaceWrite x off (natLe n now)
  s.setFolds x (s.spaceFolds x ++ [{ f with now := now, adds := adds }])

/-- One thread's ordered FADD in a scratchpad or vault. An ATOM reads the word first, which starts a new sequence (R311). -/
def State.spaceOrdered (s : State) (w : Weft) (o : AtomIn) (seq : Nat) (reads : Bool) (a : SAcc) : State × Option Nat :=
  if s.accBad a then (s.accError a, none)
  else
    let old := leNat (s.spaceRead a.sp a.off a.n)
    let s := if reads then s.spaceSplit a.sp a.off a.n else s
    (s.spaceAddend a.sp a.off (s.redEntry w seq a.off .fadd true (w.atomCell o.c a.thr o.op)), some old)

/-- The read-modify-writes of a list of accesses: threads answered, and threads answered by an abort. -/
def State.spaceAtoms (s : State) (w : Weft) (o : AtomIn) (ord reads : Bool) (l : List SAcc) :
    State × List (Nat × Cell) × List Nat :=
  let (seq, s) := if ord then s.stamp else (0, s)
  l.foldl (fun acc a =>
    match if ord then acc.1.spaceOrdered w o seq reads a else acc.1.spaceAtom w o a with
    | (s, some old) => (s, acc.2.1 ++ [(a.thr, mkCell old (w.atomCell o.c a.thr o.op).tag)], acc.2.2)
    | (s, none) => (s, acc.2.1, acc.2.2 ++ [a.thr])) (s, [], [])

/-- The form of an ATOM or RED. -/
def atomForm (g : Guard) (o : AtomIn) (dst : List Opnd) : Form :=
  let ops := baseOps o.base ++ [opS 2 cOff tInt o.off, atomOpnd o.op o.c] ++ dst
  { g := g, ops := ops, recs := baseRecs o.base, matrix := false, wrong := none }

/-- The requests an ATOM on global memory sends to their homes. -/
def Weft.atomReqs (w : Weft) (op : AtomOp) (c : Src) (l : List ELoc) : List AtomReq :=
  l.map (fun x => ⟨x.thr, x.at_.map (·.1), x.uses, (w.atomCell c x.thr op).tag, (w.atomCell c x.thr op).val, (w.atomC1 c x.thr op).val⟩)

/-- An ATOM without its destination. -/
def atomInner (o : AtomArgs) : AtomIn := { op := o.op, base := o.base, off := o.off, c := o.c, add := atomAdd o.ext }
/-- A RED. -/
def redInner (o : RedArgs) : AtomIn := { op := o.op, base := o.base, off := o.off, c := o.c, add := atomAdd o.ext }

/-- ATOM: a producer; global ones are performed at the home when they land, the others now. -/
def atomOp (o : AtomArgs) (s : State) (h : Nat) : Eff :=
  let x := atomInner o
  s.access h (atomForm o.g x [opD [.v] o.d]) (fun w sel =>
    s.atomChecked w sel x (fun s p =>
      s.releasing h sel (semRel o.sem o.ext) (fun s =>
        match p with
        | .global r locs => .done (s.issueFlight h o.d sel sel
            (.atom o.d o.op (isOrdered o.op o.ext r) (w.atomReqs o.op o.c locs) (semAcq o.sem o.ext)))
        | .space l =>
          let (s, cells, dead) := s.spaceAtoms w x (o.op = .fadd && extOrd o.ext) true l
          let s := s.issueReady h o.d sel cells (maskOf dead)
          .done (s.acquiresNow (s.coreOf w) (semAcq o.sem o.ext)))))

/-- ATOM (R202). -/
def execAtom (o : AtomArgs) (s : State) : Out := runPoint s (atomLen o.ext) (atomOp o)

/-- The REDs of some threads at physical addresses, one place in the weft's order for all of them. -/
def State.redAll (s : State) (h : Nat) (w : Weft) (o : RedArgs) (ord : Bool) (l : List (Nat × Nat)) : State :=
  let (seq, s) := s.stamp
  l.foldl (fun (s : State) q =>
    s.redAt h (s.redEntry w seq q.2 o.op ord (w.atomCell o.c q.1 o.op))) s

/-- RED (R202, R203). -/
def redOp (o : RedArgs) (s : State) (h : Nat) : Eff :=
  let x := redInner o
  s.access h (atomForm o.g x []) (fun w sel =>
    s.atomChecked w sel x (fun s p =>
      s.releasing h sel (semRel o.sem o.ext) (fun s =>
        match p with
        | .global r locs =>
          let at_ := locs.filterMap (fun l => l.at_.map (fun q => (l.thr, q.1)))
          let ranges := at_.map (fun q => (q.2, atomBytes (w.atomCell o.c q.1 o.op).tag))
          if s.boltBuffered h s.order ranges || s.olderFlight w s.order ranges then .hold s .release
          else .done (s.redAll h w o (isOrdered o.op o.ext r) at_)
        | .space l => .done (s.spaceAtoms w x (o.op = .fadd && extOrd o.ext) false l).1)))

def execRed (o : RedArgs) (s : State) : Out := runPoint s (atomLen o.ext) (redOp o)

/-! ## FENCE (R204, R205, R329) -/

/-- Some selected thread has a read of any kind outstanding, remote ones included. -/
def Weft.owesAny (w : Weft) (sel : Mask) : Bool :=
  w.flights.any (fun f => f.meets sel && (f.reads || (match f.kind with | .xld .. | .xatom .. => true | _ => false)))

/-- The acquire of a fence: the threads' earlier reads have been performed, then the acquire at its scope. -/
def State.fenceAcquire (s : State) (h : Nat) (sel : Mask) (sc : Scope) : Eff :=
  let w := s.weft h
  if sc ≠ .weft && w.owesAny sel then .hold s .release else .done (s.acquire (s.coreOf w) sc)

/-- The scope a fence releases at. -/
def Sem.releases (m : Sem) : Bool := m = .rel || m = .ar
/-- It acquires. -/
def Sem.acquires (m : Sem) : Bool := m = .acq || m = .ar

/-- FENCE. -/
def execFence (o : FenceArgs) (s : State) : Out :=
  runWeft o.g s 8 (fun s h => s.operate h (.plain o.g []) (fun _ sel =>
    s.releasing h sel (if Sem.releases o.sem then some o.scope else none) (fun s =>
      if Sem.acquires o.sem then s.fenceAcquire h sel o.scope else .done s)))

/-! ## WAITV (R206) -/

/-- WAITV: its words are read at once and then polled. -/
def waitvOp (o : WaitvArgs) (s : State) (h : Nat) : Eff :=
  s.access h (recForm o.g o.br [opS 2 cOff tInt o.off, opS 3 cFlt tInt o.a, opD [.v] o.d]) (fun w sel =>
    let b := s.recordOf w o.br
    let r := b.fields
    let encOk := if o.w64 then r.enc = 0x01 || r.enc = 0x00 else r.enc = 0x02 || r.enc = 0x0C
    match w.recordFault b false sel with
    | some t => .trap s t
    | none =>
      if !encOk then .trap s (w.fault cTag (info := 2) (mask := sel))
      else
        let e := w.offset o.off (addInt o.add)
        match s.resolve w r .read false (r.elems (fun _ => 0) e (lanesWho false sel)) [] with
        | (s, .mig) => .hold s .mig
        | (s, .trap t) => .trap s t
        | (s, .ok locs) =>
          let words := locs.map (fun l => (l.thr, l.at_.map (fun _ => (r.spot (e l.thr)).at_.toNat), (w.cell o.a.reg l.thr).val))
          let fid := s.order
          let s := s.issueFlight h o.d sel sel
            (.waitv o.d o.eq o.w64 words o.acq r.ext (if o.w64 then tagI64 else tagI32) w.pc)
          match (s.weft h).flights.find? (fun f => f.fid = fid) with
          | some f => .done (s.pollFlight h f)
          | none => .done s)

def execWaitv (o : WaitvArgs) (s : State) : Out := runWeft o.g s (lenA o.add) (waitvOp o)

/-! ## PREF, CLINE and LEASE (R207 to R209) -/

/-- Bring one element's lines to the core's L1, or to L2, which the model holds no copy of; an element out of bounds, untranslated
or forbidden is skipped, and a line that a read would first have to combine, or could not be read, is left alone. -/
def State.prefetch (s : State) (w : Weft) (r : Rec) (l1 : Bool) (i : Int) : State :=
  let p := r.spot i
  if !r.inside i then s
  else match s.place1 w p.at_.toNat .read 0 with
    | (s, .inl pa) =>
      (linesOf pa p.n).foldl (fun (s : State) l =>
        if !l1 || !(s.redsOf l).isEmpty || s.lineBad (l * 64) then s else s.fillL1 (s.coreOf w) w.slot l) s
    | (_, .inr _) => s

/-- PREF: lines come to the caches; it changes no value, orders nothing and faults only at decoding or for a missing record. -/
def prefOp (o : PrefArgs) (s : State) (h : Nat) : Eff :=
  s.operate h (recForm o.g o.br [opS 2 cOff tInt o.off]) (fun w sel =>
    let b := s.recordOf w o.br
    let r := b.fields
    if !b.ok || r.rv then .done s
    else .done ((r.elems (fun _ => 0) (w.offset o.off (addInt o.add)) (lanesWho false sel)).foldl
      (fun (s : State) x => s.prefetch w r (!o.l2) x.i) s))

/-- PREF. -/
def execPref (o : PrefArgs) (s : State) : Out := runWeft o.g s (lenA o.add) (prefOp o)

/-- The lines of located elements and their scales. -/
def locLines (n : Nat) (l : List ELoc) : List Nat :=
  (l.flatMap (fun x => (match x.at_ with | some p => linesOf p.1 n | none => []) ++
    (match x.scale with | some a => linesOf a 1 | none => []))).eraseDups

/-- CLINE: .INVL1, .WBINVL1 and .EVICT drop the core's copies; .WBL2 and .EVICT make the home combine update-only copies
(R311). -/
def clineOp (o : ClineArgs) (s : State) (h : Nat) : Eff :=
  s.operate h (recForm o.g o.br [opS 2 cOff tInt o.off]) (fun w sel =>
    let b := s.recordOf w o.br
    let r := b.fields
    match w.recordFault b false sel with
    | some t => .trap s t
    | none =>
      match s.resolve w r .read (r.smode ≠ 0) (r.elems (fun _ => 0) (w.offset o.off (addInt o.add)) (lanesWho false sel)) [] with
      | (s, .mig) => .hold s .mig
      | (s, .trap t) => .trap s t
      | (s, .ok locs) =>
        let ls := locLines (max 1 (encBits r.enc / 8)) locs
        let op := o.op.val
        let s := if op = 0 || op = 2 || op = 4 then ls.foldl (fun (s : State) l => s.dropLine (s.coreOf w) l) s else s
        .done (if op = 3 || op = 4 then ls.foldl (fun (s : State) l => s.recall l) s else s))

def execCline (o : ClineArgs) (s : State) : Out := runWeft o.g s (lenA o.add) (clineOp o)

/-- The lease a value declares (R209). -/
def leaseOf (x : Nat) : Nat := min ((x + 16383) / 16384 * 16384) 1048576

/-- LEASE. -/
def execLease (o : LeaseArgs) (s : State) : Out :=
  runWeft o.g s (lenI o.a) (fun s h =>
    s.operate h (.plain o.g (opSI 1 [.s, .z] tInt o.a ++ [opD [.s, .z] o.d])) (fun w _ =>
      let x := (w.intB 64 true o.a 0).toNat
      .done (s.setWeft h ({ w with leaseDecl := leaseOf x }.put o.d 0 (mkCell w.leaseDecl tagI64)))))

/-! ## BRLOAD (R189) -/

/-- BRLOAD: the checks in R189's order, the bytes read as an LDS reads them. -/
def brloadOp (o : BrloadArgs) (s : State) (h : Nat) : Eff :=
  s.access h (recForm o.g o.br [opS 2 [.s, .z] tInt o.off]) (fun w sel =>
    let e := w.offset o.off (addInt o.add) 0
    let b := s.boltOf w
    if e % 8 ≠ 0 then .trap s (w.fault cProtection (info := 4) (addr := addr57 e) (mask := sel))
    else if e < 0 || (b.scratch : Int) < e + 40 then
      .trap s (w.fault cProtection (info := 1) (addr := addr57 e) (mask := sel))
    else
      let a : SAcc := { thr := 0, sp := .sp w.bolt, off := e.toNat, n := 40, who := sel }
      match s.guarded w false a with
      | some t => .trap s t
      | none =>
        if s.accBad a then
          .trap (s.spaceError 2 a.sp a.off 40)
            (w.fault cAbort (addr := firstBad b.spBad a.off 40) (mask := sel))
        else
          let r := BufRec.ofBytes (s.spaceRead a.sp a.off 40)
          if !r.ok then .trap s (w.fault cTag (info := 1) (mask := sel))
          else if r.w4 ≠ 0 then .trap s (w.fault cProtection (info := 5) (mask := sel))
          else
            let s := s.spaceSplit a.sp a.off 40
            .done (s.setBolt w.bolt { s.bolt w.bolt with recs := b.recs.set o.br.toNat r }))

def execBrload (o : BrloadArgs) (s : State) : Out := runWeft o.g s (lenA o.add) (brloadOp o)

end Sys2Proof.Machine
end

