-- ==== Sys2Proof/Machine/Feed.lean ====
section
/-! DEFINITION. The hub's own accesses to a context's memory, and the feed queues (R410 to R412, R416, R418). -/

namespace Sys2Proof.Machine

/-- What a hub access meets: bytes, a hold at an address whose page migrates or follows, a refusal, an abort completion. -/
inductive HubAns where
  | ok (data : List Byte)
  | hold (va : Nat)
  | refused (info : Nat)
  | abort
  deriving DecidableEq, Repr

/-- A page that follows, or that a copy on write protects, is put to the supervisor: it is held, and the supervisor may refuse it (R399,
R405, R408). A page held goes on being asked for. -/
def State.askPage (s : State) (va info : Nat) : State × HubAns :=
  match s.choose with
  | (s, true) => (s, .refused info)
  | (s, false) => (s, .hold va)

/-- The hub reads bytes of an address space, page by page. The fuel bounds the pages. -/
def State.hubReadGo (s : State) (asid : Nat) : Nat → Nat → Nat → State × HubAns
  | 0, _, _ => (s, .ok [])
  | fuel + 1, va, n =>
    if n = 0 then (s, .ok [])
    else
      let k := min n (granule - va % granule)
      match s.hubTranslate asid va .read with
      | (s, .mig) => (s, .hold va)
      | (s, .fault _ i) => if i = 6 then s.askPage va i else (s, .refused i)
      | (s, .ok pa) =>
        match s.homeRead pa k 8 asid with
        | (s, none) => (s, .abort)
        | (s, some l) =>
          match s.hubReadGo asid fuel (va + k) (n - k) with
          | (s, .ok r) => (s, .ok (l ++ r))
          | x => x

def State.hubRead (s : State) (asid va n : Nat) : State × HubAns := s.hubReadGo asid (n / granule + 2) va n

/-- Every page of a range can be written by the hub: none, or why not. -/
def State.hubCanWriteGo (s : State) (asid : Nat) : Nat → Nat → Nat → State × Option HubAns
  | 0, _, _ => (s, none)
  | fuel + 1, va, n =>
    if n = 0 then (s, none)
    else
      let k := min n (granule - va % granule)
      match s.hubTranslate asid va .write with
      | (s, .mig) => (s, some (.hold va))
      | (s, .fault c i) =>
        if i = 6 || (c = cTranslation && i = 2) then ((s.askPage va i).1, some (s.askPage va i).2) else (s, some (.refused i))
      | (s, .ok _) => s.hubCanWriteGo asid fuel (va + k) (n - k)

def State.hubCanWrite (s : State) (asid va n : Nat) : State × Option HubAns := s.hubCanWriteGo asid (n / granule + 2) va n

/-- The hub writes bytes of an address space at their homes. -/
def State.hubWriteGo (s : State) (asid : Nat) : Nat → Nat → List Byte → State
  | 0, _, _ => s
  | fuel + 1, va, l =>
    if l.isEmpty then s
    else
      let k := granule - va % granule
      match s.hubTranslate asid va .write with
      | (s, .ok pa) => (s.homeWrite pa (l.take k)).hubWriteGo asid fuel (va + k) (l.drop k)
      | (s, _) => s

/-- Write where every page allows it; otherwise nothing is written and the answer says why. -/
def State.hubWrite (s : State) (asid va : Nat) (l : List Byte) : State × HubAns :=
  match s.hubCanWrite asid va l.length with
  | (s, some a) => (s, a)
  | (s, none) => (s.hubWriteGo asid (l.length / granule + 2) va l, .ok [])

/-! ## Feed queues -/

/-- Address of an extension record (R410). -/
def FeedQ.extAddr (q : FeedQ) (p : Nat) : Nat := q.xbase + 64 * (p % q.xcap)

/-! ### The core aperture (R347): vault memory outside the course windows -/

/-- Read bytes of the aperture: 8-byte words, one of which may be uncorrectable (R361, R362). -/
def State.aperRead (s : State) (pa n consumer asid : Nat) : State × Option (List Byte) :=
  match ((List.range ((pa + n - 1) / 8 + 1 - pa / 8)).map (fun i => pa / 8 + i)).find? (fun u => s.aperBad.contains u) with
  | some u => (s.errEvent 1 consumer asid (.hub (8 * u)), none)
  | none => (s, some (Store.bytes s.aper pa n))

/-- Write whole words of the aperture; an uncorrectable word that is replaced is one no longer (R364). -/
def State.aperWrite (s : State) (pa : Nat) (l : List Byte) : State :=
  { s with aper := Store.putBytes s.aper pa l, aperBad := s.aperBad.filter (fun u => u < pa / 8 || (pa + l.length) / 8 ≤ u) }

/-- Address of a ring record (R410). -/
def FeedQ.ringAddr (q : FeedQ) (p : Nat) : Nat := q.vbase + 64 * (p % q.cap)

/-- What a delivered record leaves in a pop's registers: its dwords, or, where an abort answered, eight aborted scalars (R110,
R416). -/
def Weft.popped (w : Weft) (base fid : Nat) (r : Option (List Byte)) : Weft :=
  let w : Weft := { w with flights := w.flights.filter (fun f => f.fid ≠ fid) }
  match r with
  | some l => (List.range 8).foldl (fun (w : Weft) i => w.setS (base + i) ⟨BitVec.ofNat 64 (fieldAt l (8 * i) 8), tagI64, true⟩) w
  | none => { w with sAbort := (w.sAbort ++ (List.range 8).map (fun i => base + i)).eraseDups }

/-- Take (R411): the oldest waiting pop receives the record at HEAD. The delivery is an acquire at SPAN scope (R418). The
fuel bounds the records taken. -/
def State.feedTake (s : State) (n : Nat) : Nat → State
  | 0 => s
  | fuel + 1 =>
    let q := s.feed n
    match q.pops with
    | [] => s
    | (h, fid) :: rest =>
      if q.vtail ≤ q.head then s
      else
        let (s, r) := s.aperRead (q.ringAddr q.head) 64 2 q.asid
        let s := s.setFeed n { q with head := q.head + 1, pops := rest }
        let w := s.weft h
        let s := match w.flights.find? (fun f => f.fid = fid) with
          | some { kind := .popw base _ _, .. } => (s.setWeft h (w.popped base fid r)).acquire (s.coreOf w) .span
          | _ => s
        s.feedTake n fuel

/-- Deliver what can be delivered, and wake the wefts that waited. -/
def State.feedServe (s : State) (n : Nat) : State := (s.feedTake n ((s.feed n).pops.length + 1)).wake

/-- Append (R411): the status and the state. An extension record whose page the hub cannot write counts as no room. -/
def State.feedAppend (s : State) (n : Nat) (r : List Byte) : State × Nat :=
  let q := s.feed n
  if q.tail = q.vtail && q.vtail - q.head < q.cap then
    (((s.aperWrite (q.ringAddr q.tail) r).setFeed n { q with vtail := q.vtail + 1, tail := q.tail + 1 }).feedServe n, 0)
  else if q.tail - q.vtail < q.xcap then
    match s.hubWrite q.asid (q.extAddr q.tail) r with
    | (s, .ok _) => (s.setFeed n { s.feed n with tail := q.tail + 1 }, 1)
    | (s, _) => (s, 2)
  else (s, 2)

/-- Room for `k` appends (R412). -/
def FeedQ.room (q : FeedQ) (k : Nat) : Bool :=
  let ring := if q.tail = q.vtail then min k (q.cap - (q.vtail - q.head)) else 0
  k - ring ≤ q.xcap - (q.tail - q.vtail)

/-- Move (R411): one record from the extension into the ring. -/
def State.feedMove1 (s : State) (n : Nat) : State :=
  let q := s.feed n
  if q.vtail < q.tail && q.vtail - q.head < q.cap then
    match s.hubRead q.asid (q.extAddr q.vtail) 64 with
    | (s, .ok r) =>
      ((s.aperWrite (q.ringAddr q.vtail) r).setFeed n { s.feed n with vtail := q.vtail + 1 }).feedServe n
    | (s, _) => s
  else s

end Sys2Proof.Machine
end

