-- ==== Sys2Proof/Machine/Switch.lean ====
section
/-! DEFINITION. Taking the bolts of a span off their cores and putting them back (R260 to R262, R301, R421, R434), and
what a span consists of. -/

namespace Sys2Proof.Machine

/-! ## The parts of a span -/

/-- The courses of a span, ascending, a handler's own course left out. -/
def State.coursesOf (s : State) (sp : Nat) : List (Nat × Course) :=
  sortBy (fun p => p.2.id) (s.courses.filter (fun p => p.2.span = sp && !p.2.handler))

/-- The bolts of a course, ascending. -/
def State.boltsOf (s : State) (c : Nat) : List (Nat × Bolt) :=
  sortBy (fun p => p.2.id) (s.bolts.filter (fun p => p.2.course = c))

/-- The bolts of a span by course and bolt index. -/
def State.spanBolts (s : State) (sp : Nat) : List (Nat × Bolt) := (s.coursesOf sp).flatMap (fun p => s.boltsOf p.1)

/-- The wefts of a span by course, bolt and weft index. -/
def State.spanWefts (s : State) (sp : Nat) : List (Nat × Weft) :=
  (s.spanBolts sp).flatMap (fun p => sortBy (fun q => q.2.id) (s.wefts.filter (fun q => q.2.bolt = p.1)))

/-- The spans of a context that have not ended. -/
def State.liveSpans (s : State) (asid : Nat) : List (Nat × Span) :=
  s.spans.filter (fun p => p.2.asid = asid && p.2.completed = none)

/-- Every weft of a context that has not ended, its handlers' included. -/
def State.ctxWefts (s : State) (asid : Nat) : List (Nat × Weft) :=
  s.wefts.filter (fun p => s.asidOf p.2 = asid && p.2.status ≠ .ended)

/-! ## Off and back on a core -/

/-- A weft as its bolt leaves the core: it stands before its next instruction (R260). -/
def Weft.offCore (w : Weft) : Weft :=
  match w.status with
  | .active | .ready | .pending => { w with status := .swapped, slot := none, wait := none }
  | _ => w

/-- A sequencer entry; an MLOAD in progress is none (R290). -/
def MKind.isEntry : MKind → Bool
  | .mload .. => false
  | _ => true

/-- The sequencer entries in use (R290). -/
def Core.entries (c : Core) : Nat := (c.seqr.filter (fun p => p.2.kind.isEntry)).length

/-- Take a bolt off its core with its slots and its sequencer entries, rolled back (R283, R301). -/
def State.boltOff (s : State) (bh : Nat) : State :=
  let b := s.bolt bh
  if b.out then s
  else
    let mine (h : Nat) : Bool := (s.weft h).bolt = bh
    let c := (s.core b.core).rollbackAll mine
    let slots := c.slots.filter (fun p => match p.2.owner with | some h => mine h | none => false)
    let seqs := c.seqr.filter (fun p => mine p.2.weft)
    let s := s.setCore b.core { c with slots := c.slots.filter (fun p => !(slots.any (fun q => q.1 = p.1))),
                                       seqr := c.seqr.filter (fun p => !mine p.2.weft) }
    let s := s.setBolt bh { b with out := true, savedSlots := slots, savedSeq := seqs }
    (s.weftsOf bh).foldl (fun (s : State) h => s.mapWeft h Weft.offCore) s

/-- A course has no cluster to run on: it is restored and not yet placed, or its cluster has left service (R334, R436). -/
def State.displaced (s : State) (c : Course) : Bool :=
  8 ≤ c.cluster || !(Store.get Cluster.reset s.clusters c.cluster).inService

/-- A bolt that is off can come back: its course has a cluster, and none of its slots has
another owner now. -/
def State.boltCanReturn (s : State) (bh : Nat) : Bool :=
  let b := s.bolt bh
  !s.displaced (s.course b.course) && b.savedSlots.all (fun p => (Store.get Slot.empty (s.core b.core).slots p.1).owner = none) &&
    (s.core b.core).entries + (b.savedSeq.filter (fun p => p.2.kind.isEntry)).length ≤ 8

/-- Put a bolt back on its core; its wefts rejoin the admission queue unless the bolt is swapped out (R260, R262). -/
def State.boltOn (s : State) (bh : Nat) : State :=
  let b := s.bolt bh
  if !b.out then s
  else
    let c := s.core b.core
    let s := s.setCore b.core { c with
      slots := b.savedSlots.foldl (fun l p => Store.insert l p.1 p.2) c.slots,
      seqr := b.savedSeq.foldl (fun l p => Store.insert l p.1 p.2) c.seqr }
    let s := s.setBolt bh { b with out := false, savedSlots := [], savedSeq := [] }
    (sortBy (fun h => (s.weft h).id) (s.weftsOf bh)).foldl (fun (s : State) h =>
      if (s.weft h).status = .swapped then s.ready h else s) s

/-- Switch a span out whole. -/
def State.spanOff (s : State) (sp : Nat) : State :=
  let bs := s.spanBolts sp
  let s := bs.foldl (fun (s : State) p => s.boltOff p.1) s
  bs.foldl (fun (s : State) p => s.admitWefts p.2.core) s

/-- Switch a span in whole. -/
def State.spanOn (s : State) (sp : Nat) : State :=
  let bs := s.spanBolts sp
  let s := bs.foldl (fun (s : State) p => s.boltOn p.1) s
  bs.foldl (fun (s : State) p => s.admitWefts p.2.core) s

/-- A span is off its cores. -/
def State.spanIsOff (s : State) (sp : Nat) : Bool := (s.spanBolts sp).any (fun p => p.2.out)

/-- Every bolt of a span can come back. -/
def State.spanCanReturn (s : State) (sp : Nat) : Bool :=
  (s.spanBolts sp).all (fun p => !p.2.out || (s.boltCanReturn p.1 &&
    s.boltFits p.2.core { (s.span sp).kernel with scratch := p.2.scratch }))

end Sys2Proof.Machine
end

