-- ==== Sys2Proof/Machine/Copies.lean ====
section
/-! DEFINITION. The shuttle (R264 to R282, R318 to R320, R495): copy descriptors and their checks, CPYSLICE, CPYREG, CPYSTAT
and CPYCANCEL, the start of a copy, the landing of its elements and the publish of a shadowed one. -/

namespace Sys2Proof.Machine

/-- The address space of a bolt. -/
def State.boltAsid (s : State) (bh : Nat) : Nat := (s.span (s.course (s.bolt bh).course).span).asid

/-- Lines a copy wrote only in part stay uncorrectable, and the writes withheld raise their events (R211, R364). -/
def State.endGather (s : State) (bh hd : Nat) : State :=
  match Store.find (s.bolt bh).copies hd with
  | none => s
  | some c =>
    ((c.gather.map (fun p => p.1 / 64)).eraseDups.foldl (fun (s : State) l => s.lineEvent 7 (s.boltAsid bh) (l * 64)) s).mapCopy bh hd
      (fun c => { c with gather := [] })

/-- A copy that has failed: lines it wrote in part keep what they were. -/
def State.failCopy (s : State) (bh hd code : Nat) : State := (s.endGather bh hd).endCopy bh hd code

/-- Every access that a weft made before a place in the order, and every write that its bolt had buffered there, has been performed
(R277, R300, R325). -/
def State.performedBefore (s : State) (h t : Nat) : Bool :=
  let w := s.weft h
  !(s.core (s.coreOf w)).wbuf.any (fun e => e.bolt = w.bolt && e.seq < t) && !w.flights.any (fun f => f.reads && f.fid < t)

/-! ## Descriptors (R265, R266) -/

/-- SSTR`k` and DSTR`k`. -/
def Copy.sstr (c : Copy) (k : Nat) : Int := sextNat 32 (c.half 7 k)
def Copy.dstr (c : Copy) (k : Nat) : Int := sextNat 32 (c.half 10 k)
def Copy.fill (c : Copy) : Bool := (c.w 3).testBit 36
/-- SCTL and DCTL. -/
def Copy.sctl (c : Copy) : Nat := c.w 2 % 2 ^ 32
def Copy.dctl (c : Copy) : Nat := c.w 2 / 2 ^ 32

def ctlSpace (x : Nat) : Nat := x % 8
def ctlIndex (x : Nat) : Nat := x / 8 % 256
def ctlTag (x : Nat) : BitVec 6 := BitVec.ofNat 6 (x / 2 ^ 11)

/-- A side of a copy (R269). -/
inductive Side where
  | glob (r : Rec)
  | vault (c : Nat)
  | scratch (b : Nat)
  | slot (i : Nat)
  | regs (h : Nat)
  | bad
  deriving DecidableEq, Repr

/-- The item a control word names; INDEX in range (R268). -/
def State.side (s : State) (bh : Nat) (rec_ : BufRec) (x : Nat) : Side :=
  let b := s.bolt bh
  match ctlSpace x with
  | 1 => if ctlIndex x < b.recs.length then .glob rec_.fields else .bad
  | 2 => if ctlIndex x = 0 then .vault b.course else .bad
  | 3 => match s.boltIn b.course (ctlIndex x) with
    | some y => .scratch y
    | none => .bad
  | 4 => if ctlIndex x < 32 then .slot (ctlIndex x) else .bad
  | 5 => match s.weftIn bh (ctlIndex x) with
    | some h => .regs h
    | none => .bad
  | _ => .bad

/-- The extent of a side (R269). -/
def State.sideLen (s : State) : Side → Nat
  | .glob r => r.len
  | .vault c => (s.course c).vlen
  | .scratch b => (s.bolt b).scratch
  | .slot _ => 16384
  | .regs h => 8 * (s.weft h).n * (s.weft h).vregs
  | .bad => 0

def State.srcSide (s : State) (bh : Nat) (c : Copy) : Side := s.side bh c.srec c.sctl
def State.dstSide (s : State) (bh : Nat) (c : Copy) : Side := s.side bh c.drec c.dctl

/-- The lowest and the highest offset a nest reaches from a base; the highest is that of an element's start. -/
def Copy.reach (c : Copy) (base : Nat) (str : Nat → Int) : Int × Int :=
  (List.range 6).foldl (fun p k =>
    let x := ((c.count k : Int) - 1) * str k
    (p.1 + min 0 x, p.2 + max 0 x)) ((base : Int), (base : Int))

/-- A side's tag field is legal: a valid tag for a SLOT or REGS destination, else 0 (R266, R268). -/
def ctlTagOk (dest : Bool) (x : Nat) : Bool :=
  if dest && (ctlSpace x = 4 || ctlSpace x = 5) then tagValid (ctlTag x) else ctlTag x = 0

/-- Reserved fields are zero and SPACE, ESZ and TAG are assigned (R268). -/
def Copy.formOk (c : Copy) : Bool :=
  let ctl (x : Nat) : Bool := x / 2 ^ 17 = 0 && 1 ≤ ctlSpace x && ctlSpace x ≤ 5
  ctl c.sctl && ctl c.dctl && ctlTagOk false c.sctl && ctlTagOk true c.dctl &&
    c.w 3 / 2 ^ 37 = 0 && !(c.w 3).testBit 35 && c.w 3 / 2 ^ 32 % 8 ≤ 3 && c.w 3 / 2 ^ 21 % 2 ^ 11 = 0 &&
    (c.barv || c.baroff = 0) && c.w 14 = 0 && c.w 15 = 0

/-- The extents of R268: every byte of every element lies inside its space. -/
def State.copyInside (s : State) (x : Side) (r : Int × Int) (n : Nat) : Bool := 0 ≤ r.1 && r.2 + n ≤ (s.sideLen x : Int)

/-- A REGS side moves whole registers (R268). -/
def Copy.regsOk (c : Copy) (x : Side) (base : Nat) (str : Nat → Int) : Bool :=
  match x with
  | .regs _ => c.esz = 8 && base % 8 = 0 && (List.range 6).all (fun k => str k % 8 = 0)
  | _ => true

def Side.isRemote : Side → Bool
  | .glob r => r.rv
  | _ => false
def Side.isRdonly : Side → Bool
  | .glob r => r.rdonly
  | _ => false
def Side.isShadow : Side → Bool
  | .glob r => r.shadow
  | _ => false

/-- The barrier checks of R268: alignment, allocation, LIVE. -/
def State.copyBarFault (s : State) (w : Weft) (off : Nat) (sel : Mask) : Option Trap :=
  if off % 32 ≠ 0 then some (w.fault cProtection (info := 4) (addr := off) (mask := sel))
  else if (s.boltOf w).scratch < off + 32 then some (w.fault cProtection (info := 1) (addr := off) (mask := sel))
  else if s.barState w.bolt off ≠ 1 then some (s.barFault w w.bolt off sel false)
  else none

/-- The checks of R268 in the order of its table. -/
def State.copyFault (s : State) (w : Weft) (c : Copy) (sel : Mask) : Option Trap :=
  let prot (i : Nat) : Option Trap := some (w.fault cProtection (info := i) (mask := sel))
  let src := s.srcSide w.bolt c
  let dst := s.dstSide w.bolt c
  let cnt := (List.range 6).map c.count
  if !c.formOk || src = .bad || dst = .bad then prot 10
  else if cnt.all (fun n => n ≠ 0) && !(s.copyInside src (c.reach (c.w 0) c.sstr) c.esz &&
      s.copyInside dst (c.reach (c.w 1) c.dstr) c.esz) then prot 1
  else if 2 ^ 40 ≤ cnt.foldl (fun a n => a * n) c.esz then prot 10
  else if src.isRemote || dst.isRemote then prot 5
  else if dst.isRdonly then prot 2
  else if !(c.regsOk src (c.w 0) c.sstr && c.regsOk dst (c.w 1) c.dstr) then prot 10
  else if c.barv then s.copyBarFault w c.baroff sel
  else none

/-! ## The nest (R267) -/

/-- The smallest index of the slices' union at or above one. -/
def Copy.index5 (c : Copy) (i : Nat) : Option Nat :=
  (c.slices.filterMap (fun p => if i < p.1 + p.2 && p.2 ≠ 0 then some (max i p.1) else none)).min?

/-- The next position of the nest at or after one: an index of counter 5 times the inner count, plus the inner place. -/
def Copy.pos (c : Copy) (p : Nat) : Option Nat :=
  if c.inner = 0 then none
  else match c.index5 (p / c.inner) with
    | none => none
    | some i => if i = p / c.inner then some p else some (i * c.inner)

/-- Counter `k` at a position. -/
def Copy.counter (c : Copy) (p k : Nat) : Nat :=
  if k = 5 then p / c.inner
  else p % c.inner / ((List.range k).foldl (fun a j => a * c.count j) 1) % c.count k

/-- An offset at a position. -/
def Copy.offsetAt (c : Copy) (base : Nat) (str : Nat → Int) (p : Nat) : Nat :=
  (((List.range 6).foldl (fun a k => a + (c.counter p k : Int) * str k) (base : Int))).toNat

def Copy.srcAt (c : Copy) (p : Nat) : Nat := c.offsetAt (c.w 0) c.sstr p
def Copy.dstAt (c : Copy) (p : Nat) : Nat := c.offsetAt (c.w 1) c.dstr p

/-- Every position from one on; the fuel bounds them. -/
def Copy.positions (c : Copy) : Nat → Nat → List Nat
  | 0, _ => []
  | n + 1, p => match c.pos p with
    | none => []
    | some q => q :: c.positions n (q + 1)

/-- The register and thread at an offset of a REGS side (R269). -/
def Weft.regAt (w : Weft) (off : Nat) : Nat × Nat := (off / 8 / w.n, off / 8 % w.n)

/-! ## Records (R264) -/

/-- The copies of a core, whichever of its bolts they belong to: bolt, handle, record. -/
def State.coreCopies (s : State) (n : Nat) : List (Nat × Nat × Copy) :=
  (s.bolts.filter (fun p => p.2.core = n)).flatMap (fun p => p.2.copies.map (fun q => (p.1, q.1, q.2)))

/-- Why a bolt cannot open a copy: 1 its own limit, 3 its core's (R271). -/
def State.noRecord (s : State) (bh : Nat) : Option Nat :=
  let all := (s.coreCopies (s.bolt bh).core).filter (fun x => x.2.2.live)
  if 16 ≤ (all.filter (fun x => x.1 = bh)).length then some 1 else if 32 ≤ all.length then some 3 else none

/-- Free a record if none is: the oldest finished one is reused (R264). -/
def State.reuseRecord (s : State) (n : Nat) : State :=
  let all := s.coreCopies n
  if all.length < 32 then s
  else match (sortBy (fun x => x.2.2.order) (all.filter (fun x => !x.2.2.live))).head? with
    | none => s
    | some (b, h, _) =>
      let y := s.bolt b
      s.setBolt b { y with copies := Store.erase y.copies h }

/-- A fresh record over a descriptor: the two records its GLOBAL sides name are taken with it. -/
def State.newCopy (s : State) (bh off : Nat) (desc : List Dword) : Copy :=
  let b := s.bolt bh
  let zero : BufRec := ⟨0, 0, 0, 0, 0⟩
  let c : Copy := { off := off, st := .opened, err := 0, landed := 0, desc := desc, srec := zero, drec := zero, parts := [],
                    contrib := [], slices := [], next := 0, order := 0, held := none, refused := false, barGone := false,
                    pages := [], withheld := 0, empties := [], tr := [], snap := none, gather := [], saved := [] }
  { c with srec := b.recs.getD (ctlIndex c.sctl) zero, drec := b.recs.getD (ctlIndex c.dctl) zero }

/-- Open a record with the next handle of the bolt (R271). -/
def State.openCopy (s : State) (bh : Nat) (c : Copy) : Nat × State :=
  let s := s.reuseRecord (s.bolt bh).core
  let b := s.bolt bh
  (b.nextHandle, s.setBolt bh { b with copies := Store.insert b.copies b.nextHandle c, nextHandle := b.nextHandle + 1 })

/-- Every participant has contributed or ended: the copy has its last slice (R271). -/
def State.completeSlices (s : State) (bh hd : Nat) : State :=
  s.mapCopy bh hd (fun c =>
    let heard (i : Nat) : Bool := match s.weftIn bh i with
      | some h => c.contrib.any (fun p => p.1 = h) || (s.weft h).status = .ended
      | none => true
    if c.st = .opened && c.parts.all heard then { c with st := .ready } else c)

/-- A weft's end counts as an empty slice of every open copy of its bolt (R271). -/
def State.copiesLose (s : State) (bh : Nat) : State :=
  (s.bolt bh).copies.foldl (fun (s : State) p => s.completeSlices bh p.1) s

/-! ## CPYSLICE (R271) -/

/-- A destination that takes shadow pages is a whole number of them (R275). -/
def Side.shadowOk : Side → Bool
  | .glob r => !r.shadow || (r.base % granule = 0 && r.len % granule = 0)
  | _ => true

/-- The slice of the weft joins a copy. -/
def State.joinCopy (s : State) (h hd lo cnt : Nat) : State :=
  let bh := (s.weft h).bolt
  let (t, s) := s.stamp
  let s := s.mapCopy bh hd (fun c => { c with slices := c.slices ++ [(lo, cnt)], contrib := c.contrib ++ [(h, t)] })
  s.completeSlices bh hd

/-- The slice of the weft joins a copy; D receives the handle. -/
def State.contribute (s : State) (h hd lo cnt : Nat) (d : Reg) : Eff := (s.joinCopy h hd lo cnt).answer h d hd

/-- The copy that a descriptor in the bolt's scratchpad describes. -/
def State.describedCopy (s : State) (w : Weft) (off : Nat) : Copy :=
  let bytes := s.spaceRead (.sp w.bolt) off 128
  s.newCopy w.bolt off ((List.range 16).map (fun i => BitVec.ofNat 64 (fieldAt bytes (8 * i) 8)))

/-- The wefts that take part in a copy opened by a weft: those of its mask that have not ended, by index. -/
def State.copyParts (s : State) (w : Weft) (c : Copy) : List Nat :=
  let pm := if c.w 13 = 0 then 2 ^ w.id else c.w 13
  (List.range (s.boltOf w).nwefts).filter (fun i => pm.testBit i && (match s.weftIn w.bolt i with
    | some x => (s.weft x).status ≠ .ended
    | none => false))

/-- Opening: the descriptor is read as an LDS would read it, so behind the acquires of its threads (DEDUCED, log 144), and checked, a
record is taken, and the slice joins it. -/
def State.openSlice (s : State) (h : Nat) (w : Weft) (sel : Mask) (off lo cnt : Nat) (d : Reg) : Eff :=
  let a : SAcc := { thr := 0, sp := .sp w.bolt, off := off, n := 128, who := sel }
  let prot (i : Nat) : Eff := .trap s (w.fault cProtection (info := i) (addr := off) (mask := sel))
  if w.acquiring sel then .hold s .release
  else match s.guarded w false a with
  | some t => .trap s t
  | none =>
    if s.accBad a then
      .trap (s.spaceError 2 a.sp off 128) (w.fault cAbort (addr := firstBad (s.spaceBad a.sp) off 128) (mask := sel))
    else
      let s := s.spaceSplit a.sp off 128
      let c := s.describedCopy w off
      match s.copyFault w c sel with
      | some t => .trap s t
      | none =>
        match s.noRecord w.bolt with
        | some x => s.answer h d (2 ^ 63 + x)
        | none =>
          let parts := s.copyParts w c
          if !parts.contains w.id then prot 9
          else if c.count 5 < lo + cnt then prot 10
          else
            let (hd, s) := s.openCopy w.bolt { c with parts := parts }
            if (s.dstSide w.bolt c).shadowOk then s.contribute h hd lo cnt d
            else (s.endCopy w.bolt hd 2).answer h d hd

/-- CPYSLICE, which never waits: only its opening form reads memory. -/
def cpysliceOp (o : CpysliceArgs) (s : State) (h : Nat) : Eff :=
  s.operate h (.plain o.g [opS 1 [.s, .z] tInt o.a, opS 2 [.s, .z] tInt o.lo, opS 3 [.s, .z] tInt o.cnt, opD [.s, .z] o.d])
    (fun w sel =>
      let e := w.offset o.a (addInt o.add) 0
      let lo := (w.int 64 true o.lo 0).toNat
      let cnt := (w.int 64 true o.cnt 0).toNat
      let prot (i : Nat) : Eff := .trap s (w.fault cProtection (info := i) (addr := addr57 e) (mask := sel))
      if e % 128 ≠ 0 then prot 4
      else if e < 0 || ((s.boltOf w).scratch : Int) < e + 128 then prot 1
      else match (s.boltOf w).copies.find? (fun p => p.2.st = .opened && p.2.off = e.toNat) with
        | some (hd, c) =>
          if c.contrib.any (fun p => p.1 = h) then s.answer h o.d (2 ^ 63 + 2)
          else if !c.parts.contains w.id then prot 9
          else if c.count 5 < lo + cnt then prot 10
          else s.contribute h hd lo cnt o.d
        | none => s.openSlice h w sel e.toNat lo cnt o.d)

def execCpyslice (o : CpysliceArgs) (s : State) : Out := runPoint s (lenA o.add) (cpysliceOp o)

/-! ## CPYREG (R279) -/

/-- The descriptor of the walk a CPYREG makes: threads from `t0` on by counter 5, registers by counter 0; `q` is the place of the
first register of thread `t0`. -/
def cpyregDesc (ld : Bool) (bolt weft q v n t0 cnt : Nat) (bar : Option Nat) : List Dword :=
  let scr := 3 + 8 * bolt
  let reg := 5 + 8 * weft
  let r := (v * n + t0) * 8
  let row (x y : Nat) : Dword := BitVec.ofNat 64 (x + y * 2 ^ 32)
  let barw := match bar with
    | some f => 2 ^ 20 + f
    | none => 0
  [BitVec.ofNat 64 (if ld then q else r), BitVec.ofNat 64 (if ld then r else q),
   if ld then row scr (reg + 2 ^ 11) else row reg scr, BitVec.ofNat 64 (3 * 2 ^ 32 + barw), row cnt 1, row 1 1, row 1 (n - t0),
   row (8 * n) 0, 0, row 0 8, row (8 * n) 0, 0, row 0 8, BitVec.ofNat 64 (2 ^ weft), 0, 0]

/-- Open and start the copy of a CPYREG: its slices are the selected threads. It waits for what the weft did before it (R277). -/
def State.startCpyreg (s : State) (h : Nat) (w : Weft) (sel : Mask) (c : Copy) (ld : Bool) (r : Reg) (cnt : Nat) : State :=
  let (t, s) := s.stamp
  let t0 := (threads sel).headD 0
  let regs := (List.range cnt).map (fun i => regPlus r i)
  let keys := (threads sel).flatMap (fun u => (List.range cnt).map (fun i => match r with
    | .v n => vkey (n.toNat + i) u
    | _ => 0))
  let snap := (List.range (w.n - t0)).flatMap (fun u => regs.map (fun x => (w.cell x (t0 + u)).val))
  let c : Copy := { c with st := if s.performedBefore h t then .running else .ready, parts := [w.id], contrib := [(h, t)],
                           slices := (threads sel).map (fun u => (u - t0, 1)),
                           empties := if ld then keys else [], snap := if ld then none else some snap }
  let s := (s.openCopy w.bolt c).2
  if ld then s.setWeft h (regs.foldl (fun v x => v.emptyAll x sel) (s.weft h)) else s

/-- The offsets of the words a CPYREG moves, in the order of R279. -/
def cpyregWords (n : Nat) (sel : Mask) (cnt : Nat) (q : Int) : List Int :=
  (threads sel).flatMap (fun t => (List.range cnt).map (fun i => q + ((i * n + t) * 8 : Nat)))

/-- CPYREG in a direction. -/
def cpyregOp (g : Guard) (ld : Bool) (r : Opnd) (off bar : Src) (cnt : Nat) (barv : Bool) (s : State) (h : Nat) : Eff :=
  let bo := opS 3 (if barv then [.s, .z] else [.z]) (if barv then tInt else none) bar
  let one := opS 2 [.s, .z] tInt off
  let r := { r with cnt := cnt }
  s.access h (.plain g (if ld then [one, bo, r] else [r, one, bo])) (fun w sel =>
    let q := w.int 64 false off 0
    let f := w.int 64 false bar 0
    let t0 := (threads sel).headD 0
    let v := match r.reg with
      | .v n => n.toNat
      | _ => 0
    match (cpyregWords w.n sel cnt q).find? (fun x => x < 0 || decide (((s.boltOf w).scratch : Int) < x + 8)) with
    | some x => .trap s (w.fault cProtection (info := 1) (addr := addr57 x) (mask := sel))
    | none =>
      match (if barv then (if f < 0 then some (w.fault cProtection (info := if f % 32 = 0 then 1 else 4) (addr := addr57 f) (mask := sel))
          else s.copyBarFault w f.toNat sel) else none) with
      | some t => .trap s t
      | none =>
        if (s.noRecord w.bolt).isSome then .hold s .copyRecord
        else
          let desc := cpyregDesc ld (s.boltOf w).id w.id (q + (8 * t0 : Nat)).toNat v w.n t0 cnt (if barv then some f.toNat else none)
          .done (s.startCpyreg h w sel (s.newCopy w.bolt 0 desc) ld r.reg cnt))

/-- CPYREG.LD. -/
def execCpyregLd (o : CpyregLdArgs) (s : State) : Out :=
  runWeft o.g s 16 (cpyregOp o.g true (opD [.v] o.d) o.off o.bar (o.count1.toNat + 1) o.barv)

/-- CPYREG.ST. -/
def execCpyregSt (o : CpyregStArgs) (s : State) : Out :=
  runPoint s 16 (cpyregOp o.g false (opS 1 [.v] none o.a) o.off o.bar (o.count1.toNat + 1) o.barv)

/-! ## CPYSTAT and CPYCANCEL (R280, R281) -/

/-- STATE of a copy. -/
def CopySt.code : CopySt → Nat
  | .opened => 0 | .ready => 1 | .running => 1 | .done => 2 | .error => 3

/-- The status word of a handle. -/
def Bolt.copyStatus (b : Bolt) (hd : Nat) : Nat :=
  match Store.find b.copies hd with
  | none => 15
  | some c => c.landed % 2 ^ 40 * 2 ^ 24 + c.err * 2 ^ 16 + c.st.code

/-- The handle an operand holds. -/
def Weft.handle (w : Weft) (a : Src) : Nat := (w.cell a.reg 0).val.toNat

/-- CPYSTAT. -/
def execCpystat (o : CpyArgs) (s : State) : Out :=
  runWeft o.g s 8 (fun s h => s.operate h (.plain o.g [opS 1 [.s] (some [1]) o.h, opD [.s] o.d]) (fun w _ =>
    s.answer h o.d ((s.boltOf w).copyStatus (w.handle o.h))))

/-- CPYCANCEL. -/
def execCpycancel (o : CpyArgs) (s : State) : Out :=
  runWeft o.g s 8 (fun s h => s.operate h (.plain o.g [opS 1 [.s] (some [1]) o.h, opD [.s, .z] o.d]) (fun w _ =>
    (s.failCopy w.bolt (w.handle o.h) 7).answer h o.d ((s.boltOf w).copyStatus (w.handle o.h))))

/-! ## Translations of an engine (R276, R495) -/

/-- Report a translation hold; its number names it, and a page that follows is pulled (R440). -/
def State.engineHold (s : State) (asid va : Nat) : Nat × State :=
  (s.nextSeq, (s.event 5 7 (asid * 2 ^ 52 + va / granule % 2 ^ 42)).pullFor asid va)

/-- What an engine's step comes to: a value, a failure's code, or a hold. -/
inductive Eng (α : Type) where
  | ok (s : State) (a : α)
  | fail (s : State) (code : Nat)
  | hold (s : State)

/-- The frame of a page for a copy, pinned from its first use. -/
def State.copyFrame (s : State) (bh hd va : Nat) (write : Bool) : Eng Nat :=
  let b := s.bolt bh
  let c := (Store.find b.copies hd).map (fun c => c.tr)
  let asid := (s.span (s.course b.course).span).asid
  match (c.getD []).find? (fun p => p.page = va / granule && p.write = write) with
  | some p => .ok s p.frame
  | none =>
    match s.translate b.core asid (va / granule * granule) (if write then .write else .read) with
    | (s, .ok pa) =>
      let u := s.usedPage b.core asid va
      let p : Pin := { page := va / granule, write := write, frame := pa / granule, vpn := u.1, span := u.2 }
      .ok (s.mapCopy bh hd (fun c => { c with tr := c.tr ++ [p] })) (pa / granule)
    | (s, .mig) => .hold s
    | (s, .fault cause _) =>
      if cause = cProtection then .fail s 2
      else
        let (q, s) := s.engineHold asid va
        .hold (s.mapCopy bh hd (fun c => { c with held := some q }))

/-- Virtual bytes cut at pages: address and count. -/
def pageCuts (va n : Nat) : List (Nat × Nat) :=
  let k := min n (granule - va % granule)
  if k = n then [(va, n)] else [(va, k), (va + k, n - k)]

/-- Frames for each page of some bytes. -/
def State.copyPlaces (s : State) (bh hd : Nat) (write : Bool) : List (Nat × Nat) → List (Nat × Nat × Nat) → Eng (List (Nat × Nat × Nat))
  | [], acc => .ok s acc
  | (va, k) :: rest, acc =>
    match s.copyFrame bh hd va write with
    | .ok s f => s.copyPlaces bh hd write rest (acc ++ [(va, f, k)])
    | .fail s c => .fail s c
    | .hold s => .hold s

/-! ## Elements -/

/-- The slots of a bolt, on its core or saved with it (R282, R283). -/
def State.boltSlots (s : State) (bh : Nat) : Store Slot :=
  if (s.bolt bh).out then (s.bolt bh).savedSlots else (s.core (s.bolt bh).core).slots

/-- Change a slot of a bolt, wherever it stands. -/
def State.mapSlot (s : State) (bh i : Nat) (f : Slot → Slot) : State :=
  let b := s.bolt bh
  if b.out then s.setBolt bh { b with savedSlots := Store.modify b.savedSlots i f }
  else
    let c := s.core b.core
    s.setCore b.core { c with slots := Store.modify c.slots i f }

/-- The slot of a copy, if a weft of its bolt owns it (R269). -/
def State.copySlot (s : State) (bh i : Nat) : Option Slot :=
  match Store.find (s.boltSlots bh) i with
  | some x => if x.owner.any (fun h => (s.weft h).bolt = bh) then some x else none
  | none => none

/-- Bytes read line by line at their homes for a context; none when an abort answered. -/
def State.readPlaces (s : State) (asid : Nat) : List (Nat × Nat × Nat) → List Byte → State × Option (List Byte)
  | [], acc => (s, some acc)
  | (va, f, k) :: rest, acc =>
    match s.homeRead (f * granule + va % granule) k 4 asid with
    | (s, none) => (s, none)
    | (s, some l) => s.readPlaces asid rest (acc ++ l)

/-- Source bytes of an element (R267, R269, R274). -/
def State.copyRead (s : State) (bh hd : Nat) (c : Copy) (off n : Nat) : Eng (List Byte) :=
  let mem (x : Space) : Eng (List Byte) :=
    if badIn (s.spaceBad x) 8 off n then .fail (s.spaceError 4 x off n) 6 else .ok (s.spaceSplit x off n) (s.spaceRead x off n)
  match s.srcSide bh c with
  | .glob r => match s.copyPlaces bh hd false (pageCuts (r.base + off) n) [] with
    | .ok s l => (match s.readPlaces (s.boltAsid bh) l [] with
      | (s, some b) => .ok s b
      | (s, none) => .fail s 6)
    | .fail s x => .fail s x
    | .hold s => .hold s
  | .vault x => mem (.vt x)
  | .scratch b =>
    if (s.bolt b).bufs.any (fun d => overlap off n d.base d.len && !d.st.engineOk false) then .fail s 3 else mem (.sp b)
  | .slot i => match s.copySlot bh i with
    | none => .fail s 9
    | some x =>
      if badIn x.bad 8 off n then .fail (s.errEvent 1 4 (s.boltAsid bh) (.slot (s.bolt bh).core i (firstBad x.bad off n))) 6
      else .ok s (Store.bytes x.data off n)
  | .regs h =>
    let w := s.weft h
    let (v, t) := w.regAt off
    if w.status = .ended then .fail s 9
    else if !(w.v v t).full then .hold s
    else if w.bad.contains (vkey v t) then .fail (s.errEvent 1 4 (s.boltAsid bh) (.reg h (vkey v t))) 6
    else .ok s (natLe 8 (w.v v t).val.toNat)
  | .bad => .fail s 9

/-- Pieces of some bytes that lie in one 8-byte word each. -/
def wordCuts (off : Nat) (l : List Byte) : List (Nat × List Byte) :=
  let k := 8 - off % 8
  if l.length ≤ k then [(off, l)] else [(off, l.take k), (off + k, l.drop k)]

/-! ### Shadow pages (R275, R318, R320) -/

/-- No cached line of a frame is left from its earlier use. -/
def State.dropFrame (s : State) (frame : Nat) : State :=
  let keep (l : List Nat) : List Nat := l.filter (fun x => x * 64 / granule ≠ frame)
  { s with cores := s.cores.map (fun (p : Nat × Core) =>
    (p.1, { p.2 with l1 := p.2.l1.filter (fun x => x.line * 64 / granule ≠ frame), l1Bad := keep p.2.l1Bad,
                     icache := keep p.2.icache, icBad := keep p.2.icBad })) }

/-- Accesses that have been translated and not performed: their address space, the pages through which they went, and their frames.
Buffered writes, reads in flight and commits not yet accepted count, stalled ones too (R318, R359). -/
def State.inFlight (s : State) : List (Nat × List (Nat × Nat) × List Nat) :=
  let stores := s.cores.flatMap (fun p => p.2.wbuf.map (fun e => (s.asidOf (s.weft e.weft), e.uses, [e.pa / granule])))
  let reads := s.wefts.flatMap (fun p => p.2.flights.map (fun f =>
    (s.asidOf p.2, (match f.kind with
      | .load _ _ _ _ _ locs _ _ _ => (locs.filter (fun x => f.mask.getLsbD x.thr)).flatMap (fun x => x.uses)
      | .atom _ _ _ reqs _ => (reqs.filter (fun x => f.mask.getLsbD x.thr)).flatMap (fun x => x.uses)
      | _ => []), (s.flightRanges (s.asidOf p.2) f).map (fun r => r.1 / granule))))
  let commits := s.contribs.map (fun c => (s.asidOf (s.weft c.weft), c.uses, (c.elems.map (fun e => e.1 / granule)).eraseDups))
  stores ++ reads ++ commits

/-- An access or a copy still uses a frame through a translation it took. -/
def State.frameBusy (s : State) (frame : Nat) : Bool :=
  s.inFlight.any (fun x => x.2.2.contains frame) ||
    s.bolts.any (fun p => p.2.copies.any (fun q => q.2.live && q.2.tr.any (fun t => t.frame = frame)))

/-- The supervisor can offer a frame: it is one, and if a publish has left it, every access that had translated it has completed
(R318). -/
def State.canTake (s : State) (frame : Nat) : Bool :=
  decide (frame < hbmSize / granule) && !(s.oldPages.contains frame && s.frameBusy frame)

/-- Take a page of the published contents into a frame of the shadow (R320): update-only copies of its lines are
combined first, a line that does not read stays so, and nothing cached of the frame's earlier use is left. -/
def State.takePage (s : State) (old frame : Nat) : State :=
  let s := (s.recallRange (old * granule) granule).dropFrame frame
  let lines := granule / 64
  let badOld := s.memBad.filter (fun l => l / lines = old)
  { s with mem := Store.putBytes s.mem (frame * granule) (Store.bytes s.mem (old * granule) granule),
           oldPages := s.oldPages.filter (fun x => x ≠ frame),
           memBad := s.memBad.filter (fun l => l / lines ≠ frame) ++ badOld.map (fun l => frame * lines + l % lines) }

/-- Give a page of a shadow its frame: with the published contents (R320), or with what an image brought. -/
def State.shadowPage (s : State) (bh hd page old frame : Nat) : State :=
  let saved := ((Store.find (s.bolt bh).copies hd).map (fun c => c.saved)).getD []
  let s := s.takePage old frame
  let s : State := match saved.find? (fun p => p.1 = page) with
    | some p => { s with mem := Store.putBytes s.mem (frame * granule) p.2,
                         memBad := s.memBad.filter (fun l => l / (granule / 64) ≠ frame) }
    | none => s
  s.mapCopy bh hd (fun c => { c with pages := c.pages ++ [(page, frame)], saved := c.saved.filter (fun p => p.1 ≠ page) })

/-- Entries of a table (R349). -/
def tableSize : Nat := 4096

/-- Replace a larger leaf by a table, in a frame, whose leaves map the same bytes (R349). -/
def State.splitLeaf (s : State) (a e level frame : Nat) : State :=
  let step := pageSize (level - 1)
  let t := (List.range tableSize).flatMap (fun i => natLe 8 (e + i * step))
  let s := s.dropFrame frame
  { s with mem := Store.writeNat (Store.putBytes s.mem (frame * granule) t) a 8 (frame * granule + 1),
           oldPages := s.oldPages.filter (fun x => x ≠ frame),
           memBad := s.memBad.filter (fun l => l / (granule / 64) ≠ frame) }

/-- Split the leaves above a page until it has one of its own, in frames offered for the tables: what is left of the frames, or none
where they do not suffice. -/
def State.splitFor (s : State) (asid va : Nat) : Nat → List Nat → Option (State × List Nat)
  | 0, _ => none
  | fuel + 1, frames =>
    match s.walk asid va, frames with
    | .leaf 0 _ _, l => some (s, l)
    | .leaf level a e, fr :: more => if s.canTake fr then (s.splitLeaf a e level fr).splitFor asid va fuel more else none
    | _, _ => none

/-- Take a page of a shadow with the next frames offered: those left, or none where they do not suffice. -/
def State.takeShadow (s : State) (bh hd va old : Nat) (frames : List Nat) : Option (State × Nat × List Nat) :=
  match s.splitFor (s.boltAsid bh) va 3 frames with
  | some (s, fr :: more) => if s.canTake fr then some (s.shadowPage bh hd (va / granule) old fr, fr, more) else none
  | _ => none

/-- The frames of a shadow for the pages of a write; a page not yet taken takes the next frame offered. -/
def State.shadowPlaces (s : State) (bh hd : Nat) : List (Nat × Nat × Nat) → List Nat → List (Nat × Nat × Nat) → Eng (List (Nat × Nat × Nat))
  | [], _, acc => .ok s acc
  | (va, f, k) :: rest, frames, acc =>
    let pages := ((Store.find (s.bolt bh).copies hd).map (fun c => c.pages)).getD []
    match pages.find? (fun p => p.1 = va / granule) with
    | some p => s.shadowPlaces bh hd rest frames (acc ++ [(va, p.2, k)])
    | none => match s.takeShadow bh hd va f frames with
      | some (s, fr, more) => s.shadowPlaces bh hd rest more (acc ++ [(va, fr, k)])
      | none => .hold s

/-- The pages of a shadow that an image brought take frames before the copy goes on; false while the frames offered do not
suffice. -/
def State.adoptSaved (s : State) (bh hd : Nat) : List (Nat × List Byte) → List Nat → State × Bool × List Nat
  | [], frames => (s, true, frames)
  | (page, _) :: rest, frames =>
    match s.walk (s.boltAsid bh) (page * granule) with
    | .bad _ => (s, false, frames)
    | .leaf level _ e =>
      match s.takeShadow bh hd (page * granule) (leafPa level e (page * granule) / granule) frames with
      | some (s, _, more) => s.adoptSaved bh hd rest more
      | none => (s, false, frames)

/-! ### Writes of a copy (R364) -/

/-- Bytes listed one by one from an address, zeros too. -/
def listBytes (l : Store Byte) (pa : Nat) : List Byte → Store Byte
  | [] => l
  | b :: t => listBytes (Store.insert l pa b) (pa + 1) t

/-- Write bytes of one line for a copy. Those of an uncorrectable line are gathered, and replace it once the copy has written it
whole (R364). -/
def State.copyLine (s : State) (bh hd pa : Nat) (l : List Byte) : State :=
  if s.memBad.contains (pa / 64) && !s.lineLost pa then
    let g := listBytes (((Store.find (s.bolt bh).copies hd).map (fun c => c.gather)).getD []) pa l
    let (mine, others) := g.partition (fun p => p.1 / 64 = pa / 64)
    if mine.length = 64 then (s.homeWrite (pa / 64 * 64) (mine.map (·.2))).mapCopy bh hd (fun c => { c with gather := others })
    else s.mapCopy bh hd (fun c => { c with gather := g })
  else s.homeWrite pa l

/-- Write bytes of a copy at their homes, line by line; no older copy of a line stays in the core's L1 (R232). -/
def State.copyPut (s : State) (bh hd pa : Nat) (l : List Byte) : State :=
  let k := 64 - pa % 64
  let one (s : State) (pa : Nat) (l : List Byte) : State :=
    if l.isEmpty then s else (s.copyLine bh hd pa l).dropLine (s.bolt bh).core (pa / 64)
  one (one s pa (l.take k)) (pa + k) (l.drop k)

/-- Write bytes of an element at their places. -/
def State.copyPuts (s : State) (bh hd : Nat) : List (Nat × Nat × Nat) → List Byte → State
  | [], _ => s
  | (va, f, k) :: rest, l => (s.copyPut bh hd (f * granule + va % granule) (l.take k)).copyPuts bh hd rest (l.drop k)

/-- Write bytes at their places. -/
def State.writePlaces (s : State) : List (Nat × Nat × Nat) → List Byte → State
  | [], _ => s
  | (va, f, k) :: rest, l => (s.homeWrite (f * granule + va % granule) (l.take k)).writePlaces rest (l.drop k)

/-- Write bytes of a slot, word by word; a part of an uncorrectable word is withheld (R211, R364). -/
def Slot.write (x : Slot) (off : Nat) (l : List Byte) : Slot :=
  (wordCuts off l).foldl (fun (x : Slot) p =>
    if x.bad.contains (p.1 / 8) && p.2.length < 8 then x
    else { x with data := Store.putBytes x.data p.1 p.2, bad := x.bad.filter (fun u => u ≠ p.1 / 8) }) x

/-- The event of a write that a slot withholds in part (R211, R362). -/
def State.slotEvents (s : State) (bh i : Nat) (x : Slot) (off : Nat) (l : List Byte) : State :=
  (wordCuts off l).foldl (fun (s : State) p =>
    if x.bad.contains (p.1 / 8) && p.2.length < 8 then s.errEvent 1 7 (s.boltAsid bh) (.slot (s.bolt bh).core i p.1) else s) s

/-- Write an element (R267, R269, R270, R274). -/
def State.copyWrite (s : State) (bh hd : Nat) (c : Copy) (off : Nat) (l : List Byte) (frames : List Nat) : Eng Unit :=
  let mem (x : Space) : Eng Unit := .ok ((wordCuts off l).foldl (fun (s : State) p => s.spaceWrite x p.1 p.2) s) ()
  let tag := ctlTag c.dctl
  match s.dstSide bh c with
  | .glob r => match s.copyPlaces bh hd true (pageCuts (r.base + off) l.length) [] with
    | .ok s p =>
      if r.shadow then match s.shadowPlaces bh hd p frames [] with
        | .ok s q => .ok (s.copyPuts bh hd q l) ()
        | .fail s x => .fail s x
        | .hold s => .hold s
      else .ok (s.copyPuts bh hd p l) ()
    | .fail s x => .fail s x
    | .hold s => .hold s
  | .vault x => mem (.vt x)
  | .scratch b =>
    let y := s.bolt b
    if y.bufs.any (fun d => overlap off l.length d.base d.len && !d.st.engineOk true) then .fail s 3
    else if y.hitsObject b off l.length then .fail s 8
    else mem (.sp b)
  | .slot i => match s.copySlot bh i with
    | none => .fail s 9
    | some x =>
      if x.pins ≠ 0 then .hold s
      else .ok ((s.slotEvents bh i x off l).mapSlot bh i (fun x => { x.write off l with tag := tag })) ()
  | .regs h =>
    let w := s.weft h
    let (v, t) := w.regAt off
    if w.status = .ended then .fail s 9
    else
      let s := s.setWeft h (w.setV v t (mkCell (leNat l) tag))
      .ok (s.mapCopy bh hd (fun c => { c with empties := c.empties.filter (fun k => k ≠ vkey v t) })) ()
  | .bad => .fail s 9

/-! ## Completion (R273, R275, R318, R319) -/

/-- Count an element into the copy and, with BARV, into its barrier; a count the barrier does not keep is not counted. -/
def State.countLand (s : State) (bh hd : Nat) (c : Copy) : State :=
  let add (s : State) : State := s.mapCopy bh hd (fun c => { c with landed := c.landed + c.esz })
  if c.barv then
    let o := (s.bolt bh).obj c.baroff
    if s.barState bh c.baroff = 1 && o.bcnt + c.esz < 2 ^ 40 then (add s).barLand bh c.baroff c.esz
    else s.barLand bh c.baroff c.esz
  else add s

/-- Withheld landings, in nest order. -/
def State.countLands (s : State) (bh hd : Nat) (c : Copy) : Nat → State
  | 0 => s
  | n + 1 => (s.countLand bh hd c).countLands bh hd c n

/-- Map a page of a shadow: its leaf, one of its own since the page was taken, names the new frame, no cached translation of the
page remains, and the old frame returns to the supervisor once its accesses have completed (R318). -/
def State.mapShadow (s : State) (asid : Nat) (p : Nat × Nat) : State :=
  match s.walk asid (p.1 * granule) with
  | .leaf 0 a e =>
    { s with mem := Store.writeNat s.mem a 8 (e - entryAddr e + p.2 * granule),
             tlb := s.tlb.filter (fun t => !(t.asid = asid && t.vpn ≤ p.1 && p.1 < t.vpn + t.span)),
             oldPages := (s.oldPages ++ [entryAddr e / granule]).eraseDups }
  | _ => s

/-- The copy has done its last element: a shadow is published, the landings withheld are counted, and it is DONE. -/
def State.finishCopy (s : State) (bh hd : Nat) : State :=
  match Store.find (s.bolt bh).copies hd with
  | none => s
  | some c =>
    let s := c.pages.foldl (fun (s : State) p => s.mapShadow (s.boltAsid bh) p) (s.endGather bh hd)
    let s := s.countLands bh hd c c.withheld
    let (t, s) := s.stamp
    s.mapCopy bh hd (fun c => { c with st := .done, order := t, pages := [], saved := [], withheld := 0, empties := [], tr := [] })

/-- Finish if no element is left. -/
def State.finishIfDone (s : State) (bh hd : Nat) : State :=
  match Store.find (s.bolt bh).copies hd with
  | some c => if c.st = .running && (c.pos c.next).isNone then s.finishCopy bh hd else s
  | none => s

/-! ## COPY_START (R270, R272, R275, R277) -/

/-- Another copy holds the one shadow of a record (R275). -/
def State.shadowTaken (s : State) (asid base : Nat) : Bool :=
  s.bolts.any (fun p => (s.span (s.course p.2.course).span).asid = asid && p.2.copies.any (fun q =>
    q.2.st = .running && (match s.dstSide p.1 q.2 with
      | .glob r => r.shadow && r.base = base
      | _ => false)))

/-- Registers a walk writes, as keys of the target's register file. -/
def Copy.regKeys (c : Copy) (w : Weft) : List Nat :=
  ((c.positions (c.count 5 * c.inner) 0).map (fun p => vkey (w.regAt (c.dstAt p)).1 (w.regAt (c.dstAt p)).2)).eraseDups

/-- Mark registers empty. -/
def Weft.emptyKeys (w : Weft) (l : List Nat) : Weft :=
  l.foldl (fun w k => w.setV (k / 32) (k % 32) { w.v (k / 32) (k % 32) with full := false }) w

/-- A copy that has its slices begins to walk. -/
def State.startCopy (s : State) (bh hd : Nat) (c : Copy) : State :=
  let run (s : State) (l : List Nat) : State := (s.mapCopy bh hd (fun c => { c with st := .running, empties := l })).finishIfDone bh hd
  if c.barv && c.barGone then s.endCopy bh hd 4
  else match s.dstSide bh c with
    | .regs h =>
      if (s.weft h).status = .ended then s.endCopy bh hd 9
      else
        let l := c.regKeys (s.weft h)
        run (s.setWeft h ((s.weft h).emptyKeys l)) l
    | _ => run s []

/-- COPY_START. -/
def execCopyStart (b h : Nat) (s : State) : Out :=
  match Store.find (s.bolt b).copies h with
  | none => .next s
  | some c =>
    let asid := (s.span (s.course (s.bolt b).course).span).asid
    let waits : Bool := match s.dstSide b c with
      | .glob r => r.shadow && s.shadowTaken asid r.base
      | _ => false
    if c.st = .ready && c.contrib.all (fun p => s.performedBefore p.1 p.2) && !waits then .next (s.startCopy b h c).wake
    else .next s

/-! ## COPY_ELEMENT_LAND (R267, R273, R274) -/

/-- An abort on source bytes kills the thread whose register would have received them (R274). -/
def State.abortThread (s : State) (bh : Nat) (c : Copy) (off : Nat) : State :=
  match s.dstSide bh c with
  | .regs h => s.kill h (tbit ((s.weft h).regAt off).2)
  | _ => s

/-- After an element's bytes: its landing is counted, or withheld under a shadow, and the nest goes on. -/
def State.landElement (s : State) (bh hd : Nat) (c : Copy) (p : Nat) : State :=
  let s := if (s.dstSide bh c).isShadow then s.mapCopy bh hd (fun c => { c with withheld := c.withheld + 1 })
    else s.countLand bh hd c
  (s.mapCopy bh hd (fun c => { c with next := p + 1 })).finishIfDone bh hd

/-- The barrier of a copy has left LIVE: the code it ends with (R274). -/
def State.copyBarCode (s : State) (bh : Nat) (c : Copy) : Option Nat :=
  if !c.barv then none
  else if c.barGone then some 4
  else if s.barState bh c.baroff ≠ 1 then some 10
  else none

/-- The source bytes of the element at a position. -/
def State.elementBytes (s : State) (bh hd : Nat) (c : Copy) (p : Nat) : Eng (List Byte) :=
  if c.fill then .ok s (List.replicate c.esz 0)
  else match c.snap with
    | some l => .ok s (natLe 8 (l.getD p 0).toNat)
    | none => s.copyRead bh hd c (c.srcAt p) c.esz

/-- One element of a running copy. -/
def State.copyElement (s : State) (bh hd : Nat) (c : Copy) (p : Nat) (frames : List Nat) : State :=
  match s.elementBytes bh hd c p with
  | .hold s => s
  | .fail s code =>
    let s := s.failCopy bh hd code
    if code = 6 then s.abortThread bh c (c.dstAt p) else s
  | .ok s l =>
    match s.copyWrite bh hd c (c.dstAt p) l frames with
    | .hold s => s
    | .fail s code => s.failCopy bh hd code
    | .ok s _ => s.landElement bh hd c p

/-- COPY_ELEMENT_LAND: the next element of a running copy; `frames` are those the supervisor offers for the pages that the
copy takes into a shadow. -/
def execCopyElementLand (b h : Nat) (frames : List Nat) (s : State) : Out :=
  match Store.find (s.bolt b).copies h with
  | none => .next s
  | some c =>
    if c.st ≠ .running || c.held.isSome then .next s
    else if c.refused then .next (s.failCopy b h 5).wake
    else match s.copyBarCode b c, s.adoptSaved b h c.saved frames with
      | some code, _ => .next (s.failCopy b h code).wake
      | none, (s, false, _) => .next s
      | none, (s, true, frames) => match c.pos c.next with
        | none => .next (s.finishIfDone b h).wake
        | some p => .next (s.copyElement b h c p frames).wake

end Sys2Proof.Machine
end

