-- ==== Sys2Proof/Machine/Matrix.lean ====
section
/-! DEFINITION. The matrix array (R283 to R301, R79 to R84): slots, layout words, MLOAD, scale and sparsity layouts, MMA
chains and MLOOPs, the array's steps and commits, batches and their errors. -/

namespace Sys2Proof.Machine

/-! ## Shapes (R285, R286) -/

/-- The dense step formats of R285. -/
inductive MFmt where | fp8 | mx | i8 | f16 | bf16 | f32 | f64
  deriving DecidableEq, Repr

/-- The step format a slot tag names. -/
def MFmt.ofTag (t : BitVec 6) : Option MFmt :=
  match fmtOf t with
  | 3 => some .f64 | 4 => some .f32 | 5 => some .f16 | 6 => some .bf16 | 7 => some .fp8 | 8 => some .fp8
  | 9 => some .mx | 10 => some .i8
  | _ => none

/-- Rows of the A tile, which are also the columns of the B tile. -/
def MFmt.rows : MFmt → Nat
  | .f64 => 32
  | _ => 128
/-- K of a dense tile. -/
def MFmt.depth : MFmt → Nat
  | .fp8 | .mx | .i8 => 128
  | .f16 | .bf16 => 64
  | .f32 | .f64 => 32
/-- Bits of an element. -/
def MFmt.bits : MFmt → Nat
  | .mx => 4
  | .fp8 | .i8 => 8
  | .f16 | .bf16 => 16
  | .f32 => 32
  | .f64 => 64
/-- ENC of the accumulator (R185). -/
def MFmt.enc : MFmt → Nat
  | .i8 => 2
  | .f64 => 3
  | _ => 4
/-- Elements of K per chunk. -/
def MFmt.chunk : MFmt → Nat
  | .f16 | .bf16 => 16
  | .f32 => 4
  | f => f.depth
/-- ESZ of a layout word (R287). -/
def MFmt.esz : MFmt → Nat
  | .mx => 0
  | .fp8 | .i8 => 1
  | .f16 | .bf16 => 2
  | .f32 => 3
  | .f64 => 4
/-- Bytes of a row. -/
def MFmt.rowBytes (f : MFmt) : Nat := f.depth * f.bits / 8
/-- The format takes a scale layout (R292) and, for a sparse step, a sparse A (R285). -/
def MFmt.scales : MFmt → Bool
  | .fp8 | .mx => true
  | _ => false
def MFmt.sparse : MFmt → Bool
  | .fp8 | .f16 | .bf16 => true
  | _ => false

/-- Bytes of a slot that a step reads: the tile, and the scales of an MX FP4 one (R286). -/
def MFmt.extent (f : MFmt) : Nat := if f = .mx then 8704 else f.rows * f.rowBytes

/-- The code of an element of a tile in a slot (R286). -/
def Slot.code (x : Slot) (f : MFmt) (r k : Nat) : Nat :=
  if f = .mx then Store.readNat x.data (r * 64 + k / 2) 1 / 2 ^ (4 * (k % 2)) % 16
  else Store.readNat x.data (r * f.rowBytes + k * (f.bits / 8)) (f.bits / 8)

/-- The floating-point format of a tile. -/
def Slot.spec (x : Slot) : FSpec :=
  match fmtOf x.tag with
  | 3 => .f64
  | 5 => .f16
  | 6 => .bf16
  | 7 => .e4m3 (readOf x.tag)
  | 8 => .e5m2 (readOf x.tag)
  | 9 => .e2m1
  | _ => .f32

/-- The value of an element, an MX FP4 one with the scale of its block (R58, R79). -/
def Slot.value (x : Slot) (f : MFmt) (r k : Nat) : FVal :=
  let v := x.spec.decode (x.code f r k)
  if f = .mx then (FVal.mul v (e8m0 (Store.readNat x.data (8192 + 4 * r + k / 32) 1))).1 else v

/-! ## Sparsity metadata (R84, R295) -/

/-- Stored elements and logical positions of a group. -/
def SparseLayout.kept (l : SparseLayout) : Nat := if l.s48 then 4 else 2
def SparseLayout.wide (l : SparseLayout) : Nat := if l.s48 then 8 else 4
/-- Bytes of a row's metadata. -/
def SparseLayout.rowBytes (l : SparseLayout) (f : MFmt) : Nat := f.depth / l.kept * (if l.s48 then 4 else 1) / 2
/-- Where step `j`'s metadata starts. -/
def SparseLayout.start (l : SparseLayout) (j : Nat) : Int := l.a + j * l.b

/-- A group's code. -/
def SparseLayout.groupCode (l : SparseLayout) (f : MFmt) (x : Slot) (at_ r g : Nat) : Nat :=
  let base := at_ + r * l.rowBytes f
  if l.s48 then Store.readNat x.data (base + 2 * g) 2 else Store.readNat x.data (base + g / 2) 1 / 2 ^ (4 * (g % 2)) % 16

/-- The positions a code gives the stored elements. -/
def SparseLayout.positions (l : SparseLayout) (code : Nat) : List Nat :=
  let w := if l.s48 then 3 else 2
  (List.range l.kept).map (fun i => code / 2 ^ (w * i) % 2 ^ w)

/-- A code is legal: no position repeats and the reserved bits are zero. -/
def SparseLayout.codeOk (l : SparseLayout) (code : Nat) : Bool :=
  (l.positions code).eraseDups.length = l.kept && (!l.s48 || code < 2 ^ 12)

/-- Every group code of a step is legal. -/
def SparseLayout.metaOk (l : SparseLayout) (f : MFmt) (x : Slot) (at_ : Nat) : Bool :=
  (List.range f.rows).all (fun r => (List.range (f.depth / l.kept)).all (fun g => l.codeOk (l.groupCode f x at_ r g)))

/-- A's logical element at (row, k) under metadata: the stored one placed there, or +0. -/
def SparseLayout.value (l : SparseLayout) (f : MFmt) (x m : Slot) (at_ r k : Nat) : FVal :=
  let g := k / l.wide
  match (l.positions (l.groupCode f m at_ r g)).idxOf? (k % l.wide) with
  | some i => x.value f r (g * l.kept + i)
  | none => .fin false 0 0

/-! ## One step (R79 to R84, R291) -/

/-- The exact sum of a chunk of products. -/
def chunkSum (a b : Nat → FVal) (k0 n : Nat) : FVal × Bool :=
  ((List.range n).foldl (fun (s : Sum) i => s.addMul (a (k0 + i)) (b (k0 + i))) Sum.zero).val .rne

/-- NV as a flag. -/
def nvFlag (b : Bool) : Flags := if b then Flags.nv else 0

/-- Multiply by the scales of a chunk, exactly. -/
def withScales (v : FVal) : List FVal → FVal × Bool
  | [] => (v, false)
  | s :: t =>
    let (p, nv) := FVal.mul v s
    let (q, nv') := withScales p t
    (q, nv || nv')

/-- P of a chunk rounded to F32 and added to the partial (R79, R81). -/
def chunkAdd (t : Nat) (a b : Nat → FVal) (k0 n : Nat) (scales : List FVal) : Nat × Flags :=
  let (v, nv) := chunkSum a b k0 n
  let (x, nv') := withScales v scales
  let (p, f) := FSpec.f32.roundVal .rne x
  let (r, g) := fAdd .f32 .rne (FSpec.f32.decode t) (FSpec.f32.decode p)
  (r, f ||| g ||| nvFlag (nv || nv'))

/-- The chunks of a step in ascending order, `sc` giving each chunk's scales. -/
def chunksAdd (a b : Nat → FVal) (n : Nat) (sc : Nat → List FVal) : Nat → Nat → Nat × Flags → Nat × Flags
  | 0, _, t => t
  | m + 1, c, t =>
    let (r, f) := chunkAdd t.1 a b (c * n) n (sc c)
    chunksAdd a b n sc m (c + 1) (r, t.2 ||| f)

/-- An F64 step's chain of fused multiply-adds (R82). -/
def fmaChain (a b : Nat → FVal) (n : Nat) (t : Nat) : Nat × Flags :=
  (List.range n).foldl (fun (t : Nat × Flags) k =>
    let (r, f) := fFma .f64 .rne (a k) (b k) (FSpec.f64.decode t.1)
    (r, t.2 ||| f)) (t, 0)

/-- An INT8 step's sum (R80). -/
def intChunk (x y : Slot) (r c t : Nat) : Nat × Flags :=
  let s := (List.range 128).foldl (fun (s : Int) k => s + sextNat 8 (x.code .i8 r k) * sextNat 8 (y.code .i8 c k)) 0
  toIntN (sextNat 32 t + s) 32 false false

/-- What a step reads: its format, its operands, the scales of a row in a chunk. -/
structure StepData where
  fmt : MFmt
  a : Slot
  b : Slot
  b2 : Option Slot
  meta_ : Option (SparseLayout × Slot × Nat)
  scales : List (List FVal × FVal)

/-- K of the step. -/
def StepData.depth (d : StepData) : Nat := if d.b2.isSome then 2 * d.fmt.depth else d.fmt.depth

/-- Element (row, k) of A. -/
def StepData.av (d : StepData) (r k : Nat) : FVal :=
  match d.meta_ with
  | some (l, m, at_) => l.value d.fmt d.a m at_ r k
  | none => d.a.value d.fmt r k

/-- Element (k, col) of B; a sparse B goes on in its second slot. -/
def StepData.bv (d : StepData) (c k : Nat) : FVal :=
  match d.b2 with
  | some y => if k < d.fmt.depth then d.b.value d.fmt c k else y.value d.fmt c (k - d.fmt.depth)
  | none => d.b.value d.fmt c k

/-- The scales of a chunk for a row; 1.0 where none is given. -/
def StepData.scalesAt (d : StepData) (r c : Nat) : List FVal :=
  match d.scales[c]? with
  | some (rows, b) => [rows.getD r (.fin false 1 0), b]
  | none => []

/-- One element of the partial after the step. -/
def StepData.elem (d : StepData) (r c t : Nat) : Nat × Flags :=
  match d.fmt with
  | .i8 => intChunk d.a d.b r c t
  | .f64 => fmaChain (d.av r) (d.bv c) d.depth t
  | f => chunksAdd (d.av r) (d.bv c) f.chunk (d.scalesAt r) (d.depth / f.chunk) 0 (t, 0)

/-- The partial after the step, and the step's flags. -/
def StepData.run (d : StepData) (part : Store Dword) : Store Dword × Flags :=
  (List.range (d.fmt.rows * d.fmt.rows)).foldl (fun (acc : Store Dword × Flags) i =>
    let (v, f) := d.elem (i / d.fmt.rows) (i % d.fmt.rows) (Store.get 0 part i).toNat
    (Store.put 0 acc.1 i (BitVec.ofNat 64 v), acc.2 ||| f)) (part, 0)

/-! ## The loop word (R297) -/

def loopA0 (x : Dword) : Nat := x.toNat % 32
def loopNA (x : Dword) : Nat := x.toNat / 2 ^ 5 % 32 + 1
def loopB0 (x : Dword) : Nat := x.toNat / 2 ^ 10 % 32
def loopNB (x : Dword) : Nat := x.toNat / 2 ^ 15 % 32 + 1
def loopNK (x : Dword) : Nat := x.toNat / 2 ^ 20 % 2 ^ 16 + 1
def loopCINT (x : Dword) : Nat := x.toNat / 2 ^ 36 % 256 + 1
def loopCINC (x : Dword) : Int := sextNat 20 (x.toNat / 2 ^ 44)

/-- A loop word is in range. -/
def loopOk (x : Dword) (sp : Bool) : Bool :=
  loopA0 x + loopNA x ≤ 32 && loopB0 x + (if sp then 2 * loopNB x else loopNB x) ≤ 32 &&
    loopCINT x ≤ min (loopNA x) (loopNB x)

/-! ## Sequencer entries -/

/-- Step `j` of an entry. -/
def SeqEntry.step (e : SeqEntry) (id j : Nat) : Option MStep :=
  match e.kind with
  | .mload .. => none
  | .mma l => l[j]?
  | .mloop x _ sc sp =>
    if j < loopNK x then
      some { a := loopA0 x + j % loopNA x, b := loopB0 x + (if e.sp then 2 else 1) * (j % loopNB x), place := e.place,
             at_ := id, scale := sc, sparse := sp }
    else none

/-- Steps of an entry. -/
def SeqEntry.steps (e : SeqEntry) : Nat :=
  match e.kind with
  | .mload .. => 0
  | .mma l => l.length
  | .mloop x .. => loopNK x

/-- A step's index within its instruction. -/
def SeqEntry.index (e : SeqEntry) (j : Nat) : Nat :=
  match e.kind with
  | .mloop .. => j
  | _ => 0

/-- The element offset of a step's tile. -/
def SeqEntry.tile (e : SeqEntry) (j : Nat) : Int :=
  match e.kind with
  | .mloop x .. => e.off + (j / loopCINT x : Nat) * loopCINC x
  | _ => e.off

/-- A commit follows step `j`: every CINT steps, every 32 of a chain, and the last (R293, R297). -/
def SeqEntry.commitAfter (e : SeqEntry) (j : Nat) : Bool :=
  match e.kind with
  | .mload .. => false
  | .mma l => (j + 1) % 32 = 0 || (e.closed && j + 1 = l.length)
  | .mloop x .. => (j + 1) % loopCINT x = 0 || j + 1 = loopNK x

/-- A partial stands ready to be committed. -/
def SeqEntry.due (e : SeqEntry) : Bool := e.done < e.next && e.commitAfter (e.next - 1)

/-- The entry has made its last commit. -/
def SeqEntry.finished (e : SeqEntry) : Bool := e.closed && e.done = e.steps

/-- Slots a step reads, its metadata's included. -/
def MStep.slots (x : MStep) (sp : Bool) : List Nat :=
  if sp then [x.a, x.b, x.b + 1] ++ (match x.sparse with | some l => [l.slot] | none => []) else [x.a, x.b]

/-- The core a weft's bolt stands on, and the entry of it with a number. -/
def State.seqEntry (s : State) (core id : Nat) : Option SeqEntry := Store.find (s.core core).seqr id

/-- Change an entry. -/
def State.mapEntry (s : State) (core id : Nat) (f : SeqEntry → SeqEntry) : State :=
  let c := s.core core
  s.setCore core { c with seqr := Store.modify c.seqr id f }

/-- Entries in use: those in the sequencer, and those whose last contribution still stalls (R290, R316). -/
def State.entriesUsed (s : State) (core : Nat) : Nat :=
  let c := s.core core
  c.entries + (((s.contribs.filter (fun x => x.stalled && s.coreOf (s.weft x.weft) = core &&
    (Store.find c.seqr x.entry).isNone)).map (fun x => x.entry)).eraseDups).length

/-- A weft's slot of its core. -/
def State.slotAt (s : State) (core i : Nat) : Slot := Store.get Slot.empty (s.core core).slots i

/-- A weft owns a slot. -/
def State.ownsSlot (s : State) (h i : Nat) : Bool := (s.slotAt (s.coreOf (s.weft h)) i).owner = some h

/-- Release a slot, or note that its pins must go first (R284). -/
def State.releaseSlot (s : State) (core i : Nat) : State :=
  let c := s.core core
  s.setCore core { c with slots := Store.modify c.slots i (fun x => if x.pins = 0 then Slot.empty else { x with relPend := true }) }

/-- Items of a weft in the array. -/
def State.weftItems (s : State) (h : Nat) : List (Nat × SeqEntry) :=
  (s.core (s.coreOf (s.weft h))).seqr.filter (fun p => p.2.weft = h)

/-- The slots of an ended weft are released as soon as its matrix operations finish (R284). -/
def State.releaseEnded (s : State) (h : Nat) : State :=
  let w := s.weft h
  if w.status = .ended && (s.weftItems h).isEmpty then
    let n := s.coreOf w
    ((s.core n).slots.filter (fun p => p.2.owner = some h)).foldl (fun (s : State) p => s.releaseSlot n p.1) s
  else s

/-! ## Batches (R298, R299, R315) -/

/-- A batch of a weft. -/
def Weft.batch (w : Weft) (n : Nat) : Option Batch := w.batches.find? (fun b => b.num = n)

def Batch.fresh (n : Nat) : Batch :=
  { num := n, flags := 0, aborted := false, closed := false, complete := false, issued := 0, left := 0, parts := [] }

/-- The weft with its open batch in the list. -/
def Weft.withOpen (w : Weft) : Weft :=
  if (w.batch w.nextBatch).isSome then w else { w with batches := w.batches ++ [Batch.fresh w.nextBatch] }

/-- An instruction enters the open batch: its place in it. -/
def State.joinBatch (s : State) (h : Nat) (works : Bool) : Nat × State :=
  let w := (s.weft h).withOpen
  let place := ((w.batch w.nextBatch).map (fun b => b.issued)).getD 0
  (place, s.setWeft h (w.mapBatch w.nextBatch (fun b =>
    { b with issued := b.issued + 1, left := b.left + (if works then 1 else 0) })))

/-- An empty contribution that carries the final mark of a group (R315). -/
def State.sendMark (s : State) (h n : Nat) (p : Nat × Nat × Nat) : State :=
  let (t, s) := s.stamp
  let c : Contribution := { weft := h, batch := n, entry := 0, contrib := p.2.2, merge := .ord, ordinal := t, part := p.1,
                            len := p.2.1, kind := 0, elems := [], final := true, stalled := false, uses := [] }
  let s := s.mapWeft h (fun w => w.mapBatch n (fun b => { b with left := b.left + 1 }))
  { s with contribs := s.contribs ++ [c] }

/-- Send the final marks of a batch's groups that no commit still to come will carry. -/
def State.sendMarks (s : State) (h n : Nat) : State :=
  let ps := (((s.weft h).batch n).map (fun b => b.parts)).getD []
  let s := s.mapWeft h (fun w => w.mapBatch n (fun b => { b with parts := [] }))
  ps.foldl (fun (s : State) p => s.sendMark h n p) s

/-- A closed batch with no entry left closes its groups. -/
def State.closeGroups (s : State) (h n : Nat) : State :=
  match (s.weft h).batch n with
  | some b => if b.closed && !(s.weftItems h).any (fun p => p.2.batch = n && p.2.kind.isEntry) then s.sendMarks h n else s
  | none => s

/-- An item of the array is gone: finished or dropped. -/
def State.removeItem (s : State) (core id : Nat) : State :=
  match s.seqEntry core id with
  | none => s
  | some e =>
    let c := (s.core core).unpin e.pinned
    let s := s.setCore core { c with seqr := Store.erase c.seqr id }
    let s := s.mapWeft e.weft (fun w =>
      { w.mapBatch e.batch (fun b => { b with left := b.left - 1 }) with chain := if w.chain = some id then none else w.chain })
    (s.closeGroups e.weft e.batch).releaseEnded e.weft

/-- Commit the weft's open chain (R297): it takes no more steps; one with nothing left to commit is gone. -/
def State.closeChain (s : State) (h : Nat) : State :=
  match (s.weft h).chain with
  | none => s
  | some id =>
    let n := s.coreOf (s.weft h)
    let s := (s.mapEntry n id (fun e => { e with closed := true })).mapWeft h (fun w => { w with chain := none })
    match s.seqEntry n id with
    | some e => if e.finished then s.removeItem n id else s
    | none => s

/-- MFENCE's effect: the chain is committed and the open batch closed; its number. -/
def State.closeBatch (s : State) (h : Nat) : Nat × State :=
  let s := s.closeChain h
  let w := (s.weft h).withOpen
  let n := w.nextBatch
  let s := s.setWeft h { w.mapBatch n (fun b => { b with closed := true }) with nextBatch := (n + 1) % 2 ^ 32 }
  let s := s.closeGroups h n
  (n, s.mapWeft h (fun w => w.mapBatch n (fun b => { b with complete := b.left = 0 })))

/-- Batch `m` is `n` or a later one. -/
def batchFrom (n m : Nat) : Bool := (m + 2 ^ 32 - n) % 2 ^ 32 < 2 ^ 31

/-- The fault of a failed batch, at an instruction still to come. -/
def Weft.matrixFault (w : Weft) (cause : BitVec 8) (place idx : Nat) : Trap :=
  w.fault cause (info := idx % 2 ^ 16 + place % 2 ^ 16 * 2 ^ 16)

/-- The failure of an ended weft, as an event. -/
def State.matrixEvent (s : State) (h : Nat) (cause : BitVec 8) (place idx : Nat) : State :=
  s.event 5 0 (s.asidOf (s.weft h) * 2 ^ 52 + cause.toNat * 2 ^ 32 + place % 2 ^ 16 * 2 ^ 16 + idx % 2 ^ 16)

/-- A batch ends in error (R299): what the weft has not finished in it and in later batches is dropped, their groups close,
and the weft's next matrix instruction will fault. -/
def State.failBatch (s : State) (h n : Nat) (cause : BitVec 8) (place idx : Nat) : State :=
  let core := s.coreOf (s.weft h)
  let items := (s.weftItems h).filter (fun p => batchFrom n p.2.batch)
  let lost := (items.map (fun p => p.2.batch)).eraseDups
  let s := items.foldl (fun (s : State) p => s.removeItem core p.1) s
  let s := s.mapWeft h (fun w => { w with batches := w.batches.map (fun (b : Batch) =>
    if b.num ≠ n && lost.contains b.num then { b with aborted := true } else b) })
  let s := (n :: lost.filter (fun m => m ≠ n)).foldl (fun (s : State) m => s.sendMarks h m) s
  if (s.weft h).status = .ended then s.matrixEvent h cause place idx
  else s.mapWeft h (fun w => { w with mfail := some (w.mfail.getD (w.matrixFault cause place idx)) })

/-! ## The shape of a matrix instruction -/

/-- A matrix instruction (R296): a failure of earlier work is raised first (R299). -/
def matBody (body : State → Weft → Mask → Eff) (s : State) (h : Nat) (w : Weft) (sel : Mask) : Eff :=
  match w.mfail with
  | some t => .trap (s.setWeft h { w with mfail := none }) { t with pc := w.pc, mask := sel }
  | none => body s w sel

/-- A matrix instruction that gives the array an access to memory, or synchronises. -/
def matOp (f : Form) (body : State → Weft → Mask → Eff) (s : State) (h : Nat) : Eff :=
  s.access h { f with matrix := true } (matBody body s h)

/-- A matrix instruction that accesses no memory: no acquire holds it. -/
def matNow (f : Form) (body : State → Weft → Mask → Eff) (s : State) (h : Nat) : Eff :=
  s.operate h { f with matrix := true } (matBody body s h)

/-- A protection fault of a matrix instruction. -/
def matProt (s : State) (w : Weft) (sel : Mask) (i : Nat) : Eff := .trap s (w.fault cProtection (info := i) (mask := sel))

/-- Bits 31:0 of a mask operand, as slots. -/
def Weft.slotMask (w : Weft) (a : Src) : List Nat := threads ((w.cell a.reg 0).val.truncate 32)

/-- A mask of slots as a number. -/
def slotBits (l : List Nat) : Nat := (maskOf l).toNat

/-! ## MCLAIM and MREL (R284) -/

/-- Empty slots of a core become a weft's own. -/
def State.claimSlots (s : State) (h : Nat) (l : List Nat) : State :=
  let n := s.coreOf (s.weft h)
  let c := s.core n
  s.setCore n { c with slots := l.foldl (fun st i => Store.insert st i { Slot.empty with owner := some h }) c.slots }

/-- MCLAIM. -/
def mclaimOp (o : MclaimArgs) : State → Nat → Eff :=
  fun s h => matNow (.plain o.g [opS 1 [.s] tInt o.a, opD [.s, .z] o.d]) (fun s w _ =>
    let n := s.coreOf w
    let l := w.slotMask o.a
    let busy := l.filter (fun i => (s.slotAt n i).owner.isSome)
    if busy.isEmpty then (s.claimSlots h l).answer h o.d 0
    else s.answer h o.d (slotBits busy)) s h

def execMclaim (o : MclaimArgs) (s : State) : Out := runWeft o.g s 8 (mclaimOp o)

/-- MREL. -/
def mrelOp (o : MrelArgs) : State → Nat → Eff :=
  fun s h => matNow (.plain o.g [opS 1 [.s] tInt o.a]) (fun s w sel =>
    let l := w.slotMask o.a
    if !l.all (fun i => s.ownsSlot h i) then matProt s w sel 11
    else .done (l.foldl (fun (s : State) i => s.releaseSlot (s.coreOf w) i) s)) s h

def execMrel (o : MrelArgs) (s : State) : Out := runWeft o.g s 8 (mrelOp o)

/-! ## LAYOUT (R287, R288) -/

/-- A value fits a signed field of 32 bits. -/
def fits32 (x : Int) : Bool := -2 ^ 31 ≤ x && x < 2 ^ 31

/-- LAYOUT. -/
def layoutOp (o : LayoutArgs) (s : State) (h : Nat) : Eff :=
  let sz : List RC := [.s, .z]
  s.operate h (.plain o.g [opS 1 sz tInt o.off, opS 2 sz tInt o.bolt, opS 3 sz tInt o.st0, opS 5 sz tInt o.st1,
      opS 6 sz tInt o.st2, { opD [.s] o.d with cnt := 3 }]) (fun w sel =>
    let x (a : Src) : Int := w.int 64 false a 0
    if x o.off < 0 || 2 ^ 20 ≤ x o.off || x o.bolt < 0 || 256 ≤ x o.bolt || !fits32 (x o.st0) || !fits32 (x o.st1) ||
        !fits32 (x o.st2) then matProt s w sel 10
    else
      let w0 := (x o.off).toNat + (x o.bolt).toNat * 2 ^ 20
      let w1 := wrapNat 32 (x o.st0) + wrapNat 32 (x o.st1) * 2 ^ 32
      let w2 := wrapNat 32 (x o.st2) + o.perm.val * 2 ^ 32 + o.esz.val * 2 ^ 36
      let v := ((w.put o.d 0 (mkCell w0 tagI64)).put (regPlus o.d 1) 0 (mkCell w1 tagI64)).put (regPlus o.d 2) 0 (mkCell w2 tagI64)
      .done (s.setWeft h v))

def execLayout (o : LayoutArgs) (s : State) : Out := runWeft o.g s 16 (layoutOp o)

/-- A layout word's fields (R287). -/
def layOff (x : Dword × Dword × Dword) : Nat := x.1.toNat % 2 ^ 20
def layBolt (x : Dword × Dword × Dword) : Nat := x.1.toNat / 2 ^ 20 % 256
def laySt0 (x : Dword × Dword × Dword) : Int := sextNat 32 x.2.1.toNat
def laySt1 (x : Dword × Dword × Dword) : Int := sextNat 32 (x.2.1.toNat / 2 ^ 32)
def laySt2 (x : Dword × Dword × Dword) : Int := sextNat 32 x.2.2.toNat
def layPerm (x : Dword × Dword × Dword) : Nat := x.2.2.toNat / 2 ^ 32 % 16
def layEsz (x : Dword × Dword × Dword) : Nat := x.2.2.toNat / 2 ^ 36 % 8

/-- The address of element (row, k) of a tile (R287). -/
def layAt (x : Dword × Dword × Dword) (row k : Nat) : Int :=
  let e : Int := ((row % 32 : Nat) : Int) * laySt1 x + ((row / 32 : Nat) : Int) * laySt2 x + (if layEsz x = 0 then ((k / 2 : Nat) : Int) else (k : Int) * laySt0 x)
  let e' := if layPerm x = 0 then e
    else ((BitVec.ofInt 128 e) ^^^ (BitVec.ofNat 128 (row % 2 ^ layPerm x * 16))).toInt
  (layOff x : Int) + e'

/-- The addresses of a tile's elements, row by row. -/
def layAll (x : Dword × Dword × Dword) (f : MFmt) : List Int :=
  (List.range f.rows).flatMap (fun r => (List.range f.depth).map (fun k => layAt x r k))

/-- Bytes touched by an element. -/
def MFmt.elemBytes (f : MFmt) : Nat := max 1 (f.bits / 8)

/-! ## MLOAD (R289) -/

/-- The layout word an operand names. -/
def Weft.layoutWord (w : Weft) (a : Src) : Dword × Dword × Dword :=
  ((w.cell a.reg 0).val, (w.cell (regPlus a.reg 1) 0).val, (w.cell (regPlus a.reg 2) 0).val)

/-- A sequencer item with nothing done. -/
def SeqEntry.fresh (h batch place : Nat) (k : MKind) : SeqEntry :=
  { weft := h, batch := batch, place := place, kind := k, br := 0, acc := ⟨0, 0, 0, 0, 0⟩, off := 0, merge := .arr, sp := false,
    sc := false, contrib := 0, next := 0, done := 0, closed := true, part := [], pinned := [], held := none, refused := false }

/-- Put an item into the array under the next stamp. -/
def State.addItem (s : State) (h : Nat) (e : SeqEntry) : Nat × State :=
  let (id, s) := s.stamp
  let n := s.coreOf (s.weft h)
  let c := s.core n
  (id, s.setCore n { c with seqr := Store.insert c.seqr id e })

/-- Operands of a layout word: three S registers of tag INT64. -/
def layoutOps (a : Src) : List Opnd :=
  [{ opS 1 [.s] (some [1]) a with cnt := 3 }, opS 1 [.s] (some [1]) { a with reg := regPlus a.reg 1 },
   opS 1 [.s] (some [1]) { a with reg := regPlus a.reg 2 }]

/-- The weft's open chain reads a slot: a step after its last commit of 32 steps does (R293). -/
def State.chainReads (s : State) (h i : Nat) : Bool :=
  match (s.weft h).chain with
  | none => false
  | some id => match s.seqEntry (s.coreOf (s.weft h)) id with
    | some { kind := .mma l, sp := sp, .. } => (l.drop (l.length / 32 * 32)).any (fun x => (x.slots sp).contains i)
    | _ => false

/-- Issue an MLOAD: a chain of the weft that reads the slot is committed, and the load joins the weft's batch. -/
def State.issueMload (s : State) (h k : Nat) (x : Dword × Dword × Dword) (tag : BitVec 6) (sc : Option Nat) : State :=
  let s := if s.chainReads h k then s.closeChain h else s
  let (place, s) := s.joinBatch h true
  (s.addItem h (.fresh h (s.weft h).nextBatch place (.mload k x tag sc))).2

/-- MLOAD. -/
def mloadOp (o : MloadArgs) : State → Nat → Eff :=
  fun s h => matOp (.plain o.g (layoutOps o.layout ++ (match o.sc with | some a => [opS 2 [.s, .z] tInt a] | none => [])))
    (fun s w sel =>
      let x := w.layoutWord o.layout
      let k := o.slot.toNat
      match (if tagValid o.tag then MFmt.ofTag o.tag else none) with
      | none => .trap s (w.fault cIllegal)
      | some f =>
        if layEsz x ≠ f.esz then .trap s (w.fault cTag (info := 2) (mask := sel))
        else if !s.ownsSlot h k then matProt s w sel 11
        else match s.boltIn (s.boltOf w).course (layBolt x) with
          | none => matProt s w sel 6
          | some b =>
            let len : Int := (s.bolt b).scratch
            let sc := o.sc.map (fun a => w.int 64 false a 0)
            let scBad : Bool := match sc with
              | some q => q < 0 || len < q + 512
              | none => false
            if (layAll x f).any (fun e => e < 0 || len < e + f.elemBytes) || scBad then matProt s w sel 1
            else
              .done (s.issueMload h k x o.tag (sc.map Int.toNat))) s h

def execMload (o : MloadArgs) (s : State) : Out := runWeft o.g s 16 (mloadOp o)

/-- An item's own bolt can work: its weft is not SWAPPED and its bolt stands on its core (R290). -/
def State.itemRuns (s : State) (e : SeqEntry) : Bool :=
  (s.weft e.weft).status ≠ .swapped && !(s.boltOf (s.weft e.weft)).out

/-- An earlier item of the weft still has to write or read a slot: an MLOAD into it, or a step of an MMA on it. The steps of an
MMA keep their place before a later MLOAD, which an MLOOP's do not (DEDUCED, log 145). -/
def State.slotBusyBefore (s : State) (h id i : Nat) : Bool :=
  (s.weftItems h).any (fun p => match p.2.kind with
    | .mload k .. => p.1 < id && k = i
    | .mma l => (l.drop p.2.next).any (fun x => x.at_ < id && (x.slots p.2.sp).contains i)
    | .mloop .. => false)

/-- The bytes of a scratchpad that an MLOAD reads. -/
def tileRanges (x : Dword × Dword × Dword) (f : MFmt) (sc : Option Nat) : List (Nat × Nat) :=
  (layAll x f).map (fun e => (e.toNat, f.elemBytes)) ++ (match sc with | some q => [(q, 512)] | none => [])

/-- The tile and the scale bytes of an MLOAD in the order of R286; the first cause that stops it. -/
def State.tileBytes (s : State) (b : Nat) (x : Dword × Dword × Dword) (f : MFmt) (sc : Option Nat) :
    List (Nat × Byte) ⊕ (BitVec 8 × ErrAt) :=
  let y := s.bolt b
  let els := (List.range f.rows).flatMap (fun r => (List.range f.depth).map (fun k => (r, k, (layAt x r k).toNat)))
  let ranges := tileRanges x f sc
  if ranges.any (fun p => y.bufs.any (fun d => overlap p.1 p.2 d.base d.len && !d.st.engineOk false)) then .inr (cBuffer, .nothing 0)
  else match ranges.find? (fun p => badIn y.spBad 8 p.1 p.2) with
  | some p => .inr (cAbort, .sp b (firstBad y.spBad p.1 p.2))
  | none =>
    let bytes := if f = .mx then
        (List.range f.rows).flatMap (fun r => (List.range 64).map (fun k =>
          let nib (j : Nat) : Nat := Store.readNat y.sp (layAt x r j).toNat 1 / 2 ^ (4 * (j % 2)) % 16
          (r * 64 + k, BitVec.ofNat 8 (nib (2 * k) + 16 * nib (2 * k + 1)))))
      else els.flatMap (fun e => (List.range f.elemBytes).map (fun i =>
        (e.1 * f.rowBytes + e.2.1 * f.elemBytes + i, Store.get 0 y.sp (e.2.2 + i))))
    .inl (bytes ++ (match sc with
      | some q => (List.range 512).map (fun i => (8192 + i, Store.get 0 y.sp (q + i)))
      | none => []))

/-- A slot after an MLOAD. -/
def Slot.loaded (x : Slot) (tag : BitVec 6) (f : MFmt) (l : List (Nat × Byte)) : Slot :=
  { x with tag := tag, data := l.foldl (fun d p => Store.put 0 d p.1 p.2) x.data, bad := x.bad.filter (fun u => f.extent ≤ 8 * u) }

/-- An abort completion that the array meets is reported (R362). -/
def State.arrayAbort (s : State) (h : Nat) (cause : BitVec 8) (a : ErrAt) : State :=
  if cause = cAbort then s.errEvent 1 3 (s.asidOf (s.weft h)) a else s

/-- MLOAD_COMPLETE (R289): the tile is read as LDS reads and its slot takes it, once the slot is unpinned and the weft's
earlier work on it is done. -/
def execMloadComplete (core id : Nat) (s : State) : Out :=
  match s.seqEntry core id with
  | some e => match e.kind with
    | .mload k x tag sc =>
      match MFmt.ofTag tag, s.boltIn (s.boltOf (s.weft e.weft)).course (layBolt x) with
      | some f, some b =>
        if !s.itemRuns e || (s.slotAt core k).pins ≠ 0 || s.slotBusyBefore e.weft id k || !s.performedBefore e.weft id then .next s
        else match s.tileBytes b x f sc with
          | .inr (cause, a) => .next ((s.arrayAbort e.weft cause a).failBatch e.weft e.batch cause e.place 0).wake
          | .inl l =>
            let s := s.spaceSplits (.sp b) (tileRanges x f sc)
            let c := s.core core
            let s := if s.ownsSlot e.weft k then s.setCore core { c with slots := Store.modify c.slots k (fun y => y.loaded tag f l) } else s
            .next (s.removeItem core id).wake
      | _, _ => .next s
    | _ => .next s
  | none => .next s

/-! ## MSCALE and MSPARSE (R294, R295) -/

/-- MSCALE. -/
def mscaleOp (o : MscaleArgs) : State → Nat → Eff :=
  let sz : List RC := [.s, .z]
  fun s h => matNow (.plain o.g [opS 1 sz tInt o.a, opS 2 sz tInt o.b, opS 3 sz tInt o.c, opS 5 sz tInt o.xa]) (fun s w _ =>
    let x (a : Src) : Int := w.int 64 false a 0
    .done (s.setWeft h { w with scale := some ⟨x o.a, x o.b, x o.c, x o.xa⟩ })) s h

def execMscale (o : MscaleArgs) (s : State) : Out := runWeft o.g s 16 (mscaleOp o)

/-- MSPARSE. -/
def msparseOp (o : MsparseArgs) : State → Nat → Eff :=
  let sz : List RC := [.s, .z]
  fun s h => matNow (.plain o.g [opS 2 sz tInt o.a, opS 3 sz tInt o.b]) (fun s w sel =>
    let l : SparseLayout := { s48 := o.pat = .s48, slot := o.slot.toNat, a := w.int 64 false o.a 0, b := w.int 64 false o.b 0 }
    if !s.ownsSlot h o.slot.toNat then matProt s w sel 11
    else .done (s.setWeft h { w with sparse := if o.pat = .off then none else some l })) s h

def execMsparse (o : MsparseArgs) (s : State) : Out := runWeft o.g s 16 (msparseOp o)

/-! ## MMA and MLOOP (R297) -/

/-- Elements of the tile of an accumulator encoding, and bytes of an element. -/
def tileElems (enc : Nat) : Nat := if enc = 3 then 1024 else 16384
def tileElemBytes (enc : Nat) : Nat := if enc = 3 then 8 else 4

/-- The checks of R297 on the accumulator record. -/
def accFault (w : Weft) (b : BufRec) (sel : Mask) : Option Trap :=
  let r := b.fields
  let prot (i : Nat) : Option Trap := some (w.fault cProtection (info := i) (mask := sel))
  if r.rv then prot 5
  else if r.rdonly then prot 2
  else if r.shadow then prot 3
  else if !(r.enc = 2 || r.enc = 3 || r.enc = 4) then some (w.fault cTag (info := 2) (mask := sel))
  else none

/-- A tile lies within the record. -/
def Rec.tileIn (r : Rec) (off : Int) : Bool := 0 ≤ off && (off + tileElems r.enc) * tileElemBytes r.enc ≤ (r.len : Int)

/-- What MMA and MLOOP share: the entry they would make, whether its own fields are in range, the tiles at its ends and the
slots it names. -/
structure MIssue where
  e : SeqEntry
  ok : Bool
  last : Int
  slots : List Nat

/-- The record, range, tile and slot checks in R297's order. -/
def State.matFault (s : State) (h : Nat) (w : Weft) (x : MIssue) (sel : Mask) : Option Trap :=
  let r := x.e.acc.fields
  let prot (i : Nat) : Option Trap := some (w.fault cProtection (info := i) (mask := sel))
  match accFault w x.e.acc sel with
  | some t => some t
  | none =>
    if !x.ok || (x.e.sp && w.sparse.isNone) || (x.e.sc && w.scale.isNone) then prot 10
    else if !(r.tileIn x.e.off && r.tileIn x.last) then prot 1
    else if !x.slots.all (fun i => s.ownsSlot h i) then prot 11
    else none

/-- The open chain that an MMA extends (R297). -/
def State.sameChain (s : State) (h : Nat) (e : SeqEntry) : Option (Nat × SeqEntry) :=
  match (s.weft h).chain with
  | none => none
  | some id => match s.seqEntry (s.coreOf (s.weft h)) id with
    | some c => if c.br = e.br && c.acc = e.acc && c.off = e.off && c.merge = e.merge && c.contrib = e.contrib && c.sp = e.sp &&
        c.sc = e.sc then some (id, c) else none
    | none => none

/-- Make a sequencer entry: the weft's chain is committed, and the entry joins its batch, as its open chain or not. -/
def State.enterSeq (s : State) (h : Nat) (e : SeqEntry) (chain : Bool) : State :=
  let s := s.closeChain h
  let (place, s) := s.joinBatch h true
  let e := { e with batch := (s.weft h).nextBatch, place := place }
  let (id, s) := s.addItem h e
  if chain then
    (s.mapEntry (s.coreOf (s.weft h)) id (fun e => { e with closed := false, kind := match e.kind with
      | .mma l => .mma (l.map (fun (x : MStep) => { x with place := place, at_ := id }))
      | k => k })).mapWeft h (fun w => { w with chain := some id })
  else s

/-- A new entry, if the sequencer has one: otherwise D receives 1, or with D naming ZERO the weft waits, its chain
committed. -/
def State.newEntry (s : State) (h : Nat) (w : Weft) (d : Reg) (e : SeqEntry) (chain : Bool) : Eff :=
  if 8 ≤ s.entriesUsed (s.coreOf w) then
    if d = .zero then .hold (s.closeChain h) .seqEntry else s.answer h d 1
  else (s.enterSeq h e chain).answer h d 0

/-- Add a step to an open chain. -/
def State.extendChain (s : State) (h id : Nat) (step : MStep) : State :=
  let (place, s) := s.joinBatch h false
  let (t, s) := s.stamp
  s.mapEntry (s.coreOf (s.weft h)) id (fun c => { c with kind := match c.kind with
    | .mma l => .mma (l ++ [{ step with place := place, at_ := t }])
    | k => k })

/-- The step of an MMA. -/
def mmaStep (o : MmaArgs) (w : Weft) : MStep :=
  { a := o.slotA.toNat, b := o.slotB.toNat, place := 0, at_ := 0, scale := if o.sc then w.scale else none,
    sparse := if o.sp then w.sparse else none }

/-- The entry of an MMA and what is checked of it. A sparse step's second B slot past o31 is taken as a field out of range, INFO 10
(DEDUCED, log 142). -/
def State.mmaIssue (s : State) (h : Nat) (o : MmaArgs) (w : Weft) : MIssue :=
  let a := o.slotA.toNat
  let b := o.slotB.toNat
  let e : SeqEntry := { SeqEntry.fresh h 0 0 (.mma [mmaStep o w]) with
    br := o.br.toNat, acc := s.recordOf w o.br, off := w.int 64 false o.off 0, merge := o.merge, sp := o.sp, sc := o.sc,
    contrib := o.contrib.toNat }
  { e := e, ok := !o.sp || b < 31, last := e.off, slots := if o.sp then [a, b, b + 1] else [a, b] }

/-- MMA. -/
def mmaOp (o : MmaArgs) : State → Nat → Eff :=
  fun s h => matOp (recForm o.g o.br [opS 2 [.s, .z] tInt o.off, opD [.s, .z] o.d]) (fun s w sel =>
    let x := s.mmaIssue h o w
    match s.matFault h w x sel with
    | some t => .trap s t
    | none => match s.sameChain h x.e with
      | some (id, _) => (s.extendChain h id (mmaStep o w)).answer h o.d 0
      | none => s.newEntry h w o.d x.e true) s h

def execMma (o : MmaArgs) (s : State) : Out := runWeft o.g s 16 (mmaOp o)

/-- The barrier word (R297): its offset and start phase when valid. -/
def barWord (x : Nat) : Option (Nat × Word32) := if x.testBit 20 then some (x % 2 ^ 20, BitVec.ofNat 32 (x / 2 ^ 32)) else none

/-- The entry of an MLOOP and what is checked of it. -/
def State.mloopIssue (s : State) (h : Nat) (o : MloopArgs) (w : Weft) : MIssue :=
  let lw := (w.cell o.loop.reg 0).val
  let bw := (w.cell o.bar.reg 0).val.toNat
  let a := loopA0 lw
  let b := loopB0 lw
  let e : SeqEntry := { SeqEntry.fresh h 0 0 (.mloop lw (barWord bw) (if o.sc then w.scale else none) (if o.sp then w.sparse else none)) with
    br := o.br.toNat, acc := s.recordOf w o.br, off := w.int 64 false o.off 0, merge := o.merge, sp := o.sp, sc := o.sc,
    contrib := o.contrib.toNat }
  { e := e, ok := loopOk lw o.sp && bw / 2 ^ 21 % 2 ^ 11 = 0, last := e.tile (loopNK lw - 1),
    slots := (List.range (loopNA lw)).map (fun i => a + i) ++ (List.range ((if o.sp then 2 else 1) * loopNB lw)).map (fun i => b + i) }

/-- MLOOP. -/
def mloopOp (o : MloopArgs) : State → Nat → Eff :=
  fun s h => matOp (recForm o.g o.br [opS 2 [.s, .z] tInt o.off, opS 3 [.s] tInt o.loop, opS 5 [.s, .z] tInt o.bar,
      opD [.s, .z] o.d]) (fun s w sel =>
    let x := s.mloopIssue h o w
    match s.matFault h w x sel with
    | some t => .trap s t
    | none => s.newEntry h w o.d x.e false) s h

def execMloop (o : MloopArgs) (s : State) : Out := runWeft o.g s 16 (mloopOp o)

/-! ## MFENCE, MCOMMIT, MWAIT (R298) -/

/-- MFENCE. -/
def mfenceOp (o : MfenceArgs) : State → Nat → Eff :=
  fun s h => matNow (.plain o.g [opD [.s, .z] o.d]) (fun s _ _ =>
    let (n, s) := s.closeBatch h
    s.answer h o.d n) s h

def execMfence (o : MfenceArgs) (s : State) : Out := runWeft o.g s 8 (mfenceOp o)

/-- MCOMMIT. -/
def execMcommit (o : PlainArgs) (s : State) : Out :=
  runWeft o.g s 8 (fun s h => matNow (.plain o.g []) (fun s _ _ => .done (s.closeChain h)) s h)

/-- The status of a batch (R298). -/
def Weft.batchStatus (w : Weft) (n : Nat) : Nat :=
  if 16 < (w.nextBatch + 2 ^ 32 - n) % 2 ^ 32 then 2 ^ 63
  else match w.batch n with
    | some b => (b.flags.toNat &&& 0x37) + (if b.aborted then 2 ^ 62 else 0)
    | none => 0

/-- A batch and every earlier one have completed. -/
def Weft.batchesDone (w : Weft) (n : Nat) : Bool :=
  w.batches.all (fun b => !(b.closed && batchFrom b.num n) || b.complete)

/-- The batch number an MWAIT names, modulo 2^32. -/
def Weft.batchNum (w : Weft) : SrcI → Nat
  | .reg a => wrapNat 32 (w.int 64 false a 0)
  | .imm v => wrapNat 32 v.toInt

/-- MWAIT. -/
def mwaitOp (o : MwaitArgs) : State → Nat → Eff :=
  fun s h => matOp (.plain o.g (opSI 1 [.s, .z] tInt o.n ++ [opD [.s, .z] o.d])) (fun s w _ =>
    let n := w.batchNum o.n
    let d := (w.nextBatch + 2 ^ 32 - n) % 2 ^ 32
    if 2 ^ 31 ≤ d then .trap s (w.fault cIllegal)
    else
      let s := if d = 0 then (s.closeBatch h).2 else s
      if (s.weft h).batchesDone n then
        let s := s.acquire (s.coreOf w) .span
        s.answer h o.d ((s.weft h).batchStatus n)
      else .hold s .mwait) s h

def execMwait (o : MwaitArgs) (s : State) : Out := runWeft o.g s (lenI o.n) (mwaitOp o)

/-! ## The array's steps (R290 to R295) -/

/-- A copy writes a slot of a bolt. -/
def State.copyInto (s : State) (bh i : Nat) : Bool :=
  (s.bolt bh).copies.any (fun p => p.2.st = .running && (match s.dstSide bh p.2 with
    | .slot k => k = i
    | _ => false))

/-- How a step's barrier stands (R297): passed, still to wait, or the cause that ends its batch. -/
def State.stepBarrier (s : State) (e : SeqEntry) (j : Nat) : Option (BitVec 8) × Bool :=
  match e.kind with
  | .mloop _ (some (off, p0)) _ _ =>
    let b := (s.weft e.weft).bolt
    if phasePassed ((s.bolt b).barPhase off) (p0 + BitVec.ofNat 32 j) then (none, true)
    else match s.barState b off with
      | 1 => (none, false)
      | 3 => (some cPeer, false)
      | _ => (some cBarrier, false)
  | _ => (none, true)

/-- An MLOAD of the weft into a slot is not finished, which a step waits for: any one before a step of an MLOOP, and those issued
before it for the step of an MMA (DEDUCED, log 145). -/
def State.loadsInto (s : State) (e : SeqEntry) (x : MStep) (i : Nat) : Bool :=
  (s.weftItems e.weft).any (fun p => match p.2.kind with
    | .mload k .. => k = i && (p.1 < x.at_ || (match e.kind with | .mloop .. => true | _ => false))
    | _ => false)

/-- A step may run (R290): its slots hold their data, no MLOAD into them is open, its scales are read after the accesses before its
instruction (R300), and its phase has completed, or its barrier ends it. A slot that the entry has pinned holds its data already:
what would write it waits for the pin (R293). -/
def State.stepReady (s : State) (id : Nat) (e : SeqEntry) : Bool :=
  match e.step id e.next with
  | none => false
  | some x =>
    s.itemRuns e && !e.due && !s.contribs.any (fun c => c.stalled && c.entry = id && c.weft = e.weft) &&
      (!e.sc || s.performedBefore e.weft x.at_) &&
      (x.slots e.sp).all (fun i => e.pinned.contains i || (!s.copyInto (s.weft e.weft).bolt i && !s.loadsInto e x i)) &&
      ((s.stepBarrier e e.next).1.isSome || (s.stepBarrier e e.next).2)

/-- Where the scales of a chunk stand (R294): the tile's, then row by row. -/
def scalePlaces (l : ScaleLayout) (rows c : Nat) : List Int :=
  (l.c + c * l.xa) :: (List.range rows).map (fun (r : Nat) => l.a + c * l.b + 4 * (r : Int))

/-- The scales of a chunk (R294): row by row, and the tile's; or the cause that ends the batch. -/
def State.readScales (s : State) (b : Nat) (l : ScaleLayout) (rows c : Nat) : (List FVal × FVal) ⊕ (BitVec 8 × ErrAt) :=
  let y := s.bolt b
  let all := scalePlaces l rows c
  if all.any (fun x => x < 0 || (y.scratch : Int) < x + 4 || x % 4 ≠ 0) then .inr (cProtection, .nothing 0)
  else if all.any (fun x => y.bufs.any (fun d => overlap x.toNat 4 d.base d.len && !d.st.engineOk false)) then .inr (cBuffer, .nothing 0)
  else match all.find? (fun x => badIn y.spBad 8 x.toNat 4) with
  | some x => .inr (cAbort, .sp b (firstBad y.spBad x.toNat 4))
  | none =>
    let v (x : Int) : FVal := FSpec.f32.decode (Store.readNat y.sp x.toNat 4)
    .inl ((all.drop 1).map v, v (all.headD 0))

/-- The scales of the chunks of a step. -/
def State.readChunks (s : State) (b : Nat) (l : ScaleLayout) (rows : Nat) : List Nat → List (List FVal × FVal) →
    List (List FVal × FVal) ⊕ (BitVec 8 × ErrAt)
  | [], acc => .inl acc
  | c :: rest, acc => match s.readScales b l rows c with
    | .inr x => .inr x
    | .inl v => s.readChunks b l rows rest (acc ++ [v])

/-- The formats of a step's slots form a row of R285. -/
def stepFmt (a b : Slot) (b2 : Option Slot) (sp : Bool) : Option MFmt :=
  match MFmt.ofTag a.tag, MFmt.ofTag b.tag with
  | some f, some g =>
    let second : Bool := match b2 with
      | some y => MFmt.ofTag y.tag = some f
      | none => true
    if f = g && second && (!sp || f.sparse) then some f else none
  | _, _ => none

/-- What is wrong with a step's metadata (R295): outside its slot, uncorrectable, or an illegal code. -/
def metaFault (core : Nat) (f : MFmt) (l : SparseLayout) (m : Slot) (at_ : Int) : Option (BitVec 8 × ErrAt) :=
  let n := f.rows * l.rowBytes f
  if at_ < 0 || 16384 < at_ + n then some (cSparse, .nothing 0)
  else if badIn m.bad 8 at_.toNat n then some (cAbort, .slot core l.slot (firstBad m.bad at_.toNat n))
  else if !l.metaOk f m at_.toNat then some (cSparse, .nothing 0)
  else none

/-- The chunk indices of step `j` (R294). -/
def stepChunks (sp : Bool) (j : Nat) : List Nat := if sp then [2 * j, 2 * j + 1] else [j]

/-- Everything a step reads, or the cause that ends its batch (R292, R294, R295, R299). -/
def State.stepData (s : State) (core : Nat) (e : SeqEntry) (x : MStep) (j : Nat) : StepData ⊕ (BitVec 8 × ErrAt) :=
  let a := s.slotAt core x.a
  let b := s.slotAt core x.b
  let b2 := if e.sp then some (s.slotAt core (x.b + 1)) else none
  match stepFmt a b b2 e.sp with
  | none => .inr (cTag, .nothing 0)
  | some f =>
    if e.acc.fields.enc ≠ f.enc || (e.sc && !f.scales) then .inr (cTag, .nothing 0)
    else
      let md := if e.sp then x.sparse.map (fun l => (l, s.slotAt core l.slot, l.start j)) else none
      let read := (x.a, a) :: (x.b, b) :: (b2.toList.map (fun y => (x.b + 1, y)))
      match read.find? (fun y => badIn y.2.bad 8 0 f.extent), md.bind (fun m => metaFault core f m.1 m.2.1 m.2.2) with
      | some y, _ => .inr (cAbort, .slot core y.1 (firstBad y.2.bad 0 f.extent))
      | none, some c => .inr c
      | none, none =>
        let ready (sc : List (List FVal × FVal)) : StepData :=
          { fmt := f, a := a, b := b, b2 := b2, scales := sc, meta_ := md.map (fun m => (m.1, m.2.1, m.2.2.toNat)) }
        match (if e.sc then x.scale else none) with
        | none => .inl (ready [])
        | some l => match s.readChunks (s.weft e.weft).bolt l f.rows (stepChunks e.sp j) [] with
          | .inr c => .inr c
          | .inl sc => .inl (ready sc)

/-- Pin slots for an entry. -/
def Core.pin (c : Core) (l : List Nat) : Core :=
  { c with slots := l.foldl (fun st k => Store.modify st k (fun x => { x with pins := x.pins + 1 })) c.slots }

/-- The slots of a step that its entry has not pinned yet. -/
def SeqEntry.newPins (e : SeqEntry) (x : MStep) : List Nat := ((x.slots e.sp).filter (fun i => !e.pinned.contains i)).eraseDups

/-- The scale reads of a step end the ordered sequences of the scratchpad there (R203). -/
def State.splitScales (s : State) (b : Nat) (d : StepData) (e : SeqEntry) (x : MStep) (j : Nat) : State :=
  match (if e.sc then x.scale else none) with
  | none => s
  | some l => s.spaceSplits (.sp b) ((stepChunks e.sp j).flatMap (fun c => (scalePlaces l d.fmt.rows c).map (fun x => (x.toNat, 4))))

/-- The array runs the next step of an entry: its slots stay pinned until the commit that covers it (R293). -/
def State.runStep (s : State) (core id : Nat) (e : SeqEntry) (x : MStep) : State :=
  let j := e.index e.next
  match s.stepBarrier e e.next with
  | (some cause, _) => s.failBatch e.weft e.batch cause x.place j
  | _ =>
    match s.stepData core e x j with
    | .inr (cause, a) => (s.arrayAbort e.weft cause a).failBatch e.weft e.batch cause x.place j
    | .inl d =>
      let (part, fl) := d.run e.part
      let s := s.splitScales (s.weft e.weft).bolt d e x j
      let s := s.setCore core ((s.core core).pin (e.newPins x))
      let s := s.mapEntry core id (fun e' => { e' with next := e'.next + 1, part := part, pinned := e'.pinned ++ e.newPins x })
      s.mapWeft e.weft (fun w => w.mapBatch e.batch (fun b => { b with flags := b.flags ||| fl }))

/-! ## Commits (R291, R299, R313, R315, R495) -/

/-- Frames of the pages of a tile, in order, with the pages of the entries used. -/
def State.tileFrames (s : State) (core asid : Nat) : List Nat → List (Nat × Nat × Nat × Nat) → Eng (List (Nat × Nat × Nat × Nat))
  | [], acc => .ok s acc
  | g :: rest, acc =>
    match s.translate core asid (g * granule) .write with
    | (s, .ok pa) => s.tileFrames core asid rest (acc ++ [(g, pa / granule, s.usedPage core asid (g * granule))])
    | (s, .mig) => .hold s
    | (s, .fault cause _) => if cause = cProtection then .fail s 0 else .fail s (g + 1)

/-- The elements of a tile with their physical addresses. -/
def SeqEntry.placed (e : SeqEntry) (va : Nat) (l : List (Nat × Nat × Nat × Nat)) : List (Nat × Dword) :=
  let r := e.acc.fields
  (List.range (tileElems r.enc)).map (fun i =>
    let a := va + i * tileElemBytes r.enc
    (((l.find? (fun p => p.1 = a / granule)).map (fun p => p.2.1)).getD 0 * granule + a % granule, Store.get 0 e.part i))

/-- The element kind of an accumulator encoding, as `mergeElem` counts them. -/
def accKind (enc : Nat) : Nat := if enc = 2 then 2 else if enc = 3 then 1 else 0

/-- Pieces of a tile (R313): the bytes of each home slice's granule, by their first byte. -/
def tileParts (n : Nat) (els : List (Nat × Dword)) : List (Nat × Nat) :=
  ((els.map (fun p => p.1 / 65536)).eraseDups).map (fun g =>
    let l := (els.filter (fun p => p.1 / 65536 = g)).map (·.1)
    let lo := l.foldl min (g * 65536 + 65535)
    (lo, l.foldl max 0 + n - lo))

/-- A piece of a part that a migration has brought into the granule of the rest of its tile: a sequence of its own at a page
boundary within the part. -/
def strayPart (part len q : Nat) : Bool := part < q && q < part + len && q % granule = 0

/-- The sequences of strays go on in their part's. -/
def State.joinParts (s : State) (p : Nat × Nat) : State :=
  let stray (q : Nat) : Bool := strayPart p.1 p.2 q
  let old := s.accs.filter (fun q => stray q.1)
  let move (c : Contribution) : Contribution := if stray c.part then { c with part := p.1, len := p.2 } else c
  if old.isEmpty && !s.contribs.any (fun c => stray c.part) then s
  else
    let a := s.acc p.1
    let s := old.foldl (fun (s : State) q => s.setAcc q.1 AccPart.none) s
    let s := s.setAcc p.1 { len := p.2, next := old.foldl (fun n q => max n q.2.next) a.next,
                            held := a.held ++ old.flatMap (fun q => q.2.held.map move) }
    { s with contribs := s.contribs.map move,
             wefts := s.wefts.map (fun (x : Nat × Weft) => (x.1, { x.2 with batches := x.2.batches.map (fun (b : Batch) =>
               { b with parts := (b.parts.map (fun g => if stray g.1 then (p.1, p.2, g.2.2) else g)).eraseDups }) })) }

/-- Push a partial to the adders, one contribution a part; `pages` are the tile's, with their frames and the pages of the entries
that translated them. -/
def State.pushCommit (s : State) (core id : Nat) (e : SeqEntry) (els : List (Nat × Dword)) (pages : List (Nat × Nat × Nat × Nat)) :
    State :=
  let (t, s) := s.stamp
  let parts := tileParts (tileElemBytes e.acc.fields.enc) els
  let s := parts.foldl (fun (s : State) p => s.joinParts p) s
  let closed := (((s.weft e.weft).batch e.batch).map (fun b => b.closed)).getD false
  let others := (s.weftItems e.weft).any (fun p => p.1 ≠ id && p.2.batch = e.batch && p.2.kind.isEntry)
  let final := e.merge = .ord && closed && e.closed && e.next = e.steps && !others
  let mk (p : Nat × Nat) : Contribution :=
    { weft := e.weft, batch := e.batch, entry := id, contrib := e.contrib, merge := e.merge, ordinal := t, part := p.1, len := p.2,
      kind := accKind e.acc.fields.enc, elems := els.filter (fun x => x.1 / 65536 = p.1 / 65536), final := final, stalled := false,
      uses := ((pages.filter (fun g => g.2.1 * granule / 65536 = p.1 / 65536)).map (fun g => g.2.2)).eraseDups }
  let cs := parts.map mk
  let keys := parts.map (fun p => (p.1, p.2, e.contrib))
  let s := s.mapWeft e.weft (fun w => w.mapBatch e.batch (fun b =>
    { b with left := b.left + cs.length, parts := if e.merge = .arr then b.parts
             else if final then b.parts.filter (fun x => !keys.contains x) else (b.parts ++ keys).eraseDups }))
  let s : State := { s with contribs := s.contribs ++ cs }
  let s := s.setCore core ((s.core core).unpin e.pinned)
  let s := s.mapEntry core id (fun e => { e with done := e.next, part := [], pinned := [] })
  match s.seqEntry core id with
  | some e => if e.finished then s.removeItem core id else s
  | none => s

/-- Commit an entry's partial: held while its pages do not translate, failed when they are refused. -/
def State.commitEntry (s : State) (core id : Nat) (e : SeqEntry) : State :=
  let r := e.acc.fields
  let asid := s.asidOf (s.weft e.weft)
  let j := e.next - 1
  let x := e.step id j
  let fail (s : State) : State := s.failBatch e.weft e.batch cTranslation ((x.map (fun y => y.place)).getD e.place) (e.index j)
  if e.refused then fail s
  else
    let va := r.base + (e.tile j).toNat * tileElemBytes r.enc
    let n := tileElems r.enc * tileElemBytes r.enc
    let pages := (List.range ((va + n - 1) / granule + 1 - va / granule)).map (fun i => va / granule + i)
    match s.tileFrames core asid pages [] with
    | .hold s => s
    | .fail s 0 => fail s
    | .fail s (g + 1) =>
      let (q, s) := s.engineHold asid (g * granule)
      s.mapEntry core id (fun e => { e with held := some q })
    | .ok s l => s.pushCommit core id e (e.placed va l) l

/-- Commits of an entry may go on: none of its contributions stalls (R316). -/
def State.commitReady (s : State) (id : Nat) (e : SeqEntry) : Bool :=
  e.due && e.held.isNone && !s.contribs.any (fun c => c.stalled && c.entry = id && c.weft = e.weft)

/-- MATRIX_STEP (R290, R291): a commit that is due is made; otherwise the array runs the entry's next step, if no older
entry's next step is ready. -/
def execMatrixStep (core id : Nat) (s : State) : Out :=
  match s.seqEntry core id with
  | none => .next s
  | some e =>
    if s.commitReady id e then .next (s.commitEntry core id e).wake
    else
      let older := ((s.core core).seqr.filter (fun p => p.1 < id)).any (fun p => p.2.kind.isEntry && s.stepReady p.1 p.2)
      match e.step id e.next with
      | some x =>
        if s.stepReady id e && !older then
          let s := s.runStep core id e x
          match s.seqEntry core id with
          | some e' => .next (if s.commitReady id e' then s.commitEntry core id e' else s).wake
          | none => .next s.wake
        else .next s
      | none => .next s

/-- CONTRIBUTION_ARRIVAL (R313 to R316): one contribution reaches its slice; those of one weft to one part reach it in
program order. A part whose page is still to follow takes none (R436, R440). -/
def execContributionArrival (n : Nat) (s : State) : Out :=
  match s.contribs[n]? with
  | none => .next s
  | some c =>
    if c.stalled || hbmSize ≤ c.part || (s.contribs.take n).any (fun x => x.weft = c.weft && x.part = c.part) then .next s
    else if s.accStalls c then .next { s with contribs := s.contribs.set n { c with stalled := true } }
    else
      let s := ({ s with contribs := s.contribs.eraseIdx n } : State).arriveContribution c
      .next (s.retryStalled s.contribs.length).wake

/-- BATCH_COMPLETE (R298): a closed batch whose instructions have finished and whose commits are all accepted; batches older
than the 16 most recent are forgotten. -/
def execBatchComplete (w n : Nat) (s : State) : Out :=
  match (s.weft w).batch n with
  | none => .next s
  | some b =>
    if b.closed && b.left = 0 && !b.complete then
      let s := s.mapWeft w (fun x => x.mapBatch n (fun b => { b with complete := true }))
      .next (s.mapWeft w (fun x => { x with batches := x.batches.filter (fun b =>
        !(b.complete && 16 < (x.nextBatch + 2 ^ 32 - b.num) % 2 ^ 32)) })).wake
    else .next s

end Sys2Proof.Machine
end

