-- ==== Sys2Proof/Machine/Work.lean ====
section
/-! DEFINITION. The work instructions (R415 to R421): POPW, PUSHW, NOTIFY and MBIND. -/

namespace Sys2Proof.Machine

/-- Eight consecutive S registers as one operand (R415). -/
def eight (o : Opnd) : Opnd := { o with cnt := 8 }

/-- The 64 bytes of eight S registers. -/
def Weft.eightBytes (w : Weft) (r : Reg) : List Byte :=
  (List.range 8).flatMap (fun i => natLe 8 (w.cell (regPlus r i) 0).val.toNat)

/-- A feed queue of the weft's own context; another's, or one that is not bound, faults (R415). -/
def State.ownFeed (s : State) (w : Weft) (q : Nat) (sel : Mask) (next : FeedQ → Eff) : Eff :=
  let f := s.feed q
  if f.asid = s.asidOf w && f.cap ≠ 0 then next f else .trap s (w.fault cProtection (info := 12) (mask := sel))

/-! ## POPW (R416, R418) -/

/-- Issue a pop: eight registers become empty and the pop joins its queue. -/
def State.issuePop (s : State) (h : Nat) (sel : Mask) (d : Reg) (base q : Nat) : State :=
  let (fid, s) := s.stamp
  let w := (List.range 8).foldl (fun (w : Weft) i => w.setEmpty (regPlus d i) 0) (s.weft h)
  let f : Flight := { fid := fid, mask := sel, aborted := 0, kind := .popw base q w.pc }
  let s := s.setWeft h { w with flights := w.flights ++ [f] }
  let x := s.feed q
  (s.setFeed q { x with pops := x.pops ++ [(h, fid)] }).feedServe q

/-- The number of a scalar register. -/
def scalarNum : Reg → Nat
  | .s n => n.toNat
  | _ => 0

/-- POPW. -/
def popwOp (o : PopwArgs) (s : State) (h : Nat) : Eff :=
  s.access h (.plain o.g [eight (opD [.s] o.d)]) (fun w sel =>
    s.ownFeed w o.q.toNat sel (fun _ => .done (s.issuePop h sel o.d (scalarNum o.d) o.q.toNat)))

def execPopw (o : PopwArgs) (s : State) : Out := runWeft o.g s 8 (popwOp o)

/-! ## PUSHW (R411, R417, R418) -/

/-- PUSHW. -/
def pushwOp (o : PushwArgs) (s : State) (h : Nat) : Eff :=
  s.access h (.plain o.g [eight (opS 2 [.s] none o.a), opD [.s, .z] o.d]) (fun w sel =>
    s.ownFeed w o.q.toNat sel (fun _ =>
      s.releasing h sel (some .span) (fun s =>
        let (s, st) := s.feedAppend o.q.toNat (w.eightBytes o.a.reg)
        s.answer h o.d st)))

def execPushw (o : PushwArgs) (s : State) : Out := runPoint s 8 (pushwOp o)

/-! ## Lines (R413, R415) -/

/-- The address an S register holds. -/
def Weft.lineAddr (w : Weft) (a : Src) : Nat := wrapNat 64 (w.int 64 false a 0)

/-- A line of 64 bytes: alignment, translation, and no other context's binding. -/
def State.ownLine (s : State) (w : Weft) (va : Nat) (k : XKind) (sel : Mask) (next : State → Nat → Eff) : Eff :=
  if va % 64 ≠ 0 then .trap s (w.fault cProtection (info := 4) (addr := va) (mask := sel))
  else match s.place1 w va k sel with
    | (s, .inr none) => .hold s .mig
    | (s, .inr (some t)) => .trap s t
    | (s, .inl pa) =>
      match s.mailboxAt pa with
      | some (asid, _) =>
        if asid = s.asidOf w then next s pa else .trap s (w.fault cProtection (info := 12) (addr := va) (mask := sel))
      | none => next s pa

/-! ## NOTIFY (R419) -/

/-- NOTIFY: a release at SPAN scope, then one write of 64 bytes at the line's home. -/
def notifyOp (o : NotifyArgs) (s : State) (h : Nat) : Eff :=
  s.access h (.plain o.g [opS 1 [.s] tInt o.l, eight (opS 2 [.s] none o.a)]) (fun w sel =>
    s.ownLine w (w.lineAddr o.l) .write sel (fun s pa =>
      s.releasing h sel (some .span) (fun s =>
        .done ((s.homeWrite pa (w.eightBytes o.a.reg)).dropLine (s.coreOf w) (pa / 64)))))

def execNotify (o : NotifyArgs) (s : State) : Out := runWeft o.g s 8 (notifyOp o)

/-! ## MBIND (R259, R420) -/

/-- What a weft's read of memory by the hub's rules comes to. -/
inductive WRead where
  | ok (s : State) (l : List Byte)
  | eff (e : Eff)

/-- Read bytes of the weft's address space as a load would: its faults, and a precise abort (R420). The fuel bounds the
pages. -/
def State.weftRead (s : State) (h : Nat) (w : Weft) (sel : Mask) : Nat → Nat → Nat → List Byte → WRead
  | 0, _, _, acc => .ok s acc
  | fuel + 1, va, n, acc =>
    if n = 0 then .ok s acc
    else
      let k := min n (granule - va % granule)
      match s.place1 w va .read sel with
      | (s, .inr none) => .eff (.hold s .mig)
      | (s, .inr (some t)) => .eff (.trap s t)
      | (s, .inl pa) =>
        if s.boltBuffered h s.order [(pa, k)] then .eff (.hold s .drain)
        else match s.homeRead pa k 2 (s.asidOf w) with
          | (s, none) => .eff (.trap s (w.fault cAbort (addr := va) (mask := sel)))
          | (s, some l) => s.weftRead h w sel fuel (va + k) (n - k) (acc ++ l)

/-- The core's reserved record is in use: a line is bound to it, or a handler still runs there (R259). -/
def State.reservedUsed (s : State) (n : Nat) : Bool :=
  (s.core n).handler.isSome || s.wefts.any (fun p => p.2.handler && p.2.status ≠ .ended && s.coreOf p.2 = n)

/-- Bind a line to a kernel (R420): the status. -/
def State.bindLine (s : State) (h : Nat) (w : Weft) (line pa : Nat) (k : Kernel) (good : Bool) : State × Nat :=
  let n := s.coreOf w
  if !good || !k.mbox || k.wefts ≠ 1 || k.bolts ≠ 1 then (s, 3)
  else if regFile < s.regsUsed n + k.regBytes || scratchSize < s.scratchUsed n + k.scratch then (s, 4)
  else
    let asid := s.asidOf w
    let m : MBox := { line := line, pa := pa, descr := k.addr, core := n, bolt := none, pending := false,
                      span := (s.courseOf (s.weft h)).span, kern := k }
    let x := s.ctx asid
    ((s.setCtx asid { x with mboxes := x.mboxes ++ [m] }).setCore n { s.core n with handler := some line }, 0)

/-- Unbind a line of the context (R420): the status. A running handler finishes. -/
def State.unbindLine (s : State) (asid line : Nat) : State × Nat :=
  let x := s.ctx asid
  match x.mboxes.find? (fun m => m.line = line) with
  | none => (s, 5)
  | some m =>
    let s := s.setCtx asid { x with mboxes := x.mboxes.filter (fun (y : MBox) => y.line ≠ line) }
    (s.setCore m.core { s.core m.core with handler := none }, 0)

/-- The kernel of a descriptor read by a weft. -/
def State.readKernel (s : State) (h : Nat) (w : Weft) (sel : Mask) (va : Nat) (next : State → Kernel → Bool → Eff) : Eff :=
  match s.weftRead h w sel 3 va 64 [] with
  | .eff e => e
  | .ok s l =>
    let (tab, n) := recTab l
    match s.weftRead h w sel 3 tab (40 * n) [] with
    | .eff e => e
    | .ok s r =>
      let recs := (List.range n).map (fun i => BufRec.ofBytes (r.drop (40 * i)))
      next s { Kernel.ofBytes va l with recs := recs } (descrOk l && recs.all BufRec.ok)

/-- MBIND. -/
def mbindOp (o : MbindArgs) (s : State) (h : Nat) : Eff :=
  s.access h (.plain o.g [opS 1 [.s] tInt o.l, opS 2 [.s, .z] tInt o.k, opD [.s, .z] o.d]) (fun w sel =>
    let line := w.lineAddr o.l
    let asid := s.asidOf w
    if o.k.reg = .zero then
      let (s, st) := s.unbindLine asid line
      s.answer h o.d st
    else s.ownLine w line .read sel (fun s pa =>
      if s.reservedUsed (s.coreOf w) then s.answer h o.d 1
      else if (s.mailboxAt pa).isSome then s.answer h o.d 2
      else
        let va := w.lineAddr o.k
        if va % 64 ≠ 0 then .trap s (w.fault cProtection (info := 4) (addr := va) (mask := sel))
        else s.readKernel h w sel va (fun s k good =>
          let (s, st) := s.bindLine h w line pa k good
          s.answer h o.d st)))

def execMbind (o : MbindArgs) (s : State) : Out := runWeft o.g s 8 (mbindOp o)

end Sys2Proof.Machine
end

