-- ==== Sys2Proof/Machine/Remote.lean ====
section
/-! DEFINITION. The fabric instructions (R470 to R476, R480, R482, R487): the checks at issue, the requests they send and
what of a remote load has come back. -/

namespace Sys2Proof.Machine

/-! ## Checks at issue (R471, R487) -/

/-- A gateway entry's kind: 1 Ultra Ethernet, 2 UALink. -/
def RtEnt.gwKind (e : RtEnt) : Nat := e.gwdest.toNat / 2 ^ 30

/-- A route-table entry may be used by a record of a context; a gateway entry's route fields are ignored (R487). -/
def RtEnt.usable (e : RtEnt) (asid : Nat) (r : Rec) : Bool :=
  e.valid && e.asid = asid &&
    (e.gw || (e.rcoord = r.rcoord && e.rcoord ≠ 0 && routeTc e.fwd ≠ 1 && routeTc e.ret = 1))

/-- The first four checks of R471, then `next` with the record and its route-table entry. -/
def State.remoteCheck (s : State) (w : Weft) (br : BitVec 8) (sel : Mask) (next : State → Rec → RtEnt → Eff) : Eff :=
  let b := s.recordOf w br
  let r := b.fields
  if !b.ok then .trap s (w.fault cTag (info := 1) (mask := sel))
  else if !r.rv then .trap s (w.fault cProtection (info := 13) (mask := sel))
  else
    let (s, e) := s.route r.ridx
    if !e.usable (s.asidOf w) r then .trap s (w.fault cProtection (info := 14) (mask := sel))
    else if e.broken then .trap s (w.fault cPeer (info := 6) (mask := sel))
    else next s r e

/-- The bounds of R190 alone, element after element: the places by the destination's virtual addresses. -/
def remotePlaces (w : Weft) (r : Rec) (scaled : Bool) : List Elem → List ELoc → List ELoc ⊕ Trap
  | [], acc => .inl acc
  | x :: rest, acc =>
    let p := r.spot x.i
    if r.inside x.i then
      remotePlaces w r scaled rest
        (acc ++ [⟨x.thr, x.j, some (p.at_.toNat, p.bit), if scaled then some (r.scaleAt x.i) else none, []⟩])
    else if r.bounds = 1 then remotePlaces w r scaled rest (acc ++ [⟨x.thr, x.j, none, none, []⟩])
    else .inr (w.fault cProtection (info := 1) (addr := addr57 p.at_) (mask := x.who))

/-! ## Requests (R468, R480) -/

/-- A contiguous run of bytes: first address and length. -/
structure Run where
  at_ : Nat
  len : Nat
  deriving DecidableEq, Repr

/-- A range goes on from a run, which stays within 4,096 bytes; a half-byte element may share the run's last byte. -/
def Run.takes (x : Run) (va n : Nat) (half : Bool) : Bool :=
  x.len + n ≤ 4096 && (va = x.at_ + x.len || (half && va + 1 = x.at_ + x.len))

/-- Ranges in order formed into runs (R472): the runs, and for each range the run that holds it. -/
def formRuns (half : Bool) (l : List (Nat × Nat)) : List Run × List Nat :=
  l.foldl (fun (acc : List Run × List Nat) p =>
    match acc.1.getLast? with
    | some x =>
      if x.takes p.1 p.2 half then
        (acc.1.dropLast ++ [⟨x.at_, p.1 + p.2 - x.at_⟩], acc.2 ++ [acc.1.length - 1])
      else (acc.1 ++ [⟨p.1, p.2⟩], acc.2 ++ [acc.1.length])
    | none => ([⟨p.1, p.2⟩], [0])) ([], [])

/-- Bytes in order formed into runs (R473). -/
def formWrites (l : List (Nat × List Byte)) : List (Nat × List Byte) :=
  l.foldl (fun (acc : List (Nat × List Byte)) p =>
    match acc.getLast? with
    | some (a, d) => if a + d.length = p.1 && d.length + p.2.length ≤ 4096 then acc.dropLast ++ [(a, d ++ p.2)] else acc ++ [p]
    | none => [p]) []

/-- A request of a weft on a path, as it is sent. -/
structure Sending where
  h : Nat
  fid : Option Nat
  thr : Nat
  typ : BitVec 8
  ordered : Bool
  addr : Nat
  len : Nat
  data : List Byte
  deriving DecidableEq, Repr

/-- The hub sends a request, or gives it to its gateway port, and keeps what its response will need. -/
def State.sendRequest (s : State) (asid ridx : Nat) (e : RtEnt) (x : Sending) : State :=
  let (t, s) := s.newTag
  let t := if x.typ == tATOM && x.fid.isSome then t + 2 ^ 31 else t
  let q : Req := { tag := t, asid := asid, ridx := ridx, weft := x.h, fid := x.fid, thr := x.thr,
                   addr := BitVec.ofNat 57 x.addr, len := x.len, sent := s.ltime, gw := e.gw, typ := x.typ, data := x.data }
  let s : State := { s with fab := { s.fab with reqs := s.fab.reqs ++ [q] } }
  if e.gw then s
  else
    let s := if x.typ == tREAD then s else s.countPath asid ridx
    s.emit (s.mkRequest e ridx x.typ x.ordered x.addr x.len t x.data)

/-- Send requests in order. -/
def State.sendAll (s : State) (asid ridx : Nat) (e : RtEnt) (l : List Sending) : State :=
  l.foldl (fun (s : State) x => s.sendRequest asid ridx e x) s

/-- A path to be counted on must be one the egress tracks already, or a new one for which there is room; otherwise the
least recently used path is marked and the weft waits (R480). -/
def State.pathReady (s : State) (asid : Nat) (r : Rec) (e : RtEnt) (next : State → Eff) : Eff :=
  if e.gw || s.pathRoom asid r.ridx then next s
  else if s.fab.egress.any (fun x => x.count = 0 && !x.markers.isEmpty) then .hold s .remote
  else .hold s.evictPath .remote

/-! ## XLD (R472) -/

/-- The key of a byte of run `k` among the bytes that have returned. -/
def runKey (k va : Nat) : Nat := k * 2 ^ 58 + va

/-- Bytes an element's own code occupies. -/
def codeBytes (enc : Nat) : Nat := max 1 (encBits enc / 8)

/-- Every byte of an element has returned. -/
def xldHere (enc smode : Nat) (got : Store Byte) (x : ELoc) : Bool :=
  let all (a n : Nat) : Bool := (List.range n).all (fun i => (Store.find got (a + i)).isSome)
  (match x.at_ with | some p => all p.1 (codeBytes enc) | none => true) &&
    (match x.scale with | some a => all a (scaleBytes smode) | none => true)

/-- Some byte of an element came back as an abort. -/
def xldBad (enc smode : Nat) (bad : List Nat) (x : ELoc) : Bool :=
  let any (a n : Nat) : Bool := bad.any (fun b => a ≤ b && b < a + n)
  (match x.at_ with | some p => any p.1 (codeBytes enc) | none => false) ||
    (match x.scale with | some a => any a (scaleBytes smode) | none => false)

/-- One element widened at the requester: its code in the register's format and its flags. -/
def xldElem (enc nan fmt smode : Nat) (got : Store Byte) (x : ELoc) : Nat × Flags :=
  match x.at_ with
  | none => (0, 0)
  | some (a, bit) =>
    let code := Store.readNat got a (codeBytes enc) / 2 ^ bit % 2 ^ encBits enc
    loadElem enc nan fmt code (match x.scale with
      | some q => scaleVal smode (Store.bytes got q (scaleBytes smode))
      | none => .fin false 1 0)

/-- One thread's register. -/
def xldCell (enc nan fmt smode : Nat) (got : Store Byte) (l : List ELoc) : Cell × Flags :=
  let es := l.map (xldElem enc nan fmt smode got)
  let sc := match l.head? with
    | some { scale := some a, .. } => if fmt = 9 then Store.readNat got a 1 else 0
    | _ => 0
  let tag : BitVec 6 := BitVec.ofNat 6 (fmt + (if fmt = 7 || fmt = 8 then 16 * nan else 0))
  (mkCell (packElems fmt (es.map (·.1)) + sc * 2 ^ 56) tag, es.foldl (fun a x => a ||| x.2) 0)

/-- Land the threads of an XLD all of whose bytes have returned: a value, or the abort that answered. -/
def State.landXld (s : State) (h fid : Nat) : State :=
  match (s.weft h).flight fid with
  | some f =>
    (match f.kind with
     | .xld d fmt enc nan smode locs acq got bad =>
       (threads f.mask).foldl (fun (s : State) t =>
         let l := locs.filter (fun x => x.thr = t)
         if l.all (xldHere enc smode got) then
           let s := if acq then s.acquireL1 (s.coreOf (s.weft h)) else s
           s.landLane h fid d t (if l.any (xldBad enc smode bad) then none else some (xldCell enc nan fmt smode got l))
         else s) s
     | _ => s)
  | none => s

/-- The ranges an XLD reads: data of every element in order, then the scales. -/
def xldRanges (enc smode : Nat) (locs : List ELoc) : List (Nat × Nat) :=
  locs.filterMap (fun x => x.at_.map (fun p => (p.1, codeBytes enc))) ++
    locs.filterMap (fun x => x.scale.map (fun a => (a, scaleBytes smode)))

/-- Places renamed to the keys under which their bytes come back, from the runs that hold them. -/
def xldKeys (locs : List ELoc) (ks : List Nat) : List ELoc :=
  let n := (locs.filter (fun x => x.at_.isSome)).length
  (locs.foldl (fun (acc : List ELoc × Nat × Nat) x =>
    let i := acc.2.1
    let j := acc.2.2
    let y : ELoc := { x with at_ := x.at_.map (fun p => (runKey (ks.getD i 0) p.1, p.2)),
                             scale := x.scale.map (fun a => runKey (ks.getD (n + j) 0) a) }
    (acc.1 ++ [y], if x.at_.isSome then i + 1 else i, if x.scale.isSome then j + 1 else j)) ([], 0, 0)).1

/-- Issue an XLD: its destination is empty, and one READ goes out for each run of its bytes. -/
def State.issueXld (s : State) (h : Nat) (w : Weft) (sel : Mask) (o : XldArgs) (r : Rec) (e : RtEnt) (smode : Nat) (locs : List ELoc) : State :=
  let (runs, ks) := formRuns (encBits r.enc < 8) (xldRanges r.enc smode locs)
  let fid := s.order
  let s := s.issueFlight h o.d sel sel (.xld o.d o.fmt r.enc r.nan smode (xldKeys locs ks) o.acq [] [])
  let s := s.sendAll (s.asidOf w) r.ridx e (runs.zipIdx.map (fun q =>
    (⟨h, some fid, q.2, tREAD, false, q.1.at_, q.1.len, []⟩ : Sending)))
  s.landXld h fid

/-- XLD. -/
def xldOp (o : XldArgs) (s : State) (h : Nat) : Eff :=
  s.access h (recForm o.g o.br [opS 2 cOff tInt o.off, opD [.v] o.d]) (fun w sel =>
    s.remoteCheck w o.br sel (fun s r e =>
      match loadPair r.enc o.fmt with
      | none => .trap s (w.fault cTag (info := 2) (mask := sel))
      | some p =>
        let l := lanesWho false sel
        let at_ := w.offset o.off o.add.toInt
        let cut := r.crossing (fun _ => o.fmt) at_ l
        let scaled := r.usesScale p o.fmt
        let smode := if scaled then r.smode else 0
        if cut ≠ 0 then .trap s (w.fault cTag (info := 3) (mask := cut))
        else match remotePlaces w r scaled (r.elems (fun _ => o.fmt) at_ l) [] with
          | .inr t => .trap s t
          | .inl locs =>
            .done (s.issueXld h w sel o r e smode locs)))

def execXld (o : XldArgs) (s : State) : Out := runWeft o.g s 16 (xldOp o)

/-! ## XST (R473) -/

/-- The bytes of a remote store by virtual address, and its flags. -/
def remoteBytes (r : Rec) (mode : Rnd) (sat : Bool) (sel : Mask) (ps : List PElem) : List (Nat × List Byte) × Flags :=
  if r.wholeBlocks then
    let (vs, fl) := wholeStore r mode sel ps
    (vs.map (fun x => (x.1, x.2.1)), fl)
  else plainStore r mode sat ps

/-- Issue an XST: its flags are raised, and one WRITE goes out for each run of its bytes. -/
def State.issueXst (s : State) (h : Nat) (w : Weft) (r : Rec) (e : RtEnt) (rel : Bool) (ws : List (Nat × List Byte)) (fl : Flags) : State :=
  let s := s.setWeft h ((s.weft h).raise fl)
  s.sendAll (s.asidOf w) r.ridx e ((formWrites ws).map (fun q => (⟨h, none, 0, tWRITE, rel, q.1, q.2.length, q.2⟩ : Sending)))

/-- XST. -/
def xstOp (o : XstArgs) (s : State) (h : Nat) : Eff :=
  s.access h (recForm o.g o.br [opS 2 cOff tInt o.off, opS 3 [.v] none o.data]) (fun w sel =>
    s.remoteCheck w o.br sel (fun s r e =>
      let l := lanesWho false sel
      let items := l.map (fun p => ({ thr := p.1, who := p.2, c := w.cell o.data.reg p.1 } : SItem))
      match storeFault w r items with
      | some t => .trap s t
      | none =>
        let at_ := w.offset o.off o.add.toInt
        let fmt (t : Nat) : Nat := fmtOf (w.cell o.data.reg t).tag
        let cut := r.crossing fmt at_ l
        if cut ≠ 0 then .trap s (w.fault cTag (info := 3) (mask := cut))
        else match remotePlaces w r (r.smode ≠ 0) (r.elems fmt at_ l) [] with
          | .inr t => .trap s t
          | .inl locs =>
            let x := remoteBytes r (w.mode o.r) o.sat sel (presentElems r at_ items locs)
            s.releasing h sel (if o.rel then some .domain else none) (fun s =>
              s.pathReady (s.asidOf w) r e (fun s => .done (s.issueXst h w r e o.rel x.1 x.2)))))

def execXst (o : XstArgs) (s : State) : Out := runPoint s 16 (xstOp o)

/-! ## XATOM (R474) -/

/-- The 24 payload bytes of an ATOM packet: operation, width, six zero bytes, the operand and the value of C + 1. -/
def atomPayload (op : AtomOp) (n a c1 : Nat) : List Byte :=
  natLe 1 op.code.toNat ++ natLe 1 n ++ natLe 6 0 ++ natLe 8 a ++ natLe 8 c1

/-- A gateway port's standard lacks an operation (R487 to R489): Ultra Ethernet carries writes, reads and sends alone; which
operations UALink has is not given. -/
def RtEnt.lacksAtom (e : RtEnt) (op : AtomOp) (n : Nat) : Bool :=
  e.gw && (if e.gwKind = 2 then !Config.ualinkAtom op n else true)

/-- Issue an XATOM: one ATOM goes out for each element within bounds; a destination other than ZERO is empty until the old
values return, and holds 0 at once in threads whose element is clipped. -/
def State.issueXatom (s : State) (h : Nat) (w : Weft) (sel : Mask) (o : XatomArgs) (r : Rec) (e : RtEnt) (locs : List ELoc) : State :=
  let n (t : Nat) : Nat := atomBytes (w.atomCell o.c t o.op).tag
  let ret : Bool := match o.d with
    | .zero => false
    | _ => true
  let fid := s.order
  let tag (t : Nat) : BitVec 6 := (w.atomCell o.c t o.op).tag
  let out := (locs.filter (fun x => x.at_.isNone)).map (fun x => x.thr)
  let s := if ret then s.issueFlight h o.d sel (sel &&& ~~~maskOf out)
      (.xatom o.d ((threads sel).map (fun t => (t, tag t))) (Sem.acquires o.sem))
    else s
  let s := if ret then s.mapWeft h (fun v => v.putAll o.d (out.map (fun t => (t, mkCell 0 (tag t)))))
    else s
  let s := s.sendAll (s.asidOf w) r.ridx e (locs.filterMap (fun x => x.at_.map (fun p =>
    (⟨h, if ret then some fid else none, x.thr, tATOM, Sem.releases o.sem, p.1, n x.thr,
      atomPayload o.op (n x.thr) (w.atomCell o.c x.thr o.op).val.toNat
        (w.atomC1 o.c x.thr o.op).val.toNat⟩ : Sending))))
  s.mapWeft h (fun v => v.setFlight fid (fun f => f))

/-- XATOM. -/
def xatomOp (o : XatomArgs) (s : State) (h : Nat) : Eff :=
  s.access h (recForm o.g o.br [opS 2 cOff tInt o.off, atomOpnd o.op o.c, opD cDst o.d]) (fun w sel =>
    s.remoteCheck w o.br sel (fun s r e =>
      let n (t : Nat) : Nat := atomBytes (w.atomCell o.c t o.op).tag
      let bad := maskOf ((threads sel).filter (fun t => !atomEnc r (n t)))
      let lacking := maskOf ((threads sel).filter (fun t => e.lacksAtom o.op (n t)))
      if w.casBad o.c o.op sel ≠ 0 then .trap s (w.fault cTag (field := 3) (mask := w.casBad o.c o.op sel))
      else if bad ≠ 0 then .trap s (w.fault cTag (info := 2) (mask := bad))
      else match remotePlaces w r false (r.elems (fun _ => 0) (w.offset o.off o.add.toInt) (lanesWho false sel)) [] with
        | .inr t => .trap s t
        | .inl locs =>
          if lacking ≠ 0 then .trap s (w.fault cProtection (info := 14) (mask := lacking))
          else s.releasing h sel (if Sem.releases o.sem then some .domain else none) (fun s =>
            s.pathReady (s.asidOf w) r e (fun s => .done (s.issueXatom h w sel o r e locs)))))

def execXatom (o : XatomArgs) (s : State) : Out := runPoint s 16 (xatomOp o)

/-! ## XSIG (R475) -/

/-- Bytes of an XSIG. -/
def execXsig (o : XsigArgs) (s : State) : Out :=
  runPoint s (lenI o.cnt) (fun s h =>
    s.access h (recForm o.g o.br (opS 2 [.s, .z] tInt o.tw :: opSI 3 [.s, .z] tInt o.cnt)) (fun w sel =>
      s.remoteCheck w o.br sel (fun s r e =>
        let tw := wrapNat 64 (w.int 64 false o.tw 0)
        let cnt := (w.intB 64 true o.cnt 0).toNat
        if e.gw then .trap s (w.fault cProtection (info := 14) (mask := sel))
        else if tw / 2 ^ 60 ≠ 0 || tw % 2 ^ 20 % 32 ≠ 0 then .trap s (w.fault cProtection (info := 4) (mask := sel))
        else if 2 ^ 40 ≤ cnt then .trap s (w.fault cProtection (info := 10) (mask := sel))
        else s.pathReady (s.asidOf w) r e (fun s =>
          .done (s.sendRequest (s.asidOf w) r.ridx e ⟨h, none, 0, tSIGNAL, true, tw, 8, natLe 8 cnt⟩)))))

/-! ## XFENCE (R476) -/

/-- The weft is owed a remote response. -/
def Weft.owesRemote (w : Weft) : Bool :=
  w.flights.any (fun f => match f.kind with | .xld .. | .xatom .. => true | _ => false)

/-- XFENCE. -/
def execXfence (o : XfenceArgs) (s : State) : Out :=
  runWeft o.g s 8 (fun s h => s.operate h (.plain o.g []) (fun _ sel =>
    s.releasing h sel (if Sem.releases o.sem then some .domain else none) (fun s =>
      if Sem.releases o.sem && (s.weft h).owesRemote then .hold s .remote
      else if Sem.acquires o.sem then s.fenceAcquire h sel .domain
      else .done s)))

end Sys2Proof.Machine
end

