-- ==== Sys2Proof/Machine/Ending.lean ====
section
/-! DEFINITION. How wefts and spans end: WEFT_END (R108, R159, R225, R284, R413), the stop of a span by HALT or KILL (R173,
R377, R408), withdraw notices (R484) and remote failures that nobody is left to take (R479). -/

namespace Sys2Proof.Machine

/-! ## Remote failures without a taker (R479) -/

/-- A failure goes to the supervisor: kind 5, subkind 5, the ASID and the RIDX (R378). -/
def State.remoteLost (s : State) (asid ridx : Nat) : State := s.event 5 5 (asid + ridx * 2 ^ 32)

/-- Every failure of a context's paths that no release has reported goes to the supervisor. -/
def State.flushFailures (s : State) (asid : Nat) : State :=
  let fs := (s.fab.egress.filter (fun e => e.asid = asid)).flatMap (fun e => e.failed.map (fun _ => e.ridx))
  let s : State := { s with fab := { s.fab with egress := s.fab.egress.map (fun (e : Egress) =>
    if e.asid = asid then { e with failed := [] } else e) } }
  fs.foldl (fun (s : State) r => s.remoteLost asid r) s

/-! ## WEFT_END -/

/-- A read-modify-write of a weft that the memory system has not accepted, or a store still in the write buffer (R159). -/
def State.unaccepted (s : State) (h : Nat) : Bool :=
  let w := s.weft h
  w.flights.any (fun f => match f.kind with
    | .atom .. => f.mask ≠ 0
    | _ => false) || (s.core (s.coreOf w)).wbuf.any (fun e => e.weft = h)

/-- The weft's end closes its open batch, if anything was issued into it (R298, R315). -/
def State.endBatches (s : State) (h : Nat) : State :=
  match (s.weft h).batch (s.weft h).nextBatch with
  | some b => if 0 < b.issued && !b.closed then (s.closeBatch h).2 else s.closeChain h
  | none => s.closeChain h

/-- Failures a weft has not taken when it ends go to the supervisor (R299, R479). -/
def State.endFailures (s : State) (h : Nat) : State :=
  let w := s.weft h
  let s := match w.mfail with
    | some t => s.matrixEvent h t.cause (t.info.toNat / 2 ^ 16) (t.info.toNat % 2 ^ 16)
    | none => s
  let s := match w.pend with
    | some t => if t.cause = cPeer then s.remoteLost (s.asidOf w) w.pendPath else s
    | none => s
  s.mapWeft h (fun w => { w with mfail := none, pend := none })

/-- A handler's weft has ended: its mailbox's next run starts if a write has come since (R413). -/
def State.handlerEnded (s : State) (h : Nat) : State :=
  let w := s.weft h
  let asid := s.asidOf w
  let x := s.ctx asid
  match x.mboxes.find? (fun m => m.bolt = some w.bolt) with
  | none => s
  | some m =>
    let s := s.setCtx asid { x with mboxes := x.mboxes.map (fun (n : MBox) => if n.line = m.line then { n with bolt := none } else n) }
    if m.pending then s.startHandler asid { m with bolt := none } else s

/-- The course of a weft has ended with it: its time is kept for the estimate of R444. -/
def State.courseEnds (s : State) (c : Nat) : State :=
  let x := s.course c
  if !x.ended && s.wefts.all (fun p => (s.boltOf p.2).course ≠ c || p.2.status = .ended) then
    let s := s.setCourse c { x with ended := true }
    let sp := s.span x.span
    (if x.handler then s else s.setSpan x.span { sp with ctime := sp.ctime + (s.ltime - x.start) }).freeCourse c
  else s

/-- A weft is over: it issues nothing more, its bolt counts it out of its copies, its slots go with its last matrix
operation. -/
def State.weftOver (s : State) (h : Nat) : State :=
  let w := s.weft h
  let n := s.coreOf w
  let s := s.setWeft h { w with status := .ended, slot := none, wait := none, repeatPhase := none, flights := [], relTags := none }
  let s := s.endBatches h
  let s := (s.endFailures h).releaseEnded h
  let s := s.copiesLose w.bolt
  let s := s.courseEnds (s.boltOf w).course
  (if w.handler then s.handlerEnded h else s).admitWefts n

/-- WEFT_END: every thread has exited or died and what the weft issued has been accepted. A weft whose trap record is
still to be published stays. -/
def execWeftEnd (w : Nat) (s : State) : Out :=
  let x := s.weft w
  let waiting : Bool := match x.trec with
    | some r => !r.published
    | none => false
  if (Store.find s.wefts w).isSome && x.alive = 0 && x.status ≠ .ended && !waiting && !s.unaccepted w then
    .next (s.weftOver w).wake
  else .next s

/-! ## Withdraw notices (R484) -/

/-- WITHDRAW along every VALID entry of a context, BROKEN and gateway ones left out; its domain-table entry goes. -/
def State.withdraw (s : State) (asid : Nat) : State :=
  let s := s.routesHeld.foldl (fun (s : State) r =>
    let (t, e) := s.route r
    if e.valid && e.asid = asid && !e.broken && !e.gw then
      let (n, t) := t.newTag
      t.emit (t.mkRequest e r tWITHDRAW false 0 0 n [])
    else s) s
  { s with fab := { s.fab with domains := s.fab.domains.filter (fun p => p.2.asid ≠ asid) } }

/-! ## Stopping a span (R173, R377, R408) -/

/-- A weft of a stopped span: everything it has in the array is dropped, the groups it opened close (R299, R315). -/
def State.dropWeft (s : State) (h : Nat) : State :=
  let core := s.coreOf (s.weft h)
  let s := (s.weftItems h).foldl (fun (s : State) p => s.removeItem core p.1) s
  let s := ((s.weft h).batches.filter (fun b => !b.complete)).foldl (fun (s : State) b => s.sendMarks h b.num) s
  s.mapWeft h (fun w => { w with status := .ended, slot := none, wait := none, repeatPhase := none, flights := [], trec := none,
                                 pend := none, mfail := none, relTags := none, chain := none })

/-- Stop some wefts at the boundaries where they stand: their bolts' copies end with code 7, their batches are dropped. -/
def State.stopWefts (s : State) (hs : List Nat) : State :=
  let bs := (hs.map (fun h => (s.weft h).bolt)).eraseDups
  let s := hs.foldl (fun (s : State) h => s.dropWeft h) s
  let s := bs.foldl (fun (s : State) b => ((s.bolt b).copies.filter (fun p => p.2.live)).foldl (fun (s : State) p => s.failCopy b p.1 7) s) s
  let s := hs.foldl (fun (s : State) h => s.releaseEnded h) s
  let s := bs.foldl (fun (s : State) b => s.courseEnds (s.bolt b).course) s
  bs.foldl (fun (s : State) b => s.admitWefts (s.bolt b).core) s

/-- Stop a span for a reason. Courses not placed are never placed. -/
def State.endSpan (s : State) (sp : Nat) (why : SpanEnd) : State :=
  let x := s.span sp
  if x.completed.isSome || x.ending ≠ .running then s
  else
    let s := s.setSpan sp { x with ending := why, capture := none }
    (s.stopWefts (((s.spanWefts sp).filter (fun p => p.2.status ≠ .ended)).map (·.1))).wake

end Sys2Proof.Machine
end

