-- ==== Sys2Proof/Machine/System.lean ====
section
/-! DEFINITION. The system instructions other than traps (R172 to R174): GETSR, SETSR, GETID, CLOCK, CANON and HALT. -/

namespace Sys2Proof.Machine

/-- Write one value to a V destination in every selected thread, or to a scalar once (R172). -/
def Weft.sysPut (w : Weft) (d : Reg) (sel : Mask) (c : Cell) : Weft :=
  w.putAll d ((if isScalar d then [0] else threads sel).map (fun t => (t, c)))

/-! ## Identity (R96, R414) -/

/-- ID register `i` of a weft. A handler's bolt is a course of one bolt of one weft. -/
def State.idReg (s : State) (w : Weft) (i : Nat) : Nat :=
  let b := s.boltOf w
  let c := s.courseOf w
  let x := s.spanOf w
  match i with
  | 0 => w.id
  | 1 => b.nwefts
  | 2 => b.id
  | 3 => c.nbolts
  | 4 => c.id
  | 5 => if c.handler then 1 else x.courses
  | 6 => x.idSpan
  | _ => x.idSpans

/-! ## System registers (R174) -/

/-- The value of a system register. -/
def State.sysReg (s : State) (w : Weft) (n : Nat) : Dword :=
  match n with
  | 0x000 => w.fpctl
  | 0x001 => w.fpstat
  | 0x002 => w.dlm.zeroExtend 64
  | 0x003 => w.exm.zeroExtend 64
  | 0x004 => w.active.zeroExtend 64
  | 0x005 => BitVec.ofNat 64 (w.stack.length % 32)
  | 0x020 => w.trapcause
  | 0x021 => w.trappc
  | 0x022 => w.trapaddr
  | 0x023 => w.trapmask
  | 0x024 => w.tstat
  | 0x025 => w.thvec
  | 0x026 => delegMask (s.ctxOf w).deleg
  | n => BitVec.ofNat 64 (s.idReg w (n - 0x010))

/-- The number of an ID register. -/
def isIdReg (n : Nat) : Bool := 0x010 ≤ n && n ≤ 0x017

/-- A load, or a decode that raises NV, has not reported its flags (R67, R193). -/
def Flight.owesFlags (f : Flight) : Bool :=
  f.mask ≠ 0 && (match f.kind with
    | .load .. | .xld .. => true
    | .ready _ _ _ _ _ nv _ => nv
    | _ => false)

/-- Some flight of the weft has not reported its flags. -/
def Weft.owesFlags (w : Weft) : Bool := w.flights.any Flight.owesFlags

/-- GETSR. -/
def getsrOp (o : GetsrArgs) (s : State) (h : Nat) : Eff :=
  s.operate h (.plain o.g [opD [.v, .s] o.d]) (fun w sel =>
    let n := o.num.toNat
    if n = 1 && w.owesFlags then .hold s .drain
    else .done (s.setWeft h (w.sysPut o.d sel (mkCell (s.sysReg w n).toNat (if isIdReg n then tagI32 else tagI64)))))

def execGetsr (o : GetsrArgs) (s : State) : Out := runWeft o.g s 12 (getsrOp o)

/-- A SETSR may write a value: the register is writable and no reserved field would receive a 1 (R9, R65). -/
def setsrOk (n : Nat) (x : Dword) : Bool :=
  match n with
  | 0x000 => x.toNat < 256 && x.toNat / 8 % 8 = 0 && 1 ≤ x.toNat % 8 && x.toNat % 8 ≤ 5
  | 0x001 => x.toNat < 64
  | 0x021 | 0x025 => x.toNat < 2 ^ 57 && x.toNat % 4 = 0
  | _ => false

/-- Write a system register. -/
def Weft.setSys (w : Weft) (n : Nat) (x : Dword) : Weft :=
  match n with
  | 0x000 => { w with fpctl := x }
  | 0x001 => { w with fpstat := x }
  | 0x021 => { w with trappc := x }
  | _ => { w with thvec := x }

/-- SETSR. -/
def setsrOp (o : SetsrArgs) (s : State) (h : Nat) : Eff :=
  s.operate h (.plain o.g [opS 1 [.s, .z] (some [0, 1, 2]) o.a]) (fun w sel =>
    let c := w.cell o.a.reg 0
    let x : Dword := if fmtOf c.tag = 2 then BitVec.ofNat 64 (c.val.toNat % 2 ^ 32) else c.val
    if setsrOk o.num.toNat x then .done (s.setWeft h (w.setSys o.num.toNat x))
    else .trap s (w.fault cIllegal (mask := sel)))

def execSetsr (o : SetsrArgs) (s : State) : Out := runWeft o.g s 12 (setsrOp o)

/-- GETID. -/
def execGetid (o : GetidArgs) (s : State) : Out :=
  runWeft o.g s 8 (fun s h => s.operate h (.plain o.g [opD [.v, .s] o.d]) (fun w sel =>
    .done (s.setWeft h (w.sysPut o.d sel (mkCell (s.idReg w o.id.toNat) tagI32)))))

/-- A core's count of cycles goes on to its next read, by a number the manual leaves open. -/
def State.tick (s : State) (n : Nat) : State :=
  let c := s.core n
  { s.setCore n { c with cc := c.cc + Config.freeElapsed s.free } with free := s.free + 1 }

/-- CLOCK: the count of the weft's core, modulo 2^64 (R172). -/
def execClock (o : ClockArgs) (s : State) : Out :=
  runWeft o.g s 8 (fun s h => s.operate h (.plain o.g [opD [.v, .s] o.d]) (fun w sel =>
    let t := s.tick (s.coreOf w)
    .done (t.setWeft h (w.sysPut o.d sel (mkCell (t.core (t.coreOf w)).cc tagI64)))))

/-! ## CANON and HALT (R173) -/

/-- Every register is full in every live thread and no decode is in flight. -/
def Weft.settled (w : Weft) : Bool :=
  w.vr.all (fun p => p.2.full || !w.alive.getLsbD (p.1 % 32)) && w.sr.all (fun p => p.2.full) && !w.flights.any Flight.isDecode

/-- CANON. -/
def execCanon (o : PlainArgs) (s : State) : Out :=
  runWeft o.g s 8 (fun s h => s.operate h (.plain o.g []) (fun w _ => if w.settled then .done s else .hold s .canon))

/-- A weft has global accesses that no home has performed yet. -/
def State.owesAccess (s : State) (w : Weft) : Bool :=
  s.undrained w.bolt || w.flights.any (fun f => match f.kind with | .load .. | .atom .. => true | _ => false)

/-- HALT: once the weft's earlier accesses have been performed the span stops with the code A[31:0], and its peers are told
(R484). -/
def execHalt (o : HaltArgs) (s : State) : Out :=
  runWeft o.g s 8 (fun s h => s.operate h (.plain o.g [opS 1 [.s, .z] none o.a]) (fun w _ =>
    if s.owesAccess w then .hold s .release
    else
    let sp := (s.courseOf w).span
    let code : Word32 := (w.cell o.a.reg 0).val.truncate 32
    .moved ((s.endSpan sp (.halted code)).withdraw (s.asidOf w))))

end Sys2Proof.Machine
end

