-- ==== Sys2Proof/Machine/Time.lean ====
section
/-! DEFINITION. LTIME (R372) and the measure of the deadlock watchdog (R384 to R386): progress, exempt waits and countable
time. -/

namespace Sys2Proof.Machine

/-! ## Progress (R384) -/

/-- The instructions that make progress when they issue for some thread, with their predicates; reads through a record
count when it has EXT. -/
def State.progressOf (s : State) (w : Weft) (i : Instr) : Option Guard :=
  let ext (g : Guard) (br : BitVec 8) : Option Guard := if (s.recordOf w br).fields.ext then some g else none
  match i with
  | .st o | .stu o => some o.g
  | .sts o => some o.g
  | .stv o => some o.g
  | .atom o => some o.g
  | .red o => some o.g
  | .ld o | .ldu o => ext o.g o.br
  | .waitv o => ext o.g o.br
  | .bufdecl o => some o.g
  | .bufrel o => some o.g
  | .bufstateFill o | .bufstateDrain o | .bufstateFree o => some o.g
  | .barinit o => some o.g
  | .barinval o => some o.g
  | .bararrive o => some o.g
  | .barexpect o => some o.g
  | .cpyslice o => some o.g
  | .cpyregLd o => some o.g
  | .cpyregSt o => some o.g
  | .layout o => some o.g
  | .mclaim o => some o.g
  | .mrel o => some o.g
  | .mload o => some o.g
  | .mloop o => some o.g
  | .mma o => some o.g
  | .mscale o => some o.g
  | .msparse o => some o.g
  | .mfence o => some o.g
  | .mwait o => some o.g
  | .mcommit o => some o.g
  | .pushw o => some o.g
  | .notify o => some o.g
  | .xld o => some o.g
  | .xst o => some o.g
  | .xatom o => some o.g
  | .xsig o => some o.g
  | _ => none

/-- What a weft's turn did counts as progress: it issued such an instruction for some thread, ended a thread, or trapped. -/
def State.progresses (s t : State) (h : Nat) (i : Option Instr) : Bool :=
  let w := s.weft h
  let v := t.weft h
  let issued : Bool := match i.bind (fun i => s.progressOf w i) with
    | some g => w.selected g ≠ 0 && v.wait.isNone
    | none => false
  issued || w.exm ≠ v.exm || (v.trec.isSome && w.trec.isNone) || (v.tstat.getLsbD 0 && !w.tstat.getLsbD 0)

/-- The latest progress of a context is now. -/
def State.progressed (s : State) (asid : Nat) : State :=
  match Store.find s.ctxs asid with
  | some x => s.setCtx asid { x with progress := s.ltime }
  | none => s

/-! ## Waits (R385) -/

/-- A producer whose wait is exempt: a WAITV or a load through a record with EXT, a POPW, a fabric instruction. -/
def Flight.exempt (f : Flight) : Bool :=
  match f.kind with
  | .load _ _ _ _ _ _ _ _ ext => ext
  | .waitv _ _ _ _ _ ext _ _ => ext
  | .popw .. | .xld .. | .xatom .. => true
  | _ => false

/-- A flight fills a register. -/
def Flight.fills (f : Flight) (r : Reg) : Bool :=
  match f.kind, r with
  | .popw base _ _, .s n => base ≤ n.toNat && n.toNat < base + 8
  | .ready d _ (some (c, _)) _ _ _ _, r => d = r || c = r
  | _, r => f.dest = r

/-- A copy of a bolt that counts into an object waits on the supervisor. -/
def State.barHeld (s : State) (owner off : Nat) : Bool :=
  (s.bolt owner).copies.any (fun p => p.2.held.isSome && p.2.barv && p.2.baroff = off)

/-- A barrier whose counted bytes include remote landings or signals in the current phase. -/
def State.barRemote (s : State) (owner off : Nat) : Bool :=
  match (s.bolt owner).bars.find? (fun e => e.owner = owner && e.off = off) with
  | some e => e.remote.contains ((s.bolt owner).barPhase off)
  | none => false

/-- A weft stands in an exempt wait. -/
def State.exempt (s : State) (w : Weft) : Bool :=
  match w.status with
  | .parked => true
  | .swapped => (s.boltOf w).swapped && !(s.boltOf w).out
  | .active | .pending =>
    (match w.wait with
     | some (.register l) => l.any (fun p => w.flights.any (fun f => f.exempt && f.fills p.1) ||
         (match p.1 with
          | .v n => (s.boltOf w).copies.any (fun c => c.2.held.isSome && c.2.empties.any (fun k => k / 32 = n.toNat))
          | _ => false))
     | some (.barrier o f _) | some (.buffer o f _) => s.barRemote o f || s.barHeld o f
     | some .mwait => (s.core (s.coreOf w)).seqr.any (fun p => p.2.held.isSome && (s.weft p.2.weft).bolt = w.bolt)
     | some .drain => w.flights.any (fun f => f.exempt && f.owesFlags)
     | some .canon => w.flights.any (fun f => f.exempt)
     | some .release => w.flights.any (fun f => f.exempt && (f.reads || f.acquires))
     | some .mig | some .ringFull | some .remote | some .stopped => true
     | _ => false)
  | _ => false

/-- The measure of a context starts again while one of its wefts stands in an exempt wait (R386). -/
def State.noteExempt (s : State) (asid : Nat) : State :=
  if (s.ctxWefts asid).any (fun p => s.exempt p.2) then s.progressed asid else s

/-- A weft whose time counts: resident, neither SWAPPED nor PARKED, its core in no switch and no rebuild (R386). -/
def State.counts (s : State) (w : Weft) : Bool :=
  (w.status = .active || w.status = .ready || w.status = .pending) && !(s.boltOf w).out && !(s.core (s.coreOf w)).stopping

/-! ## LTIME (R372, R386) -/

/-- LTIME advances to a time; it never goes back. The measure of each context restarts while a weft of it stands in an
exempt wait, and pauses while no time of it counts. -/
def State.advanceTime (s : State) (now : Nat) : State :=
  if now ≤ s.ltime then s
  else
    let d := now - s.ltime
    let f (asid : Nat) (x : Ctx) : Ctx :=
      let ws := (s.ctxWefts asid).map (·.2)
      if ws.any (fun w => s.exempt w) then { x with progress := now }
      else if ws.any (fun w => s.counts w) then x
      else { x with progress := x.progress + d }
    { s with ltime := now, ctxs := s.ctxs.map (fun p => (p.1, f p.1 p.2)) }

/-- Take a fault that is not one of the instruction at the PC: a weft that the full trap ring keeps where it stands has it
still to take (R375). -/
def State.takePend (s : State) (h : Nat) (t : Trap) : State :=
  let w := s.weft h
  let u := takeTrap (s.setWeft h { w with pend := none }) h { t with pc := w.pc }
  if (u.weft h).wait = some .ringFull then u.setWeft h { u.weft h with pend := some t } else u

/-- INFO of the watchdog's trap: the state of a weft (R386). -/
def State.watchState (s : State) (h : Nat) : Nat :=
  let w := s.weft h
  match w.wait with
  | some (.register _) => 1
  | some (.barrier ..) => 2
  | some (.buffer ..) => 3
  | some .mwait =>
    if s.accs.any (fun p => p.2.held.any (fun c => c.weft = h)) || s.contribs.any (fun c => c.weft = h && c.stalled) then 5
    else if (s.weftItems h).any (fun p => match p.2.kind with
      | .mload k .. => (s.slotAt (s.coreOf w) k).pins ≠ 0
      | _ => false) then 6 else 4
  | some .copyRecord => 7
  | _ => 0

end Sys2Proof.Machine
end

