-- ==== Sys2Proof/Machine/Heddle.lean ====
section
/-! DEFINITION. Steps of the heddle and of trap delivery: publishing trap records (R182, R375), the pending set and
rotations (R253 to R257), lease windows (R258), switches (R260, R261), a bolt's return (R262) and a rebuild (R263). -/

namespace Sys2Proof.Machine

/-! ## Trap records (R182, R375) -/

/-- The 64 bytes of a trap record. -/
def State.trapBytes (s : State) (w : Weft) (r : TrapRec) (seq : Nat) : List Byte :=
  natLe 8 (causeWord r.t).toNat ++ natLe 8 r.t.pc.toNat ++ natLe 8 r.t.addr.toNat ++ natLe 4 r.t.mask.toNat ++
    natLe 1 w.id ++ natLe 1 0 ++ natLe 2 (s.boltOf w).id ++ natLe 4 (s.courseOf w).id ++ natLe 2 (s.spanOf w).idSpan ++
    natLe 2 r.tstat.toNat ++ natLe 8 seq ++ natLe 4 r.actm.toNat ++ natLe 4 w.dlm.toNat ++ natLe 8 0

/-- The weft's earlier accesses are performed at SPAN scope. -/
def State.performed (s : State) (h : Nat) : Bool :=
  let w := s.weft h
  !(s.core (s.coreOf w)).wbuf.any (fun e => e.weft = h) && !w.flights.any (fun f => f.mask ≠ 0 && (match f.kind with
    | .load .. | .atom .. => true
    | _ => false))

/-- The record has its number. -/
def State.markPublished (s : State) (h : Nat) (r : TrapRec) (seq : Nat) : State :=
  s.mapWeft h (fun w => { w with trec := some { r with published := true, seq := seq }, relTags := none })

/-- Put a record into the supervisor's ring and interrupt the active supervisor hart (R375). Records past its slots are the hub's,
waiting for one. -/
def State.ringPut (s : State) (l : List Byte) : State := { s.irqTrap with trapRing := s.trapRing ++ [l] }

/-- The record goes to the supervisor's ring as the next event; a page that follows is pulled (R440). -/
def State.publishRing (s : State) (h : Nat) (r : TrapRec) : State :=
  let seq := s.nextSeq
  let asid := s.asidOf (s.weft h)
  let s := if r.t.info = 6 && (r.t.cause = cTranslation || r.t.cause = cFetch) then s.pullFor asid r.t.addr.toNat else s
  ((s.ringPut (s.trapBytes (s.weft h) r seq)).event 1 0 asid).markPublished h r seq

/-- Where a mailbox record goes: RIDX, and the line's address in the peer's space (R373, R375). -/
def Ctx.peerPlace (c : Ctx) : Nat × Nat := (c.peer.toNat / 2 ^ 24 % 2 ^ 16, c.peerbase.toNat + 64 * c.peermb.toNat)

/-- The record goes over PEER's route as one ORDERED write; a route that cannot be used leaves it to the supervisor. -/
def State.publishMailbox (s : State) (h : Nat) (r : TrapRec) : State :=
  let w := s.weft h
  let asid := s.asidOf w
  let (ridx, va) := (s.ctx asid).peerPlace
  let (s, e) := s.route ridx
  if !e.valid || e.broken || e.gw || e.asid ≠ asid then s.publishRing h r
  else if !s.pathRoom asid ridx then s.evictPath
  else
    let seq := s.nextSeq
    let s := s.event 1 0 asid
    let s := s.sendRequest asid ridx e ⟨h, none, 64, tWRITE, true, va, 64, s.trapBytes w r seq⟩
    s.markPublished h r seq

/-- TRAP_RECORD_PUBLISH. Before a mailbox delivery the paths of the context are marked and their markers answered. -/
def execTrapRecordPublish (w : Nat) (s : State) : Out :=
  let x := s.weft w
  match x.trec with
  | none => .next s
  | some r =>
    if !(x.status = .parked || x.status = .swapped) || r.published || !s.performed w || s.displaced (s.courseOf x) then .next s
    else match r.route with
      | .mailbox =>
        (match x.relTags with
         | none =>
           let (s, tags) := s.markAll (s.asidOf x)
           .next (s.mapWeft w (fun v => { v with relTags := some tags }))
         | some tags =>
           if s.unanswered tags || s.gwBusy (s.asidOf x) then .next s
           else .next (s.publishMailbox w r))
      | _ => if s.trapRing.length < trapRingSlots then .next (s.publishRing w r) else .next s

/-- A weft that waited for a slot of the ring tries again. -/
def State.ringRetry (s : State) (p : Nat × Weft) : State :=
  let s := s.setWeft p.1 { s.weft p.1 with wait := none }
  if p.2.status = .pending then (s.ready p.1).admitWefts (s.coreOf p.2) else s

/-- TRAP_RING_SLOT_FREE: the supervisor takes the oldest record; wefts that waited for a slot try again. -/
def execTrapRingSlotFree (s : State) : Out :=
  match s.trapRing with
  | [] => .next s
  | _ :: rest =>
    let hs := s.wefts.filter (fun p => p.2.wait = some .ringFull)
    .next (hs.foldl State.ringRetry { s with trapRing := rest })

/-! ## The pending set and rotations (R253 to R258) -/

/-- HEDDLE_PENDING_TIMEOUT: an active weft that still waits leaves its slot. -/
def execHeddlePendingTimeout (w : Nat) (s : State) : Out :=
  let x := s.weft w
  let shown : Bool := match x.wait with
    | some (.register _) | some (.barrier ..) | some (.buffer ..) => true
    | _ => false
  if x.status = .active && x.wait.isSome && !(shown && s.waitClear x) then
    .next ((s.setWeft w { x with status := .pending, slot := none }).admitWefts (s.coreOf x))
  else .next s

/-- The active weft of a core with the longest tenure among those of a class or a less urgent one. -/
def State.longest (s : State) (n cls : Nat) : Option Nat :=
  ((sortBy (fun p => p.2.since) ((s.inState n .active).filter (fun p => cls ≤ s.classOf p.2))).head?).map (·.1)

/-- Evict until a blocking weft fits or nobody may be evicted (R256). The fuel bounds the evictions. -/
def State.evictFor (s : State) (n h : Nat) : Nat → State
  | 0 => s
  | fuel + 1 =>
    if s.fits n (s.weft h) then s
    else match s.longest n (s.classOf (s.weft h)) with
      | none => s
      | some v => (s.ready v).evictFor n h fuel

/-- Rotation of R256. -/
def State.rotate (s : State) (n : Nat) : State :=
  let s := s.admitWefts n
  let s := (s.admitQueue n).foldl (fun (s : State) p =>
    s.setWeft p.1 { s.weft p.1 with passed := (s.weft p.1).passed + 1 }) s
  ((s.admitQueue n).filter (fun p => 4 ≤ p.2.passed)).foldl (fun (s : State) p =>
    let s := s.evictFor n p.1 8
    if s.fits n (s.weft p.1) then s.admitTo n p.1 else s) s

/-- HEDDLE_ROTATION. -/
def execHeddleRotation (core : Nat) (s : State) : Out :=
  if (s.core core).stopping || (s.admitQueue core).isEmpty then .next s else .next (s.rotate core)

/-- A measured lease after a window (R258). -/
def Weft.leaseStep (w : Weft) (misses : Nat) : Weft :=
  if 8 ≤ misses then { w with measured := min (w.measured + 16384) 1048576, lowWindows := 0 }
  else if 1 < misses then { w with lowWindows := 0 }
  else if w.lowWindows = 3 then { w with measured := max (w.measured - 16384) 16384, lowWindows := 0 }
  else { w with lowWindows := w.lowWindows + 1 }

/-- Instructions of a lease window (R258). -/
def leaseWindow : Nat := 4096

/-- LEASE_WINDOW: a weft has issued the instructions of a window; its lost-locality misses, as many as the step names, move a measured
lease, and the next window begins. -/
def execLeaseWindow (w misses : Nat) (s : State) : Out :=
  let x := s.weft w
  if x.status = .ended || x.issued < leaseWindow || x.misses ≠ misses then .next s
  else
    let y := if x.leaseDecl = 0 then x.leaseStep misses else x
    .next (s.setWeft w { y with issued := x.issued - leaseWindow, misses := 0 })

/-! ## Switches (R260, R261) -/

/-- Bolts of a core that a bank switch takes off: every resident one but the incoming span's and a handler's. -/
def State.outgoing (s : State) (core inn : Nat) : List (Nat × Bolt) :=
  s.bolts.filter (fun p => p.2.core = core && !p.2.out && !(s.course p.2.course).handler && (s.course p.2.course).span ≠ inn)

/-- Bolts of a span that wait off a core. -/
def State.incoming (s : State) (core inn : Nat) : List (Nat × Bolt) :=
  sortBy (fun p => (s.course p.2.course).id * 256 + p.2.id)
    (s.bolts.filter (fun p => p.2.core = core && p.2.out && (s.course p.2.course).span = inn))

/-- The span whose bolts a bank swap spills: the incoming one where no other is on the core. -/
def State.leaving (s : State) (core inn : Nat) : Nat :=
  match s.outgoing core inn with
  | p :: _ => (s.course p.2.course).span
  | [] => inn

/-- The incoming context can be preloaded: its registers fit in the shadow bank, which nothing holds, and its scratchpad allocations
beside every outgoing one (R260). -/
def State.canPreload (s : State) (core inn : Nat) : Bool :=
  let bs := s.incoming core inn
  let ws := s.wefts.filter (fun p => bs.any (fun b => b.1 = p.2.bolt))
  (s.core core).shadow = none && (ws.map (fun p => p.2.regBytes)).sum ≤ regFile &&
    s.scratchUsed core + (bs.map (fun p => p.2.scratch)).sum ≤ scratchSize

/-- FAST_SWITCH: the incoming context stands preloaded in the shadow bank; every weft of the core stops at its next boundary; the
entries of the array roll back (R301). -/
def execFastSwitch (core span : Nat) (s : State) : Out :=
  let c := s.core core
  if c.switch = .none && !c.stopping && !(s.incoming core span).isEmpty && s.canPreload core span then
    .next (s.setCore core { (c.rollbackAll (fun _ => true)) with switch := .requested span, shadow := some span, stopping := true })
  else .next s

/-- BANK_SWAP: the banks swap roles, the victim tags are cleared (R258) and the incoming wefts queue. -/
def execBankSwap (core : Nat) (s : State) : Out :=
  match (s.core core).switch with
  | .requested inn =>
    let out := s.outgoing core inn
    let left := s.leaving core inn
    let s' := out.foldl (fun (s : State) p => s.boltOff p.1) s
    if (s.incoming core inn).all (fun p => s'.boltCanReturn p.1) then
      let s' := s'.setCore core { s'.core core with
        switch := .spilling left, shadow := some left, stopping := false, victims := [] }
      let s' := (s.incoming core inn).foldl (fun (s : State) p => s.boltOn p.1) s'
      .next ((s'.setSpan inn { s'.span inn with switched := none }).admitWefts core)
    else .next s
  | _ => .next s

/-- SPILL_COMPLETE: the outgoing context is in its save area, and the shadow bank is free. -/
def execSpillComplete (core : Nat) (s : State) : Out :=
  match (s.core core).switch with
  | .spilling _ => .next (s.setCore core { s.core core with switch := .none, shadow := none })
  | _ => .next s

/-- The cores of a span's bolts are in no bank switch: a second switch waits for the spill to end (R260). -/
def State.switchFree (s : State) (sp : Nat) : Bool :=
  (s.spanBolts sp).all (fun p => (s.core p.2.core).switch = .none)

/-- SLOW_SWITCH: the outgoing span is saved whole, then the incoming one is loaded; with one span named twice there is
nothing to save. -/
def execSlowSwitch (out inn : Nat) (s : State) : Out :=
  let s' := if out = inn then s else s.spanOff out
  if s.spanIsOff inn && s.switchFree out && s.switchFree inn && s'.spanCanReturn inn then
    .next ((s'.spanOn inn).setSpan inn { (s'.spanOn inn).span inn with switched := none })
  else .next s

/-! ## A bolt's return (R262) and a rebuild (R263) -/

/-- A weft of a bolt that is reloaded: one whose fetch-page fault was reported fetches again, one that had parked for another fault
is parked again. -/
def State.refetch (s : State) (h : Nat) : State :=
  let w := s.weft h
  match w.trec with
  | some r =>
    if w.status ≠ .swapped then s
    else if r.t.cause = cFetch then s.setWeft h { w with trec := none }
    else s.setWeft h { w with status := .parked }
  | none => s

/-- The supervisor has been told of every fetch-page fault of a bolt's wefts. -/
def State.faultsReported (s : State) (b : Nat) : Bool :=
  (s.weftsOf b).all (fun h => match (s.weft h).trec with
    | some r => r.published || r.t.cause ≠ cFetch
    | none => true)

/-- BOLT_RELOAD: the supervisor reports the page present, once it has been told of the fault. -/
def execBoltReload (b : Nat) (s : State) : Out :=
  let x := s.bolt b
  if !x.swapped || !s.faultsReported b then .next s
  else
    let s := s.setBolt b { x with swapped := false }
    let hs := sortBy (fun h => (s.weft h).id) (s.weftsOf b)
    let s := hs.foldl (fun (s : State) h => s.refetch h) s
    if x.out then .next s
    else .next ((hs.foldl (fun (s : State) h => if (s.weft h).status = .swapped then s.ready h else s) s).admitWefts x.core)

/-- The wefts of a core that were ACTIVE or READY, by course, bolt and weft index; R263 names bolt and weft only, and where bolts of
several courses stand on the core the lower course goes first, of equal ones of two spans those that were ACTIVE, then the lower
handle (DESIGN CHOICE, log 141). -/
def State.queued (s : State) (core : Nat) : List Nat :=
  (sortBy (fun p => ((s.courseOf p.2).id * 256 + (s.boltOf p.2).id) * 64 + p.2.id)
    (s.inState core .active ++ s.inState core .ready)).map (·.1)

/-- The cores of a cluster that hold a bolt or anything else. -/
def State.clusterCores (s : State) (cluster : Nat) : List Nat :=
  sortBy (fun n => n) (((s.cores.map (·.1) ++ s.bolts.map (fun p => p.2.core)).eraseDups).filter (fun n => n / 256 = cluster))

/-- HEDDLE_REBUILD: every core of the cluster drops its slot assignments, queue order, passed counts and victim tags. -/
def execHeddleRebuild (cluster : Nat) (s : State) : Out :=
  let cores := s.clusterCores cluster
  let s := cores.foldl (fun (s : State) n => s.setCore n { s.core n with victims := [] }) s
  let s := cores.foldl (fun (s : State) n => (s.queued n).foldl (fun (s : State) h => s.ready h) s) s
  let s := s.event 5 1 cluster
  .next (cores.foldl (fun (s : State) n => s.admitWefts n) s)

end Sys2Proof.Machine
end

