-- ==== Sys2Proof/Machine/Placement.lean ====
section
/-! DEFINITION. Where a course may be placed (R224, R304 to R306, R405, R406): course vault words, the room of a core and of a
cluster, the cores that a policy finds, and what empty clusters hold. -/

namespace Sys2Proof.Machine

/-! ## Course vault words (R305, R306) -/

def cvwSplit (x : Dword) : Nat := x.toNat / 2 ^ 37 % 8
def cvwBlocked (x : Dword) : Bool := x.getLsbD 36
def cvwLen (x : Dword) : Nat := x.toNat % 2 ^ 32

/-- Bytes of vault memory that a split leaves in each vault. -/
def vaultBytes (split : Nat) : Nat :=
  match split with
  | 0 => 2 * 2 ^ 20
  | 2 => 2 ^ 20
  | 3 => 3 * 2 ^ 20
  | 4 => 7 * 2 ^ 19
  | _ => 0

/-- Granules of a course of `n` bolts that lie under its bolt `b`. -/
def vaultGranules (x : Dword) (n b : Nat) : Nat :=
  let g := cvwLen x / 4096
  if cvwBlocked x then g / n else (g + n - 1 - b) / n

/-- A course vault word is valid and its window fits an empty cluster. -/
def cvwOk (x : Dword) (n : Nat) : Bool :=
  x.toNat / 2 ^ 40 = 0 && x.toNat / 2 ^ 32 % 16 = 0 && cvwSplit x ≤ 4 && cvwLen x % 4096 = 0 &&
    (!cvwBlocked x || cvwLen x % (4096 * n) = 0) && vaultGranules x n 0 * 4096 ≤ vaultBytes (cvwSplit x)

/-! ## Placement (R224, R304, R306, R406) -/

/-- Bytes of vault memory taken on a core. -/
def State.vaultUsed (s : State) (n : Nat) : Nat :=
  (s.bolts.filter (fun p => p.2.core = n && !s.courseOver p.2.course && !s.displaced (s.course p.2.course))).foldl (fun a p =>
    let c := s.course p.2.course
    if c.handler then a else a + 4096 * vaultGranules (s.span c.span).cvw c.nbolts p.2.id) 0

/-- The cluster holds no course. -/
def State.clusterEmpty (s : State) (k : Nat) : Bool :=
  s.courses.all (fun p => p.2.cluster ≠ k || p.2.handler || s.courseOver p.1)

/-- A cluster takes courses of a split: it has that split, or it is empty. -/
def State.clusterTakes (s : State) (k split : Nat) : Bool :=
  k < 8 && (s.cluster k).inService && ((s.cluster k).vsplit.toNat = split || s.clusterEmpty k)

/-- A core takes bolt `b` of a course of a span's kernel. -/
def State.coreTakes (s : State) (n : Nat) (k : Kernel) (cvw : Dword) (nbolts b : Nat) : Bool :=
  s.boltFits n k && s.leasesFit n k && s.vaultUsed n + 4096 * vaultGranules cvw nbolts b ≤ vaultBytes (cvwSplit cvw)

/-- The cores may take a course: distinct cores of one cluster, each with room for its bolt. -/
def State.courseFits (s : State) (k : Kernel) (cvw : Dword) (nbolts : Nat) (cores : List Nat) : Bool :=
  match cores with
  | [] => false
  | n :: _ =>
    cores.length = nbolts && s.clusterTakes (n / 256) (cvwSplit cvw) && cores.all (fun m => m / 256 = n / 256) &&
      cores.eraseDups.length = cores.length && cores.zipIdx.all (fun p => s.coreTakes p.1 k cvw nbolts p.2)

/-- The next core among those given that takes a bolt. -/
def State.findCore (s : State) (k : Kernel) (cvw : Dword) (nbolts b : Nat) (free : List Nat) : Option Nat :=
  free.find? (fun n => s.coreTakes n k cvw nbolts b)

/-- Cores of a cluster for the bolts of a course, from bolt `b` on: the bolts with most vault memory come first, so the cores are found
whenever there are some. -/
def State.findCores (s : State) (k : Kernel) (cvw : Dword) (nbolts : Nat) : Nat → Nat → List Nat → Option (List Nat)
  | 0, _, _ => some []
  | m + 1, b, free =>
    match s.findCore k cvw nbolts b free with
    | none => none
    | some n => (s.findCores k cvw nbolts m (b + 1) (free.filter (fun x => x ≠ n))).map (fun l => n :: l)

/-- A cluster can take a course of a kernel now. -/
def State.clusterFits (s : State) (k : Kernel) (cvw : Dword) (c : Nat) : Bool :=
  s.clusterTakes c (cvwSplit cvw) &&
    (s.findCores k cvw k.bolts k.bolts 0 ((List.range 256).map (fun i => c * 256 + i))).isSome

/-- The cluster that takes the next course: the first that can, in the order of the supervisor's placement table (R406). -/
def State.nextCluster (s : State) (k : Kernel) (cvw : Dword) : Option Nat := s.sup.order.find? (fun c => s.clusterFits k cvw c)

/-- One course fits an empty cluster. -/
def courseFitsEmpty (k : Kernel) : Bool :=
  k.bolts ≤ 256 && k.wefts ≤ 64 && k.wefts * k.regBytes ≤ regFile && k.scratch ≤ scratchSize

/-- Bolts of a kernel that an empty core takes, its vault memory left out. -/
def coreHolds (k : Kernel) : Nat :=
  let m (a b : Nat) : Nat := if b = 0 then 64 else a / b
  min (64 / k.wefts) (min (m regFile (k.wefts * k.regBytes)) (min (m scratchSize k.scratch) (m (8 * leaseCap) (k.wefts * k.lease))))

/-- Bolts beyond those a core holds that it takes of a kernel, its vault memory left out. -/
def State.boltRoom (s : State) (n : Nat) (k : Kernel) : Nat :=
  let m (a b : Nat) : Nat := if b = 0 then 64 else a / b
  let res := s.residents n
  min ((64 - res.length) / k.wefts) (min (m (regFile - s.regsUsed n) (k.wefts * k.regBytes))
    (min (m (scratchSize - s.scratchUsed n) k.scratch)
      (m (8 * leaseCap - (res.map (fun p => p.2.leaseDecl)).sum) (k.wefts * k.lease))))

/-- Bolts with one granule more than the others that a core with `n` bolts of a course's kernel can hold; none when the vault
cannot hold the bolts at all. -/
def heavyRoom (cvw : Dword) (nbolts n : Nat) (used : Nat := 0) : Option Nat :=
  let low := vaultGranules cvw nbolts (nbolts - 1)
  let room := (vaultBytes (cvwSplit cvw) - used) / 4096
  if room < n * low then none else some (min n (room - n * low))

/-- Bolts of a course with one granule more of the window than its last. -/
def heavyBolts (k : Kernel) (cvw : Dword) : Nat := if cvwBlocked cvw then 0 else cvwLen cvw / 4096 % k.bolts

/-- What each further bolt on a core, up to `m` of them, adds to the bolts with one granule more that it can hold; the list falls. -/
def State.coreMargins (s : State) (n : Nat) (k : Kernel) (cvw : Dword) (m : Nat) : List Int :=
  let room (i : Nat) : Option Nat := heavyRoom cvw k.bolts i (s.vaultUsed n)
  (List.range (min m (s.boltRoom n k))).filterMap (fun i => match room i, room (i + 1) with
    | some a, some b => some ((b : Int) - (a : Int))
    | _, _ => none)

/-- `m` courses fit a cluster as it stands: at most one bolt of a course on a core, and the bolts with one granule more find room. -/
def State.clusterHasRoom (s : State) (c : Nat) (k : Kernel) (cvw : Dword) (m : Nat) : Bool :=
  let l := (sortBy (fun x => (64 - x).toNat) ((List.range 256).flatMap (fun i => s.coreMargins (c * 256 + i) k cvw m))).take (m * k.bolts)
  l.length = m * k.bolts && decide (((m * heavyBolts k cvw : Nat) : Int) ≤ l.sum)

/-- Courses of a kernel that a cluster takes now. -/
def State.coursesOn (s : State) (c : Nat) (k : Kernel) (cvw : Dword) : Nat :=
  if s.clusterTakes c (cvwSplit cvw) then
    ((List.range (16384 / k.bolts + 1)).filter (fun m => s.clusterHasRoom c k cvw m)).foldl max 0
  else 0

/-- `m` courses fit one empty cluster: their bolts are spread evenly, at most one of a course on a core, and the bolts with one
granule more find room. -/
def clusterHolds (k : Kernel) (cvw : Dword) (m : Nat) : Bool :=
  let n := m * k.bolts
  let a := n / 256
  let more := n % 256
  (if more = 0 then a else a + 1) ≤ coreHolds k &&
    (match heavyRoom cvw k.bolts a, (if more = 0 then some 0 else heavyRoom cvw k.bolts (a + 1)) with
     | some x, some y => decide (m * heavyBolts k cvw ≤ more * y + (256 - more) * x)
     | _, _ => false)

/-- Every course fits the device's active clusters when they are empty (R405): the fullest of them takes an even share. -/
def State.allFitEmpty (s : State) (k : Kernel) (cvw : Dword) (courses : Nat) : Bool :=
  let live := ((List.range 8).filter (fun i => (s.cluster i).inService)).length
  live ≠ 0 && clusterHolds k cvw ((courses + live - 1) / live)

end Sys2Proof.Machine
end

