-- ==== Sys2Proof/Machine/Kicks.lean ====
section
/-! DEFINITION. Queues from outside the front end: the supervisor's journal (R424), kicks (R390), binding (R389), halts and
their records (R399, R408, R409), and resuming a halted queue. -/

namespace Sys2Proof.Machine

/-! ## The journal (R424, R425) -/

/-- Entries the journal holds. -/
def journalSize : Nat := 65536

/-- Append an entry. A full journal is written down as a base first; `base` counts the entries behind it. -/
def State.journal (s : State) (e : JEntry) : State :=
  let p := s.sup
  let p : Sup := if journalSize ≤ p.journal.length then { p with base := p.base + p.journal.length, journal := [] } else p
  { s with sup := { p with journal := p.journal ++ [e] } }

/-- The order of the clusters that a placement table's entry names, one a byte; those it leaves out come after, ascending (DESIGN CHOICE,
log 149: the spec gives the entry no layout). -/
def clusterOrder (text : List Byte) : List Nat :=
  ((text.map (fun b => b.toNat)).filter (fun c => c < 8) ++ List.range 8).eraseDups

/-- What an entry decides takes effect with its commit, where no other step carries it out: a placement table, the release
of a completed span. -/
def State.commit (s : State) (e : JEntry) : State :=
  let s := s.journal e
  match e with
  | .placement t => { s with sup := { s.sup with placement := t, order := clusterOrder t } }
  | .release x => if (s.span x).completed.isSome then s.setSpan x { s.span x with released := true } else s
  | _ => s

/-- JOURNAL_COMMIT. -/
def execJournalCommit (e : JEntry) (s : State) : Out := .next (s.commit e)

/-! ## Kicks (R389, R390) -/

/-- The device has booted and accepts kicks (R450). -/
def State.booted (s : State) : Bool := s.boot.bootst.toNat % 16 = 8 && s.boot.bootst.toNat / 256 % 256 = 0

/-- Queues of the device. -/
def numQueues : Nat := 4096

/-- A refused kick or a dropped notify is counted. -/
def State.dropKick (s : State) (qid : Nat) : State :=
  let q := s.queue qid
  s.setQueue qid { q with drops := (q.drops + 1) % 2 ^ 32 }

/-- A kick with a write index: refused past the ring, otherwise WIDX rises to it; an unbound queue's pending bit is set. -/
def State.kick (s : State) (qid value : Nat) : State :=
  let q := s.queue qid
  if q.ridx + q.nslot < value then s.dropKick qid
  else
    let q : Queue := if q.widx < value then { q with widx := value, submitted := q.submitted ++ [(value, s.ltime)] } else q
    let s := (s.setQueue qid q).event 3 qid value
    if !q.bound && !s.kicks.contains qid then { s with kicks := s.kicks ++ [qid] } else s

/-- A write to a queue's doorbell: a KEYED queue takes none. -/
def State.doorbell (s : State) (qid value : Nat) : State :=
  if numQueues ≤ qid || !s.booted then s
  else if (s.queue qid).keyed then s.dropKick qid
  else s.kick qid value

/-- DOORBELL_KICK. -/
def execDoorbellKick (qid : Nat) (value : Dword) (now : Nat) (s : State) : Out := .next ((s.advanceTime now).doorbell qid value.toNat)

/-! ## Binding (R389) -/

/-- Hardware queue slots. -/
def hwSlots : Nat := 64
/-- HWSLOT of an unbound queue. -/
def unboundSlot : Nat := 255

/-- A hardware slot has no queue. -/
def State.slotFree (s : State) (slot : Nat) : Bool := !s.queues.any (fun p => p.2.bound && p.2.hwslot = slot)

/-- The SETUP fields describe a queue. -/
def Queue.setUp (q : Queue) : Bool :=
  q.en && 16 ≤ q.nslot && q.nslot ≤ 65536 && 2 ^ q.nslot.log2 = q.nslot && q.ring % 256 = 0

/-- Every packet of a queue has completed. -/
def Queue.quiet (q : Queue) : Bool :=
  q.widx ≤ q.ridx && q.depth = 0 && q.running.isEmpty && q.going.isEmpty && q.phase = .idle

/-- Bind a queue to a free slot; the pending bit is cleared. -/
def State.bindSlot (s : State) (qid slot : Nat) : State :=
  let q := s.queue qid
  if qid < numQueues && slot < hwSlots && !q.bound && q.setUp && s.slotFree slot then
    let s := s.journal (.bind qid slot)
    { s.setQueue qid { q with hwslot := slot, bound := true } with kicks := s.kicks.filter (fun x => x ≠ qid) }
  else s

/-- HWSLOT is written: the queue is bound; with 0xFF the supervisor unbinds it, once all of its packets have completed. -/
def State.writeSlot (s : State) (qid slot : Nat) : State :=
  let q := s.queue qid
  if slot = unboundSlot then
    if !q.bound then s.setQueue qid { q with hwslot := unboundSlot }
    else if q.quiet then (s.journal (.bind qid slot)).setQueue qid { q with hwslot := unboundSlot, bound := false, fetched := [] }
    else s
  else s.bindSlot qid slot

/-- QUEUE_BIND. -/
def execQueueBind (qid slot : Nat) (s : State) : Out := .next (s.writeSlot qid slot)

/-! ## Records (R408, R409) -/

/-- The 16 bytes of a completion or halt record. -/
def recordBytes (status flags code seq : Nat) : List Byte :=
  natLe 1 status ++ natLe 1 flags ++ natLe 2 0 ++ natLe 4 code ++ natLe 8 seq

/-- Put a record into the queue's halt slot. -/
def State.haltPut (s : State) (qid : Nat) (l : List Byte) : State := s.setQueue qid { s.queue qid with haltslot := l }

/-- Write a record to COMPL, or to the halt slot with UNDELIVERED where COMPL cannot be written; the address
of a page of it that is held. -/
def State.putRecord (s : State) (qid asid compl status flags code seq : Nat) : State ⊕ Nat :=
  if compl = 0 then .inl s
  else match s.hubWrite asid compl (recordBytes status flags code seq) with
    | (t, .ok _) => .inl t
    | (_, .hold va) => .inr va
    | (t, _) => .inl (t.haltPut qid (recordBytes status (flags + 2) code seq))

/-- The hub is held by a page, which is pulled if it is to follow; the supervisor's next answer may differ. -/
def State.heldOn (s : State) (asid va : Nat) : State := { s.pullFor asid va with free := s.free + 1 }

/-- Where a queue stands. -/
def Queue.place (q : Queue) : QPos :=
  { ridx := q.ridx, depth := q.depth, skip := q.skip, loopleft := q.loopleft, loopn := q.loopn, loopdepth := q.loopdepth,
    loopstart := q.loopstart, stack := q.stack, lastPk := q.lastPk }

/-- Put a queue back at a packet; what it had fetched ahead is fetched anew. -/
def Queue.backTo (q : Queue) (p : QPos) : Queue :=
  { q with ridx := p.ridx, depth := p.depth, skip := p.skip, loopleft := p.loopleft, loopn := p.loopn, loopdepth := p.loopdepth,
           loopstart := p.loopstart, stack := p.stack, lastPk := p.lastPk, fetched := [], phase := .idle }

/-- The queue halts at its packet with a code; COMPL is a halting DISPATCH's, 0 otherwise. While the page of COMPL is held
the packet waits. -/
def State.halt (s : State) (qid err compl : Nat) : State :=
  let q := s.queue qid
  let seq := s.nextSeq
  let code := q.ridx % 2 ^ 32
  let t := s.event 2 qid (0x80 + err)
  let put : State ⊕ Nat :=
    if compl = 0 then .inl (t.haltPut qid (recordBytes (0x80 + err) 0 code seq))
    else t.putRecord qid q.asid compl (0x80 + err) 0 code seq
  match put with
  | .inl t => t.setQueue qid { t.queue qid with halted := true, err := err, phase := .idle }
  | .inr va => (s.heldOn q.asid va).setQueue qid { q with phase := .held }

/-- The queue halts at a packet that has started: it stands at that packet again, and the packets that had started behind it, the
captures among them left out, will start again (R399). -/
def State.haltGoing (s : State) (qid : Nat) (g : Going) (err : Nat) : State :=
  let q := s.queue qid
  let stays (x : Going) : Bool := x.stamp < g.stamp || (x.stamp ≠ g.stamp && (match x.kind with | .capturing _ => true | _ => false))
  (s.setQueue qid { q.backTo g.at_ with going := q.going.filter stays }).halt qid err 0

/-- A started packet has completed. -/
def State.endGoing (s : State) (qid : Nat) (g : Going) : State :=
  let q := s.queue qid
  s.setQueue qid { q with going := q.going.filter (fun x => x.stamp ≠ g.stamp) }

/-- The packet of a queue that captures a span. -/
def Queue.capturing (q : Queue) (sp : Nat) : Option Going := q.going.find? (fun g => g.kind = .capturing sp)

/-- The capture of a span is done: its packet has completed. -/
def State.endCapturing (s : State) (qid sp : Nat) : State :=
  match (s.queue qid).capturing sp with
  | some g => s.endGoing qid g
  | none => s

/-- The capture of a span has failed: the queue halts at its packet. -/
def State.haltCapturing (s : State) (qid sp err : Nat) : State :=
  match (s.queue qid).capturing sp with
  | some g => s.haltGoing qid g err
  | none => s

/-- QUEUE_RESUME: the supervisor clears HALTED; the packet starts again from its beginning. -/
def execQueueResume (qid : Nat) (s : State) : Out :=
  let q := s.queue qid
  if q.halted then .next (s.setQueue qid { q with halted := false, fetched := [], phase := .idle }) else .next s

end Sys2Proof.Machine
end

