-- ==== Sys2Proof/Machine/Walks.lean ====
section
/-! DEFINITION. Steps of the walkers and of the supervisor's work on the page tables: walks (R352), retries of held walks
(R357), invalidations (R358, R359), a page's move to a new frame (R360) and code loading (R445). -/

namespace Sys2Proof.Machine

/-! ## Walks (R352, R357) -/

/-- PAGE_WALK_COMPLETE: a walk for a core's access; one that ends at a leaf which allows the access sets A and D there and
fills the TLBs, one that ends in a fault or a hold fills nothing (R353, R355). -/
def execPageWalkComplete (core asid : Nat) (va : Va) (kind : XKind) (s : State) : Out :=
  if core < 2048 then .next (s.useWalk core asid va.toNat kind).1 else .next s

/-! ## Invalidations (R358, R359) -/

/-- Invalidations that run at once. -/
def maxInvals : Nat := 16

/-- A command is refused. -/
def invRefused (c : InvCmd) : Bool :=
  c.reserved || c.asid.toNat / 4096 ≠ 0 || c.flags.toNat / 2 ≠ 0 || 2 ^ 57 ≤ c.vabase.toNat || c.vabase.toNat % granule ≠ 0 ||
    c.npages = 0 || 2 ^ 42 < c.npages

/-- Write a word of hub SRAM whole; one that was uncorrectable is so no longer (R364). -/
def State.hubPutWord (s : State) (a : Nat) (x : Dword) : State :=
  { s with hubRegs := Store.put 0 s.hubRegs (a / 8 * 8) x, hubBad := s.hubBad.filter (fun u => u ≠ a / 8) }

/-- Write a byte of hub SRAM; in an uncorrectable word it is withheld (R364). -/
def State.hubPutByte (s : State) (a : Nat) (b : Byte) : State :=
  if s.hubBad.contains (a / 8) then s.errEvent 1 7 0 (.hub (a / 8 * 8))
  else
    let w := a / 8 * 8
    { s with hubRegs := Store.put 0 s.hubRegs w (BitVec.ofNat 64 (leNat (((natLe 8 (Store.get 0 s.hubRegs w).toNat)).set (a % 8) b))) }

/-- Write a dword of hub SRAM, by its physical address. -/
def State.hubPut (s : State) (a : Nat) (x : Dword) : State :=
  if a % 8 = 0 then s.hubPutWord a x
  else ((natLe 8 x.toNat).zipIdx).foldl (fun (s : State) p => s.hubPutByte (a + p.2) p.1) s

/-- Write bytes of hub SRAM. -/
def State.hubPutBytes (s : State) (a : Nat) (l : List Byte) : State :=
  (l.zipIdx).foldl (fun (s : State) p => s.hubPutByte (a + p.2) p.1) s

/-- INVALIDATE: a refused command has status 2 at once; a seventeenth waits for its port. -/
def execInvalidate (c : InvCmd) (s : State) : Out :=
  if invRefused c then .next (s.hubPut c.done 2)
  else if maxInvals ≤ s.invals.length then .next s
  else .next { s with invals := s.invals ++
    [{ asid := c.asid.toNat, all := c.flags.getLsbD 0, vpn := c.vabase.toNat / granule, n := c.npages, done := c.done }] }

/-- An address space is one of an invalidation's. -/
def Inval.inSpace (i : Inval) (asid : Nat) : Bool := i.all || i.asid = asid

/-- A cached translation matches an invalidation: its page overlaps the range. -/
def Inval.hits (i : Inval) (t : TlbEnt) : Bool := i.inSpace t.asid && t.vpn < i.vpn + i.n && i.vpn < t.vpn + t.span

/-- Some pages an access went through overlap an invalidation's range. -/
def Inval.meets (i : Inval) (u : Nat × Nat) : Bool := u.1 < i.vpn + i.n && i.vpn < u.1 + u.2

/-- An access in flight used a matching translation. -/
def Inval.usedBy (i : Inval) (x : Nat × List (Nat × Nat) × List Nat) : Bool := i.inSpace x.1 && x.2.1.any (fun u => i.meets u)

/-- A copy has pinned a matching translation (R276). -/
def State.copyPins (s : State) (i : Inval) (b : Bolt) (c : Copy) : Bool :=
  c.live && i.inSpace (s.span (s.course b.course).span).asid && c.tr.any (fun p => i.meets (p.vpn, p.span))

/-- A cached non-leaf entry lies on the way to a page of an invalidation's range. -/
def Inval.hitsWalk (i : Inval) (x : WalkEnt) : Bool :=
  let n := 4096 ^ x.level
  i.inSpace x.asid && i.meets (x.pre * n, n)

/-- Every access and every copy that an invalidation waits for has finished. -/
def State.invalDue (s : State) (i : Inval) : Bool :=
  !s.inFlight.any (fun x => i.usedBy x) && !s.bolts.any (fun p => p.2.copies.any (fun q => s.copyPins i p.2 q.2))

/-- INVALIDATION_COMPLETE. -/
def execInvalidationComplete (n : Nat) (s : State) : Out :=
  match s.invals[n]? with
  | none => .next s
  | some i =>
    if s.invalDue i then
      let s : State := { s with tlb := s.tlb.filter (fun t => !i.hits t), wcache := s.wcache.filter (fun x => !i.hitsWalk x),
                                invals := s.invals.eraseIdx n }
      .next ((s.hubPut i.done 0).event 5 2 i.done)
    else .next s

/-! ## Migration (R360) -/

/-- An address of one frame at its place in another. -/
def moveAddr (old new a : Nat) : Nat := if a / granule = old then new * granule + a % granule else a

/-- A piece of a part that lies in a frame, at its place in another, and the piece that stays. -/
def cutPart (old new p len : Nat) : Option (Nat × Nat) × Option (Nat × Nat) :=
  let lo := max p (old * granule)
  let hi := min (p + len) ((old + 1) * granule)
  if hi ≤ lo then (none, some (p, len))
  else (some (moveAddr old new lo, hi - lo),
    if p < lo then some (p, lo - p) else if hi < p + len then some (hi, p + len - hi) else none)

/-- The pieces of a contribution that move with a page, and that stay. -/
def Contribution.split (c : Contribution) (old new : Nat) : Option Contribution × Option Contribution :=
  let (gone, kept) := c.elems.partition (fun e => e.1 / granule = old)
  let x := cutPart old new c.part c.len
  (x.1.map (fun p => { c with part := p.1, len := p.2, elems := gone.map (fun e => (moveAddr old new e.1, e.2)) }),
   x.2.map (fun p => { c with part := p.1, len := p.2, elems := kept }))

/-- A contribution that went both ways counts twice in its batch. -/
def State.countSplit (s : State) (c : Contribution) (p : Option Contribution × Option Contribution) : State :=
  if p.1.isSome && p.2.isSome then
    s.mapWeft c.weft (fun w => w.mapBatch c.batch (fun b => { b with left := b.left + 1 }))
  else s

/-- Both halves of a split as a list. -/
def bothOf {α : Type} (p : Option α × Option α) : List α := p.1.toList ++ p.2.toList

/-- Add to a sequence. -/
def State.addAcc (s : State) (p len next : Nat) (held : List Contribution) : State :=
  let a := s.acc p
  s.setAcc p { len := max a.len len, next := max a.next next, held := a.held ++ held }

/-- One sequence's move: its place goes to both pieces, and what it holds with its bytes. -/
def State.moveSequence (s : State) (old new p : Nat) : State :=
  let a := s.acc p
  let x := cutPart old new p a.len
  let l := a.held.map (fun c => (c, c.split old new))
  let s := l.foldl (fun (s : State) y => s.countSplit y.1 y.2) (s.setAcc p AccPart.none)
  let put (s : State) (q : Option (Nat × Nat)) (h : List Contribution) : State := match q with
    | some q => s.addAcc q.1 q.2 a.next h
    | none => s
  put (put s x.1 (l.filterMap (fun y => y.2.1))) x.2 (l.filterMap (fun y => y.2.2))

/-- The state of the accumulator parts in a page moves with it (R360): sequences, held, stalled and flying contributions, and the
parts that open batches have committed to. -/
def State.moveAccumulators (s : State) (old new : Nat) : State :=
  let hit (p len : Nat) : Bool := overlap p len (old * granule) granule
  let s := ((s.accs.filter (fun p => hit p.1 p.2.len)).map (·.1)).foldl (fun (s : State) p => s.moveSequence old new p) s
  let fly := s.contribs.map (fun c => (c, c.split old new))
  let s := fly.foldl (fun (s : State) x => s.countSplit x.1 x.2) s
  let cut (g : Nat × Nat × Nat) : List (Nat × Nat × Nat) := (bothOf (cutPart old new g.1 g.2.1)).map (fun q => (q.1, q.2, g.2.2))
  { s with
    contribs := fly.flatMap (fun x => bothOf x.2),
    wefts := s.wefts.map (fun (x : Nat × Weft) => (x.1, { x.2 with batches := x.2.batches.map (fun (b : Batch) =>
      { b with parts := (b.parts.flatMap cut).eraseDups }) })) }

/-- Mailbox lines of a page keep their bindings. -/
def State.moveMailboxes (s : State) (old new : Nat) : State :=
  { s with ctxs := s.ctxs.map (fun (p : Nat × Ctx) => (p.1, { p.2 with mboxes := p.2.mboxes.map (fun (m : MBox) =>
    { m with pa := moveAddr old new m.pa }) })) }

/-- MIGRATION_COPY: steps 3 and 4 of R360 for a page whose leaf has MIG set. -/
def execMigrationCopy (asid : Nat) (va : Va) (newFrame : Nat) (s : State) : Out :=
  match s.walk asid va.toNat with
  | .leaf 0 _ e =>
    let old := entryAddr e / granule
    if e.testBit 55 && newFrame < hbmSize / granule && newFrame ≠ old then
      .next ((((s.takePage old newFrame).dropFrame newFrame).moveAccumulators old newFrame).moveMailboxes old newFrame)
    else .next s
  | _ => .next s

/-! ## Parts and mailboxes of pages still to follow (R436, R440) -/

/-- Frames from here on stand for pages of an image that have no frame here yet. -/
def pseudoBase : Nat := 2 ^ 44

/-- The frame that stands for a page of a context. -/
def pseudoFrame (asid vpn : Nat) : Nat := pseudoBase + asid * 2 ^ 42 + vpn

/-- The address that stands for one of a context. -/
def pseudoAddr (asid va : Nat) : Nat := pseudoFrame asid (va / granule) * granule + va % granule

/-- The frames that stand for pages, wherever one is named. -/
def State.pseudoFrames (s : State) : List Nat :=
  let held := s.accs.map (·.1)
  let fly := s.contribs.map (fun c => c.part)
  let open_ := s.wefts.flatMap (fun p => p.2.batches.flatMap (fun b => b.parts.map (·.1)))
  let box := s.ctxs.flatMap (fun p => p.2.mboxes.map (fun m => m.pa))
  (((held ++ fly ++ open_ ++ box).map (fun p => p / granule)).filter (fun p => pseudoBase ≤ p)).eraseDups

/-- A page has its frame: the sequences that stood for it go on at their home slices, with what they held arriving there in
order. -/
def State.landSequences (s : State) (f frame : Nat) : State :=
  let l := s.accs.filter (fun p => p.1 / granule = f)
  let s := l.foldl (fun (s : State) p => (s.setAcc p.1 AccPart.none).addAcc (moveAddr f frame p.1) p.2.len p.2.next []) s
  let s := s.moveAccumulators f frame
  l.foldl (fun (s : State) p =>
    (sortBy (fun c => c.contrib) (sortBy (fun c => c.ordinal) p.2.held)).foldl (fun (s : State) c =>
      s.arriveContribution ((c.split f frame).1.getD c)) s) s

/-- Mailboxes of a page that has its frame: a run that was due starts. -/
def State.landMailboxes (s : State) (f frame : Nat) : State :=
  let due := s.ctxs.flatMap (fun x => (x.2.mboxes.filter (fun m => m.pa / granule = f && m.pending)).map (fun m => (x.1, m)))
  due.foldl (fun (s : State) x => s.startHandler x.1 { x.2 with pa := moveAddr f frame x.2.pa }) (s.moveMailboxes f frame)

/-- Every page that has its frame by now. -/
def State.landReady (s : State) : State :=
  s.pseudoFrames.foldl (fun (s : State) f =>
    match s.peekPa ((f - pseudoBase) / 2 ^ 42) ((f - pseudoBase) % 2 ^ 42 * granule) with
    | some pa => (s.landSequences f (pa / granule)).landMailboxes f (pa / granule)
    | none => s) s

/-! ## Table entries of the supervisor (R356, R357) -/

/-- A weft held on a migrating page tries again. -/
def State.retryHeld (s : State) (h : Nat) : State :=
  let w := s.weft h
  if w.wait = some .mig then
    let s := s.setWeft h { w with wait := none }
    if w.status = .pending then (s.ready h).admitWefts (s.coreOf w) else s
  else s

/-- HELD_WALK_RETRY: the supervisor writes a table entry (R356), and the walks that are held are made again. -/
def execHeldWalkRetry (pa : Nat) (entry : Dword) (s : State) : Out :=
  if pa % 8 = 0 && pa + 8 ≤ hbmSize then
    let s := s.homeWrite pa (natLe 8 entry.toNat)
    let s := s.landReady
    .next ((s.wefts.map (·.1)).foldl (fun (s : State) h => s.retryHeld h) s)
  else .next s

/-! ## Code loading (R48 to R50, R445) -/

/-- The loader accepts a file's class, byte order, machine and revision (R48). -/
def elfOk (l : List Byte) : Bool :=
  l.take 6 = [0x7F, 0x45, 0x4C, 0x46, 2, 1] && fieldAt l 18 2 = 0x7A31 && fieldAt l 48 4 = 1

/-- A value fits a signed field. -/
def fitsSigned (w : Nat) (v : Int) : Bool := -(2 ^ (w - 1) : Int) ≤ v && v < (2 ^ (w - 1) : Int)

/-- A value fits 64 bits, signed or not. -/
def fits64 (v : Int) : Bool := -(2 ^ 63 : Int) ≤ v && v < (2 ^ 64 : Int)

/-- A relocation may stand against `.text` (R50). -/
def textReloc (t : Nat) : Bool := [3, 4, 5, 6, 8].contains t

/-- The field a relocation of an assigned type writes: its place, its bytes, and the value; none for a load error (R48 to R50).
K9_NONE writes no byte. -/
def relocField (r : Reloc) (at_ : Nat) : Option (Nat × Nat × Int) :=
  let place : Int := ((at_ + r.off : Nat) : Int)
  match r.typ with
  | 0 => some (r.off, 0, 0)
  | 1 => if fits64 r.value then some (r.off, 8, r.value) else none
  | 2 => if 0 ≤ r.value && r.value < 2 ^ 32 then some (r.off, 4, r.value) else none
  | 3 => if fitsSigned 32 r.value then some (r.off + 8, 4, r.value) else none
  | 4 => if fits64 r.value then some (r.off + 8, 8, r.value) else none
  | 5 => if (r.value - place) % 4 = 0 && fitsSigned 32 ((r.value - place) / 4) then some (r.off + 8, 4, (r.value - place) / 4) else none
  | 6 => if (r.value - r.table) % 4 = 0 && fitsSigned 32 ((r.value - r.table) / 4) then some (r.off, 4, (r.value - r.table) / 4) else none
  | 7 => if 0 ≤ r.value && r.value < 2 ^ 57 then some (r.off, 8, r.value) else none
  | 8 => if 0 ≤ r.value && r.value < 524288 then some (r.off + 8, 3, r.value) else none
  | _ => none

/-- Replace bytes of a list. -/
def patch (l : List Byte) (a : Nat) (b : List Byte) : List Byte := l.take a ++ b ++ l.drop (a + b.length)

/-- Apply a relocation; a scratchpad offset leaves bits 31:20 as assembled. -/
def applyReloc (at_ : Nat) (l : List Byte) (r : Reloc) : Option (List Byte) :=
  match relocField r at_ with
  | none => none
  | some (p, n, v) =>
    if l.length < p + n then none
    else
      let v := if r.typ = 8 then v + (fieldAt l p 3 / 2 ^ 20 * 2 ^ 20 : Nat) else v
      some (patch l p (natLe n (wrapNat (8 * n) v)))

/-- Apply every relocation. -/
def applyRelocs (at_ : Nat) : List Byte → List Reloc → Option (List Byte)
  | l, [] => some l
  | l, r :: rest =>
    match applyReloc at_ l r with
    | some l' => applyRelocs at_ l' rest
    | none => none

/-- Write HINT, bits 60:58 of an instruction's first word (R18, R35). -/
def applyHint (l : List Byte) (h : Nat × BitVec 3) : List Byte :=
  if l.length < h.1 + 8 then l
  else
    let b := fieldAt l (h.1 + 7) 1
    patch l (h.1 + 7) (natLe 1 (b / 32 * 32 + h.2.toNat * 4 + b % 4))

/-- A leaf maps a code page: R and X set and W clear (R351). -/
def codeLeaf (e : Nat) : Bool := e.testBit 2 && e.testBit 4 && !e.testBit 3 && !e.testBit 55

/-- A leaf maps a page that the loader can write a section to. -/
def dataLeaf (e : Nat) : Bool := e.testBit 2 && !e.testBit 55

/-- Frames of the pages of a range, every leaf of which meets a condition. -/
def State.loadPages (s : State) (ok : Nat → Bool) (asid : Nat) : Nat → Nat → Nat → Option (List (Nat × Nat × Nat))
  | 0, _, _ => some []
  | fuel + 1, va, n =>
    if n = 0 then some []
    else
      let k := min n (granule - va % granule)
      match s.walk asid va with
      | .leaf level _ e =>
        if ok e then
          (s.loadPages ok asid fuel (va + k) (n - k)).map (fun l => (va, leafPa level e va / granule, k) :: l)
        else none
      | .bad _ => none

/-- A live span of a context runs code of a load that lies in a range, so that the range does not change (R50). -/
def State.codeInUse (s : State) (asid a n : Nat) : Bool :=
  (s.liveSpans asid).any (fun p =>
    let e := p.2.kernel.entry.toNat
    (s.ctx asid).loads.any (fun r => r.base.toNat ≤ e && e < r.base.toNat + r.len && overlap r.base.toNat r.len a n) || (a ≤ e && e < a + n))

/-- The other sections relocated, each with the frames of its pages; none for a load error. -/
def State.sections (s : State) (asid : Nat) : List DataSection → Option (List (List (Nat × Nat × Nat) × List Byte))
  | [] => some []
  | d :: rest =>
    match applyRelocs d.at_.toNat d.bytes d.relocs, s.loadPages dataLeaf asid (d.bytes.length / granule + 2) d.at_.toNat d.bytes.length with
    | some l, some p => (s.sections asid rest).map (fun t => (p, l) :: t)
    | _, _ => none

/-- CODE_REWRITE: the other sections are relocated and stored, the text is relocated as it streams into its code pages, and the load
is recorded. A file the loader rejects, a load error, a page that does not take its bytes, or a range that a live span's kernel
uses changes nothing (R48 to R50). -/
def execCodeRewrite (x : CodeIn) (s : State) : Out :=
  let n := x.text.length
  let used := s.codeInUse x.asid x.textAt.toNat n || x.others.any (fun d => s.codeInUse x.asid d.at_.toNat d.bytes.length)
  match applyRelocs x.textAt.toNat x.text x.relocs, s.loadPages codeLeaf x.asid (n / granule + 2) x.textAt.toNat n,
      s.sections x.asid x.others with
  | some l, some pages, some ds =>
    if elfOk x.elf && x.relocs.all (fun r => textReloc r.typ) && !used then
      let s := ds.foldl (fun (s : State) d => s.writePlaces d.1 d.2) s
      let s := s.writePlaces pages (x.hints.foldl applyHint l)
      let c := s.ctx x.asid
      let r : LoadRec := { base := x.base, digest := Config.sha3 x.elf, len := x.textAt.toNat + n - x.base.toNat }
      .next (s.setCtx x.asid { c with loads := c.loads.filter (fun y => y.base ≠ x.base) ++ [r] })
    else .next s
  | _, _, _ => .next s

end Sys2Proof.Machine
end

