-- ==== Sys2Proof/Machine/Commands.lean ====
section
/-! DEFINITION. Context commands (R373 to R377, R495) and the deadlock watchdog (R386). -/

namespace Sys2Proof.Machine

/-! ## Results (R376) -/

/-- Write a command's 16-byte result to DONE: the value, the tag, the full bit and the status; a command that took effect is an event
of kind 7. -/
def State.result (s : State) (c : CtxCmd) (op status : Nat) (value : Dword := 0) (tag : BitVec 6 := 0) (full : Bool := false) :
    State :=
  let s := (s.hubPut c.done value).hubPut (c.done + 8) (BitVec.ofNat 64 (tag.toNat + full.toNat * 256 + status * 65536))
  if status = 0 then s.event 7 op c.done else s

/-! ## The weft a command names -/

/-- The wefts a command names: those of its context with the indices it gives whose span has not completed and that no image has
taken, wefts that have ended and a handler's last. -/
def State.named (s : State) (c : CtxCmd) : List (Nat × Weft) :=
  let l := s.wefts.filter (fun p => s.asidOf p.2 = c.asid && p.2.id = c.weft && (s.boltOf p.2).id = c.bolt &&
    (s.courseOf p.2).id = c.course && (s.spanOf p.2).completed.isNone &&
    (s.spanOf p.2).ending ≠ .origin)
  sortBy (fun p => (if p.2.status = .ended then 2 else 0) + (if (s.courseOf p.2).handler then 1 else 0)) l

/-- The weft is parked and its record written. -/
def Weft.parkedNow (w : Weft) : Bool := (w.status = .parked || w.status = .swapped) && w.trec.any (fun r => r.published)

/-- Run a command that names a parked weft: status 4 without such a weft, 2 when it is not parked. -/
def State.onParked (s : State) (c : CtxCmd) (op : Nat) (f : Nat → Weft → TrapRec → State) : Out :=
  match s.named c with
  | [] => .next (s.result c op 4)
  | (h, w) :: _ =>
    match w.trec with
    | some r => if w.parkedNow then .next (f h w r) else .next (s.result c op 2)
    | none => .next (s.result c op 2)

/-- The parked weft goes on at a PC: NEST is cleared, the supervisor's earlier writes are acquired, and it becomes
READY. -/
def State.unpark (s : State) (h : Nat) (pc : Va) : State :=
  let w := s.weft h
  let w : Weft := { w.goto pc with tstat := w.tstat &&& ~~~2, trec := none, wait := none, repeatPhase := none }
  let core := s.coreOf w
  let s := (s.setWeft h w).acquire core .span
  ((s.ready h).retireIfEmpty h).admitWefts core

/-- RESUME. -/
def execResume (c : CtxCmd) (s : State) : Out :=
  s.onParked c 1 (fun h _ r => (s.unpark h r.t.pc).result c 1 0)

/-- REDIRECT; a value that no PC can hold is malformed. -/
def execRedirect (c : CtxCmd) (s : State) : Out :=
  s.onParked c 2 (fun h _ _ =>
    if c.value.toNat < 2 ^ 57 then (s.unpark h (c.value.truncate 57)).result c 2 0 else s.result c 2 1)

/-! ## SETREG and GETREG -/

/-- The register a command names, within the declared counts; k0 and the special numbers are none. -/
def Weft.cmdReg (w : Weft) (arg : Nat) : Option Reg :=
  match Reg.ofField (BitVec.ofNat 8 arg) with
  | .v n => if n.toNat < w.vregs then some (.v n) else none
  | .s n => if n.toNat < w.sregs then some (.s n) else none
  | .k n => if n = 0 then none else some (.k n)
  | _ => none

/-- The threads in which a command writes or reads a register: those of MASK, or one for a scalar or a mask register. -/
def cmdThreads (r : Reg) (m : Mask) : List Nat :=
  match r with
  | .v _ => threads m
  | _ => [0]

/-- SETREG. -/
def execSetreg (c : CtxCmd) (s : State) : Out :=
  s.onParked c 3 (fun h w _ =>
    match w.cmdReg c.arg with
    | none => s.result c 3 1
    | some r =>
      if 256 ≤ c.arg || 64 ≤ c.tag.toNat || !tagValid (c.tag.truncate 6) || c.mask &&& ~~~w.bits ≠ 0 then s.result c 3 1
      else
        let ts := cmdThreads r c.mask
        if ts.any (fun t => !w.fullAt r t) then s.result c 3 3
        else (s.setWeft h (w.putAll r (ts.map (fun t => (t, ⟨c.value, c.tag.truncate 6, true⟩))))).result c 3 0)

/-- GETREG. -/
def execGetreg (c : CtxCmd) (s : State) : Out :=
  s.onParked c 4 (fun _ w _ =>
    match w.cmdReg c.arg with
    | none => s.result c 4 1
    | some r =>
      if 256 ≤ c.arg || c.mask &&& ~~~w.bits ≠ 0 then s.result c 4 1
      else match cmdThreads r c.mask with
        | [] => s.result c 4 1
        | t :: _ =>
          let x := w.cell r t
          s.result c 4 0 x.val x.tag (w.fullAt r t))

/-! ## KILL (R377) -/

/-- Every weft of a context's handlers stops, and its mailboxes are unbound. -/
def State.stopHandlers (s : State) (asid : Nat) : State :=
  let hs := ((s.ctxWefts asid).filter (fun p => p.2.handler)).map (·.1)
  let boxes := (s.ctx asid).mboxes
  let s := s.setCtx asid { s.ctx asid with mboxes := [] }
  let s := s.stopWefts hs
  boxes.foldl (fun (s : State) m => s.setCore m.core { s.core m.core with handler := none }) s

/-- The context is killed: its spans end, its peers are told, and what its paths have not reported goes to the
supervisor. -/
def State.killCtx (s : State) (asid : Nat) : State :=
  let s := s.setCtx asid { s.ctx asid with st := .stopping }
  let s := (s.liveSpans asid).foldl (fun (s : State) p => s.endSpan p.1 .killed) s
  let s := ((s.stopHandlers asid).withdraw asid).dropImages asid
  let s := s.flushFailures asid
  s.setCtx asid { s.ctx asid with st := .killed }

/-- KILL. -/
def execKill (c : CtxCmd) (s : State) : Out :=
  match (s.ctx c.asid).st with
  | .free => .next (s.result c 5 4)
  | .live => .next ((s.killCtx c.asid).result c 5 0).wake
  | .stopping | .killed => .next (s.result c 5 0)

/-! ## CTXSET (R373, R374, R376) -/

/-- Bits of TRANS, PEER and PEERBASE that hold a value. -/
def transMask (x : Dword) : Dword := x &&& ~~~(BitVec.ofNat 64 0x7FFE)
def peerMask (x : Dword) : Dword := x &&& BitVec.ofNat 64 (2 ^ 63 + (2 ^ 40 - 1))

/-- A context's translation word is written: with EN it is live, without EN it is free. -/
def Ctx.setTrans (c : Ctx) (x : Dword) (now : Nat) : Ctx :=
  let t := transMask x
  if !t.getLsbD 0 then { c with trans := t, st := .free }
  else if c.st = .live || c.st = .stopping then { c with trans := t }
  else { c with trans := t, st := .live, mboxes := [], loads := [], progress := now }

/-- The control block after a write; none where ARG names no field. -/
def Ctx.cmdSet (c : Ctx) (arg : Nat) (x : Dword) (now : Nat) : Option Ctx :=
  match arg with
  | 0 => some (c.setTrans x now)
  | 2 => some { c with deleg := delegMask x }
  | 4 => some { c with peer := peerMask x }
  | 6 => some { c with peermb := x.truncate 32 }
  | 7 => some { c with wdwin := x.truncate 32 }
  | 10 => some { c with peerbase := x &&& ~~~63 }
  | _ => none

/-- CTXSET. -/
def execCtxset (c : CtxCmd) (s : State) : Out :=
  if 4096 ≤ c.asid then .next (s.result c 6 4)
  else match (s.ctx c.asid).cmdSet c.arg c.value s.ltime with
    | none => .next (s.result c 6 1)
    | some x =>
      let s := s.setCtx c.asid x
      .next ((s.journal (if c.arg = 2 then .delegChange c.asid else .ccbWrite c.asid)).result c 6 0)

/-! ## ENGREPLY (R495) -/

/-- Answer the hold of a copy or of a sequencer entry. -/
def Copy.answer (c : Copy) (seq : Nat) (refuse : Bool) : Copy :=
  if c.held = some seq then { c with held := none, refused := refuse } else c
def SeqEntry.answer (e : SeqEntry) (seq : Nat) (refuse : Bool) : SeqEntry :=
  if e.held = some seq then { e with held := none, refused := refuse } else e

/-- A copy of a context is held under a number; and an entry. -/
def State.copyHeldAs (s : State) (asid seq : Nat) : Bool :=
  s.bolts.any (fun p => (s.span (s.course p.2.course).span).asid = asid && p.2.copies.any (fun q => q.2.held = some seq))
def State.entryHeldAs (s : State) (asid seq : Nat) : Bool :=
  s.cores.any (fun p => p.2.seqr.any (fun q => q.2.held = some seq && s.asidOf (s.weft q.2.weft) = asid))

/-- Give an answer to the engine that a number names. -/
def State.answerHold (s : State) (seq : Nat) (refuse : Bool) : State :=
  { s with
    bolts := s.bolts.map (fun (p : Nat × Bolt) => (p.1, { p.2 with copies := p.2.copies.map (fun (q : Nat × Copy) =>
      (q.1, q.2.answer seq refuse)) })),
    cores := s.cores.map (fun (p : Nat × Core) => (p.1, { p.2 with seqr := p.2.seqr.map (fun (q : Nat × SeqEntry) =>
      (q.1, q.2.answer seq refuse)) })) }

/-- ENGREPLY. -/
def execEngreply (c : CtxCmd) (s : State) : Out :=
  let q := c.value.toNat
  if c.weft ≠ 0 || c.bolt ≠ 0 || c.course ≠ 0 || c.tag ≠ 0 || c.mask ≠ 0 || 1 < c.arg then .next (s.result c 7 1)
  else if !s.copyHeldAs c.asid q && !s.entryHeldAs c.asid q then .next (s.result c 7 4)
  else .next (((s.noteExempt c.asid).answerHold q (c.arg = 1)).result c 7 0)

/-! ## The watchdog (R386) -/

/-- The watchdog of a context fires now. -/
def State.watchdogDue (s : State) (asid : Nat) : Bool :=
  let x := s.ctx asid
  let ws := (s.ctxWefts asid).map (·.2)
  x.st = .live && x.wdwin ≠ 0 && x.wdwin.toNat * 1000 ≤ s.ltime - x.progress && !ws.any (fun w => s.exempt w) &&
    ws.any (fun w => s.counts w)

/-- WATCHDOG_FIRE: every weft of the context that has not ended parks with cause 0x10. -/
def execWatchdogFire (asid now : Nat) (s : State) : Out :=
  let s := s.advanceTime now
  if s.watchdogDue asid then
    let ws := s.ctxWefts asid
    let s := s.event 6 0 asid
    .next (ws.foldl (fun (s : State) p => s.takePend p.1 (p.2.fault cWatchdog (info := s.watchState p.1) (mask := p.2.live))) s)
  else .next s

end Sys2Proof.Machine
end

