-- ==== Sys2Proof/Machine/Images.lean ====
section
/-! DEFINITION. Context images (R431 to R433): the byte string an image is, what each section holds of a span, and how it is
read back. The header, the directory and the weft records have the manual's layouts; within the other sections the model
lays the fields out as the codecs below do. -/

namespace Sys2Proof.Machine

/-! ## Codecs -/

/-- A way to write a value as bytes and to read it back with what follows. -/
structure Codec (α : Type) where
  put : α → List Byte
  get : List Byte → Option (α × List Byte)

/-- A number in `n` bytes. -/
def cNat (n : Nat) : Codec Nat :=
  { put := natLe n, get := fun l => if l.length < n then none else some (leNat (l.take n), l.drop n) }

/-- `n` bytes as they are. -/
def cBytes (n : Nat) : Codec (List Byte) :=
  { put := fun b => b.take n, get := fun l => if l.length < n then none else some (l.take n, l.drop n) }

/-- A codec through a change of type. -/
def cMap {α β : Type} (c : Codec α) (f : α → β) (g : β → α) : Codec β :=
  { put := fun b => c.put (g b), get := fun l => (c.get l).map (fun p => (f p.1, p.2)) }

/-- Two values, one after the other. -/
def cPair {α β : Type} (c : Codec α) (d : Codec β) : Codec (α × β) :=
  { put := fun p => c.put p.1 ++ d.put p.2,
    get := fun l => (c.get l).bind (fun p => (d.get p.2).map (fun q => ((p.1, q.1), q.2))) }

/-- Read `n` values. -/
def getN {α : Type} (g : List Byte → Option (α × List Byte)) : Nat → List Byte → Option (List α × List Byte)
  | 0, l => some ([], l)
  | n + 1, l => (g l).bind (fun p => (getN g n p.2).map (fun q => (p.1 :: q.1, q.2)))

/-- A list behind its length. -/
def cList {α : Type} (c : Codec α) : Codec (List α) :=
  { put := fun l => natLe 4 l.length ++ l.flatMap c.put,
    get := fun l => ((cNat 4).get l).bind (fun p => getN c.get p.1 p.2) }

/-- Bytes behind their length. -/
def cBlob : Codec (List Byte) :=
  { put := fun b => natLe 8 b.length ++ b,
    get := fun l => ((cNat 8).get l).bind (fun p => (cBytes p.1).get p.2) }

def cBool : Codec Bool := cMap (cNat 1) (fun n => n ≠ 0) (fun b => if b then 1 else 0)
def cOpt {α : Type} (c : Codec α) : Codec (Option α) := cMap (cList c) (fun l => l.head?) Option.toList
def cSigned : Codec Int := cMap (cNat 16) (fun n => sextNat 128 n) (fun i => wrapNat 128 i)
def cBv (w n : Nat) : Codec (BitVec w) := cMap (cNat n) (BitVec.ofNat w) BitVec.toNat
def cId : Codec Nat := cNat 8
def cReg : Codec Reg := cMap (cBv 8 1) Reg.ofField Reg.field

def cBufRec : Codec BufRec :=
  cMap (cPair (cBv 64 8) (cPair (cBv 64 8) (cPair (cBv 64 8) (cPair (cBv 64 8) (cBv 64 8)))))
    (fun p => ⟨p.1, p.2.1, p.2.2.1, p.2.2.2.1, p.2.2.2.2⟩) (fun r => (r.w0, r.w1, r.w2, r.w3, r.w4))

def BufSt.ofCode (n : Nat) : BufSt := match n with | 0 => .free | 1 => .filling | 2 => .full | _ => .draining

/-- A buffer (R235). -/
def cDBuf : Codec DBuf :=
  cMap (cPair cId (cPair cId (cPair (cNat 1) (cPair cId (cPair (cBv 32 4) cBool)))))
    (fun p => ⟨p.1, p.2.1, BufSt.ofCode p.2.2.1, p.2.2.2.1, p.2.2.2.2.1, p.2.2.2.2.2⟩)
    (fun b => (b.base, b.len, b.st.code, b.bar, b.wph, b.wv))

/-- An entry of the barrier table; its owner is written as a bolt index. -/
def cBarEnt : Codec BarEnt :=
  cMap (cPair cId (cPair cId (cPair (cList (cPair cId (cBv 32 4))) (cList (cBv 32 4)))))
    (fun p => ⟨p.1, p.2.1, p.2.2.1, p.2.2.2⟩) (fun e => (e.owner, e.off, e.arr, e.remote))

def CopySt.num (x : CopySt) : Nat := match x with | .opened => 0 | .ready => 1 | .running => 2 | .done => 3 | .error => 4
def CopySt.ofNum (n : Nat) : CopySt :=
  match n with | 0 => .opened | 1 => .ready | 2 => .running | 3 => .done | _ => .error

/-- A copy (R280, R282); contributors are written as weft indices. Holds, pinned translations and frames are left out. -/
def cCopy : Codec Copy :=
  cMap (cPair (cPair cId (cPair (cNat 1) (cPair (cNat 1) (cPair cId (cList (cBv 64 8))))))
         (cPair (cPair cBufRec (cPair cBufRec (cPair (cList cId) (cPair (cList (cPair cId cId)) (cList (cPair cId cId))))))
           (cPair (cPair cId (cPair cBool cId)) (cPair (cList cId) (cPair (cOpt (cList (cBv 64 8))) (cList (cPair cId cBlob)))))))
    (fun ((off, st, err, landed, desc), (srec, drec, parts, contrib, slices), (next, gone, withheld), empties, snap, saved) =>
      { off := off, st := CopySt.ofNum st, err := err, landed := landed, desc := desc, srec := srec, drec := drec,
        parts := parts, contrib := contrib, slices := slices, next := next, order := 0, held := none, refused := false,
        barGone := gone, pages := [], withheld := withheld, empties := empties, tr := [], snap := snap, gather := [], saved := saved })
    (fun c => ((c.off, c.st.num, c.err, c.landed, c.desc), (c.srec, c.drec, c.parts, c.contrib, c.slices),
      (c.next, c.barGone, c.withheld), c.empties, c.snap, c.saved))

/-- An owned slot, its owner a weft index (R432). -/
def cSlot : Codec Slot :=
  cMap (cPair (cBv 6 1) (cPair (cOpt cId) (cBytes 16384)))
    (fun p => { tag := p.1, owner := p.2.1, data := Store.putBytes [] 0 p.2.2, bad := [], pins := 0, relPend := false })
    (fun x => (x.tag, x.owner, Store.bytes x.data 0 16384))

def cScale : Codec ScaleLayout :=
  cMap (cPair cSigned (cPair cSigned (cPair cSigned cSigned))) (fun p => ⟨p.1, p.2.1, p.2.2.1, p.2.2.2⟩) (fun x => (x.a, x.b, x.c, x.xa))
def cSparsity : Codec SparseLayout :=
  cMap (cPair cBool (cPair cId (cPair cSigned cSigned))) (fun p => ⟨p.1, p.2.1, p.2.2.1, p.2.2.2⟩) (fun x => (x.s48, x.slot, x.a, x.b))

def cBatch : Codec Batch :=
  cMap (cPair (cPair cId (cPair (cBv 6 1) (cPair cBool (cPair cBool cBool)))) (cPair cId (cPair cId (cList (cPair cId (cPair cId cId))))))
    (fun ((num, flags, ab, cl, co), issued, left, parts) =>
      { num := num, flags := flags, aborted := ab, closed := cl, complete := co, issued := issued, left := left, parts := parts })
    (fun b => ((b.num, b.flags, b.aborted, b.closed, b.complete), b.issued, b.left, b.parts))

/-- A step with its snapshots. Stamps of the order of happenings are written as they are, and moved up as a whole when the
image is read back (R436). -/
def cMStep : Codec MStep :=
  cMap (cPair cId (cPair cId (cPair cId (cPair cId (cPair (cOpt cScale) (cOpt cSparsity))))))
    (fun p => { a := p.1, b := p.2.1, place := p.2.2.1, at_ := p.2.2.2.1, scale := p.2.2.2.2.1, sparse := p.2.2.2.2.2 })
    (fun x => (x.a, x.b, x.place, x.at_, x.scale, x.sparse))

/-- An MLOAD's slot, layout word, tag and scale offset. -/
def cMload : Codec (Nat × (Dword × Dword × Dword) × BitVec 6 × Option Nat) :=
  cPair cId (cPair (cPair (cBv 64 8) (cPair (cBv 64 8) (cBv 64 8))) (cPair (cBv 6 1) (cOpt cId)))

/-- What an entry runs, or an MLOAD in progress: one of three. -/
def cMKind : Codec MKind :=
  cMap (cPair (cOpt cMload) (cPair (cOpt (cList cMStep))
         (cPair (cBv 64 8) (cPair (cOpt (cPair cId (cBv 32 4))) (cPair (cOpt cScale) (cOpt cSparsity))))))
    (fun (ld, steps, loop, bar, sc, sp) =>
      match ld, steps with
      | some (slot, lay, tag, off), _ => .mload slot lay tag off
      | none, some l => .mma l
      | none, none => .mloop loop bar sc sp)
    (fun k => match k with
      | .mma l => (none, some l, 0, none, none, none)
      | .mloop x b sc sp => (none, none, x, b, sc, sp)
      | .mload slot lay tag off => (some (slot, lay, tag, off), none, 0, none, none, none))

/-- A sequencer entry, rolled back, or an MLOAD; its weft is written as an index. -/
def cSeqEntry : Codec SeqEntry :=
  cMap (cPair (cPair cId (cPair cId (cPair cId (cPair cMKind cId))))
         (cPair (cPair cBufRec (cPair cSigned (cPair cBool (cPair cBool cBool)))) (cPair cId (cPair cId cBool))))
    (fun ((weft, batch, place, kind, br), (acc, off, ord, sp, sc), contrib, done, closed) =>
      { weft := weft, batch := batch, place := place, kind := kind, br := br, acc := acc, off := off,
        merge := if ord then .ord else .arr, sp := sp, sc := sc, contrib := contrib, next := done, done := done,
        closed := closed, part := [], pinned := [], held := none, refused := false })
    (fun e => ((e.weft, e.batch, e.place, e.kind, e.br), (e.acc, e.off, e.merge = .ord, e.sp, e.sc), e.contrib, e.done, e.closed))

def cTrap : Codec Trap :=
  cMap (cPair (cBv 8 1) (cPair (cBv 32 4) (cPair (cBv 8 1) (cPair (cBv 57 8) (cPair (cBv 57 8) (cBv 32 4))))))
    (fun p => ⟨p.1, p.2.1, p.2.2.1, p.2.2.2.1, p.2.2.2.2.1, p.2.2.2.2.2⟩)
    (fun t => (t.cause, t.info, t.field, t.pc, t.addr, t.mask))

def scopeNum (x : Scope) : Nat := match x with | .weft => 0 | .bolt => 1 | .course => 2 | .span => 3 | .domain => 4
def scopeOf (n : Nat) : Scope := match n with | 0 => .weft | 1 => .bolt | 2 => .course | 3 => .span | _ => .domain

/-- A poll in flight (R212): destination, condition, width, words, acquire scope, EXT, tag, PC and threads. -/
structure Poll where
  d : Reg
  eq : Bool
  w64 : Bool
  words : List (Nat × Option Nat × Dword)
  acq : Option Scope
  ext : Bool
  tag : BitVec 6
  pc : Va
  mask : Mask

def cPoll : Codec Poll :=
  cMap (cPair (cPair cReg (cPair cBool (cPair cBool (cList (cPair cId (cPair (cOpt cId) (cBv 64 8)))))))
         (cPair (cOpt (cMap (cNat 1) scopeOf scopeNum)) (cPair cBool (cPair (cBv 6 1) (cPair (cBv 57 8) (cBv 32 4))))))
    (fun ((d, eq, w64, words), acq, ext, tag, pc, mask) => ⟨d, eq, w64, words, acq, ext, tag, pc, mask⟩)
    (fun p => ((p.d, p.eq, p.w64, p.words), p.acq, p.ext, p.tag, p.pc, p.mask))

/-- What the matrix section holds of a weft (R432), and what of it no other record has room for: its trap registers while it
is parked, a pending failure (R483), its polls and its pops. `chain` is the stamp that names its open chain. -/
structure WeftX where
  id : Nat
  tregs : List Dword
  pend : Option Trap
  mfail : Option Trap
  scale : Option ScaleLayout
  sparse : Option SparseLayout
  nextBatch : Nat
  chain : Option Nat
  batches : List Batch
  polls : List Poll
  pops : List (Nat × Nat × Va)
  lowWindows : Nat

def cWeftX : Codec WeftX :=
  cMap (cPair (cPair cId (cPair (cList (cBv 64 8)) (cPair (cOpt cTrap) (cOpt cTrap))))
         (cPair (cPair (cOpt cScale) (cPair (cOpt cSparsity) (cPair cId (cPair (cOpt cId) (cList cBatch)))))
           (cPair (cList cPoll) (cPair (cList (cPair cId (cPair cId (cBv 57 8)))) cId))))
    (fun ((id, tregs, pend, mfail), (scale, sparse, nb, chain, batches), polls, pops, low) =>
      ⟨id, tregs, pend, mfail, scale, sparse, nb, chain, batches, polls, pops, low⟩)
    (fun x => ((x.id, x.tregs, x.pend, x.mfail), (x.scale, x.sparse, x.nextBatch, x.chain, x.batches), x.polls, x.pops,
      x.lowWindows))

/-! ## The records of the sections (R432) -/

structure ImgSpan where
  deleg : Dword
  peer : Dword
  peermb : Word32
  peerbase : Dword
  courses : Nat
  flags : BitVec 32
  cvw : Dword
  compl : Nat
  args : List (Dword × BitVec 6)
  cls : Nat
  deadline : Nat
  kernels : List (List Byte × Nat)
  kernel : Kernel
  placed : Nat
  ctime : Nat

/-- A kernel's descriptor as it was read, for the courses still to be placed. -/
def cKernel : Codec Kernel :=
  cMap (cPair (cPair cId (cPair (cBv 57 8) (cPair cId (cPair cId (cPair cBool cBool)))))
         (cPair cId (cPair cId (cPair cId (cPair cId (cList cBufRec))))))
    (fun ((addr, entry, vregs, sregs, prot, mbox), scratch, lease, wefts, bolts, recs) =>
      { addr := addr, entry := entry, vregs := vregs, sregs := sregs, prot := prot, mbox := mbox, scratch := scratch,
        lease := lease, wefts := wefts, bolts := bolts, recs := recs })
    (fun k => ((k.addr, k.entry, k.vregs, k.sregs, k.prot, k.mbox), k.scratch, k.lease, k.wefts, k.bolts, k.recs))

def cImgSpan : Codec ImgSpan :=
  cMap (cPair (cPair (cBv 64 8) (cPair (cBv 64 8) (cPair (cBv 32 4) (cBv 64 8))))
         (cPair (cPair cId (cPair (cBv 32 4) (cPair (cBv 64 8) (cPair cId (cList (cPair (cBv 64 8) (cBv 6 1)))))))
           (cPair (cPair (cNat 1) (cPair cId (cList (cPair cBlob cId)))) (cPair cKernel (cPair cId cId)))))
    (fun ((deleg, peer, mb, base), (courses, flags, cvw, compl, args), (cls, dl, ks), kernel, placed, ctime) =>
      ⟨deleg, peer, mb, base, courses, flags, cvw, compl, args, cls, dl, ks, kernel, placed, ctime⟩)
    (fun x => ((x.deleg, x.peer, x.peermb, x.peerbase), (x.courses, x.flags, x.cvw, x.compl, x.args),
      (x.cls, x.deadline, x.kernels), x.kernel, x.placed, x.ctime))

structure ImgCourse where
  id : Nat
  nbolts : Nat
  vault : List Byte

def cImgCourse : Codec ImgCourse :=
  cMap (cPair cId (cPair cId cBlob)) (fun p => ⟨p.1, p.2.1, p.2.2⟩) (fun x => (x.id, x.nbolts, x.vault))

/-- A bolt; `kernel` is its kernel's index in SPAN. -/
structure ImgBolt where
  course : Nat
  id : Nat
  nwefts : Nat
  kernel : Nat
  recs : List BufRec
  scratch : List Byte
  bufs : List DBuf
  bars : List BarEnt
  nextHandle : Nat

def cImgBolt : Codec ImgBolt :=
  cMap (cPair (cPair cId (cPair cId (cPair cId cId))) (cPair (cList cBufRec) (cPair cBlob (cPair (cList cDBuf) (cPair (cList cBarEnt) cId)))))
    (fun ((course, id, n, k), recs, sp, bufs, bars, nh) => ⟨course, id, n, k, recs, sp, bufs, bars, nh⟩)
    (fun b => ((b.course, b.id, b.nwefts, b.kernel), b.recs, b.scratch, b.bufs, b.bars, b.nextHandle))

/-- A copy with its place: course, bolt, handle. -/
def cImgCopy : Codec ((Nat × Nat × Nat) × Copy) := cPair (cPair cId (cPair cId cId)) cCopy

/-- The matrix state of a bolt. -/
structure ImgMatrix where
  course : Nat
  bolt : Nat
  slots : List (Nat × Slot)
  entries : List (Nat × SeqEntry)
  wefts : List WeftX

def cImgMatrix : Codec ImgMatrix :=
  cMap (cPair cId (cPair cId (cPair (cList (cPair cId cSlot)) (cPair (cList (cPair cId cSeqEntry)) (cList cWeftX)))))
    (fun p => ⟨p.1, p.2.1, p.2.2.1, p.2.2.2.1, p.2.2.2.2⟩) (fun x => (x.course, x.bolt, x.slots, x.entries, x.wefts))

/-- A contribution; its weft is written as course, bolt and weft index, its elements by virtual address. -/
def cContribution : Codec (Contribution × Nat × Nat × Nat) :=
  cMap (cPair (cPair cId (cPair cId (cPair cId cId)))
         (cPair (cPair cId (cPair cId (cPair (cNat 1) cBool))) (cList (cPair cId (cBv 64 8)))))
    (fun ((c, b, w, batch), (contrib, ord, kind, fin), elems) =>
      ({ weft := 0, batch := batch, entry := 0, contrib := contrib, merge := .ord, ordinal := ord, part := 0, len := 0, kind := kind,
         elems := elems, final := fin, stalled := false, uses := [] }, c, b, w))
    (fun (x, c, b, w) => ((c, b, w, x.batch), (x.contrib, x.ordinal, x.kind, x.final), x.elems))

/-- A page's share of an open sequence: virtual address, bytes, NEXT and held contributions. -/
structure ImgSeq where
  va : Nat
  len : Nat
  next : Nat
  held : List (Contribution × Nat × Nat × Nat)

def cImgSeq : Codec ImgSeq :=
  cMap (cPair cId (cPair cId (cPair cId (cList cContribution)))) (fun p => ⟨p.1, p.2.1, p.2.2.1, p.2.2.2⟩)
    (fun q => (q.va, q.len, q.next, q.held))

/-- A feed queue: number, VBASE's place taken by XBASE, CAP, XCAP, HEAD, VTAIL, TAIL, records. -/
structure ImgFeed where
  num : Nat
  cap : Nat
  xcap : Nat
  xbase : Nat
  head : Nat
  vtail : Nat
  tail : Nat
  records : List (List Byte)

def cImgFeed : Codec ImgFeed :=
  cMap (cPair (cPair cId (cPair cId (cPair cId cId))) (cPair cId (cPair cId (cPair cId (cList (cBytes 64))))))
    (fun ((num, cap, xcap, xbase), head, vtail, tail, recs) => ⟨num, cap, xcap, xbase, head, vtail, tail, recs⟩)
    (fun q => ((q.num, q.cap, q.xcap, q.xbase), q.head, q.vtail, q.tail, q.records))

/-- A mailbox: line, descriptor, PENDING, and the handler's kernel as it was read. -/
def cImgBox : Codec (Nat × Nat × Bool × Kernel) := cPair cId (cPair cId (cPair cBool cKernel))

/-- A mapped range: base, length, R W X, and for a MOVE the holder's serial number and coordinates. -/
structure ImgRange where
  va : Nat
  len : Nat
  perm : Nat
  serial : List Byte
  pos : Nat

def cImgRange : Codec ImgRange :=
  cMap (cPair cId (cPair cId (cPair (cNat 1) (cPair cBlob cId)))) (fun p => ⟨p.1, p.2.1, p.2.2.1, p.2.2.2.1, p.2.2.2.2⟩)
    (fun r => (r.va, r.len, r.perm, r.serial, r.pos))

/-! ## The weft record (R433) -/

/-- The threads on the running path: those alive that no entry of the stack holds. -/
def Weft.onPath (w : Weft) : Mask :=
  w.stack.foldl (fun m e => e.pend.foldl (fun m p => m &&& ~~~p.mask) (m &&& ~~~e.arr)) w.alive

/-- The replayable producer of a register that is empty in a thread: its kind and its PC or handle. -/
def State.producer (s : State) (h : Nat) (r : Reg) (t : Nat) : Option (Nat × Nat) :=
  let w := s.weft h
  let byFlight := w.flights.findSome? (fun f => match f.kind, r with
    | .waitv d _ _ _ _ _ _ pc, _ => if d = r && (isScalar r || f.mask.getLsbD t) then some (1, pc.toNat) else none
    | .popw base _ pc, .s n => if base ≤ n.toNat && n.toNat < base + 8 then some (2, pc.toNat) else none
    | _, _ => none)
  match byFlight, r with
  | some x, _ => some x
  | none, .v n =>
    ((s.boltOf w).copies.find? (fun c => c.2.live && c.2.dindex = w.id && c.2.empties.contains (vkey n.toNat t))).map
      (fun c => (3, c.1))
  | none, _ => none

/-- The stack, from the bottom entry up. -/
def stackBytes (l : List REntry) : List Byte :=
  l.reverse.flatMap (fun e =>
    let ps := sortBy (fun (p : Path) => p.pc.toNat) e.pend
    natLe 1 e.tag.toNat ++ natLe 1 ps.length ++ natLe 2 0 ++ natLe 4 e.jset.toNat ++ natLe 4 e.arr.toNat ++ natLe 4 0 ++
      natLe 8 (match e.rpc with | some x => x.toNat | none => 2 ^ 64 - 1) ++
      ps.flatMap (fun p => natLe 8 p.pc.toNat ++ natLe 4 p.mask.toNat ++ natLe 4 0))

/-- The state byte of a register in a thread. -/
def State.stateByte (s : State) (h : Nat) (r : Reg) (t : Nat) (c : Cell) : List Byte :=
  natLe 1 (c.tag.toNat + (if c.full then 64 else if (s.producer h r t).isSome then 128 else 0))

/-- The producer entries, in ascending register number. -/
def State.producers (s : State) (h : Nat) : List (Reg × Nat × Mask × Nat) :=
  let w := s.weft h
  let vs := (List.range w.vregs).flatMap (fun v =>
    let r : Reg := .v (BitVec.ofNat 7 v)
    let l := (List.range w.n).filterMap (fun t => if (w.v v t).full then none else (s.producer h r t).map (fun p => (t, p)))
    ((l.map (·.2)).eraseDups).map (fun p => (r, p.1, maskOf ((l.filter (fun x => x.2 = p)).map (·.1)), p.2)))
  let ss := (List.range w.sregs).filterMap (fun n =>
    let r : Reg := .s (BitVec.ofNat 6 n)
    if (w.s n).full then none else (s.producer h r 0).map (fun p => (r, p.1, (0xFFFFFFFF : Mask), p.2)))
  vs ++ ss

/-- STATE of a weft in an image. -/
def Weft.imgState (w : Weft) : Nat := if w.status = .ended then 2 else if w.trec.isSome then 1 else 0

/-- A weft's record; an ended weft leaves its identity and masks. -/
def State.weftBytes (s : State) (h : Nat) : List Byte :=
  let w := s.weft h
  let gone := w.status = .ended
  let vregs := if gone then 0 else w.vregs
  let sregs := if gone then 0 else w.sregs
  let stack := if gone then [] else w.stack
  let prods := if gone then [] else s.producers h
  let lease := if w.leaseDecl = 0 then w.measured + 2 ^ 31 else w.leaseDecl
  let traps := match w.trec with
    | some r => s.trapBytes w r r.seq
    | none => natLe 8 w.trapcause.toNat ++ natLe 8 w.trappc.toNat ++ natLe 8 w.trapaddr.toNat ++ natLe 8 w.trapmask.toNat ++
        natLe 8 w.tstat.toNat ++ List.replicate 24 0
  natLe 2 w.id ++ natLe 2 (s.boltOf w).id ++ natLe 4 (s.courseOf w).id ++ natLe 1 w.imgState ++
    natLe 1 (if w.prot then 1 else 0) ++ natLe 2 vregs ++ natLe 1 sregs ++ natLe 3 0 ++ natLe 8 w.pc.toNat ++
    natLe 8 w.fpctl.toNat ++ natLe 8 w.fpstat.toNat ++ natLe 4 w.dlm.toNat ++ natLe 4 w.exm.toNat ++ natLe 4 lease ++
    natLe 4 stack.length ++ natLe 8 w.thvec.toNat ++ traps ++ natLe 4 prods.length ++ List.replicate 28 0 ++
    stackBytes stack ++
    (List.range vregs).flatMap (fun v => (List.range w.n).flatMap (fun t => natLe 8 (w.v v t).val.toNat)) ++
    (List.range vregs).flatMap (fun v => (List.range w.n).flatMap (fun t => s.stateByte h (.v (BitVec.ofNat 7 v)) t (w.v v t))) ++
    (List.range sregs).flatMap (fun n => natLe 8 (w.s n).val.toNat ++ s.stateByte h (.s (BitVec.ofNat 6 n)) 0 (w.s n)) ++
    (List.range 7).flatMap (fun k => natLe 4 (w.k (BitVec.ofNat 3 (k + 1))).toNat) ++
    prods.flatMap (fun p => natLe 2 p.1.field.toNat ++ natLe 1 p.2.1 ++ natLe 1 0 ++ natLe 4 p.2.2.1.toNat ++ natLe 8 p.2.2.2)

/-- A weft record read back: its weft with `bolt` still open, the indices of bolt and course, a parked weft's record. -/
structure ImgWeft where
  w : Weft
  bolt : Nat
  course : Nat
  trec : Option TrapRec

/-- Read pending paths. -/
def getPaths : Nat → List Byte → List Path
  | 0, _ => []
  | n + 1, l => ⟨BitVec.ofNat 57 (fieldAt l 0 8), BitVec.ofNat 32 (fieldAt l 8 4)⟩ :: getPaths n (l.drop 16)

/-- Read stack entries, the bottom one first; the result has the top first. -/
def getStack : Nat → List Byte → List REntry → List REntry × List Byte
  | 0, l, acc => (acc, l)
  | n + 1, l, acc =>
    let k := fieldAt l 1 1
    let rpc := fieldAt l 16 8
    let e : REntry := { tag := BitVec.ofNat 8 (fieldAt l 0 1), jset := BitVec.ofNat 32 (fieldAt l 4 4),
                        arr := BitVec.ofNat 32 (fieldAt l 8 4), rpc := if rpc = 2 ^ 64 - 1 then none else some (BitVec.ofNat 57 rpc),
                        pend := getPaths k (l.drop 24) }
    getStack n (l.drop (24 + 16 * k)) (e :: acc)

/-- Stack entries have zeros where the layout reserves bytes. -/
def stackOk : Nat → List Byte → Bool
  | 0, _ => true
  | n + 1, l =>
    let k := fieldAt l 1 1
    fieldAt l 2 2 = 0 && fieldAt l 12 4 = 0 && (List.range k).all (fun i => fieldAt l (24 + 16 * i + 12) 4 = 0) &&
      stackOk n (l.drop (24 + 16 * k))

/-- A state byte: a valid tag (R52), and at most one of its upper bits. -/
def stateOk (b : Byte) : Bool := tagValid (b.truncate 6) && b.toNat / 64 ≠ 3

/-- A cell from its data and state byte. -/
def cellOf (val state : Nat) : Cell := ⟨BitVec.ofNat 64 val, BitVec.ofNat 6 state, state.testBit 6⟩

/-- A weft record's length before its variable parts. -/
def weftFixed : Nat := 160

/-- The trap record of a parked weft, to be delivered anew (R436). -/
def getTrapRec (l : List Byte) : TrapRec :=
  let c := fieldAt l 0 8
  { t := { cause := BitVec.ofNat 8 c, field := BitVec.ofNat 8 (c / 2 ^ 8), info := BitVec.ofNat 32 (c / 2 ^ 16),
           pc := BitVec.ofNat 57 (fieldAt l 8 8), addr := BitVec.ofNat 57 (fieldAt l 16 8), mask := BitVec.ofNat 32 (fieldAt l 24 4) },
    tstat := BitVec.ofNat 64 (fieldAt l 38 2), actm := BitVec.ofNat 32 (fieldAt l 48 4), route := .supervisor,
    published := false, seq := 0 }

/-- The fixed part of a weft record has zeros where R433 reserves bytes, and its FPCTL and FPSTAT are values that SETSR writes (R65,
R66). -/
def weftFixedOk (l : List Byte) : Bool :=
  fieldAt l 8 1 ≤ 2 && fieldAt l 9 1 < 2 && fieldAt l 13 3 = 0 && fieldAt l 132 28 = 0 &&
    setsrOk 0x000 (BitVec.ofNat 64 (fieldAt l 24 8)) && setsrOk 0x001 (BitVec.ofNat 64 (fieldAt l 32 8))

/-- Producer entries have zeros where the layout reserves bytes. -/
def producersOk (n : Nat) (l : List Byte) : Bool := (List.range n).all (fun i => fieldAt l (16 * i + 3) 1 = 0)

/-- Read a weft record; none where it is not well formed: a reserved byte that is not zero, a tag or a control register's value that no
weft can hold (DESIGN CHOICE, log 150: the record is refused with the first check of R435). -/
def getWeft (l : List Byte) : Option (ImgWeft × List Byte) :=
  if l.length < weftFixed then none
  else
    let f (a n : Nat) : Nat := fieldAt l a n
    let prot := (f 9 1).testBit 0
    let n := if prot then 16 else 32
    let vregs := f 10 2
    let sregs := f 12 1
    let lease := f 48 4
    let parked := f 8 1 = 1
    let tr := (l.drop 64).take 64
    let (stack, l1) := getStack (f 52 4) (l.drop weftFixed) []
    let vdata := l1.take (8 * n * vregs)
    let l2 := l1.drop (8 * n * vregs)
    let vstate := l2.take (n * vregs)
    let l3 := l2.drop (n * vregs)
    let sdata := l3.take (9 * sregs)
    let l4 := l3.drop (9 * sregs)
    let rest := l4.drop (28 + 16 * f 128 4)
    if l4.length < 28 + 16 * f 128 4 || !weftFixedOk l || !stackOk (f 52 4) (l.drop weftFixed) || !vstate.all stateOk ||
        !(List.range sregs).all (fun i => (sdata[9 * i + 8]?).all stateOk) || !producersOk (f 128 4) (l4.drop 28) then none
    else
      let rec_ := getTrapRec tr
      let tstat := if parked then rec_.tstat else BitVec.ofNat 64 (fieldAt tr 32 8)
      let w : Weft := { Weft.absent with
        id := f 0 2, prot := prot, vregs := vregs, sregs := sregs,
        status := if f 8 1 = 2 then .ended else if parked then .parked else .swapped,
        pc := BitVec.ofNat 57 (f 16 8), fpctl := BitVec.ofNat 64 (f 24 8), fpstat := BitVec.ofNat 64 (f 32 8),
        dlm := BitVec.ofNat 32 (f 40 4), exm := BitVec.ofNat 32 (f 44 4),
        leaseDecl := if lease.testBit 31 then 0 else lease, lease := lease % 2 ^ 31,
        measured := if lease.testBit 31 then lease % 2 ^ 31 else 65536, thvec := BitVec.ofNat 64 (f 56 8), stack := stack,
        tstat := tstat,
        trapcause := if parked then 0 else BitVec.ofNat 64 (fieldAt tr 0 8), trappc := if parked then 0 else BitVec.ofNat 64 (fieldAt tr 8 8),
        trapaddr := if parked then 0 else BitVec.ofNat 64 (fieldAt tr 16 8), trapmask := if parked then 0 else BitVec.ofNat 64 (fieldAt tr 24 8) }
      let w := (List.range vregs).foldl (fun (w : Weft) v => (List.range n).foldl (fun (w : Weft) t =>
        w.setV v t (cellOf (fieldAt vdata (8 * (v * n + t)) 8) (fieldAt vstate (v * n + t) 1))) w) w
      let w := (List.range sregs).foldl (fun (w : Weft) i => w.setS i (cellOf (fieldAt sdata (9 * i) 8) (fieldAt sdata (9 * i + 8) 1))) w
      let w := (List.range 7).foldl (fun (w : Weft) k => w.setK (BitVec.ofNat 3 (k + 1)) (BitVec.ofNat 32 (fieldAt l4 (4 * k) 4))) w
      let w : Weft := { w with active := w.onPath }
      some (⟨w, f 2 2, f 4 4, if parked then some rec_ else none⟩, rest)

/-! ## Header and directory (R431) -/

abbrev imgMAGIC : Nat := 0x4D49394B

/-- Fill up to a multiple of 64 bytes. -/
def pad64 (l : List Byte) : List Byte := l ++ List.replicate ((64 - l.length % 64) % 64) 0

/-- The directory and the sections, from an offset on: kind, record count and bytes of each. -/
def layOut : Nat → List (Nat × Nat × List Byte) → List Byte × List Byte
  | _, [] => ([], [])
  | off, (kind, count, b) :: rest =>
    let p := pad64 b
    let (d, body) := layOut (off + p.length) rest
    (natLe 2 kind ++ natLe 2 0 ++ natLe 4 count ++ natLe 8 off ++ d, p ++ body)

/-- What the header says of the whole. -/
structure ImgHead where
  kind : Nat
  maxbolts : Nat
  maxreg : Nat
  maxscr : Nat
  dpos : BitVec 24
  dshape : BitVec 24

/-- An image from its header and its sections; a section without records is left out. -/
def imageBytes (h : ImgHead) (secs : List (Nat × Nat × List Byte)) : List Byte :=
  let secs := secs.filter (fun x => x.2.1 ≠ 0)
  let dirLen := (pad64 (List.replicate (16 * secs.length) 0)).length
  let (d, body) := layOut (128 + dirLen) secs
  let tail := pad64 d ++ body
  natLe 4 imgMAGIC ++ natLe 2 1 ++ natLe 2 h.kind ++ natLe 8 (128 + tail.length) ++ natLe 4 secs.length ++ natLe 4 h.maxbolts ++
    natLe 4 h.maxreg ++ natLe 4 h.maxscr ++ natLe 8 h.dpos.toNat ++ natLe 8 h.dshape.toNat ++
    (Config.sha3 tail ++ List.replicate 64 0).take 64 ++ List.replicate 16 0 ++ tail

/-- An image read back. -/
structure Image where
  head : ImgHead
  digest : List Byte
  span : ImgSpan
  courses : List ImgCourse
  bolts : List ImgBolt
  wefts : List ImgWeft
  copies : List ((Nat × Nat × Nat) × Copy)
  matrix : List ImgMatrix
  seqs : List ImgSeq
  feeds : List ImgFeed
  boxes : List (Nat × Nat × Bool × Kernel)
  pages : List ImgRange

/-- The directory's entries: kind, reserved bytes, count, offset. -/
def imgDir (l : List Byte) : List (Nat × Nat × Nat × Nat) :=
  (List.range (fieldAt l 16 4)).map (fun i =>
    let a := 128 + 16 * i
    (fieldAt l a 2, fieldAt l (a + 2) 2, fieldAt l (a + 4) 4, fieldAt l (a + 8) 8))

/-- Read the records of a kind. -/
def imgSection {α : Type} (l : List Byte) (kind : Nat) (g : List Byte → Option (α × List Byte)) : Option (List α) :=
  match (imgDir l).find? (fun e => e.1 = kind) with
  | none => some []
  | some (_, _, count, off) => (getN g count (l.drop off)).map (·.1)

/-- The checks that give STATUS 9 (R431, R435). -/
def imageOk (l : List Byte) : Bool :=
  let dir := imgDir l
  128 ≤ l.length && fieldAt l 0 4 = imgMAGIC && fieldAt l 4 2 = 1 && fieldAt l 6 2 ≤ 2 && fieldAt l 8 8 = l.length &&
    fieldAt l 112 16 = 0 && fieldAt l 32 8 < 2 ^ 24 && fieldAt l 40 8 < 2 ^ 24 && fieldAt l 16 4 ≤ 10 &&
    (l.drop 48).take 64 = (Config.sha3 (l.drop 128) ++ List.replicate 64 0).take 64 &&
    dir.all (fun e => 1 ≤ e.1 && e.1 ≤ 10 && e.2.1 = 0 && e.2.2.2 % 64 = 0 && e.2.2.2 < l.length) &&
    (dir.map (·.1)).eraseDups.length = dir.length && dir.any (fun e => e.1 = 1 && e.2.2.1 = 1)

/-- Read an image; none where it is not well formed (STATUS 9). -/
def readImage (l : List Byte) : Option Image :=
  if !imageOk l then none
  else
    match imgSection l 1 cImgSpan.get, imgSection l 2 cImgCourse.get, imgSection l 3 cImgBolt.get, imgSection l 4 getWeft,
        imgSection l 5 cImgCopy.get, imgSection l 6 cImgMatrix.get, imgSection l 7 cImgSeq.get, imgSection l 8 cImgFeed.get,
        imgSection l 9 cImgBox.get, imgSection l 10 cImgRange.get with
    | some [sp], some co, some bo, some we, some cp, some ma, some sq, some fe, some bx, some pg =>
      if bo.all (fun b => b.recs.all (fun r => r.ok)) && sp.args.all (fun p => tagValid p.2) &&
          ma.all (fun m => m.slots.all (fun p => tagValid p.2.tag)) then
        some { head := { kind := fieldAt l 6 2, maxbolts := fieldAt l 20 4, maxreg := fieldAt l 24 4, maxscr := fieldAt l 28 4,
                         dpos := BitVec.ofNat 24 (fieldAt l 32 3), dshape := BitVec.ofNat 24 (fieldAt l 40 3) },
               digest := (l.drop 48).take 64, span := sp, courses := co, bolts := bo, wefts := we, copies := cp, matrix := ma,
               seqs := sq, feeds := fe, boxes := bx, pages := pg }
      else none
    | _, _, _, _, _, _, _, _, _, _ => none

end Sys2Proof.Machine
end

