-- ==== Sys2Proof/Machine/Queues.lean ====
section
/-! DEFINITION. The front end (R391 to R403, R412): slots and their fetch, the order in which packets start, the levels of
INDIRECT, loops and skips, and every packet that places no span and takes no image. -/

namespace Sys2Proof.Machine

/-! ## Positions (R388, R392, R400, R402) -/

/-- The sequence number of the packet now executing at the current level. -/
def Queue.pos (q : Queue) : Nat := match q.stack.getLast? with | some l => l.pos | none => q.ridx

/-- Packets of the current level lie below this. -/
def Queue.limit (q : Queue) : Nat := match q.stack.getLast? with | some l => l.count | none => q.widx

/-- Move the current level to a packet. -/
def Queue.setPos (q : Queue) (n : Nat) : Queue :=
  match q.stack.getLast? with
  | some l => { q with stack := q.stack.dropLast ++ [{ l with pos := n }] }
  | none => { q with ridx := n }

/-- The valid byte of a packet (R392). -/
def validByte (n : Nat) : Nat := n % 255 + 1

/-- Levels of INDIRECT (R400). -/
def maxDepth : Nat := 4

/-- Leave the current packet for the next one: a pass of the open loop ends, a level ends with its last packet. The fuel
bounds the levels. -/
def Queue.advance (q : Queue) : Nat → Queue
  | 0 => q
  | fuel + 1 =>
    let n := q.pos
    let passEnds := q.loopn ≠ 0 && q.loopdepth = q.depth && n + 1 = q.loopstart + q.loopn
    if passEnds && q.loopleft ≠ 0 then
      let body (f : FSlot) : Bool := f.level = q.depth && q.loopstart ≤ f.n && f.n < q.loopstart + q.loopn
      { q.setPos q.loopstart with loopleft := q.loopleft - 1, skip := 0, fetched := q.fetched.filter (fun f => !body f) }
    else
      let q : Queue := if passEnds then { q with loopn := 0, loopstart := 0, loopdepth := 0, skip := 0 } else q
      let q := { q.setPos (n + 1) with fetched := q.fetched.filter (fun f => !(f.level = q.depth && f.n ≤ n)) }
      match q.stack.getLast? with
      | none => q
      | some l =>
        if n + 1 < l.count then q
        else
          let up : Queue := { q with stack := q.stack.dropLast, depth := q.depth - 1, skip := 0,
                                     fetched := q.fetched.filter (fun f => f.level < q.depth),
                                     lastPk := Store.erase q.lastPk q.depth }
          up.advance fuel

def Queue.next (q : Queue) : Queue := { q.advance (maxDepth + 1) with phase := .idle }

/-! ## Slots (R392 to R394, R397) -/

/-- What an access to a slot meets: bytes of a ring slot lie at physical addresses. -/
def State.slotRead (s : State) (q : Queue) (level n off len : Nat) : State × HubAns :=
  match level, q.stack[level - 1]? with
  | 0, _ =>
    let pa := q.ring + 256 * (n % q.nslot) + off
    match s.homeRead pa len 8 q.asid with
    | (s, some l) => (s, .ok l)
    | (s, none) => (s, .abort)
  | _, some l => s.hubRead q.asid (l.addr + 256 * n + off) len
  | _, none => (s, .abort)

/-- A slot fetched ahead may show, in each aligned 8 bytes, what it holds in memory by now (R397). -/
def refreshWords (s : State) : List Byte → List Byte → Nat → State × List Byte
  | old, _, 0 => (s, old)
  | old, now, n + 1 =>
    let (s, take) := s.choose
    let (s, rest) := refreshWords s (old.drop 8) (now.drop 8) n
    (s, (if take then now else old).take 8 ++ rest)

/-- Refresh every slot fetched ahead. -/
def State.refreshSlots (s : State) (qid : Nat) : List FSlot → State
  | [] => s
  | f :: rest =>
    let q := s.queue qid
    let s := match s.slotRead q f.level f.n 0 256 with
      | (t, .ok now) =>
        let (t, l) := refreshWords t f.data now 32
        let q := t.queue qid
        t.setQueue qid { q with fetched := q.fetched.map (fun (g : FSlot) => if g.level = f.level && g.n = f.n then { g with data := l } else g) }
      | _ => s
    s.refreshSlots qid rest

/-- The slot at a level, if it is fetched. -/
def Queue.slot (q : Queue) (level n : Nat) : Option (List Byte) :=
  (q.fetched.find? (fun f => f.level = level && f.n = n)).map (·.data)

/-- The current packet's slot. -/
def Queue.current (q : Queue) : Option (List Byte) := if q.pos < q.limit then q.slot q.depth q.pos else none

/-- The trailer and its fields (R393). -/
def trailer (d : List Byte) : Nat := fieldAt d 252 4
def tType (d : List Byte) : Nat := trailer d % 256
def tOrd (d : List Byte) : Nat := trailer d / 256 % 16
def tAcq (d : List Byte) : Nat := trailer d / 4096 % 4
def tRel (d : List Byte) : Nat := trailer d / 16384 % 4
def trailerBad (d : List Byte) : Bool := trailer d / 65536 % 256 ≠ 0 || tAcq d = 3 || tRel d = 3

/-- COMPL of a DISPATCH; one that is no multiple of 16 names no place (R404). -/
def dispatchCompl (d : List Byte) : Nat := if fieldAt d 24 8 % 16 = 0 then fieldAt d 24 8 else 0

/-- A field of the body that must be zero. -/
def zeroAt (d : List Byte) (a b : Nat) : Bool := ((d.drop a).take (b - a)).all (fun x => x = 0)

/-- Slots fetched ahead of the executing packet (R397). -/
def fetchAhead : Nat := 8

/-- Fetch the next slot of the current level: the trailer first, the body when VALID matches. A slot that the current packet
needs and that cannot be read halts the queue. -/
def State.fetchNext (s : State) (qid : Nat) : State :=
  let q := s.queue qid
  let cand := (List.range (fetchAhead + 1)).map (fun i => q.pos + i)
  match cand.find? (fun n => n < q.limit && (q.slot q.depth n).isNone) with
  | none => s
  | some n =>
    let fail (t : State) (err : Nat) : State := if n = q.pos && q.phase = .idle then t.halt qid err 0 else t
    match s.slotRead q q.depth n 252 4 with
    | (t, .ok l) =>
      if leNat l / 2 ^ 24 ≠ validByte n then t
      else (match t.slotRead q q.depth n 0 256 with
        | (t, .ok d) => t.setQueue qid { t.queue qid with fetched := (t.queue qid).fetched ++ [{ level := q.depth, n := n, data := d }] }
        | (t, .hold va) => t.heldOn q.asid va
        | (t, .refused _) => fail t 6
        | (t, .abort) => fail t 8)
    | (t, .hold va) => t.heldOn q.asid va
    | (t, .refused _) => fail t 6
    | (t, .abort) => fail t 8

/-! ## What may start (R391, R395) -/

/-- The front end works on a queue. -/
def Queue.works (q : Queue) : Bool := q.bound && q.en && !q.halted

/-- Every packet of the queue whose stamp meets a condition has completed. -/
def Queue.allDone (q : Queue) (p : Nat → Bool) : Bool := q.running.all (fun r => !p r.2.2) && q.going.all (fun g => !p g.stamp)

/-- ORD lets the current packet start. A FETCHFENCE waits as under ORD 2. -/
def Queue.canStart (q : Queue) (d : List Byte) : Bool :=
  if tType d = 0x08 then q.allDone (fun _ => true)
  else match tOrd d with
    | 0 => true
    | 1 => (match Store.find q.lastPk q.depth with
      | some t => q.allDone (fun x => t ≤ x)
      | none => true)
    | _ => q.allDone (fun _ => true)

/-- A packet of the queue is ready to start. -/
def Queue.executable (q : Queue) : Bool :=
  q.works && q.phase = .idle && q.skip = 0 && (match q.current with | some d => q.canStart d | none => false)

/-- The place of a hardware slot after the one last served. -/
def turnOf (last slot : Nat) : Nat := (slot + 2 * hwSlots - last - 1) % hwSlots

/-- A DISPATCH of the queue can start: its course 0 has a place now (R406). -/
def State.dispatchable (s : State) (q : Queue) : Bool :=
  match q.phase with
  | .dispatching sp => q.works && (s.nextCluster (s.span sp).kernel (s.span sp).cvw).isSome
  | _ => false

/-- It is the queue's turn: no queue that could start a packet is more urgent, none of its class comes before it. -/
def State.myTurn (s : State) (qid : Nat) : Bool :=
  let q := s.queue qid
  let turn (x : Queue) : Nat := turnOf (Store.get (hwSlots - 1) s.feTurn q.cls) x.hwslot
  s.queues.all (fun p => p.1 = qid || q.cls < p.2.cls || (q.cls = p.2.cls && turn q < turn p.2) ||
    !(p.2.executable || s.dispatchable p.2))

/-- The turn is taken. -/
def State.takeTurn (s : State) (qid : Nat) : State :=
  let q := s.queue qid
  { s with feTurn := Store.insert s.feTurn q.cls q.hwslot }

/-- Slots fetched whose packet has not started. -/
def Queue.ahead (q : Queue) : List FSlot :=
  q.fetched.filter (fun f => !(q.phase ≠ .idle && q.phase ≠ .held && f.level = q.depth && f.n = q.pos))

/-! ## Running a packet -/

/-- What running a packet comes to. -/
inductive PkRes where
  /-- Its effects are done. -/
  | done (s : State)
  /-- It is held, on a page if an address is given; nothing of it happens yet. -/
  | held (va : Option Nat := none)
  /-- The queue halts with a code; COMPL is a DISPATCH's. -/
  | err (s : State) (code : Nat) (compl : Nat := 0)
  /-- It has set the queue's phase itself. -/
  | wait (s : State)
  /-- It has started, and goes on while others may start (R395). -/
  | start (s : State) (k : GoKind)

/-- A packet of the current level has started: the stamp that names it. -/
def State.startPk (s : State) (qid : Nat) : Nat × State :=
  let (t, s) := s.stamp
  let q := s.queue qid
  (t, s.setQueue qid { q with lastPk := Store.insert q.lastPk q.depth t })

/-- A packet has started and completed; the next one follows. -/
def State.finishPk (s : State) (qid : Nat) : State :=
  let (_, s) := s.startPk qid
  s.setQueue qid (s.queue qid).next

/-- A packet has started and goes on; the next one follows. -/
def State.goOn (s : State) (qid : Nat) (k : GoKind) : State :=
  let q := s.queue qid
  let n := q.pos
  let d := q.current.getD []
  let (t, s) := s.startPk qid
  let x := (s.queue qid).next
  s.setQueue qid { x with going := x.going ++ [{ stamp := t, kind := k, n := n, data := d, at_ := q.place }] }

/-- Every remote write of a context has been answered; otherwise the markers are sent (R396, R480). -/
def State.domainClean (s : State) (asid : Nat) : State × Bool :=
  let busy := s.fab.egress.any (fun e => e.asid = asid && e.busy) || s.gwBusy asid
  if busy then ((s.markAll asid).1, false) else (s, true)

/-- What follows from running a packet. -/
def State.settle (s : State) (qid : Nat) (r : PkRes) : State :=
  match r with
  | .done t => t.finishPk qid
  | .held va =>
    let s := (va.map (fun a => s.heldOn (s.queue qid).asid a)).getD s
    s.setQueue qid { s.queue qid with phase := .held }
  | .err t code compl => t.halt qid code compl
  | .wait t => t
  | .start t k => t.goOn qid k

/-- What follows for a packet that had started: it completes, goes on, or halts its queue. -/
def State.settleGoing (s : State) (qid : Nat) (g : Going) (r : PkRes) : State :=
  match r with
  | .done t => t.endGoing qid g
  | .held va => (va.map (fun a => s.heldOn (s.queue qid).asid a)).getD s
  | .err t code _ => t.haltGoing qid g code
  | .wait t | .start t _ => t

/-- The release of a started packet is performed, so that it may complete. -/
def State.goClean (s : State) (qid : Nat) (g : Going) : State × Bool :=
  if tRel g.data = 2 then s.domainClean (s.queue qid).asid else (s, true)

/-- Try every started packet of a kind again, the oldest first. -/
def State.retryGoing (s : State) (qid : Nat) (k : GoKind → Bool) (f : State → Queue → Going → PkRes) : State :=
  ((s.queue qid).going.filter (fun g => k g.kind)).foldl (fun (s : State) g =>
    if !(s.queue qid).going.any (fun x => x.stamp = g.stamp) then s
    else match s.goClean qid g with
      | (s, false) => s
      | (s, true) => s.settleGoing qid g (f s (s.queue qid) g)) s

/-- Run the current packet if it is of a type, may start and has its turn. A release at DOMAIN scope is performed first,
unless the packet sees to it itself. -/
def State.packet (s : State) (qid typ : Nat) (own : Bool) (f : State → Queue → List Byte → PkRes) : Out :=
  let q := s.queue qid
  match q.current with
  | none => .next s
  | some d =>
    if !q.works || !(q.phase = .idle || q.phase = .held) || q.skip ≠ 0 || tType d ≠ typ || 3 ≤ tOrd d || !q.canStart d ||
        !s.myTurn qid then .next s
    else
      let s := if typ = 1 then s else s.takeTurn qid
      if trailerBad d then .next (s.halt qid 2 (if typ = 1 then dispatchCompl d else 0))
      else if tRel d = 2 && !own then
        match s.domainClean q.asid with
        | (s, false) => .next (s.settle qid (.held none))
        | (s, true) => .next (s.settle qid (f s q d))
      else .next (s.settle qid (f s q d))

/-- Go on with bytes the hub has read. -/
def hubThen (r : State × HubAns) (f : State → List Byte → PkRes) : PkRes :=
  match r with
  | (s, .ok l) => f s l
  | (_, .hold va) => .held (some va)
  | (s, .refused _) => .err s 6
  | (s, .abort) => .err s 8

/-- A write of the hub as the whole of a packet. -/
def hubDone (r : State × HubAns) : PkRes := hubThen r (fun s _ => .done s)

/-! ## The packets (R398 to R403) -/

/-- NOP. -/
def execNopPacket (qid : Nat) (s : State) : Out :=
  s.packet qid 0x00 false (fun s _ d => if zeroAt d 0 252 then .done s else .err s 2)

/-- The word test of PREDICATE and WAIT; none for another OP. -/
def wordTest (op word mask value : Nat) : Option Bool :=
  let x := word &&& mask
  match op with
  | 0 => some (x = value)
  | 1 => some (x ≠ value)
  | 2 => some (value ≤ x)
  | 3 => some (x < value)
  | _ => none

/-- Read the word of a PREDICATE or WAIT and test it. -/
def testThen (s : State) (q : Queue) (d : List Byte) (f : State → Bool → PkRes) : PkRes :=
  hubThen (s.hubRead q.asid (fieldAt d 0 8) 8) (fun s l =>
    match wordTest (fieldAt d 24 1) (leNat l) (fieldAt d 8 8) (fieldAt d 16 8) with
    | some c => f s c
    | none => .err s 2)

/-- PREDICATE. -/
def execPredicate (qid : Nat) (s : State) : Out :=
  s.packet qid 0x04 false (fun s q d =>
    if 3 < fieldAt d 24 1 || fieldAt d 25 1 = 0 || !zeroAt d 26 252 then .err s 2
    else testThen s q d (fun s c =>
      if c then .done s else .done (s.setQueue qid { s.queue qid with skip := fieldAt d 25 1 })))

/-- LOOP. -/
def execLoop (qid : Nat) (s : State) : Out :=
  s.packet qid 0x05 false (fun s q d =>
    let n := fieldAt d 0 1
    let passes := fieldAt d 1 1
    if n = 0 || passes = 0 || !zeroAt d 2 252 then .err s 2
    else if q.loopn ≠ 0 then .err s 4
    else if q.limit < q.pos + 1 + n then (if q.depth = 0 then .held none else .err s 2)
    else .done (s.setQueue qid { s.queue qid with loopn := n, loopleft := passes - 1, loopdepth := q.depth, loopstart := q.pos + 1 }))

/-- Move lines upwards, one after another. -/
def State.moveLines (s : State) (asid : Nat) : Nat → Nat → Nat → PkRes
  | 0, _, _ => .done s
  | n + 1, src, dst =>
    match s.hubRead asid src 64 with
    | (t, .ok l) =>
      (match t.hubWrite asid dst l with
       | (t, .ok _) => t.moveLines asid n (src + 64) (dst + 64)
       | (_, .hold va) => .held (some va)
       | (t, .refused _) => .err t 6
       | (t, .abort) => .err t 8)
    | (_, .hold va) => .held (some va)
    | (t, .refused _) => .err t 6
    | (t, .abort) => .err t 8

/-- What a WRITE, a SIGNAL or a COPY does, its fields checked; `n` is its sequence number (R403). -/
def State.memPacket (s : State) (asid n : Nat) (d : List Byte) : PkRes :=
  match tType d with
  | 0x06 => hubDone (s.hubWrite asid (fieldAt d 0 8) ((d.drop 8).take (fieldAt d 16 1)))
  | 0x09 => hubDone (s.hubWrite asid (fieldAt d 0 8) ((d.drop 8).take 56 ++ natLe 8 n))
  | _ => s.moveLines asid (fieldAt d 16 8 / 64) (fieldAt d 0 8) (fieldAt d 8 8)

/-- A memory packet starts; whether its writes are performed before the next packet starts is open (R395, R403). -/
def State.memStart (s : State) (q : Queue) (d : List Byte) : PkRes :=
  match s.choose with
  | (s, true) => .start s .writing
  | (s, false) => s.memPacket q.asid q.pos d

/-- A memory packet that has started performs its writes now or later. -/
def State.memGo (s : State) (q : Queue) (g : Going) : PkRes :=
  match s.choose with
  | (s, true) => .wait s
  | (s, false) => s.memPacket q.asid g.n g.data

/-- WRITE. -/
def execWritePacket (qid : Nat) (s : State) : Out :=
  s.packet qid 0x06 false (fun s q d =>
    let n := fieldAt d 16 1
    if !(n = 4 || n = 8) || fieldAt d 0 8 % n ≠ 0 || !zeroAt d 17 252 then .err s 2 else s.memStart q d)

/-- WAIT: the first test; without success the packet has started and waits from now. -/
def execWait (qid now : Nat) (s : State) : Out :=
  (s.advanceTime now).packet qid 0x07 false (fun s q d =>
    if 3 < fieldAt d 24 1 || !zeroAt d 25 32 || !zeroAt d 36 252 then .err s 2
    else testThen s q d (fun s c => if c then .done s else .start s (.waiting s.ltime)))

/-- A WAIT waits. -/
def GoKind.waits : GoKind → Bool
  | .waiting _ => true
  | _ => false

/-- WAIT_POLL. A held page leaves the WAIT as it stands. -/
def execWaitPoll (qid : Nat) (s : State) : Out :=
  .next (s.retryGoing qid GoKind.waits (fun s q g => testThen s q g.data (fun s c => if c then .done s else .wait s)))

/-- A WAIT's TIMEOUT has passed. -/
def Going.late (g : Going) (now : Nat) : Bool :=
  match g.kind with
  | .waiting since => fieldAt g.data 32 4 ≠ 0 && fieldAt g.data 32 4 * 1000 ≤ now - since
  | _ => false

/-- WAIT_TIMEOUT: TIMEOUT has passed since a WAIT began. -/
def execWaitTimeout (qid now : Nat) (s : State) : Out :=
  let s := s.advanceTime now
  match (s.queue qid).going.find? (fun g => g.late s.ltime) with
  | some g => .next (s.haltGoing qid g 5)
  | none => .next s

/-- FETCHFENCE. -/
def execFetchfence (qid : Nat) (s : State) : Out :=
  s.packet qid 0x08 false (fun s _ d =>
    if zeroAt d 0 252 then .done (s.setQueue qid { s.queue qid with fetched := [] }) else .err s 2)

/-- SIGNAL. -/
def execSignalPacket (qid : Nat) (s : State) : Out :=
  s.packet qid 0x09 false (fun s q d =>
    if fieldAt d 0 8 % 64 ≠ 0 || !zeroAt d 64 252 then .err s 2 else s.memStart q d)

/-- COPY. -/
def execCopy (qid : Nat) (s : State) : Out :=
  s.packet qid 0x0A false (fun s q d =>
    if fieldAt d 0 8 % 64 ≠ 0 || fieldAt d 8 8 % 64 ≠ 0 || fieldAt d 16 8 % 64 ≠ 0 || !zeroAt d 24 252 then .err s 2
    else s.memStart q d)

/-- INDIRECT: one more level. -/
def execIndirect (qid : Nat) (s : State) : Out :=
  s.packet qid 0x03 false (fun s q d =>
    let addr := fieldAt d 0 8
    let count := fieldAt d 8 4
    if addr % 256 ≠ 0 || count = 0 || 65536 < count || !zeroAt d 12 252 then .err s 2
    else if maxDepth ≤ q.depth then .err s 3
    else
      let (_, s) := s.startPk qid
      let q := s.queue qid
      .wait (s.setQueue qid { q with stack := q.stack ++ [{ addr := addr, count := count, pos := 0 }], depth := q.depth + 1,
                                     phase := .idle, skip := 0, lastPk := Store.erase q.lastPk (q.depth + 1) }))

/-- The records of a FEED. -/
def feedRecords (d : List Byte) : List (List Byte) :=
  (List.range (fieldAt d 2 1)).map (fun i => (d.drop (8 + 64 * i)).take 64)

/-- Append every record, or none. -/
def State.feedAll (s : State) (fq : Nat) : List (List Byte) → Option State
  | [] => some s
  | r :: rest =>
    match s.feedAppend fq r with
    | (t, 0) | (t, 1) => t.feedAll fq rest
    | _ => none

/-- FEED: it waits until all its records fit. -/
def execFeed (qid : Nat) (s : State) : Out :=
  s.packet qid 0x02 false (fun s q d =>
    let fq := fieldAt d 0 2
    let n := fieldAt d 2 1
    if 255 < fq || n = 0 || 3 < n || !zeroAt d 3 8 || !zeroAt d 200 252 || (s.feed fq).asid ≠ q.asid then .err s 2
    else match s.feedAll fq (feedRecords d) with
      | some t => .done t
      | none => .start s .feeding)

/-- FEED_APPEND_RETRY. -/
def execFeedAppendRetry (qid : Nat) (s : State) : Out :=
  .next (s.retryGoing qid (fun k => k = .feeding) (fun s _ g =>
    match s.feedAll (fieldAt g.data 0 2) (feedRecords g.data) with
    | some t => .done t
    | none => .wait s))

/-- FEED_MOVE. -/
def execFeedMove (q : Nat) (s : State) : Out := .next (s.feedMove1 q)

/-- SLOT_FETCH: memory packets that have started may perform their writes, slots fetched ahead may change, the next one is fetched, a
packet under a skip is passed over, a reserved TYPE or ORD halts the queue. -/
def execSlotFetch (qid : Nat) (s : State) : Out :=
  let s := if (s.queue qid).bound then s.retryGoing qid (fun k => k = .writing) State.memGo else s
  if !(s.queue qid).works then .next s
  else
    let q := s.queue qid
    let s := (s.refreshSlots qid q.ahead).fetchNext qid
    let q := s.queue qid
    match q.current with
    | none => .next s
    | some d =>
      if q.halted || q.phase ≠ .idle then .next s
      else if q.skip ≠ 0 then .next (s.setQueue qid ({ q with skip := q.skip - 1 }).next)
      else if 3 ≤ tOrd d || (0x0E ≤ tType d && q.canStart d) then
        .next (s.halt qid 1 (if tType d = 1 then dispatchCompl d else 0))
      else .next s

/-- The label of queue keys, "K9 QUEUE KEY" (R382). -/
def keyLabel : List Byte := [0x4B, 0x39, 0x20, 0x51, 0x55, 0x45, 0x55, 0x45, 0x20, 0x4B, 0x45, 0x59]

/-- A BIND of the queue has begun and is held by a page: notifies that arrive meanwhile are discarded (R382). -/
def Queue.binding (q : Queue) : Bool := q.phase = .held && q.current.any (fun d => tType d = 0x0D)

/-- BIND: a ciphertext that does not decapsulate gives no secret. -/
def execBind (qid : Nat) (s : State) : Out :=
  s.packet qid 0x0D false (fun s q d =>
    if !zeroAt d 8 252 then .err s 2
    else hubThen (s.hubRead q.asid (fieldAt d 0 8) 1600) (fun s l =>
      match Config.mlkemDecap (natLe 8 s.boot.kemKey ++ l.take 1568) with
      | [] => .err s 7
      | secret =>
        let k := Config.kmac secret (natLe 2 qid ++ l.drop 1568 ++ keyLabel)
        .done (s.setQueue qid { s.queue qid with key := some k, lastseq := 0 })))

end Sys2Proof.Machine
end

