-- ==== Sys2Proof/Machine/Service.lean ====
section
/-! DEFINITION. The package's service: error records and fault counting (R361 to R368), repair (R331 to R334, R454, R455),
harts and the take-over (R370, R387, R422, R423, R426), boot (R448 to R450), attestation (R380, R381), management, power
and thermal steps (R451 to R453). -/

namespace Sys2Proof.Machine

/-! ## The device's report of itself (R334, R371, R451) -/

/-- The device reports itself degraded. -/
def State.degrade (s : State) : State := { s with degraded := true }

/-- The clusters in service, the active cores of the device with them (R334), and the spares left in the cluster with the fewest. -/
def State.activeClusters (s : State) : List Nat := (List.range 8).filter (fun c => (s.cluster c).inService)
def State.activeCores (s : State) : Nat := 256 * s.activeClusters.length
def State.fewestSpares (s : State) : Nat :=
  (s.activeClusters.map (fun c => (s.cluster c).spares.length)).foldl min 8

/-- DEGR (R451). -/
def State.degrWord (s : State) : Dword :=
  BitVec.ofNat 64 (s.degraded.toNat + 2 ^ 8 * s.fewestSpares + 2 ^ 16 * s.activeClusters.length)

/-- A line of the placement table (R371): a resident bolt, where it stands, and the lane group of each of its active wefts. -/
structure PlaceRow where
  bolt : Nat
  die : Nat
  cluster : Nat
  logical : Nat
  physical : Nat
  lanes : List (Nat × Nat)
  deriving DecidableEq, Repr

/-- The placement table: an active weft's lane group is its barrel slot (R86). -/
def State.placementTable (s : State) : List PlaceRow :=
  (s.bolts.filter (fun p => !p.2.out && !s.courseOver p.2.course)).map (fun p =>
    { bolt := p.1, die := p.2.core / 512, cluster := p.2.core / 256, logical := p.2.core % 256, physical := s.physOf p.2.core,
      lanes := (s.weftsOf p.1).filterMap (fun h => ((s.weft h).slot).map (fun i => (h, i))) })

/-! ## Repair (R332, R334, R368, R454, R455) -/

/-- A bolt whose image is needed: its course is not over and its span has not been killed. -/
def State.boltLives (s : State) (b : Bolt) : Bool :=
  !b.out && !(s.course b.course).handler && !s.courseOver b.course && (s.span (s.course b.course).span).ending ≠ .killed

/-- The bolts that stand on a core, handlers' left out. -/
def State.boltsAt (s : State) (n : Nat) : List Nat :=
  (s.bolts.filter (fun p => p.2.core = n && s.boltLives p.2)).map (·.1)

/-- The state of a bolt can be read whole: its scratchpad, its wefts' registers and its slots (R333). -/
def State.boltReadable (s : State) (b : Nat) : Bool :=
  (s.bolt b).spBad.isEmpty && (s.weftsOf b).all (fun h => (s.weft h).bad.isEmpty) &&
    (s.core (s.bolt b).core).slots.all (fun p => p.2.bad.isEmpty || !p.2.owner.any (fun h => (s.weft h).bolt = b))

/-- The supervisor kills the contexts of bolts whose state cannot be read whole (R333; killing rather than restoring is a DESIGN CHOICE,
log 152). -/
def State.killUnreadable (s : State) (bs : List Nat) : State :=
  (((bs.filter (fun b => !s.boltReadable b)).map (fun b => s.boltAsid b)).eraseDups).foldl (fun (s : State) a => s.killCtx a) s

/-- What a core alone holds leaves with its position: its update-only copies go home; its L1, its instruction cache, its TLB and its
victim tags are empty. -/
def State.emptyCaches (s : State) (n : Nat) : State :=
  let s := ((s.core n).upd.map (fun e => e.pa / 64)).eraseDups.foldl (fun (s : State) l => s.recall l) s
  let s := s.setCore n { s.core n with l1 := [], l1Bad := [], icache := [], icBad := [], victims := [] }
  { s with tlb := s.tlb.filter (fun t => t.core ≠ n) }

/-- A cluster without a spare leaves service: the bolts of its courses leave their cores, to be placed elsewhere. -/
def State.clusterLeaves (s : State) (c : Nat) : State :=
  let mine (s : State) : List Nat := (s.bolts.filter (fun p => p.2.core / 256 = c && s.boltLives p.2)).map (·.1)
  let s := s.killUnreadable (mine s)
  let s := ((s.cores.map (·.1)).filter (fun n => n / 256 = c)).foldl (fun (s : State) n => s.emptyCaches n) s
  let s : State := { s with clusters := Store.insert s.clusters c { s.cluster c with inService := false } }
  ((mine s).foldl (fun (s : State) b => s.boltOff b) s).degrade

/-- Retire a core position (R332): its bolts leave it and are planted on the spare, which takes its logical number. -/
def State.retirePosition (s : State) (n : Nat) : State :=
  let c := n / 256
  if !(s.cluster c).inService then s
  else match (s.cluster c).spares with
    | [] => s.clusterLeaves c
    | p :: rest =>
      let s := s.killUnreadable (s.boltsAt n)
      let bs := s.boltsAt n
      let s := bs.foldl (fun (s : State) b => s.boltOff b) (s.emptyCaches n)
      let k := s.cluster c
      let s : State := { s with clusters := Store.insert s.clusters c { k with phys := Store.insert k.phys (n % 256) p, spares := rest } }
      (bs.foldl (fun (s : State) b => s.boltOn b) s).admitWefts n

/-- A physical position of a cluster is lasting: the logical position that stands there retires; a spare is one no longer. -/
def State.retirePhysical (s : State) (c p : Nat) : State :=
  let k := s.cluster c
  if k.spares.contains p then { s with clusters := Store.insert s.clusters c { k with spares := k.spares.filter (fun x => x ≠ p) } }
  else match (List.range 256).find? (fun i => s.physOf (256 * c + i) = p) with
    | some i => s.retirePosition (256 * c + i)
    | none => s

/-- Spare rows of a bank. -/
def spareRows : Nat := 8

/-- A row is mapped to a spare row of its bank; `idx` is the bank and the row in it. -/
def State.repairRow (s : State) (die idx : Nat) : State :=
  let bank := idx / 65536
  if spareRows ≤ (s.repairs.filter (fun r => r.1 = die && r.2.1 = bank)).length then s.degrade
  else { s with repairs := s.repairs ++ [(die, bank, idx % 65536)] }

/-- The stack and the DRAM die of it that a unit of class 5 names. -/
def dramDie (die idx : Nat) : Nat × Nat := (die * 4 + idx / 16 % 4, idx % 16)

/-- A DRAM die's share is erased; a second one of its stack makes every line that touches it uncorrectable. -/
def State.eraseDie (s : State) (die idx : Nat) : State :=
  let (st, d) := dramDie die idx
  let before := s.units.any (fun u => u.cls = 5 && u.lasting && (dramDie u.die u.idx).1 = st && (dramDie u.die u.idx).2 ≠ d)
  if before then ({ s with deadDies := s.deadDies ++ [(st, d)] } : State).degrade else s

def State.port (s : State) (n : Nat) : Port := Store.get Port.reset s.fab.ports n
def State.setPort (s : State) (n : Nat) (p : Port) : State := { s with fab := { s.fab with ports := Store.insert s.fab.ports n p } }

/-- The linear coordinate index of a position (R462). -/
def State.linear (s : State) (p : BitVec 24) : Nat :=
  ((List.range 6).foldl (fun (a : Nat × Nat) d => (a.1 + coord p d * a.2, a.2 * s.extent d)) (0, 1)).1

/-- This device's 16-byte entry in its topology map (R462). -/
def State.topoEntry (s : State) : List Byte :=
  let health := (List.range 12).foldl (fun a p => if (s.port p).up then a + 2 ^ p else a) 0
  (Config.serial ++ List.replicate 8 0).take 8 ++ natLe 2 health ++ natLe 1 (if s.degraded then 2 else 1) ++ List.replicate 5 0

/-- Put an entry into the map; its generation rises. -/
def State.putMap (s : State) (i : Nat) (l : List Byte) : State :=
  { s with fab := { s.fab with topo := Store.put [] s.fab.topo i l, topoGen := s.fab.topoGen + 1 } }

/-- One usable route for each device of the route table. -/
def State.peers (s : State) : List (Nat × RtEnt) :=
  (s.routesHeld.foldl (fun (acc : List (Nat × RtEnt) × List Nat) r =>
    let e := (s.route r).2
    let d := (s.destOf e.rcoord).toNat
    if e.valid && !e.broken && !e.gw && !acc.2.contains d then (acc.1 ++ [(r, e)], d :: acc.2) else acc) ([], [])).1

/-- The supervisor tells every device of its route table how its ports stand. -/
def State.tellPeers (s : State) : State :=
  s.peers.foldl (fun (s : State) x =>
    let (t, s) := s.newTag
    s.emit (s.mkRequest x.2 x.1 tLINKSTATE false 0 16 t s.topoEntry)) s

/-- A port goes up or down: the event, the supervisor's map and the LINKSTATE packets (R462). -/
def State.portChange (s : State) (port : Nat) (up : Bool) : State :=
  let s := s.setPort port { s.port port with up := up }
  let s := s.event 5 3 (port + (if up then 256 else 0))
  (s.putMap (s.linear s.fpos) s.topoEntry).tellPeers

/-- A lane of a port is lasting: the ninth lane takes its place, or the port is dead (R455, R456). -/
def State.laneLost (s : State) (port : Nat) : State :=
  let p := s.port port
  if !p.spareUsed then s.setPort port { p with spareUsed := true }
  else (s.portChange port false).degrade

/-! ## Harts (R387, R422 to R426) -/

def State.qcore (s : State) (h : Nat) : QCore := Store.get { held := none, kicked := 0, restarts := 0, retired := false } s.qcores h
def State.setQcore (s : State) (h : Nat) (q : QCore) : State := { s with qcores := Store.insert s.qcores h q }

/-- The event a queue core holds goes back to the head of its queue's order. -/
def State.giveBack (s : State) (h : Nat) : State :=
  let q := s.qcore h
  match q.held with
  | some e => { s.setQcore h { q with held := none } with evq := e :: s.evq }
  | none => s

/-- A span has completed and its record waits for a release. -/
def Span.held (x : Span) : Bool := x.completed.isSome && !x.released && !x.recorded

/-- The standby takes over (R426): pending kicks bind their queues, held completions are released; interrupts not yet taken come to
it. -/
def State.takeOver (s : State) : State :=
  if !s.sup.standby then s.degrade
  else
    let old := s.hart s.sup.active
    let s : State := { s with sup := { s.sup with active := 5 - s.sup.active, standby := false } }
    let x := s.hart s.sup.active
    let s := s.setHart s.sup.active { x with irqTrap := x.irqTrap || old.irqTrap, irqErr := x.irqErr || old.irqErr }
    let s := s.kicks.foldl (fun (s : State) q =>
      match (List.range hwSlots).find? (fun k => s.slotFree k) with
      | some k => s.bindSlot q k
      | none => s) s
    (s.spans.filter (fun p => p.2.held)).foldl (fun (s : State) p => s.commit (.release p.1)) s

/-- SUPERVISOR_TAKEOVER. -/
def execSupervisorTakeover (s : State) : Out := .next s.takeOver

/-- A hart is retired. -/
def State.retireHart (s : State) (h : Nat) : State := s.setHart h { s.hart h with st := .retired }

/-- A hart is lasting (R387). -/
def State.hartLost (s : State) (h : Nat) : State :=
  let s := s.retireHart h
  if h < 2 then (if s.units.any (fun u => u.cls = 7 && u.lasting && u.idx = 1 - h) then s.degrade else s)
  else if h < 4 then
    (if s.sup.active = h then s.takeOver else ({ s with sup := { s.sup with standby := false } } : State).degrade)
  else (s.giveBack h).setQcore h { (s.giveBack h).qcore h with retired := true }

/-! ## Counting (R366, R367) -/

/-- A class's window word: THRESH 4 and WINDOW 600 after reset. -/
def State.window (s : State) (cls : Nat) : Dword := Store.get (BitVec.ofNat 64 (600 * 65536 + 4)) s.windows cls
def threshOf (x : Dword) : Nat := x.toNat % 16
def windowOf (x : Dword) : Nat := x.toNat / 65536 % 2 ^ 20

/-- Times a unit keeps. -/
def keptTimes : Nat := 15

/-- A unit's record. -/
def State.unitAt (s : State) (cls die idx : Nat) : UnitRec :=
  (s.units.find? (fun u => u.cls = cls && u.die = die && u.idx = idx)).getD
    { cls := cls, die := die, idx := idx, times := [], lasting := false }
def State.setUnit (s : State) (u : UnitRec) : State :=
  { s with units := s.units.filter (fun x => !(x.cls = u.cls && x.die = u.die && x.idx = u.idx)) ++ [u] }

/-- The action of a class (R366). -/
def State.unitAction (s : State) (u : UnitRec) : State :=
  match u.cls with
  | 1 | 2 => s.retirePhysical (u.die * 2 + u.idx / 264) (u.idx % 264)
  | 4 => s.repairRow u.die u.idx
  | 5 => s.eraseDie u.die u.idx
  | 6 => s.laneLost (u.idx / 16)
  | 7 => s.hartLost u.idx
  | _ => s

/-- Times kept within a window. -/
def inWindow (w : Dword) (now : Nat) (l : List Nat) : List Nat := l.filter (fun t => now ≤ t + windowOf w * 1000000000)

/-- Events of a DRAM die count once they lie on three rows of it or more (R366). -/
def State.dieCounts (s : State) (die idx : Nat) : Bool :=
  3 ≤ (s.units.filter (fun u => u.cls = 4 && u.die = die && Config.rowDie die u.idx % 64 = idx &&
    !(inWindow (s.window 5) s.ltime u.times).isEmpty)).length

/-- Count an event of a unit now; `atOnce` makes the unit lasting without counting, and `enough` lets it become lasting. -/
def State.countOne (s : State) (cls die idx : Nat) (atOnce enough : Bool) : State :=
  let u := s.unitAt cls die idx
  let w := s.window cls
  let kept := inWindow w s.ltime (u.times ++ [s.ltime])
  let kept := kept.drop (kept.length - keptTimes)
  let u' : UnitRec := { u with times := kept, lasting := u.lasting || atOnce || (enough && threshOf w ≤ kept.length) }
  let s := s.setUnit u'
  if u'.lasting && !u.lasting then s.unitAction u' else s

/-- FAULT_WINDOW_CHECK: count an event of a unit now; an event of an HBM row is one of its DRAM die's as well (R366). -/
def State.countUnit (s : State) (cls die idx : Nat) (atOnce : Bool) : State :=
  let s := s.countOne cls die idx atOnce true
  if cls = 4 then
    let d := Config.rowDie die idx % 64
    s.countOne 5 die d false (s.dieCounts die d)
  else s

/-- An address lies in the instruction memory of the supervisor's harts: in the body of its image (R380, R387). -/
def State.supervisorCode (s : State) (pa : Nat) : Bool :=
  match s.boot.loaded[1]? with
  | some (load, size, _) => load ≤ pa && pa < load + size
  | none => false

/-- An error that makes its unit lasting at once (R366): a register-file header's, the instruction memory's of the active supervisor
hart (R387). -/
def State.atOnce (s : State) (e : ErrRec) : Bool :=
  e.kind = 1 && ((e.cls = 1 && Config.headerAt e.pa) || (e.cls = 7 && e.idx = s.sup.active && s.supervisorCode e.pa))

/-- The 64 bytes of an error record (R365). -/
def errRecord (e : ErrRec) : List Byte :=
  natLe 8 e.seq ++ natLe 8 e.pa ++ natLe 2 (e.cls % 16 * 4096 + e.die % 4 * 1024 + e.idx % 1024) ++ natLe 1 e.kind ++
    natLe 1 e.consumer ++ natLe 2 e.asid ++ natLe 2 0 ++ natLe 8 e.time ++ List.replicate 32 0

/-- The event that waits for its record and is the one `e` names. -/
def State.errPending (s : State) (e : ErrIn) : Option ErrRec :=
  s.errWait.find? (fun r => r.pa = e.pa && r.kind = e.kind && r.consumer = e.consumer)

/-- An error detected now by a unit whose storage the state does not show: a corrected one, a control state's. -/
def State.errNow (s : State) (e : ErrIn) : ErrRec × State :=
  let r : ErrRec := { seq := s.nextSeq, pa := e.pa, cls := e.cls, die := e.die, idx := e.idx, kind := e.kind, consumer := e.consumer,
                      asid := e.asid, time := s.ltime }
  let t := s.event 0 (e.kind + 256 * e.consumer) e.pa
  (r, if e.kind = 1 || e.kind = 3 then t.irqErr else t)

/-- ERROR_RECORD: the record of an event detected earlier, with what its unit saw then, or of an error detected now, which is numbered
now. -/
def execErrorRecord (e : ErrIn) (s : State) : Out :=
  let s := s.advanceTime e.now
  let (r, s) : ErrRec × State := match s.errPending e with
    | some r => (r, { s with errWait := s.errWait.erase r })
    | none => s.errNow e
  let s : State := { s with errRing := s.errRing ++ [errRecord r] }
  if r.kind ≤ 2 && 1 ≤ r.cls && r.cls ≤ 7 then .next (s.countUnit r.cls r.die r.idx (s.atOnce r)) else .next s

/-- LATERAL_LINK_RETRY: a retried error counts toward its link; a lasting link is routed around, which only times show. -/
def execLateralLinkRetry (link now : Nat) (s : State) : Out :=
  .next ((s.advanceTime now).countUnit 3 (link / 65536) (link % 65536) false)

/-- An uncorrectable word of a vault at an address of the core aperture. -/
def State.vaultWordAt (s : State) (pa : Nat) : Option ErrAt :=
  s.courses.findSome? (fun p => (p.2.vBad.map (fun u => ErrAt.vault p.1 (8 * u))).find? (fun x => (s.errPlace x).1 = pa / 8 * 8))

/-- PATROL_SCRUB: the scrubber reads a line of HBM or a word of a vault, at its address in the core aperture. -/
def execPatrolScrub (pa now : Nat) (s : State) : Out :=
  let s := s.advanceTime now
  if pa < hbmSize then .next (if s.lineBad pa then s.lineEvent 0 0 (pa / 64 * 64) else s)
  else match s.vaultWordAt pa with
    | some x => .next (s.errEvent 1 0 0 x)
    | none => .next (if s.aperBad.contains (pa / 8) then s.errEvent 1 0 0 (.hub (pa / 8 * 8)) else s)

/-- HBM_STACK_LOSS: a stack's addresses answer with abort completions from now on. -/
def execHbmStackLoss (stack : Nat) (s : State) : Out :=
  if stack < 16 then
    .next ({ s with lostStacks := if s.lostStacks.contains stack then s.lostStacks else s.lostStacks ++ [stack] } : State).degrade
  else .next s

/-- The mode of a hart's code (R369). -/
def hartMode (h : Nat) : HMode := if h < 2 then .m else if h < 4 then .s else .u

/-- A mode reaches a resource (R370). -/
def mayReach (md : HMode) (r : HubRes) (write : Bool) : Bool :=
  match r, md with
  | .secrets, .m => true
  | .secrets, _ => false
  | .sram, .u | .tables, .u | .fabric, .u | .placement, .u => false
  | .placement, _ => !write
  | .ltime, _ => !write
  | .queues, _ => true
  | .sram, _ | .tables, _ | .fabric, _ => true
  | .other, _ => false

/-- A hart takes an access fault, which the monitor counts in class 7 (R370). -/
def State.accessFault (s : State) (hart : Nat) (write : Bool) : State :=
  (s.setHart hart { s.hart hart with fault := some write }).countUnit 7 0 hart false

/-- HUB_ACCESS_FAULT: an access outside a hart's resources, once the monitor has set the protection. -/
def execHubAccessFault (hart : Nat) (res : HubRes) (write : Bool) (now : Nat) (s : State) : Out :=
  let s := s.advanceTime now
  if 16 ≤ hart || !s.boot.locked || mayReach (hartMode hart) res write then .next s else .next (s.accessFault hart write)

/-- What a hart reads of the placement table: nothing in U mode (R371). -/
def State.readPlacement (s : State) (hart : Nat) : Option (List PlaceRow) :=
  if mayReach (hartMode hart) .placement false then some s.placementTable else none

/-- A hart that is a queue core. -/
def isQueueCore (h : Nat) : Bool := 4 ≤ h && h < 16

/-- A queue core holds an event of a queue. -/
def State.queueLocked (s : State) (qid : Nat) : Bool := s.qcores.any (fun p => p.2.held.any (fun e => e.sub = qid))

/-- EVENT_DISPATCH: a queue core commits the event it holds, which frees its queue's lock, and takes the oldest one whose
lock is free. -/
def execEventDispatch (hart : Nat) (s : State) : Out :=
  let q := s.qcore hart
  if !isQueueCore hart || q.retired || !s.booted then .next s
  else
    let s := s.setQcore hart { q with held := none }
    match s.evq.find? (fun e => !s.queueLocked e.sub) with
    | none => .next s
    | some e => .next { s.setQcore hart { s.qcore hart with held := some e } with evq := s.evq.erase e }

/-- QUEUE_CORE_WATCHDOG: a queue core kicks its watchdog; out of its window the core restarts and its event goes back. -/
def execQueueCoreWatchdog (hart now : Nat) (s : State) : Out :=
  let s := s.advanceTime now
  let q := s.qcore hart
  if !isQueueCore hart || q.retired || !s.booted then .next s
  else
    let gap := s.ltime - q.kicked
    if gap < 5000 || 500000 < gap then
      let s := s.giveBack hart
      let s := s.setQcore hart { s.qcore hart with kicked := s.ltime, restarts := q.restarts + 1 }
      .next (s.countUnit 7 0 hart false)
    else .next (s.setQcore hart { q with kicked := s.ltime })

/-! ## Boot (R380, R448 to R450) -/

/-- Magic number of a firmware image. -/
def fwMagic : Nat := 0x5746394B

/-- What the check of a firmware image answers: the failure code, or its SVN and the digest of its header. -/
def fwCheck (kind svnMin : Nat) (l : List Byte) : Nat ⊕ (Nat × List Byte) :=
  let h := Config.sha3 (l.take 104)
  let size := fieldAt l 24 8
  let body := (l.drop 8192).take size
  let svn := fieldAt l 8 4
  if fieldAt l 0 4 ≠ fwMagic || fieldAt l 4 4 ≠ kind || fieldAt l 12 4 ≠ 0 || ((l.drop 4731).take 3461).any (fun x => x ≠ 0) ||
      l.length < 8192 + size || (l.drop 40).take 64 ≠ Config.sha3 body then .inl 3
  else if !Config.mldsaVerify 0 h ((l.drop 104).take 4627) then .inl 4
  else if svn < svnMin then .inl 5
  else .inr (svn, h)

/-- A measurement before anything is measured. -/
def measZero : List Byte := List.replicate 64 0

/-- Check and measure the image of a kind; a staged one comes first. The failure code, or the image and the boot state with it in
place. -/
def Boot.load (b : Boot) (offered : List (List Byte)) (kind : Nat) : Nat ⊕ (List Byte × Boot) :=
  match (b.staged ++ offered).find? (fun l => fieldAt l 4 4 = kind) with
  | none => .inl 3
  | some l =>
    match fwCheck kind (b.svnMin.getD (kind - 1) 0) l with
    | .inl c => .inl c
    | .inr (svn, h) =>
      let m := b.meas.getD (kind - 1) measZero
      .inr (l, { b with meas := b.meas.set (kind - 1) (Config.sha3 (m ++ h)), svn := b.svn.set (kind - 1) svn,
                        loaded := b.loaded ++ [(fieldAt l 16 8, fieldAt l 24 8, fieldAt l 32 8)] })

/-- Load the image of a kind: its body stands at LOAD (R380). -/
def State.loadImage (s : State) (offered : List (List Byte)) (kind : Nat) : Nat ⊕ State :=
  match s.boot.load offered kind with
  | .inl c => .inl c
  | .inr (l, b) => .inr (({ s with boot := b } : State).hubPutBytes (fieldAt l 16 8) ((l.drop 8192).take (fieldAt l 24 8)))

/-- Load several kinds in order. -/
def State.loadImages (s : State) (offered : List (List Byte)) : List Nat → Nat ⊕ State
  | [] => .inr s
  | k :: rest =>
    match s.loadImage offered k with
    | .inl c => .inl c
    | .inr s => s.loadImages offered rest

/-- A hart runs the image of a kind from its ENTRY. -/
def State.startHart (s : State) (h kind : Nat) : State :=
  s.setHart h { s.hart h with st := .running, entry := ((s.boot.loaded[kind - 1]?).map (fun x => x.2.2)).getD 0 }

/-- BOOTST (R450). -/
def bootWord (lt : BitVec 32) (code step : Nat) : Dword := BitVec.ofNat 64 (lt.toNat * 2 ^ 32 + code * 256 + step)

/-- The boot stops at a step. -/
def State.bootStop (s : State) (b : BootIn) (code step : Nat) : State :=
  { s with boot := { s.boot with bootst := bootWord b.ltboot code step } }

/-- The cap of PCAP in watts (R449). -/
def strapCap (x : Nat) : Nat := max 1800 (3600 - 200 * (x % 16))

/-- The clusters that step 6 finds, each with its sound positions: the first 256 are numbered, the rest are spares (R302). Which
positions are sound beside how many, is not said: the last ones are not (DESIGN CHOICE, log 153). -/
def bootClusters (l : List Nat) : Store Cluster :=
  (l.take 8).zipIdx.map (fun p => (p.2, { vsplit := 0, phys := [], spares := (List.range (min 8 (p.1 - 256))).map (fun i => 256 + i),
                                          inService := decide (256 ≤ p.1) }))

/-- Step 8: hart 1 is released, the supervisor and the queue cores start. -/
def State.bootEnd (s : State) (b : BootIn) : State :=
  if !b.supervisorOk then s.bootStop b 9 7
  else
    let qs : Store QCore := (List.range 12).map (fun i => (i + 4, { held := none, kicked := 0, restarts := 0, retired := false }))
    let s := (s.startHart 1 1).startHart 2 2 |>.startHart 3 2
    let s := ((List.range 12).map (fun i => i + 4)).foldl (fun (s : State) h => s.startHart h 3) s
    { s with qcores := qs, boot := { s.boot with bootst := bootWord b.ltboot 0 8 } }

/-- Step 7: ports. -/
def State.bootPorts (s : State) (b : BootIn) : State :=
  if b.portsOk = 0 && b.gatesOk = 0 then s.bootStop b 8 6
  else
    let ports : Store Port := (List.range 12).map (fun i => (i, { Port.reset with up := b.portsOk.getLsbD i }))
    let s : State := { s with fab := { s.fab with ports := ports, gwmode := b.gwModes },
                              degraded := s.degraded || b.portsOk ≠ 0xFFF || b.gatesOk ≠ 0xF }
    s.bootEnd b

/-- Step 6: clusters and their positions. -/
def State.bootDies (s : State) (b : BootIn) : State :=
  let cs := bootClusters b.activePos
  if !cs.any (fun p => p.2.inService) then s.bootStop b 7 5
  else
    let cs := if cs.length < 8 then
        cs ++ (List.range (8 - cs.length)).map (fun i => (cs.length + i, { vsplit := 0, phys := [], spares := [], inService := false }))
      else cs
    ({ s with clusters := cs, degraded := s.degraded || cs.any (fun p => !p.2.inService) } : State).bootPorts b

/-- Step 5: the other three images. -/
def State.bootLoad (s : State) (b : BootIn) : State :=
  match s.loadImages b.images [2, 3, 4] with
  | .inl c => s.bootStop b c 4
  | .inr s => s.bootDies b

/-- Step 4: stacks, at least one per loom die. -/
def State.bootHbm (s : State) (b : BootIn) : State :=
  let good (i : Nat) : Bool := b.stacksOk.getLsbD i
  if !(List.range 4).all (fun d => (List.range 4).any (fun k => good (4 * d + k))) then s.bootStop b 6 3
  else
    let lost := (List.range 16).filter (fun i => !good i)
    ({ s with lostStacks := lost, degraded := !lost.isEmpty } : State).bootLoad b

/-- Steps 1 to 3; the monitor then runs on hart 0, makes its key and locks the hub's memory protection (R370, R381). -/
def State.bootStart (s : State) (b : BootIn) : State :=
  if !b.clocksOk || 128 ≤ b.straps.toNat then s.bootStop b 1 0
  else
    let s : State := { s with boot := { s.boot with straps := b.straps.zeroExtend 64 },
                              power := { s.power with cap := strapCap b.straps.toNat } }
    if !b.fuseParityOk then s.bootStop b 2 1
    else match s.loadImage b.images 1 with
      | .inl c => s.bootStop b c 2
      | .inr s => (({ s with boot := { s.boot with kemKey := s.boot.kemKey + 1, locked := true } } : State).startHart 0 1).bootHbm b

/-- What a reset, and a loss of power, leaves: the fused minimums, the staged images, the row-repair maps; the count of
boots and of free values go on. -/
def State.kept (s : State) : State :=
  { State.reset with
    boot := { State.reset.boot with svnMin := s.boot.svnMin, staged := s.boot.staged, kemKey := s.boot.kemKey,
                                    meas := List.replicate 4 measZero, svn := List.replicate 4 0 },
    repairs := s.repairs, free := s.free }

/-- DEVICE_RESET. -/
def execDeviceReset (b : BootIn) (s : State) : Out := .next (s.kept.bootStart b)

/-- The monitor runs: step 3 has completed. -/
def State.monitorRuns (s : State) : Bool := 3 ≤ s.boot.bootst.toNat % 16

/-- ATTESTATION_REPORT (R381). -/
def execAttestationReport (nonce : List Byte) (s : State) : Out :=
  if nonce.length = 64 && s.monitorRuns then
    let b := s.boot
    let r := nonce ++ Config.serial ++ b.meas.flatten ++ b.svn.flatMap (natLe 4) ++ Config.sha3 (Config.kemPublic b.kemKey) ++
      natLe 8 s.ltime
    .next { s with sup := { s.sup with attest := s.sup.attest ++ [r ++ Config.mldsaSign (Config.sha3 r)] } }
  else .next s

/-- SVN_MINIMUM_RAISE: the owner's signed command names the kind in its first four bytes. -/
def execSvnMinimumRaise (kind : Nat) (cmd sig : List Byte) (s : State) : Out :=
  let b := s.boot
  if 1 ≤ kind && kind ≤ 4 && s.monitorRuns && fieldAt cmd 0 4 = kind && Config.mldsaVerify 1 cmd sig then
    let mins := (List.range 4).map (fun i =>
      if i + 1 = kind then max (b.svnMin.getD i 0) (b.svn.getD i 0) else b.svnMin.getD i 0)
    .next { s with boot := { b with svnMin := mins } }
  else .next s

/-- PLDM_FIRMWARE_UPDATE: an image is staged in place of an earlier one of its kind; the next reset checks it. -/
def execPldmFirmwareUpdate (image : List Byte) (s : State) : Out :=
  .next { s with boot := { s.boot with staged := s.boot.staged.filter (fun l => fieldAt l 4 4 ≠ fieldAt image 4 4) ++ [image] } }

/-! ## Power (R452, R453) -/

/-- The highest step whose trigger holds, step 4 left out: power in watts, the hottest junction in °C. -/
def Power.trigger (p : Power) (watts temp now : Nat) : Nat :=
  let one := p.cap < watts || 95 ≤ temp
  if 103 ≤ temp then 3
  else if 100 ≤ temp || (one && p.pstep = 1 && 10000000 ≤ now - p.stepSince) then 2
  else if one then 1
  else 0

/-- The next clock step: down at once, up by one step after 10 ms without a trigger. -/
def Power.next (p : Power) (watts temp now : Nat) : Power :=
  let t := p.trigger watts temp now
  let p : Power := { p with hotSince := if 108 ≤ temp then some (p.hotSince.getD now) else none }
  if t ≠ 0 then
    if p.pstep < t then { p with pstep := t, stepSince := now, clearSince := now } else { p with clearSince := now }
  else if p.pstep ≠ 0 && 10000000 ≤ now - p.clearSince then
    { p with pstep := p.pstep - 1, stepSince := now, clearSince := now }
  else p

/-- PSTEP_EVAL. At 108 °C for 1 ms the module powers off and all state is lost. -/
def execPstepEval (watts temp : Nat) (now : Nat) (s : State) : Out :=
  let s := s.advanceTime now
  let p := s.power.next watts temp s.ltime
  if p.hotSince.any (fun t => 1000000 ≤ s.ltime - t) then
    .next { s.kept with power := { State.reset.power with pstep := 4, off := true } }
  else .next { s with power := p }

/-- POWER_CAP_CALL: clamped to the range of the caps. -/
def execPowerCapCall (watts : Nat) (s : State) : Out :=
  .next { s with power := { s.power with cap := min 3600 (max 1800 watts), capSet := true } }

end Sys2Proof.Machine
end

