-- ==== Sys2Proof/Machine/Spans.lean ====
section
/-! DEFINITION. Spans from their DISPATCH to their completion record (R404 to R408, R224, R304 to R306, R425), and the
supervisor's deadlines (R444). -/

namespace Sys2Proof.Machine

/-! ## Placement (R406) -/

/-- The cluster is given the course's split. -/
def State.setSplit (s : State) (k split : Nat) : State :=
  { s with clusters := Store.insert s.clusters k { s.cluster k with vsplit := BitVec.ofNat 3 split } }

/-- Launch one bolt of a course: its wefts join the admission queue. -/
def State.launchBolt (s : State) (k : Kernel) (args : List (Dword × BitVec 6)) (course id core : Nat) : State :=
  let b := Store.fresh s.bolts
  let s := s.setBolt b (Bolt.launch k course id core)
  (List.range k.wefts).foldl (fun (s : State) i => (s.addWeft ((Weft.launch k b i).withArgs args)).2) s

/-- An acquire by the cores of a placement, if the packet has one. -/
def State.acquireCores (s : State) (x : Span) (cores : List Nat) : State :=
  if x.rel / 4 = 0 then s else cores.foldl (fun (s : State) n => s.acquireL1 n) s

/-- Launch the next course of a span on cores that take it. -/
def State.launchCourse (s : State) (sp : Nat) (cores : List Nat) : State :=
  let x := s.span sp
  let k := x.kernel
  let cl := cores.headD 0 / 256
  let c := Store.fresh s.courses
  let s := s.setSplit cl (cvwSplit x.cvw)
  let s := s.setCourse c { Course.absent with
    span := sp, id := x.placed, cluster := cl, nbolts := k.bolts, vlen := cvwLen x.cvw, start := s.ltime }
  let s := s.acquireCores x cores
  let s := cores.zipIdx.foldl (fun (s : State) p => s.launchBolt k x.args c p.2 p.1) s
  let s := s.setSpan sp { x with placed := x.placed + 1 }
  (cores.foldl (fun (s : State) n => s.admitWefts n) s).progressed x.asid

/-- Put a displaced course on cores that take it: its bolts come back as an image or a switch left them. -/
def State.replant (s : State) (sp c : Nat) (cores : List Nat) : Option State :=
  let x := s.span sp
  let cl := cores.headD 0 / 256
  let bs := s.boltsOf c
  if !s.courseFits x.kernel x.cvw bs.length cores then none
  else
    let s := s.setSplit cl (cvwSplit x.cvw)
    let s := s.setCourse c { s.course c with cluster := cl, start := s.ltime }
    let s := (bs.zip cores).foldl (fun (s : State) p => s.setBolt p.1.1 { s.bolt p.1.1 with core := p.2 }) s
    if bs.all (fun p => s.boltCanReturn p.1) then
      let s := cores.foldl (fun (s : State) n => s.acquireL1 n) s
      let s := bs.foldl (fun (s : State) p => s.boltOn p.1) s
      some ((cores.foldl (fun (s : State) n => s.admitWefts n) s).progressed x.asid)
    else none

/-- The courses of a span that wait for a place, ascending. -/
def State.homeless (s : State) (sp : Nat) : List Nat :=
  ((s.coursesOf sp).filter (fun p => s.displaced p.2 && !s.courseOver p.1)).map (·.1)

/-- CORESIDENT. -/
def Span.coresident (x : Span) : Bool := x.flags.getLsbD 0

/-- The cores given lie in the cluster whose turn it is to take a course of the span (R406). -/
def State.clusterTurn (s : State) (x : Span) (cores : List Nat) : Bool :=
  s.nextCluster x.kernel x.cvw = some (cores.headD 0 / 256)

/-- Put several displaced courses on cores, the cores of each one after the other. -/
def State.replantAll (s : State) (sp : Nat) : List Nat → List Nat → Option State
  | [], _ => some s
  | c :: rest, cores =>
    let n := (s.boltsOf c).length
    if !s.clusterTurn (s.span sp) (cores.take n) then none
    else match s.replant sp c (cores.take n) with
      | some s => s.replantAll sp rest (cores.drop n)
      | none => none

/-- Launch a number of courses, the cores of each one after the other. -/
def State.launchAll (s : State) (sp : Nat) : Nat → List Nat → Option State
  | 0, _ => some s
  | m + 1, cores =>
    let x := s.span sp
    let n := x.kernel.bolts
    if s.courseFits x.kernel x.cvw n (cores.take n) && s.clusterTurn x (cores.take n) then
      (s.launchCourse sp (cores.take n)).launchAll sp m (cores.drop n)
    else none

/-- With its first course a DISPATCH has started: the queue goes on behind it. -/
def State.dispatchStarts (s : State) (sp : Nat) : State :=
  let q := (s.span sp).qid
  if (s.queue q).phase = .dispatching sp then
    let level := (s.queue q).depth
    let (t, s) := (s.takeTurn q).startPk q
    let x := (s.queue q).next
    s.setQueue q { x with running := x.running ++ [(sp, level, t)] }
  else s

/-- A DISPATCH that has not started waits for its queue's turn (R391). -/
def State.startsNow (s : State) (sp : Nat) : Bool :=
  let q := (s.span sp).qid
  (s.queue q).phase ≠ .dispatching sp || s.myTurn q

/-- COURSE_PLACEMENT: a course, or every course of a CORESIDENT span, takes the cores given, on the cluster given. -/
def execCoursePlacement (span cluster : Nat) (cores : List Nat) (s : State) : Out :=
  let x := s.span span
  let busy : Bool := match x.capture with
    | some c => c.seeking
    | none => false
  if x.completed.isSome || x.ending ≠ .running || busy || cores.headD 0 / 256 ≠ cluster then .next s
  else
    match s.homeless span with
    | c :: rest =>
      let cs := if x.coresident then c :: rest else [c]
      .next ((s.replantAll span cs cores).getD s)
    | [] =>
      let m := if x.coresident then x.courses - x.placed else min 1 (x.courses - x.placed)
      if m = 0 || s.spanIsOff span || cores.length < m * x.kernel.bolts || !s.startsNow span then .next s
      else match s.launchAll span m cores with
        | some t => .next (t.dispatchStarts span)
        | none => .next s

/-! ## DISPATCH (R404, R405) -/

/-- The arguments of a DISPATCH. -/
def dispatchArgs (d : List Byte) : List (Dword × BitVec 6) :=
  (List.range (fieldAt d 32 1)).map (fun i => (BitVec.ofNat 64 (fieldAt d (40 + 8 * i) 8), BitVec.ofNat 6 (fieldAt d (168 + i) 1)))

/-- NARGS and the tags are good for a number of scalar registers. -/
def argsOk (d : List Byte) (sregs : Nat) : Bool :=
  let n := fieldAt d 32 1
  n ≤ sregs && (List.range 16).all (fun i =>
    let t := fieldAt d (168 + i) 1
    if i < n then t < 64 && Sys2Proof.tagValid (BitVec.ofNat 6 t) else t = 0)

/-- What the checks of a DISPATCH come to. -/
inductive DispRes where
  | ok (k : Kernel)
  | refuse (status : Nat)
  | hold (va : Nat)
  | abort

/-- A hub read as part of check 4. -/
def readThen (r : State × HubAns) (f : State → List Byte → State × DispRes) : State × DispRes :=
  match r with
  | (s, .ok l) => f s l
  | (s, .hold va) => (s, .hold va)
  | (s, .refused _) => (s, .refuse 4)
  | (s, .abort) => (s, .abort)

/-- The checks of R405 in their order. -/
def State.dispatchCheck (s : State) (asid : Nat) (d : List Byte) : State × DispRes :=
  let kinfo := fieldAt d 0 8
  let cvw := BitVec.ofNat 64 (fieldAt d 16 8)
  if kinfo % 64 ≠ 0 || (s.ctx asid).st ≠ .live then (s, .refuse 4)
  else readThen (s.hubRead asid kinfo 64) (fun s l =>
    let (tab, n) := recTab l
    readThen (s.hubRead asid tab (40 * n)) (fun s r =>
      let recs := (List.range n).map (fun i => BufRec.ofBytes (r.drop (40 * i)))
      let k : Kernel := { Kernel.ofBytes kinfo l with recs := recs }
      if !descrOk l then (s, .refuse 3)
      else if !recs.all BufRec.ok then (s, .refuse 5)
      else if !cvwOk cvw k.bolts then (s, .refuse 6)
      else if !argsOk d k.sregs then (s, .refuse 8)
      else if !courseFitsEmpty k then (s, .refuse 7)
      else if (fieldAt d 12 4).testBit 0 && !s.allFitEmpty k cvw (fieldAt d 8 4) then (s, .refuse 7)
      else (s, .ok k)))

/-- Body fields out of their range, or reserved ones not zero (R399, R404). -/
def dispatchBad (d : List Byte) : Bool :=
  fieldAt d 8 4 = 0 || 2 ≤ fieldAt d 12 4 || fieldAt d 24 8 % 16 ≠ 0 || 16 < fieldAt d 32 1 || !zeroAt d 33 40 || !zeroAt d 184 252

/-- The LTIME at which the ring packet now executing was submitted (R390). -/
def Queue.submittedAt (q : Queue) : Nat := ((q.submitted.find? (fun p => q.ridx < p.1)).map (·.2)).getD 0

/-- The domain-table entry of a context. -/
def State.domainFor (s : State) (asid : Nat) : Option DomEnt :=
  (s.fab.domains.find? (fun p => p.2.valid && p.2.asid = asid)).map (·.2)

/-- The span of a DISPATCH that has passed its checks. -/
def State.newSpan (s : State) (qid : Nat) (q : Queue) (d : List Byte) (k : Kernel) : Span :=
  { Span.absent with
    asid := q.asid, qid := qid, pkt := q.ridx, cls := q.cls, kernel := k, courses := fieldAt d 8 4,
    flags := BitVec.ofNat 32 (fieldAt d 12 4), cvw := BitVec.ofNat 64 (fieldAt d 16 8), compl := dispatchCompl d,
    args := dispatchArgs d, submitted := q.submittedAt, rel := tRel d + 4 * tAcq d,
    idSpan := match s.domainFor q.asid with | some e => e.idSpan | none => 0,
    idSpans := match s.domainFor q.asid with | some e => e.idSpans | none => 1 }

/-- A refused DISPATCH: the event, the record, and the next packet; its release comes first. -/
def State.refuseDispatch (s : State) (qid : Nat) (q : Queue) (d : List Byte) (status : Nat) : PkRes :=
  let go (s : State) : PkRes :=
    match (s.event 2 qid status).putRecord qid q.asid (dispatchCompl d) status 0 0 s.nextSeq with
    | .inl t => .done (t.takeTurn qid)
    | .inr va => .held (some va)
  if tRel d = 2 then
    match s.domainClean q.asid with
    | (s, false) => .wait (s.setQueue qid { s.queue qid with phase := .held })
    | (s, true) => go s
  else go s

/-- DISPATCH. -/
def execDispatch (qid : Nat) (s : State) : Out :=
  s.packet qid 0x01 true (fun s q d =>
    if dispatchBad d then .err s 2 (dispatchCompl d)
    else match s.dispatchCheck q.asid d with
      | (_, .hold va) => .held (some va)
      | (s, .abort) => .err s 8 (dispatchCompl d)
      | (s, .refuse st) => s.refuseDispatch qid q d st
      | (s, .ok k) =>
        let n := Store.fresh s.spans
        let s := s.setSpan n (s.newSpan qid q d k)
        .wait (s.setQueue qid { s.queue qid with phase := .dispatching n }))

/-! ## Completion (R408, R425) -/

/-- STATUS and CODE of a span's record, and its ORIGIN bit. -/
def SpanEnd.status : SpanEnd → Nat
  | .running => 0
  | .halted _ | .origin => 1
  | .killed => 2
def SpanEnd.code : SpanEnd → Nat
  | .halted c => c.toNat
  | .origin => 0xFFFFFFFE
  | _ => 0
def SpanEnd.originBit : SpanEnd → Nat
  | .origin => 1
  | _ => 0

/-- A weft of the span, a handler's left out, by its handle. -/
def State.inSpan (s : State) (sp h : Nat) : Bool := (s.courseOf (s.weft h)).span = sp && !(s.courseOf (s.weft h)).handler

/-- Matrix work of a span's wefts is over: their batches have completed, or the span was stopped; nothing of theirs is on its
way to an adder. -/
def State.matrixOver (s : State) (sp : Nat) : Bool :=
  let stopped := (s.span sp).ending ≠ .running
  (s.spanWefts sp).all (fun p => stopped || p.2.batches.all (fun b => b.complete || b.issued = 0)) &&
    !s.contribs.any (fun c => s.inSpan sp c.weft && !(stopped && (c.stalled || hbmSize ≤ c.part))) &&
    !s.cores.any (fun p => p.2.seqr.any (fun q => s.inSpan sp q.2.weft))

/-- Everything a span's completion waits for has come about. -/
def State.spanOver (s : State) (sp : Nat) : Bool :=
  let x := s.span sp
  (Store.find s.spans sp).isSome && x.completed.isNone && (x.ending ≠ .running || x.placed = x.courses) &&
    (s.spanWefts sp).all (fun p => p.2.status = .ended) && (s.spanBolts sp).all (fun p => p.2.copies.all (fun c => !c.2.live)) &&
    s.matrixOver sp && !s.cores.any (fun p => p.2.wbuf.any (fun e => s.inSpan sp e.weft))

/-- A request for a capture that has no span left to take is over: its packet completes. -/
def State.dropCapture (s : State) (sp : Nat) : State :=
  match (s.span sp).capture with
  | none => s
  | some c =>
    let s := s.setSpan sp { s.span sp with capture := none }
    s.endCapturing c.qid sp

/-- The span has completed: its number, and with the context's last span the failures nobody reported (R479). -/
def State.completeSpan (s : State) (sp : Nat) : State :=
  let s := s.dropCapture sp
  let x := s.span sp
  let s := (s.setSpan sp { x with completed := some s.nextSeq }).event 2 x.qid x.ending.status
  if (s.liveSpans x.asid).isEmpty then s.flushFailures x.asid else s

/-- SPAN_COMPLETE. -/
def execSpanComplete (span : Nat) (s : State) : Out := .next (if s.spanOver span then s.completeSpan span else s)

/-- The key of a kernel's estimate. -/
def estKey (asid addr : Nat) : Nat := asid * 2 ^ 57 + addr

/-- The record is written: the packet has completed, and the kernel's estimate is renewed. -/
def State.recordDone (s : State) (sp : Nat) : State :=
  let x := s.span sp
  let s := s.setSpan sp { x with recorded := true }
  let s : State := if x.placed = 0 then s else
    { s with estimates := Store.put 0 s.estimates (estKey x.asid x.kernel.addr) (x.ctime / x.placed / 1000) }
  let q := s.queue x.qid
  let s := s.setQueue x.qid { q with running := q.running.filter (fun r => r.1 ≠ sp) }
  if q.phase = .dispatching sp then s.finishPk x.qid else s

/-- COMPLETION_RECORD_WRITE: on a committed release of the span, and after the packet's release is performed. -/
def execCompletionRecordWrite (span : Nat) (s : State) : Out :=
  let x := s.span span
  match x.completed with
  | none => .next s
  | some seq =>
    if !x.released || x.recorded then .next s
    else match (if x.rel % 4 = 2 then s.domainClean x.asid else (s, true)) with
      | (s, false) => .next s
      | (s, true) =>
        match s.putRecord x.qid x.asid x.compl x.ending.status x.ending.originBit x.ending.code seq with
        | .inr va => .next (s.heldOn x.asid va)
        | .inl t => .next (t.recordDone span)

/-! ## Deadlines (R444) -/

/-- The kernel's estimate in µs. -/
def State.estimate (s : State) (asid addr : Nat) : Nat := Store.get 0 s.estimates (estKey asid addr)

/-- A slot's bytes as memory holds them now. -/
def State.peekSlot (s : State) (q : Queue) (level n : Nat) : Option (List Byte) :=
  if level = 0 then some (Store.bytes s.mem (q.ring + 256 * (n % q.nslot)) 256)
  else (q.stack[level - 1]?).bind (fun l => (s.peekPa q.asid (l.addr + 256 * n)).map (fun pa => Store.bytes s.mem pa 256))

/-- The DISPATCHes of a queue that have not started, of its ring and of the levels it has entered, the next one first. -/
def State.unstarted (s : State) (q : Queue) : List (List Byte) :=
  let at_ (level lo n : Nat) : List (List Byte) := (List.range n).filterMap (fun i =>
    (s.peekSlot q level (lo + i)).bind (fun d =>
      if fieldAt d 255 1 = validByte (lo + i) && tType d = 1 then some d else none))
  let inner := (q.stack.zipIdx.reverse).flatMap (fun p =>
    let first := if p.2 + 1 = q.depth then p.1.pos else p.1.pos + 1
    at_ (p.2 + 1) first (p.1.count - first))
  let first := if q.depth = 0 then q.ridx else q.ridx + 1
  inner ++ at_ 0 first (min q.nslot (q.widx - first))

/-- The kernel a DISPATCH names, as memory holds it. -/
def State.peekKernel (s : State) (asid : Nat) (d : List Byte) : Kernel :=
  let a := fieldAt d 0 8
  match s.peekPa asid a with
  | some pa => Kernel.ofBytes a (Store.bytes s.mem pa 64)
  | none => Kernel.absent

/-- A course of a DISPATCH can be placed somewhere now. -/
def State.placeable (s : State) (asid : Nat) (d : List Byte) : Bool :=
  let k := s.peekKernel asid d
  let cvw := BitVec.ofNat 64 (fieldAt d 16 8)
  (s.nextCluster k cvw).isSome

/-- Courses of a span that have not ended. -/
def State.coursesLeft (s : State) (sp : Nat) : Nat :=
  (s.span sp).courses - ((s.coursesOf sp).filter (fun p => p.2.ended)).length

/-- µs of work a queue has left. -/
def State.workLeft (s : State) (q : Queue) : Nat :=
  (q.running.map (fun r => s.coursesLeft r.1 * s.estimate q.asid (s.span r.1).kernel.addr)).sum +
    ((s.unstarted q).map (fun d => fieldAt d 8 4 * s.estimate q.asid (fieldAt d 0 8))).sum

/-- When a queue's oldest unfinished work was submitted. -/
def State.queueSubmitted (s : State) (q : Queue) : Nat :=
  q.running.foldl (fun a r => min a (s.span r.1).submitted) (if q.ridx < q.widx then q.submittedAt else s.ltime)

/-- The LTIME of a queue's deadline. -/
def State.dueAt (s : State) (q : Queue) : Nat := s.queueSubmitted q + q.deadline * 1000

/-- Spans that may be switched out for a queue: of a less urgent class, the least urgent first, then the youngest. -/
def State.victims (s : State) (cls : Nat) : List Nat :=
  let l := s.spans.filter (fun p => cls < p.2.cls && p.2.placed ≠ 0 && p.2.completed.isNone && p.2.ending = .running &&
    p.2.switched.isNone && !s.spanIsOff p.1)
  (sortBy (fun p => 3 - p.2.cls) l.reverse).map (·.1)

/-- Switch spans out until the DISPATCH can be placed. -/
def State.makeRoom (s : State) (qid asid : Nat) (d : List Byte) : List Nat → State
  | [] => s
  | v :: rest =>
    if s.placeable asid d then s
    else
      let (t, s) := s.stamp
      let s := s.spanOff v
      State.makeRoom (s.setSpan v { s.span v with switched := some (qid, t) }) qid asid d rest

/-- The check of one queue. -/
def State.deadlineOf (s : State) (qid : Nat) : State :=
  let q := s.queue qid
  match s.unstarted q with
  | [] => s
  | d :: _ =>
    if s.dueAt q < s.ltime + (s.workLeft q + 50) * 1000 && !s.placeable q.asid d then s.makeRoom qid q.asid d (s.victims q.cls) else s

/-- Spans switched out for a queue come back once it has no DISPATCH left to start or its deadline has passed. -/
def State.comeBack (s : State) : State :=
  let l := s.spans.filterMap (fun p => p.2.switched.map (fun w => (p.1, p.2.cls, w.1, w.2)))
  (sortBy (fun x => x.2.1) (sortBy (fun x => x.2.2.2) l)).foldl (fun (s : State) x =>
    let q := s.queue x.2.2.1
    if ((s.unstarted q).isEmpty || s.dueAt q ≤ s.ltime) && s.spanCanReturn x.1 then
      (s.spanOn x.1).setSpan x.1 { (s.spanOn x.1).span x.1 with switched := none }
    else s) s

/-- DEADLINE_CHECK. -/
def execDeadlineCheck (now : Nat) (s : State) : Out :=
  let s := s.advanceTime now
  let qs := sortBy (fun p => s.dueAt p.2) (s.queues.filter (fun p => p.2.bound && p.2.deadline ≠ 0))
  let s := qs.foldl (fun (s : State) p => s.deadlineOf p.1) s
  .next s.comeBack

end Sys2Proof.Machine
end

