-- ==== Sys2Proof/Machine/Capture.lean ====
section
/-! DEFINITION. Pre-emption and checkpoint (R427 to R430, R434, R442, R443): the requests, the doffer's search for canonical
points, the capture of a span as an image, and the draining of a checkpoint. -/

namespace Sys2Proof.Machine

/-! ## Canonical points (R427, R428) -/

/-- A producer that resume cannot issue again and that has not landed. -/
def Flight.waitedFor (f : Flight) : Bool :=
  match f.kind with
  | .waitv .. | .popw .. => f.aborted ≠ 0
  | _ => f.mask ≠ 0 || f.aborted ≠ 0

/-- Canon(w), as far as the weft itself goes. -/
def State.canon (s : State) (h : Nat) : Bool :=
  let w := s.weft h
  w.vr.all (fun p => p.2.full || !w.alive.getLsbD (p.1 % 32) ||
      (s.producer h (.v (BitVec.ofNat 7 (p.1 / 32))) (p.1 % 32)).isSome) &&
    w.sr.all (fun p => p.2.full || (s.producer h (.s (BitVec.ofNat 6 p.1)) 0).isSome) && !w.flights.any Flight.waitedFor

/-- Instructions a weft issues at most after a request. -/
def seekLimit : Nat := 64

/-- The span of a weft has a capture that seeks canonical points. -/
def State.seeks (s : State) (w : Weft) : Bool :=
  !w.handler && (match (s.spanOf w).capture with
    | some c => c.seeking
    | none => false)

/-- The weft is stopped for a capture: it stands at a canonical point, or it must stay until it does. -/
def State.seekStops (s : State) (h : Nat) : Bool :=
  s.seeks (s.weft h) && (seekLimit ≤ (s.weft h).seek || s.canon h)

/-- The instruction would start a producer that resume cannot issue again. -/
def Weft.startsProducer (w : Weft) (i : Instr) : Bool :=
  let on (g : Guard) : Bool := w.selected g ≠ 0
  match i with
  | .ld o | .ldu o => on o.g
  | .lds o => on o.g
  | .ldv o => on o.g
  | .atom o => on o.g
  | .xld o => on o.g
  | .xatom o => on o.g && o.d ≠ .zero
  | .decrle o | .decbits o => on o.g
  | .decdelta o => on o.g
  | .decsign o => on o.g
  | .cpyregLd o => on o.g
  | _ => false

/-! ## Deferral (R429) -/

/-- A LIVE barrier of the context is partly arrived. -/
def State.partlyArrived (s : State) (asid : Nat) : Bool :=
  s.bolts.any (fun p => (s.span (s.course p.2.course).span).asid = asid && (p.2.objects p.1).any (fun off =>
    let o := p.2.obj off
    o.state = 1 && o.dcnt < o.acnt && o.acnt < o.atgt))

/-- Give every weft of a span its 64 issues. -/
def State.resetSeek (s : State) (sp : Nat) : State :=
  (s.spanWefts sp).foldl (fun (s : State) p => s.mapWeft p.1 (fun w => { w with seek := 0 })) s

/-- Seek starts once nothing defers it. -/
def State.trySeek (s : State) (sp : Nat) : State :=
  let x := s.span sp
  match x.capture with
  | none => s
  | some c =>
    if c.seeking || (s.partlyArrived x.asid && s.ltime < c.deadline) then s
    else (s.setSpan sp { x with capture := some { c with seeking := true } }).resetSeek sp

/-- DEFER_EXPIRY: the deferral ends, its limit passed or no barrier partly arrived any longer. -/
def execDeferExpiry (span now : Nat) (s : State) : Out := .next ((s.advanceTime now).trySeek span)

/-! ## Requests (R434) -/

/-- The live span that a SPANREF of a queue names. -/
def State.spanRef (s : State) (qid ref : Nat) : Option Nat :=
  (s.spans.find? (fun p => p.2.qid = qid && p.2.pkt = ref && p.2.completed.isNone && p.2.ending = .running)).map (·.1)

/-- DEFER of a MODE byte in ns. -/
def deferOf (md : Nat) : Nat := (if md / 4 = 0 then 4 else md / 4) * 5000

/-- Ask for a capture: the packet has started, and is done with it. A span that a capture already seeks holds the packet. -/
def State.askCapture (s : State) (sp : Nat) (c : CaptureReq) : PkRes :=
  if (s.span sp).capture.isSome then .held none
  else .start ((s.setSpan sp { s.span sp with capture := some c }).trySeek sp) (.capturing sp)

/-- Reserved bytes and a misplaced IMGADDR of a PREEMPT. -/
def preemptBad (d : List Byte) : Bool := !zeroAt d 9 16 || !zeroAt d 24 252 || fieldAt d 16 8 % 64 ≠ 0

/-- Run a PREEMPT of a mode; a packet of another mode is left alone. -/
def State.preempt (s : State) (qid md : Nat) (f : State → Queue → List Byte → PkRes) : Out :=
  match (s.queue qid).current with
  | none => .next s
  | some d =>
    if tType d = 0x0C && fieldAt d 8 1 % 4 ≠ md then .next s
    else s.packet qid 0x0C false (fun s q d => if preemptBad d then .err s 2 else f s q d)

/-- PREEMPT SWITCH: the span leaves its cores until the supervisor switches it back in. -/
def execPreemptSwitch (qid : Nat) (s : State) : Out :=
  s.preempt qid 0 (fun s _ d =>
    match s.spanRef qid (fieldAt d 0 8) with
    | none => .done s
    | some sp => .done (s.spanOff sp))

/-- PREEMPT SAVE and MOVE, modes 1 and 2. -/
def State.preemptImage (s : State) (qid md : Nat) : Out :=
  s.preempt qid md (fun s _ d =>
    match s.spanRef qid (fieldAt d 0 8) with
    | none => .done s
    | some sp => s.askCapture sp { mode := md, qid := qid, addr := fieldAt d 16 8, tiers := [], seeking := false,
                                   deadline := s.ltime + deferOf (fieldAt d 8 1) })

def execPreemptSave (qid now : Nat) (s : State) : Out := (s.advanceTime now).preemptImage qid 1

def execPreemptMove (qid now : Nat) (s : State) : Out := (s.advanceTime now).preemptImage qid 2

/-! ## CHECKPOINT (R443) -/

/-- A tier descriptor: KIND, ROUTE, BASE, LEN, PORTS. -/
def tierOf (l : List Byte) : Nat × Dword × Nat × Nat × Dword :=
  (fieldAt l 0 8, BitVec.ofNat 64 (fieldAt l 8 8), fieldAt l 16 8, fieldAt l 24 8, BitVec.ofNat 64 (fieldAt l 32 8))

/-- A descriptor's fields are in their ranges. -/
def tierOk (l : List Byte) : Bool :=
  let (kind, route, base, _, ports) := tierOf l
  kind ≤ 2 && base % granule = 0 && (kind = 1 || route = 0) && ports.toNat < 16 && ((l.drop 40).take 24).all (fun x => x = 0)

/-- Read the tier list; the fuel is the number of descriptors it may have. -/
def State.readTiers (s : State) (asid : Nat) : Nat → Nat → List (Nat × Dword × Nat × Nat × Dword) →
    (State → List (Nat × Dword × Nat × Nat × Dword) → PkRes) → PkRes
  | 0, _, acc, f => f s acc
  | n + 1, va, acc, f =>
    hubThen (s.hubRead asid va 64) (fun s l =>
      if fieldAt l 0 8 = 0 then f s acc
      else if !tierOk l then .err s 2
      else s.readTiers asid n (va + 64) (acc ++ [tierOf l]) f)

/-- Tier descriptors of a list. -/
def maxTiers : Nat := 12

/-- CHECKPOINT. -/
def execCheckpoint (qid now : Nat) (s : State) : Out :=
  (s.advanceTime now).packet qid 0x0B false (fun s q d =>
    if !zeroAt d 16 252 then .err s 2
    else match s.spanRef qid (fieldAt d 0 8) with
      | none => .done s
      | some sp => s.readTiers q.asid maxTiers (fieldAt d 8 8) [] (fun s tiers =>
          s.askCapture sp { mode := 3, qid := qid, addr := 0, tiers := tiers, seeking := false,
                            deadline := s.ltime + deferOf 0 }))

/-! ## The pages of a context (R432, R439) -/

/-- A leaf of a context: the address it maps from, its level, the address of the entry and the entry. -/
structure Leaf where
  va : Nat
  level : Nat
  at_ : Nat
  entry : Nat
  deriving DecidableEq, Repr

/-- Leaves under a table, ascending. The fuel bounds the levels. -/
def State.leavesUnder (s : State) : Nat → Nat → Nat → Nat → List Leaf
  | 0, _, _, _ => []
  | fuel + 1, table, level, base =>
    let n := if level = 3 then 64 else 4096
    (s.mem.filter (fun p => table ≤ p.1 && p.1 < table + 8 * n && p.1 % 8 = 0 && p.2.getLsbD 0)).flatMap (fun p =>
      let e := Store.readNat s.mem p.1 8
      let va := base + (p.1 - table) / 8 * 2 ^ (15 + 12 * level)
      if s.lineBad p.1 || malformed level e then []
      else if e.testBit 1 then [⟨va, level, p.1, e⟩]
      else s.leavesUnder fuel (entryAddr e) (level - 1) va)

/-- The data pages of a context: its leaves without X. -/
def State.dataLeaves (s : State) (asid : Nat) : List Leaf :=
  let t := (s.ctx asid).trans.toNat
  if t.testBit 0 then (s.leavesUnder 4 (entryAddr t) 3 0).filter (fun l => !l.entry.testBit 4) else []

/-- Granules of leaves with their frames, in order. -/
def leafPages (l : List Leaf) : List (Nat × Nat) :=
  l.flatMap (fun x => (List.range (pageSize x.level / granule)).map (fun i => (x.va / granule + i, entryAddr x.entry / granule + i)))

/-! ## The image of a span (R431 to R433) -/

/-- The items of a bolt in the array, and its slots, wherever they stand. -/
def State.boltItems (s : State) (bh : Nat) : List (Nat × SeqEntry) :=
  let b := s.bolt bh
  if b.out then b.savedSeq else (s.core b.core).seqr.filter (fun p => (s.weft p.2.weft).bolt = bh)
def State.ownedSlots (s : State) (bh : Nat) : List (Nat × Slot) :=
  let b := s.bolt bh
  if b.out then b.savedSlots
  else (s.core b.core).slots.filter (fun p => match p.2.owner with | some h => (s.weft h).bolt = bh | none => false)

/-- A contribution of the span that waits in a part: held there, or stalled. -/
def State.waitingIn (s : State) (sp part : Nat) : List Contribution :=
  ((s.acc part).held ++ s.contribs.filter (fun c => c.stalled && c.part = part && c.merge = .ord)).filter (fun c => s.inSpan sp c.weft)

/-- The parts with a sequence or a stalled contribution, and their bytes. -/
def State.openParts (s : State) : List (Nat × Nat) :=
  (s.accs.map (fun p => (p.1, p.2.len)) ++ (s.contribs.filter (fun c => c.stalled && c.merge = .ord)).map (fun c => (c.part, c.len))).foldl
    (fun l p => if l.any (fun q => q.1 = p.1) then l else l ++ [p]) []

/-- The open sequences of the pages, each page's share by virtual address: its bytes, NEXT, and the contributions of the span. -/
def State.openSeqs (s : State) (sp : Nat) (pages : List (Nat × Nat)) : List (Nat × Nat × Nat × List Contribution) :=
  pages.flatMap (fun p => s.openParts.filterMap (fun k =>
    (cutPart p.2 p.1 k.1 k.2).1.bind (fun q =>
      let l := (s.waitingIn sp k.1).filterMap (fun c => (c.split p.2 p.1).1)
      if (s.acc k.1).next = 0 && l.isEmpty then none else some (q.1, q.2, (s.acc k.1).next, l))))

/-- A batch as the image records it: the parts of its groups by page, and one outstanding contribution for each piece. -/
def State.imgBatch (s : State) (h : Nat) (pages : List (Nat × Nat)) (seqs : List (Nat × Nat × Nat × List Contribution)) (b : Batch) : Batch :=
  let mine (c : Contribution) : Bool := c.weft = h && c.batch = b.num
  let whole := ((s.accs.flatMap (fun p => p.2.held)) ++ s.contribs.filter (fun c => c.stalled)).filter mine
  let pieces := (seqs.flatMap (fun x => x.2.2.2)).filter mine
  { b with parts := b.parts.flatMap (fun g => pages.filterMap (fun p => (cutPart p.2 p.1 g.1 g.2.1).1.map (fun q => (q.1, q.2, g.2.2)))),
           left := b.left + pieces.length - whole.length }

/-- What the image keeps of a weft beside its record. -/
def State.imgWeftX (s : State) (h : Nat) (pages : List (Nat × Nat)) (seqs : List (Nat × Nat × Nat × List Contribution)) : WeftX :=
  let w := s.weft h
  { id := w.id, tregs := [w.trapcause, w.trappc, w.trapaddr, w.trapmask], pend := w.pend, mfail := w.mfail, scale := w.scale,
    sparse := w.sparse, nextBatch := w.nextBatch, chain := w.chain, batches := w.batches.map (fun b => s.imgBatch h pages seqs b),
    polls := w.flights.filterMap (fun f => match f.kind with
      | .waitv d eq w64 words acq ext tag pc => some ⟨d, eq, w64, words, acq, ext, tag, pc, f.mask⟩
      | _ => none),
    pops := w.flights.filterMap (fun f => match f.kind with
      | .popw base q pc => some (base, q, pc)
      | _ => none),
    lowWindows := w.lowWindows }

/-- The index of a weft in its bolt, of a bolt in its course. -/
def State.idOf (s : State) (h : Nat) : Nat := (s.weft h).id

def State.imgBolt (s : State) (bh : Nat) : ImgBolt :=
  let b := s.bolt bh
  { course := (s.course b.course).id, id := b.id, nwefts := b.nwefts, kernel := 0, recs := b.recs,
    scratch := Store.bytes b.sp 0 b.scratch, bufs := b.bufs,
    bars := b.bars.map (fun (e : BarEnt) => { e with owner := (s.bolt e.owner).id }), nextHandle := b.nextHandle }

def State.imgCopies (s : State) (bh : Nat) : List ((Nat × Nat × Nat) × Copy) :=
  let b := s.bolt bh
  b.copies.map (fun p => (((s.course b.course).id, b.id, p.1),
    { p.2 with contrib := p.2.contrib.map (fun c => (s.idOf c.1, c.2)),
               saved := p.2.saved ++ p.2.pages.map (fun g => (g.1, Store.bytes s.mem (g.2 * granule) granule)) }))

def State.imgMatrix (s : State) (bh : Nat) (pages : List (Nat × Nat)) (seqs : List (Nat × Nat × Nat × List Contribution)) : ImgMatrix :=
  let b := s.bolt bh
  { course := (s.course b.course).id, bolt := b.id,
    slots := (s.ownedSlots bh).map (fun p => (p.1, { p.2 with owner := p.2.owner.map s.idOf })),
    entries := (s.boltItems bh).map (fun p => (p.1, { p.2 with weft := s.idOf p.2.weft })),
    wefts := (sortBy s.idOf (s.weftsOf bh)).map (fun h => s.imgWeftX h pages seqs) }

/-- µs of its queue's deadline that a span has left. -/
def State.deadlineLeft (s : State) (x : Span) : Nat :=
  let q := s.queue x.qid
  if q.deadline = 0 then 0 else (x.submitted + q.deadline * 1000 - s.ltime) / 1000

def State.imgSpan (s : State) (x : Span) : ImgSpan :=
  let c := s.ctx x.asid
  let e := x.kernel.entry.toNat
  { deleg := c.deleg, peer := c.peer, peermb := c.peermb, peerbase := c.peerbase, courses := x.courses, flags := x.flags,
    cvw := x.cvw, compl := x.compl, args := x.args, cls := x.cls, deadline := s.deadlineLeft x,
    kernels := match c.loads.find? (fun r => r.base.toNat ≤ e && e < r.base.toNat + r.len) with
      | some r => [(r.digest, r.base.toNat)]
      | none => [([], 0)],
    kernel := x.kernel, placed := x.placed, ctime := x.ctime }

def State.imgFeeds (s : State) (asid : Nat) : List ImgFeed :=
  (s.feeds.filter (fun p => p.2.asid = asid && p.2.cap ≠ 0)).map (fun p =>
    { num := p.1, cap := p.2.cap, xcap := p.2.xcap, xbase := p.2.xbase, head := p.2.head, vtail := p.2.vtail, tail := p.2.tail,
      records := (List.range (p.2.vtail - p.2.head)).map (fun i => Store.bytes s.aper (p.2.ringAddr (p.2.head + i)) 64) })

/-- A mapped range as the image names it; a MOVE names its holder. -/
def State.imgRange (s : State) (kind : Nat) (l : Leaf) : ImgRange :=
  { va := l.va, len := pageSize l.level, perm := l.entry / 4 % 8, serial := if kind = 1 then Config.serial else [],
    pos := if kind = 1 then s.fpos.toNat else 0 }

/-- The bytes of a span's image over the given pages. -/
def State.spanImage (s : State) (sp kind : Nat) (leaves : List Leaf) : List Byte :=
  let x := s.span sp
  let pages := leafPages leaves
  let seqs := s.openSeqs sp pages
  let bolts := (s.spanBolts sp).map (·.1)
  let wefts := (s.spanWefts sp).map (·.1)
  let dom := s.domainFor x.asid
  let names (c : Contribution) : Contribution × Nat × Nat × Nat :=
    let w := s.weft c.weft
    (c, (s.courseOf w).id, (s.boltOf w).id, w.id)
  let sec {α : Type} (k : Nat) (put : α → List Byte) (l : List α) : Nat × Nat × List Byte := (k, l.length, l.flatMap put)
  imageBytes
    { kind := kind, maxbolts := x.kernel.bolts, maxreg := x.kernel.wefts * x.kernel.regBytes, maxscr := x.kernel.scratch,
      dpos := match dom with | some e => e.dpos | none => 0, dshape := match dom with | some e => e.dshape | none => 0 }
    [sec 1 cImgSpan.put [s.imgSpan x],
     sec 2 cImgCourse.put ((s.coursesOf sp).map (fun p => ⟨p.2.id, p.2.nbolts, Store.bytes p.2.vault 0 p.2.vlen⟩)),
     sec 3 cImgBolt.put (bolts.map s.imgBolt),
     sec 4 s.weftBytes wefts,
     sec 5 cImgCopy.put (bolts.flatMap s.imgCopies),
     sec 6 cImgMatrix.put (bolts.map (fun b => s.imgMatrix b pages seqs)),
     sec 7 cImgSeq.put (seqs.map (fun q => ⟨q.1, q.2.1, q.2.2.1, q.2.2.2.map names⟩)),
     sec 8 cImgFeed.put (s.imgFeeds x.asid),
     sec 9 cImgBox.put (((s.ctx x.asid).mboxes.filter (fun m => m.span = sp)).map (fun m => (m.line, m.descr, m.pending, m.kern))),
     sec 10 cImgRange.put (leaves.map (s.imgRange kind))]

/-! ## The capture (R430) -/

/-- Every weft of the span stands where a capture may take it, its handlers have finished, and what the span has issued is
performed or lies in a reorder area. No page of the context is still to follow. -/
def State.captureReady (s : State) (sp : Nat) : Bool :=
  let x := s.span sp
  (s.spanWefts sp).all (fun p => p.2.status = .ended || (if p.2.trec.isSome then !p.2.flights.any Flight.waitedFor else s.canon p.1)) &&
    s.wefts.all (fun p => !p.2.handler || p.2.status = .ended || (s.courseOf p.2).span ≠ sp) &&
    !s.contribs.any (fun c => !c.stalled && s.inSpan sp c.weft) && !s.cores.any (fun p => p.2.wbuf.any (fun e => s.inSpan sp e.weft)) &&
    s.holders.all (fun p => p.asid ≠ x.asid)

/-- Failures that no release has reported become pending traps of the span's wefts (R483); what finds no weft goes to the
supervisor. -/
def State.pendFailures (s : State) (asid : Nat) : List Nat → State
  | [] => s.flushFailures asid
  | h :: rest =>
    let w := s.weft h
    if w.status = .ended || w.pend.isSome then s.pendFailures asid rest
    else match s.takeFailure asid with
      | none => s
      | some (i, a, t) =>
        let f (w : Weft) : Weft :=
          { w with pend := some (w.fault cPeer (info := i) (addr := a.toNat) (mask := w.live)), pendPath := s.failedPath asid }
        State.pendFailures (t.mapWeft h f)
          asid rest

/-- Sequencer entries of the span roll back, update-only copies of the context's lines go home. -/
def State.quiesce (s : State) (sp : Nat) : State :=
  let asid := (s.span sp).asid
  let s : State := { s with
    cores := s.cores.map (fun (p : Nat × Core) => (p.1, p.2.rollbackAll (fun h => s.inSpan sp h))) }
  let lines := (s.cores.flatMap (fun p => (p.2.upd.filter (fun e => s.asidOf (s.weft e.weft) = asid)).map (fun e => e.pa / 64))).eraseDups
  lines.foldl (fun (s : State) l => s.recall l) s

/-- The span's state can be read whole (R333). -/
def State.spanReadable (s : State) (sp : Nat) : Bool :=
  (s.coursesOf sp).all (fun p => p.2.vBad.isEmpty) &&
    (s.spanBolts sp).all (fun p => p.2.spBad.isEmpty && (s.ownedSlots p.1).all (fun q => q.2.bad.isEmpty)) &&
    (s.spanWefts sp).all (fun p => p.2.bad.isEmpty) &&
    s.feeds.all (fun p => p.2.asid ≠ (s.span sp).asid || (List.range (p.2.vtail - p.2.head)).all (fun i =>
      (List.range 8).all (fun j => !s.aperBad.contains (p.2.ringAddr (p.2.head + i) / 8 + j))))

/-- The capture is given up: nothing is released, the span runs on, the queue halts. -/
def State.abandon (s : State) (sp qid err : Nat) : State :=
  ((s.setSpan sp { s.span sp with capture := none }).resetSeek sp).haltCapturing qid sp err

/-- A weft that leaves with an image. -/
def Weft.taken (w : Weft) : Weft :=
  { w with status := .ended, slot := none, wait := none, repeatPhase := none, flights := [], trec := none, pend := none,
           mfail := none, relTags := none, chain := none, batches := [] }

/-- The contributions that an image has taken along are gone; with the context's last span its sequences end. -/
def State.dropSeqs (s : State) (sp : Nat) (pages : List (Nat × Nat)) (last : Bool) : State :=
  let mine (k : Nat × Nat) : Bool := pages.any (fun p => overlap k.1 k.2 (p.2 * granule) granule)
  let parts := (s.openParts.filter mine).map (·.1)
  let s : State := { s with contribs := s.contribs.filter (fun c => !s.inSpan sp c.weft) }
  parts.foldl (fun (s : State) p =>
    s.setAcc p (if last then AccPart.none else { s.acc p with held := (s.acc p).held.filter (fun c => !s.inSpan sp c.weft) })) s

/-- Every core, register, scratchpad, slot, queue and binding of the span is released. -/
def State.releaseSpan (s : State) (sp : Nat) (pages : List (Nat × Nat)) : State :=
  let x := s.span sp
  let wefts := (s.spanWefts sp).map (·.1)
  let bolts := (s.spanBolts sp).map (·.1)
  let last := (s.liveSpans x.asid).all (fun p => p.1 = sp)
  let gone (h : Nat) : Bool := wefts.contains h
  let s := s.dropSeqs sp pages last
  let boxes := (s.ctx x.asid).mboxes.filter (fun m => m.span = sp)
  let s := boxes.foldl (fun (s : State) m => s.setCore m.core { s.core m.core with handler := none }) s
  let s := s.setCtx x.asid { s.ctx x.asid with mboxes := (s.ctx x.asid).mboxes.filter (fun m => m.span ≠ sp) }
  let s : State := { s with
    cores := s.cores.map (fun (p : Nat × Core) => (p.1, { p.2 with
      slots := p.2.slots.filter (fun q => match q.2.owner with | some h => !gone h | none => true),
      seqr := p.2.seqr.filter (fun q => !gone q.2.weft) })),
    feeds := s.feeds.map (fun (p : Nat × FeedQ) => (p.1,
      if p.2.asid = x.asid && last then FeedQ.reset else { p.2 with pops := p.2.pops.filter (fun q => !gone q.1) })) }
  let s := wefts.foldl (fun (s : State) h => s.mapWeft h Weft.taken) s
  let s := bolts.foldl (fun (s : State) b =>
    s.setBolt b { s.bolt b with copies := [], bars := [], bufs := [], savedSlots := [], savedSeq := [] }) s
  let s := (s.coursesOf sp).foldl (fun (s : State) p => s.setCourse p.1 { p.2 with ended := true }) s
  let s := s.setSpan sp { x with ending := .origin, capture := none }
  let s : State := { s with fab := { s.fab with domains := s.fab.domains.filter (fun p => p.2.asid ≠ x.asid) } }
  bolts.foldl (fun (s : State) b => s.admitWefts (s.bolt b).core) s

/-- A MOVE keeps the frames for the target: every leaf becomes invalid, and no translation of it is left (R439). -/
def State.holdPages (s : State) (asid : Nat) (digest : List Byte) (leaves : List Leaf) : State :=
  let s := leaves.foldl (fun (s : State) l => s.homeWrite l.at_ (natLe 8 (l.entry - l.entry % 2))) s
  let pages := leafPages leaves
  { s with tlb := s.tlb.filter (fun t => !(t.asid = asid && pages.any (fun p => t.vpn ≤ p.1 && p.1 < t.vpn + t.span))),
           wcache := s.wcache.filter (fun x => x.asid ≠ asid),
           heldImages := s.heldImages ++ [{ digest := digest, asid := asid, pages := pages }] }

/-- The DIGEST of an image's bytes. -/
def imgDigest (l : List Byte) : List Byte := (l.drop 48).take 64

/-- The leaves a capture names. Those that hold the image itself stay with the holder of a MOVE, where it is fetched. -/
def State.namedLeaves (s : State) (sp : Nat) (c : CaptureReq) : List Leaf :=
  let l := s.dataLeaves (s.span sp).asid
  if c.mode = 2 then
    let n := (s.spanImage sp 1 l).length
    l.filter (fun x => !(x.va < c.addr + n && c.addr < x.va + pageSize x.level))
  else l

/-- Accesses of the context are still under way; a MOVE waits for them. -/
def State.ctxBusy (s : State) (sp : Nat) : Bool :=
  let asid := (s.span sp).asid
  s.inFlight.any (fun x => x.1 = asid) || s.bolts.any (fun p =>
    let q := (s.course p.2.course).span
    q ≠ sp && (s.span q).asid = asid && p.2.copies.any (fun c => c.2.live && !c.2.tr.isEmpty))

/-- Write a SAVE or MOVE image and release the span; the packet completes. -/
def State.takeImage (s : State) (sp : Nat) (c : CaptureReq) : State :=
  let x := s.span sp
  let leaves := s.namedLeaves sp c
  let img := s.spanImage sp (c.mode - 1) leaves
  match s.hubWrite x.asid c.addr img with
  | (t, .ok _) =>
    let t := t.releaseSpan sp (leafPages leaves)
    let t := if c.mode = 2 then t.holdPages x.asid (imgDigest img) leaves else t
    t.endCapturing c.qid sp
  | (_, .hold va) => s.heldOn x.asid va
  | (t, _) => t.abandon sp c.qid 6

/-- Bytes of piece `i` of a checkpoint: an image piece or a page. -/
def pieceLen (img : List Byte) (i : Nat) : Nat := min granule (img.length - granule * i)

/-- Every piece fits its descriptor. -/
def piecesFit (img : List Byte) (pages : Nat) (tiers : List (Nat × Dword × Nat × Nat × Dword)) : Bool :=
  let ni := (img.length + granule - 1) / granule
  let m := tiers.length
  m ≠ 0 && (List.range (ni + pages)).all (fun i =>
    match tiers[i % m]? with
    | some (_, _, _, len, _) => granule * (i / m) + (if i < ni then pieceLen img i else granule) ≤ len
    | none => false)

/-- Take a checkpoint: the span runs on, and every frame of its pages is pending. -/
def State.takeCheckpoint (s : State) (sp : Nat) (c : CaptureReq) : State :=
  let leaves := s.namedLeaves sp c
  let img := s.spanImage sp 2 leaves
  let pages := leafPages leaves
  let ni := (img.length + granule - 1) / granule
  if !piecesFit img pages.length c.tiers then s.abandon sp c.qid 2
  else
    let k : Ckpt := { qid := c.qid, span := sp, image := img, frames := pages.zipIdx.map (fun p => (p.1.2, ni + p.2)),
                      imgLeft := List.range ni, sent := [], tiers := c.tiers }
    let s := (s.setSpan sp { s.span sp with capture := none }).resetSeek sp
    { s with ckpts := s.ckpts ++ [k] }

/-- CAPTURE: one point of the device's order. -/
def execCapture (span : Nat) (s : State) : Out :=
  let x := s.span span
  match x.capture with
  | none => .next s
  | some c =>
    if !c.seeking || !s.captureReady span then .next s
    else match s.domainClean x.asid with
      | (s, false) => .next s
      | (s, true) =>
        let s := (s.pendFailures x.asid ((s.spanWefts span).map (·.1))).quiesce span
        if !s.spanReadable span then .next (s.abandon span c.qid 8)
        else if c.mode = 3 then .next (s.takeCheckpoint span c)
        else if c.mode = 2 && s.ctxBusy span then .next s
        else .next (s.takeImage span c).wake

/-! ## Draining (R442, R443) -/

/-- A checkpoint whose pieces have all been acknowledged: its packet completes. -/
def State.ckptDone (s : State) : State :=
  match s.ckpts.find? (fun c => c.frames.isEmpty && c.imgLeft.isEmpty && c.sent.isEmpty) with
  | none => s
  | some c =>
    let s : State := { s with ckpts := s.ckpts.erase c }
    s.endCapturing c.qid c.span

/-- A checkpoint fails: its queue halts, the span runs on. -/
def State.ckptFail (s : State) (c : Ckpt) (err : Nat) : State :=
  let s : State := { s with ckpts := s.ckpts.erase c }
  s.haltCapturing c.qid c.span err

/-- CHECKPOINT_DRAIN: the next piece of the image goes out, or the next pending frame. -/
def execCheckpointDrain (n : Nat) (s : State) : Out :=
  match s.ckpts[n]? with
  | none => .next s
  | some c =>
    match c.imgLeft, c.frames with
    | i :: rest, _ =>
      let (s, tags) := s.sendPiece c i ((c.image.drop (granule * i)).take granule)
      .next { s with ckpts := s.ckpts.set n { c with imgLeft := rest, sent := c.sent ++ tags } }
    | [], (f, _) :: _ =>
      let s := s.recallRange (f * granule) granule
      match (linesOf (f * granule) granule).find? (fun l => s.lineBad (l * 64)) with
      | some l => .next ((s.lineEvent 0 (s.span c.span).asid (l * 64)).ckptFail c 8)
      | none =>
        let (s, c) := s.drainOf c f
        .next { s with ckpts := s.ckpts.set n c }
    | [], [] => .next s.ckptDone

end Sys2Proof.Machine
end

