-- ==== Sys2Proof/Machine/Expand.lean ====
section
/-! DEFINITION. The decode instructions (R167 to R171): the stream word, the fields a decode reads, its elements and its
cursor, and its issue as a long-latency producer. -/

namespace Sys2Proof.Machine

/-- The fields of a stream word (R167). -/
structure Stream where
  res : Nat
  sg : Bool
  l : Nat
  w : Nat
  p : Nat
  deriving DecidableEq, Repr

/-- Read a stream word: `l` and `w` are the field widths. -/
def Stream.ofWord (x : Nat) : Stream :=
  { res := x / 2 ^ 40, sg := x.testBit 33, l := x / 2 ^ 29 % 16 + 1, w := x / 2 ^ 23 % 64 + 1, p := x % 2 ^ 23 }

/-- The cursor: the stream word with P' and RES', reserved bits zero. -/
def Stream.cursor (st : Stream) (p r : Nat) : Cell :=
  mkCell (r % 2 ^ 24 * 2 ^ 40 + (if st.sg then 2 ^ 33 else 0) + (st.l - 1) * 2 ^ 29 + (st.w - 1) * 2 ^ 23 + p % 2 ^ 23) tagI64

/-- The `m`-bit field at stream bit `q`. -/
def Bolt.streamBits (b : Bolt) (q m : Nat) : Nat := Store.readNat b.sp (q / 8) ((q % 8 + m + 7) / 8) / 2 ^ (q % 8) % 2 ^ m

/-- The same field as a number, two's complement when `sg`. -/
def Bolt.streamVal (b : Bolt) (sg : Bool) (q m : Nat) : Int :=
  if sg then sextNat m (b.streamBits q m) else (b.streamBits q m : Nat)

/-- A field a decode reads: the first element that depends on it, its bit and width. -/
structure Field where
  elem : Nat
  q : Nat
  m : Nat
  deriving DecidableEq, Repr

/-- A field meets an uncorrectable word (R171). -/
def Bolt.fieldBad (b : Bolt) (f : Field) : Bool := badIn b.spBad 8 (f.q / 8) ((f.q % 8 + f.m + 7) / 8)

/-- The records DECRLE reads (R169): the fields, the elements and the position and count it ends with. The fuel bounds
the records: each one ends or fills the elements. -/
def rleGo (b : Bolt) (st : Stream) (n : Nat) : Nat → Nat → Nat → Nat → List Field → List Int →
    List Field × List Int × Nat × Nat
  | 0, _, p, r, fs, es => (fs, es, p, r)
  | fuel + 1, k, p, r, fs, es =>
    if n ≤ k then (fs, es, p, r)
    else
      let L := b.streamBits p st.l + 1
      let x := b.streamVal st.sg (p + st.l) st.w
      let take := min (L - r) (n - k)
      let fs := fs ++ [⟨k, p, st.l + st.w⟩]
      let es := es ++ List.replicate take x
      if L ≤ r + take then rleGo b st n fuel (k + take) (p + st.l + st.w) 0 fs es
      else rleGo b st n fuel (k + take) p (r + take) fs es

/-- Running sums of DECDELTA. -/
def deltaGo (b : Bolt) (st : Stream) : Nat → Nat → Int → List Int
  | 0, _, _ => []
  | n + 1, q, acc =>
    let a := acc + b.streamVal st.sg q st.w
    a :: deltaGo b st n (q + st.w) a

/-- The first fault of the reads (R170): past the allocation, or in a declared buffer whose state forbids it. -/
def Bolt.streamFault (b : Bolt) (w : Weft) (sel : Mask) : List Field → Option Trap
  | [] => none
  | f :: rest =>
    let a := f.q / 8
    let n := (f.q % 8 + f.m + 7) / 8
    if b.scratch < a + n then some (w.fault cProtection (info := 1) (addr := max a b.scratch) (mask := sel))
    else match b.bufRefuses a n false with
      | some (st, x) => some (w.fault cBuffer (info := st.code) (addr := x) (mask := sel))
      | none => b.streamFault w sel rest

/-- What a decode delivers: fields, the element of each thread, the cursor, whether later threads depend on a word, and
whether the cursor does; NV of a signalling scale. -/
structure Expansion where
  fields : List Field
  cells : List Cell
  cursor : Cell
  chain : Bool
  curDep : Bool
  nv : Bool

/-- Threads a bad word kills among those selected (R171). -/
def Expansion.dead (x : Expansion) (b : Bolt) (n : Nat) (sel : Mask) : Mask :=
  let bad := x.fields.filter (fun f => b.fieldBad f)
  sel &&& maskOf ((List.range n).filter (fun t => bad.any (fun f => if x.chain then f.elem ≤ t else f.elem = t)))

/-- The operand form of a decode. -/
def decForm (g : Guard) (ops : List Opnd) (a : Src) (d c : Reg) : Form :=
  .plain g ([opS 1 [.s] (some [1]) a] ++ ops ++ [opDst 3 [.s] c, opD [.v] d])

/-- The stream a decode reads. -/
def Weft.streamOf (w : Weft) (a : Src) : Stream := Stream.ofWord (w.cell a.reg 0).val.toNat

/-- Issue a decode (R170): its registers empty until it lands; a bad word it met is reported (R171). -/
def State.issueDecode (s : State) (h : Nat) (d c : Reg) (sel : Mask) (x : Expansion) : State :=
  let w := s.weft h
  let b := s.boltOf w
  let dead := x.dead b w.n sel
  let curDead := x.curDep && x.fields.any (fun f => b.fieldBad f)
  let s := x.fields.foldl (fun (s : State) f => s.spaceSplit (.sp w.bolt) (f.q / 8) ((f.q % 8 + f.m + 7) / 8)) s
  let (fid, s) := s.stamp
  let s := match x.fields.find? (fun f => b.fieldBad f) with
    | some f => s.errEvent 1 1 (s.asidOf w) (.sp w.bolt (f.q / 64 * 8))
    | none => s
  let live := (threads (sel &&& ~~~dead)).map (fun t => (t, (x.cells[t]?).getD Cell.launch))
  let w := (w.emptyAll d sel).emptyAll c sel
  let f : Flight := { fid := fid, mask := sel &&& ~~~dead, aborted := dead,
                      kind := .ready d live (some (c, x.cursor)) dead curDead x.nv true }
  s.setWeft h { w with flights := w.flights ++ [f] }

/-- A decode: the bytes are read now as an LDS reads them (R170); under INVT a signalling scale faults (R70). -/
def State.decode (s : State) (h : Nat) (g : Guard) (ops : List Opnd) (a : Src) (d c : Reg)
    (ex : Weft → Bolt → Stream → Expansion) : Eff :=
  s.access h (decForm g ops a d c) (fun w sel =>
    let b := s.boltOf w
    let x := ex w b (w.streamOf a)
    match b.streamFault w sel x.fields with
    | some t => .trap s t
    | none => if x.nv && w.invt then .trap s (w.fault cInvalid (mask := sel)) else .done (s.issueDecode h d c sel x))

/-- Cells of an integer result width. -/
def decCells (i32 : Bool) (l : List Int) : List Cell :=
  l.map (fun x => mkCell (wrapNat (widthOf i32) x) (intTag (widthOf i32)))

/-- What DECRLE delivers (R169). -/
def rleExpansion (i32 : Bool) (w : Weft) (b : Bolt) (st : Stream) : Expansion :=
  let (fs, es, p, r) := rleGo b st w.n (w.n + 1) 0 st.p st.res [] []
  { fields := fs, cells := decCells i32 es, cursor := st.cursor p r, chain := true, curDep := true, nv := false }

/-- DECRLE (R169). -/
def execDecrle (o : DecArgs) (s : State) : Out :=
  runWeft o.g s 8 (fun s h => s.decode h o.g [] o.a o.d o.c (rleExpansion o.i32))

/-- The fields of consecutive values. -/
def runFields (p m n : Nat) : List Field := (List.range n).map (fun i => ⟨i, p + i * m, m⟩)

/-- What DECBITS delivers (R169). -/
def bitsExpansion (i32 : Bool) (w : Weft) (b : Bolt) (st : Stream) : Expansion :=
  let fs := runFields st.p st.w w.n
  { fields := fs, cells := decCells i32 (fs.map (fun f => b.streamVal st.sg f.q f.m)),
    cursor := st.cursor (st.p + w.n * st.w) 0, chain := false, curDep := false, nv := false }

/-- DECBITS (R169). -/
def execDecbits (o : DecArgs) (s : State) : Out :=
  runWeft o.g s 8 (fun s h => s.decode h o.g [] o.a o.d o.c (bitsExpansion o.i32))

/-- What DECDELTA delivers: the running sums from its first operand (R169). -/
def deltaExpansion (i32 : Bool) (src : Src) (w : Weft) (b : Bolt) (st : Stream) : Expansion :=
  { fields := runFields st.p st.w w.n, cells := decCells i32 (deltaGo b st w.n st.p (w.int 64 false src 0)),
    cursor := st.cursor (st.p + w.n * st.w) 0, chain := true, curDep := false, nv := false }

/-- DECDELTA (R169). -/
def execDecdelta (o : DecdArgs) (s : State) : Out :=
  runWeft o.g s 8 (fun s h => s.decode h o.g [opS 2 [.s, .z] tInt o.b] o.a o.d o.c (deltaExpansion o.i32 o.b))

/-- ±scale of DECSIGN: the scale's code and its negation; a NaN gives the default NaN and a signalling one NV. -/
def signPair (f : FSpec) (x : Nat) : Nat × Nat × Bool :=
  match f.decode x with
  | .nan sg => (f.nanCode, f.nanCode, sg)
  | _ => (x, x ^^^ f.signBit, false)

/-- What DECSIGN delivers: plus or minus the scale by each sign bit (R169). -/
def signExpansion (src : Src) (w : Weft) (b : Bolt) (st : Stream) : Expansion :=
  let c := w.cell src.reg 0
  let f : FSpec := if fmtOf c.tag = 3 then .f64 else .f32
  let (pos, neg, nv) := signPair f (c.val.toNat % 2 ^ f.width)
  let fs := runFields st.p 1 w.n
  { fields := fs, cells := fs.map (fun q => mkCell (if b.streamBits q.q 1 = 0 then pos else neg) c.tag),
    cursor := st.cursor (st.p + w.n) 0, chain := false, curDep := false, nv := nv }

/-- DECSIGN (R169). -/
def execDecsign (o : DecsArgs) (s : State) : Out :=
  runWeft o.g s 8 (fun s h => s.decode h o.g [opS 2 [.s] (some [3, 4]) o.b] o.a o.d o.c (signExpansion o.b))

end Sys2Proof.Machine
end

