-- ==== Sys2Proof/Machine/Links.lean ====
section
/-! DEFINITION. Enmal links and the router (R456 to R459, R462 to R465, R468, R469): flits, their checks and replays, lanes,
ports, the hops of a packet, and packets that are dropped. -/

namespace Sys2Proof.Machine

/-! ## Flits (R457, R458) -/

/-- Trailer bits 63:0, the parities and the reserved bits left out. -/
def flitLow (f : Flit) : Nat :=
  f.seq.toNat * 2 ^ 48 + f.ackseq.toNat * 2 ^ 32 + f.stop.toNat * 2 ^ 24 + f.vc.toNat * 2 ^ 21 +
    (if f.idle then 2 ^ 20 else 0) + (if f.nak then 2 ^ 19 else 0)

/-- The bytes over which the CRC runs: the content and trailer bits 63:0, the parities, which cover the CRC, again as zero. -/
def flitCrcBytes (f : Flit) : List Byte := f.content ++ natLe 8 (flitLow f)

/-- The 272 bytes on the wire, trailer bits 18:3 taken as zero. -/
def flitWire (f : Flit) : List Byte := (f.content ++ List.replicate 256 0).take 256 ++ natLe 8 (flitLow f) ++ natLe 8 f.crc.toNat

/-- A byte's parity is odd. -/
def oddByte (b : Byte) : Bool := ((List.range 8).filter (fun i => b.getLsbD i)).length % 2 = 1

/-- An odd number of bytes of a list have odd parity. -/
def oddBytes (l : List Byte) : Bool := (l.filter oddByte).length % 2 = 1

/-- The two parity bits of a lane: over its even-numbered bytes, and its odd-numbered ones. -/
def lanePair (wire : List Byte) (lane : Nat) : Bool × Bool :=
  let share := (List.range 34).map (fun j => wire.getD (8 * j + lane) 0)
  let half (k : Nat) : List Byte := (share.zipIdx.filter (fun p => p.2 % 2 = k)).map (·.1)
  (oddBytes (half 0), oddBytes (half 1))

/-- LPAR as computed from a flit. -/
def flitParity (f : Flit) : BitVec 16 :=
  BitVec.ofNat 16 ((List.range 8).foldl (fun a i =>
    let (x, y) := lanePair (flitWire f) i
    a + (if x then 2 ^ (2 * i) else 0) + (if y then 2 ^ (2 * i + 1) else 0)) 0)

/-- Lanes whose parities do not match. -/
def badLanes (f : Flit) : List Nat :=
  let d := f.lpar ^^^ flitParity f
  (List.range 8).filter (fun i => d.getLsbD (2 * i) || d.getLsbD (2 * i + 1))

/-- The CRC is right. -/
def flitIntact (f : Flit) : Bool := f.crc = Config.crc64 (flitCrcBytes f)

/-- Flits a replay buffer holds. -/
def replaySlots : Nat := 512

/-! ## Faults of lanes and links (R458) -/

/-- The unit that a lane's events count against: once it is lasting, the spare lane that took its place. -/
def State.laneUnit (s : State) (port lane : Nat) : Nat :=
  port * 16 + (if (s.unitAt 6 0 (port * 16 + lane)).lasting then 8 else lane)

/-- An event against a lane. -/
def State.countLane (s : State) (port lane : Nat) : State := s.countUnit 6 0 (s.laneUnit port lane) false

/-- CRC failures that show no lane, within the window, at which a link retrains. -/
def linkThresh : Nat := 16

/-- A CRC failure that counts against the link. -/
def State.countLink (s : State) (port : Nat) : State :=
  let p := s.port port
  let kept := (p.crcFails ++ [s.ltime]).filter (fun t => s.ltime ≤ t + windowOf (s.window 6) * 1000000000)
  s.setPort port (if linkThresh ≤ kept.length then { p with crcFails := [], retrains := p.retrains + 1 } else { p with crcFails := kept })

/-- A damaged flit. -/
def State.damaged (s : State) (port : Nat) (f : Flit) : State :=
  let l := badLanes f
  let s := s.setPort port { s.port port with nak := true }
  if l.isEmpty || 2 < l.length then s.countLink port else l.foldl (fun (s : State) i => s.countLane port i) s

/-- The sender learns what has arrived: acknowledged flits leave the replay buffer; a NAK replays the others, and after 16
replays in a row the link retrains. -/
def Port.hear (p : Port) (f : Flit) : Port :=
  let rest := match p.replay.findIdx? (fun x => x.seq = f.ackseq) with
    | some i => p.replay.drop (i + 1)
    | none => p.replay
  let p : Port := { p with replay := rest, stop := f.stop, retries := if rest.length < p.replay.length then 0 else p.retries }
  if f.nak then
    (if 16 ≤ p.retries then { p with retries := 0, retrains := p.retrains + 1 } else { p with retries := p.retries + 1 })
  else p

/-- FLIT_RECEIVE: a damaged flit and one out of sequence are discarded and answered with NAK. -/
def execFlitReceive (port : Nat) (f : Flit) (now : Nat) (s : State) : Out :=
  let s := s.advanceTime now
  let p := s.port port
  if 12 ≤ port || !p.up then .next s
  else if !flitIntact f then .next (s.damaged port f)
  else if f.seq ≠ (if f.idle then p.rxNext - 1 else p.rxNext) then .next (s.setPort port { p with nak := true })
  else .next (s.setPort port ({ p with rxNext := if f.idle then p.rxNext else p.rxNext + 1, nak := false }.hear f))

/-- SYMBOL_LOCK_LOSS: a lane loses symbol lock or deskew. -/
def execSymbolLockLoss (port lane now : Nat) (s : State) : Out :=
  let s := s.advanceTime now
  if port < 12 && lane < 8 then .next (s.countLane port lane) else .next s

/-- PORT_STATE_CHANGE. -/
def execPortStateChange (port : Nat) (up : Bool) (s : State) : Out :=
  if 12 ≤ port || (s.port port).up = up then .next s
  else .next ((s.setPort port { s.port port with replay := [], stop := 0, retries := 0 }).portChange port up)

/-! ## Packets as flits (R468) -/

/-- The 64-byte header of a packet. -/
def packetHeader (p : Packet) : List Byte :=
  natLe 16 p.fwd.toNat ++ natLe 16 p.ret.toNat ++ natLe 1 (p.seg % 8 + (if p.cls then 8 else 0) + p.last % 8 * 16) ++
    natLe 1 p.hleft ++ natLe 1 p.typ.toNat ++ natLe 1 (if p.ordered then 1 else 0) ++ natLe 4 p.domid.toNat ++
    natLe 4 p.srcpos.toNat ++ natLe 4 p.dstpos.toNat ++ natLe 8 p.addr.toNat ++ natLe 2 p.len ++ natLe 2 p.ridx ++ natLe 4 p.tag.toNat

/-- Cut bytes into flit contents of 256. The fuel bounds the flits. -/
def flitContents : Nat → List Byte → List (List Byte)
  | 0, _ => []
  | n + 1, l => if l.isEmpty then [] else (l.take 256 ++ List.replicate (256 - l.length) 0) :: flitContents n (l.drop 256)

/-- The flits of a packet on a port's virtual channel, numbered from the port's last number on. -/
def Port.flitsOf (p : Port) (vc : Nat) (x : Packet) : List Flit :=
  (flitContents 17 (packetHeader x ++ x.payload)).zipIdx.map (fun c =>
    let f : Flit := { content := c.1, crc := 0, seq := p.txSeq + BitVec.ofNat 16 (c.2 + 1), ackseq := p.rxNext - 1, stop := 0,
                      vc := BitVec.ofNat 3 vc, idle := false, nak := p.nak, lpar := 0 }
    let f : Flit := { f with crc := Config.crc64 (flitCrcBytes f) }
    { f with lpar := flitParity f })

/-- A packet leaves by a port: its flits wait in the replay buffer for their acknowledgement. None while the channel is
stopped or the buffer has no room. -/
def State.sendOn (s : State) (port vc : Nat) (x : Packet) : Option State :=
  let p := s.port port
  let fs := p.flitsOf vc x
  if p.stop.getLsbD vc || replaySlots < p.replay.length + fs.length then none
  else
    let s := s.setPort port { p with txSeq := p.txSeq + BitVec.ofNat 16 fs.length, replay := p.replay ++ fs, nak := false }
    some { s with fab := { s.fab with links := s.fab.links ++ [(port, vc, x)] } }

/-! ## Dropped packets (R465) -/

/-- Hops that a packet has taken. -/
def hopsTaken (p : Packet) : Nat :=
  ((List.range p.seg).map (fun i => segHops (segOf p.fwd i))).sum + (segHops (segOf p.fwd p.seg) - p.hleft)

/-- The payload of a NOTICE: reason, segment index, source RIDX, hops taken. -/
def noticeBytes (reason : Nat) (p : Packet) : List Byte :=
  natLe 1 reason ++ natLe 1 p.seg ++ natLe 2 p.ridx ++ natLe 2 (hopsTaken p)

/-- A segment of a return route cut to the hops that lead from here to the source's coordinate. -/
def State.cutSeg (s : State) (src : BitVec 24) (g : Nat) : Nat :=
  let d := segPort g / 2
  let n := if segPort g % 2 = 0 then coord src d + s.extent d - coord s.fpos d else coord s.fpos d + s.extent d - coord src d
  (if segDc g then 512 else 0) + n % s.extent d % 32 * 16 + segPort g

/-- The return route from where the packet stands: each segment ends at the source's coordinate, and one without hops is left
out. -/
def State.cutRoute (s : State) (src : BitVec 24) (r : BitVec 128) : BitVec 128 :=
  let l := ((List.range (routeSegs r + 1)).map (fun i => s.cutSeg src (segOf r i))).filter (fun g => segHops g ≠ 0)
  BitVec.ofNat 128 (routeTc r * 2 ^ 83 + (l.length - 1) * 2 ^ 80 + (l.zipIdx.map (fun p => p.1 * 2 ^ (10 * p.2))).sum)

/-- A packet is discarded, and its source is told on the return route; a NOTICE is never answered. A NOTICE for a packet of
this device reaches its hub. -/
def State.dropPacket (s : State) (p : Packet) (reason : Nat) : State :=
  if p.typ = tNOTICE then s
  else
    let n := s.mkResponse p tNOTICE (noticeBytes reason p) []
    if p.srcpos = s.fpos then { s with fab := { s.fab with inbox := s.fab.inbox ++ [n] } }
    else s.emit { n with fwd := s.cutRoute p.srcpos n.fwd }

/-! ## The router (R464) -/

/-- The types of R469. -/
def knownType (t : BitVec 8) : Bool := 1 ≤ t.toNat && t.toNat ≤ 0x11

/-- A packet travels in the wrong traffic class. -/
def wrongClass (p : Packet) : Bool := knownType p.typ && (isResponse p.typ ≠ decide (routeTc p.fwd = 1))

/-- The hub takes a packet: one for another device is misdelivered, one of a reserved type is discarded and counted. -/
def State.deliver (s : State) (p : Packet) : State :=
  if p.dstpos ≠ s.fpos then s.dropPacket p 3
  else if !knownType p.typ then s.event 5 4 (p.typ.toNat + p.ridx % 2 ^ 16 * 2 ^ 16)
  else { s with fab := { s.fab with inbox := s.fab.inbox ++ [p] } }

/-- A packet with hops left goes on; none while its channel does not take it. -/
def State.forward (s : State) (p : Packet) : Option State :=
  match s.hop p with
  | .inr reason => some (s.dropPacket p reason)
  | .inl (port, vc, q) => s.sendOn port vc q

/-- A packet at this device's router. -/
def State.atRouter (s : State) (p : Packet) : Option State :=
  if wrongClass p then some (s.dropPacket p 2)
  else if p.hleft ≠ 0 then s.forward p
  else if p.seg = routeSegs p.fwd then some (s.deliver p)
  else match s.enterSeg p (p.seg + 1) with
    | .inr reason => some (s.dropPacket p reason)
    | .inl q => s.forward q

/-- A packet of this device starts. -/
def State.startPacket (s : State) (p : Packet) : Option State :=
  if wrongClass p then some (s.dropPacket p 2)
  else match s.enterSeg p 0 with
    | .inr reason => some (s.dropPacket p reason)
    | .inl q => s.forward q

/-- No earlier packet of the same route waits to leave. -/
def firstOf (l : List Packet) (p : Packet) : Bool := (l.find? (fun q => q.fwd = p.fwd)) = some p

/-- ROUTER_HOP: a packet that the hub has sent leaves, in the order of its route; any other packet is one that has arrived over
a link. With FABCFG.EN clear the router drops it. -/
def execRouterHop (p : Packet) (s : State) : Out :=
  if s.fab.out.contains p then
    let gone : State := { s with fab := { s.fab with out := s.fab.out.erase p } }
    if !s.fabOn then .next gone
    else if firstOf s.fab.out p then .next ((gone.startPacket p).getD s)
    else .next s
  else if s.fabOn then .next ((s.atRouter p).getD s)
  else .next s

end Sys2Proof.Machine
end

