-- ==== Sys2Proof/Machine/Restore.lean ====
section
/-! DEFINITION. RESTORE (R435 to R438): the creel's checks of an image, and how a span is planted again from it; and a pull
that takes too long (R440). -/

namespace Sys2Proof.Machine

/-! ## Checks (R435) -/

/-- The courses of an image that still have to run. -/
def Image.coursesLeft (x : Image) : Nat :=
  x.span.courses - ((x.courses.filter (fun c => x.wefts.all (fun w => w.course ≠ c.id || w.w.status = .ended))).length)

/-- Every course fits at once. -/
def State.allFitNow (s : State) (x : Image) : Bool :=
  decide (x.coursesLeft ≤ ((List.range 8).map (fun c => s.coursesOn c x.span.kernel x.span.cvw)).sum)

/-- STATUS of the checks after the first; 0 when all pass. -/
def State.restoreCheck (s : State) (asid : Nat) (x : Image) : Nat :=
  let c := s.ctx asid
  let dom := s.domainFor asid
  if 256 < x.head.maxbolts || regFile < x.head.maxreg || scratchSize < x.head.maxscr || !cvwOk x.span.cvw x.span.kernel.bolts then 10
  else if !x.span.kernels.all (fun k => c.loads.any (fun r => r.digest = k.1 && r.base.toNat = k.2)) then 11
  else if !c.trans.getLsbD 0 || c.st ≠ .live || x.feeds.any (fun f => 256 ≤ f.num || (s.feed f.num).cap ≠ 0) ||
      x.boxes.any (fun b => c.mboxes.any (fun m => m.line = b.1)) then 12
  else if x.head.dpos ≠ (dom.map (fun e => e.dpos)).getD 0 || x.head.dshape ≠ (dom.map (fun e => e.dshape)).getD 0 then 13
  else if x.span.flags.getLsbD 0 && !s.allFitNow x then 7
  else 0

/-! ## Pages that follow (R439) -/

/-- The address of the level 0 entry of a page, where tables lead to one; the fuel bounds the levels. -/
def State.slotFrom (s : State) (va : Nat) : Nat → Nat → Nat → Option Nat
  | 0, _, _ => none
  | fuel + 1, table, level =>
    let a := table + 8 * walkIndex va level
    let e := Store.readNat s.mem a 8
    if s.lineBad a then none
    else if level = 0 then (if entryAddr e = 0 then none else some a)
    else if !e.testBit 0 || malformed level e || e.testBit 1 then none
    else s.slotFrom va fuel (entryAddr e) (level - 1)

/-- The level 0 entry that the supervisor has set up for a page of a context, with the frame it chose. -/
def State.leafSlot (s : State) (asid va : Nat) : Option Nat :=
  let t := (s.ctx asid).trans.toNat
  if t.testBit 0 then s.slotFrom va 4 (entryAddr t) 3 else none

/-- The granules of a range. -/
def ImgRange.granules (r : ImgRange) : List Nat := (List.range (r.len / granule)).map (fun i => r.va / granule + i)

/-- The frame that this device itself holds for a page of an image. -/
def State.heldFrame (s : State) (digest : List Byte) (vpn : Nat) : Option Nat :=
  (s.heldImages.find? (fun h => h.digest = digest)).bind (fun h => (h.pages.find? (fun p => p.1 = vpn)).map (·.2))

/-- Write the leaf of a page of a moved image: one held here is present again, another is to follow. -/
def State.followLeaf (s : State) (digest : List Byte) (perm vpn a : Nat) : State :=
  let e := match s.heldFrame digest vpn with
    | some f => f * granule + perm * 4 + 3
    | none => entryAddr (Store.readNat s.mem a 8) + 2 ^ 54 + perm * 4 + 2
  s.homeWrite a (natLe 8 e)

/-- Every page of the image's ranges has its entry. -/
def State.slotsReady (s : State) (asid : Nat) (x : Image) : Bool :=
  x.head.kind ≠ 1 || x.pages.all (fun r => r.granules.all (fun g => (s.leafSlot asid (g * granule)).isSome))

/-- The pages of a moved image stand over what was mapped; cached translations of them are gone. -/
def State.followPages (s : State) (asid : Nat) (x : Image) : State :=
  if x.head.kind ≠ 1 then s
  else
    let all := x.pages.flatMap (fun r => r.granules)
    let s : State := { s with
      tlb := s.tlb.filter (fun t => !(t.asid = asid && all.any (fun g => t.vpn ≤ g && g < t.vpn + t.span))),
      pulls := s.pulls.filter (fun p => !(p.asid = asid && all.contains (p.va / granule))),
      holders := s.holders.map (fun (h : Holder) => if h.asid = asid then { h with left := h.left.filter (fun g => !all.contains g) } else h) }
    let away (r : ImgRange) : List Nat := r.granules.filter (fun g => (s.heldFrame x.digest g).isNone)
    let new := (x.pages.map (fun r => r.pos)).eraseDups.map (fun p =>
      ({ asid := asid, digest := x.digest, pos := BitVec.ofNat 24 p,
         left := (x.pages.filter (fun r => r.pos = p)).flatMap away } : Holder))
    let s := x.pages.foldl (fun (s : State) r => r.granules.foldl (fun (s : State) g =>
      match s.leafSlot asid (g * granule) with
      | some a => s.followLeaf x.digest r.perm g a
      | none => s) s) s
    let s : State := { s with holders := s.holders ++ new, heldImages := s.heldImages.filter (fun h => h.digest ≠ x.digest) }
    s.releaseHolders (fun h => h.left.isEmpty)

/-! ## Handles and stamps -/

/-- Where an image's parts stand in this device: the first handles of its courses, bolts and wefts, and what is added to its
stamps. -/
structure Planting where
  img : Image
  asid : Nat
  span : Nat
  course0 : Nat
  bolt0 : Nat
  weft0 : Nat
  shift : Nat

def Planting.courseH (p : Planting) (c : Nat) : Nat := p.course0 + p.img.courses.findIdx (fun x => x.id = c)
def Planting.boltH (p : Planting) (c b : Nat) : Nat := p.bolt0 + p.img.bolts.findIdx (fun x => x.course = c && x.id = b)
def Planting.weftH (p : Planting) (c b w : Nat) : Nat :=
  p.weft0 + p.img.wefts.findIdx (fun x => x.course = c && x.bolt = b && x.w.id = w)

/-- The largest stamp an image names. -/
def Image.lastStamp (x : Image) : Nat :=
  let cs := x.copies.flatMap (fun c => c.2.contrib.map (·.2))
  let es := x.matrix.flatMap (fun m => m.entries.flatMap (fun e => e.1 :: (match e.2.kind with
    | .mma l => l.map (fun y => y.at_)
    | _ => [])))
  let ws := x.matrix.flatMap (fun m => m.wefts.filterMap (fun w => w.chain))
  let os := x.seqs.flatMap (fun q => q.held.map (fun c => c.1.ordinal))
  (cs ++ es ++ ws ++ os).foldl max 0

/-! ## The parts of a span (R436, R437) -/

/-- A copy goes on at its nest position. -/
def Planting.copy (p : Planting) (c b : Nat) (x : Copy) : Copy :=
  { x with contrib := x.contrib.map (fun y => (p.weftH c b y.1, y.2 + p.shift)) }

def Planting.entry (p : Planting) (c b : Nat) (e : SeqEntry) : SeqEntry :=
  { e with weft := p.weftH c b e.weft,
           kind := match e.kind with
             | .mma l => .mma (l.map (fun (y : MStep) => { y with at_ := y.at_ + p.shift }))
             | k => k }

/-- A bolt off its core, as an image leaves it. -/
def Planting.bolt (p : Planting) (x : ImgBolt) : Bolt :=
  let m := p.img.matrix.find? (fun y => y.course = x.course && y.bolt = x.id)
  let fetching := p.img.wefts.any (fun w => w.course = x.course && w.bolt = x.id && w.trec.any (fun r => r.t.cause = cFetch))
  { course := p.courseH x.course, id := x.id, core := 0, nwefts := x.nwefts, scratch := x.scratch.length,
    sp := Store.putBytes [] 0 x.scratch, spBad := [], folds := [], recs := x.recs, bufs := x.bufs,
    bars := x.bars.map (fun (e : BarEnt) => { e with owner := p.boltH x.course e.owner }),
    copies := (p.img.copies.filter (fun c => c.1.1 = x.course && c.1.2.1 = x.id)).foldl (fun l c =>
      Store.insert l c.1.2.2 (p.copy x.course x.id c.2)) [],
    nextHandle := x.nextHandle, swapped := fetching, out := true,
    savedSlots := match m with
      | some y => y.slots.foldl (fun l q => Store.insert l q.1 { q.2 with owner := q.2.owner.map (p.weftH x.course x.id) }) []
      | none => [],
    savedSeq := match m with
      | some y => y.entries.foldl (fun l q => Store.insert l (q.1 + p.shift) (p.entry x.course x.id q.2)) []
      | none => [] }

/-- The producers that a weft issues again: its polls and its pops, numbered from `fid`. -/
def WeftX.flights (x : WeftX) (fid : Nat) : List Flight :=
  let polls := x.polls.map (fun y => (y.mask, FlightKind.waitv y.d y.eq y.w64 y.words y.acq y.ext y.tag y.pc))
  let pops := x.pops.map (fun y => ((1 : Mask), FlightKind.popw y.1 y.2.1 y.2.2))
  (polls ++ pops).zipIdx.map (fun y => { fid := fid + y.2, mask := y.1.1, aborted := 0, kind := y.1.2 })

/-- What an image keeps of a weft beside its record. -/
def Planting.addX (p : Planting) (x : WeftX) (fid : Nat) (w : Weft) : Weft :=
  let page (g : Nat × Nat × Nat) : Nat × Nat × Nat := (pseudoAddr p.asid g.1, g.2)
  { w with
    trapcause := x.tregs.getD 0 0, trappc := x.tregs.getD 1 0, trapaddr := x.tregs.getD 2 0, trapmask := x.tregs.getD 3 0,
    pend := x.pend, mfail := x.mfail, scale := x.scale, sparse := x.sparse, nextBatch := x.nextBatch,
    chain := x.chain.map (· + p.shift), lowWindows := x.lowWindows, flights := x.flights fid,
    batches := x.batches.map (fun (b : Batch) => { b with parts := b.parts.map page }) }

/-- A scalar that is empty and that no producer will fill was aborted (R110). -/
def Weft.markAborted (w : Weft) : Weft :=
  { w with sAbort := (List.range w.sregs).filter (fun n =>
      !(w.s n).full && !w.flights.any (fun f => f.fills (.s (BitVec.ofNat 6 n)))) }

/-- A weft's record delivered anew: where its cause goes now. -/
def reroute (c : Ctx) (w : Weft) (r : TrapRec) : TrapRec :=
  { r with route := match faultRoute c w r.t.cause with
      | .mailbox => .mailbox
      | _ => .supervisor }

/-- Plant one weft. -/
def Planting.weft (p : Planting) (s : State) (x : ImgWeft) : State :=
  let h := p.weftH x.course x.bolt x.w.id
  let w : Weft := { x.w with bolt := p.boltH x.course x.bolt }
  let m := (p.img.matrix.find? (fun y => y.course = x.course && y.bolt = x.bolt)).bind (fun y => y.wefts.find? (fun z => z.id = x.w.id))
  let n := (m.map (fun y => (y.flights 0).length)).getD 0
  let w := match m with
    | some y => p.addX y s.order w
    | none => w
  let w : Weft := { w.markAborted with trec := x.trec.map (fun r => reroute (s.ctx p.asid) w r) }
  let s : State := { s.setWeft h w with order := s.order + n }
  w.flights.foldl (fun (s : State) f => match f.kind with
    | .popw _ q _ => s.setFeed q { s.feed q with pops := (s.feed q).pops ++ [(h, f.fid)] }
    | _ => s) s

/-- Where the ring of a restored feed queue lies in the core aperture: each queue's own place (DESIGN CHOICE, log 151: the supervisor
chooses it). -/
def feedRing (num : Nat) : Nat := coreAperture + 2 ^ 47 + num * 2 ^ 18

/-- The records of a feed queue stand in its ring again. -/
def ImgFeed.fill (x : ImgFeed) (q : FeedQ) (s : State) : State :=
  (x.records.zipIdx).foldl (fun (s : State) r => s.aperWrite (q.ringAddr (x.head + r.2)) r.1) s

/-- A feed queue as the image has it. -/
def ImgFeed.queue (x : ImgFeed) (asid : Nat) : FeedQ :=
  { vbase := feedRing x.num, asid := asid, cap := x.cap, xbase := x.xbase, xcap := x.xcap, head := x.head, vtail := x.vtail, tail := x.tail, pops := [] }

/-- The lowest core in service whose reserved record is free and that has room for a handler. -/
def State.boxCore (s : State) (k : Kernel) : Option Nat :=
  (List.range 2048).find? (fun n => (s.cluster (n / 256)).inService && !s.reservedUsed n &&
    s.regsUsed n + k.regBytes ≤ regFile && s.scratchUsed n + k.scratch ≤ scratchSize)

/-- Bind a mailbox of the image; its line stands at the place of its page. -/
def Planting.box (p : Planting) (s : State) (b : Nat × Nat × Bool × Kernel) : State :=
  let (line, descr, pending, k) := b
  let n := (s.boxCore k).getD 0
  let c := s.ctx p.asid
  let m : MBox := { line := line, pa := pseudoAddr p.asid line, descr := descr, core := n,
                    bolt := none, pending := pending, span := p.span, kern := k }
  (s.setCtx p.asid { c with mboxes := c.mboxes ++ [m] }).setCore n { s.core n with handler := some line }

/-- A page's share of an open sequence, at the place that stands for it. -/
def Planting.seq (p : Planting) (s : State) (q : ImgSeq) : State :=
  let part := pseudoAddr p.asid q.va
  let put (y : Contribution × Nat × Nat × Nat) : Contribution :=
    { y.1 with weft := p.weftH y.2.1 y.2.2.1 y.2.2.2, part := part, len := q.len, ordinal := y.1.ordinal + p.shift,
               elems := y.1.elems.map (fun e => (pseudoAddr p.asid e.1, e.2)) }
  s.setAcc part { len := q.len, next := q.next, held := q.held.map put }

/-- The span that a RESTORE makes. -/
def State.restoredSpan (s : State) (qid : Nat) (q : Queue) (d : List Byte) (x : ImgSpan) : Span :=
  { Span.absent with
    asid := q.asid, qid := qid, pkt := q.ridx, cls := x.cls, kernel := x.kernel, courses := x.courses, flags := x.flags,
    cvw := x.cvw, compl := x.compl, args := x.args, placed := x.placed, ctime := x.ctime,
    submitted := if x.deadline = 0 then s.ltime else s.ltime + x.deadline * 1000 - q.deadline * 1000, rel := tRel d + 4 * tAcq d,
    idSpan := match s.domainFor q.asid with | some e => e.idSpan | none => 0,
    idSpans := match s.domainFor q.asid with | some e => e.idSpans | none => 1 }

/-- Write the state of the span; its courses then wait for a place. -/
def State.plant (s : State) (qid : Nat) (q : Queue) (d : List Byte) (x : Image) : State :=
  let sp := Store.fresh s.spans
  let p : Planting := { img := x, asid := q.asid, span := sp, course0 := Store.fresh s.courses, bolt0 := Store.fresh s.bolts,
                        weft0 := Store.fresh s.wefts, shift := s.order }
  let s := s.setSpan sp (s.restoredSpan qid q d x.span)
  let s : State := { s with order := s.order + x.lastStamp + 1 }
  let c := s.ctx q.asid
  let s := s.setCtx q.asid { c with deleg := delegMask x.span.deleg, peer := x.span.peer, peermb := x.span.peermb,
                                    peerbase := x.span.peerbase, progress := s.ltime }
  let s := s.followPages q.asid x
  let s := x.feeds.foldl (fun (s : State) f => (f.fill (f.queue q.asid) s).setFeed f.num (f.queue q.asid)) s
  let s := x.courses.foldl (fun (s : State) y =>
    let done := x.wefts.all (fun w => w.course ≠ y.id || w.w.status = .ended)
    s.setCourse (p.courseH y.id) { Course.absent with
      span := sp, id := y.id, cluster := 8, nbolts := y.nbolts, vlen := y.vault.length,
      vault := Store.putBytes [] 0 y.vault, start := s.ltime, ended := done }) s
  let s := x.bolts.foldl (fun (s : State) b => s.setBolt (p.boltH b.course b.id) (p.bolt b)) s
  let s := x.wefts.foldl (fun (s : State) w => p.weft s w) s
  let s := x.boxes.foldl (fun (s : State) b => p.box s b) s
  let s := x.seqs.foldl (fun (s : State) y => p.seq s y) s
  let s := s.landReady
  let touched := x.seqs.map (fun y => y.va) ++ x.boxes.map (fun b => b.1)
  let s := touched.foldl (fun (s : State) va => s.pullFor q.asid va) s
  x.feeds.foldl (fun (s : State) f => s.feedServe f.num) s

/-! ## RESTORE -/

/-- The STATUS 9 record: it goes to the halt slot, as an event. -/
def State.badImage (s : State) (qid : Nat) : State := (s.event 2 qid 9).haltPut qid (recordBytes 9 0 0 s.nextSeq)

/-- The refusal of an image, at the COMPL it records. -/
def State.refuseImage (s : State) (qid asid compl status : Nat) : PkRes :=
  match (s.event 2 qid status).putRecord qid asid compl status 0 0 s.nextSeq with
  | .inl t => .done t
  | .inr va => .held (some va)

/-- An image whose header is good enough to say how long it is. -/
def headOk (l : List Byte) : Bool := fieldAt l 0 4 = imgMAGIC && fieldAt l 4 2 = 1 && 128 ≤ fieldAt l 8 8

/-- PREEMPT RESTORE. -/
def execPreemptRestore (qid : Nat) (s : State) : Out :=
  s.preempt qid 3 (fun s q d =>
    let va := fieldAt d 16 8
    if fieldAt d 0 8 ≠ 0 then .err s 2
    else hubThen (s.hubRead q.asid va 128) (fun s l =>
      if !headOk l then .done (s.badImage qid)
      else hubThen (s.hubRead q.asid va (fieldAt l 8 8)) (fun s l =>
        match readImage l with
        | none => .done (s.badImage qid)
        | some x =>
          match s.restoreCheck q.asid x with
          | 0 => if s.slotsReady q.asid x then .done (s.plant qid q d x) else .held none
          | n + 1 => s.refuseImage qid q.asid x.span.compl (n + 1))))

/-! ## Unreachable pages (R440) -/

/-- PULL_TIMEOUT: a page still pulled after 1 s is unreachable. -/
def execPullTimeout (n now : Nat) (s : State) : Out :=
  let s := s.advanceTime now
  match s.pulls[n]? with
  | none => .next s
  | some p => if 1000000000 ≤ s.ltime - p.since then .next { s with pulls := s.pulls.set n { p with dead := true } } else .next s

end Sys2Proof.Machine
end

