-- ==== Sys2Proof/Machine/Fabric.lean ====
section
/-! DEFINITION. What a hub does with the packets that arrive (R469, R477 to R481, R485): accesses, signals and markers at the
destination, responses and failures at the source, remote notifies (R383), pages that follow (R440) and checkpoint pieces
(R443). -/

namespace Sys2Proof.Machine

/-! ## Packets that have arrived -/

/-- Lines of a packet's bytes at the destination. -/
def packetLines (p : Packet) : List Nat := linesOf p.addr.toNat (max p.len 1)

/-- Accesses of the hub on behalf of a peer. -/
def isAccess (t : BitVec 8) : Bool := t == tWRITE || t == tREAD || t == tATOM || t == tSIGNAL || t == tMARKER

/-- An earlier packet of the same path must be performed first (R480): any of them before an ORDERED one and a MARKER, one of
the same line before an access. -/
def State.blocked (s : State) (p : Packet) : Bool :=
  (s.fab.inbox.take (s.fab.inbox.idxOf p)).any (fun q =>
    isAccess q.typ && q.srcpos = p.srcpos && q.ridx = p.ridx &&
      (p.ordered || p.typ = tMARKER || (packetLines q).any (fun l => (packetLines p).contains l)))

/-- The packet leaves the hub's input. -/
def State.takePacket (s : State) (p : Packet) : State := { s with fab := { s.fab with inbox := s.fab.inbox.erase p } }

/-- Work on a packet of a type that has arrived. -/
def State.onPacket (s : State) (p : Packet) (typ : BitVec 8) (f : State → State) : Out :=
  if p.typ = typ && s.fab.inbox.contains p then .next (f (s.takePacket p)).wake else .next s

/-! ## At the destination (R477) -/

/-- The ERROR response: the reason of R478 and the refused request's TAG. -/
def State.refusePacket (s : State) (p : Packet) (reason : Nat) : State :=
  s.emit (s.mkResponse p tERROR (natLe 4 reason ++ natLe 4 p.tag.toNat) [])

/-- What an access at the destination comes to. -/
inductive FabRes where
  /-- It is performed. -/
  | done (s : State)
  /-- It waits on the page of an address. -/
  | hold (va : Nat)
  /-- It is refused with a reason. -/
  | refuse (s : State) (reason : Nat)

/-- Perform a packet's access in the context of its domain, in its turn. -/
def State.atDestination (s : State) (p : Packet) (typ : BitVec 8) (f : State → Nat → FabRes) : Out :=
  if p.typ ≠ typ || !s.fab.inbox.contains p || s.blocked p then .next s
  else match s.domainOf p.domid with
    | none => .next ((s.takePacket p).refusePacket p 4)
    | some (_, e) =>
      if (s.ctx e.asid).st = .killed then .next ((s.takePacket p).refusePacket p 7)
      else match f (s.takePacket p) e.asid with
        | .done t => .next t.wake
        | .hold va => .next (s.pullFor e.asid va)
        | .refuse t r => .next (t.refusePacket p r).wake

/-- WRITE. -/
def execFabricWrite (p : Packet) (s : State) : Out :=
  s.atDestination p tWRITE (fun s asid =>
    match s.hubWrite asid p.addr.toNat (p.payload.take p.len) with
    | (s, .ok _) => .done s
    | (_, .hold va) => .hold va
    | (s, _) => .refuse s 3)

/-- Bytes from an address with the places of those that an uncorrectable line answers; the fuel bounds the lines. -/
def State.readFlagged (s : State) (asid : Nat) : Nat → Nat → Nat → Nat → State × (List Byte × List Nat ⊕ HubAns)
  | 0, _, _, _ => (s, .inl ([], []))
  | fuel + 1, at_, va, n =>
    if n = 0 then (s, .inl ([], []))
    else
      let k := min n (64 - va % 64)
      match s.hubTranslate asid va .read with
      | (s, .mig) => (s, .inr (.hold va))
      | (s, .fault _ i) => (s, .inr (if i = 6 then .hold va else .refused i))
      | (s, .ok pa) =>
        let (s, l, bad) : State × List Byte × List Nat := match s.homeRead pa k 0 asid with
          | (s, some l) => (s, l, [])
          | (s, none) => (s, List.replicate k 0, (List.range k).map (fun i => (at_ + i) / 8))
        match s.readFlagged asid fuel (at_ + k) (va + k) (n - k) with
        | (s, .inl (r, b)) => (s, .inl (l ++ r, bad ++ b))
        | x => x

/-- READ, answered by RDATA. -/
def execRead (p : Packet) (s : State) : Out :=
  s.atDestination p tREAD (fun s asid =>
    match s.readFlagged asid (p.len / 64 + 2) 0 p.addr.toNat p.len with
    | (s, .inl (l, bad)) => .done (s.emit (s.mkResponse p tRDATA l bad.eraseDups))
    | (_, .inr (.hold va)) => .hold va
    | (s, .inr _) => .refuse s 3)

/-- The operation of an ATOM packet: operation, width, operand, value of C + 1; none for an operation or a width that does
not exist. -/
def atomOf (l : List Byte) : Option (AtomOp × Nat × Nat × Nat) :=
  let n := fieldAt l 1 1
  match AtomOp.ofCode (BitVec.ofNat 4 (fieldAt l 0 1)) with
  | some op => if fieldAt l 0 1 < 16 && (n = 4 || n = 8) then some (op, n, fieldAt l 8 8, fieldAt l 16 8) else none
  | none => none

/-- The ADATA response to an ATOM with TAG bit 31. -/
def State.answerAtom (s : State) (p : Packet) (r : Option Nat) : State :=
  if !p.tag.getLsbD 31 then s
  else match r with
    | some old => s.emit (s.mkResponse p tADATA (natLe 8 old) [])
    | none => s.emit (s.mkResponse p tADATA (natLe 8 0) [0])

/-- ATOM. -/
def execFabricAtom (p : Packet) (s : State) : Out :=
  s.atDestination p tATOM (fun s asid =>
    match atomOf p.payload with
    | none => .refuse s 3
    | some (op, n, a, c1) =>
      if p.addr.toNat % n ≠ 0 then .refuse s 3
      else match s.hubTranslate asid p.addr.toNat .rw with
        | (_, .mig) => .hold p.addr.toNat
        | (s, .fault _ i) => if i = 6 then .hold p.addr.toNat else .refuse s 3
        | (s, .ok pa) =>
          let (s, r) := s.homeAtom op n (op = .fadd) pa a c1 asid
          .done (s.answerAtom p r))

/-- The bolt that a target word names among the courses of a context's spans. -/
def State.signalBolt (s : State) (asid tw : Nat) : Option Nat :=
  let c := tw / 2 ^ 28 % 2 ^ 32
  ((s.liveSpans asid).flatMap (fun p => s.coursesOf p.1)).findSome? (fun p =>
    if p.2.id = c then s.boltIn p.1 (tw / 2 ^ 20 % 256) else none)

/-- The barrier has had bytes of another device counted into its phase (R385, R481). -/
def State.markRemote (s : State) (bh off : Nat) : State :=
  let ph := (s.bolt bh).barPhase off
  let b := s.bolt bh
  s.setBolt bh { b with bars := b.bars.map (fun (e : BarEnt) =>
    if e.owner = bh && e.off = off && !e.remote.contains ph then { e with remote := ph :: e.remote } else e) }

/-- SIGNAL (R475): Land at a LIVE barrier; a Land that would bring BCNT to 2^40 is refused and ends the barrier. -/
def execFabricSignal (p : Packet) (s : State) : Out :=
  s.atDestination p tSIGNAL (fun s asid =>
    let off := p.addr.toNat % 2 ^ 20
    let k := fieldAt p.payload 0 8
    match s.signalBolt asid p.addr.toNat with
    | none => .refuse s 5
    | some bh =>
      if s.barState bh off ≠ 1 then .refuse s 5
      else if 2 ^ 40 ≤ ((s.bolt bh).obj off).bcnt + k then .refuse (s.barLand bh off k) 5
      else .done (((s.markRemote bh off).noteExempt asid).barLand bh off k))

/-- MARKER: once every earlier packet of its path has been performed, its MACK goes out (R480). -/
def execMarker (p : Packet) (s : State) : Out :=
  if p.typ = tMARKER && s.fab.inbox.contains p && !s.blocked p then
    .next ((s.takePacket p).emit (s.mkResponse p tMACK [] []))
  else .next s

/-! ## Withdrawal at the destination (R485) -/

/-- Every LIVE barrier of a context is checked. -/
def State.checkBarriers (s : State) (asid : Nat) : State :=
  let bs := s.bolts.filter (fun p => (s.span (s.course p.2.course).span).asid = asid)
  bs.foldl (fun (s : State) p => (p.2.objects p.1).foldl (fun (s : State) off =>
    if s.barState p.1 off = 1 then s.peerCheck p.1 off else s) s) s

/-- WITHDRAW. -/
def execWithdraw (p : Packet) (s : State) : Out :=
  s.onPacket p tWITHDRAW (fun s =>
    match s.domainOf p.domid with
    | none => s
    | some (i, e) =>
      ({ s with fab := { s.fab with domains := Store.insert s.fab.domains i { e with peerlost := true } } } : State).checkBarriers e.asid)

/-! ## Failures at the source (R478, R479) -/

/-- A failure waits on a path for the next release that covers it. -/
def State.failPath (s : State) (asid ridx info : Nat) (addr : Va) : State :=
  if s.fab.egress.any (fun e => e.asid = asid && e.ridx = ridx) then
    s.mapPath asid ridx (fun e => { e with failed := e.failed ++ [(info, addr)] })
  else
    { s with fab := { s.fab with egress := s.fab.egress ++
        [{ asid := asid, ridx := ridx, count := 0, markers := [], failed := [(info, addr)], used := s.order }] } }

/-- The threads of a flight that a request serves: for an XLD those with a byte in its run. -/
def requestThreads (f : Flight) (q : Req) : Mask :=
  match f.kind with
  | .xld _ _ _ _ _ locs _ _ _ =>
    let mine (k : Nat) : Bool := k / 2 ^ 58 = q.thr
    maskOf ((locs.filter (fun x => (match x.at_ with | some p => mine p.1 | none => false) ||
      (match x.scale with | some a => mine a | none => false))).map (fun x => x.thr))
  | _ => tbit q.thr

/-- A failed XLD, or XATOM with return: its registers become 0, RAW and full, and the weft traps at its next boundary. A
weft that has ended leaves the failure to the supervisor. -/
def State.failRead (s : State) (q : Req) (info : Nat) : State :=
  let w := s.weft q.weft
  if w.status = .ended then s.remoteLost q.asid q.ridx
  else match q.fid.bind (fun i => w.flight i) with
    | none => s
    | some f =>
      let ts := f.mask &&& requestThreads f q
      if ts = 0 then s
      else
        let t := w.fault cPeer (info := info) (addr := q.addr.toNat) (mask := ts)
        s.mapWeft q.weft (fun w =>
          let w := (w.putAll f.dest ((threads ts).map (fun t => (t, (⟨0, tagRAW, true⟩ : Cell))))).setFlight f.fid (fun x =>
            { x with mask := x.mask &&& ~~~ts })
          { w with pend := some (w.pend.getD t), pendPath := if w.pend.isSome then w.pendPath else q.ridx })

/-- Forget a request. -/
def State.dropReq (s : State) (q : Req) : State := { s with fab := { s.fab with reqs := s.fab.reqs.erase q } }

/-- A marker will not be answered: it covers nothing any longer. -/
def State.dropMarker (s : State) (asid ridx tag : Nat) : State :=
  s.mapPath asid ridx (fun e => { e with markers := e.markers.filter (fun t => t ≠ tag) })

/-- The virtual address that a request concerns: none of a signal's or a marker's. -/
def reqAddr (q : Req) : Va := if q.typ = tSIGNAL || q.typ = tMARKER then 0 else q.addr

/-- A request has failed. -/
def State.failReq (s : State) (q : Req) (info : Nat) : State :=
  let s := s.dropReq q
  if q.fid.isSome then s.failRead q info
  else if q.typ = tMARKER then (s.dropMarker q.asid q.ridx q.tag).failPath q.asid q.ridx info 0
  else s.failPath q.asid q.ridx info (reqAddr q)

/-- A page asked for will not come. -/
def State.failPull (s : State) (tag : Nat) : State :=
  { s with pulls := s.pulls.map (fun (p : Pull) => if p.tag = tag && !p.dead then { p with dead := true } else p) }

/-- A checkpoint piece has failed. -/
def State.failPiece (s : State) (tag : Nat) : State :=
  match s.ckpts.find? (fun c => c.sent.contains tag) with
  | some c => s.ckptFail c 6
  | none => s

/-- The request carries a trap record to a peer's mailbox; no thread sent it (R375). -/
def Req.isRecord (q : Req) : Bool := q.typ == tWRITE && q.thr = 64

/-- What a tag stands for fails with an INFO. A request through a gateway port has no packet. A trap record that did not
reach the peer's mailbox goes into the supervisor's ring unchanged (R375). -/
def State.failTag (s : State) (tag info : Nat) : State :=
  match s.fab.reqs.find? (fun q => q.tag = tag && !q.gw) with
  | some q => if q.isRecord then (s.dropReq q).ringPut q.data else s.failReq q info
  | none => (s.failPull tag).failPiece tag

/-- NOTICE: a request on a path breaks that path's entry (R484), and fails (R478). The NOTICE is of a request of this device
when it names an entry's route. -/
def execNotice (p : Packet) (s : State) : Out :=
  s.onPacket p tNOTICE (fun s =>
    let ridx := fieldAt p.payload 2 2
    let (s, e) := s.route ridx
    if e.valid && e.fwd = p.ret then
      ((s.breakRoute ridx).event 5 6 (ridx + fieldAt p.payload 0 1 * 2 ^ 16)).failTag p.tag.toNat 1
    else s)

/-- ERROR. -/
def execError (p : Packet) (s : State) : Out :=
  s.onPacket p tERROR (fun s => s.failTag (fieldAt p.payload 4 4) (fieldAt p.payload 0 4))

/-- REMOTE_TIMEOUT: no response within RTO to a request that is owed one, or to a marker. -/
def execRemoteTimeout (tag now : Nat) (s : State) : Out :=
  let s := s.advanceTime now
  match s.fab.reqs.find? (fun q => q.tag = tag) with
  | none => .next s
  | some q =>
    let owed := q.fid.isSome || q.typ = tMARKER || (q.gw && q.typ ≠ tPIECE)
    if owed && s.fab.rto.toNat * 1000 ≤ s.ltime - q.sent then .next (s.failReq q 2).wake else .next s

/-! ## Responses (R472, R474, R480) -/

/-- Bytes of a run have come back; those of the units in `bad` as aborts. -/
def State.fillXld (s : State) (q : Req) (l : List Byte) (bad : List Nat) : State :=
  match q.fid with
  | none => s
  | some fid =>
    let keys := (List.range q.len).map (fun i => (runKey q.thr (q.addr.toNat + i), l.getD i 0, bad.contains (i / 8)))
    let s := s.mapWeft q.weft (fun w => w.setFlight fid (fun f =>
      { f with kind := match f.kind with
          | .xld d fmt enc nan smode locs acq got lost =>
            .xld d fmt enc nan smode locs acq (keys.foldl (fun g k => Store.insert g k.1 k.2.1) got)
              (lost ++ (keys.filter (fun k => k.2.2)).map (·.1))
          | k => k }))
    s.landXld q.weft fid

/-- RDATA; one that answers nothing is discarded. -/
def execRdata (p : Packet) (s : State) : Out :=
  s.onPacket p tRDATA (fun s =>
    match s.fab.reqs.find? (fun q => q.tag = p.tag.toNat && q.typ = tREAD && !q.gw) with
    | none => s
    | some q => (s.dropReq q).fillXld q p.payload p.aborts)

/-- A thread's XATOM has its old value, or an abort. -/
def State.fillXatom (s : State) (q : Req) (old : Option Nat) : State :=
  match q.fid.bind (fun i => (s.weft q.weft).flight i) with
  | none => s
  | some f =>
    match f.kind with
    | .xatom d tags acq =>
      if !f.mask.getLsbD q.thr then s
      else
        let tag : BitVec 6 := ((tags.find? (fun p => p.1 = q.thr)).map (·.2)).getD tagI64
        let s := if acq then s.acquireL1 (s.coreOf (s.weft q.weft)) else s
        s.landLane q.weft f.fid d q.thr (old.map (fun v => (mkCell (v % 2 ^ (8 * atomBytes tag)) tag, 0)))
    | _ => s

/-- ADATA. -/
def execAdata (p : Packet) (s : State) : Out :=
  s.onPacket p tADATA (fun s =>
    match s.fab.reqs.find? (fun q => q.tag = p.tag.toNat && q.typ = tATOM && !q.gw) with
    | none => s
    | some q => (s.dropReq q).fillXatom q (if p.aborts.isEmpty then some (fieldAt p.payload 0 8) else none))

/-- One request was made before another, by their tags. -/
def tagBefore (a b : Nat) : Bool := (b % 2 ^ 31 + 2 ^ 31 - a % 2 ^ 31) % 2 ^ 31 < 2 ^ 30

/-- A marker is answered: it and the earlier ones of its path are done, with the requests they cover. -/
def State.marked (s : State) (q : Req) : State :=
  let s := s.mapPath q.asid q.ridx (fun e =>
    if e.markers.contains q.tag then { e with markers := (e.markers.dropWhile (fun t => t ≠ q.tag)).drop 1 } else e)
  { s with fab := { s.fab with reqs := s.fab.reqs.filter (fun x =>
      !(x.asid = q.asid && x.ridx = q.ridx && x.fid.isNone && !x.gw && tagBefore x.tag q.tag)) } }

/-- MACK. -/
def execMack (p : Packet) (s : State) : Out :=
  s.onPacket p tMACK (fun s =>
    match s.fab.reqs.find? (fun q => q.tag = p.tag.toNat && q.typ = tMARKER) with
    | none => s
    | some q => s.marked q)

/-! ## Pages that follow (R440) -/

/-- PULL: the holder answers with the page's bytes, or refuses. -/
def execPull (p : Packet) (s : State) : Out :=
  if p.addr.toNat = releaseAddr then .next s
  else s.onPacket p tPULL (fun s =>
    let page := (s.heldImages.find? (fun h => h.digest = p.payload)).bind (fun h =>
      h.pages.find? (fun x => x.1 * granule = p.addr.toNat))
    match page with
    | none => s.refusePacket p 3
    | some (_, frame) =>
      match s.homeRead (frame * granule) granule 0 0 with
      | (s, none) => s.refusePacket p 3
      | (s, some l) => ((chunks 8 l).zipIdx).foldl (fun (s : State) c =>
          s.emit { s.mkResponse p tPAGE c.1 [] with addr := p.addr + BitVec.ofNat 64 (4096 * c.2) }) s)

/-- RELEASE: the holder frees the pages. -/
def execRelease (p : Packet) (s : State) : Out :=
  if p.addr.toNat ≠ releaseAddr then .next s
  else s.onPacket p tPULL (fun s => { s with heldImages := s.heldImages.filter (fun h => h.digest ≠ p.payload) })

/-- A page has come whole: its frame is written, then its leaf, and what waited for it goes on. -/
def State.pageHere (s : State) (x : Pull) (data : List Byte) : State :=
  let s : State := { s with pulls := s.pulls.erase x }
  match s.leafSlot x.asid x.va with
  | none => s
  | some a =>
    let e := Store.readNat s.mem a 8
    if e.testBit 0 || !e.testBit 54 then s
    else
      let frame := entryAddr e / granule
      let s := s.homeWrite (frame * granule) data
      let s : State := { s with cores := s.cores.map (fun (p : Nat × Core) =>
        (p.1, { p.2 with l1 := p.2.l1.filter (fun y => y.line * 64 / granule ≠ frame) })) }
      let s := (s.homeWrite a (natLe 8 (e - 2 ^ 54 + 1))).landReady
      let page := x.va / granule
      let s : State := { s with holders := s.holders.map (fun (h : Holder) =>
        if h.asid = x.asid then { h with left := h.left.filter (fun g => g ≠ page) } else h) }
      s.releaseHolders (fun h => h.left.isEmpty)

/-- PAGE: one of the eight parts of a page. -/
def execPage (p : Packet) (s : State) : Out :=
  s.onPacket p tPAGE (fun s =>
    match s.pulls.find? (fun x => x.tag = p.tag.toNat && !x.dead) with
    | none => s
    | some x =>
      let got := Store.insert x.got ((p.addr.toNat - x.va) / 4096) p.payload
      if got.length = 8 then s.pageHere x (got.flatMap (·.2))
      else { s with pulls := s.pulls.map (fun y => if y = x then { x with got := got } else y) })

/-! ## Checkpoint pieces (R443) -/

/-- A piece has been acknowledged. -/
def State.pieceDone (s : State) (tag : Nat) : State :=
  ({ s with ckpts := s.ckpts.map (fun (c : Ckpt) => { c with sent := c.sent.filter (fun t => t ≠ tag) }) } : State).ckptDone

/-- PIECE: kept in the reserved checkpoint region; and PACK, its acknowledgement. -/
def execPiece (p : Packet) (s : State) : Out :=
  if p.typ = tPACK then s.onPacket p tPACK (fun s => s.pieceDone p.tag.toNat)
  else s.onPacket p tPIECE (fun s =>
    let s : State := { s with ckptRegion := Store.putBytes s.ckptRegion p.addr.toNat p.payload }
    s.emit (s.mkResponse p tPACK [] []))

/-! ## Supervisors and queues (R462, R383) -/

/-- LINKSTATE: a peer's entry of the topology map. -/
def execLinkstate (p : Packet) (s : State) : Out :=
  s.onPacket p tLINKSTATE (fun s => s.putMap (s.linear p.srcpos) (p.payload.take 16))

/-- "K9 NOTIFY", the label of notify tags. -/
def notifyLabel : List Byte := [0x4B, 0x39, 0x20, 0x4E, 0x4F, 0x54, 0x49, 0x46, 0x59]

/-- A notify is dropped for a reason. -/
def State.dropNotify (s : State) (qid reason : Nat) : State :=
  (if qid < numQueues then s.dropKick qid else s).event 4 qid reason

/-- The TAG that a message should carry under a key: the first 8 bytes of its KMAC. -/
def notifyTag (k l : List Byte) : List Byte := ((Config.kmac k (l.take 56 ++ notifyLabel)) ++ List.replicate 8 0).take 8

/-- The checks of R383 on one message; an accepted one is a kick (R390). -/
def State.notify (s : State) (l : List Byte) : State :=
  let qid := fieldAt l 0 2
  let q := s.queue qid
  match q.key with
  | none => s.dropNotify qid 4
  | some k =>
    let seq := fieldAt l 8 8
    let widx := fieldAt l 16 8
    if notifyTag k l ≠ (l.drop 56).take 8 then s.dropNotify qid 1
    else if fieldAt l 2 6 ≠ 0 || !zeroAt l 24 56 then s.dropNotify qid 3
    else if seq ≤ q.lastseq then s.dropNotify qid 2
    else
      ((s.setQueue qid { q with lastseq := seq }).event 4 qid 0).kick qid widx

/-- An earlier message of the same queue has not been checked yet. -/
def State.notifyWaits (s : State) (p : Packet) : Bool :=
  (s.fab.inbox.take (s.fab.inbox.idxOf p)).any (fun q => q.typ = tQNOTIFY && fieldAt q.payload 0 2 = fieldAt p.payload 0 2)

/-- QNOTIFY; one that arrives while a BIND of its queue runs is discarded (R382; neither counted nor an event: DESIGN CHOICE, log 154). -/
def execQnotify (p : Packet) (s : State) : Out :=
  if s.notifyWaits p || !s.booted then .next s
  else s.onPacket p tQNOTIFY (fun s => if (s.queue (fieldAt p.payload 0 2)).binding then s else s.notify p.payload)

end Sys2Proof.Machine
end

