-- ==== Sys2Proof/Machine/Gateways.lean ====
section
/-! DEFINITION. Gateway ports (R487 to R489): what a peer answers to requests of this device, and the requests that come in
through Ultra Ethernet and UALink. -/

namespace Sys2Proof.Machine

/-! ## Answers to this device's requests (R487) -/

/-- A request through a gateway port has its answer: data, or its completion, or a failure. -/
def State.gatewayAnswer (s : State) (q : Req) (ok : Bool) (data : List Byte) : State :=
  if q.typ = tPIECE then (if ok then (s.dropReq q).pieceDone q.tag else (s.dropReq q).failPiece q.tag)
  else if !ok then s.failReq q 3
  else if q.typ = tREAD then (s.dropReq q).fillXld q data []
  else if q.typ = tATOM && q.fid.isSome then (s.dropReq q).fillXatom q (some (leNat (data.take 8)))
  else s.dropReq q

/-- GATEWAY_RESPONSE. -/
def execGatewayResponse (tag : Nat) (ok : Bool) (data : List Byte) (s : State) : Out :=
  match s.fab.reqs.find? (fun q => q.gw && q.tag = tag) with
  | none => .next s
  | some q => .next (s.gatewayAnswer q ok data).wake

/-! ## Requests that come in (R488, R489) -/

/-- The K9 answers a gateway peer. -/
def State.gwAnswer (s : State) (a : GwAns) : State := { s with fab := { s.fab with gwout := s.fab.gwout ++ [a] } }

/-- The port runs a mode: 0 Ultra Ethernet, 1 UALink. -/
def State.gwRuns (s : State) (port mode : Nat) : Bool := port < 4 && s.fab.gwmode[port]? = some mode

/-- The region of a key admits `n` bytes at an offset. -/
def Region.admits (g : Region) (off n : Nat) (write : Bool) : Bool :=
  off + n ≤ g.len && (if write then g.w else g.r) && decide (g.len ≠ 0)

/-- Entries of the region table. -/
def numRegions : Nat := 1024

/-- The region that admits a request, or the answer of a protection error. -/
def State.admitted (s : State) (r : GwReq) (n : Nat) (write : Bool) (f : Region → Out) : Out :=
  match Store.find s.fab.regions r.key with
  | none => .next (s.gwAnswer .protection)
  | some g => if r.key < numRegions && g.admits r.off n write then f g else .next (s.gwAnswer .protection)

/-- Write a request's bytes at its region; a page that is held keeps the request waiting at the port. -/
def State.gwWrite (s : State) (r : GwReq) (done : State → Region → State) : Out :=
  s.admitted r r.data.length true (fun g =>
    match s.hubWrite g.asid (g.base + r.off) r.data with
    | (s, .ok _) => .next (done s g).wake
    | (_, .hold va) => .next (s.pullFor g.asid va)
    | (s, _) => .next (s.gwAnswer .protection))

/-- Read a request's bytes from its region. -/
def State.gwRead (s : State) (r : GwReq) : Out :=
  s.admitted r r.len false (fun g =>
    match s.hubRead g.asid (g.base + r.off) r.len with
    | (s, .ok l) => .next (s.gwAnswer (.ok l))
    | (_, .hold va) => .next (s.pullFor g.asid va)
    | (s, _) => .next (s.gwAnswer .protection))

/-- UET_RMA_WRITE. -/
def execUetRmaWrite (r : GwReq) (s : State) : Out :=
  if s.gwRuns r.port 0 then s.gwWrite r (fun s _ => s.gwAnswer (.ok [])) else .next s

/-- UET_RMA_READ. -/
def execUetRmaRead (r : GwReq) (s : State) : Out := if s.gwRuns r.port 0 then s.gwRead r else .next s

/-- The 64-byte record of a received send: its length and its offset. -/
def sendRecord (r : GwReq) : List Byte := natLe 8 r.data.length ++ natLe 8 r.off ++ List.replicate 48 0

/-- UET_SEND: the message is written, then its record is appended to the entry's feed queue; a full queue, and an entry that
names none, make the receiver not ready. -/
def execUetSend (r : GwReq) (s : State) : Out :=
  if s.gwRuns r.port 0 then
    s.gwWrite r (fun s g =>
      match g.feed with
      | none => s.gwAnswer .notReady
      | some q =>
        match s.feedAppend q (sendRecord r) with
        | (s, 2) => s.gwAnswer .notReady
        | (s, _) => s.gwAnswer (.ok []))
  else .next s

/-- An incoming UALink atomic on a word of 4 or 8 bytes; its operands are the first 16 bytes of its data. -/
def State.gwAtom (s : State) (r : GwReq) (op : AtomOp) : Out :=
  if !Config.ualinkAtom op r.len || !(r.len = 4 || r.len = 8) then .next (s.gwAnswer .unsupported)
  else s.admitted r r.len true (fun g =>
    let va := g.base + r.off
    if !g.r || va % r.len ≠ 0 then .next (s.gwAnswer .protection)
    else match s.hubTranslate g.asid va .rw with
      | (_, .mig) => .next s
      | (t, .fault _ i) => .next (if i = 6 then s.pullFor g.asid va else t.gwAnswer .protection)
      | (t, .ok pa) =>
        match t.homeAtom op r.len (op = .fadd) pa (fieldAt r.data 0 8) (fieldAt r.data 8 8) g.asid with
        | (t, some old) => .next (t.gwAnswer (.ok (natLe r.len old))).wake
        | (t, none) => .next (t.gwAnswer .protection))

/-- UALINK_REQUEST: an atomic, a write or a read. -/
def execUalinkRequest (r : GwReq) (s : State) : Out :=
  if !s.gwRuns r.port 1 then .next s
  else match r.atomOp with
    | some op => s.gwAtom r op
    | none => if r.data.isEmpty then s.gwRead r else s.gwWrite r (fun s _ => s.gwAnswer (.ok []))

end Sys2Proof.Machine
end

