-- ==== Sys2Proof/Machine/Registers.lean ====
section
/-! DEFINITION. What harts write and read by physical address (R347, R370, R372): the hub's registers and queue memory (R367, R388, R409,
R410, R449, R450, R460, R461, R466, R467, R488), protected SRAM, HBM and the core aperture. -/

namespace Sys2Proof.Machine

/-! ## Addresses in the hub aperture -/

/-- Queue state blocks (R388). -/
def qsbBase : Nat := 0x9000000200000
/-- Halt slots (R409) and doorbells (R390). -/
def haltBase : Nat := 0x9000000280000
def doorbellBase : Nat := 0x9000000300000
/-- Fabric registers (R460). -/
def fabricBase : Nat := 0x9000000400000
/-- The domain table's offset among them (R460). -/
def domainOffset : Nat := 0x100
/-- Window words of the fault classes, feed descriptors and region-table entries. -/
def windowBase : Nat := 0x9000000500000
def feedBase : Nat := 0x9000000600000
def regionBase : Nat := 0x9000000700000

/-! ## Fabric registers (R460, R461, R467) -/

/-- FABCFG with its reserved bits zero. -/
def fabcfgMask (x : Dword) : Dword := x &&& BitVec.ofNat 64 (2 ^ 63 + (2 ^ 48 - 1))
/-- RTBASE with its reserved bits zero. -/
def rtbaseMask (x : Dword) : Dword := x &&& BitVec.ofNat 64 (2 ^ 52 - 2 ^ 12)

/-- An unused entry of the domain table. -/
def DomEnt.none : DomEnt :=
  { domid := 0, asid := 0, idSpan := 0, idSpans := 0, valid := false, peerlost := false, dpos := 0, dshape := 0 }

/-- Write dword `k` of a domain-table entry. -/
def DomEnt.write (e : DomEnt) (k : Nat) (x : Dword) : DomEnt :=
  let n := x.toNat
  match k with
  | 0 => { e with domid := BitVec.ofNat 32 n, asid := n / 2 ^ 32 % 2 ^ 16, idSpan := n / 2 ^ 48 }
  | 1 => { e with idSpans := n % 2 ^ 16, valid := x.getLsbD 16, peerlost := x.getLsbD 17, dpos := BitVec.ofNat 24 (n / 2 ^ 32) }
  | 2 => { e with dshape := BitVec.ofNat 24 n }
  | _ => e

/-- Discard every cached route-table entry. -/
def State.flushRoutes (s : State) : State := { s with fab := { s.fab with cache := [] } }

/-- RTFLUSH. -/
def execRtflush (value : Dword) (s : State) : Out := .next (if value.getLsbD 0 then s.flushRoutes else s)

/-- Write a fabric register by its offset. -/
def State.writeFabric (s : State) (off : Nat) (x : Dword) : State :=
  match off with
  | 0x00 => { s with fab := { s.fab with cfg := fabcfgMask x } }
  | 0x08 => { s with fab := { s.fab with rtbase := rtbaseMask x } }
  | 0x10 => { s with fab := { s.fab with rto := BitVec.ofNat 64 (x.toNat % 2 ^ 32) } }
  | 0x18 => if x.getLsbD 0 then s.flushRoutes else s
  | _ =>
    if domainOffset ≤ off && off < domainOffset + 32 * 256 then
      let i := (off - domainOffset) / 32
      let e := (Store.get DomEnt.none s.fab.domains i).write (off % 32 / 8) x
      { s with fab := { s.fab with domains := Store.put DomEnt.none s.fab.domains i e } }
    else s

/-! ## Queues, feeds, regions and windows -/

/-- Write the SETUP fields of dword `k` of a queue state block (R388). -/
def Queue.setup (q : Queue) (k : Nat) (x : Dword) : Queue :=
  let n := x.toNat
  match k with
  | 0 => { q with ring := n }
  | 1 => { q with nslot := n % 2 ^ 32, asid := n / 2 ^ 32 % 2 ^ 16, cls := n / 2 ^ 48 % 4, en := x.getLsbD 55, keyed := x.getLsbD 56 }
  | 4 => { q with deadline := n % 2 ^ 32 }
  | _ => q

/-- Write a half of the STACK entry of a level; entries above DEPTH are not kept (DESIGN CHOICE, log 155). -/
def Queue.putLevel (q : Queue) (i : Nat) (x : Dword) (high : Bool) : Queue :=
  match q.stack[i]? with
  | none => q
  | some l =>
    let n := x.toNat
    let l : Level := match high with
      | true => { l with count := n % 2 ^ 32, pos := n / 2 ^ 32 }
      | false => { l with addr := n }
    { q with stack := q.stack.set i l }

/-- DEPTH is written: the levels above it are gone, new ones are zero. -/
def Queue.putDepth (q : Queue) (d : Nat) : Queue :=
  { q with depth := d, stack := (q.stack ++ List.replicate d (Level.mk 0 0 0)).take d }

/-- Write the fields of dword `k` of a queue state block that the front end and the firmware write (R388, R422); slots fetched ahead are
fetched anew. -/
def Queue.firmware (q : Queue) (k : Nat) (x : Dword) : Queue :=
  let n := x.toNat
  match k with
  | 1 => { q with halted := x.getLsbD 57 }
  | 2 => { q with widx := n }
  | 3 => { q with ridx := n, fetched := [] }
  | 4 => { q.putDepth (min 4 (n / 2 ^ 40 % 256)) with err := n / 2 ^ 32 % 256, skip := n / 2 ^ 56, fetched := [] }
  | 6 => { q with loopleft := n / 2 ^ 32 % 2 ^ 16, loopn := n / 2 ^ 48 % 256, loopdepth := n / 2 ^ 56 }
  | 7 => { q with loopstart := n }
  | 8 | 10 | 12 | 14 => { q.putLevel ((k - 8) / 2) x false with fetched := [] }
  | 9 | 11 | 13 | 15 => { q.putLevel ((k - 8) / 2) x true with fetched := [] }
  | _ => q

/-- Write the monitor's fields of dword `k` of a queue state block: LASTSEQ and DROPS. -/
def Queue.monitor (q : Queue) (k : Nat) (x : Dword) : Queue :=
  match k with
  | 5 => { q with lastseq := x.toNat }
  | 6 => { q with drops := x.toNat % 2 ^ 32 }
  | _ => q

/-- Write dword `k` of a queue state block in a mode: each field by the mode that writes it, and SETUP only while the queue is unbound
(R388). A write leaves the fields of others as they are (DESIGN CHOICE, log 155). -/
def Queue.write (q : Queue) (md : HMode) (k : Nat) (x : Dword) : Queue :=
  let q := q.firmware k x
  let q := if md ≠ .u && !q.bound then q.setup k x else q
  if md = .m then q.monitor k x else q

/-- Write dword `k` of a queue state block; another HWSLOT than the block holds binds or unbinds the queue (R389). -/
def State.writeQueue (s : State) (md : HMode) (qid k : Nat) (x : Dword) : State :=
  let slot := x.toNat / 2 ^ 48 % 256
  let s := s.setQueue qid ((s.queue qid).write md k x)
  if md ≠ .u && k = 4 && slot ≠ (s.queue qid).hwslot then s.writeSlot qid slot else s

/-- Dword `k` of a queue state block (R388). -/
def Queue.dword (q : Queue) (k : Nat) : Dword :=
  let level (i : Nat) : Level := (q.stack[i]?).getD { addr := 0, count := 0, pos := 0 }
  let x : Nat := match k with
    | 0 => q.ring
    | 1 => q.nslot + 2 ^ 32 * q.asid + 2 ^ 48 * q.cls + 2 ^ 55 * q.en.toNat + 2 ^ 56 * q.keyed.toNat + 2 ^ 57 * q.halted.toNat
    | 2 => q.widx
    | 3 => q.ridx
    | 4 => q.deadline + 2 ^ 32 * q.err + 2 ^ 40 * q.depth + 2 ^ 48 * q.hwslot + 2 ^ 56 * q.skip
    | 5 => q.lastseq
    | 6 => q.drops + 2 ^ 32 * q.loopleft + 2 ^ 48 * q.loopn + 2 ^ 56 * q.loopdepth
    | 7 => q.loopstart
    | 8 | 10 | 12 | 14 => (level ((k - 8) / 2)).addr
    | _ => (level ((k - 8) / 2)).count + 2 ^ 32 * (level ((k - 8) / 2)).pos
  BitVec.ofNat 64 x

/-- Write dword `k` of a feed queue's descriptor (R410). -/
def FeedQ.write (q : FeedQ) (k : Nat) (x : Dword) : FeedQ :=
  let n := x.toNat
  match k with
  | 0 => { q with vbase := n }
  | 1 => { q with asid := n % 2 ^ 16, cap := n / 2 ^ 16 % 2 ^ 16 }
  | 2 => { q with xbase := n }
  | 3 => { q with xcap := n % 2 ^ 32 }
  | 4 => { q with head := n }
  | 5 => { q with vtail := n }
  | 6 => { q with tail := n }
  | _ => q

/-- A region-table entry nothing uses. -/
def Region.none : Region := { asid := 0, base := 0, len := 0, r := false, w := false, feed := Option.none }

/-- Write dword `k` of a region-table entry (R488): base, length, and ASID with its permissions and feed queue. -/
def Region.write (g : Region) (k : Nat) (x : Dword) : Region :=
  let n := x.toNat
  match k with
  | 0 => { g with base := n % 2 ^ 57 }
  | 1 => { g with len := n }
  | 2 => { g with asid := n % 2 ^ 16, r := x.getLsbD 16, w := x.getLsbD 17, feed := if x.getLsbD 18 then some (n / 2 ^ 24 % 256) else .none }
  | _ => g

/-- A window word after a write: 0 leaves a field as it was (R367). -/
def windowWrite (old x : Dword) : Dword :=
  let t := if threshOf x = 0 then threshOf old else threshOf x
  let w := if windowOf x = 0 then windowOf old else windowOf x
  BitVec.ofNat 64 (w * 65536 + t)

/-! ## Dwords by physical address (R347) -/

/-- What an address holds: a dword of a queue state block, a halt slot, a doorbell, a fabric register, a window word, a feed
descriptor, a region entry, LTIME, the straps, BOOTST, other hub SRAM, HBM, the core aperture, nothing. -/
inductive HubPlace where
  | queue (qid k : Nat)
  | halt (qid k : Nat)
  | doorbell (qid : Nat)
  | fabric (off : Nat)
  | window (cls : Nat)
  | feed (q k : Nat)
  | region (i k : Nat)
  | ltime
  | straps
  | bootst
  | sram
  | hbm
  | aperture
  | nothing
  deriving DecidableEq, Repr

/-- Where an address lies. -/
def hubPlace (addr : Nat) : HubPlace :=
  let at_ (base n : Nat) : Bool := base ≤ addr && addr < base + n
  if addr < hbmSize then .hbm
  else if at_ coreAperture (2 ^ 40) then .aperture
  else if !at_ hubAperture (2 ^ 32) then .nothing
  else if at_ hubAperture 8 then .ltime
  else if at_ (hubAperture + 8) 8 then .straps
  else if at_ (hubAperture + 16) 8 then .bootst
  else if at_ qsbBase (128 * numQueues) then .queue ((addr - qsbBase) / 128) (addr % 128 / 8)
  else if at_ haltBase (16 * numQueues) then .halt ((addr - haltBase) / 16) (addr % 16 / 8)
  else if at_ doorbellBase (8 * numQueues) then .doorbell ((addr - doorbellBase) / 8)
  else if at_ fabricBase (domainOffset + 32 * 256) then .fabric (addr - fabricBase)
  else if at_ windowBase 64 then .window ((addr - windowBase) / 8)
  else if at_ feedBase (64 * 256) then .feed ((addr - feedBase) / 64) (addr % 64 / 8)
  else if at_ regionBase (32 * numRegions) then .region ((addr - regionBase) / 32) (addr % 32 / 8)
  else .sram

/-- The resource of R370 that an address is. -/
def HubPlace.res (x : HubPlace) : HubRes :=
  match x with
  | .queue .. | .halt .. | .doorbell _ => .queues
  | .fabric _ => .fabric
  | .ltime => .ltime
  | .hbm => .tables
  | .window _ | .feed .. | .region .. | .straps | .bootst | .sram | .aperture | .nothing => .sram

/-- Write a dword of a halt slot. -/
def State.writeHalt (s : State) (qid k : Nat) (x : Dword) : State :=
  let l := (s.queue qid).haltslot ++ List.replicate 16 0
  s.haltPut qid (if k = 0 then natLe 8 x.toNat ++ (l.drop 8).take 8 else l.take 8 ++ natLe 8 x.toNat)

/-- WRITE a dword at a physical address in a mode. LTIME, the straps and BOOTST are read only; an address where nothing is gives an
abort completion and an event (R347). -/
def State.writeRegister (s : State) (md : HMode) (addr : Nat) (x : Dword) : State :=
  match hubPlace addr with
  | .queue q k => s.writeQueue md q k x
  | .halt q k => s.writeHalt q k x
  | .doorbell q => s.doorbell q x.toNat
  | .fabric o => s.writeFabric o x
  | .window c => { s with windows := Store.insert s.windows c (windowWrite (s.window c) x) }
  | .feed q k => (s.setFeed q ((s.feed q).write k x)).feedServe q
  | .region i k =>
    { s with fab := { s.fab with regions := Store.put Region.none s.fab.regions i ((Store.get Region.none s.fab.regions i).write k x) } }
  | .ltime | .straps | .bootst => s
  | .sram => s.hubPutWord addr x
  | .hbm => s.homeWrite addr (natLe 8 x.toNat)
  | .aperture => s.aperWrite addr (natLe 8 x.toNat)
  | .nothing => s.errEvent 3 8 0 (.nothing addr)

/-- REGISTER_WRITE: an aligned dword, where the mode reaches it (R370); the access fault of one out of its reach is
HUB_ACCESS_FAULT. -/
def execRegisterWrite (addr : Nat) (value : Dword) (mode : HMode) (s : State) : Out :=
  if addr % 8 = 0 && mayReach mode (hubPlace addr).res true then .next (s.writeRegister mode addr value) else .next s

/-! ## What a hart reads (R370, R372, R387, R449, R450) -/

/-- Dword `k` of a feed queue's descriptor. -/
def FeedQ.dword (q : FeedQ) (k : Nat) : Dword :=
  BitVec.ofNat 64 (match k with
    | 0 => q.vbase
    | 1 => q.asid + 2 ^ 16 * q.cap
    | 2 => q.xbase
    | 3 => q.xcap
    | 4 => q.head
    | 5 => q.vtail
    | 6 => q.tail
    | _ => 0)

/-- Dword `k` of a domain-table entry (R467). -/
def DomEnt.dword (e : DomEnt) (k : Nat) : Dword :=
  BitVec.ofNat 64 (match k with
    | 0 => e.domid.toNat + 2 ^ 32 * e.asid + 2 ^ 48 * e.idSpan
    | 1 => e.idSpans + 2 ^ 16 * e.valid.toNat + 2 ^ 17 * e.peerlost.toNat + 2 ^ 32 * e.dpos.toNat
    | 2 => e.dshape.toNat
    | _ => 0)

/-- Dword `k` of a region-table entry. -/
def Region.dword (g : Region) (k : Nat) : Dword :=
  BitVec.ofNat 64 (match k with
    | 0 => g.base
    | 1 => g.len
    | 2 => g.asid + 2 ^ 16 * g.r.toNat + 2 ^ 17 * g.w.toNat + (match g.feed with | some q => 2 ^ 18 + 2 ^ 24 * q | .none => 0)
    | _ => 0)

/-- A fabric register by its offset; RTFLUSH reads 0 (R461). -/
def State.readFabric (s : State) (off : Nat) : Dword :=
  match off with
  | 0x00 => s.fab.cfg
  | 0x08 => s.fab.rtbase
  | 0x10 => s.fab.rto
  | _ =>
    if domainOffset ≤ off then (Store.get DomEnt.none s.fab.domains ((off - domainOffset) / 32)).dword (off % 32 / 8) else 0

/-- The time CSR of every hart, and LTIME (R372). -/
def State.timeWord (s : State) : Dword := BitVec.ofNat 64 s.ltime

/-- READ the dword at a physical address for a hart; none where an abort completion answers. -/
def State.readRegister (s : State) (hart addr : Nat) : State × Option Dword :=
  match hubPlace addr with
  | .queue q k => (s, some ((s.queue q).dword k))
  | .halt q k => (s, some (BitVec.ofNat 64 (fieldAt (s.queue q).haltslot (8 * k) 8)))
  | .doorbell _ => (s, some 0)
  | .fabric o => (s, some (s.readFabric o))
  | .window c => (s, some (s.window c))
  | .feed q k => (s, some ((s.feed q).dword k))
  | .region i k => (s, some ((Store.get Region.none s.fab.regions i).dword k))
  | .ltime => (s, some s.timeWord)
  | .straps => (s, some s.boot.straps)
  | .bootst => (s, some s.boot.bootst)
  | .sram =>
    if s.hubBad.contains (addr / 8) then (s.errEvent 1 8 0 (.sram hart addr), none)
    else (s, some (Store.get 0 s.hubRegs (addr / 8 * 8)))
  | .hbm =>
    match s.homeRead (addr / 8 * 8) 8 8 0 with
    | (s, some l) => (s, some (BitVec.ofNat 64 (leNat l)))
    | (s, none) => (s, none)
  | .aperture =>
    match s.aperRead (addr / 8 * 8) 8 8 0 with
    | (s, some l) => (s, some (BitVec.ofNat 64 (leNat l)))
    | (s, none) => (s, none)
  | .nothing => (s.errEvent 3 8 0 (.nothing addr), none)

/-- A hart's read of a dword: an address out of its mode's reach gives an access fault once the protection is set (R370). -/
def State.hartRead (s : State) (hart addr : Nat) : State × Option Dword :=
  if s.boot.locked && !mayReach (hartMode hart) (hubPlace addr).res false then (s.accessFault hart false, none)
  else s.readRegister hart addr

end Sys2Proof.Machine
end

