-- ==== Sys2Proof/Machine/Dispatch.lean ====
section
/-! DEFINITION. One arm per instruction and machine step, in the table's order: each calls its meaning. -/

namespace Sys2Proof.Machine

def exec (i : Instr) (s : State) : Host.Outcome State Fault Refusal :=
  match i with
  | .iadd o => Sys2Proof.Machine.execIadd o s
  | .isub o => Sys2Proof.Machine.execIsub o s
  | .ineg o => Sys2Proof.Machine.execIneg o s
  | .imul o => Sys2Proof.Machine.execImul o s
  | .imulhi o => Sys2Proof.Machine.execImulhi o s
  | .imad o => Sys2Proof.Machine.execImad o s
  | .imin o => Sys2Proof.Machine.execImin o s
  | .imax o => Sys2Proof.Machine.execImax o s
  | .iabs o => Sys2Proof.Machine.execIabs o s
  | .isel o => Sys2Proof.Machine.execIsel o s
  | .icmpk o => Sys2Proof.Machine.execIcmpk o s
  | .icmp o => Sys2Proof.Machine.execIcmp o s
  | .lea o => Sys2Proof.Machine.execLea o s
  | .and o => Sys2Proof.Machine.execAnd o s
  | .or o => Sys2Proof.Machine.execOr o s
  | .xor o => Sys2Proof.Machine.execXor o s
  | .not o => Sys2Proof.Machine.execNot o s
  | .andn o => Sys2Proof.Machine.execAndn o s
  | .shl o => Sys2Proof.Machine.execShl o s
  | .shr o => Sys2Proof.Machine.execShr o s
  | .sar o => Sys2Proof.Machine.execSar o s
  | .rot o => Sys2Proof.Machine.execRot o s
  | .bfx o => Sys2Proof.Machine.execBfx o s
  | .bfi o => Sys2Proof.Machine.execBfi o s
  | .popc o => Sys2Proof.Machine.execPopc o s
  | .clz o => Sys2Proof.Machine.execClz o s
  | .ctz o => Sys2Proof.Machine.execCtz o s
  | .brev o => Sys2Proof.Machine.execBrev o s
  | .fadd o => Sys2Proof.Machine.execFadd o s
  | .fsub o => Sys2Proof.Machine.execFsub o s
  | .fmul o => Sys2Proof.Machine.execFmul o s
  | .ffma o => Sys2Proof.Machine.execFfma o s
  | .fmin o => Sys2Proof.Machine.execFmin o s
  | .fmax o => Sys2Proof.Machine.execFmax o s
  | .fabs o => Sys2Proof.Machine.execFabs o s
  | .fneg o => Sys2Proof.Machine.execFneg o s
  | .fcmpk o => Sys2Proof.Machine.execFcmpk o s
  | .fcmp o => Sys2Proof.Machine.execFcmp o s
  | .fdiv o => Sys2Proof.Machine.execFdiv o s
  | .fsqrt o => Sys2Proof.Machine.execFsqrt o s
  | .frcp o => Sys2Proof.Machine.execFrcp o s
  | .frsq o => Sys2Proof.Machine.execFrsq o s
  | .fexp2 o => Sys2Proof.Machine.execFexp2 o s
  | .flog2 o => Sys2Proof.Machine.execFlog2 o s
  | .fsin o => Sys2Proof.Machine.execFsin o s
  | .fcos o => Sys2Proof.Machine.execFcos o s
  | .frint o => Sys2Proof.Machine.execFrint o s
  | .fclass o => Sys2Proof.Machine.execFclass o s
  | .fscale o => Sys2Proof.Machine.execFscale o s
  | .fgetexp o => Sys2Proof.Machine.execFgetexp o s
  | .padd o => Sys2Proof.Machine.execPadd o s
  | .pmul o => Sys2Proof.Machine.execPmul o s
  | .pfma o => Sys2Proof.Machine.execPfma o s
  | .dot8F8 o => Sys2Proof.Machine.execDot8F8 o s
  | .dot8I8 o => Sys2Proof.Machine.execDot8I8 o s
  | .cvt o => Sys2Proof.Machine.execCvt o s
  | .cvts o => Sys2Proof.Machine.execCvts o s
  | .pack o => Sys2Proof.Machine.execPack o s
  | .unpack o => Sys2Proof.Machine.execUnpack o s
  | .settag o => Sys2Proof.Machine.execSettag o s
  | .gettag o => Sys2Proof.Machine.execGettag o s
  | .cvtk o => Sys2Proof.Machine.execCvtk o s
  | .mov o => Sys2Proof.Machine.execMov o s
  | .movi96 o => Sys2Proof.Machine.execMovi96 o s
  | .movi128 o => Sys2Proof.Machine.execMovi128 o s
  | .sel o => Sys2Proof.Machine.execSel o s
  | .bcast o => Sys2Proof.Machine.execBcast o s
  | .movkFromScalar o => Sys2Proof.Machine.execMovkFromScalar o s
  | .movkImmediate o => Sys2Proof.Machine.execMovkImmediate o s
  | .movkToScalar o => Sys2Proof.Machine.execMovkToScalar o s
  | .kand o => Sys2Proof.Machine.execKand o s
  | .kor o => Sys2Proof.Machine.execKor o s
  | .kxor o => Sys2Proof.Machine.execKxor o s
  | .knot o => Sys2Proof.Machine.execKnot o s
  | .kpopc o => Sys2Proof.Machine.execKpopc o s
  | .vote o => Sys2Proof.Machine.execVote o s
  | .ballot o => Sys2Proof.Machine.execBallot o s
  | .lxch o => Sys2Proof.Machine.execLxch o s
  | .scan o => Sys2Proof.Machine.execScan o s
  | .reduce o => Sys2Proof.Machine.execReduce o s
  | .matchLanes o => Sys2Proof.Machine.execMatchLanes o s
  | .elect o => Sys2Proof.Machine.execElect o s
  | .compact o => Sys2Proof.Machine.execCompact o s
  | .bra o => Sys2Proof.Machine.execBra o s
  | .brx o => Sys2Proof.Machine.execBrx o s
  | .call o => Sys2Proof.Machine.execCall o s
  | .callR o => Sys2Proof.Machine.execCallR o s
  | .ret o => Sys2Proof.Machine.execRet o s
  | .join o => Sys2Proof.Machine.execJoin o s
  | .exit o => Sys2Proof.Machine.execExit o s
  | .yield o => Sys2Proof.Machine.execYield o s
  | .nop o => Sys2Proof.Machine.execNop o s
  | .brk o => Sys2Proof.Machine.execBrk o s
  | .trap o => Sys2Proof.Machine.execTrap o s
  | .rft o => Sys2Proof.Machine.execRft o s
  | .decrle o => Sys2Proof.Machine.execDecrle o s
  | .decbits o => Sys2Proof.Machine.execDecbits o s
  | .decdelta o => Sys2Proof.Machine.execDecdelta o s
  | .decsign o => Sys2Proof.Machine.execDecsign o s
  | .ld o => Sys2Proof.Machine.execLd o s
  | .st o => Sys2Proof.Machine.execSt o s
  | .ldu o => Sys2Proof.Machine.execLdu o s
  | .stu o => Sys2Proof.Machine.execStu o s
  | .lds o => Sys2Proof.Machine.execLds o s
  | .sts o => Sys2Proof.Machine.execSts o s
  | .ldv o => Sys2Proof.Machine.execLdv o s
  | .stv o => Sys2Proof.Machine.execStv o s
  | .atom o => Sys2Proof.Machine.execAtom o s
  | .red o => Sys2Proof.Machine.execRed o s
  | .fence o => Sys2Proof.Machine.execFence o s
  | .waitv o => Sys2Proof.Machine.execWaitv o s
  | .pref o => Sys2Proof.Machine.execPref o s
  | .cline o => Sys2Proof.Machine.execCline o s
  | .lease o => Sys2Proof.Machine.execLease o s
  | .brload o => Sys2Proof.Machine.execBrload o s
  | .bufdecl o => Sys2Proof.Machine.execBufdecl o s
  | .bufrel o => Sys2Proof.Machine.execBufrel o s
  | .bufstateGet o => Sys2Proof.Machine.execBufstateGet o s
  | .bufstateFill o => Sys2Proof.Machine.execBufstateFill o s
  | .bufstateDrain o => Sys2Proof.Machine.execBufstateDrain o s
  | .bufstateFree o => Sys2Proof.Machine.execBufstateFree o s
  | .bufstateWfull o => Sys2Proof.Machine.execBufstateWfull o s
  | .bufstateWfree o => Sys2Proof.Machine.execBufstateWfree o s
  | .barinit o => Sys2Proof.Machine.execBarinit o s
  | .barinval o => Sys2Proof.Machine.execBarinval o s
  | .bararrive o => Sys2Proof.Machine.execBararrive o s
  | .barexpect o => Sys2Proof.Machine.execBarexpect o s
  | .barwait o => Sys2Proof.Machine.execBarwait o s
  | .barphase o => Sys2Proof.Machine.execBarphase o s
  | .cpyslice o => Sys2Proof.Machine.execCpyslice o s
  | .cpyregLd o => Sys2Proof.Machine.execCpyregLd o s
  | .cpyregSt o => Sys2Proof.Machine.execCpyregSt o s
  | .cpystat o => Sys2Proof.Machine.execCpystat o s
  | .cpycancel o => Sys2Proof.Machine.execCpycancel o s
  | .layout o => Sys2Proof.Machine.execLayout o s
  | .mclaim o => Sys2Proof.Machine.execMclaim o s
  | .mrel o => Sys2Proof.Machine.execMrel o s
  | .mload o => Sys2Proof.Machine.execMload o s
  | .mloop o => Sys2Proof.Machine.execMloop o s
  | .mma o => Sys2Proof.Machine.execMma o s
  | .mscale o => Sys2Proof.Machine.execMscale o s
  | .msparse o => Sys2Proof.Machine.execMsparse o s
  | .mfence o => Sys2Proof.Machine.execMfence o s
  | .mwait o => Sys2Proof.Machine.execMwait o s
  | .mcommit o => Sys2Proof.Machine.execMcommit o s
  | .popw o => Sys2Proof.Machine.execPopw o s
  | .pushw o => Sys2Proof.Machine.execPushw o s
  | .notify o => Sys2Proof.Machine.execNotify o s
  | .mbind o => Sys2Proof.Machine.execMbind o s
  | .xld o => Sys2Proof.Machine.execXld o s
  | .xst o => Sys2Proof.Machine.execXst o s
  | .xatom o => Sys2Proof.Machine.execXatom o s
  | .xsig o => Sys2Proof.Machine.execXsig o s
  | .xfence o => Sys2Proof.Machine.execXfence o s
  | .getsr o => Sys2Proof.Machine.execGetsr o s
  | .setsr o => Sys2Proof.Machine.execSetsr o s
  | .getid o => Sys2Proof.Machine.execGetid o s
  | .clock o => Sys2Proof.Machine.execClock o s
  | .canon o => Sys2Proof.Machine.execCanon o s
  | .halt o => Sys2Proof.Machine.execHalt o s
  | .trapRecordPublish w => Sys2Proof.Machine.execTrapRecordPublish w s
  | .trapRingSlotFree => Sys2Proof.Machine.execTrapRingSlotFree s
  | .loadDataLands w fid mask => Sys2Proof.Machine.execLoadDataLands w fid mask s
  | .abortCompletion w fid => Sys2Proof.Machine.execAbortCompletion w fid s
  | .weftEnd w => Sys2Proof.Machine.execWeftEnd w s
  | .decodeLands w fid => Sys2Proof.Machine.execDecodeLands w fid s
  | .waitvPoll w fid => Sys2Proof.Machine.execWaitvPoll w fid s
  | .homeSliceAccess core idx => Sys2Proof.Machine.execHomeSliceAccess core idx s
  | .heddlePendingTimeout w => Sys2Proof.Machine.execHeddlePendingTimeout w s
  | .heddleRotation core => Sys2Proof.Machine.execHeddleRotation core s
  | .leaseWindow w misses => Sys2Proof.Machine.execLeaseWindow w misses s
  | .fastSwitch core span => Sys2Proof.Machine.execFastSwitch core span s
  | .bankSwap core => Sys2Proof.Machine.execBankSwap core s
  | .spillComplete core => Sys2Proof.Machine.execSpillComplete core s
  | .slowSwitch out inn => Sys2Proof.Machine.execSlowSwitch out inn s
  | .boltReload b => Sys2Proof.Machine.execBoltReload b s
  | .heddleRebuild cluster => Sys2Proof.Machine.execHeddleRebuild cluster s
  | .copyStart b h => Sys2Proof.Machine.execCopyStart b h s
  | .copyElementLand b h frames => Sys2Proof.Machine.execCopyElementLand b h frames s
  | .mloadComplete core id => Sys2Proof.Machine.execMloadComplete core id s
  | .matrixStep core id => Sys2Proof.Machine.execMatrixStep core id s
  | .contributionArrival n => Sys2Proof.Machine.execContributionArrival n s
  | .batchComplete w n => Sys2Proof.Machine.execBatchComplete w n s
  | .pageWalkComplete core asid va kind => Sys2Proof.Machine.execPageWalkComplete core asid va kind s
  | .heldWalkRetry pa entry => Sys2Proof.Machine.execHeldWalkRetry pa entry s
  | .invalidate c => Sys2Proof.Machine.execInvalidate c s
  | .invalidationComplete n => Sys2Proof.Machine.execInvalidationComplete n s
  | .patrolScrub pa now => Sys2Proof.Machine.execPatrolScrub pa now s
  | .errorRecord e => Sys2Proof.Machine.execErrorRecord e s
  | .lateralLinkRetry link now => Sys2Proof.Machine.execLateralLinkRetry link now s
  | .resume c => Sys2Proof.Machine.execResume c s
  | .redirect c => Sys2Proof.Machine.execRedirect c s
  | .setreg c => Sys2Proof.Machine.execSetreg c s
  | .getreg c => Sys2Proof.Machine.execGetreg c s
  | .kill c => Sys2Proof.Machine.execKill c s
  | .ctxset c => Sys2Proof.Machine.execCtxset c s
  | .engreply c => Sys2Proof.Machine.execEngreply c s
  | .watchdogFire asid now => Sys2Proof.Machine.execWatchdogFire asid now s
  | .deviceReset b => Sys2Proof.Machine.execDeviceReset b s
  | .attestationReport nonce => Sys2Proof.Machine.execAttestationReport nonce s
  | .svnMinimumRaise kind cmd sig => Sys2Proof.Machine.execSvnMinimumRaise kind cmd sig s
  | .supervisorTakeover => Sys2Proof.Machine.execSupervisorTakeover s
  | .journalCommit e => Sys2Proof.Machine.execJournalCommit e s
  | .hubAccessFault hart res write now => Sys2Proof.Machine.execHubAccessFault hart res write now s
  | .doorbellKick qid value now => Sys2Proof.Machine.execDoorbellKick qid value now s
  | .queueBind qid slot => Sys2Proof.Machine.execQueueBind qid slot s
  | .queueResume qid => Sys2Proof.Machine.execQueueResume qid s
  | .slotFetch qid => Sys2Proof.Machine.execSlotFetch qid s
  | .nopPacket qid => Sys2Proof.Machine.execNopPacket qid s
  | .dispatch qid => Sys2Proof.Machine.execDispatch qid s
  | .feed qid => Sys2Proof.Machine.execFeed qid s
  | .indirect qid => Sys2Proof.Machine.execIndirect qid s
  | .predicate qid => Sys2Proof.Machine.execPredicate qid s
  | .loop qid => Sys2Proof.Machine.execLoop qid s
  | .writePacket qid => Sys2Proof.Machine.execWritePacket qid s
  | .wait qid now => Sys2Proof.Machine.execWait qid now s
  | .waitPoll qid => Sys2Proof.Machine.execWaitPoll qid s
  | .waitTimeout qid now => Sys2Proof.Machine.execWaitTimeout qid now s
  | .fetchfence qid => Sys2Proof.Machine.execFetchfence qid s
  | .signalPacket qid => Sys2Proof.Machine.execSignalPacket qid s
  | .copy qid => Sys2Proof.Machine.execCopy qid s
  | .checkpoint qid now => Sys2Proof.Machine.execCheckpoint qid now s
  | .preemptSwitch qid => Sys2Proof.Machine.execPreemptSwitch qid s
  | .preemptSave qid now => Sys2Proof.Machine.execPreemptSave qid now s
  | .preemptMove qid now => Sys2Proof.Machine.execPreemptMove qid now s
  | .preemptRestore qid => Sys2Proof.Machine.execPreemptRestore qid s
  | .bind qid => Sys2Proof.Machine.execBind qid s
  | .coursePlacement span cluster cores => Sys2Proof.Machine.execCoursePlacement span cluster cores s
  | .spanComplete span => Sys2Proof.Machine.execSpanComplete span s
  | .completionRecordWrite span => Sys2Proof.Machine.execCompletionRecordWrite span s
  | .feedMove q => Sys2Proof.Machine.execFeedMove q s
  | .feedAppendRetry qid => Sys2Proof.Machine.execFeedAppendRetry qid s
  | .eventDispatch hart => Sys2Proof.Machine.execEventDispatch hart s
  | .queueCoreWatchdog hart now => Sys2Proof.Machine.execQueueCoreWatchdog hart now s
  | .deferExpiry span now => Sys2Proof.Machine.execDeferExpiry span now s
  | .capture span => Sys2Proof.Machine.execCapture span s
  | .checkpointDrain n => Sys2Proof.Machine.execCheckpointDrain n s
  | .pullTimeout n now => Sys2Proof.Machine.execPullTimeout n now s
  | .deadlineCheck now => Sys2Proof.Machine.execDeadlineCheck now s
  | .codeRewrite x => Sys2Proof.Machine.execCodeRewrite x s
  | .pstepEval watts temp now => Sys2Proof.Machine.execPstepEval watts temp now s
  | .powerCapCall watts => Sys2Proof.Machine.execPowerCapCall watts s
  | .pldmFirmwareUpdate image => Sys2Proof.Machine.execPldmFirmwareUpdate image s
  | .flitReceive port f now => Sys2Proof.Machine.execFlitReceive port f now s
  | .portStateChange port up => Sys2Proof.Machine.execPortStateChange port up s
  | .routerHop p => Sys2Proof.Machine.execRouterHop p s
  | .fabricWrite p => Sys2Proof.Machine.execFabricWrite p s
  | .read p => Sys2Proof.Machine.execRead p s
  | .rdata p => Sys2Proof.Machine.execRdata p s
  | .fabricAtom p => Sys2Proof.Machine.execFabricAtom p s
  | .adata p => Sys2Proof.Machine.execAdata p s
  | .fabricSignal p => Sys2Proof.Machine.execFabricSignal p s
  | .marker p => Sys2Proof.Machine.execMarker p s
  | .mack p => Sys2Proof.Machine.execMack p s
  | .notice p => Sys2Proof.Machine.execNotice p s
  | .error p => Sys2Proof.Machine.execError p s
  | .withdraw p => Sys2Proof.Machine.execWithdraw p s
  | .pull p => Sys2Proof.Machine.execPull p s
  | .page p => Sys2Proof.Machine.execPage p s
  | .piece p => Sys2Proof.Machine.execPiece p s
  | .linkstate p => Sys2Proof.Machine.execLinkstate p s
  | .qnotify p => Sys2Proof.Machine.execQnotify p s
  | .remoteTimeout tag now => Sys2Proof.Machine.execRemoteTimeout tag now s
  | .rtflush value => Sys2Proof.Machine.execRtflush value s
  | .registerWrite addr value mode => Sys2Proof.Machine.execRegisterWrite addr value mode s
  | .uetRmaWrite r => Sys2Proof.Machine.execUetRmaWrite r s
  | .uetRmaRead r => Sys2Proof.Machine.execUetRmaRead r s
  | .uetSend r => Sys2Proof.Machine.execUetSend r s
  | .ualinkRequest r => Sys2Proof.Machine.execUalinkRequest r s
  | .symbolLockLoss port lane now => Sys2Proof.Machine.execSymbolLockLoss port lane now s
  | .release p => Sys2Proof.Machine.execRelease p s
  | .gatewayResponse tag ok data => Sys2Proof.Machine.execGatewayResponse tag ok data s
  | .hbmStackLoss stack => Sys2Proof.Machine.execHbmStackLoss stack s
  | .migrationCopy asid va newFrame => Sys2Proof.Machine.execMigrationCopy asid va newFrame s

end Sys2Proof.Machine
end

