-- ==== Sys2Proof/Machine/Issue.lean ====
section
/-! DEFINITION. Whose turn it is and what it does: fetching and decoding an instruction (R22, R23, R36 steps 1 to 6), what
a weft does at an instruction boundary before it issues, the heddle's retry of a pending weft (R253), and the place a
program's first instruction is put. -/

namespace Sys2Proof.Machine

/-- What the fetch at a weft's PC comes to. -/
inductive Fetch where
  | go (i : Instr) (len : Nat)
  | trap (t : Trap)
  | hold
  deriving DecidableEq, Repr

/-- Steps 2 to 6 of R36 over the bytes of the block from the PC on. -/
def Weft.decodeAt (w : Weft) (bytes : List Byte) : Fetch :=
  match decodeBytes bytes with
  | .illegalLength => .trap (w.fault cLength)
  | .crosses => .trap (w.fault cBoundary)
  | .illegal => .trap (w.fault cIllegal)
  | .instr i n => .go i n

/-- Fetch and decode at a weft's PC (R36, R362): the block must translate and be executable, the PC be aligned and not 28
in its block, and the block's bytes be readable. -/
def State.fetch (s : State) (h : Nat) : State × Fetch :=
  let w := s.weft h
  let pc := w.pc.toNat
  match s.translate (s.coreOf w) (s.asidOf w) pc .fetch with
  | (s, .mig) => (s, .hold)
  | (s, .fault c i) => (s, .trap (w.fault c (info := i) (addr := pc)))
  | (s, .ok pa) =>
    if pc % 4 ≠ 0 || pc % 32 = 28 then (s, .trap (w.fault cBoundary))
    else
      match s.codeRead w pa (32 - pc % 32) with
      | (s, none) => (s, .trap (w.fault cAbort (addr := pc)))
      | (s, some bytes) => (s, w.decodeAt bytes)

/-- A weft that stands at a boundary does not issue: its core has stopped (R260, R263) or its span is ending (R173,
R377). -/
def State.stopsHere (s : State) (w : Weft) : Bool :=
  (s.core (s.coreOf w)).stopping || (s.spanOf w).ending ≠ .running

/-- What a weft's turn has come to, with the instruction counted in its lease window (R258) and its progress or its exempt wait noted (R384
to R386). -/
def State.noteTurn (s : State) (h : Nat) (i : Option Instr) (t : State) : State :=
  let t := if i.isSome && (t.weft h).wait.isNone then t.mapWeft h (fun w => { w with issued := w.issued + 1 }) else t
  if s.progresses t h i then t.progressed (s.asidOf (s.weft h)) else t.noteExempt (s.asidOf (s.weft h))

/-- The weft stays before its instruction until it stands at a canonical point (R428). -/
def State.stay (s : State) (h : Nat) : State := s.mapWeft h (fun w => { w with seek := seekLimit })

/-- Issue an instruction. While a capture seeks the weft's canonical point, one that would block or that would start a
producer which cannot be replayed is not issued, and every other counts (R428). -/
def State.issueInstr (s : State) (h : Nat) (i : Instr) : Out :=
  let seeking := s.seeks (s.weft h)
  if seeking && (s.weft h).startsProducer i then .next (s.stay h)
  else match exec i { s with cur := h } with
    | .next t =>
      if seeking && (t.weft h).wait.isSome then .next (s.stay h)
      else
        let t := s.noteTurn h (some i) t
        .next (if seeking then t.mapWeft h (fun w => { w with seek := w.seek + 1 }) else t)
    | x => x

/-- An active weft issues the instruction at its PC (R36, R86), unless a failure is to be taken first (R479, R299) or a
capture has stopped it (R428). -/
def State.issueActive (s : State) (h : Nat) : Out :=
  let w := s.weft h
  if s.stopsHere w || s.seekStops h then .next s
  else match w.pend with
    | some t => .next (s.noteTurn h none (s.takePend h t))
    | none =>
      match s.fetch h with
      | (s, .hold) => .next (s.noteTurn h none (s.setWeft h { s.weft h with wait := some .mig }))
      | (s, .trap t) => .next (s.noteTurn h none (takeTrap s h t))
      | (s, .go i _) => s.issueInstr h i

/-- A pending weft's instruction is tried again: while it still holds, the weft stays pending with what the try left;
once it would go on, the weft joins the admission queue (R253). -/
def State.retryPending (s : State) (h : Nat) : Out :=
  let w := s.weft h
  match State.issueActive (s.setWeft h { w with status := .active }) h with
  | .next t =>
    let v := t.weft h
    if v.wait.isSome && v.status = .active then .next (t.setWeft h { v with status := .pending, slot := none })
    else .next ((s.ready h).admitWefts (s.coreOf w))
  | x => x

/-- A weft's turn. -/
def State.issue (s : State) (h : Nat) : Out :=
  let w := s.weft h
  if w.alive = 0 then .next s
  else match w.status with
    | .active => s.issueActive h
    | .pending => s.retryPending h
    | _ => .next s

/-- A task of the agenda. -/
def State.runTask (s : State) (t : Task) : Out :=
  match t with
  | .issue h => s.issue h
  | .ev i => exec i s

/-! ## Placing a program's first instruction -/

/-- The context a program is placed in when none runs: page tables at 0x10000 to 0x28000 that map the page 0x40000000 to
the frame 0x8000, executable and readable. -/
def loadAsid : Nat := 1
def loadVa : Nat := 0x40000000
def loadPa : Nat := 0x8000

/-- The four table entries of that mapping. -/
def loadTables : List (Nat × Nat) :=
  [(0x10000 + 8 * walkIndex loadVa 3, 0x18000 + 1), (0x18000 + 8 * walkIndex loadVa 2, 0x20000 + 1),
   (0x20000 + 8 * walkIndex loadVa 1, 0x28000 + 1), (0x28000 + 8 * walkIndex loadVa 0, 0x8000 + 0x57)]

/-- The kernel of that program. -/
def loadKernel : Kernel :=
  { Kernel.absent with entry := BitVec.ofNat 57 loadVa, vregs := 128, sregs := 64, scratch := 4096, wefts := 1, bolts := 1,
                       recs := List.replicate 256 ⟨0, 0, 0, 0, 0⟩ }

/-- A span of one course, one bolt and one weft, active in slot 0, about to fetch at `loadVa`: its core stands empty, no translation of
its context is cached, the module has power, and the stack of its tables and its page reads. -/
def State.loaded (s : State) : State :=
  let c : Ctx := { Ctx.reset with trans := BitVec.ofNat 64 (0x10000 + 1), st := .live }
  let sp : Span := { Span.absent with asid := loadAsid, kernel := loadKernel, courses := 1, placed := 1 }
  let co : Course := { Course.absent with nbolts := 1, vlen := 4096 }
  let b : Bolt := Bolt.launch loadKernel 0 0 0
  let w : Weft := { Weft.launch loadKernel 0 0 with status := .active, slot := some 0 }
  { s with power := { s.power with off := false }, cores := Store.erase s.cores 0, tlb := s.tlb.filter (fun x => x.asid ≠ loadAsid),
           wcache := s.wcache.filter (fun x => x.asid ≠ loadAsid), lostStacks := s.lostStacks.filter (fun i => i ≠ 0),
           deadDies := s.deadDies.filter (fun d => d.1 ≠ 0), memBad := s.memBad.filter (fun l => stackSize ≤ 64 * l),
           cur := 0, agenda := [], mem := loadTables.foldl (fun m p => Store.writeNat m p.1 8 p.2) s.mem,
           ctxs := Store.insert s.ctxs loadAsid c, spans := Store.insert s.spans 0 sp,
           courses := Store.insert s.courses 0 co, bolts := Store.insert s.bolts 0 b, wefts := Store.insert s.wefts 0 w }

/-- The current weft can fetch an instruction of any length at its PC, and where that is. -/
def State.fetchPlace (s : State) : Option Nat :=
  let w := s.weft s.cur
  if w.status = .active && w.alive ≠ 0 && w.pend.isNone && !s.stopsHere w && !s.seekStops s.cur && w.pc.toNat % 32 ≤ 16 && w.pc.toNat % 4 = 0 then
    match s.translate (s.coreOf w) (s.asidOf w) w.pc.toNat .fetch with
    | (_, .ok pa) => if s.lineBad pa then none else some pa
    | _ => none
  else none

/-- Put the bytes of an instruction where the next step fetches. -/
def State.placeBytes (s : State) (bytes : List Byte) : State :=
  match s.fetchPlace with
  | some pa => { s with power := { s.power with off := false }, agenda := [], mem := Store.putBytes s.mem pa bytes }
  | none =>
    let s := s.loaded
    { s with mem := Store.putBytes s.mem loadPa bytes }

end Sys2Proof.Machine
end

