-- ==== Sys2Proof/Machine/Step.lean ====
section
/-! DEFINITION. One step of the device: the task at the head of the agenda, or the current weft's turn. -/

namespace Sys2Proof.Machine

/-- One step. A module that thermal step 4 has powered off does nothing (R452, R453). -/
def step (s : State) : Host.Outcome State Fault Refusal :=
  if s.power.off then .fault .poweredOff
  else match s.agenda with
    | t :: rest => State.runTask { s with agenda := rest } t
    | [] => s.issue s.cur

/-- The state with an instruction placed where the next step fetches: at the current weft's PC, or, where no weft can
fetch, in a one-weft span of a context made for it. -/
def State.withFetchWord (s : State) (nbits w : Nat) : State := s.placeBytes (natLe 16 (w % 2 ^ nbits))

end Sys2Proof.Machine
end

