-- ==== Sys2Proof/Safety.lean ====
section
/-! DEFINITION. What counts as a safe step, and the terms that statements about the machine use: when a weft instruction
issues and may execute, what the state is after one that completed, what it leaves unchanged, and the state's canonical
form. -/

namespace Sys2Proof

/-- The machine goes on from a state. -/
def Safe (s : Machine.State) : Prop := ∃ t, Machine.step s = .next t

namespace Machine

/-! ## Canonical form -/

/-- HBM is in canonical form: addresses rise strictly, and no byte that reads as an unlisted one is listed. -/
abbrev Memory.wf (m : Store Byte) : Bool := Store.wf (0 : Byte) m

/-- The events so far carry the numbers 1, 2, 3 and so on, and the next number is the one after the last (R378). -/
def State.numbered (s : State) : Prop := s.events.map (fun e => e.seq) = List.range' 1 s.events.length ∧ s.nextSeq = s.events.length + 1

/-- What every step keeps: memory is canonical, and the events are numbered without gaps or repeats. -/
structure State.Inv (s : State) : Prop where
  memory : Memory.wf s.mem = true
  events : s.numbered

/-! ## When a weft instruction issues and may execute (R36) -/

/-- The weft whose turn it is. -/
abbrev State.me (s : State) : Weft := s.weft s.cur

/-- The current weft stands in a barrel slot, the two threads of each pair of a protected launch hold the same (R112; what happens
otherwise is stated of its own, R114), the form passes steps 7 and 8, and these are the threads it selects. -/
structure Issues (s : State) (f : Form) (sel : Mask) : Prop where
  active : s.me.status = .active
  paired : s.me.shadowed = false
  decodes : f.decodeFault s s.me = none
  threads : s.me.selected f.g = sel

/-- It also selects some thread, its registers are full where it reads or writes them, no register word that it reads is
uncorrectable (R362), and their tags are accepted (steps 9 and 10). -/
structure Executes (s : State) (f : Form) (sel : Mask) : Prop extends Issues s f sel where
  some : sel ≠ 0
  full : f.ready s.me sel = .go
  reads : s.regAbort s.cur f s.me sel = none
  tags : f.tagFault s.me sel = none

/-- A memory access or synchronisation may execute: no earlier acquire of its threads is still to be performed (R325). -/
structure Accesses (s : State) (f : Form) (sel : Mask) : Prop extends Executes s f sel where
  acquired : s.me.acquiring sel = false

/-- The form of a matrix instruction: a protected launch may not execute it (R113). -/
def matForm (f : Form) : Form := { f with matrix := true }

/-- A matrix instruction that accesses no memory may execute: no failure of earlier matrix work is to be raised first (R299). -/
structure Commands (s : State) (f : Form) (sel : Mask) : Prop extends Executes s f sel where
  unfailed : s.me.mfail = none

/-- A matrix instruction that gives the array an access to memory, or synchronises, may execute. -/
structure Multiplies (s : State) (f : Form) (sel : Mask) : Prop extends Accesses s f sel where
  unfailed : s.me.mfail = none

/-! ## After an instruction -/

/-- The state after an instruction of `len` bytes whose effect is `u`: its path goes on after it, and wefts whose wait has
cleared go on (R22, R253). -/
def State.after (u : State) (h len : Nat) : State := (u.setWeft h ((u.weft h).cleared.advance len)).wake

/-- The state after an instruction that moved its path itself. -/
def State.moved (u : State) : State := u.wake

/-- A weft without its record in the heddle: what a program sees of it. -/
def Weft.arch (w : Weft) : Weft :=
  { w with status := .ended, wait := none, repeatPhase := none, relTags := none, slot := none, lease := 0, passed := 0, since := 0,
           fired := false }

/-- The registers and masks with what belongs to them, the shadows' differences and the words that do not read, the flags and the place
of execution of one weft taken over from another. -/
def Weft.withRegs (w x : Weft) : Weft :=
  { w with vr := x.vr, sr := x.sr, ks := x.ks, oddV := x.oddV, oddK := x.oddK, bad := x.bad, fpstat := x.fpstat, pc := x.pc,
           active := x.active, stack := x.stack }

/-- A core without its heddle's victim tags (R258). -/
def Core.arch (c : Core) : Core := { c with victims := [] }

/-- Nothing but registers, masks, FPSTAT and the place of execution of the current weft has changed, the heddle's records
apart: no other weft's registers, no byte of memory, scratchpad or vault, no other register of the device. -/
structure Frame (s t : State) : Prop where
  device : { t with wefts := s.wefts, cores := s.cores, order := s.order } = s
  cores : ∀ n, (t.core n).arch = (s.core n).arch
  others : ∀ g, g ≠ s.cur → (t.weft g).arch = (s.weft g).arch
  self : ((t.weft s.cur).withRegs s.me).arch = s.me.arch

/-- The place of execution is that after an instruction of `len` bytes. -/
def GoesOn (s t : State) (len : Nat) : Prop :=
  (t.weft s.cur).pc = (s.me.advance len).pc ∧ (t.weft s.cur).active = (s.me.advance len).active ∧
    (t.weft s.cur).stack = (s.me.advance len).stack

/-- The destination is vector register `n`, or scalar register `n`. -/
def Reg.isV (d : Reg) (n : Nat) : Bool := match d with | .v m => m.toNat = n | _ => false
def Reg.isS (d : Reg) (n : Nat) : Bool := match d with | .s m => m.toNat = n | _ => false

/-- What an instruction that writes registers leaves: the destination holds `val` in the threads `on`, or, a scalar, the value
of thread 0; ZERO discards; FPSTAT gains `fl`; nothing else changes. -/
structure Wrote (s t : State) (d : Reg) (on : Nat → Bool) (val : Nat → Cell) (fl : Flags) (len : Nat) : Prop where
  frame : Frame s t
  vector : ∀ n i, i < 32 → (t.weft s.cur).v n i = if Reg.isV d n && on i then val i else s.me.v n i
  scalar : ∀ n, (t.weft s.cur).s n = if Reg.isS d n then val 0 else s.me.s n
  masks : (t.weft s.cur).ks = s.me.ks
  flags : (t.weft s.cur).fpstat = s.me.fpstat ||| fl.zeroExtend 64
  place : GoesOn s t len

/-- An instruction that selects no thread leaves everything but the place of execution (R26, R28). -/
def Skipped (s t : State) (len : Nat) : Prop := Wrote s t .zero (fun _ => false) (fun _ => Cell.launch) 0 len

/-- The flags of the values of some threads, joined (R67). -/
def joined (l : List Nat) (fl : Nat → Flags) : Flags := l.foldl (fun a t => a ||| fl t) 0

/-- An instruction computes one value per selected thread, or one when it is uniform: it completes whenever it executes and
no invalid-operation trap is due (R70), and skips when it selects no thread. -/
def Computes (i : Instr) (f : Form) (d : Reg) (len : Nat) (val : Weft → Nat → Cell × Flags) : Prop :=
  ∀ s sel,
    (Executes s f sel → (s.me.invt = true → ∀ t ∈ lanesOf f.g sel, (val s.me t).2 &&& Flags.nv = 0) →
      ∃ t, exec i s = .next t ∧ Wrote s t d (fun k => sel.getLsbD k && !f.g.uni) (fun k => (val s.me k).1)
        (joined (lanesOf f.g sel) (fun k => (val s.me k).2)) len) ∧
    (Issues s f 0 → ∃ t, exec i s = .next t ∧ Skipped s t len)

/-- What an instruction that writes a mask register leaves (R29, R113): `k0` discards, and bits of absent threads are zero. -/
structure WroteMask (s t : State) (d : Reg) (m : Mask) (fl : Flags) (len : Nat) : Prop where
  frame : Frame s t
  mask : ∀ n : BitVec 3, (t.weft s.cur).k n = if d = .k n && n ≠ 0 then m &&& s.me.bits else s.me.k n
  vectors : (t.weft s.cur).vr = s.me.vr
  scalars : (t.weft s.cur).sr = s.me.sr
  flags : (t.weft s.cur).fpstat = s.me.fpstat ||| fl.zeroExtend 64
  place : GoesOn s t len

/-- An instruction writes one whole mask when it selects a thread (R152). -/
def ComputesMask (i : Instr) (f : Form) (d : Reg) (len : Nat) (val : Weft → Mask → Mask) : Prop :=
  ∀ s sel,
    (Executes s f sel → ∃ t, exec i s = .next t ∧ WroteMask s t d (val s.me sel) 0 len) ∧
    (Issues s f 0 → ∃ t, exec i s = .next t ∧ Skipped s t len)

/-- What a cross-lane instruction leaves (R161): a mask destination holds `m`, a scalar one `sc`, and a vector one `v` in the
contributors. -/
def Crossed (s t : State) (d : Reg) (sel m : Mask) (sc : Cell) (v : Nat → Cell) (len : Nat) : Prop :=
  match d with
  | .k _ => WroteMask s t d m 0 len
  | .s _ => Wrote s t d (fun _ => false) (fun _ => sc) 0 len
  | _ => Wrote s t d (fun k => sel.getLsbD k) v 0 len

/-- A cross-lane instruction completes with such results. -/
def Crosses (i : Instr) (f : Form) (d : Reg) (m : Weft → Mask → Mask) (sc : Weft → Mask → Cell) (v : Weft → Mask → Nat → Cell) : Prop :=
  ∀ s sel,
    (Executes s f sel → ∃ t, exec i s = .next t ∧ Crossed s t d sel (m s.me sel) (sc s.me sel) (v s.me sel) 8) ∧
    (Issues s f 0 → ∃ t, exec i s = .next t ∧ Skipped s t 8)

/-- What an instruction leaves that writes a value in each of some threads and a mask (R164). -/
structure WroteBoth (s t : State) (d : Reg) (on : Nat → Bool) (val : Nat → Cell) (flag : BitVec 3) (m : Mask) (len : Nat) : Prop where
  frame : Frame s t
  vector : ∀ n i, i < 32 → (t.weft s.cur).v n i = if Reg.isV d n && on i then val i else s.me.v n i
  mask : ∀ n : BitVec 3, (t.weft s.cur).k n = if flag = n && n ≠ 0 then m &&& s.me.bits else s.me.k n
  scalars : (t.weft s.cur).sr = s.me.sr
  flags : (t.weft s.cur).fpstat = s.me.fpstat
  place : GoesOn s t len

/-- An instruction that delivers values to registers under a condition on the state and its operands: the threads that
receive one, the values, the flags. -/
def Delivers (i : Instr) (f : Form) (d : Reg) (len : Nat) (ok : State → Weft → Mask → Prop) (on : Weft → Mask → Nat → Bool)
    (val : Weft → Mask → Nat → Cell) (fl : Weft → Mask → Flags) : Prop :=
  ∀ s sel,
    (Executes s f sel → ok s s.me sel → ∃ t, exec i s = .next t ∧ Wrote s t d (on s.me sel) (val s.me sel) (fl s.me sel) len) ∧
    (Issues s f 0 → ∃ t, exec i s = .next t ∧ Skipped s t len)

/-- An instruction completes with an effect on the state whenever it may execute and the effect's conditions hold; it skips
when it selects no thread. `rel` gives the conditions on the state and the operands, and the state that the effect leaves. -/
def Effects (may : State → Form → Mask → Prop) (i : Instr) (f : Form) (len : Nat) (rel : State → Weft → Mask → State → Prop) : Prop :=
  ∀ s sel,
    (may s f sel → ∀ u, rel s s.me sel u → exec i s = .next (u.after s.cur len)) ∧
    (Issues s f 0 → ∃ t, exec i s = .next t ∧ Skipped s t len)

/-- The same for an instruction that moves its path itself. -/
def Moves (i : Instr) (f : Form) (len : Nat) (rel : State → Weft → Mask → State → Prop) : Prop :=
  ∀ s sel,
    (Executes s f sel → ∀ u, rel s s.me sel u → exec i s = .next u.moved) ∧
    (Issues s f 0 → ∃ t, exec i s = .next t ∧ Skipped s t len)

/-- An instruction raises a fault whenever it may execute and the conditions hold. `rel` gives the state in which the fault
is taken, and the fault. -/
def Faults (may : State → Form → Mask → Prop) (i : Instr) (f : Form) (rel : State → Weft → Mask → State → Trap → Prop) : Prop :=
  ∀ s sel, may s f sel → ∀ u t, rel s s.me sel u t →
    exec i s = .next (takeTrap (u.setWeft s.cur { u.weft s.cur with relTags := none }) s.cur t).wake

end Machine

end Sys2Proof
end

