-- ==== Sys2Proof/WellFormed.lean ====
section
/-! DEFINITION. Which terms of `Instr` are instructions the manual's encodings can express: the issue fields of
R26, R28 and R155, the TE rule of R33, the modifier choices each entry allows and the limits on immediates. What step 7
of R36 and the later checks look at is not asked here. -/

namespace Sys2Proof

namespace WF

def srcI : SrcI → Bool
  | .reg a => a.ok
  | .imm _ => true

def iun (un sat : Bool) (o : IUn) : Bool := o.g.ok true && Dec.imodOk un sat o.m && o.a.ok
def ibin (un sat : Bool) (o : IBin) : Bool := o.g.ok true && Dec.imodOk un sat o.m && o.a.ok && srcI o.b
def itri (un sat : Bool) (o : ITri) : Bool := o.g.ok true && Dec.imodOk un sat o.m && o.a.ok && srcI o.b && o.c.ok
def icmp (o : ICmpArgs) : Bool := o.g.ok true && o.a.ok && srcI o.b
def lun (uni : Bool) (o : LUn) : Bool := o.g.ok uni && o.a.ok
def lbin (o : LBin) : Bool := o.g.ok true && o.a.ok && srcI o.b
def fun1 (any : Bool) (o : FUn) : Bool := o.g.ok true && (any || o.r == .fpctl) && o.a.ok
def fbin (o : FBin) : Bool := o.g.ok true && o.a.ok && srcI o.b && Dec.fimmOk o.w o.b
def ftri (o : FTri) : Bool := o.g.ok true && o.a.ok && srcI o.b && Dec.fimmOk o.w o.b && o.c.ok
def fminmax (o : FMinMaxArgs) : Bool := o.g.ok true && o.a.ok && srcI o.b && Dec.fimmOk o.w o.b
def fcmp (o : FCmpArgs) : Bool := o.g.ok true && o.a.ok && srcI o.b && Dec.fimmOk o.w o.b
/-- A packed source is never an immediate (R139). -/
def regB : SrcI → Bool
  | .reg a => a.ok
  | .imm _ => false
def pbin (o : FBin) : Bool := o.g.ok true && Dec.packed o.w && o.a.ok && regB o.b
def ptri (o : FTri) : Bool := o.g.ok true && Dec.packed o.w && o.a.ok && regB o.b && o.c.ok
def dot (any : Bool) (o : DotArgs) : Bool := o.g.ok true && (any || o.r == .fpctl) && o.a.ok && o.b.ok && o.c.ok
def optSrc : Option Src → Bool
  | none => true
  | some a => a.ok
def kbin (o : KBin) : Bool := o.g.ok false && o.a.ok && o.b.ok
/-- A mask register. -/
def isK : Reg → Bool
  | .k _ => true
  | _ => false
def optLocal : Option Scope → Bool
  | none => true
  | some s => s.local
def weft (g : Guard) : Bool := g.ok false

end WF

/-- The instruction has an encoding (the machine's own steps have none). -/
def Instr.wf : Instr → Bool
  | .iadd o => WF.ibin true true o
  | .isub o => WF.ibin true true o
  | .ineg o => WF.iun false true o
  | .imul o => WF.ibin true true o
  | .imulhi o => WF.ibin true false o
  | .imad o => WF.itri true true o
  | .imin o => WF.ibin true false o
  | .imax o => WF.ibin true false o
  | .iabs o => WF.iun false true o
  | .isel o => WF.itri false false o
  | .icmpk o => WF.icmp o
  | .icmp o => WF.icmp o
  | .lea o => o.g.ok true && o.a.ok && WF.srcI o.b
  | .and o => WF.lbin o
  | .or o => WF.lbin o
  | .xor o => WF.lbin o
  | .not o => WF.lun true o
  | .andn o => WF.lbin o
  | .shl o => WF.ibin true true o
  | .shr o => WF.ibin false false o
  | .sar o => WF.ibin false false o
  | .rot o => WF.ibin false false o
  | .bfx o => WF.ibin true false o
  | .bfi o => WF.itri false false o
  | .popc o => WF.iun false false o
  | .clz o => WF.iun false false o
  | .ctz o => WF.iun false false o
  | .brev o => WF.iun false false o
  | .fadd o => WF.fbin o
  | .fsub o => WF.fbin o
  | .fmul o => WF.fbin o
  | .ffma o => WF.ftri o
  | .fmin o => WF.fminmax o
  | .fmax o => WF.fminmax o
  | .fabs o => WF.fun1 false o
  | .fneg o => WF.fun1 false o
  | .fcmpk o => WF.fcmp o
  | .fcmp o => WF.fcmp o
  | .fdiv o => WF.fbin o
  | .fsqrt o => WF.fun1 true o
  | .frcp o => WF.fun1 false o
  | .frsq o => WF.fun1 false o
  | .fexp2 o => WF.fun1 false o
  | .flog2 o => WF.fun1 false o
  | .fsin o => WF.fun1 false o
  | .fcos o => WF.fun1 false o
  | .frint o => WF.fun1 true o
  | .fclass o => WF.fun1 false o
  | .fscale o => o.g.ok true && o.a.ok && WF.srcI o.b
  | .fgetexp o => WF.fun1 false o
  | .padd o => WF.pbin o
  | .pmul o => WF.pbin o
  | .pfma o => WF.ptri o
  | .dot8F8 o => WF.dot true o
  | .dot8I8 o => WF.dot false o
  | .cvt o => o.g.ok true && o.a.ok
  | .cvts o => o.g.ok true && Dec.cvtsTarget o.tgt && (o.c.isNone || o.r == .fpctl) && o.a.ok && o.b.ok && WF.optSrc o.c
  | .pack o => o.g.ok true && o.a.ok && o.b.ok
  | .unpack o => o.g.ok true && o.a.ok
  | .settag o => o.g.ok true && tagValid o.tag && o.a.ok
  | .gettag o => WF.lun true o
  | .cvtk o => o.g.ok true && o.k.ok
  | .mov o => WF.lun true o
  | .movi96 o => o.g.ok true && Dec.movi96Ok o.tag o.imm
  | .movi128 o => o.g.ok true && Dec.movi128Ok o.tag o.imm
  | .sel o => o.g.ok true && o.a.ok && o.b.ok && o.k.ok
  | .bcast o => WF.weft o.g && o.a.ok && o.b.ok
  | .movkFromScalar o => WF.lun false o && !WF.isK o.a.reg
  | .movkImmediate o => WF.weft o.g
  | .movkToScalar o => WF.weft o.g && o.k.ok && WF.isK o.k.reg
  | .kand o => WF.kbin o
  | .kor o => WF.kbin o
  | .kxor o => WF.kbin o
  | .knot o => WF.weft o.g && o.a.ok
  | .kpopc o => WF.weft o.g && o.k.ok
  | .vote o => WF.weft o.g && o.a.ok
  | .ballot o => WF.lun false o
  | .lxch o => WF.weft o.g && o.a.ok && WF.srcI o.b && Dec.lxchImmOk o.b
  | .scan o => WF.weft o.g && foldOk o.op o.ty && o.a.ok
  | .reduce o => WF.weft o.g && foldOk o.op o.ty && o.a.ok
  | .matchLanes o => WF.weft o.g && o.a.ok
  | .elect o => WF.weft o.g
  | .compact o => WF.weft o.g && o.a.ok && o.k.ok
  | .bra o => WF.weft o.g
  | .brx o => WF.weft o.g && o.a.ok
  | .call o => o.g.plain
  | .callR o => o.g.plain && o.a.ok
  | .ret o => o.g.plain && o.a.ok
  | .join o => o.g.plain
  | .exit o => WF.weft o.g
  | .yield o => o.g.plain
  | .nop o => o.g.plain
  | .brk o => WF.weft o.g
  | .trap o => WF.weft o.g
  | .rft o => o.g.plain
  | .decrle o => WF.weft o.g && o.a.ok
  | .decbits o => WF.weft o.g && o.a.ok
  | .decdelta o => WF.weft o.g && o.a.ok && o.b.ok
  | .decsign o => WF.weft o.g && o.a.ok && o.b.ok
  | .ld o => WF.weft o.g && o.off.ok
  | .st o => WF.weft o.g && o.off.ok && o.data.ok
  | .ldu o => WF.weft o.g && o.off.ok
  | .stu o => WF.weft o.g && o.off.ok && o.data.ok
  | .lds o => WF.weft o.g && WF.optLocal o.acq && WF.optSrc o.bolt && o.off.ok
  | .sts o => WF.weft o.g && WF.optLocal o.rel && WF.optSrc o.bolt && o.off.ok && o.data.ok
  | .ldv o => WF.weft o.g && WF.optLocal o.acq && o.off.ok
  | .stv o => WF.weft o.g && WF.optLocal o.rel && o.off.ok && o.data.ok
  | .atom o => WF.weft o.g && (Encode.baseSrc o.base).ok && Dec.atomExtOk o.op o.sem o.base o.ext && o.off.ok && o.c.ok
  | .red o => WF.weft o.g && (Encode.baseSrc o.base).ok && Dec.redOk o.op o.sem && Dec.atomExtOk o.op o.sem o.base o.ext &&
      o.off.ok && o.c.ok
  | .fence o => WF.weft o.g && o.sem != .relaxed
  | .waitv o => WF.weft o.g && o.off.ok && o.a.ok
  | .pref o => WF.weft o.g && o.off.ok
  | .cline o => WF.weft o.g && o.off.ok
  | .lease o => WF.weft o.g && WF.srcI o.a
  | .brload o => WF.weft o.g && o.off.ok
  | .bufdecl o => WF.weft o.g && o.bar.ok && o.base.ok && o.len.ok
  | .bufrel o => WF.weft o.g && o.base.ok
  | .bufstateGet o => WF.weft o.g && o.base.ok
  | .bufstateFill o => WF.weft o.g && o.base.ok
  | .bufstateDrain o => WF.weft o.g && o.base.ok
  | .bufstateFree o => WF.weft o.g && o.base.ok
  | .bufstateWfull o => WF.weft o.g && o.base.ok
  | .bufstateWfree o => WF.weft o.g && o.base.ok
  | .barinit o => WF.weft o.g && o.off.ok && o.pmask.ok
  | .barinval o => WF.weft o.g && o.off.ok
  | .bararrive o => WF.weft o.g && WF.optSrc o.bolt && o.off.ok
  | .barexpect o => WF.weft o.g && WF.optSrc o.bolt && o.off.ok && o.bytes.ok
  | .barwait o => WF.weft o.g && WF.optSrc o.bolt && o.off.ok && o.phase.ok
  | .barphase o => WF.weft o.g && WF.optSrc o.bolt && o.off.ok
  | .cpyslice o => WF.weft o.g && o.a.ok && o.lo.ok && o.cnt.ok
  | .cpyregLd o => WF.weft o.g && o.off.ok && o.bar.ok
  | .cpyregSt o => WF.weft o.g && o.a.ok && o.off.ok && o.bar.ok
  | .cpystat o => WF.weft o.g && o.h.ok
  | .cpycancel o => WF.weft o.g && o.h.ok
  | .layout o => WF.weft o.g && o.off.ok && o.bolt.ok && o.st0.ok && o.st1.ok && o.st2.ok
  | .mclaim o => WF.weft o.g && o.a.ok
  | .mrel o => WF.weft o.g && o.a.ok
  | .mload o => WF.weft o.g && o.layout.ok && tagValid o.tag && (o.sc.isSome == (o.tag == 9)) && WF.optSrc o.sc
  | .mloop o => WF.weft o.g && o.off.ok && o.loop.ok && o.bar.ok
  | .mma o => WF.weft o.g && o.off.ok
  | .mscale o => WF.weft o.g && o.a.ok && o.b.ok && o.c.ok && o.xa.ok
  | .msparse o => WF.weft o.g && o.a.ok && o.b.ok
  | .mfence o => WF.weft o.g
  | .mwait o => WF.weft o.g && WF.srcI o.n
  | .mcommit o => WF.weft o.g
  | .popw o => WF.weft o.g
  | .pushw o => WF.weft o.g && o.a.ok
  | .notify o => WF.weft o.g && o.l.ok && o.a.ok
  | .mbind o => WF.weft o.g && o.l.ok && o.k.ok
  | .xld o => WF.weft o.g && o.off.ok
  | .xst o => WF.weft o.g && o.off.ok && o.data.ok
  | .xatom o => WF.weft o.g && o.off.ok && o.c.ok
  | .xsig o => WF.weft o.g && o.tw.ok && WF.srcI o.cnt
  | .xfence o => WF.weft o.g && o.sem != .relaxed
  | .getsr o => WF.weft o.g && sysregs.contains o.num.toNat
  | .setsr o => WF.weft o.g && sysregs.contains o.num.toNat && o.a.ok
  | .getid o => WF.weft o.g
  | .clock o => WF.weft o.g
  | .canon o => WF.weft o.g
  | .halt o => WF.weft o.g && o.a.ok
  | .trapRecordPublish _ | .trapRingSlotFree | .loadDataLands _ _ _ | .abortCompletion _ _ | .weftEnd _
  | .decodeLands _ _ | .waitvPoll _ _ | .homeSliceAccess _ _ | .heddlePendingTimeout _ | .heddleRotation _
  | .leaseWindow _ _ | .fastSwitch _ _ | .bankSwap _ | .spillComplete _ | .slowSwitch _ _ | .boltReload _
  | .heddleRebuild _ | .copyStart _ _ | .copyElementLand _ _ _ | .mloadComplete _ _ | .matrixStep _ _
  | .contributionArrival _ | .batchComplete _ _ | .pageWalkComplete _ _ _ _ | .heldWalkRetry _ _
  | .invalidate _ | .invalidationComplete _ | .patrolScrub _ _ | .errorRecord _ | .lateralLinkRetry _ _
  | .resume _ | .redirect _ | .setreg _ | .getreg _ | .kill _ | .ctxset _ | .engreply _ | .watchdogFire _ _
  | .deviceReset _ | .attestationReport _ | .svnMinimumRaise _ _ _ | .supervisorTakeover | .journalCommit _
  | .hubAccessFault _ _ _ _ | .doorbellKick _ _ _ | .queueBind _ _ | .queueResume _ | .slotFetch _
  | .nopPacket _ | .dispatch _ | .feed _ | .indirect _ | .predicate _ | .loop _ | .writePacket _ | .wait _ _
  | .waitPoll _ | .waitTimeout _ _ | .fetchfence _ | .signalPacket _ | .copy _ | .checkpoint _ _
  | .preemptSwitch _ | .preemptSave _ _ | .preemptMove _ _ | .preemptRestore _ | .bind _
  | .coursePlacement _ _ _ | .spanComplete _ | .completionRecordWrite _ | .feedMove _ | .feedAppendRetry _
  | .eventDispatch _ | .queueCoreWatchdog _ _ | .deferExpiry _ _ | .capture _ | .checkpointDrain _
  | .pullTimeout _ _ | .deadlineCheck _ | .codeRewrite _ | .pstepEval _ _ _ | .powerCapCall _
  | .pldmFirmwareUpdate _ | .flitReceive _ _ _ | .portStateChange _ _ | .routerHop _ | .fabricWrite _
  | .read _ | .rdata _ | .fabricAtom _ | .adata _ | .fabricSignal _ | .marker _ | .mack _ | .notice _
  | .error _ | .withdraw _ | .pull _ | .page _ | .piece _ | .linkstate _ | .qnotify _ | .remoteTimeout _ _
  | .rtflush _ | .registerWrite _ _ _ | .uetRmaWrite _ | .uetRmaRead _ | .uetSend _ | .ualinkRequest _
  | .symbolLockLoss _ _ _ | .release _ | .gatewayResponse _ _ _ | .hbmStackLoss _ | .migrationCopy _ _ _ => false

end Sys2Proof
end

