-- ==== Sys2Proof/Certificates/Slice0/Obligations.lean ====
section
/-! DEFINITION. The statements about the machine, one definition each, from the manual's numbered rules. -/

open Sys2Proof Sys2Proof.Machine

/-! ## Integer, bitwise, shift and bit-field instructions -/

/-- R121, R122, R123, R126: each integer instruction completes and writes what `finish` delivers of its exact result, or
the outcome of a comparison or a selection; nothing else changes. -/
def Obligations.IntegerArithmeticResults : Prop :=
  (∀ o : IBin, Computes (.iadd o) (binForm o.g cInt tInt o.d o.a o.b) o.d (lenI o.b) (fun w t =>
      finish (w.int (widthOf o.m.w32) o.m.un o.a t + w.intB (widthOf o.m.w32) o.m.un o.b t) (widthOf o.m.w32) o.m.un o.m.sat)) ∧
  (∀ o : IBin, Computes (.isub o) (binForm o.g cInt tInt o.d o.a o.b) o.d (lenI o.b) (fun w t =>
      finish (w.int (widthOf o.m.w32) o.m.un o.a t - w.intB (widthOf o.m.w32) o.m.un o.b t) (widthOf o.m.w32) o.m.un o.m.sat)) ∧
  (∀ o : IUn, Computes (.ineg o) (unForm o.g cInt tInt o.d o.a) o.d 8 (fun w t =>
      finish (-(w.int (widthOf o.m.w32) o.m.un o.a t)) (widthOf o.m.w32) o.m.un o.m.sat)) ∧
  (∀ o : IBin, Computes (.imul o) (binForm o.g cInt tInt o.d o.a o.b) o.d (lenI o.b) (fun w t =>
      finish (w.int (widthOf o.m.w32) o.m.un o.a t * w.intB (widthOf o.m.w32) o.m.un o.b t) (widthOf o.m.w32) o.m.un o.m.sat)) ∧
  (∀ o : IBin, Computes (.imulhi o) (binForm o.g cInt tInt o.d o.a o.b) o.d (lenI o.b) (fun w t =>
      finish (w.int (widthOf o.m.w32) o.m.un o.a t * w.intB (widthOf o.m.w32) o.m.un o.b t / 2 ^ widthOf o.m.w32)
        (widthOf o.m.w32) o.m.un o.m.sat)) ∧
  (∀ o : ITri, Computes (.imad o) (triForm o.g cInt tInt o.d o.a o.b o.c) o.d (lenI o.b) (fun w t =>
      finish (w.int (widthOf o.m.w32) o.m.un o.a t * w.intB (widthOf o.m.w32) o.m.un o.b t +
        w.int (widthOf o.m.w32) o.m.un o.c t) (widthOf o.m.w32) o.m.un o.m.sat)) ∧
  (∀ o : IBin, Computes (.imin o) (binForm o.g cInt tInt o.d o.a o.b) o.d (lenI o.b) (fun w t =>
      finish (min (w.int (widthOf o.m.w32) o.m.un o.a t) (w.intB (widthOf o.m.w32) o.m.un o.b t)) (widthOf o.m.w32) o.m.un o.m.sat)) ∧
  (∀ o : IBin, Computes (.imax o) (binForm o.g cInt tInt o.d o.a o.b) o.d (lenI o.b) (fun w t =>
      finish (max (w.int (widthOf o.m.w32) o.m.un o.a t) (w.intB (widthOf o.m.w32) o.m.un o.b t)) (widthOf o.m.w32) o.m.un o.m.sat)) ∧
  (∀ o : IUn, Computes (.iabs o) (unForm o.g cInt tInt o.d o.a) o.d 8 (fun w t =>
      finish ((w.int (widthOf o.m.w32) o.m.un o.a t).natAbs : Int) (widthOf o.m.w32) o.m.un o.m.sat)) ∧
  (∀ o : ITri, Computes (.isel o) (triForm o.g cInt tInt o.d o.a o.b o.c) o.d (lenI o.b) (fun w t =>
      finish (if w.int (widthOf o.m.w32) false o.c t = 0 then w.intB (widthOf o.m.w32) false o.b t
        else w.int (widthOf o.m.w32) false o.a t) (widthOf o.m.w32) false false)) ∧
  (∀ o : ICmpArgs, Computes (.icmp o) (binForm o.g cInt tInt o.d o.a o.b) o.d (lenI o.b) (fun w t =>
      (mkCell (if icmpHolds o w t then 1 else 0) (intTag (widthOf o.w32)), 0))) ∧
  (∀ o : LeaArgs, Computes (.lea o) (binForm o.g cInt tInt o.d o.a o.b) o.d (lenI o.b) (fun w t =>
      finish (w.int 64 o.un o.a t + w.intB 64 o.un o.b t * 2 ^ o.n.toNat) 64 o.un false))

/-- R127 to R130: each bitwise, shift, bit-field and counting instruction completes and writes its result, raising no flag
but SHL's; nothing else changes. -/
def Obligations.BitwiseAndShiftResults : Prop :=
  (∀ o : LBin, Computes (.and o) (binForm o.g cInt none o.d o.a o.b) o.d (lenI o.b) (fun w t =>
      (mkCell ((w.cell o.a.reg t).val &&& (w.src o.b t).val).toNat (bitTag w t (bitRegs o.a o.b)), 0))) ∧
  (∀ o : LBin, Computes (.or o) (binForm o.g cInt none o.d o.a o.b) o.d (lenI o.b) (fun w t =>
      (mkCell ((w.cell o.a.reg t).val ||| (w.src o.b t).val).toNat (bitTag w t (bitRegs o.a o.b)), 0))) ∧
  (∀ o : LBin, Computes (.xor o) (binForm o.g cInt none o.d o.a o.b) o.d (lenI o.b) (fun w t =>
      (mkCell ((w.cell o.a.reg t).val ^^^ (w.src o.b t).val).toNat (bitTag w t (bitRegs o.a o.b)), 0))) ∧
  (∀ o : LBin, Computes (.andn o) (binForm o.g cInt none o.d o.a o.b) o.d (lenI o.b) (fun w t =>
      (mkCell ((w.cell o.a.reg t).val &&& ~~~(w.src o.b t).val).toNat (bitTag w t (bitRegs o.a o.b)), 0))) ∧
  (∀ o : LUn, Computes (.not o) (unForm o.g cInt none o.d o.a) o.d 8 (fun w t =>
      (mkCell (~~~(w.cell o.a.reg t).val).toNat (bitTag w t [o.a.reg]), 0))) ∧
  (∀ o : IBin, Computes (.shl o) (binForm o.g cInt tInt o.d o.a o.b) o.d (lenI o.b) (fun w t =>
      finish (w.int (widthOf o.m.w32) o.m.un o.a t * 2 ^ w.fieldB o.b t 0 8) (widthOf o.m.w32) o.m.un o.m.sat)) ∧
  (∀ o : IBin, Computes (.shr o) (binForm o.g cInt tInt o.d o.a o.b) o.d (lenI o.b) (fun w t =>
      (mkCell (w.bitsA (widthOf o.m.w32) o.a t / 2 ^ w.fieldB o.b t 0 8 % 2 ^ widthOf o.m.w32) (intTag (widthOf o.m.w32)), 0))) ∧
  (∀ o : IBin, Computes (.sar o) (binForm o.g cInt tInt o.d o.a o.b) o.d (lenI o.b) (fun w t =>
      (mkCell (wrapNat (widthOf o.m.w32) (w.int (widthOf o.m.w32) false o.a t / 2 ^ w.fieldB o.b t 0 8) % 2 ^ widthOf o.m.w32)
        (intTag (widthOf o.m.w32)), 0))) ∧
  (∀ o : IBin, Computes (.rot o) (binForm o.g cInt tInt o.d o.a o.b) o.d (lenI o.b) (fun w t =>
      (mkCell ((w.bitsA (widthOf o.m.w32) o.a t * 2 ^ (w.fieldB o.b t 0 8 % widthOf o.m.w32) % 2 ^ widthOf o.m.w32 +
        w.bitsA (widthOf o.m.w32) o.a t / 2 ^ (widthOf o.m.w32 - w.fieldB o.b t 0 8 % widthOf o.m.w32)) % 2 ^ widthOf o.m.w32)
        (intTag (widthOf o.m.w32)), 0))) ∧
  (∀ o : IBin, Computes (.bfx o) (binForm o.g cInt tInt o.d o.a o.b) o.d (lenI o.b) (fun w t =>
      (mkCell (bfxBits (w.bitsOf (widthOf o.m.w32) o.m.un o.a t) (w.fieldB o.b t 0 8) (w.fieldB o.b t 8 8) (widthOf o.m.w32) o.m.un %
        2 ^ widthOf o.m.w32) (intTag (widthOf o.m.w32)), 0))) ∧
  (∀ o : ITri, Computes (.bfi o) (triForm o.g cInt tInt o.d o.a o.b o.c) o.d (lenI o.b) (fun w t =>
      (mkCell (bfiBits (w.bitsA (widthOf o.m.w32) o.c t) (w.bitsA (widthOf o.m.w32) o.a t) (w.fieldB o.b t 0 8) (w.fieldB o.b t 8 8)
        (widthOf o.m.w32)) (intTag (widthOf o.m.w32)), 0))) ∧
  (∀ o : IUn, Computes (.popc o) (unForm o.g cInt tInt o.d o.a) o.d 8 (fun w t =>
      (mkCell (popNat (widthOf o.m.w32) (w.bitsA (widthOf o.m.w32) o.a t)) (intTag (widthOf o.m.w32)), 0))) ∧
  (∀ o : IUn, Computes (.clz o) (unForm o.g cInt tInt o.d o.a) o.d 8 (fun w t =>
      (mkCell (if w.bitsA (widthOf o.m.w32) o.a t = 0 then widthOf o.m.w32
        else widthOf o.m.w32 - 1 - Nat.log2 (w.bitsA (widthOf o.m.w32) o.a t)) (intTag (widthOf o.m.w32)), 0))) ∧
  (∀ o : IUn, Computes (.ctz o) (unForm o.g cInt tInt o.d o.a) o.d 8 (fun w t =>
      (mkCell (ctzNat (widthOf o.m.w32) (w.bitsA (widthOf o.m.w32) o.a t)) (intTag (widthOf o.m.w32)), 0))) ∧
  (∀ o : IUn, Computes (.brev o) (unForm o.g cInt tInt o.d o.a) o.d 8 (fun w t =>
      (mkCell (revNat (widthOf o.m.w32) (w.bitsA (widthOf o.m.w32) o.a t)) (intTag (widthOf o.m.w32)), 0)))

/-! ## Floating point -/

/-- R132 to R136: each correctly rounded instruction, and each of the sign, minimum, comparison, class, scale and exponent
instructions, completes and writes what its value gives, with its flags; nothing else changes. -/
def Obligations.FloatingPointResults : Prop :=
  (∀ o : FBin, Computes (.fadd o) (binForm o.g cFlt (tFlt o.w) o.d o.a o.b) o.d (lenI o.b) (fun w t =>
      w.fout o.w (fAdd (fspecOfWidth o.w) (w.mode o.r) (w.fval o.w (w.fcode o.w o.a t)) (w.fval o.w (w.fcodeB o.w o.b t))))) ∧
  (∀ o : FBin, Computes (.fsub o) (binForm o.g cFlt (tFlt o.w) o.d o.a o.b) o.d (lenI o.b) (fun w t =>
      w.fout o.w (fAdd (fspecOfWidth o.w) (w.mode o.r) (w.fval o.w (w.fcode o.w o.a t)) (w.fval o.w (w.fcodeB o.w o.b t)).neg))) ∧
  (∀ o : FBin, Computes (.fmul o) (binForm o.g cFlt (tFlt o.w) o.d o.a o.b) o.d (lenI o.b) (fun w t =>
      w.fout o.w (fMul (fspecOfWidth o.w) (w.mode o.r) (w.fval o.w (w.fcode o.w o.a t)) (w.fval o.w (w.fcodeB o.w o.b t))))) ∧
  (∀ o : FTri, Computes (.ffma o) (triForm o.g cFlt (tFlt o.w) o.d o.a o.b o.c) o.d (lenI o.b) (fun w t =>
      w.fout o.w (fFma (fspecOfWidth o.w) (w.mode o.r) (w.fval o.w (w.fcode o.w o.a t)) (w.fval o.w (w.fcodeB o.w o.b t))
        (w.fval o.w (w.fcode o.w o.c t))))) ∧
  (∀ o : FBin, Computes (.fdiv o) (binForm o.g cFlt (tFlt o.w) o.d o.a o.b) o.d (lenI o.b) (fun w t =>
      w.fout o.w (fDiv (fspecOfWidth o.w) (w.mode o.r) (w.fval o.w (w.fcode o.w o.a t)) (w.fval o.w (w.fcodeB o.w o.b t))))) ∧
  (∀ o : FUn, Computes (.fsqrt o) (unForm o.g cFlt (tFlt o.w) o.d o.a) o.d 8 (fun w t =>
      w.fout o.w (fSqrt (fspecOfWidth o.w) (w.mode o.r) (w.fval o.w (w.fcode o.w o.a t))))) ∧
  (∀ o : FMinMaxArgs, Computes (.fmin o) (binForm o.g cFlt (tFlt o.w) o.d o.a o.b) o.d (lenI o.b) (fun w t =>
      (mkCell (fMinMax false o.nan (fspecOfWidth o.w) (w.fval o.w (w.fcode o.w o.a t)) (w.fval o.w (w.fcodeB o.w o.b t))).1
        (tagOfWidth o.w),
       (fMinMax false o.nan (fspecOfWidth o.w) (w.fval o.w (w.fcode o.w o.a t)) (w.fval o.w (w.fcodeB o.w o.b t))).2))) ∧
  (∀ o : FMinMaxArgs, Computes (.fmax o) (binForm o.g cFlt (tFlt o.w) o.d o.a o.b) o.d (lenI o.b) (fun w t =>
      (mkCell (fMinMax true o.nan (fspecOfWidth o.w) (w.fval o.w (w.fcode o.w o.a t)) (w.fval o.w (w.fcodeB o.w o.b t))).1
        (tagOfWidth o.w),
       (fMinMax true o.nan (fspecOfWidth o.w) (w.fval o.w (w.fcode o.w o.a t)) (w.fval o.w (w.fcodeB o.w o.b t))).2))) ∧
  (∀ o : FUn, Computes (.fabs o) (unForm o.g cFlt (tFlt o.w) o.d o.a) o.d 8 (fun w t =>
      (mkCell (w.flushed (fspecOfWidth o.w) (w.fcode o.w o.a t) % (fspecOfWidth o.w).signBit) (tagOfWidth o.w), 0))) ∧
  (∀ o : FUn, Computes (.fneg o) (unForm o.g cFlt (tFlt o.w) o.d o.a) o.d 8 (fun w t =>
      (mkCell (w.flushed (fspecOfWidth o.w) (w.fcode o.w o.a t) ^^^ (fspecOfWidth o.w).signBit) (tagOfWidth o.w), 0))) ∧
  (∀ o : FCmpArgs, Computes (.fcmp o) (.plain o.g ([opS 1 cFlt (tFlt o.w) o.a] ++ opSI 2 cFlt (tFlt o.w) o.b ++ [opD [.v] o.d])) o.d (lenI o.b) (fun w t =>
      (mkCell (if (fcmpHolds o w t).1 then 1 else 0) tagI32, (fcmpHolds o w t).2))) ∧
  (∀ o : FUn, Computes (.frint o) (unForm o.g cFlt (tFlt o.w) o.d o.a) o.d 8 (fun w t =>
      w.fout o.w (fRint (fspecOfWidth o.w) (w.mode o.r) (w.fval o.w (w.fcode o.w o.a t))))) ∧
  (∀ o : FUn, Computes (.fclass o) (unForm o.g cFlt (tFlt o.w) o.d o.a) o.d 8 (fun w t =>
      (mkCell (2 ^ fClass (fspecOfWidth o.w) (w.fval o.w (w.fcode o.w o.a t))) tagI32, 0))) ∧
  (∀ o : FBin, Computes (.fscale o) (.plain o.g ([opS 1 cFlt (tFlt o.w) o.a] ++ opSI 2 cInt tInt o.b ++ [opD cDst o.d])) o.d (lenI o.b)
      (fun w t => w.fout o.w ((fspecOfWidth o.w).roundVal (w.mode o.r)
        ((w.fval o.w (w.fcode o.w o.a t)).scale (clampExp (w.intB 64 false o.b t)))))) ∧
  (∀ o : FUn, Computes (.fgetexp o) (unForm o.g cFlt (tFlt o.w) o.d o.a) o.d 8 (fun w t =>
      (mkCell (wrapNat 32 (fGetExp (w.fval o.w (w.fcode o.w o.a t))).1) tagI32, (fGetExp (w.fval o.w (w.fcode o.w o.a t))).2)))

/-- R137 to R141: each approximate function, packed instruction and dot product completes and writes its result, with its
flags; nothing else changes. What an approximate function delivers of an inexact result is free (log entry 5). -/
def Obligations.ApproximatePackedAndDotResults : Prop :=
  (∀ p ∈ [(Instr.frcp, ApproxFn.rcp), (Instr.frsq, ApproxFn.rsq), (Instr.fexp2, ApproxFn.exp2), (Instr.flog2, ApproxFn.log2),
      (Instr.fsin, ApproxFn.sin), (Instr.fcos, ApproxFn.cos)], ∀ o : FUn,
    Computes (p.1 o) (unForm o.g cFlt (tFlt o.w) o.d o.a) o.d 8 (fun w t =>
      w.fout o.w (approxWidth p.2 o.w w.ftz (w.fcode o.w o.a t)))) ∧
  (∀ o : FBin, Computes (.padd o) (binForm o.g cFlt (tFlt o.w) o.d o.a o.b) o.d 8 (fun w t =>
      w.packed4 o.w (fun i => fAdd (fspecOfWidth o.w) (w.mode o.r) (w.felem o.w o.a t i) (w.felemB o.w o.b t i)))) ∧
  (∀ o : FBin, Computes (.pmul o) (binForm o.g cFlt (tFlt o.w) o.d o.a o.b) o.d 8 (fun w t =>
      w.packed4 o.w (fun i => fMul (fspecOfWidth o.w) (w.mode o.r) (w.felem o.w o.a t i) (w.felemB o.w o.b t i)))) ∧
  (∀ o : FTri, Computes (.pfma o) (triForm o.g cFlt (tFlt o.w) o.d o.a o.b o.c) o.d 8 (fun w t =>
      w.packed4 o.w (fun i => fFma (fspecOfWidth o.w) (w.mode o.r) (w.felem o.w o.a t i) (w.felemB o.w o.b t i) (w.felem o.w o.c t i)))) ∧
  (∀ o : DotArgs, Computes (.dot8F8 o) (.plain o.g [opS 1 cFlt (some [7, 8]) o.a, opS 2 cFlt (some [7, 8]) o.b,
      opS 3 cFlt (some [4]) o.c, opD cDst o.d]) o.d 8 (fun w t =>
    let sum := (List.range 8).foldl (fun (a : Sum) i => a.addMul (w.fp8 o.a t i) (w.fp8 o.b t i))
      (Sum.zero.add (FSpec.f32.decode ((w.cell o.c.reg t).val.toNat % 2 ^ 32)))
    (mkCell (sum.round .f32 (w.mode o.r)).1 tagF32, (sum.round .f32 (w.mode o.r)).2))) ∧
  (∀ o : DotArgs, Computes (.dot8I8 o) (.plain o.g [opS 1 cFlt (some [10]) o.a, opS 2 cFlt (some [10]) o.b,
      opS 3 cInt tInt o.c, opD cDst o.d]) o.d 8 (fun w t =>
    finish ((List.range 8).foldl (fun (x : Int) i => x + sextNat 8 (elemAt 10 (w.cell o.a.reg t).val.toNat i) *
      sextNat 8 (elemAt 10 (w.cell o.b.reg t).val.toNat i)) (sextNat 32 (w.cell o.c.reg t).val.toNat)) 32 false false))

/-! ## Conversions, tags and moves -/

/-- R143 to R150: each conversion, tag, immediate and move instruction completes and writes its value with its tag; nothing
else changes. -/
def Obligations.ConversionAndMoveResults : Prop :=
  (∀ o : CvtArgs, Computes (.cvt o) (unForm o.g cInt (some [1, 2, 3, 4, 5, 6, 7, 8, 9, 10]) o.d o.a) o.d 8 (fun w t =>
      cvtRegister w (w.cvtSrc o.a t).1 (w.cvtSrc o.a t).2 o.tgt (w.mode o.r) o.x)) ∧
  (∀ o : SettagArgs, Computes (.settag o) (unForm o.g cInt none o.d o.a) o.d 8 (fun w t =>
      (mkCell (w.cell o.a.reg t).val.toNat o.tag, 0))) ∧
  (∀ o : LUn, Computes (.gettag o) (unForm o.g cInt none o.d o.a) o.d 8 (fun w t =>
      (mkCell (w.cell o.a.reg t).tag.toNat tagI32, 0))) ∧
  (∀ o : CvtkArgs, Computes (.cvtk o) (.plain o.g [opS 1 [.k] none o.k, opD cDst o.d]) o.d 8 (fun w t =>
      (if o.all then mkCell (if w.kbit o.g o.k.reg t then 2 ^ 64 - 1 else 0) tagI64
       else mkCell (if w.kbit o.g o.k.reg t then 1 else 0) tagI32, 0))) ∧
  (∀ o : LUn, Computes (.mov o) (.plain o.g [opS 1 cInt none o.a, opD [.v] o.d]) o.d 8 (fun w t =>
      ({ w.cell o.a.reg t with full := true }, 0))) ∧
  (∀ o : Movi96Args, Computes (.movi96 o) (.plain o.g [opD cDst o.d]) o.d 12 (fun _ _ =>
      (mkCell (movi96Bits o.tag o.imm) o.tag, 0))) ∧
  (∀ o : Movi128Args, Computes (.movi128 o) (.plain o.g [opD cDst o.d]) o.d 16 (fun _ _ => (mkCell o.imm.toNat o.tag, 0))) ∧
  (∀ o : SelArgs, Computes (.sel o) (.plain o.g [opS 1 cInt none o.a, opS 2 cInt none o.b, opS 3 [.k] none o.k, opD cDst o.d]) o.d 8
    (fun w t =>
      let x := if w.kbit o.g o.k.reg t then o.a.reg else o.b.reg
      let y := if w.kbit o.g o.k.reg t then o.b.reg else o.a.reg
      ({ w.cell x t with tag := if x = .zero then (w.cell y t).tag else (w.cell x t).tag, full := true }, 0)))

/-- R144, R145, R151: the packed conversion, packing, unpacking and the broadcast complete and write their values; nothing
else changes. PACK and UNPACK do so where the element index lies within the count of the tag and PACK's two tags agree. -/
def Obligations.PackedConversionAndBroadcastResults : Prop :=
  (∀ o : CvtsArgs, Computes (.cvts o) (cvtsForm o) o.d 8 (cvtsLane o)) ∧
  (∀ o : PackArgs, Delivers (.pack o) (packForm o) o.d 8
    (fun _ w sel => indexPast o.e sel o.g (packTag w o) = 0 ∧ tagsDiffer w o sel = 0)
    (fun _ sel k => sel.getLsbD k && !o.g.uni)
    (fun w _ t => mkCell (setElem (fmtOf (packTag w o t)) (w.cell o.b.reg t).val.toNat o.e.toNat
      (elemAt (fmtOf (packTag w o t)) (w.cell o.a.reg t).val.toNat 0)) (packTag w o t)) (fun _ _ => 0)) ∧
  (∀ o : UnpackArgs, Delivers (.unpack o) (.plain o.g [opS 1 [.v, .s] none o.a, opD [.v] o.d]) o.d 8
    (fun _ w sel => indexPast o.e sel o.g (fun t => (w.cell o.a.reg t).tag) = 0)
    (fun _ sel k => sel.getLsbD k && !o.g.uni)
    (fun w _ t => mkCell (elemAt (fmtOf (w.cell o.a.reg t).tag) (w.cell o.a.reg t).val.toNat o.e.toNat) (w.cell o.a.reg t).tag)
    (fun _ _ => 0)) ∧
  (∀ o : BcastArgs, ∀ s sel,
    (Executes s (bcastForm o s.me) sel → o.g.uni = false → ∃ t, exec (.bcast o) s = .next t ∧
      Wrote s t o.d (fun k => sel.getLsbD k) (fun _ =>
        if (s.me.dlm ||| s.me.exm).getLsbD ((readInt (s.me.cell o.b.reg 0) 64 true).toNat % s.me.n) then Cell.launch
        else { s.me.cell o.a.reg ((readInt (s.me.cell o.b.reg 0) 64 true).toNat % s.me.n) with full := true }) 0 8) ∧
    (Issues s (bcastForm o s.me) 0 → ∃ t, exec (.bcast o) s = .next t ∧ Skipped s t 8))

/-! ## Masks and lanes -/

/-- R125, R135, R152 to R154: comparisons into masks, mask moves and mask logic complete and write their mask or their
scalar; a comparison writes the bits of the threads it selects, and all 32 when it is uniform. -/
def Obligations.MaskResults : Prop :=
  (∀ o : ICmpArgs, ∀ s sel,
    (Executes s (.plain o.g ([opS 1 cInt tInt o.a] ++ opSI 2 cInt tInt o.b ++ [opD [.k] o.d])) sel → ∃ t, exec (.icmpk o) s = .next t ∧
      WroteMask s t o.d (if o.g.uni then (if icmpHolds o s.me 0 then 0xFFFFFFFF else 0)
        else (s.me.maskSrc o.d &&& ~~~sel) ||| maskOf ((threads sel).filter (fun t => icmpHolds o s.me t))) 0 (lenI o.b)) ∧
    (Issues s (.plain o.g ([opS 1 cInt tInt o.a] ++ opSI 2 cInt tInt o.b ++ [opD [.k] o.d])) 0 →
      ∃ t, exec (.icmpk o) s = .next t ∧ Skipped s t (lenI o.b))) ∧
  (∀ o : FCmpArgs, ∀ s sel,
    (Executes s (.plain o.g ([opS 1 cFlt (tFlt o.w) o.a] ++ opSI 2 cFlt (tFlt o.w) o.b ++ [opD [.k] o.d])) sel →
      (s.me.invt = true → ∀ t ∈ lanesOf o.g sel, (fcmpHolds o s.me t).2 &&& Flags.nv = 0) → ∃ t, exec (.fcmpk o) s = .next t ∧
      WroteMask s t o.d (if o.g.uni then (if (fcmpHolds o s.me 0).1 then 0xFFFFFFFF else 0)
        else (s.me.maskSrc o.d &&& ~~~sel) ||| maskOf ((threads sel).filter (fun t => (fcmpHolds o s.me t).1)))
        (joined (lanesOf o.g sel) (fun t => (fcmpHolds o s.me t).2)) (lenI o.b)) ∧
    (Issues s (.plain o.g ([opS 1 cFlt (tFlt o.w) o.a] ++ opSI 2 cFlt (tFlt o.w) o.b ++ [opD [.k] o.d])) 0 →
      ∃ t, exec (.fcmpk o) s = .next t ∧ Skipped s t (lenI o.b))) ∧
  (∀ o : LUn, ComputesMask (.movkFromScalar o) (.plain o.g [opS 1 [.s] none o.a, opD [.k] o.d]) o.d 8
    (fun w _ => (w.cell o.a.reg 0).val.truncate 32)) ∧
  (∀ o : MovkImmArgs, ComputesMask (.movkImmediate o) (.plain o.g [opD [.k] o.d]) o.d 12 (fun _ _ => o.imm)) ∧
  (∀ o : MovkToArgs, Delivers (.movkToScalar o) (.plain o.g [opS 1 [.k] none o.k, opD [.s] o.d]) o.d 8 (fun _ _ _ => True)
    (fun _ _ _ => false) (fun w _ _ => mkCell (w.maskSrc o.k.reg).toNat tagI32) (fun _ _ => 0)) ∧
  (∀ o : KBin, ComputesMask (.kand o) (.plain o.g [opS 1 [.k] none o.a, opS 2 [.k] none o.b, opD [.k] o.d]) o.d 8
    (fun w _ => w.maskSrc o.a.reg &&& w.maskSrc o.b.reg)) ∧
  (∀ o : KBin, ComputesMask (.kor o) (.plain o.g [opS 1 [.k] none o.a, opS 2 [.k] none o.b, opD [.k] o.d]) o.d 8
    (fun w _ => w.maskSrc o.a.reg ||| w.maskSrc o.b.reg)) ∧
  (∀ o : KBin, ComputesMask (.kxor o) (.plain o.g [opS 1 [.k] none o.a, opS 2 [.k] none o.b, opD [.k] o.d]) o.d 8
    (fun w _ => w.maskSrc o.a.reg ^^^ w.maskSrc o.b.reg)) ∧
  (∀ o : KUn, ComputesMask (.knot o) (.plain o.g [opS 1 [.k] none o.a, opD [.k] o.d]) o.d 8 (fun w _ => ~~~(w.maskSrc o.a.reg))) ∧
  (∀ o : KpopcArgs, Delivers (.kpopc o) (.plain o.g [opS 1 [.k] none o.k, opD [.s] o.d]) o.d 8 (fun _ _ _ => True)
    (fun _ _ _ => false)
    (fun w _ _ => mkCell (popMask (if o.live then w.maskSrc o.k.reg &&& w.alive else w.maskSrc o.k.reg)) tagI32) (fun _ _ => 0))

/-- R161 to R166: each cross-lane instruction completes and writes, for the selected threads, what they make together;
nothing else changes. -/
def Obligations.CrossLaneResults : Prop :=
  (∀ o : VoteArgs, Crosses (.vote o) (condForm o.g o.d o.a) o.d (fun w sel => if voteHolds w o.mode o.a sel then sel else 0)
    (fun w sel => i32Cell (if voteHolds w o.mode o.a sel then 1 else 0))
    (fun w sel _ => i32Cell (if voteHolds w o.mode o.a sel then 1 else 0))) ∧
  (∀ o : LUn, Crosses (.ballot o) (condForm o.g o.d o.a) o.d (fun w sel => maskOf ((threads sel).filter (fun t => w.cond o.a t)))
    (fun w sel => i32Cell (maskOf ((threads sel).filter (fun t => w.cond o.a t))).toNat)
    (fun w sel _ => i32Cell (maskOf ((threads sel).filter (fun t => w.cond o.a t))).toNat)) ∧
  (∀ o : MatchArgs, Crosses (.matchLanes o) (.plain o.g [opS 1 [.v] none o.a, opD (if o.all then [.v, .s] else [.v]) o.d]) o.d
    (fun _ _ => 0) (fun w sel => matchCell o w sel 0) (fun w sel => matchCell o w sel)) ∧
  (∀ o : ElectArgs, Crosses (.elect o) (.plain o.g [opD [.v, .s, .k] o.d]) o.d (fun _ sel => tbit ((threads sel).headD 0))
    (fun _ sel => i32Cell ((threads sel).headD 0)) (fun _ sel t => i32Cell (if t = (threads sel).headD 0 then 1 else 0))) ∧
  (∀ o : LxchArgs, ∀ s sel,
    (Executes s (lxchForm o s.me) sel → o.g.uni = false → ∃ t, exec (.lxch o) s = .next t ∧
      WroteBoth s t o.d (fun k => sel.getLsbD k) (fun k => { (lxchValue o s.me k).1 with full := true }) o.flag
        (maskOf ((threads sel).filter (fun k => (lxchValue o s.me k).2))) (lenI o.b)) ∧
    (Issues s (lxchForm o s.me) 0 → ∃ t, exec (.lxch o) s = .next t ∧ Skipped s t (lenI o.b))) ∧
  (∀ o : CompactArgs, o.g.uni = false → Delivers (.compact o) (.plain o.g [opS 1 [.v] none o.a, opS 2 [.k] none o.k, opD [.v] o.d]) o.d 8
    (fun _ _ _ => True)
    (fun w sel k => sel.getLsbD k && (threads sel).idxOf k < ((threads sel).filter (fun t => (w.maskSrc o.k.reg).getLsbD t)).length)
    (fun w sel k => { w.cell o.a.reg (((threads sel).filter (fun t => (w.maskSrc o.k.reg).getLsbD t)).getD ((threads sel).idxOf k) 0)
      with full := true }) (fun _ _ => 0)) ∧
  (∀ o : ScanArgs, o.g.uni = false → ∀ s sel,
    (Executes s (.plain o.g [opS 1 [.v, .s] (foldTags o.ty) o.a, opD [.v] o.d]) sel →
      s.me.invalid false sel (foldLanes s.me o.op o.ty o.a sel o.exc) = none → ∃ t, exec (.scan o) s = .next t ∧
      Wrote s t o.d (fun k => sel.getLsbD k)
        (fun k => (((foldLanes s.me o.op o.ty o.a sel o.exc).find? (fun x => x.t = k)).map (fun x => x.c)).getD Cell.launch)
        (orFlags (foldLanes s.me o.op o.ty o.a sel o.exc)) 8) ∧
    (Issues s (.plain o.g [opS 1 [.v, .s] (foldTags o.ty) o.a, opD [.v] o.d]) 0 → ∃ t, exec (.scan o) s = .next t ∧ Skipped s t 8)) ∧
  (∀ o : ReduceArgs, ∀ s sel,
    (Executes s (.plain o.g [opS 1 [.v, .s] (foldTags o.ty) o.a, opD [.v, .s] o.d]) sel →
      s.me.invalid false sel (reduceLanes s.me o sel) = none → ∃ t, exec (.reduce o) s = .next t ∧
      Wrote s t o.d (fun k => sel.getLsbD k)
        (fun _ => ((foldLanes s.me o.op o.ty o.a sel false).getLast?.map (fun x => x.c)).getD Cell.launch)
        (orFlags (reduceLanes s.me o sel)) 8) ∧
    (Issues s (.plain o.g [opS 1 [.v, .s] (foldTags o.ty) o.a, opD [.v, .s] o.d]) 0 → ∃ t, exec (.reduce o) s = .next t ∧ Skipped s t 8))

/-! ## Control flow -/

/-- The paths a jump of some threads makes: each with its own target, and the path of those that stay. -/
def jumpPaths (w : Weft) (sel : Mask) (l : List (Nat × Int)) : List Path :=
  l.map (fun p => (⟨BitVec.ofNat 57 p.2.toNat, tbit p.1⟩ : Path)) ++ [⟨nextPc w.pc 12, w.active &&& ~~~sel⟩]

/-- R156 to R158: a branch, an indexed branch, the calls and the return complete for targets inside the 57-bit space, leave
the path at its target, and a call's destination holds the address after it as INT64. -/
def Obligations.ControlTransfersComplete : Prop :=
  (∀ o : BraArgs, Moves (.bra o) (.plain o.g []) 12 (fun s w sel u =>
    inSpace (targetOf w.pc o.off) = true ∧
    u = s.setWeft s.cur (w.cleared.branch o.tag
      [⟨BitVec.ofNat 57 (targetOf w.pc o.off).toNat, sel⟩, ⟨nextPc w.pc 12, w.active &&& ~~~sel⟩]))) ∧
  (∀ o : BrxArgs, Moves (.brx o) (.plain o.g [opS 1 cFlt tInt o.a]) 12 (fun s w sel u =>
    ∃ s1 n s2 l, s.codeWord w (wrapNat 64 (targetOf w.pc o.off - 4)) sel = (s1, .ok n) ∧
      (∀ t ∈ threads sel, (w.int 64 true o.a t).toNat < n.toNat) ∧
      s1.brxTargets w (wrapNat 64 (targetOf w.pc o.off)) (fun t => (w.int 64 true o.a t).toNat) (threads sel) [] = (s2, .inl l) ∧
      (∀ p ∈ l, inSpace p.2 = true) ∧ u = s2.setWeft s.cur (w.cleared.branch o.tag (jumpPaths w sel l)))) ∧
  (∀ o : CallArgs, Moves (.call o) (.plain o.g [opD [.s] o.d]) 12 (fun s w _ u =>
    inSpace (targetOf w.pc o.off) = true ∧
    u = s.setWeft s.cur ((w.put o.d 0 (mkCell (nextPc w.pc 12).toNat tagI64)).cleared.goto
      (BitVec.ofNat 57 (targetOf w.pc o.off).toNat)))) ∧
  (∀ o : CallRArgs, Moves (.callR o) (.plain o.g [opS 1 [.s] tInt o.a, opD [.s] o.d]) 12 (fun s w _ u =>
    wrapNat 64 (w.int 64 true o.a 0 + 4 * o.off.toInt) < 2 ^ 57 ∧
    u = s.setWeft s.cur ((w.put o.d 0 (mkCell (nextPc w.pc 12).toNat tagI64)).cleared.goto
      (BitVec.ofNat 57 (wrapNat 64 (w.int 64 true o.a 0 + 4 * o.off.toInt)))))) ∧
  (∀ o : RetArgs, Moves (.ret o) (.plain o.g [opS 1 [.s] (some [1]) o.a]) 8 (fun s w _ u =>
    (w.cell o.a.reg 0).val.toNat < 2 ^ 57 ∧
    u = s.setWeft s.cur (w.cleared.goto (BitVec.ofNat 57 (w.cell o.a.reg 0).val.toNat))))

/-- R158: a target outside the 57-bit space raises the fetch-page fault with INFO 4, bits 56:0 of the target as its address
and the selected threads, and the path stays where it is. -/
def Obligations.FarTargetsFault : Prop :=
  (∀ o : BraArgs, Faults Executes (.bra o) (.plain o.g []) (fun s w sel u t =>
    inSpace (targetOf w.pc o.off) = false ∧ u = s ∧ t = w.fault cFetch (info := 4) (addr := low57 (targetOf w.pc o.off)) (mask := sel))) ∧
  (∀ o : CallArgs, Faults Executes (.call o) (.plain o.g [opD [.s] o.d]) (fun s w sel u t =>
    inSpace (targetOf w.pc o.off) = false ∧ u = s ∧ t = w.fault cFetch (info := 4) (addr := low57 (targetOf w.pc o.off)) (mask := sel))) ∧
  (∀ o : RetArgs, Faults Executes (.ret o) (.plain o.g [opS 1 [.s] (some [1]) o.a]) (fun s w sel u t =>
    2 ^ 57 ≤ (w.cell o.a.reg 0).val.toNat ∧ u = s ∧
    t = w.fault cFetch (info := 4) (addr := (w.cell o.a.reg 0).val.toNat % 2 ^ 57) (mask := sel)))

/-- R102, R106, R108, R155, R160, R181: joining, leaving, yielding and NOP complete; a breakpoint and a software trap raise
their faults, the one at its own PC and the other past it; RFT returns to TRAPPC and clears TSTAT.INH where a handler of this
depth runs, and is illegal elsewhere. -/
def Obligations.PathAndTrapInstructionsComplete : Prop :=
  (∀ o : JoinArgs, Moves (.join o) (.plain o.g []) 8 (fun s w _ u => u = s.setWeft s.cur (w.cleared.join o.tag (nextPc w.pc 8)))) ∧
  (∀ o : PlainArgs, Moves (.exit o) (.plain o.g []) 8 (fun s w sel u =>
    u = (s.setWeft s.cur { w.cleared with pc := nextPc w.pc 8 }).exit s.cur sel)) ∧
  (∀ o : PlainArgs, Moves (.yield o) (.plain o.g []) 8 (fun s w _ u => u = s.setWeft s.cur (w.cleared.yield (nextPc w.pc 8)))) ∧
  (∀ o : PlainArgs, ∀ s sel, (Executes s (.plain o.g []) sel ∨ Issues s (.plain o.g []) 0) →
    ∃ t, exec (.nop o) s = .next t ∧ Skipped s t 8) ∧
  (∀ o : CodeArgs, Faults Executes (.brk o) (.plain o.g []) (fun s w sel u t =>
    u = s ∧ t = w.fault cBreak (info := (o.code.map BitVec.toNat).getD 0) (mask := sel))) ∧
  (∀ o : CodeArgs, Faults Executes (.trap o) (.plain o.g []) (fun s w sel u t =>
    u = s ∧ t = { w.fault cSoft (info := (o.code.map BitVec.toNat).getD 0) (mask := sel) with
      pc := nextPc w.pc (if o.code.isSome then 12 else 8) })) ∧
  (∀ o : PlainArgs, Moves (.rft o) (.plain o.g []) 8 (fun s w _ u =>
    w.tstat.getLsbD 0 = true ∧ w.stack.length % 32 = w.tstat.toNat / 256 % 32 ∧
    ∃ x, (x : Weft) = { w.cleared with tstat := w.tstat &&& ~~~1 } ∧ u = s.setWeft s.cur (x.goto (w.trappc.truncate 57)))) ∧
  (∀ o : PlainArgs, Faults Executes (.rft o) (.plain o.g []) (fun s w sel u t =>
    (w.tstat.getLsbD 0 = false ∨ w.stack.length % 32 ≠ w.tstat.toNat / 256 % 32) ∧ u = s ∧ t = w.fault cIllegal (mask := sel)))

/-! ## Decode instructions -/

/-- R167 to R171: each decode completes as a producer that has emptied its destination and its cursor register, where its
fields lie within the scratchpad and no buffer forbids them, and delivers the elements of its kind; under INVT a signalling scale of DECSIGN raises the floating-point invalid
fault (R70). -/
def Obligations.DecodesComplete : Prop :=
  (∀ o : DecArgs, Effects Accesses (.decrle o) (decForm o.g [] o.a o.d o.c) 8 (fun s w sel u =>
    (s.boltOf w).streamFault w sel (rleExpansion o.i32 w (s.boltOf w) (w.streamOf o.a)).fields = none ∧
    u = s.issueDecode s.cur o.d o.c sel (rleExpansion o.i32 w (s.boltOf w) (w.streamOf o.a)))) ∧
  (∀ o : DecArgs, Effects Accesses (.decbits o) (decForm o.g [] o.a o.d o.c) 8 (fun s w sel u =>
    (s.boltOf w).streamFault w sel (bitsExpansion o.i32 w (s.boltOf w) (w.streamOf o.a)).fields = none ∧
    u = s.issueDecode s.cur o.d o.c sel (bitsExpansion o.i32 w (s.boltOf w) (w.streamOf o.a)))) ∧
  (∀ o : DecdArgs, Effects Accesses (.decdelta o) (decForm o.g [opS 2 [.s, .z] tInt o.b] o.a o.d o.c) 8 (fun s w sel u =>
    (s.boltOf w).streamFault w sel (deltaExpansion o.i32 o.b w (s.boltOf w) (w.streamOf o.a)).fields = none ∧
    u = s.issueDecode s.cur o.d o.c sel (deltaExpansion o.i32 o.b w (s.boltOf w) (w.streamOf o.a)))) ∧
  (∀ o : DecsArgs, Effects Accesses (.decsign o) (decForm o.g [opS 2 [.s] (some [3, 4]) o.b] o.a o.d o.c) 8 (fun s w sel u =>
    (s.boltOf w).streamFault w sel (signExpansion o.b w (s.boltOf w) (w.streamOf o.a)).fields = none ∧
    ((signExpansion o.b w (s.boltOf w) (w.streamOf o.a)).nv && w.invt) = false ∧
    u = s.issueDecode s.cur o.d o.c sel (signExpansion o.b w (s.boltOf w) (w.streamOf o.a)))) ∧
  (∀ o : DecsArgs, Faults Accesses (.decsign o) (decForm o.g [opS 2 [.s] (some [3, 4]) o.b] o.a o.d o.c) (fun s w sel u t =>
    (s.boltOf w).streamFault w sel (signExpansion o.b w (s.boltOf w) (w.streamOf o.a)).fields = none ∧
    (signExpansion o.b w (s.boltOf w) (w.streamOf o.a)).nv = true ∧ w.invt = true ∧ u = s ∧ t = w.fault cInvalid (mask := sel)))

/-! ## Memory -/

/-- The release that an instruction of a weft carries, if any, has been made. -/
def Released (h : Nat) (s : State) (sel : Mask) (sc : Option Scope) (u : State) : Prop :=
  match sc with
  | none => u = s
  | some x => s.release h sel x = .go u

/-- What a load through a record leaves: its elements lie in bounds or read as absent and its pages are mapped; the
destination is empty until the load lands. -/
def Loads (once : Bool) (o : LdArgs) (s : State) (w : Weft) (sel : Mask) (u : State) : Prop :=
  let r := (s.recordOf w o.br).fields
  w.recordFault (s.recordOf w o.br) false sel = none ∧
  r.crossing (fun _ => o.fmt) (w.offset o.off (addInt o.add)) (lanesWho once sel) = 0 ∧
  ∃ p s1 locs, loadPair r.enc o.fmt = some p ∧
    s.resolve w r .read (r.usesScale p o.fmt) (r.elems (fun _ => o.fmt) (w.offset o.off (addInt o.add)) (lanesWho once sel)) [] =
      (s1, .ok locs) ∧
    u = s1.issueFlight s.cur o.d sel (if once then 1 else sel) (.load o.d o.fmt r.enc r.nan
      (if r.usesScale p o.fmt then r.smode else 0) locs o.acq (r.cache = 0 || r.cache = 2) r.ext)

/-- R189, R196, R197, R200: loads through a record, from a scratchpad and from a vault complete, and so does the load of a
buffer record, wherever their checks find no fault. -/
def Obligations.LoadsComplete : Prop :=
  (∀ o : LdArgs, Effects Accesses (.ld o) (recForm o.g o.br [opS 2 cOff tInt o.off, opD [.v] o.d]) (lenA o.add) (Loads false o)) ∧
  (∀ o : LdArgs, Effects Accesses (.ldu o) (recForm o.g o.br [opS 2 [.s, .z] tInt o.off, opD [.s] o.d]) (lenA o.add) (Loads true o)) ∧
  (∀ o : LdsArgs, Effects Accesses (.lds o) (spaceLoadForm o.g (boltOps o.bolt) o.d o.off) (lenA o.add) (fun s w sel u =>
    ∃ l, s.spaceChecked w false (boltTarget o.bolt) (w.offset o.off (addInt o.add)) (fun _ => (ldsKind o.kind).1) sel = .inl l ∧
      u = (s.issueSpaceLoad s.cur o.d sel o.kind l).acquiresNow (s.coreOf w) o.acq)) ∧
  (∀ o : LdvArgs, Effects Accesses (.ldv o) (spaceLoadForm o.g [] o.d o.off) (lenA o.add) (fun s w sel u =>
    ∃ l, s.spaceChecked w false .vault (w.offset o.off (addInt o.add)) (fun _ => (ldsKind o.kind).1) sel = .inl l ∧
      u = (s.issueSpaceLoad s.cur o.d sel o.kind l).acquiresNow (s.coreOf w) o.acq)) ∧
  (∀ o : BrloadArgs, Effects Accesses (.brload o) (recForm o.g o.br [opS 2 [.s, .z] tInt o.off]) (lenA o.add) (fun s w sel u =>
    ∃ off : Nat, w.offset o.off (addInt o.add) 0 = off ∧ off % 8 = 0 ∧ off + 40 ≤ (s.boltOf w).scratch ∧
      s.guarded w false ⟨0, .sp w.bolt, off, 40, sel⟩ = none ∧ s.accBad ⟨0, .sp w.bolt, off, 40, sel⟩ = false ∧
      (BufRec.ofBytes (s.spaceRead (.sp w.bolt) off 40)).ok = true ∧ (BufRec.ofBytes (s.spaceRead (.sp w.bolt) off 40)).w4 = 0 ∧
      ∃ s1, s1 = s.spaceSplit (.sp w.bolt) off 40 ∧ u = s1.setBolt w.bolt { s1.bolt w.bolt with
        recs := (s.boltOf w).recs.set o.br.toNat (BufRec.ofBytes (s.spaceRead (.sp w.bolt) off 40)) }))

/-- The registers a store stores. -/
def storeItems (once : Bool) (o : StArgs) (w : Weft) (sel : Mask) : List SItem :=
  (lanesWho once sel).map (fun p => ({ thr := p.1, who := p.2, c := w.cell o.data.reg p.1 } : SItem))

/-- What a store through a record leaves: its bytes in the core's write buffer and its flags raised. -/
def Stores (once : Bool) (o : StArgs) (s : State) (w : Weft) (sel : Mask) (u : State) : Prop :=
  let r := (s.recordOf w o.br).fields
  let e := w.offset o.off (addInt o.add)
  let fmt (t : Nat) : Nat := fmtOf (w.cell o.data.reg t).tag
  w.recordFault (s.recordOf w o.br) true sel = none ∧ storeFault w r (storeItems once o w sel) = none ∧
  r.crossing fmt e (lanesWho once sel) = 0 ∧
  ∃ s1 locs s2 ws fl s3, s.resolve w r .write (r.smode ≠ 0) (r.elems fmt e (lanesWho once sel)) [] = (s1, .ok locs) ∧
    (if r.wholeBlocks then
      s1.placeWrites w (wholeStore r (w.mode o.r) sel (presentElems r e (storeItems once o w sel) locs)).1 [] = (s2, .inl ws) ∧
        fl = (wholeStore r (w.mode o.r) sel (presentElems r e (storeItems once o w sel) locs)).2
      else s2 = s1 ∧ (ws, fl) = plainStore r (w.mode o.r) o.sat (presentElems r e (storeItems once o w sel) locs)) ∧
    Released s.cur s2 sel o.rel s3 ∧ u = (s3.setWeft s.cur ((s3.weft s.cur).raise fl)).pushStores s.cur ws

/-- R192, R195 to R197, R200, R308: stores through a record, to a scratchpad and to a vault complete wherever their checks
find no fault and the release they carry has been made. -/
def Obligations.StoresComplete : Prop :=
  (∀ o : StArgs, Effects Accesses (.st o) (recForm o.g o.br [opS 2 cOff tInt o.off, opS 3 [.v] none o.data]) (lenA o.add)
    (Stores false o)) ∧
  (∀ o : StArgs, Effects Accesses (.stu o) (recForm o.g o.br [opS 2 [.s, .z] tInt o.off, opS 3 [.s] none o.data]) (lenA o.add)
    (Stores true o)) ∧
  (∀ o : StsArgs, Effects Accesses (.sts o) (spaceStoreForm o.g (boltOps o.bolt) o.off o.data) (lenA o.add) (fun s w sel u =>
    ∃ l s1, s.spaceChecked w true (boltTarget o.bolt) (w.offset o.off (addInt o.add)) (fun _ => 2 ^ o.size.toNat) sel = .inl l ∧
      Released s.cur s sel o.rel s1 ∧
      u = l.foldl (fun (s : State) a => s.spaceWrite a.sp a.off (natLe a.n (w.cell o.data.reg a.thr).val.toNat)) s1)) ∧
  (∀ o : StvArgs, Effects Accesses (.stv o) (spaceStoreForm o.g [] o.off o.data) (lenA o.add) (fun s w sel u =>
    ∃ l s1, s.spaceChecked w true .vault (w.offset o.off (addInt o.add)) (fun _ => 2 ^ o.size.toNat) sel = .inl l ∧
      Released s.cur s sel o.rel s1 ∧
      u = l.foldl (fun (s : State) a => s.spaceWrite a.sp a.off (natLe a.n (w.cell o.data.reg a.thr).val.toNat)) s1))

/-- The checks of an atomic or a reduction find no fault: its places. -/
def AtomPlaces (s : State) (w : Weft) (sel : Mask) (o : AtomIn) (u : State) (p : AtomAt) : Prop :=
  w.casBad o.c o.op sel = 0 ∧
  match o.base with
  | .record br =>
    w.recordFault (s.recordOf w br) true sel = none ∧
    (∀ t ∈ threads sel, atomEnc (s.recordOf w br).fields (atomBytes (w.atomCell o.c t o.op).tag) = true) ∧
    ∃ locs, s.resolve w (s.recordOf w br).fields .rw false
        ((s.recordOf w br).fields.elems (fun _ => 0) (w.offset o.off o.add) (lanesWho false sel)) [] = (u, .ok locs) ∧
      p = .global (s.recordOf w br).fields locs
  | b => u = s ∧ ∃ l, s.spaceChecked w true (baseTarget b) (w.offset o.off o.add) (fun t => atomBytes (w.atomCell o.c t o.op).tag) sel = .inl l ∧
      p = .space l

/-- R201 to R203, R311: an atomic completes as a producer, performed at its home when it lands on global memory and at once
on a scratchpad or a vault; a reduction leaves its addends in its core's update-only copies, after the bolt's own stores and
the weft's own reads of the same bytes. -/
def Obligations.AtomicsComplete : Prop :=
  (∀ o : AtomArgs, Effects Accesses (.atom o) (atomForm o.g (atomInner o) [opD [.v] o.d]) (atomLen o.ext) (fun s w sel u =>
    ∃ s1 p s2, AtomPlaces s w sel (atomInner o) s1 p ∧ Released s.cur s1 sel (semRel o.sem o.ext) s2 ∧
      match p with
      | .global r locs => u = s2.issueFlight s.cur o.d sel sel
          (.atom o.d o.op (isOrdered o.op o.ext r) (w.atomReqs o.op o.c locs) (semAcq o.sem o.ext))
      | .space l => ∃ s3 cells dead, s2.spaceAtoms w (atomInner o) (o.op = .fadd && extOrd o.ext) true l = (s3, cells, dead) ∧
        u = (s3.issueReady s.cur o.d sel cells (maskOf dead)).acquiresNow
          ((s3.issueReady s.cur o.d sel cells (maskOf dead)).coreOf w) (semAcq o.sem o.ext))) ∧
  (∀ o : RedArgs, Effects Accesses (.red o) (atomForm o.g (redInner o) []) (atomLen o.ext) (fun s w sel u =>
    ∃ s1 p s2, AtomPlaces s w sel (redInner o) s1 p ∧ Released s.cur s1 sel (semRel o.sem o.ext) s2 ∧
      match p with
      | .global r locs =>
        let at_ := locs.filterMap (fun l => l.at_.map (fun q => (l.thr, q.1)))
        s2.boltBuffered s.cur s2.order (at_.map (fun q => (q.2, atomBytes (w.atomCell o.c q.1 o.op).tag))) = false ∧
        s2.olderFlight w s2.order (at_.map (fun q => (q.2, atomBytes (w.atomCell o.c q.1 o.op).tag))) = false ∧
        u = s2.redAll s.cur w o (isOrdered o.op o.ext r) at_
      | .space l => u = (s2.spaceAtoms w (redInner o) (o.op = .fadd && extOrd o.ext) false l).1))

/-- R204 to R209: a fence, a wait for a value, a prefetch, a line operation and a lease complete. A prefetch brings lines to
the caches and changes no value. -/
def Obligations.OrderingAndHintsComplete : Prop :=
  (∀ o : FenceArgs, Effects Executes (.fence o) (.plain o.g []) 8 (fun s _ sel u =>
    ∃ s1, Released s.cur s sel (if Sem.releases o.sem then some o.scope else none) s1 ∧
      (if Sem.acquires o.sem then (o.scope = .weft ∨ (s1.weft s.cur).owesAny sel = false) ∧
          u = s1.acquire (s1.coreOf (s1.weft s.cur)) o.scope
        else u = s1))) ∧
  (∀ o : WaitvArgs, Effects Accesses (.waitv o) (recForm o.g o.br [opS 2 cOff tInt o.off, opS 3 cFlt tInt o.a, opD [.v] o.d]) (lenA o.add)
    (fun s w sel u =>
      let r := (s.recordOf w o.br).fields
      w.recordFault (s.recordOf w o.br) false sel = none ∧
      (if o.w64 then r.enc = 0x01 ∨ r.enc = 0x00 else r.enc = 0x02 ∨ r.enc = 0x0C) ∧
      ∃ s1 locs f s2,
        s.resolve w r .read false (r.elems (fun _ => 0) (w.offset o.off (addInt o.add)) (lanesWho false sel)) [] = (s1, .ok locs) ∧
        s2 = s1.issueFlight s.cur o.d sel sel (.waitv o.d o.eq o.w64
          (locs.map (fun l => (l.thr, l.at_.map (fun _ => (r.spot (w.offset o.off (addInt o.add) l.thr)).at_.toNat), (w.cell o.a.reg l.thr).val)))
          o.acq r.ext (if o.w64 then tagI64 else tagI32) w.pc) ∧
        (s2.weft s.cur).flights.find? (fun f => f.fid = s1.order) = some f ∧ u = s2.pollFlight s.cur f)) ∧
  (∀ o : PrefArgs, Effects Executes (.pref o) (recForm o.g o.br [opS 2 cOff tInt o.off]) (lenA o.add) (fun s w sel u =>
    let b := s.recordOf w o.br
    u = if !b.ok || b.fields.rv then s
      else (b.fields.elems (fun _ => 0) (w.offset o.off (addInt o.add)) (lanesWho false sel)).foldl
        (fun (s : State) x => s.prefetch w b.fields (!o.l2) x.i) s)) ∧
  (∀ o : ClineArgs, Effects Executes (.cline o) (recForm o.g o.br [opS 2 cOff tInt o.off]) (lenA o.add) (fun s w sel u =>
    let r := (s.recordOf w o.br).fields
    w.recordFault (s.recordOf w o.br) false sel = none ∧
    ∃ s1 locs s2, s.resolve w r .read (r.smode ≠ 0) (r.elems (fun _ => 0) (w.offset o.off (addInt o.add)) (lanesWho false sel)) [] =
        (s1, .ok locs) ∧
      s2 = (if o.op = 0 ∨ o.op = 2 ∨ o.op = 4 then
        (locLines (max 1 (encBits r.enc / 8)) locs).foldl (fun (s : State) l => s.dropLine (s.coreOf w) l) s1 else s1) ∧
      u = (if o.op = 3 ∨ o.op = 4 then (locLines (max 1 (encBits r.enc / 8)) locs).foldl (fun (s : State) l => s.recall l) s2 else s2))) ∧
  (∀ o : LeaseArgs, Effects Executes (.lease o) (.plain o.g (opSI 1 [.s, .z] tInt o.a ++ [opD [.s, .z] o.d])) (lenI o.a) (fun s w _ u =>
    u = s.setWeft s.cur ({ w with leaseDecl := leaseOf (w.intB 64 true o.a 0).toNat }.put o.d 0 (mkCell w.leaseDecl tagI64))))

/-! ## Barriers, declared buffers and copies -/

/-- What a barrier instruction comes to at the object it names: its checks pass and `rel` holds of the object's owner and
offset. -/
def AtObject (bolt : Option Src) (off : Src) (add : Option (BitVec 32)) (align : Nat)
    (rel : State → Weft → Mask → Nat → Nat → State → Prop) (s : State) (w : Weft) (sel : Mask) (u : State) : Prop :=
  ∃ b f, s.barTarget w bolt off add align sel = .inl (b, f) ∧ rel s w sel b f u

/-- What an arrival, or an arrival with an expect, leaves. -/
def Arrives (all : Bool) (d : Reg) (bytes : Option Nat) (s : State) (w : Weft) (sel : Mask) (b f : Nat) (u : State) : Prop :=
  s.objAborts b f = false ∧ s.barState b f = 1 ∧ s.participant b f w.bolt w.id = true ∧
  ∃ t s1, s.arrivals w all sel b f = (t, false) ∧
    Released s.cur (s.afterWait w b f) t (some ((s.afterWait w b f).barScope b f)) s1 ∧
    u = (s1.barHappen s.cur b f t bytes).answered s.cur d ((s1.bolt b).obj f).phase

/-- R229 to R234, R240 to R245: the barrier instructions complete wherever their object is within the scratchpad and in a
state that accepts them. -/
def Obligations.BarrierInstructionsComplete : Prop :=
  (∀ o : BarinitArgs, Effects Accesses (.barinit o) (.plain o.g (xOps none ++ [opS 2 cBar tInt o.off, opS 3 cBar tInt o.pmask, opD cBar o.d]))
    (lenA o.add) (AtObject none o.off o.add 32 (fun s w sel b f u =>
      let pm := (w.int 64 true o.pmask 0).toNat
      pm < 2 ^ (s.bolt b).nwefts ∧ (∀ d ∈ (s.bolt b).bufs, overlap f 32 d.base d.len = false) ∧
      (((∃ x ∈ s.barBolts b o.crs pm, s.barRoom b f x = false) ∧ u = s.answered s.cur o.d 1) ∨
        (∀ x ∈ s.barBolts b o.crs pm, s.barRoom b f x = true) ∧
          ∃ s1, Released s.cur s sel (some (if o.crs then .course else .bolt)) s1 ∧
            u = ((if s1.barState b f = 0 then s1 else s1.barInvalidate b f).barCreate b f o.crs pm w.n).answered s.cur o.d 0)))) ∧
  (∀ o : BarinvalArgs, Effects Accesses (.barinval o) (.plain o.g (xOps none ++ [opS 2 cBar tInt o.off])) (lenA o.add)
    (AtObject none o.off o.add 32 (fun s _ _ b f u => u = if s.barState b f = 0 then s else s.barInvalidate b f))) ∧
  (∀ o : BararriveArgs, Effects Accesses (.bararrive o) (.plain o.g (xOps o.bolt ++ [opS 2 cBar tInt o.off, opD cBar o.d])) (lenA o.add)
    (AtObject o.bolt o.off o.add 32 (Arrives o.all o.d none))) ∧
  (∀ o : BarexpectArgs, Effects Accesses (.barexpect o)
    (.plain o.g (xOps o.bolt ++ [opS 2 cBar tInt o.off, opS 3 cBar tInt o.bytes, opD cBar o.d])) (lenA o.add)
    (AtObject o.bolt o.off o.add 32 (fun s w sel b f u =>
      let a := (w.int 64 true o.bytes 0).toNat
      s.objAborts b f = false ∧ ((s.bolt b).obj f).btgt + a < 2 ^ 40 ∧
      match o.arr with
      | none => s.barState b f = 1 ∧ u = (s.barHappen s.cur b f 0 (some a)).answered s.cur o.d ((s.bolt b).obj f).phase
      | some all => Arrives all o.d (some a) s w sel b f u))) ∧
  (∀ o : BarwaitArgs, Effects Accesses (.barwait o) (.plain o.g (xOps o.bolt ++ [opS 2 cBar tInt o.off, opS 3 cBar tInt o.phase])) (lenA o.add)
    (AtObject o.bolt o.off o.add 32 (fun s w _ b f u =>
      s.objAborts b f = false ∧ phasePassed ((s.bolt b).barPhase f) (BitVec.ofInt 32 (w.int 64 true o.phase 0)) = true ∧
      u = s.phaseAcquire (s.coreOf w) b f (BitVec.ofInt 32 (w.int 64 true o.phase 0))))) ∧
  (∀ o : BarphaseArgs, Effects Executes (.barphase o) (.plain o.g (xOps o.bolt ++ [opS 2 cBar tInt o.off, opD cBar o.d])) (lenA o.add)
    (AtObject o.bolt o.off o.add 32 (fun s _ _ b f u =>
      s.objAborts b f = false ∧ u = s.answered s.cur o.d (((s.bolt b).obj f).phase + s.barState b f * 2 ^ 32 + ((s.bolt b).obj f).errinfo * 2 ^ 35))))

/-- A buffer as it is declared, in the phase of its barrier (R246). -/
def declared (fill : Bool) (base len bar : Nat) (ph : Word32) : DBuf :=
  { base := base, len := len, st := if fill then .filling else .free, bar := bar, wph := if fill then ph else 0, wv := fill }

/-- What an operation on a declared buffer comes to (R237): the state forbids nothing, a wait it needs is over, and its
release has been made. -/
def BufferStep (op : BufOp) (o : BufstateArgs) : State → Weft → Mask → State → Prop :=
  AtObject none o.base o.add 64 (fun s w sel b f u =>
    ∃ d s1 s2, (s.bolt b).bufAt f = some d ∧ bufAct op d.st ≠ .refuse ∧
      (match bufAct op d.st with
       | .wait _ => s.objAborts b d.bar = false ∧ phasePassed ((s.bolt b).barPhase d.bar) d.wph = true ∧ s1 = s.phaseAcquire (s.coreOf w) b d.bar d.wph
       | _ => s1 = s.afterWait w b d.bar) ∧
      Released s.cur s1 sel (if BufOp.releases op then some (s1.barScope b d.bar) else none) s2 ∧
      u = (s2.bufSet b d (bufAct op d.st)).answered s.cur o.d d.word)

/-- R236 to R238, R246 to R248: declaring a buffer, releasing one and each operation of BUFSTATE complete wherever R237's
table gives the state an effect and the phase it waits for has passed. -/
def Obligations.BufferInstructionsComplete : Prop :=
  (∀ o : BufdeclArgs, Effects Accesses (.bufdecl o)
    (.plain o.g (xOps none ++ [opS 1 cBar tInt o.bar, opS 2 cBar tInt o.base, opS 3 cBar tInt o.len, opD cBar o.d])) (lenA o.add)
    (AtObject none o.base o.add 64 (fun s w _ b base u =>
      ∃ bar : Nat, w.int 64 false o.bar 0 = bar ∧ s.objAborts b bar = false ∧ s.barState b bar = 1 ∧
      let len := (w.int 64 true o.len 0).toNat
      0 < len ∧ len % 64 = 0 ∧ base + len ≤ (s.bolt b).scratch ∧
      (∀ d ∈ (s.bolt b).bufs, overlap base len d.base d.len = false) ∧ (s.bolt b).hitsObject b base len = false ∧
      (if 32 ≤ (s.bolt b).bufs.length then u = s.answered s.cur o.d 1
       else u = (s.setBolt b { s.bolt b with bufs := (s.bolt b).bufs ++ [declared o.fill base len bar ((s.bolt b).barPhase bar)] }).answered
          s.cur o.d 0)))) ∧
  (∀ o : BufrelArgs, Effects Accesses (.bufrel o) (.plain o.g (xOps none ++ ([opS 2 cBar tInt o.base] ++ []))) (lenA o.add)
    (AtObject none o.base o.add 64 (fun s w _ b f u =>
      ∃ d s1, (s.bolt b).bufAt f = some d ∧
        (if d.st = .free ∨ d.st = .full ∨ (s.barState b d.bar ≠ 1 ∧ w.waited b d.bar = false) then s1 = s.afterWait w b d.bar
         else s.objAborts b d.bar = false ∧ phasePassed ((s.bolt b).barPhase d.bar) d.wph = true ∧ s1 = s.phaseAcquire (s.coreOf w) b d.bar d.wph) ∧
        u = s1.setBolt b { s1.bolt b with bufs := (s1.bolt b).bufs.filter (fun x => x.base ≠ d.base) }))) ∧
  (∀ p ∈ [(Instr.bufstateGet, BufOp.get), (Instr.bufstateFill, BufOp.fill), (Instr.bufstateDrain, BufOp.drain),
      (Instr.bufstateFree, BufOp.free), (Instr.bufstateWfull, BufOp.wfull), (Instr.bufstateWfree, BufOp.wfree)], ∀ o : BufstateArgs,
    Effects Accesses (p.1 o) (.plain o.g (xOps none ++ ([opS 2 cBar tInt o.base] ++ [opD cBar o.d]))) (lenA o.add) (BufferStep p.2 o))

/-- What opening a copy leaves: no earlier acquire of its threads is still to be performed, the descriptor's bytes are readable and its
checks pass; without a free record D says why, and otherwise the weft's slice has joined the new copy (R264, R268, R271). -/
def Opens (o : CpysliceArgs) (off : Nat) (s : State) (w : Weft) (sel : Mask) (u : State) : Prop :=
  let s0 := s.spaceSplit (.sp w.bolt) off 128
  let c := s0.describedCopy w off
  let lo := (w.int 64 true o.lo 0).toNat
  let cnt := (w.int 64 true o.cnt 0).toNat
  w.acquiring sel = false ∧
  s.guarded w false ⟨0, .sp w.bolt, off, 128, sel⟩ = none ∧ s.accBad ⟨0, .sp w.bolt, off, 128, sel⟩ = false ∧
  s0.copyFault w c sel = none ∧
  match s0.noRecord w.bolt with
  | some x => u = s0.answered s.cur o.d (2 ^ 63 + x)
  | none => w.id ∈ s0.copyParts w c ∧ lo + cnt ≤ c.count 5 ∧
    ∃ hd s1, s0.openCopy w.bolt { c with parts := s0.copyParts w c } = (hd, s1) ∧
      u = (if (s1.dstSide w.bolt c).shadowOk then (s1.joinCopy s.cur hd lo cnt).answered s.cur o.d hd
        else (s1.endCopy w.bolt hd 2).answered s.cur o.d hd)

/-- What a CPYREG leaves: every word it moves lies within the allocation; a copy over the selected threads, the registers it loads
empty (R279). -/
def RegisterCopy (ld : Bool) (r : Reg) (off bar : Src) (cnt : Nat) (barv : Bool) (s : State) (w : Weft) (sel : Mask) (u : State) : Prop :=
  let q := w.int 64 false off 0
  let t0 := (threads sel).headD 0
  ∃ f : Nat, w.int 64 false bar 0 = f ∧
    (∀ x ∈ cpyregWords w.n sel cnt q, 0 ≤ x ∧ x + 8 ≤ ((s.boltOf w).scratch : Int)) ∧
    (barv = true → s.copyBarFault w f sel = none) ∧ s.noRecord w.bolt = none ∧
    u = s.startCpyreg s.cur w sel (s.newCopy w.bolt 0 (cpyregDesc ld (s.boltOf w).id w.id (q + (8 * t0 : Nat)).toNat
      (match r with | .v n => n.toNat | _ => 0) w.n t0 cnt (if barv then some f else none))) ld r cnt

/-- R264, R271, R279 to R281: opening and joining a copy, copying registers, and asking for and cancelling a copy complete. -/
def Obligations.CopyInstructionsComplete : Prop :=
  (∀ o : CpysliceArgs, Effects Executes (.cpyslice o)
    (.plain o.g [opS 1 [.s, .z] tInt o.a, opS 2 [.s, .z] tInt o.lo, opS 3 [.s, .z] tInt o.cnt, opD [.s, .z] o.d]) (lenA o.add)
    (fun s w sel u =>
      ∃ off : Nat, w.offset o.a (addInt o.add) 0 = off ∧ off % 128 = 0 ∧ off + 128 ≤ (s.boltOf w).scratch ∧
        match (s.boltOf w).copies.find? (fun p => p.2.st = .opened && p.2.off = off) with
        | some (hd, c) =>
          if c.contrib.any (fun p => p.1 = s.cur) then u = s.answered s.cur o.d (2 ^ 63 + 2)
          else w.id ∈ c.parts ∧ (w.int 64 true o.lo 0).toNat + (w.int 64 true o.cnt 0).toNat ≤ c.count 5 ∧
            u = (s.joinCopy s.cur hd (w.int 64 true o.lo 0).toNat (w.int 64 true o.cnt 0).toNat).answered s.cur o.d hd
        | none => Opens o off s w sel u)) ∧
  (∀ o : CpyregLdArgs, Effects Accesses (.cpyregLd o) (.plain o.g [opS 2 [.s, .z] tInt o.off,
      opS 3 (if o.barv then [.s, .z] else [.z]) (if o.barv then tInt else none) o.bar, { opD [.v] o.d with cnt := o.count1.toNat + 1 }]) 16
    (RegisterCopy true o.d o.off o.bar (o.count1.toNat + 1) o.barv)) ∧
  (∀ o : CpyregStArgs, Effects Accesses (.cpyregSt o) (.plain o.g [{ opS 1 [.v] none o.a with cnt := o.count1.toNat + 1 },
      opS 2 [.s, .z] tInt o.off, opS 3 (if o.barv then [.s, .z] else [.z]) (if o.barv then tInt else none) o.bar]) 16
    (RegisterCopy false o.a.reg o.off o.bar (o.count1.toNat + 1) o.barv)) ∧
  (∀ o : CpyArgs, Effects Executes (.cpystat o) (.plain o.g [opS 1 [.s] (some [1]) o.h, opD [.s] o.d]) 8 (fun s w _ u =>
    u = s.answered s.cur o.d ((s.boltOf w).copyStatus (w.cell o.h.reg 0).val.toNat))) ∧
  (∀ o : CpyArgs, Effects Executes (.cpycancel o) (.plain o.g [opS 1 [.s] (some [1]) o.h, opD [.s, .z] o.d]) 8 (fun s w _ u =>
    u = (s.failCopy w.bolt (w.cell o.h.reg 0).val.toNat 7).answered s.cur o.d ((s.boltOf w).copyStatus (w.cell o.h.reg 0).val.toNat)))

/-! ## The matrix array -/

/-- What an MMA or an MLOOP comes to once its checks pass: D receives 1 where the sequencer is full, and 0 where the entry is
made (R297). -/
def Entered (s : State) (d : Reg) (e : SeqEntry) (chain : Bool) (u : State) : Prop :=
  if 8 ≤ s.entriesUsed (s.coreOf s.me) then d ≠ .zero ∧ u = s.answered s.cur d 1
  else u = (s.enterSeq s.cur e chain).answered s.cur d 0

/-- The values of LAYOUT's five sources lie in the fields of a layout word (R288). -/
def LayoutFits (w : Weft) (o : LayoutArgs) : Prop :=
  (0 ≤ w.int 64 false o.off 0 ∧ w.int 64 false o.off 0 < 2 ^ 20) ∧ (0 ≤ w.int 64 false o.bolt 0 ∧ w.int 64 false o.bolt 0 < 256) ∧
  ∀ a ∈ [o.st0, o.st1, o.st2], -2 ^ 31 ≤ w.int 64 false a 0 ∧ w.int 64 false a 0 < 2 ^ 31

/-- The three cells of a layout word. -/
def layoutCells (w : Weft) (o : LayoutArgs) : Cell × Cell × Cell :=
  (mkCell ((w.int 64 false o.off 0).toNat + (w.int 64 false o.bolt 0).toNat * 2 ^ 20) tagI64,
   mkCell (wrapNat 32 (w.int 64 false o.st0 0) + wrapNat 32 (w.int 64 false o.st1 0) * 2 ^ 32) tagI64,
   mkCell (wrapNat 32 (w.int 64 false o.st2 0) + o.perm.val * 2 ^ 32 + o.esz.val * 2 ^ 36) tagI64)

/-- The tile and the scale bytes of an MLOAD lie within a scratchpad of `len` bytes. -/
def TileFits (x : Dword × Dword × Dword) (f : MFmt) (sc : Option Int) (len : Int) : Prop :=
  (∀ e ∈ layAll x f, 0 ≤ e ∧ e + f.elemBytes ≤ len) ∧ ∀ q, sc = some q → 0 ≤ q ∧ q + 512 ≤ len

/-- R284, R287 to R289, R294, R295: claiming and releasing slots, making a layout word, loading a tile, and giving scale and
sparsity layouts complete wherever their operands are in range and the slots are the weft's own. -/
def Obligations.MatrixOperandInstructionsComplete : Prop :=
  (∀ o : MclaimArgs, Effects Commands (.mclaim o) (matForm (.plain o.g [opS 1 [.s] tInt o.a, opD [.s, .z] o.d])) 8 (fun s w _ u =>
    let busy := (w.slotMask o.a).filter (fun i => (s.slotAt (s.coreOf w) i).owner.isSome)
    u = if busy.isEmpty then (s.claimSlots s.cur (w.slotMask o.a)).answered s.cur o.d 0 else s.answered s.cur o.d (slotBits busy))) ∧
  (∀ o : MrelArgs, Effects Commands (.mrel o) (matForm (.plain o.g [opS 1 [.s] tInt o.a])) 8 (fun s w _ u =>
    (∀ i ∈ w.slotMask o.a, s.ownsSlot s.cur i = true) ∧
    u = (w.slotMask o.a).foldl (fun (s : State) i => s.releaseSlot (s.coreOf w) i) s)) ∧
  (∀ o : LayoutArgs, Effects Executes (.layout o) (.plain o.g [opS 1 [.s, .z] tInt o.off, opS 2 [.s, .z] tInt o.bolt,
      opS 3 [.s, .z] tInt o.st0, opS 5 [.s, .z] tInt o.st1, opS 6 [.s, .z] tInt o.st2, { opD [.s] o.d with cnt := 3 }]) 16 (fun s w _ u =>
    LayoutFits w o ∧
    u = s.setWeft s.cur (((w.put o.d 0 (layoutCells w o).1).put (regPlus o.d 1) 0 (layoutCells w o).2.1).put (regPlus o.d 2) 0
      (layoutCells w o).2.2))) ∧
  (∀ o : MloadArgs, Effects Multiplies (.mload o)
    (matForm (.plain o.g (layoutOps o.layout ++ (match o.sc with | some a => [opS 2 [.s, .z] tInt a] | none => [])))) 16 (fun s w _ u =>
    ∃ f b, (if tagValid o.tag then MFmt.ofTag o.tag else none) = some f ∧ layEsz (w.layoutWord o.layout) = f.esz ∧
      s.ownsSlot s.cur o.slot.toNat = true ∧ s.boltIn (s.boltOf w).course (layBolt (w.layoutWord o.layout)) = some b ∧
      TileFits (w.layoutWord o.layout) f (o.sc.map (fun a => w.int 64 false a 0)) (s.bolt b).scratch ∧
      u = s.issueMload s.cur o.slot.toNat (w.layoutWord o.layout) o.tag ((o.sc.map (fun a => w.int 64 false a 0)).map Int.toNat))) ∧
  (∀ o : MscaleArgs, Effects Commands (.mscale o)
    (matForm (.plain o.g [opS 1 [.s, .z] tInt o.a, opS 2 [.s, .z] tInt o.b, opS 3 [.s, .z] tInt o.c, opS 5 [.s, .z] tInt o.xa])) 16
    (fun s w _ u => ∃ l : ScaleLayout, l = ⟨w.int 64 false o.a 0, w.int 64 false o.b 0, w.int 64 false o.c 0, w.int 64 false o.xa 0⟩ ∧
      u = s.setWeft s.cur { w with scale := some l })) ∧
  (∀ o : MsparseArgs, Effects Commands (.msparse o) (matForm (.plain o.g [opS 2 [.s, .z] tInt o.a, opS 3 [.s, .z] tInt o.b])) 16
    (fun s w _ u => s.ownsSlot s.cur o.slot.toNat = true ∧
      ∃ l, l = (if o.pat = .off then none else some (⟨o.pat = .s48, o.slot.toNat, w.int 64 false o.a 0, w.int 64 false o.b 0⟩ : SparseLayout)) ∧
        u = s.setWeft s.cur { w with sparse := l }))

/-- R297, R298: a multiply extends its weft's chain or enters the sequencer, a loop enters it, and a fence, a commit and a
wait on a completed batch complete. -/
def Obligations.MatrixWorkInstructionsComplete : Prop :=
  (∀ o : MmaArgs, Effects Multiplies (.mma o) (matForm (recForm o.g o.br [opS 2 [.s, .z] tInt o.off, opD [.s, .z] o.d])) 16 (fun s w sel u =>
    s.matFault s.cur w (s.mmaIssue s.cur o w) sel = none ∧
    match s.sameChain s.cur (s.mmaIssue s.cur o w).e with
    | some (id, _) => u = (s.extendChain s.cur id (mmaStep o w)).answered s.cur o.d 0
    | none => Entered s o.d (s.mmaIssue s.cur o w).e true u)) ∧
  (∀ o : MloopArgs, Effects Multiplies (.mloop o)
    (matForm (recForm o.g o.br [opS 2 [.s, .z] tInt o.off, opS 3 [.s] tInt o.loop, opS 5 [.s, .z] tInt o.bar, opD [.s, .z] o.d])) 16
    (fun s w sel u => s.matFault s.cur w (s.mloopIssue s.cur o w) sel = none ∧ Entered s o.d (s.mloopIssue s.cur o w).e false u)) ∧
  (∀ o : MfenceArgs, Effects Commands (.mfence o) (matForm (.plain o.g [opD [.s, .z] o.d])) 8 (fun s _ _ u =>
    u = (s.closeBatch s.cur).2.answered s.cur o.d (s.closeBatch s.cur).1)) ∧
  (∀ o : PlainArgs, Effects Commands (.mcommit o) (matForm (.plain o.g [])) 8 (fun s _ _ u => u = s.closeChain s.cur)) ∧
  (∀ o : MwaitArgs, Effects Multiplies (.mwait o) (matForm (.plain o.g (opSI 1 [.s, .z] tInt o.n ++ [opD [.s, .z] o.d]))) (lenI o.n)
    (fun s w _ u =>
      ∃ n s1, n = w.batchNum o.n ∧
        (w.nextBatch + 2 ^ 32 - n) % 2 ^ 32 < 2 ^ 31 ∧ s1 = (if (w.nextBatch + 2 ^ 32 - n) % 2 ^ 32 = 0 then (s.closeBatch s.cur).2 else s) ∧
        (s1.weft s.cur).batchesDone n = true ∧
        u = (s1.acquire (s1.coreOf w) .span).answered s.cur o.d (((s1.acquire (s1.coreOf w) .span).weft s.cur).batchStatus n)))

/-! ## Work feeds, lines and mailboxes -/

/-- The line an instruction names is aligned and mapped, and no other context's line is bound to it (R413, R415). -/
def OwnLine (s : State) (w : Weft) (va : Nat) (k : XKind) (sel : Mask) (u : State) (pa : Nat) : Prop :=
  va % 64 = 0 ∧ s.place1 w va k sel = (u, .inl pa) ∧ ∀ asid m, u.mailboxAt pa = some (asid, m) → asid = u.asidOf w

/-- R415 to R420: popping and pushing work, notifying a line and binding a mailbox complete. -/
def Obligations.WorkInstructionsComplete : Prop :=
  (∀ o : PopwArgs, Effects Accesses (.popw o) (.plain o.g [eight (opD [.s] o.d)]) 8 (fun s w sel u =>
    (s.feed o.q.toNat).asid = s.asidOf w ∧ (s.feed o.q.toNat).cap ≠ 0 ∧
    u = s.issuePop s.cur sel o.d (scalarNum o.d) o.q.toNat)) ∧
  (∀ o : PushwArgs, Effects Accesses (.pushw o) (.plain o.g [eight (opS 2 [.s] none o.a), opD [.s, .z] o.d]) 8 (fun s w sel u =>
    (s.feed o.q.toNat).asid = s.asidOf w ∧ (s.feed o.q.toNat).cap ≠ 0 ∧
    ∃ s1, Released s.cur s sel (some .span) s1 ∧
      u = (s1.feedAppend o.q.toNat (w.eightBytes o.a.reg)).1.answered s.cur o.d (s1.feedAppend o.q.toNat (w.eightBytes o.a.reg)).2)) ∧
  (∀ o : NotifyArgs, Effects Accesses (.notify o) (.plain o.g [opS 1 [.s] tInt o.l, eight (opS 2 [.s] none o.a)]) 8 (fun s w sel u =>
    ∃ s1 pa s2, OwnLine s w (w.lineAddr o.l) .write sel s1 pa ∧ Released s.cur s1 sel (some .span) s2 ∧
      u = (s2.homeWrite pa (w.eightBytes o.a.reg)).dropLine (s2.coreOf w) (pa / 64))) ∧
  (∀ o : MbindArgs, Effects Accesses (.mbind o) (.plain o.g [opS 1 [.s] tInt o.l, opS 2 [.s, .z] tInt o.k, opD [.s, .z] o.d]) 8
    (fun s w sel u =>
      if o.k.reg = .zero then
        u = (s.unbindLine (s.asidOf w) (w.lineAddr o.l)).1.answered s.cur o.d (s.unbindLine (s.asidOf w) (w.lineAddr o.l)).2
      else ∃ s1 pa, OwnLine s w (w.lineAddr o.l) .read sel s1 pa ∧
        if s1.reservedUsed (s1.coreOf w) then u = s1.answered s.cur o.d 1
        else if (s1.mailboxAt pa).isSome then u = s1.answered s.cur o.d 2
        else w.lineAddr o.k % 64 = 0 ∧ ∃ s2 l s3 r, s1.weftRead s.cur w sel 3 (w.lineAddr o.k) 64 [] = .ok s2 l ∧
          s2.weftRead s.cur w sel 3 (recTab l).1 (40 * (recTab l).2) [] = .ok s3 r ∧
          ∃ recs s4 st, recs = (List.range (recTab l).2).map (fun i => BufRec.ofBytes (r.drop (40 * i))) ∧
            s3.bindLine s.cur w (w.lineAddr o.l) pa { Kernel.ofBytes (w.lineAddr o.k) l with recs := recs }
              (descrOk l && recs.all BufRec.ok) = (s4, st) ∧ u = s4.answered s.cur o.d st))

/-! ## The fabric -/

/-- The route of an instruction's record may be used (R471). -/
def Routed (s : State) (w : Weft) (br : BitVec 8) (u : State) (r : Rec) (e : RtEnt) : Prop :=
  r = (s.recordOf w br).fields ∧ (s.recordOf w br).ok = true ∧ r.rv = true ∧ s.route r.ridx = (u, e) ∧
  e.usable (u.asidOf w) r = true ∧ e.broken = false

/-- The egress can count a request of the path (R480). -/
def PathReady (s : State) (asid : Nat) (r : Rec) (e : RtEnt) : Prop := e.gw = true ∨ s.pathRoom asid r.ridx = true

/-- R470 to R476: each fabric instruction completes and sends its requests wherever its record, its route and its elements
find no fault, its release has been made, and its path can be counted. -/
def Obligations.FabricInstructionsComplete : Prop :=
  (∀ o : XldArgs, Effects Accesses (.xld o) (recForm o.g o.br [opS 2 cOff tInt o.off, opD [.v] o.d]) 16 (fun s w sel u =>
    ∃ s1 r e p locs, Routed s w o.br s1 r e ∧ loadPair r.enc o.fmt = some p ∧
      r.crossing (fun _ => o.fmt) (w.offset o.off o.add.toInt) (lanesWho false sel) = 0 ∧
      remotePlaces w r (r.usesScale p o.fmt) (r.elems (fun _ => o.fmt) (w.offset o.off o.add.toInt) (lanesWho false sel)) [] = .inl locs ∧
      u = s1.issueXld s.cur w sel o r e (if r.usesScale p o.fmt then r.smode else 0) locs)) ∧
  (∀ o : XstArgs, Effects Accesses (.xst o) (recForm o.g o.br [opS 2 cOff tInt o.off, opS 3 [.v] none o.data]) 16 (fun s w sel u =>
    ∃ items, items = (lanesWho false sel).map (fun p => ({ thr := p.1, who := p.2, c := w.cell o.data.reg p.1 } : SItem)) ∧
    ∃ s1 r e locs s2, Routed s w o.br s1 r e ∧ storeFault w r items = none ∧
      r.crossing (fun t => fmtOf (w.cell o.data.reg t).tag) (w.offset o.off o.add.toInt) (lanesWho false sel) = 0 ∧
      remotePlaces w r (r.smode ≠ 0) (r.elems (fun t => fmtOf (w.cell o.data.reg t).tag) (w.offset o.off o.add.toInt)
        (lanesWho false sel)) [] = .inl locs ∧
      Released s.cur s1 sel (if o.rel then some .domain else none) s2 ∧ PathReady s2 (s2.asidOf w) r e ∧
      u = s2.issueXst s.cur w r e o.rel
        (remoteBytes r (w.mode o.r) o.sat sel (presentElems r (w.offset o.off o.add.toInt) items locs)).1
        (remoteBytes r (w.mode o.r) o.sat sel (presentElems r (w.offset o.off o.add.toInt) items locs)).2)) ∧
  (∀ o : XatomArgs, Effects Accesses (.xatom o) (recForm o.g o.br [opS 2 cOff tInt o.off, atomOpnd o.op o.c, opD cDst o.d]) 16
    (fun s w sel u =>
      ∃ s1 r e locs s2, Routed s w o.br s1 r e ∧ w.casBad o.c o.op sel = 0 ∧
        (∀ t ∈ threads sel, atomEnc r (atomBytes (w.atomCell o.c t o.op).tag) = true) ∧
        (∀ t ∈ threads sel, e.lacksAtom o.op (atomBytes (w.atomCell o.c t o.op).tag) = false) ∧
        remotePlaces w r false (r.elems (fun _ => 0) (w.offset o.off o.add.toInt) (lanesWho false sel)) [] = .inl locs ∧
        Released s.cur s1 sel (if Sem.releases o.sem then some .domain else none) s2 ∧ PathReady s2 (s2.asidOf w) r e ∧
        u = s2.issueXatom s.cur w sel o r e locs)) ∧
  (∀ o : XsigArgs, Effects Accesses (.xsig o) (recForm o.g o.br (opS 2 [.s, .z] tInt o.tw :: opSI 3 [.s, .z] tInt o.cnt)) (lenI o.cnt)
    (fun s w _ u =>
      ∃ s1 r e, Routed s w o.br s1 r e ∧ e.gw = false ∧ wrapNat 64 (w.int 64 false o.tw 0) / 2 ^ 60 = 0 ∧
        wrapNat 64 (w.int 64 false o.tw 0) % 2 ^ 20 % 32 = 0 ∧ (w.intB 64 true o.cnt 0).toNat < 2 ^ 40 ∧ PathReady s1 (s1.asidOf w) r e ∧
        u = s1.sendRequest (s1.asidOf w) r.ridx e
          ⟨s.cur, none, 0, tSIGNAL, true, wrapNat 64 (w.int 64 false o.tw 0), 8, natLe 8 (w.intB 64 true o.cnt 0).toNat⟩)) ∧
  (∀ o : XfenceArgs, Effects Executes (.xfence o) (.plain o.g []) 8 (fun s _ sel u =>
    ∃ s1, Released s.cur s sel (if Sem.releases o.sem then some .domain else none) s1 ∧
      (Sem.releases o.sem = true → (s1.weft s.cur).owesRemote = false) ∧
      (if Sem.acquires o.sem then (s1.weft s.cur).owesAny sel = false ∧ u = s1.acquire (s1.coreOf (s1.weft s.cur)) .domain else u = s1)))

/-! ## System instructions -/

/-- R65, R67, R172 to R174, R484: reading and writing system registers, the identity registers, the clock, the canonical point
and HALT complete; a write that the register does not take is illegal. What a core's clock has advanced by between two reads
is free (log entry 8). -/
def Obligations.SystemInstructionsComplete : Prop :=
  (∀ o : GetsrArgs, Effects Executes (.getsr o) (.plain o.g [opD [.v, .s] o.d]) 12 (fun s w sel u =>
    (o.num = 1 → w.owesFlags = false) ∧
    u = s.setWeft s.cur (w.sysPut o.d sel (mkCell (s.sysReg w o.num.toNat).toNat (if isIdReg o.num.toNat then tagI32 else tagI64))))) ∧
  (∀ o : SetsrArgs, Effects Executes (.setsr o) (.plain o.g [opS 1 [.s, .z] (some [0, 1, 2]) o.a]) 12 (fun s w _ u =>
    ∃ x : Dword, x = (if fmtOf (w.cell o.a.reg 0).tag = 2 then BitVec.ofNat 64 ((w.cell o.a.reg 0).val.toNat % 2 ^ 32)
        else (w.cell o.a.reg 0).val) ∧ setsrOk o.num.toNat x = true ∧ u = s.setWeft s.cur (w.setSys o.num.toNat x))) ∧
  (∀ o : SetsrArgs, Faults Executes (.setsr o) (.plain o.g [opS 1 [.s, .z] (some [0, 1, 2]) o.a]) (fun s w sel u t =>
    setsrOk o.num.toNat (if fmtOf (w.cell o.a.reg 0).tag = 2 then BitVec.ofNat 64 ((w.cell o.a.reg 0).val.toNat % 2 ^ 32)
        else (w.cell o.a.reg 0).val) = false ∧ u = s ∧ t = w.fault cIllegal (mask := sel))) ∧
  (∀ o : GetidArgs, Effects Executes (.getid o) (.plain o.g [opD [.v, .s] o.d]) 8 (fun s w sel u =>
    u = s.setWeft s.cur (w.sysPut o.d sel (mkCell (s.idReg w o.id.toNat) tagI32)))) ∧
  (∀ o : ClockArgs, Effects Executes (.clock o) (.plain o.g [opD [.v, .s] o.d]) 8 (fun s w sel u =>
    u = (s.tick (s.coreOf w)).setWeft s.cur (w.sysPut o.d sel
      (mkCell ((s.tick (s.coreOf w)).core ((s.tick (s.coreOf w)).coreOf w)).cc tagI64)))) ∧
  (∀ o : PlainArgs, Effects Executes (.canon o) (.plain o.g []) 8 (fun s w _ u => w.settled = true ∧ u = s)) ∧
  (∀ o : HaltArgs, Moves (.halt o) (.plain o.g [opS 1 [.s, .z] none o.a]) 8 (fun s w _ u => s.owesAccess w = false ∧
    u = (s.endSpan (s.courseOf w).span (.halted ((w.cell o.a.reg 0).val.truncate 32))).withdraw (s.asidOf w)))

/-! ## Trap records, landings and the heddle -/

/-- R94, R159, R182, R375: a parked weft's record goes to the ring as the next event, with an interrupt of the
active supervisor hart, once its earlier accesses are performed,
or over the peer's route once its markers are answered; taking a record frees its slot; a weft with no thread left ends
once everything it issued has been accepted. -/
def Obligations.TrapRecordStepsComplete : Prop :=
  (∀ s w r, (s.weft w).trec = some r → ((s.weft w).status = .parked ∨ (s.weft w).status = .swapped) → r.published = false → s.performed w = true →
    s.displaced (s.courseOf (s.weft w)) = false → r.route ≠ .mailbox → s.trapRing.length < trapRingSlots →
    ∃ t, exec (.trapRecordPublish w) s = .next t ∧
      t.trapRing = s.trapRing ++ [s.trapBytes (s.weft w) r s.nextSeq] ∧ (t.hart t.sup.active).irqTrap = true ∧
      t.events = s.events ++ [⟨s.nextSeq, 1, 0, s.asidOf (s.weft w)⟩] ∧
      (t.weft w).trec = some { r with published := true, seq := s.nextSeq } ∧
      (∀ g, g ≠ w → t.weft g = s.weft g) ∧ t.mem = s.mem) ∧
  (∀ s w r, (s.weft w).trec = some r → ((s.weft w).status = .parked ∨ (s.weft w).status = .swapped) → r.published = false → s.performed w = true →
    s.displaced (s.courseOf (s.weft w)) = false → r.route = .mailbox →
    ((s.weft w).relTags = none → exec (.trapRecordPublish w) s = .next ((s.markAll (s.asidOf (s.weft w))).1.mapWeft w (fun v =>
      { v with relTags := some (s.markAll (s.asidOf (s.weft w))).2 }))) ∧
    (∀ tags, (s.weft w).relTags = some tags → s.unanswered tags = false → s.gwBusy (s.asidOf (s.weft w)) = false →
      exec (.trapRecordPublish w) s = .next (s.publishMailbox w r))) ∧
  (∀ s l rest, s.trapRing = l :: rest → ∃ t, exec .trapRingSlotFree s = .next t ∧ t.trapRing = rest ∧ t.mem = s.mem ∧
    ∀ h, (t.weft h).vr = (s.weft h).vr ∧ (t.weft h).sr = (s.weft h).sr ∧ (t.weft h).pc = (s.weft h).pc) ∧
  (∀ s w, (Store.find s.wefts w).isSome = true → (s.weft w).alive = 0 → (s.weft w).status ≠ .ended →
    (∀ r, (s.weft w).trec = some r → r.published = true) → s.unaccepted w = false →
    exec (.weftEnd w) s = .next (s.weftOver w).wake)

/-- R93, R109, R110, R170, R171, R206, R308, R309: data lands in the threads named, wherever no earlier access of the weft
stands before it; threads whose reads an abort answered die; a decode's elements and cursor land together; a poll is made;
and a buffered write is performed at its home and acknowledged. -/
def Obligations.LandingStepsComplete : Prop :=
  (∀ s w fid mask f, (s.weft w).flight fid = some f → s.canLand w f mask = true →
    exec (.loadDataLands w fid mask) s = .next (s.eachFlight w fid (fun s f => s.landFlight w f mask)).wake) ∧
  (∀ s w fid f, (s.weft w).flight fid = some f → (s.weft w).abortedOf f ≠ 0 → isScalar f.dest = false →
    exec (.abortCompletion w fid) s = .next ((s.eachFlight w fid (fun s f => s.mapWeft w (fun x => x.abortTaken f))).kill w
      ((s.weft w).abortedOf f)).wake) ∧
  (∀ s w fid f, (s.weft w).flight fid = some f → (s.weft w).abortedOf f ≠ 0 → isScalar f.dest = true →
    exec (.abortCompletion w fid) s = .next (s.eachFlight w fid (fun s f => s.mapWeft w (fun x => x.abortTaken f))).wake) ∧
  (∀ s w fid f, (s.weft w).flight fid = some f → f.isDecode = true → f.mask ≠ 0 →
    exec (.decodeLands w fid) s = .next (s.eachFlight w fid (fun s f => s.mapWeft w (fun x => x.decodeLanded f))).wake) ∧
  (∀ s w fid f, (s.weft w).flight fid = some f → exec (.waitvPoll w fid) s = .next (s.pollFlight w f).wake) ∧
  (∀ s core idx e, (s.core core).wbuf[idx]? = some e → s.canPerform (s.core core) idx e = true →
    ∃ s1 s2, s1 = s.setCore core { s.core core with wbuf := (s.core core).wbuf.eraseIdx idx } ∧
      s2 = s1.homeWrite e.pa e.data ∧
      exec (.homeSliceAccess core idx) s = .next ((s2.setCore core ((s2.core core).ackStore e)).wake))

/-- R253 to R263: an active weft that still waits leaves its slot for the pending set; a rotation, a lease window, a switch, a
bank swap, the end of a spill, a slow switch, a bolt's return and a rebuild happen when they may. -/
def Obligations.HeddleStepsComplete : Prop :=
  (∀ s w x, (s.weft w).status = .active → (s.weft w).wait = some x → s.waitClear (s.weft w) = false →
    exec (.heddlePendingTimeout w) s =
      .next ((s.setWeft w { s.weft w with status := .pending, slot := none }).admitWefts (s.coreOf (s.weft w)))) ∧
  (∀ s core, (s.core core).stopping = false → s.admitQueue core ≠ [] → exec (.heddleRotation core) s = .next (s.rotate core)) ∧
  (∀ s w, (s.weft w).status ≠ .ended → leaseWindow ≤ (s.weft w).issued →
    ∃ t, exec (.leaseWindow w (s.weft w).misses) s = .next t ∧ { t.weft w with measured := 0, lowWindows := 0, issued := 0, misses := 0 } =
        { s.weft w with measured := 0, lowWindows := 0, issued := 0, misses := 0 } ∧
      (t.weft w).issued = (s.weft w).issued - leaseWindow ∧ (t.weft w).misses = 0 ∧
      ((s.weft w).leaseDecl ≠ 0 → (t.weft w).measured = (s.weft w).measured ∧ (t.weft w).lowWindows = (s.weft w).lowWindows) ∧
      ((s.weft w).leaseDecl = 0 → 8 ≤ (s.weft w).misses →
        (t.weft w).measured = min ((s.weft w).measured + 16384) 1048576 ∧ (t.weft w).lowWindows = 0) ∧
      ((s.weft w).leaseDecl = 0 → (s.weft w).misses < 8 → 1 < (s.weft w).misses →
        (t.weft w).measured = (s.weft w).measured ∧ (t.weft w).lowWindows = 0) ∧
      ((s.weft w).leaseDecl = 0 → (s.weft w).misses ≤ 1 → (s.weft w).lowWindows = 3 →
        (t.weft w).measured = max ((s.weft w).measured - 16384) 16384 ∧ (t.weft w).lowWindows = 0) ∧
      ((s.weft w).leaseDecl = 0 → (s.weft w).misses ≤ 1 → (s.weft w).lowWindows ≠ 3 →
        (t.weft w).measured = (s.weft w).measured ∧ (t.weft w).lowWindows = (s.weft w).lowWindows + 1)) ∧
  (∀ s core span, (s.core core).switch = .none → (s.core core).stopping = false → s.incoming core span ≠ [] →
    s.canPreload core span = true →
    exec (.fastSwitch core span) s = .next (s.setCore core { ((s.core core).rollbackAll (fun _ => true)) with
      switch := .requested span, shadow := some span, stopping := true })) ∧
  (∀ s core inn s1 s2, (s.core core).switch = .requested inn →
    s1 = (s.outgoing core inn).foldl (fun (s : State) p => s.boltOff p.1) s →
    (s.incoming core inn).all (fun p => s1.boltCanReturn p.1) = true →
    s2 = (s.incoming core inn).foldl (fun (s : State) p => s.boltOn p.1)
      (s1.setCore core { s1.core core with switch := .spilling (s.leaving core inn), shadow := some (s.leaving core inn),
                                           stopping := false, victims := [] }) →
    exec (.bankSwap core) s = .next ((s2.setSpan inn { s2.span inn with switched := none }).admitWefts core)) ∧
  (∀ s core out, (s.core core).switch = .spilling out →
    exec (.spillComplete core) s = .next (s.setCore core { s.core core with switch := .none, shadow := none })) ∧
  (∀ s out inn s1, s1 = (if out = inn then s else s.spanOff out) → s.spanIsOff inn = true → s.switchFree out = true →
    s.switchFree inn = true → s1.spanCanReturn inn = true →
    exec (.slowSwitch out inn) s = .next ((s1.spanOn inn).setSpan inn { (s1.spanOn inn).span inn with switched := none })) ∧
  (∀ s b, (s.bolt b).swapped = true → s.faultsReported b = true →
    ∃ s1 hs s2, s1 = s.setBolt b { s.bolt b with swapped := false } ∧ hs = sortBy (fun h => (s1.weft h).id) (s1.weftsOf b) ∧
      s2 = hs.foldl (fun (s : State) h => s.refetch h) s1 ∧
      exec (.boltReload b) s = .next (if (s.bolt b).out then s2
        else (hs.foldl (fun (s : State) h => if (s.weft h).status = .swapped then s.ready h else s) s2).admitWefts (s.bolt b).core)) ∧
  (∀ s cluster, ∃ cores s0 s1, cores = s.clusterCores cluster ∧
    s0 = cores.foldl (fun (s : State) n => s.setCore n { s.core n with victims := [] }) s ∧
    s1 = cores.foldl (fun (s : State) n => (s.queued n).foldl (fun (s : State) h => s.ready h) s) s0 ∧
    exec (.heddleRebuild cluster) s = .next (cores.foldl (fun (s : State) n => s.admitWefts n) (s1.event 5 1 cluster)))

/-! ## Copies and the array -/

/-- R267, R272 to R277: a copy starts to walk once it has its slices and its participants' earlier accesses are performed; an
element is read, written and counted; the copy ends at a failure, and is done after its last element. -/
def Obligations.CopyStepsComplete : Prop :=
  (∀ s b h c, Store.find (s.bolt b).copies h = some c → c.st = .ready →
    (∀ p ∈ c.contrib, s.performedBefore p.1 p.2 = true) → (s.dstSide b c).isShadow = false →
    exec (.copyStart b h) s = .next (s.startCopy b h c).wake) ∧
  (∀ s b h c r, Store.find (s.bolt b).copies h = some c → c.st = .ready →
    (∀ p ∈ c.contrib, s.performedBefore p.1 p.2 = true) → s.dstSide b c = .glob r →
    s.shadowTaken (s.span (s.course (s.bolt b).course).span).asid r.base = false →
    exec (.copyStart b h) s = .next (s.startCopy b h c).wake) ∧
  (∀ s b h c frames, Store.find (s.bolt b).copies h = some c → c.st = .running → c.held = none →
    (c.refused = true → exec (.copyElementLand b h frames) s = .next (s.failCopy b h 5).wake) ∧
    (∀ code, c.refused = false → s.copyBarCode b c = some code →
      exec (.copyElementLand b h frames) s = .next ((s.adoptSaved b h c.saved frames).1.failCopy b h code).wake) ∧
    (∀ s1 more, c.refused = false → s.copyBarCode b c = none → s.adoptSaved b h c.saved frames = (s1, true, more) →
      c.pos c.next = none → exec (.copyElementLand b h frames) s = .next (s1.finishIfDone b h).wake) ∧
    (∀ s1 more p s2 l s3, c.refused = false → s.copyBarCode b c = none → s.adoptSaved b h c.saved frames = (s1, true, more) →
      c.pos c.next = some p → s1.elementBytes b h c p = .ok s2 l → s2.copyWrite b h c (c.dstAt p) l more = .ok s3 () →
      exec (.copyElementLand b h frames) s = .next (s3.landElement b h c p).wake))

/-- R289 to R291, R298, R313 to R316: a tile is loaded whole into its slot; the array runs the next step of the oldest entry
whose step is ready, and commits what is due; a contribution reaches its slice; a closed batch with nothing left is
complete. -/
def Obligations.ArrayStepsComplete : Prop :=
  (∀ s core id e k x tag sc f b, s.seqEntry core id = some e → e.kind = .mload k x tag sc → MFmt.ofTag tag = some f →
    s.boltIn (s.boltOf (s.weft e.weft)).course (layBolt x) = some b → s.itemRuns e = true → (s.slotAt core k).pins = 0 →
    s.slotBusyBefore e.weft id k = false → s.performedBefore e.weft id = true →
    (∀ l s1, s.tileBytes b x f sc = .inl l → s1 = s.spaceSplits (.sp b) (tileRanges x f sc) → s1.ownsSlot e.weft k = true →
      exec (.mloadComplete core id) s =
        .next ((s1.setCore core { s1.core core with slots := Store.modify (s1.core core).slots k (fun y => y.loaded tag f l) }).removeItem
          core id).wake) ∧
    (∀ cause a, s.tileBytes b x f sc = .inr (cause, a) →
      exec (.mloadComplete core id) s = .next ((s.arrayAbort e.weft cause a).failBatch e.weft e.batch cause e.place 0).wake)) ∧
  (∀ s core id e, s.seqEntry core id = some e → s.commitReady id e = true →
    exec (.matrixStep core id) s = .next (s.commitEntry core id e).wake) ∧
  (∀ s core id e x s1, s.seqEntry core id = some e → s.commitReady id e = false → e.step id e.next = some x →
    s.stepReady id e = true →
    (∀ p ∈ (s.core core).seqr, p.1 < id → p.2.kind.isEntry = true → s.stepReady p.1 p.2 = false) → s1 = s.runStep core id e x →
    (∀ f, s1.seqEntry core id = some f →
      exec (.matrixStep core id) s = .next (if s1.commitReady id f then s1.commitEntry core id f else s1).wake) ∧
    (s1.seqEntry core id = none → exec (.matrixStep core id) s = .next s1.wake)) ∧
  (∀ s n c, s.contribs[n]? = some c → c.stalled = false → c.part < hbmSize →
    (∀ x ∈ s.contribs.take n, ¬(x.weft = c.weft ∧ x.part = c.part)) → s.accStalls c = false →
    ∃ s1, s1 = ({ s with contribs := s.contribs.eraseIdx n } : State).arriveContribution c ∧
      exec (.contributionArrival n) s = .next (s1.retryStalled s1.contribs.length).wake) ∧
  (∀ s n c, s.contribs[n]? = some c → c.stalled = false → c.part < hbmSize →
    (∀ x ∈ s.contribs.take n, ¬(x.weft = c.weft ∧ x.part = c.part)) → s.accStalls c = true →
    exec (.contributionArrival n) s = .next { s with contribs := s.contribs.set n { c with stalled := true } }) ∧
  (∀ s w n b, (s.weft w).batch n = some b → b.closed = true → b.left = 0 → b.complete = false →
    ∃ s1, s1 = s.mapWeft w (fun x => x.mapBatch n (fun b => { b with complete := true })) ∧
      exec (.batchComplete w n) s = .next (s1.mapWeft w (fun x => { x with batches := x.batches.filter (fun b =>
        !(b.complete && 16 < (x.nextBatch + 2 ^ 32 - b.num) % 2 ^ 32)) })).wake)

/-! ## Translation, code and page moves -/

/-- R352, R353, R355 to R360, R445: a walk that ends at a leaf which allows the access sets A and D there and fills the TLBs;
an entry written lets held walks be made again; an invalidation is refused, taken up, and complete once nothing that used a
matching translation is in flight; code is rewritten in code pages and its load recorded; a migrating page moves. -/
def Obligations.TranslationStepsComplete : Prop :=
  (∀ s core asid va kind u level a e, core < 2048 → s.walkNow asid va.toNat = (u, .leaf level a e) → e.testBit 55 = false →
    leafCheck e kind = none →
    exec (.pageWalkComplete core asid va kind) s =
      .next (((if usedLeaf e kind = e then u else { u with mem := Store.writeNat u.mem a 8 (usedLeaf e kind) }).cacheWalk asid
        va.toNat).tlbFill core asid va.toNat level (usedLeaf e kind))) ∧
  (∀ s core asid va kind u i, core < 2048 → s.walkNow asid va.toNat = (u, .bad i) →
    exec (.pageWalkComplete core asid va kind) s =
      .next (if i = 7 then u.lineEvent 6 asid (u.walkLast va.toNat 4 (entryAddr (u.ctx asid).trans.toNat) 3) else u)) ∧
  (∀ s pa entry, pa % 8 = 0 → pa + 8 ≤ hbmSize →
    exec (.heldWalkRetry pa entry) s =
      .next ((((s.homeWrite pa (natLe 8 entry.toNat)).landReady).wefts.map (·.1)).foldl (fun (s : State) h => s.retryHeld h)
        (s.homeWrite pa (natLe 8 entry.toNat)).landReady)) ∧
  (∀ s (c : InvCmd),
    (invRefused c = true → exec (.invalidate c) s = .next (s.hubPut c.done 2)) ∧
    (invRefused c = false → s.invals.length < 16 → exec (.invalidate c) s = .next { s with invals := s.invals ++
      [{ asid := c.asid.toNat, all := c.flags.getLsbD 0, vpn := c.vabase.toNat / granule, n := c.npages, done := c.done }] })) ∧
  (∀ s n i, s.invals[n]? = some i → s.invalDue i = true → ∃ t, exec (.invalidationComplete n) s = .next t ∧
    (∀ x ∈ t.tlb, i.hits x = false) ∧ (∀ x ∈ t.wcache, i.hitsWalk x = false) ∧ t.invals = s.invals.eraseIdx n ∧ t.mem = s.mem ∧
    (i.done % 8 = 0 → Store.get 0 t.hubRegs i.done = 0 ∧ t.events = s.events ++ [⟨s.nextSeq, 5, 2, i.done⟩])) ∧
  (∀ s (x : CodeIn) l pages ds s0 s1 n, n = x.text.length → applyRelocs x.textAt.toNat x.text x.relocs = some l →
    s.loadPages codeLeaf x.asid (n / granule + 2) x.textAt.toNat n = some pages → s.sections x.asid x.others = some ds →
    elfOk x.elf = true → (∀ r ∈ x.relocs, textReloc r.typ = true) → s.codeInUse x.asid x.textAt.toNat n = false →
    (∀ d ∈ x.others, s.codeInUse x.asid d.at_.toNat d.bytes.length = false) →
    s0 = ds.foldl (fun (s : State) d => s.writePlaces d.1 d.2) s → s1 = s0.writePlaces pages (x.hints.foldl applyHint l) →
    exec (.codeRewrite x) s = .next (s1.setCtx x.asid { s1.ctx x.asid with
      loads := (s1.ctx x.asid).loads.filter (fun y => y.base ≠ x.base) ++
        [⟨x.base, Config.sha3 x.elf, x.textAt.toNat + n - x.base.toNat⟩] })) ∧
  (∀ s (x : CodeIn), (applyRelocs x.textAt.toNat x.text x.relocs = none ∨ elfOk x.elf = false ∨ (∃ r ∈ x.relocs, textReloc r.typ = false)) →
    exec (.codeRewrite x) s = .next s) ∧
  (∀ s asid va new a e, s.walk asid va.toNat = .leaf 0 a e → e.testBit 55 = true → new < hbmSize / granule →
    new ≠ entryAddr e / granule →
    exec (.migrationCopy asid va new) s = .next ((((s.takePage (entryAddr e / granule) new).dropFrame new).moveAccumulators
      (entryAddr e / granule) new).moveMailboxes (entryAddr e / granule) new))

/-! ## Errors -/

/-- R361 to R368, R457: a scrub that meets an uncorrectable line or word is an error event; an event gets its number and its
record, and counts for its unit; link retries, access faults and lost lanes count; a lost stack answers with aborts from
then on. -/
def Obligations.ErrorStepsComplete : Prop :=
  (∀ s pa now s1, s1 = s.advanceTime now →
    (pa < hbmSize → exec (.patrolScrub pa now) s = .next (if s1.lineBad pa then s1.lineEvent 0 0 (pa / 64 * 64) else s1)) ∧
    (∀ x, hbmSize ≤ pa → s1.vaultWordAt pa = some x → exec (.patrolScrub pa now) s = .next (s1.errEvent 1 0 0 x)) ∧
    (hbmSize ≤ pa → s1.vaultWordAt pa = none → exec (.patrolScrub pa now) s =
      .next (if pa / 8 ∈ s1.aperBad then s1.errEvent 1 0 0 (.hub (pa / 8 * 8)) else s1))) ∧
  (∀ s (e : ErrIn) r u v, ((s.advanceTime e.now).errPending e = some r ∧
      u = { s.advanceTime e.now with errWait := (s.advanceTime e.now).errWait.erase r }) ∨
      ((s.advanceTime e.now).errPending e = none ∧ (s.advanceTime e.now).errNow e = (r, u)) →
    v = { u with errRing := u.errRing ++ [errRecord r] } →
    exec (.errorRecord e) s = .next (if r.kind ≤ 2 ∧ 1 ≤ r.cls ∧ r.cls ≤ 7 then v.countUnit r.cls r.die r.idx (v.atOnce r) else v)) ∧
  (∀ s link now, exec (.lateralLinkRetry link now) s =
    .next ((s.advanceTime now).countUnit 3 (link / 65536) (link % 65536) false)) ∧
  (∀ s hart res write now, hart < 16 → (s.advanceTime now).boot.locked = true → mayReach (hartMode hart) res write = false →
    exec (.hubAccessFault hart res write now) s = .next ((s.advanceTime now).accessFault hart write)) ∧
  (∀ s stack, stack < 16 → ∃ t, exec (.hbmStackLoss stack) s = .next t ∧ stack ∈ t.lostStacks ∧ t.degraded = true ∧ t.mem = s.mem) ∧
  (∀ s port lane now, port < 12 → lane < 8 →
    exec (.symbolLockLoss port lane now) s = .next ((s.advanceTime now).countLane port lane))

/-! ## Context commands and the watchdog -/

/-- The weft that a command names is parked, and its record is published (R375, R376). -/
structure Parked (s : State) (c : CtxCmd) (h : Nat) (w : Weft) (r : TrapRec) : Prop where
  named : (s.named c).head? = some (h, w)
  trapped : w.trec = some r
  parked : w.status = .parked ∨ w.status = .swapped
  published : r.published = true

/-- R373 to R377, R386, R495: each command takes effect on a weft that is parked, or on its context, and gives its result; the
watchdog parks every weft of a context that has made no progress in its window. -/
def Obligations.ContextCommandsComplete : Prop :=
  (∀ s c h w r, Parked s c h w r → exec (.resume c) s = .next ((s.unpark h r.t.pc).result c 1 0)) ∧
  (∀ s c h w r, Parked s c h w r → c.value.toNat < 2 ^ 57 →
    exec (.redirect c) s = .next ((s.unpark h (c.value.truncate 57)).result c 2 0)) ∧
  (∀ s c h w r d, Parked s c h w r → c.arg < 256 → w.cmdReg c.arg = some d → c.tag.toNat < 64 →
    tagValid (c.tag.truncate 6) = true → c.mask &&& ~~~w.bits = 0 →
    (∀ t ∈ cmdThreads d c.mask, w.fullAt d t = true) →
    exec (.setreg c) s =
      .next ((s.setWeft h (w.putAll d ((cmdThreads d c.mask).map (fun t => (t, ⟨c.value, c.tag.truncate 6, true⟩))))).result c 3 0)) ∧
  (∀ s c h w r d t l, Parked s c h w r → c.arg < 256 → w.cmdReg c.arg = some d → c.mask &&& ~~~w.bits = 0 →
    cmdThreads d c.mask = t :: l →
    exec (.getreg c) s = .next (s.result c 4 0 (w.cell d t).val (w.cell d t).tag (w.fullAt d t))) ∧
  (∀ s c, ((s.ctx c.asid).st = .live → exec (.kill c) s = .next ((s.killCtx c.asid).result c 5 0).wake) ∧
    ((s.ctx c.asid).st = .stopping ∨ (s.ctx c.asid).st = .killed → exec (.kill c) s = .next (s.result c 5 0)) ∧
    ((s.ctx c.asid).st = .free → exec (.kill c) s = .next (s.result c 5 4))) ∧
  (∀ s c x, c.asid < 4096 → (s.ctx c.asid).cmdSet c.arg c.value s.ltime = some x →
    exec (.ctxset c) s = .next (((s.setCtx c.asid x).journal (if c.arg = 2 then .delegChange c.asid else .ccbWrite c.asid)).result c 6 0)) ∧
  (∀ s c, c.weft = 0 → c.bolt = 0 → c.course = 0 → c.tag = 0 → c.mask = 0 → c.arg ≤ 1 →
    (s.copyHeldAs c.asid c.value.toNat = true ∨ s.entryHeldAs c.asid c.value.toNat = true) →
    exec (.engreply c) s = .next (((s.noteExempt c.asid).answerHold c.value.toNat (c.arg = 1)).result c 7 0)) ∧
  (∀ s asid now, (s.advanceTime now).watchdogDue asid = true →
    exec (.watchdogFire asid now) s = .next (((s.advanceTime now).ctxWefts asid).foldl (fun (s : State) p =>
      s.takePend p.1 (p.2.fault cWatchdog (info := s.watchState p.1) (mask := p.2.live))) ((s.advanceTime now).event 6 0 asid)))

/-! ## The supervisor, boot and power -/

/-- R380 to R382, R422 to R426, R448 to R453: a reset keeps what survives one and boots; a report is signed over nonce, identity,
measurements and time; a minimum rises to the version that runs; a standby takes over; a journal entry is committed; power
steps and caps apply; an image is staged; a queue core takes the oldest event whose queue is free, and is restarted outside
its watchdog's window. -/
def Obligations.SupervisorStepsComplete : Prop :=
  (∀ s b, exec (.deviceReset b) s = .next (s.kept.bootStart b)) ∧
  (∀ s nonce r, nonce.length = 64 → s.monitorRuns = true →
    r = nonce ++ Config.serial ++ s.boot.meas.flatten ++ s.boot.svn.flatMap (natLe 4) ++
      Config.sha3 (Config.kemPublic s.boot.kemKey) ++ natLe 8 s.ltime →
    exec (.attestationReport nonce) s =
      .next { s with sup := { s.sup with attest := s.sup.attest ++ [r ++ Config.mldsaSign (Config.sha3 r)] } }) ∧
  (∀ s kind cmd sig, 1 ≤ kind → kind ≤ 4 → s.monitorRuns = true → fieldAt cmd 0 4 = kind → Config.mldsaVerify 1 cmd sig = true →
    ∃ t, exec (.svnMinimumRaise kind cmd sig) s = .next t ∧ { t with boot := s.boot } = s ∧
      { t.boot with svnMin := s.boot.svnMin } = s.boot ∧
      ∀ k, 1 ≤ k → k ≤ 4 → t.boot.svnMin.getD (k - 1) 0 =
        if k = kind then max (s.boot.svnMin.getD (k - 1) 0) (s.boot.svn.getD (k - 1) 0) else s.boot.svnMin.getD (k - 1) 0) ∧
  (∀ s, exec .supervisorTakeover s = .next s.takeOver) ∧
  (∀ s e, exec (.journalCommit e) s = .next (s.commit e)) ∧
  (∀ s watts temp now s1 p, s1 = s.advanceTime now → p = s1.power.next watts temp s1.ltime →
    (∀ h, p.hotSince = some h → s1.ltime - h < 1000000) → exec (.pstepEval watts temp now) s = .next { s1 with power := p }) ∧
  (∀ s watts temp now s1 h, s1 = s.advanceTime now → (s1.power.next watts temp s1.ltime).hotSince = some h →
    1000000 ≤ s1.ltime - h →
    exec (.pstepEval watts temp now) s = .next { s1.kept with power := { State.reset.power with pstep := 4, off := true } }) ∧
  (∀ s watts, ∃ t, exec (.powerCapCall watts) s = .next t ∧ { t with power := s.power } = s ∧
    { t.power with cap := 0, capSet := true } = { s.power with cap := 0, capSet := true } ∧ t.power.capSet = true ∧
    (watts ≤ 1800 → t.power.cap = 1800) ∧ (1800 ≤ watts → watts ≤ 3600 → t.power.cap = watts) ∧ (3600 ≤ watts → t.power.cap = 3600)) ∧
  (∀ s image, exec (.pldmFirmwareUpdate image) s = .next { s with boot := { s.boot with
    staged := s.boot.staged.filter (fun l => fieldAt l 4 4 ≠ fieldAt image 4 4) ++ [image] } }) ∧
  (∀ s hart s1 e, isQueueCore hart = true → (s.qcore hart).retired = false → s.booted = true →
    s1 = s.setQcore hart { s.qcore hart with held := none } →
    s1.evq.find? (fun e => !s1.queueLocked e.sub) = some e →
    exec (.eventDispatch hart) s = .next { s1.setQcore hart { s1.qcore hart with held := some e } with evq := s1.evq.erase e }) ∧
  (∀ s hart now s1 s2, isQueueCore hart = true → s1 = s.advanceTime now → (s1.qcore hart).retired = false → s1.booted = true →
    s2 = s1.giveBack hart →
    exec (.queueCoreWatchdog hart now) s =
      .next (if s1.ltime - (s1.qcore hart).kicked < 5000 ∨ 500000 < s1.ltime - (s1.qcore hart).kicked then
        (s2.setQcore hart { s2.qcore hart with kicked := s1.ltime, restarts := (s1.qcore hart).restarts + 1 }).countUnit 7 0 hart false
        else s1.setQcore hart { s1.qcore hart with kicked := s1.ltime }))

/-! ## Queues, feeds and packets -/

/-- R389, R390, R397, R399, R411, R412: a kick within the ring raises WIDX, and any other is dropped and counted; a queue is bound to
a free slot and unbound; a halted queue resumes; slots are fetched; a record moves from a feed's extension; a WAIT and a FEED
go on once they can, and a WAIT halts after its timeout. -/
def Obligations.QueueStepsComplete : Prop :=
  (∀ s qid value now, qid < 4096 → (s.advanceTime now).booted = true →
    (((s.advanceTime now).queue qid).keyed = true → exec (.doorbellKick qid value now) s = .next ((s.advanceTime now).dropKick qid)) ∧
    (((s.advanceTime now).queue qid).keyed = false →
      exec (.doorbellKick qid value now) s = .next ((s.advanceTime now).kick qid value.toNat))) ∧
  (∀ s qid slot, qid < 4096 → slot < 64 → (s.queue qid).bound = false → (s.queue qid).setUp = true → s.slotFree slot = true →
    ∃ t, exec (.queueBind qid slot) s = .next t ∧ t.queue qid = { s.queue qid with hwslot := slot, bound := true } ∧ qid ∉ t.kicks ∧
      t.mem = s.mem) ∧
  (∀ s qid, (s.queue qid).bound = true → (s.queue qid).quiet = true →
    ∃ t, exec (.queueBind qid 255) s = .next t ∧ t.queue qid = { s.queue qid with hwslot := 255, bound := false, fetched := [] } ∧
      t.mem = s.mem) ∧
  (∀ s qid, (s.queue qid).halted = true →
    exec (.queueResume qid) s = .next (s.setQueue qid { s.queue qid with halted := false, fetched := [], phase := .idle })) ∧
  (∀ s qid v u, v = (if (s.queue qid).bound then s.retryGoing qid (fun k => k = .writing) State.memGo else s) →
    ((v.queue qid).works = false → exec (.slotFetch qid) s = .next v) ∧
    ((v.queue qid).works = true → u = (v.refreshSlots qid (v.queue qid).ahead).fetchNext qid →
    ((u.queue qid).current = none → exec (.slotFetch qid) s = .next u) ∧
    (∀ d, (u.queue qid).current = some d → (u.queue qid).halted = false → (u.queue qid).phase = .idle →
      ((u.queue qid).skip ≠ 0 →
        exec (.slotFetch qid) s = .next (u.setQueue qid ({ u.queue qid with skip := (u.queue qid).skip - 1 }).next)) ∧
      ((u.queue qid).skip = 0 → 3 ≤ tOrd d → exec (.slotFetch qid) s = .next (u.halt qid 1 (if tType d = 1 then dispatchCompl d else 0))) ∧
      ((u.queue qid).skip = 0 → tOrd d < 3 → 0x0E ≤ tType d → (u.queue qid).canStart d = true →
        exec (.slotFetch qid) s = .next (u.halt qid 1 0)) ∧
      ((u.queue qid).skip = 0 → tOrd d < 3 → tType d < 0x0E → exec (.slotFetch qid) s = .next u)))) ∧
  (∀ s q, exec (.feedMove q) s = .next (s.feedMove1 q)) ∧
  (∀ s qid g u t, (s.queue qid).going.filter (fun g => g.kind = .feeding) = [g] → s.goClean qid g = (u, true) →
    (u.feedAll (fieldAt g.data 0 2) (feedRecords g.data) = some t → exec (.feedAppendRetry qid) s = .next (t.endGoing qid g)) ∧
    (u.feedAll (fieldAt g.data 0 2) (feedRecords g.data) = none → exec (.feedAppendRetry qid) s = .next u)) ∧
  (∀ s qid g u v l, (s.queue qid).going.filter (fun g => g.kind.waits) = [g] → s.goClean qid g = (u, true) →
    u.hubRead (u.queue qid).asid (fieldAt g.data 0 8) 8 = (v, .ok l) →
    (wordTest (fieldAt g.data 24 1) (leNat l) (fieldAt g.data 8 8) (fieldAt g.data 16 8) = some true →
      exec (.waitPoll qid) s = .next (v.endGoing qid g)) ∧
    (wordTest (fieldAt g.data 24 1) (leNat l) (fieldAt g.data 8 8) (fieldAt g.data 16 8) = some false →
      exec (.waitPoll qid) s = .next v)) ∧
  (∀ s qid g u, (s.queue qid).going.filter (fun g => g.kind.waits) = [g] → s.goClean qid g = (u, false) →
    exec (.waitPoll qid) s = .next u) ∧
  (∀ s qid now u g, u = s.advanceTime now → (u.queue qid).going.find? (fun g => g.late u.ltime) = some g →
    exec (.waitTimeout qid now) s = .next (u.haltGoing qid g 5)) ∧
  (∀ s now qs, qs = sortBy (fun p => (s.advanceTime now).dueAt p.2)
      ((s.advanceTime now).queues.filter (fun p => p.2.bound && p.2.deadline ≠ 0)) →
    exec (.deadlineCheck now) s = .next (qs.foldl (fun (s : State) p => s.deadlineOf p.1) (s.advanceTime now)).comeBack)

/-- The current packet `d` of a queue is of a type, is well formed in its trailer, may start and has its turn; the effect is made
in `u`, the state once the turn is taken, unless it is a DISPATCH, which starts with its course 0, and a DOMAIN release, unless the
packet sees to it itself, has been performed (R391 to R396, R406). -/
structure Packeted (s : State) (qid typ : Nat) (own : Bool) (u : State) (d : List Byte) : Prop where
  current : (s.queue qid).current = some d
  works : (s.queue qid).works = true
  phase : (s.queue qid).phase = .idle ∨ (s.queue qid).phase = .held
  unskipped : (s.queue qid).skip = 0
  type : tType d = typ
  ord : tOrd d < 3
  starts : (s.queue qid).canStart d = true
  turn : s.myTurn qid = true
  trailer : trailerBad d = false
  released : ∃ t, t = (if typ = 1 then s else s.takeTurn qid) ∧
    if tRel d = 2 ∧ own = false then t.domainClean (s.queue qid).asid = (u, true) else u = t

/-- R391 to R404, R411, R382: each packet has its effect and completes, or leaves its queue waiting or one level deeper, or its span
waiting for a place. -/
def Obligations.PacketsComplete : Prop :=
  (∀ s qid u d, Packeted s qid 0x00 false u d → zeroAt d 0 252 = true → exec (.nopPacket qid) s = .next (u.finishPk qid)) ∧
  (∀ s qid u d v k, Packeted s qid 0x01 true u d → dispatchBad d = false → u.dispatchCheck (s.queue qid).asid d = (v, .ok k) →
    ∃ n w, n = Store.fresh v.spans ∧ w = v.setSpan n (v.newSpan qid (s.queue qid) d k) ∧
      exec (.dispatch qid) s = .next (w.setQueue qid { w.queue qid with phase := .dispatching n })) ∧
  (∀ s qid u d, Packeted s qid 0x02 false u d → fieldAt d 0 2 ≤ 255 → 1 ≤ fieldAt d 2 1 → fieldAt d 2 1 ≤ 3 → zeroAt d 3 8 = true →
    zeroAt d 200 252 = true → (u.feed (fieldAt d 0 2)).asid = (s.queue qid).asid →
    (∀ t, u.feedAll (fieldAt d 0 2) (feedRecords d) = some t → exec (.feed qid) s = .next (t.finishPk qid)) ∧
    (u.feedAll (fieldAt d 0 2) (feedRecords d) = none →
      exec (.feed qid) s = .next (u.goOn qid .feeding))) ∧
  (∀ s qid u d v, Packeted s qid 0x03 false u d → fieldAt d 0 8 % 256 = 0 → 1 ≤ fieldAt d 8 4 → fieldAt d 8 4 ≤ 65536 →
    zeroAt d 12 252 = true → (s.queue qid).depth < 4 → v = (u.startPk qid).2 →
    exec (.indirect qid) s = .next (v.setQueue qid { v.queue qid with
      stack := (v.queue qid).stack ++ [{ addr := fieldAt d 0 8, count := fieldAt d 8 4, pos := 0 }], depth := (v.queue qid).depth + 1,
      phase := .idle, skip := 0, lastPk := Store.erase (v.queue qid).lastPk ((v.queue qid).depth + 1) })) ∧
  (∀ s qid u d v l, Packeted s qid 0x04 false u d → fieldAt d 24 1 ≤ 3 → fieldAt d 25 1 ≠ 0 → zeroAt d 26 252 = true →
    u.hubRead (s.queue qid).asid (fieldAt d 0 8) 8 = (v, .ok l) →
    (wordTest (fieldAt d 24 1) (leNat l) (fieldAt d 8 8) (fieldAt d 16 8) = some true →
      exec (.predicate qid) s = .next (v.finishPk qid)) ∧
    (wordTest (fieldAt d 24 1) (leNat l) (fieldAt d 8 8) (fieldAt d 16 8) = some false →
      exec (.predicate qid) s = .next ((v.setQueue qid { v.queue qid with skip := fieldAt d 25 1 }).finishPk qid))) ∧
  (∀ s qid u d, Packeted s qid 0x05 false u d → fieldAt d 0 1 ≠ 0 → fieldAt d 1 1 ≠ 0 → zeroAt d 2 252 = true →
    (s.queue qid).loopn = 0 → (s.queue qid).pos + 1 + fieldAt d 0 1 ≤ (s.queue qid).limit →
    exec (.loop qid) s = .next ((u.setQueue qid { u.queue qid with
      loopn := fieldAt d 0 1, loopleft := fieldAt d 1 1 - 1, loopdepth := (s.queue qid).depth, loopstart := (s.queue qid).pos + 1 }).finishPk qid)) ∧
  (∀ s qid u d, Packeted s qid 0x06 false u d → (fieldAt d 16 1 = 4 ∨ fieldAt d 16 1 = 8) → fieldAt d 0 8 % fieldAt d 16 1 = 0 →
    zeroAt d 17 252 = true →
    (∀ v, u.choose = (v, true) → exec (.writePacket qid) s = .next (v.goOn qid .writing)) ∧
    (∀ v w l, u.choose = (v, false) → v.hubWrite (s.queue qid).asid (fieldAt d 0 8) ((d.drop 8).take (fieldAt d 16 1)) = (w, .ok l) →
      exec (.writePacket qid) s = .next (w.finishPk qid))) ∧
  (∀ s now qid u d v l, Packeted (s.advanceTime now) qid 0x07 false u d → fieldAt d 24 1 ≤ 3 → zeroAt d 25 32 = true →
    zeroAt d 36 252 = true → u.hubRead ((s.advanceTime now).queue qid).asid (fieldAt d 0 8) 8 = (v, .ok l) →
    (wordTest (fieldAt d 24 1) (leNat l) (fieldAt d 8 8) (fieldAt d 16 8) = some true →
      exec (.wait qid now) s = .next (v.finishPk qid)) ∧
    (wordTest (fieldAt d 24 1) (leNat l) (fieldAt d 8 8) (fieldAt d 16 8) = some false →
      exec (.wait qid now) s = .next (v.goOn qid (.waiting v.ltime)))) ∧
  (∀ s qid u d, Packeted s qid 0x08 false u d → zeroAt d 0 252 = true →
    exec (.fetchfence qid) s = .next ((u.setQueue qid { u.queue qid with fetched := [] }).finishPk qid)) ∧
  (∀ s qid u d, Packeted s qid 0x09 false u d → fieldAt d 0 8 % 64 = 0 → zeroAt d 64 252 = true →
    (∀ v, u.choose = (v, true) → exec (.signalPacket qid) s = .next (v.goOn qid .writing)) ∧
    (∀ v w l, u.choose = (v, false) → v.hubWrite (s.queue qid).asid (fieldAt d 0 8) ((d.drop 8).take 56 ++ natLe 8 (u.queue qid).pos) = (w, .ok l) →
      exec (.signalPacket qid) s = .next (w.finishPk qid))) ∧
  (∀ s qid u d, Packeted s qid 0x0A false u d → fieldAt d 0 8 % 64 = 0 → fieldAt d 8 8 % 64 = 0 → fieldAt d 16 8 % 64 = 0 →
    zeroAt d 24 252 = true →
    (∀ v, u.choose = (v, true) → exec (.copy qid) s = .next (v.goOn qid .writing)) ∧
    (∀ v w, u.choose = (v, false) → v.moveLines (s.queue qid).asid (fieldAt d 16 8 / 64) (fieldAt d 0 8) (fieldAt d 8 8) = .done w →
      exec (.copy qid) s = .next (w.finishPk qid))) ∧
  (∀ s qid u d v l x, Packeted s qid 0x0D false u d → zeroAt d 8 252 = true →
    u.hubRead (s.queue qid).asid (fieldAt d 0 8) 1600 = (v, .ok l) → x = Config.mlkemDecap (natLe 8 v.boot.kemKey ++ l.take 1568) →
    x ≠ [] →
    exec (.bind qid) s = .next ((v.setQueue qid { v.queue qid with
      key := some (Config.kmac x (natLe 2 qid ++ l.drop 1568 ++ keyLabel)), lastseq := 0 }).finishPk qid))

/-! ## Spans, images and checkpoints -/

/-- R404 to R408, R425: a span takes cores for its next course, completes once nothing of it is left, and has its record written
after a committed release. -/
def Obligations.SpanStepsComplete : Prop :=
  (∀ s sp cluster cores t, (s.span sp).completed = none → (s.span sp).ending = .running →
    (∀ c, (s.span sp).capture = some c → c.seeking = false) → s.startsNow sp = true →
    cores.headD 0 / 256 = cluster → s.homeless sp = [] → (s.span sp).placed < (s.span sp).courses → s.spanIsOff sp = false →
    (∀ m, m = (if (s.span sp).coresident then (s.span sp).courses - (s.span sp).placed else 1) →
      m * (s.span sp).kernel.bolts ≤ cores.length → s.launchAll sp m cores = some t →
      exec (.coursePlacement sp cluster cores) s = .next (t.dispatchStarts sp))) ∧
  (∀ s sp cluster cores c rest t, (s.span sp).completed = none → (s.span sp).ending = .running →
    (∀ c, (s.span sp).capture = some c → c.seeking = false) →
    cores.headD 0 / 256 = cluster → s.homeless sp = c :: rest →
    s.replantAll sp (if (s.span sp).coresident then c :: rest else [c]) cores = some t →
    exec (.coursePlacement sp cluster cores) s = .next t) ∧
  (∀ s sp, s.spanOver sp = true → exec (.spanComplete sp) s = .next (s.completeSpan sp)) ∧
  (∀ s sp seq u t, (s.span sp).completed = some seq → (s.span sp).released = true → (s.span sp).recorded = false →
    (if (s.span sp).rel % 4 = 2 then s.domainClean (s.span sp).asid = (u, true) else u = s) →
    u.putRecord (s.span sp).qid (s.span sp).asid (s.span sp).compl (s.span sp).ending.status (s.span sp).ending.originBit
      (s.span sp).ending.code seq = .inl t →
    exec (.completionRecordWrite sp) s = .next (t.recordDone sp))

/-- R427 to R435, R439, R440, R443: each form of PREEMPT and a CHECKPOINT start or complete; a deferral ends; a span is captured as an
image or a checkpoint; a piece of a checkpoint goes out; an image is restored; a pull that has lasted a second fails. -/
def Obligations.ImageStepsComplete : Prop :=
  (∀ s qid u d sp, Packeted s qid 0x0C false u d → fieldAt d 8 1 % 4 = 0 → preemptBad d = false → u.spanRef qid (fieldAt d 0 8) = some sp →
    exec (.preemptSwitch qid) s = .next ((u.spanOff sp).finishPk qid)) ∧
  (∀ s now qid u d sp, Packeted (s.advanceTime now) qid 0x0C false u d → preemptBad d = false →
    u.spanRef qid (fieldAt d 0 8) = some sp → (u.span sp).capture = none → ∀ c : CaptureReq,
      (fieldAt d 8 1 % 4 = 1 → c = { mode := 1, qid := qid, addr := fieldAt d 16 8, tiers := [], seeking := false, deadline := u.ltime + deferOf (fieldAt d 8 1) } →
        exec (.preemptSave qid now) s =
          .next (((u.setSpan sp { u.span sp with capture := some c }).trySeek sp).goOn qid (.capturing sp))) ∧
      (fieldAt d 8 1 % 4 = 2 → c = { mode := 2, qid := qid, addr := fieldAt d 16 8, tiers := [], seeking := false, deadline := u.ltime + deferOf (fieldAt d 8 1) } →
        exec (.preemptMove qid now) s =
          .next (((u.setSpan sp { u.span sp with capture := some c }).trySeek sp).goOn qid (.capturing sp)))) ∧
  (∀ s qid u d v l w r x, Packeted s qid 0x0C false u d → fieldAt d 8 1 % 4 = 3 → preemptBad d = false → fieldAt d 0 8 = 0 →
    u.hubRead (s.queue qid).asid (fieldAt d 16 8) 128 = (v, .ok l) → headOk l = true →
    v.hubRead (s.queue qid).asid (fieldAt d 16 8) (fieldAt l 8 8) = (w, .ok r) → readImage r = some x →
    w.restoreCheck (s.queue qid).asid x = 0 → w.slotsReady (s.queue qid).asid x = true →
    exec (.preemptRestore qid) s = .next ((w.plant qid (s.queue qid) d x).finishPk qid)) ∧
  (∀ s now qid u d sp v l, Packeted (s.advanceTime now) qid 0x0B false u d → zeroAt d 16 252 = true →
    u.spanRef qid (fieldAt d 0 8) = some sp → u.hubRead ((s.advanceTime now).queue qid).asid (fieldAt d 8 8) 64 = (v, .ok l) →
    fieldAt l 0 8 = 0 → (v.span sp).capture = none → ∀ c : CaptureReq,
      c = { mode := 3, qid := qid, addr := 0, tiers := [], seeking := false, deadline := v.ltime + deferOf 0 } →
      exec (.checkpoint qid now) s =
        .next (((v.setSpan sp { v.span sp with capture := some c }).trySeek sp).goOn qid (.capturing sp))) ∧
  (∀ s sp now, exec (.deferExpiry sp now) s = .next ((s.advanceTime now).trySeek sp)) ∧
  (∀ s sp c u v, (s.span sp).capture = some c → c.seeking = true → s.captureReady sp = true →
    s.domainClean (s.span sp).asid = (u, true) →
    v = (u.pendFailures (s.span sp).asid ((u.spanWefts sp).map (·.1))).quiesce sp → v.spanReadable sp = true →
    (c.mode = 3 → exec (.capture sp) s = .next (v.takeCheckpoint sp c)) ∧
    (c.mode ≠ 3 → (c.mode = 2 → v.ctxBusy sp = false) → exec (.capture sp) s = .next (v.takeImage sp c).wake)) ∧
  (∀ s n c i rest u tags, s.ckpts[n]? = some c → c.imgLeft = i :: rest →
    s.sendPiece c i ((c.image.drop (granule * i)).take granule) = (u, tags) →
    exec (.checkpointDrain n) s = .next { u with ckpts := u.ckpts.set n { c with imgLeft := rest, sent := c.sent ++ tags } }) ∧
  (∀ s n c, s.ckpts[n]? = some c → c.imgLeft = [] → c.frames = [] → exec (.checkpointDrain n) s = .next s.ckptDone) ∧
  (∀ s n now u p, u = s.advanceTime now → u.pulls[n]? = some p → 1000000000 ≤ u.ltime - p.since →
    exec (.pullTimeout n now) s = .next { u with pulls := u.pulls.set n { p with dead := true } })

/-! ## The fabric's ports, routers and registers -/

/-- R372, R373, R383, R456 to R466, R480, R485: a whole flit in sequence is taken, a damaged one and one out of sequence answered with NAK; a
port trains or goes down; a packet leaves, goes on, or is taken by the hub; a topology entry and a notify of a peer arrive;
cached routes are flushed; a register is written; a request that is owed a response fails after RTO. -/
def Obligations.LinkStepsComplete : Prop :=
  (∀ s port f now u, port < 12 → u = s.advanceTime now → (u.port port).up = true → flitIntact f = true →
    (f.idle = false → f.seq = (u.port port).rxNext →
      exec (.flitReceive port f now) s =
        .next (u.setPort port (({ u.port port with rxNext := (u.port port).rxNext + 1, nak := false } : Port).hear f))) ∧
    (f.idle = true → f.seq = (u.port port).rxNext - 1 →
      exec (.flitReceive port f now) s = .next (u.setPort port (({ u.port port with nak := false } : Port).hear f))) ∧
    (f.seq ≠ (if f.idle then (u.port port).rxNext - 1 else (u.port port).rxNext) →
      exec (.flitReceive port f now) s = .next (u.setPort port { u.port port with nak := true }))) ∧
  (∀ s port f now u, port < 12 → u = s.advanceTime now → (u.port port).up = true → flitIntact f = false →
    exec (.flitReceive port f now) s = .next (u.damaged port f)) ∧
  (∀ s port up, port < 12 → (s.port port).up ≠ up → exec (.portStateChange port up) s =
    .next ((s.setPort port { s.port port with replay := [], stop := 0, retries := 0 }).portChange port up)) ∧
  (∀ s (p : Packet) u t, p ∈ s.fab.out → s.fabOn = true → firstOf s.fab.out p = true →
    u = { s with fab := { s.fab with out := s.fab.out.erase p } } → u.startPacket p = some t → exec (.routerHop p) s = .next t) ∧
  (∀ s (p : Packet) t, p ∉ s.fab.out → s.fabOn = true → s.atRouter p = some t → exec (.routerHop p) s = .next t) ∧
  (∀ s (p : Packet), p.typ = tLINKSTATE → p ∈ s.fab.inbox →
    exec (.linkstate p) s = .next ((s.takePacket p).putMap (s.linear p.srcpos) (p.payload.take 16)).wake) ∧
  (∀ s (p : Packet), p.typ = tQNOTIFY → p ∈ s.fab.inbox → s.booted = true → s.notifyWaits p = false →
    (((s.takePacket p).queue (fieldAt p.payload 0 2)).binding = false →
      exec (.qnotify p) s = .next ((s.takePacket p).notify p.payload).wake) ∧
    (((s.takePacket p).queue (fieldAt p.payload 0 2)).binding = true → exec (.qnotify p) s = .next (s.takePacket p).wake)) ∧
  (∀ s (x : Dword), exec (.rtflush x) s = .next (if x.getLsbD 0 then s.flushRoutes else s)) ∧
  (∀ s addr x md, addr % 8 = 0 →
    (mayReach md (hubPlace addr).res true = true → exec (.registerWrite addr x md) s = .next (s.writeRegister md addr x)) ∧
    (mayReach md (hubPlace addr).res true = false → exec (.registerWrite addr x md) s = .next s)) ∧
  (∀ s tag now u q, u = s.advanceTime now → u.fab.reqs.find? (fun q => q.tag = tag) = some q →
    (q.fid.isSome = true ∨ q.typ = tMARKER ∨ (q.gw = true ∧ q.typ ≠ tPIECE)) → u.fab.rto.toNat * 1000 ≤ u.ltime - q.sent →
    exec (.remoteTimeout tag now) s = .next (u.failReq q 2).wake)

/-! ## Requests at their destination and responses at their source -/

/-- A packet of a type has arrived whose domain belongs to a context that has not been killed, and no earlier packet stands before it
(R467, R477, R480). -/
structure Admitted (s : State) (p : Packet) (typ : BitVec 8) (asid : Nat) : Prop where
  type : p.typ = typ
  arrived : p ∈ s.fab.inbox
  first : s.blocked p = false
  domain : ∃ i e, s.domainOf p.domid = some (i, e) ∧ e.asid = asid
  alive : (s.ctx asid).st ≠ .killed

/-- R468, R469, R475 to R481: a WRITE is performed, a READ answered with its bytes, an ATOM performed at its home and answered where
asked, a SIGNAL lands at its barrier, and a MARKER is answered once every earlier packet of its path has been performed. -/
def Obligations.RequestsAtDestinationComplete : Prop :=
  (∀ s p asid u l, Admitted s p tWRITE asid → (s.takePacket p).hubWrite asid p.addr.toNat (p.payload.take p.len) = (u, .ok l) →
    exec (.fabricWrite p) s = .next u.wake) ∧
  (∀ s p asid u l bad, Admitted s p tREAD asid →
    (s.takePacket p).readFlagged asid (p.len / 64 + 2) 0 p.addr.toNat p.len = (u, .inl (l, bad)) →
    exec (.read p) s = .next (u.emit (u.mkResponse p tRDATA l bad.eraseDups)).wake) ∧
  (∀ s p asid op n a c1 u pa v r, Admitted s p tATOM asid → atomOf p.payload = some (op, n, a, c1) → p.addr.toNat % n = 0 →
    (s.takePacket p).hubTranslate asid p.addr.toNat .rw = (u, .ok pa) → u.homeAtom op n (op = .fadd) pa a c1 asid = (v, r) →
    exec (.fabricAtom p) s = .next (v.answerAtom p r).wake) ∧
  (∀ s p asid bh u, Admitted s p tSIGNAL asid → u = s.takePacket p → u.signalBolt asid p.addr.toNat = some bh →
    u.barState bh (p.addr.toNat % 2 ^ 20) = 1 →
    ((u.bolt bh).obj (p.addr.toNat % 2 ^ 20)).bcnt + fieldAt p.payload 0 8 < 2 ^ 40 →
    exec (.fabricSignal p) s = .next (((u.markRemote bh (p.addr.toNat % 2 ^ 20)).noteExempt asid).barLand bh (p.addr.toNat % 2 ^ 20)
      (fieldAt p.payload 0 8)).wake) ∧
  (∀ s p, p.typ = tMARKER → p ∈ s.fab.inbox → s.blocked p = false →
    exec (.marker p) s = .next ((s.takePacket p).emit (s.mkResponse p tMACK [] [])))

/-- R440, R443, R477 to R485: a response fills the request it answers; a MACK covers the requests before its marker; a NOTICE breaks its
route; an ERROR fails its request; a withdraw notice ends what waits on the peer; a page is pulled, arrives, or is released; a
piece of a checkpoint is kept and acknowledged. -/
def Obligations.ResponsesAndNoticesComplete : Prop :=
  (∀ s (p : Packet) q, p.typ = tRDATA → p ∈ s.fab.inbox → s.fab.reqs.find? (fun q => q.tag = p.tag.toNat && q.typ = tREAD && !q.gw) = some q →
    exec (.rdata p) s = .next (((s.takePacket p).dropReq q).fillXld q p.payload p.aborts).wake) ∧
  (∀ s (p : Packet) q, p.typ = tADATA → p ∈ s.fab.inbox → s.fab.reqs.find? (fun q => q.tag = p.tag.toNat && q.typ = tATOM && !q.gw) = some q →
    exec (.adata p) s =
      .next (((s.takePacket p).dropReq q).fillXatom q (if p.aborts.isEmpty then some (fieldAt p.payload 0 8) else none)).wake) ∧
  (∀ s (p : Packet) q, p.typ = tMACK → p ∈ s.fab.inbox → s.fab.reqs.find? (fun q => q.tag = p.tag.toNat && q.typ = tMARKER) = some q →
    exec (.mack p) s = .next ((s.takePacket p).marked q).wake) ∧
  (∀ s (p : Packet) r u e, p.typ = tNOTICE → p ∈ s.fab.inbox → r = fieldAt p.payload 2 2 → (s.takePacket p).route r = (u, e) →
    e.valid = true → e.fwd = p.ret →
    exec (.notice p) s =
      .next (((u.breakRoute r).event 5 6 (r + fieldAt p.payload 0 1 * 2 ^ 16)).failTag p.tag.toNat 1).wake) ∧
  (∀ s (p : Packet), p.typ = tERROR → p ∈ s.fab.inbox →
    exec (.error p) s = .next ((s.takePacket p).failTag (fieldAt p.payload 4 4) (fieldAt p.payload 0 4)).wake) ∧
  (∀ s (p : Packet) i e u, p.typ = tWITHDRAW → p ∈ s.fab.inbox → s.domainOf p.domid = some (i, e) → u = s.takePacket p →
    exec (.withdraw p) s = .next (State.checkBarriers
      { u with fab := { u.fab with domains := Store.insert u.fab.domains i { e with peerlost := true } } } e.asid).wake) ∧
  (∀ s (p : Packet) h x u l, p.typ = tPULL → p.addr.toNat ≠ releaseAddr → p ∈ s.fab.inbox →
    s.heldImages.find? (fun h => h.digest = p.payload) = some h → h.pages.find? (fun x => x.1 * granule = p.addr.toNat) = some x →
    (s.takePacket p).homeRead (x.2 * granule) granule 0 0 = (u, some l) →
    exec (.pull p) s = .next (((chunks 8 l).zipIdx).foldl (fun (s : State) c =>
      s.emit { s.mkResponse p tPAGE c.1 [] with addr := p.addr + BitVec.ofNat 64 (4096 * c.2) }) u).wake) ∧
  (∀ s (p : Packet), p.typ = tPULL → p.addr.toNat = releaseAddr → p ∈ s.fab.inbox → ∃ t, exec (.release p) s = .next t ∧
    (∀ h ∈ t.heldImages, h.digest ≠ p.payload) ∧ t.mem = s.mem) ∧
  (∀ s (p : Packet) x got, p.typ = tPAGE → p ∈ s.fab.inbox → s.pulls.find? (fun x => x.tag = p.tag.toNat && !x.dead) = some x →
    got = Store.insert x.got ((p.addr.toNat - x.va) / 4096) p.payload →
    (got.length = 8 → exec (.page p) s = .next ((s.takePacket p).pageHere x (got.flatMap (·.2))).wake) ∧
    (got.length ≠ 8 → exec (.page p) s = .next
      (State.wake { s.takePacket p with pulls := s.pulls.map (fun y => if y = x then { x with got := got } else y) }))) ∧
  (∀ s (p : Packet) u, p.typ = tPIECE → p ∈ s.fab.inbox → u = s.takePacket p →
    exec (.piece p) s = .next (State.wake (State.emit { u with ckptRegion := Store.putBytes u.ckptRegion p.addr.toNat p.payload }
      (u.mkResponse p tPACK [] [])))) ∧
  (∀ s (p : Packet), p.typ = tPACK → p ∈ s.fab.inbox → exec (.piece p) s = .next ((s.takePacket p).pieceDone p.tag.toNat).wake)

/-! ## Gateways -/

/-- A region admits a request of `n` bytes (R488). -/
def RegionOf (s : State) (r : GwReq) (n : Nat) (write : Bool) (g : Region) : Prop :=
  Store.find s.fab.regions r.key = some g ∧ r.key < 1024 ∧ g.admits r.off n write = true

/-- R487 to R489: a write through a region lands, a read returns its bytes, a received send is written and its record appended, and a
UALink request does one of these or an atomic, in a port of its mode; an answer completes this device's request. Which atomics
a UALink port knows is the implementation's (log entry 15). -/
def Obligations.GatewayStepsComplete : Prop :=
  (∀ s (r : GwReq) g u l, s.gwRuns r.port 0 = true → RegionOf s r r.data.length true g →
    s.hubWrite g.asid (g.base + r.off) r.data = (u, .ok l) → exec (.uetRmaWrite r) s = .next (u.gwAnswer (.ok [])).wake) ∧
  (∀ s (r : GwReq) g u l, s.gwRuns r.port 0 = true → RegionOf s r r.len false g →
    s.hubRead g.asid (g.base + r.off) r.len = (u, .ok l) → exec (.uetRmaRead r) s = .next (u.gwAnswer (.ok l))) ∧
  (∀ s (r : GwReq) g u l q v st, s.gwRuns r.port 0 = true → RegionOf s r r.data.length true g →
    s.hubWrite g.asid (g.base + r.off) r.data = (u, .ok l) → g.feed = some q → u.feedAppend q (sendRecord r) = (v, st) →
    exec (.uetSend r) s = .next (v.gwAnswer (if st = 2 then .notReady else .ok [])).wake) ∧
  (∀ s (r : GwReq) g, s.gwRuns r.port 1 = true → r.atomOp = none →
    (∀ u l, r.data = [] → RegionOf s r r.len false g → s.hubRead g.asid (g.base + r.off) r.len = (u, .ok l) →
      exec (.ualinkRequest r) s = .next (u.gwAnswer (.ok l))) ∧
    (∀ u l, r.data ≠ [] → RegionOf s r r.data.length true g → s.hubWrite g.asid (g.base + r.off) r.data = (u, .ok l) →
      exec (.ualinkRequest r) s = .next (u.gwAnswer (.ok [])).wake)) ∧
  (∀ s (r : GwReq) op g u pa v old, s.gwRuns r.port 1 = true → r.atomOp = some op → Config.ualinkAtom op r.len = true →
    (r.len = 4 ∨ r.len = 8) → RegionOf s r r.len true g → g.r = true → (g.base + r.off) % r.len = 0 →
    s.hubTranslate g.asid (g.base + r.off) .rw = (u, .ok pa) →
    u.homeAtom op r.len (op = .fadd) pa (fieldAt r.data 0 8) (fieldAt r.data 8 8) g.asid = (v, some old) →
    exec (.ualinkRequest r) s = .next (v.gwAnswer (.ok (natLe r.len old))).wake) ∧
  (∀ s tag ok data q, s.fab.reqs.find? (fun q => q.gw && q.tag = tag) = some q →
    exec (.gatewayResponse tag ok data) s = .next (s.gatewayAnswer q ok data).wake)

/-! ## The step -/

/-- The next step is the current weft's turn, and it fetches: the module has power, no other task waits, the weft is active with a
thread alive, and no failure, switch, ending or capture comes first (R86, R173, R260, R428, R479). -/
structure Turn (s : State) : Prop where
  power : s.power.off = false
  agenda : s.agenda = []
  active : s.me.status = .active
  alive : s.me.alive ≠ 0
  issues : s.stopsHere s.me = false
  free : s.seekStops s.cur = false
  failed : s.me.pend = none

/-- R22, R36, R86, R362, R428: where the bytes at the current weft's PC translate, are aligned, are read and decode to an instruction,
a step is the execution of that instruction, with the progress of its context and the issues of the weft noted (R258, R384); while a
capture seeks the weft, an instruction that blocks or starts a producer is not issued, and every other counts; a task at the head
of the agenda is run instead. -/
def Obligations.StepRunsDecodedInstruction : Prop :=
  (∀ s u v pa bytes i n, Turn s →
    s.translate (s.coreOf s.me) (s.asidOf s.me) s.me.pc.toNat .fetch = (u, .ok pa) →
    s.me.pc.toNat % 4 = 0 → s.me.pc.toNat % 32 ≠ 28 →
    u.codeRead s.me pa (32 - s.me.pc.toNat % 32) = (v, some bytes) → decodeBytes bytes = .instr i n →
    (v.seeks (v.weft s.cur) = false →
      (∀ t, exec i { v with cur := s.cur } = .next t →
        step s = .next (v.noteTurn s.cur (some i) t) ∧
          { v.noteTurn s.cur (some i) t with ctxs := t.ctxs, wefts := t.wefts } = t ∧
          ∀ g, { (v.noteTurn s.cur (some i) t).weft g with issued := (t.weft g).issued } = t.weft g) ∧
      (∀ f, exec i { v with cur := s.cur } = .fault f → step s = .fault f) ∧
      (∀ r, exec i { v with cur := s.cur } = .refused r → step s = .refused r)) ∧
    (v.seeks (v.weft s.cur) = true →
      ((v.weft s.cur).startsProducer i = true → step s = .next (v.stay s.cur)) ∧
      (∀ t, (v.weft s.cur).startsProducer i = false → exec i { v with cur := s.cur } = .next t →
        step s = .next (if (t.weft s.cur).wait.isSome then v.stay s.cur
          else (v.noteTurn s.cur (some i) t).mapWeft s.cur (fun w => { w with seek := w.seek + 1 }))))) ∧
  (∀ s i rest, s.power.off = false → s.agenda = .ev i :: rest → step s = exec i { s with agenda := rest }) ∧
  (∀ s h rest, s.power.off = false → s.agenda = .issue h :: rest → step s = State.issue { s with agenda := rest } h)

/-- R23, R36 (steps 1 to 6), R177, R362: a fetch that does not translate, is misaligned, is not readable, or finds no assigned
instruction raises the fault of the first of these that holds, and a migrating page holds the weft. -/
def Obligations.FetchFaults : Prop :=
  ∀ s u, Turn s →
    (∀ c i, s.translate (s.coreOf s.me) (s.asidOf s.me) s.me.pc.toNat .fetch = (u, .fault c i) →
      step s = .next (u.noteTurn s.cur none (takeTrap u s.cur (s.me.fault c (info := i) (addr := s.me.pc.toNat))))) ∧
    (s.translate (s.coreOf s.me) (s.asidOf s.me) s.me.pc.toNat .fetch = (u, .mig) →
      step s = .next (u.noteTurn s.cur none (u.setWeft s.cur { u.weft s.cur with wait := some .mig }))) ∧
    (∀ pa, s.translate (s.coreOf s.me) (s.asidOf s.me) s.me.pc.toNat .fetch = (u, .ok pa) →
      (s.me.pc.toNat % 4 ≠ 0 ∨ s.me.pc.toNat % 32 = 28 →
        step s = .next (u.noteTurn s.cur none (takeTrap u s.cur (s.me.fault cBoundary)))) ∧
      (s.me.pc.toNat % 4 = 0 → s.me.pc.toNat % 32 ≠ 28 → ∀ v,
        (u.codeRead s.me pa (32 - s.me.pc.toNat % 32) = (v, none) →
          step s = .next (v.noteTurn s.cur none (takeTrap v s.cur (s.me.fault cAbort (addr := s.me.pc.toNat))))) ∧
        (∀ bytes, u.codeRead s.me pa (32 - s.me.pc.toNat % 32) = (v, some bytes) →
          (decodeBytes bytes = .illegalLength →
            step s = .next (v.noteTurn s.cur none (takeTrap v s.cur (s.me.fault cLength)))) ∧
          (decodeBytes bytes = .crosses →
            step s = .next (v.noteTurn s.cur none (takeTrap v s.cur (s.me.fault cBoundary)))) ∧
          (decodeBytes bytes = .illegal →
            step s = .next (v.noteTurn s.cur none (takeTrap v s.cur (s.me.fault cIllegal)))))))

/-- A form's checks decide how an instruction issues: its first fault is taken, and an empty register holds the weft. -/
def Checked (i : Instr) (f : Form) : Prop :=
  ∀ s, s.me.status = .active → s.me.shadowed = false →
    (∀ t, f.decodeFault s s.me = some t →
      exec i s = .next (takeTrap (s.setWeft s.cur { s.me with relTags := none }) s.cur t).wake) ∧
    (f.decodeFault s s.me = none → s.me.selected f.g ≠ 0 →
      (∀ t, f.ready s.me (s.me.selected f.g) = .trap t →
        exec i s = .next (takeTrap (s.setWeft s.cur { s.me with relTags := none }) s.cur t).wake) ∧
      (∀ x, f.ready s.me (s.me.selected f.g) = .hold x → exec i s = .next (s.setWeft s.cur { s.me with wait := some x }).wake) ∧
      (∀ t, f.ready s.me (s.me.selected f.g) = .go → s.regAbort s.cur f s.me (s.me.selected f.g) = none → f.tagFault s.me (s.me.selected f.g) = some t →
        exec i s = .next (takeTrap (s.setWeft s.cur { s.me with relTags := none }) s.cur t).wake))

/-- R36 (steps 7 to 10), R55, R94, R110: a register of the wrong class or past the declared count, an empty register with TE set,
an aborted scalar and a tag that is not accepted raise their faults, and an empty register without TE holds the weft: shown of
one instruction of each shape of the arithmetic, control and memory families. -/
def Obligations.FormChecksFault : Prop :=
  (∀ p ∈ [Instr.iadd, Instr.isub, Instr.imul, Instr.imulhi, Instr.imin, Instr.imax, Instr.shl, Instr.shr, Instr.sar, Instr.rot, Instr.bfx],
    ∀ o : IBin, Checked (p o) (binForm o.g cInt tInt o.d o.a o.b)) ∧
  (∀ p ∈ [Instr.ineg, Instr.iabs, Instr.popc, Instr.clz, Instr.ctz, Instr.brev], ∀ o : IUn,
    Checked (p o) (unForm o.g cInt tInt o.d o.a)) ∧
  (∀ p ∈ [Instr.imad, Instr.isel, Instr.bfi], ∀ o : ITri, Checked (p o) (triForm o.g cInt tInt o.d o.a o.b o.c)) ∧
  (∀ p ∈ [Instr.and, Instr.or, Instr.xor, Instr.andn], ∀ o : LBin, Checked (p o) (binForm o.g cInt none o.d o.a o.b)) ∧
  (∀ p ∈ [Instr.fadd, Instr.fsub, Instr.fmul, Instr.fdiv], ∀ o : FBin, Checked (p o) (binForm o.g cFlt (tFlt o.w) o.d o.a o.b)) ∧
  (∀ o : FTri, Checked (.ffma o) (triForm o.g cFlt (tFlt o.w) o.d o.a o.b o.c)) ∧
  (∀ o : PlainArgs, Checked (.rft o) (.plain o.g [])) ∧
  (∀ o : RetArgs, Checked (.ret o) (.plain o.g [opS 1 [.s] (some [1]) o.a])) ∧
  (∀ o : LdArgs, Checked (.ld o) (recForm o.g o.br [opS 2 cOff tInt o.off, opD [.v] o.d])) ∧
  (∀ o : LdArgs, Checked (.ldu o) (recForm o.g o.br [opS 2 [.s, .z] tInt o.off, opD [.s] o.d]))

/-- An instruction of `len` bytes whose pairs are compared: in a protected weft whose pairs do not all hold the same, where the even
threads' execution and the odd threads' differ, it has no effect and traps; where they agree both keep their own results. -/
def Compared (i : Instr) (len : Nat) (f : State → Nat → Eff) : Prop :=
  ∀ s e o, s.me.status = .active → s.me.shadowed = true → e = f s s.cur → o = f (s.setWeft s.cur s.me.oddView) s.cur →
    (∀ a x, e ≠ .hold a x) → (∀ a x, o ≠ .hold a x) →
    (s.pairClash s.cur f (BitVec.allOnes 32) = true →
      exec i s = .next (takeTrap (s.setWeft s.cur { s.me with relTags := none }) s.cur (s.mismatch s.cur f)).wake) ∧
    (s.pairClash s.cur f (BitVec.allOnes 32) = false →
      (∀ a b, e = .done a → o = .done b → exec i s = .next ((a.withOdd s.cur b).after s.cur len)) ∧
      (∀ a b, e = .moved a → o = .moved b → exec i s = .next (a.withOdd s.cur b).moved))

/-- R112 to R115: at a store, an atomic, a branch, an EXIT and a uniform instruction the two threads of each pair are compared, and a
pair that differs raises the protected-mode mismatch fault with the lowest such pair in its mask and none of the instruction's
effect; every other instruction leaves each thread its own result. -/
def Obligations.PairsAreCompared : Prop :=
  (∀ o : StArgs, Compared (.st o) (lenA o.add) (storeOp false o)) ∧
  (∀ o : StArgs, Compared (.stu o) (lenA o.add) (storeOp true o)) ∧
  (∀ o : AtomArgs, Compared (.atom o) (atomLen o.ext) (atomOp o)) ∧
  (∀ o : RedArgs, Compared (.red o) (atomLen o.ext) (redOp o)) ∧
  (∀ o : CpysliceArgs, Compared (.cpyslice o) (lenA o.add) (cpysliceOp o)) ∧
  (∀ o : BraArgs, Compared (.bra o) 12 (fun s h => s.operate h (.plain o.g []) (fun w sel =>
    if inSpace (targetOf w.pc o.off) then .moved (s.setWeft h (w.cleared.branch o.tag
      [⟨BitVec.ofNat 57 (targetOf w.pc o.off).toNat, sel⟩, ⟨nextPc w.pc 12, w.active &&& ~~~sel⟩]))
    else .trap s (w.farTarget (targetOf w.pc o.off) sel)))) ∧
  (∀ o : PlainArgs, Compared (.exit o) 8 (fun s h => s.operate h (.plain o.g []) (fun w sel =>
    .moved ((s.setWeft h { w.cleared with pc := nextPc w.pc 8 }).exit h sel)))) ∧
  (∀ o : LdArgs, o.g.uni = true → Compared (.ld o) (lenA o.add) (loadOp false o)) ∧
  (∀ (s : State) h f t, t = s.mismatch h f →
    t.cause = cProtected ∧ t.pc = (s.weft h).pc ∧ t.addr = 0 ∧ t.info = 0 ∧ t.field = 0 ∧ ∃ n, t.mask = tbit n)

/-! ## Traps -/

/-- R175, R178, R180, R182: a fault goes in context when DELEG gives 01, its cause may, no handler runs and THVEC is set; to the
mailbox when DELEG gives 10 and a peer is registered; else to the supervisor. In context the trap registers take the fault's
values and the weft goes on at THVEC, the rest of the device unchanged. Otherwise it parks where it stands with the record's
values, or, with the supervisor's ring full, waits (R375). -/
def Obligations.TrapDelivery : Prop :=
  (∀ (c : Ctx) (w : Weft) x, faultRoute c w x = .context ↔
    neverInContext x = false ∧ w.tstat.getLsbD 0 = false ∧ routeBits (delegMask c.deleg) x = 1 ∧ w.thvec ≠ 0) ∧
  (∀ (c : Ctx) (w : Weft) x, faultRoute c w x = .mailbox ↔
    neverInContext x = false ∧ w.tstat.getLsbD 0 = false ∧ routeBits (delegMask c.deleg) x = 2 ∧ c.peer.getLsbD 63 = true) ∧
  (∀ s h t w, w = s.weft h → faultRoute (s.ctxOf w) w t.cause = .context →
    (takeTrap s h t).weft h = { w with
      trapcause := (0 : BitVec 16) ++ t.info ++ t.field ++ t.cause, trappc := t.pc.zeroExtend 64 &&& ~~~3, trapaddr := t.addr.zeroExtend 64,
      trapmask := (t.mask &&& w.bits).zeroExtend 64, tstat := tstatWord w.stack.length (w.tstat.getLsbD 1) true,
      pc := w.thvec.truncate 57, wait := none, repeatPhase := none } ∧
    (∀ g, g ≠ h → (takeTrap s h t).weft g = s.weft g) ∧ { takeTrap s h t with wefts := s.wefts } = s) ∧
  (∀ s h t w, w = s.weft h → faultRoute (s.ctxOf w) w t.cause = .supervisor → s.trapRing.length < trapRingSlots → t.cause ≠ cFetch →
    takeTrap s h t = (s.setWeft h (w.park t .supervisor)).admitWefts (s.coreOf w)) ∧
  (∀ s h t w, w = s.weft h → faultRoute (s.ctxOf w) w t.cause = .supervisor → s.trapRing.length < trapRingSlots → t.cause = cFetch →
    takeTrap s h t = (s.setWeft h (w.park t .supervisor)).swapOut w.bolt) ∧
  (∀ s h t w, w = s.weft h → faultRoute (s.ctxOf w) w t.cause = .supervisor → trapRingSlots ≤ s.trapRing.length →
    takeTrap s h t = s.setWeft h { w with wait := some .ringFull }) ∧
  (∀ s h t w, w = s.weft h → faultRoute (s.ctxOf w) w t.cause = .mailbox →
    takeTrap s h t = (s.setWeft h (w.park t .mailbox)).admitWefts (s.coreOf w)) ∧
  (∀ (w : Weft) t r, (w.park t r).status = .parked ∧ (w.park t r).pc = w.pc ∧ (w.park t r).trapcause = w.trapcause ∧
    (w.park t r).trappc = w.trappc ∧ (w.park t r).trapaddr = w.trapaddr ∧ (w.park t r).trapmask = w.trapmask ∧
    (w.park t r).vr = w.vr ∧ (w.park t r).sr = w.sr ∧ (w.park t r).ks = w.ks ∧ (w.park t r).fpstat = w.fpstat)

/-- R179: the three cases in which a fault goes to the supervisor instead of where DELEG sends it; with a handler running, NEST is
set. -/
def Obligations.DelegationExceptions : Prop :=
  (∀ (c : Ctx) (w : Weft) x, routeBits (delegMask c.deleg) x = 1 → w.thvec = 0 → faultRoute c w x = .supervisor) ∧
  (∀ (c : Ctx) (w : Weft) x, routeBits (delegMask c.deleg) x = 2 → c.peer.getLsbD 63 = false → faultRoute c w x = .supervisor) ∧
  (∀ (c : Ctx) (w : Weft) x, w.tstat.getLsbD 0 = true → faultRoute c w x = .supervisor) ∧
  (∀ (w : Weft) t k, w.tstat.getLsbD 0 = true → (w.park t .supervisor).tstat.getLsbD 1 = true ∧
    (k ≠ 1 → (w.park t .supervisor).tstat.getLsbD k = w.tstat.getLsbD k)) ∧
  (∀ (w : Weft) t, w.tstat.getLsbD 0 = false → (w.park t .supervisor).tstat = w.tstat)

/-- R181: RFT outside a handler, or at another depth than the handler's entry, is an illegal instruction; else the weft goes on at
TRAPPC with INH clear, and nothing else changes. -/
def Obligations.ReturnFromTrap : Prop :=
  ∀ (o : PlainArgs) s sel, Executes s (.plain o.g []) sel →
    (s.me.tstat.getLsbD 0 = false ∨ s.me.stack.length % 32 ≠ s.me.tstat.toNat / 256 % 32 →
      exec (.rft o) s = .next (takeTrap (s.setWeft s.cur { s.me with relTags := none }) s.cur (s.me.fault cIllegal (mask := sel))).wake) ∧
    (s.me.tstat.getLsbD 0 = true → s.me.stack.length % 32 = s.me.tstat.toNat / 256 % 32 →
      ∃ t, exec (.rft o) s = .next t ∧ (t.weft s.cur).pc = s.me.trappc.truncate 57 ∧
        (t.weft s.cur).tstat = s.me.tstat &&& ~~~1 ∧ (t.weft s.cur).vr = s.me.vr ∧ (t.weft s.cur).sr = s.me.sr ∧
        (t.weft s.cur).ks = s.me.ks ∧ (t.weft s.cur).fpctl = s.me.fpctl ∧ (t.weft s.cur).fpstat = s.me.fpstat ∧
        (t.weft s.cur).trapcause = s.me.trapcause ∧ (t.weft s.cur).trappc = s.me.trappc ∧
        (t.weft s.cur).trapaddr = s.me.trapaddr ∧ (t.weft s.cur).trapmask = s.me.trapmask ∧
        (∀ g, g ≠ s.cur → (t.weft g).arch = (s.weft g).arch) ∧ (∀ n, (t.core n).arch = (s.core n).arch) ∧
        { t with wefts := s.wefts, cores := s.cores, order := s.order } = s)

/-! ## Registers -/

/-- R91, R407: a launched weft's registers, masks and path, and the arguments that overwrite its scalar registers. -/
def Obligations.WeftLaunch : Prop :=
  ∀ (k : Kernel) b id args w, w = (Weft.launch k b id).withArgs args → args.length ≤ 64 →
    (∀ n t, w.v n t = ⟨0, tagRAW, true⟩) ∧
    (∀ n (h : n < args.length), w.s n = ⟨args[n].1, args[n].2, true⟩) ∧
    (∀ n, args.length ≤ n → w.s n = ⟨0, tagRAW, true⟩) ∧
    (∀ n : BitVec 3, n ≠ 0 → w.k n = 0) ∧
    w.dlm = 0 ∧ w.exm = 0 ∧ w.fpctl = 1 ∧ w.fpstat = 0 ∧ w.stack = [] ∧ w.pc = k.entry

/-- R29, R92, R113: ZERO reads 0, LANE the thread index and k0 all ones, whatever was written; a write to ZERO or to k0 is
discarded, a write to another register is read back, and in a mask the bits of threads that a protected launch has not are 0. -/
def Obligations.RegisterReadsAndWrites : Prop :=
  (∀ (w : Weft) t, (w.cell .zero t).val = 0 ∧ w.k 0 = 0xFFFFFFFF ∧
    (t < 32 → (w.cell .lane t).val.toNat = t ∧ (w.cell .lane t).tag = tagI32)) ∧
  (∀ (w : Weft) t c, w.put .zero t c = w ∧ w.put (.k 0) t c = w) ∧
  (∀ (w : Weft) (n : BitVec 7) t c, t < 32 → (w.put (.v n) t c).v n.toNat t = c ∧
    (∀ m r, r < 32 → (m, r) ≠ (n.toNat, t) → (w.put (.v n) t c).v m r = w.v m r) ∧
    (∀ m, (w.put (.v n) t c).s m = w.s m) ∧ (∀ m, (w.put (.v n) t c).k m = w.k m)) ∧
  (∀ (w : Weft) (n : BitVec 6) t c, (w.put (.s n) t c).s n.toNat = c ∧ (∀ m, m ≠ n.toNat → (w.put (.s n) t c).s m = w.s m) ∧
    (∀ m r, (w.put (.s n) t c).v m r = w.v m r) ∧ (∀ m, (w.put (.s n) t c).k m = w.k m)) ∧
  (∀ (w : Weft) (n : BitVec 3) t c, n ≠ 0 → (w.put (.k n) t c).k n = c.val.truncate 32 &&& w.bits ∧
    (∀ m, m ≠ n → (w.put (.k n) t c).k m = w.k m) ∧ (∀ m, (w.put (.k n) t c).s m = w.s m) ∧
    (∀ m r, (w.put (.k n) t c).v m r = w.v m r))

/-! ## Memory at its home -/

/-- A range of memory that nothing else watches: its lines are sound in HBM and in L2, and no update-only copy, ordered sequence, draining
checkpoint, poll or mailbox waits on a write. -/
structure Calm (s : State) (pa n : Nat) : Prop where
  sound : ∀ l ∈ linesOf pa n, s.lineBad (l * 64) = false
  clean : ∀ l ∈ linesOf pa n, l ∉ s.l2Bad
  copies : ∀ p ∈ s.cores, p.2.upd = []
  sums : s.accs = [] ∧ s.contribs = []
  drains : s.ckpts = []
  polls : ∀ p ∈ s.wefts, p.2.flights = []
  boxes : ∀ p ∈ s.ctxs, p.2.mboxes = []

/-- R308, R310: a write performed at its home stores its bytes, low address first, and changes no other byte of memory and no other
state; the write that a core's buffer holds is performed so. -/
def Obligations.WritesReachMemory : Prop :=
  (∀ s pa (l : List Byte), l ≠ [] → Calm s pa l.length →
    (∀ i (h : i < l.length), Store.get 0 (s.homeWrite pa l).mem (pa + i) = l[i]) ∧
    (∀ a, a < pa ∨ pa + l.length ≤ a → Store.get 0 (s.homeWrite pa l).mem a = Store.get 0 s.mem a) ∧
    { s.homeWrite pa l with mem := s.mem } = s) ∧
  (∀ s core idx e, (s.core core).wbuf[idx]? = some e → s.canPerform (s.core core) idx e = true → e.data ≠ [] →
    Calm (s.setCore core { s.core core with wbuf := (s.core core).wbuf.eraseIdx idx }) e.pa e.data.length →
    ∃ t, exec (.homeSliceAccess core idx) s = .next t ∧
      (∀ i (h : i < e.data.length), Store.get 0 t.mem (e.pa + i) = e.data[i]) ∧
      (∀ a, a < e.pa ∨ e.pa + e.data.length ≤ a → Store.get 0 t.mem a = Store.get 0 s.mem a))

/-- R202, R310: an atomic performed at its home answers the bytes that stood there and stores its operation's result over them, and
changes no other byte and no other state. -/
def Obligations.AtomicsAtHome : Prop :=
  ∀ s op n flt pa a c1 asid, (n = 4 ∨ n = 8) → pa % n = 0 → Calm s pa n → ∃ t,
    s.homeAtom op n flt pa a c1 asid = (t, some (Store.readNat s.mem pa n)) ∧
    Store.readNat t.mem pa n = atomicNew op n flt (Store.readNat s.mem pa n) a c1 % 256 ^ n ∧
    (∀ b, b < pa ∨ pa + n ≤ b → Store.get 0 t.mem b = Store.get 0 s.mem b) ∧ { t with mem := s.mem } = s

/-! ## The whole device -/

/-- R452: a module that thermal step 4 has powered off takes no step. -/
def Obligations.PoweredOffStops : Prop := ∀ s, s.power.off = true → step s = .fault .poweredOff

/-- R91, R372, R373, R378, R388, R410, R448, R460, R461: what stands after reset where the manual says it. -/
def Obligations.ResetState : Prop :=
  State.reset.wefts = [] ∧ State.reset.spans = [] ∧ State.reset.tlb = [] ∧ State.reset.nextSeq = 1 ∧ State.reset.events = [] ∧
  (∀ a, (State.reset.ctx a).wdwin = 2000000 ∧ (State.reset.ctx a).trans = 0 ∧ (State.reset.ctx a).deleg = 0 ∧
    (State.reset.ctx a).peer = 0 ∧ (State.reset.ctx a).st = .free) ∧
  (∀ q, (State.reset.queue q).en = false ∧ (State.reset.queue q).widx = 0 ∧ (State.reset.queue q).ridx = 0 ∧ (State.reset.queue q).hwslot = 0 ∧
    (State.reset.queue q).drops = 0 ∧
    (State.reset.feed q).cap = 0) ∧
  State.reset.fab.cfg = 0 ∧ State.reset.fab.rto = 10000 ∧ State.reset.boot.bootst = 0 ∧ State.reset.power.pstep = 0 ∧
  State.reset.power.off = false ∧ State.reset.ltime = 0

/-- R4, R378 and the model's own form of memory: what every step keeps holds after reset. -/
def Obligations.ResetHasInvariant : Prop := State.reset.Inv

/-- R378: every step keeps memory in its canonical form and the events numbered from 1 without gaps or repeats. -/
def Obligations.StepKeepsInvariant : Prop := ∀ s t, s.Inv → step s = .next t → t.Inv

/-! ## Encodings -/

/-- R17 to R39 and the encoding tables: every instruction that the encodings can express decodes from its own bytes, whatever
bytes follow them, as itself and with its own length. -/
def Obligations.EncodeDecodeRoundTrip : Prop :=
  ∀ i : Instr, i.wf = true → ∃ e, encode i = some e ∧ ∀ rest, decodeBytes (e.bytes ++ rest) = .instr i e.t.size

/-- R17 to R39: what decodes is an instruction the encodings can express, and the bytes it was read from are its encoding: no bit
of an instruction goes unread. -/
def Obligations.DecodedBytesAreEncodings : Prop :=
  ∀ bs i n, decodeBytes bs = .instr i n → i.wf = true ∧ n ≤ bs.length ∧ encodeBytes i = some (bs.take n)

/-- The worked encodings of chapters 01, 04 and 06: the bytes that the manual writes out for `(!k2) FFMA.F32.RNE v5, v6:t, v7, v8`,
`IADD.I32 v9, v3, -16`, `ICMPK.LT.I32 k2, v1, 10`, `CVT.E4M3N.RNE v3, v2` and `LD.F32 v5, [b2, v4 + 16]` decode to these
instructions, and the IADD with its displaced field set is illegal. -/
def Obligations.WorkedWordsDecode : Prop :=
  decodeBytes [0x8D, 0xD0, 0x02, 0x83, 0x03, 0x84, 0x14, 0x00] =
    .instr (.ffma ⟨⟨0, false, true, 2⟩, .f32, .rne, .v 5, ⟨.v 6, true⟩, .reg ⟨.v 7, false⟩, ⟨.v 8, false⟩⟩) 8 ∧
  decodeBytes [0x06, 0x80, 0x84, 0x01, 0x00, 0x00, 0x04, 0x00, 0xF0, 0xFF, 0xFF, 0xFF] =
    .instr (.iadd ⟨⟨0, false, false, 0⟩, ⟨true, false, false⟩, .v 9, ⟨.v 3, false⟩, .imm 0xFFFFFFF0⟩) 12 ∧
  decodeBytes [0x06, 0x80, 0x84, 0x81, 0x01, 0x00, 0x04, 0x00, 0xF0, 0xFF, 0xFF, 0xFF] = .illegal ∧
  decodeBytes [0x2E, 0x00, 0xE1, 0x00, 0x00, 0x00, 0x44, 0x00, 0x0A, 0x00, 0x00, 0x00] =
    .instr (.icmpk ⟨⟨0, false, false, 0⟩, true, false, .lt, .k 2, ⟨.v 1, false⟩, .imm 10⟩) 12 ∧
  decodeBytes [0x01, 0x81, 0x01, 0x01, 0x00, 0x00, 0x6C, 0x00] =
    .instr (.cvt ⟨⟨0, false, false, 0⟩, 0xB, .rne, false, .v 3, ⟨.v 2, false⟩⟩) 8 ∧
  decodeBytes [0x02, 0x82, 0x02, 0x01, 0x02, 0x00, 0x10, 0x00, 0x10, 0x00, 0x00, 0x00] =
    .instr (.ld ⟨⟨0, false, false, 0⟩, 4, none, .v 5, 2, ⟨.v 4, false⟩, some 16⟩) 12
end

