-- ==== Sys2Proof/Laws/State.lean ====
section
/-! SUPPORT. What each named update of the state and of a weft leaves in each field: one lemma per field and update, true by
definition, so that no proof unfolds a record update. -/

namespace Sys2Proof.Machine

/-! ## `State.setWeft` -/

@[simp] theorem State.setWeft_agenda (s : State) (h : Nat) (x : Weft) : (s.setWeft h x).agenda = s.agenda := rfl
@[simp] theorem State.setWeft_cur (s : State) (h : Nat) (x : Weft) : (s.setWeft h x).cur = s.cur := rfl
@[simp] theorem State.setWeft_wefts (s : State) (h : Nat) (x : Weft) : (s.setWeft h x).wefts = Store.insert s.wefts h x := rfl
@[simp] theorem State.setWeft_bolts (s : State) (h : Nat) (x : Weft) : (s.setWeft h x).bolts = s.bolts := rfl
@[simp] theorem State.setWeft_courses (s : State) (h : Nat) (x : Weft) : (s.setWeft h x).courses = s.courses := rfl
@[simp] theorem State.setWeft_spans (s : State) (h : Nat) (x : Weft) : (s.setWeft h x).spans = s.spans := rfl
@[simp] theorem State.setWeft_cores (s : State) (h : Nat) (x : Weft) : (s.setWeft h x).cores = s.cores := rfl
@[simp] theorem State.setWeft_clusters (s : State) (h : Nat) (x : Weft) : (s.setWeft h x).clusters = s.clusters := rfl
@[simp] theorem State.setWeft_ctxs (s : State) (h : Nat) (x : Weft) : (s.setWeft h x).ctxs = s.ctxs := rfl
@[simp] theorem State.setWeft_mem (s : State) (h : Nat) (x : Weft) : (s.setWeft h x).mem = s.mem := rfl
@[simp] theorem State.setWeft_memBad (s : State) (h : Nat) (x : Weft) : (s.setWeft h x).memBad = s.memBad := rfl
@[simp] theorem State.setWeft_l2Bad (s : State) (h : Nat) (x : Weft) : (s.setWeft h x).l2Bad = s.l2Bad := rfl
@[simp] theorem State.setWeft_hubBad (s : State) (h : Nat) (x : Weft) : (s.setWeft h x).hubBad = s.hubBad := rfl
@[simp] theorem State.setWeft_aper (s : State) (h : Nat) (x : Weft) : (s.setWeft h x).aper = s.aper := rfl
@[simp] theorem State.setWeft_aperBad (s : State) (h : Nat) (x : Weft) : (s.setWeft h x).aperBad = s.aperBad := rfl
@[simp] theorem State.setWeft_lostStacks (s : State) (h : Nat) (x : Weft) : (s.setWeft h x).lostStacks = s.lostStacks := rfl
@[simp] theorem State.setWeft_deadDies (s : State) (h : Nat) (x : Weft) : (s.setWeft h x).deadDies = s.deadDies := rfl
@[simp] theorem State.setWeft_tlb (s : State) (h : Nat) (x : Weft) : (s.setWeft h x).tlb = s.tlb := rfl
@[simp] theorem State.setWeft_wcache (s : State) (h : Nat) (x : Weft) : (s.setWeft h x).wcache = s.wcache := rfl
@[simp] theorem State.setWeft_oldPages (s : State) (h : Nat) (x : Weft) : (s.setWeft h x).oldPages = s.oldPages := rfl
@[simp] theorem State.setWeft_invals (s : State) (h : Nat) (x : Weft) : (s.setWeft h x).invals = s.invals := rfl
@[simp] theorem State.setWeft_contribs (s : State) (h : Nat) (x : Weft) : (s.setWeft h x).contribs = s.contribs := rfl
@[simp] theorem State.setWeft_accs (s : State) (h : Nat) (x : Weft) : (s.setWeft h x).accs = s.accs := rfl
@[simp] theorem State.setWeft_queues (s : State) (h : Nat) (x : Weft) : (s.setWeft h x).queues = s.queues := rfl
@[simp] theorem State.setWeft_kicks (s : State) (h : Nat) (x : Weft) : (s.setWeft h x).kicks = s.kicks := rfl
@[simp] theorem State.setWeft_feTurn (s : State) (h : Nat) (x : Weft) : (s.setWeft h x).feTurn = s.feTurn := rfl
@[simp] theorem State.setWeft_feeds (s : State) (h : Nat) (x : Weft) : (s.setWeft h x).feeds = s.feeds := rfl
@[simp] theorem State.setWeft_nextSeq (s : State) (h : Nat) (x : Weft) : (s.setWeft h x).nextSeq = s.nextSeq := rfl
@[simp] theorem State.setWeft_events (s : State) (h : Nat) (x : Weft) : (s.setWeft h x).events = s.events := rfl
@[simp] theorem State.setWeft_evq (s : State) (h : Nat) (x : Weft) : (s.setWeft h x).evq = s.evq := rfl
@[simp] theorem State.setWeft_trapRing (s : State) (h : Nat) (x : Weft) : (s.setWeft h x).trapRing = s.trapRing := rfl
@[simp] theorem State.setWeft_evRing (s : State) (h : Nat) (x : Weft) : (s.setWeft h x).evRing = s.evRing := rfl
@[simp] theorem State.setWeft_harts (s : State) (h : Nat) (x : Weft) : (s.setWeft h x).harts = s.harts := rfl
@[simp] theorem State.setWeft_qcores (s : State) (h : Nat) (x : Weft) : (s.setWeft h x).qcores = s.qcores := rfl
@[simp] theorem State.setWeft_sup (s : State) (h : Nat) (x : Weft) : (s.setWeft h x).sup = s.sup := rfl
@[simp] theorem State.setWeft_boot (s : State) (h : Nat) (x : Weft) : (s.setWeft h x).boot = s.boot := rfl
@[simp] theorem State.setWeft_power (s : State) (h : Nat) (x : Weft) : (s.setWeft h x).power = s.power := rfl
@[simp] theorem State.setWeft_units (s : State) (h : Nat) (x : Weft) : (s.setWeft h x).units = s.units := rfl
@[simp] theorem State.setWeft_windows (s : State) (h : Nat) (x : Weft) : (s.setWeft h x).windows = s.windows := rfl
@[simp] theorem State.setWeft_repairs (s : State) (h : Nat) (x : Weft) : (s.setWeft h x).repairs = s.repairs := rfl
@[simp] theorem State.setWeft_degraded (s : State) (h : Nat) (x : Weft) : (s.setWeft h x).degraded = s.degraded := rfl
@[simp] theorem State.setWeft_errWait (s : State) (h : Nat) (x : Weft) : (s.setWeft h x).errWait = s.errWait := rfl
@[simp] theorem State.setWeft_errRing (s : State) (h : Nat) (x : Weft) : (s.setWeft h x).errRing = s.errRing := rfl
@[simp] theorem State.setWeft_fab (s : State) (h : Nat) (x : Weft) : (s.setWeft h x).fab = s.fab := rfl
@[simp] theorem State.setWeft_pulls (s : State) (h : Nat) (x : Weft) : (s.setWeft h x).pulls = s.pulls := rfl
@[simp] theorem State.setWeft_heldImages (s : State) (h : Nat) (x : Weft) : (s.setWeft h x).heldImages = s.heldImages := rfl
@[simp] theorem State.setWeft_holders (s : State) (h : Nat) (x : Weft) : (s.setWeft h x).holders = s.holders := rfl
@[simp] theorem State.setWeft_ckpts (s : State) (h : Nat) (x : Weft) : (s.setWeft h x).ckpts = s.ckpts := rfl
@[simp] theorem State.setWeft_ckptRegion (s : State) (h : Nat) (x : Weft) : (s.setWeft h x).ckptRegion = s.ckptRegion := rfl
@[simp] theorem State.setWeft_estimates (s : State) (h : Nat) (x : Weft) : (s.setWeft h x).estimates = s.estimates := rfl
@[simp] theorem State.setWeft_hubRegs (s : State) (h : Nat) (x : Weft) : (s.setWeft h x).hubRegs = s.hubRegs := rfl
@[simp] theorem State.setWeft_ltime (s : State) (h : Nat) (x : Weft) : (s.setWeft h x).ltime = s.ltime := rfl
@[simp] theorem State.setWeft_order (s : State) (h : Nat) (x : Weft) : (s.setWeft h x).order = s.order := rfl
@[simp] theorem State.setWeft_free (s : State) (h : Nat) (x : Weft) : (s.setWeft h x).free = s.free := rfl

/-! ## `State.setBolt` -/

@[simp] theorem State.setBolt_agenda (s : State) (h : Nat) (x : Bolt) : (s.setBolt h x).agenda = s.agenda := rfl
@[simp] theorem State.setBolt_cur (s : State) (h : Nat) (x : Bolt) : (s.setBolt h x).cur = s.cur := rfl
@[simp] theorem State.setBolt_wefts (s : State) (h : Nat) (x : Bolt) : (s.setBolt h x).wefts = s.wefts := rfl
@[simp] theorem State.setBolt_bolts (s : State) (h : Nat) (x : Bolt) : (s.setBolt h x).bolts = Store.insert s.bolts h x := rfl
@[simp] theorem State.setBolt_courses (s : State) (h : Nat) (x : Bolt) : (s.setBolt h x).courses = s.courses := rfl
@[simp] theorem State.setBolt_spans (s : State) (h : Nat) (x : Bolt) : (s.setBolt h x).spans = s.spans := rfl
@[simp] theorem State.setBolt_cores (s : State) (h : Nat) (x : Bolt) : (s.setBolt h x).cores = s.cores := rfl
@[simp] theorem State.setBolt_clusters (s : State) (h : Nat) (x : Bolt) : (s.setBolt h x).clusters = s.clusters := rfl
@[simp] theorem State.setBolt_ctxs (s : State) (h : Nat) (x : Bolt) : (s.setBolt h x).ctxs = s.ctxs := rfl
@[simp] theorem State.setBolt_mem (s : State) (h : Nat) (x : Bolt) : (s.setBolt h x).mem = s.mem := rfl
@[simp] theorem State.setBolt_memBad (s : State) (h : Nat) (x : Bolt) : (s.setBolt h x).memBad = s.memBad := rfl
@[simp] theorem State.setBolt_l2Bad (s : State) (h : Nat) (x : Bolt) : (s.setBolt h x).l2Bad = s.l2Bad := rfl
@[simp] theorem State.setBolt_hubBad (s : State) (h : Nat) (x : Bolt) : (s.setBolt h x).hubBad = s.hubBad := rfl
@[simp] theorem State.setBolt_aper (s : State) (h : Nat) (x : Bolt) : (s.setBolt h x).aper = s.aper := rfl
@[simp] theorem State.setBolt_aperBad (s : State) (h : Nat) (x : Bolt) : (s.setBolt h x).aperBad = s.aperBad := rfl
@[simp] theorem State.setBolt_lostStacks (s : State) (h : Nat) (x : Bolt) : (s.setBolt h x).lostStacks = s.lostStacks := rfl
@[simp] theorem State.setBolt_deadDies (s : State) (h : Nat) (x : Bolt) : (s.setBolt h x).deadDies = s.deadDies := rfl
@[simp] theorem State.setBolt_tlb (s : State) (h : Nat) (x : Bolt) : (s.setBolt h x).tlb = s.tlb := rfl
@[simp] theorem State.setBolt_wcache (s : State) (h : Nat) (x : Bolt) : (s.setBolt h x).wcache = s.wcache := rfl
@[simp] theorem State.setBolt_oldPages (s : State) (h : Nat) (x : Bolt) : (s.setBolt h x).oldPages = s.oldPages := rfl
@[simp] theorem State.setBolt_invals (s : State) (h : Nat) (x : Bolt) : (s.setBolt h x).invals = s.invals := rfl
@[simp] theorem State.setBolt_contribs (s : State) (h : Nat) (x : Bolt) : (s.setBolt h x).contribs = s.contribs := rfl
@[simp] theorem State.setBolt_accs (s : State) (h : Nat) (x : Bolt) : (s.setBolt h x).accs = s.accs := rfl
@[simp] theorem State.setBolt_queues (s : State) (h : Nat) (x : Bolt) : (s.setBolt h x).queues = s.queues := rfl
@[simp] theorem State.setBolt_kicks (s : State) (h : Nat) (x : Bolt) : (s.setBolt h x).kicks = s.kicks := rfl
@[simp] theorem State.setBolt_feTurn (s : State) (h : Nat) (x : Bolt) : (s.setBolt h x).feTurn = s.feTurn := rfl
@[simp] theorem State.setBolt_feeds (s : State) (h : Nat) (x : Bolt) : (s.setBolt h x).feeds = s.feeds := rfl
@[simp] theorem State.setBolt_nextSeq (s : State) (h : Nat) (x : Bolt) : (s.setBolt h x).nextSeq = s.nextSeq := rfl
@[simp] theorem State.setBolt_events (s : State) (h : Nat) (x : Bolt) : (s.setBolt h x).events = s.events := rfl
@[simp] theorem State.setBolt_evq (s : State) (h : Nat) (x : Bolt) : (s.setBolt h x).evq = s.evq := rfl
@[simp] theorem State.setBolt_trapRing (s : State) (h : Nat) (x : Bolt) : (s.setBolt h x).trapRing = s.trapRing := rfl
@[simp] theorem State.setBolt_evRing (s : State) (h : Nat) (x : Bolt) : (s.setBolt h x).evRing = s.evRing := rfl
@[simp] theorem State.setBolt_harts (s : State) (h : Nat) (x : Bolt) : (s.setBolt h x).harts = s.harts := rfl
@[simp] theorem State.setBolt_qcores (s : State) (h : Nat) (x : Bolt) : (s.setBolt h x).qcores = s.qcores := rfl
@[simp] theorem State.setBolt_sup (s : State) (h : Nat) (x : Bolt) : (s.setBolt h x).sup = s.sup := rfl
@[simp] theorem State.setBolt_boot (s : State) (h : Nat) (x : Bolt) : (s.setBolt h x).boot = s.boot := rfl
@[simp] theorem State.setBolt_power (s : State) (h : Nat) (x : Bolt) : (s.setBolt h x).power = s.power := rfl
@[simp] theorem State.setBolt_units (s : State) (h : Nat) (x : Bolt) : (s.setBolt h x).units = s.units := rfl
@[simp] theorem State.setBolt_windows (s : State) (h : Nat) (x : Bolt) : (s.setBolt h x).windows = s.windows := rfl
@[simp] theorem State.setBolt_repairs (s : State) (h : Nat) (x : Bolt) : (s.setBolt h x).repairs = s.repairs := rfl
@[simp] theorem State.setBolt_degraded (s : State) (h : Nat) (x : Bolt) : (s.setBolt h x).degraded = s.degraded := rfl
@[simp] theorem State.setBolt_errWait (s : State) (h : Nat) (x : Bolt) : (s.setBolt h x).errWait = s.errWait := rfl
@[simp] theorem State.setBolt_errRing (s : State) (h : Nat) (x : Bolt) : (s.setBolt h x).errRing = s.errRing := rfl
@[simp] theorem State.setBolt_fab (s : State) (h : Nat) (x : Bolt) : (s.setBolt h x).fab = s.fab := rfl
@[simp] theorem State.setBolt_pulls (s : State) (h : Nat) (x : Bolt) : (s.setBolt h x).pulls = s.pulls := rfl
@[simp] theorem State.setBolt_heldImages (s : State) (h : Nat) (x : Bolt) : (s.setBolt h x).heldImages = s.heldImages := rfl
@[simp] theorem State.setBolt_holders (s : State) (h : Nat) (x : Bolt) : (s.setBolt h x).holders = s.holders := rfl
@[simp] theorem State.setBolt_ckpts (s : State) (h : Nat) (x : Bolt) : (s.setBolt h x).ckpts = s.ckpts := rfl
@[simp] theorem State.setBolt_ckptRegion (s : State) (h : Nat) (x : Bolt) : (s.setBolt h x).ckptRegion = s.ckptRegion := rfl
@[simp] theorem State.setBolt_estimates (s : State) (h : Nat) (x : Bolt) : (s.setBolt h x).estimates = s.estimates := rfl
@[simp] theorem State.setBolt_hubRegs (s : State) (h : Nat) (x : Bolt) : (s.setBolt h x).hubRegs = s.hubRegs := rfl
@[simp] theorem State.setBolt_ltime (s : State) (h : Nat) (x : Bolt) : (s.setBolt h x).ltime = s.ltime := rfl
@[simp] theorem State.setBolt_order (s : State) (h : Nat) (x : Bolt) : (s.setBolt h x).order = s.order := rfl
@[simp] theorem State.setBolt_free (s : State) (h : Nat) (x : Bolt) : (s.setBolt h x).free = s.free := rfl

/-! ## `State.setCourse` -/

@[simp] theorem State.setCourse_agenda (s : State) (h : Nat) (x : Course) : (s.setCourse h x).agenda = s.agenda := rfl
@[simp] theorem State.setCourse_cur (s : State) (h : Nat) (x : Course) : (s.setCourse h x).cur = s.cur := rfl
@[simp] theorem State.setCourse_wefts (s : State) (h : Nat) (x : Course) : (s.setCourse h x).wefts = s.wefts := rfl
@[simp] theorem State.setCourse_bolts (s : State) (h : Nat) (x : Course) : (s.setCourse h x).bolts = s.bolts := rfl
@[simp] theorem State.setCourse_courses (s : State) (h : Nat) (x : Course) : (s.setCourse h x).courses = Store.insert s.courses h x := rfl
@[simp] theorem State.setCourse_spans (s : State) (h : Nat) (x : Course) : (s.setCourse h x).spans = s.spans := rfl
@[simp] theorem State.setCourse_cores (s : State) (h : Nat) (x : Course) : (s.setCourse h x).cores = s.cores := rfl
@[simp] theorem State.setCourse_clusters (s : State) (h : Nat) (x : Course) : (s.setCourse h x).clusters = s.clusters := rfl
@[simp] theorem State.setCourse_ctxs (s : State) (h : Nat) (x : Course) : (s.setCourse h x).ctxs = s.ctxs := rfl
@[simp] theorem State.setCourse_mem (s : State) (h : Nat) (x : Course) : (s.setCourse h x).mem = s.mem := rfl
@[simp] theorem State.setCourse_memBad (s : State) (h : Nat) (x : Course) : (s.setCourse h x).memBad = s.memBad := rfl
@[simp] theorem State.setCourse_l2Bad (s : State) (h : Nat) (x : Course) : (s.setCourse h x).l2Bad = s.l2Bad := rfl
@[simp] theorem State.setCourse_hubBad (s : State) (h : Nat) (x : Course) : (s.setCourse h x).hubBad = s.hubBad := rfl
@[simp] theorem State.setCourse_aper (s : State) (h : Nat) (x : Course) : (s.setCourse h x).aper = s.aper := rfl
@[simp] theorem State.setCourse_aperBad (s : State) (h : Nat) (x : Course) : (s.setCourse h x).aperBad = s.aperBad := rfl
@[simp] theorem State.setCourse_lostStacks (s : State) (h : Nat) (x : Course) : (s.setCourse h x).lostStacks = s.lostStacks := rfl
@[simp] theorem State.setCourse_deadDies (s : State) (h : Nat) (x : Course) : (s.setCourse h x).deadDies = s.deadDies := rfl
@[simp] theorem State.setCourse_tlb (s : State) (h : Nat) (x : Course) : (s.setCourse h x).tlb = s.tlb := rfl
@[simp] theorem State.setCourse_wcache (s : State) (h : Nat) (x : Course) : (s.setCourse h x).wcache = s.wcache := rfl
@[simp] theorem State.setCourse_oldPages (s : State) (h : Nat) (x : Course) : (s.setCourse h x).oldPages = s.oldPages := rfl
@[simp] theorem State.setCourse_invals (s : State) (h : Nat) (x : Course) : (s.setCourse h x).invals = s.invals := rfl
@[simp] theorem State.setCourse_contribs (s : State) (h : Nat) (x : Course) : (s.setCourse h x).contribs = s.contribs := rfl
@[simp] theorem State.setCourse_accs (s : State) (h : Nat) (x : Course) : (s.setCourse h x).accs = s.accs := rfl
@[simp] theorem State.setCourse_queues (s : State) (h : Nat) (x : Course) : (s.setCourse h x).queues = s.queues := rfl
@[simp] theorem State.setCourse_kicks (s : State) (h : Nat) (x : Course) : (s.setCourse h x).kicks = s.kicks := rfl
@[simp] theorem State.setCourse_feTurn (s : State) (h : Nat) (x : Course) : (s.setCourse h x).feTurn = s.feTurn := rfl
@[simp] theorem State.setCourse_feeds (s : State) (h : Nat) (x : Course) : (s.setCourse h x).feeds = s.feeds := rfl
@[simp] theorem State.setCourse_nextSeq (s : State) (h : Nat) (x : Course) : (s.setCourse h x).nextSeq = s.nextSeq := rfl
@[simp] theorem State.setCourse_events (s : State) (h : Nat) (x : Course) : (s.setCourse h x).events = s.events := rfl
@[simp] theorem State.setCourse_evq (s : State) (h : Nat) (x : Course) : (s.setCourse h x).evq = s.evq := rfl
@[simp] theorem State.setCourse_trapRing (s : State) (h : Nat) (x : Course) : (s.setCourse h x).trapRing = s.trapRing := rfl
@[simp] theorem State.setCourse_evRing (s : State) (h : Nat) (x : Course) : (s.setCourse h x).evRing = s.evRing := rfl
@[simp] theorem State.setCourse_harts (s : State) (h : Nat) (x : Course) : (s.setCourse h x).harts = s.harts := rfl
@[simp] theorem State.setCourse_qcores (s : State) (h : Nat) (x : Course) : (s.setCourse h x).qcores = s.qcores := rfl
@[simp] theorem State.setCourse_sup (s : State) (h : Nat) (x : Course) : (s.setCourse h x).sup = s.sup := rfl
@[simp] theorem State.setCourse_boot (s : State) (h : Nat) (x : Course) : (s.setCourse h x).boot = s.boot := rfl
@[simp] theorem State.setCourse_power (s : State) (h : Nat) (x : Course) : (s.setCourse h x).power = s.power := rfl
@[simp] theorem State.setCourse_units (s : State) (h : Nat) (x : Course) : (s.setCourse h x).units = s.units := rfl
@[simp] theorem State.setCourse_windows (s : State) (h : Nat) (x : Course) : (s.setCourse h x).windows = s.windows := rfl
@[simp] theorem State.setCourse_repairs (s : State) (h : Nat) (x : Course) : (s.setCourse h x).repairs = s.repairs := rfl
@[simp] theorem State.setCourse_degraded (s : State) (h : Nat) (x : Course) : (s.setCourse h x).degraded = s.degraded := rfl
@[simp] theorem State.setCourse_errWait (s : State) (h : Nat) (x : Course) : (s.setCourse h x).errWait = s.errWait := rfl
@[simp] theorem State.setCourse_errRing (s : State) (h : Nat) (x : Course) : (s.setCourse h x).errRing = s.errRing := rfl
@[simp] theorem State.setCourse_fab (s : State) (h : Nat) (x : Course) : (s.setCourse h x).fab = s.fab := rfl
@[simp] theorem State.setCourse_pulls (s : State) (h : Nat) (x : Course) : (s.setCourse h x).pulls = s.pulls := rfl
@[simp] theorem State.setCourse_heldImages (s : State) (h : Nat) (x : Course) : (s.setCourse h x).heldImages = s.heldImages := rfl
@[simp] theorem State.setCourse_holders (s : State) (h : Nat) (x : Course) : (s.setCourse h x).holders = s.holders := rfl
@[simp] theorem State.setCourse_ckpts (s : State) (h : Nat) (x : Course) : (s.setCourse h x).ckpts = s.ckpts := rfl
@[simp] theorem State.setCourse_ckptRegion (s : State) (h : Nat) (x : Course) : (s.setCourse h x).ckptRegion = s.ckptRegion := rfl
@[simp] theorem State.setCourse_estimates (s : State) (h : Nat) (x : Course) : (s.setCourse h x).estimates = s.estimates := rfl
@[simp] theorem State.setCourse_hubRegs (s : State) (h : Nat) (x : Course) : (s.setCourse h x).hubRegs = s.hubRegs := rfl
@[simp] theorem State.setCourse_ltime (s : State) (h : Nat) (x : Course) : (s.setCourse h x).ltime = s.ltime := rfl
@[simp] theorem State.setCourse_order (s : State) (h : Nat) (x : Course) : (s.setCourse h x).order = s.order := rfl
@[simp] theorem State.setCourse_free (s : State) (h : Nat) (x : Course) : (s.setCourse h x).free = s.free := rfl

/-! ## `State.setSpan` -/

@[simp] theorem State.setSpan_agenda (s : State) (h : Nat) (x : Span) : (s.setSpan h x).agenda = s.agenda := rfl
@[simp] theorem State.setSpan_cur (s : State) (h : Nat) (x : Span) : (s.setSpan h x).cur = s.cur := rfl
@[simp] theorem State.setSpan_wefts (s : State) (h : Nat) (x : Span) : (s.setSpan h x).wefts = s.wefts := rfl
@[simp] theorem State.setSpan_bolts (s : State) (h : Nat) (x : Span) : (s.setSpan h x).bolts = s.bolts := rfl
@[simp] theorem State.setSpan_courses (s : State) (h : Nat) (x : Span) : (s.setSpan h x).courses = s.courses := rfl
@[simp] theorem State.setSpan_spans (s : State) (h : Nat) (x : Span) : (s.setSpan h x).spans = Store.insert s.spans h x := rfl
@[simp] theorem State.setSpan_cores (s : State) (h : Nat) (x : Span) : (s.setSpan h x).cores = s.cores := rfl
@[simp] theorem State.setSpan_clusters (s : State) (h : Nat) (x : Span) : (s.setSpan h x).clusters = s.clusters := rfl
@[simp] theorem State.setSpan_ctxs (s : State) (h : Nat) (x : Span) : (s.setSpan h x).ctxs = s.ctxs := rfl
@[simp] theorem State.setSpan_mem (s : State) (h : Nat) (x : Span) : (s.setSpan h x).mem = s.mem := rfl
@[simp] theorem State.setSpan_memBad (s : State) (h : Nat) (x : Span) : (s.setSpan h x).memBad = s.memBad := rfl
@[simp] theorem State.setSpan_l2Bad (s : State) (h : Nat) (x : Span) : (s.setSpan h x).l2Bad = s.l2Bad := rfl
@[simp] theorem State.setSpan_hubBad (s : State) (h : Nat) (x : Span) : (s.setSpan h x).hubBad = s.hubBad := rfl
@[simp] theorem State.setSpan_aper (s : State) (h : Nat) (x : Span) : (s.setSpan h x).aper = s.aper := rfl
@[simp] theorem State.setSpan_aperBad (s : State) (h : Nat) (x : Span) : (s.setSpan h x).aperBad = s.aperBad := rfl
@[simp] theorem State.setSpan_lostStacks (s : State) (h : Nat) (x : Span) : (s.setSpan h x).lostStacks = s.lostStacks := rfl
@[simp] theorem State.setSpan_deadDies (s : State) (h : Nat) (x : Span) : (s.setSpan h x).deadDies = s.deadDies := rfl
@[simp] theorem State.setSpan_tlb (s : State) (h : Nat) (x : Span) : (s.setSpan h x).tlb = s.tlb := rfl
@[simp] theorem State.setSpan_wcache (s : State) (h : Nat) (x : Span) : (s.setSpan h x).wcache = s.wcache := rfl
@[simp] theorem State.setSpan_oldPages (s : State) (h : Nat) (x : Span) : (s.setSpan h x).oldPages = s.oldPages := rfl
@[simp] theorem State.setSpan_invals (s : State) (h : Nat) (x : Span) : (s.setSpan h x).invals = s.invals := rfl
@[simp] theorem State.setSpan_contribs (s : State) (h : Nat) (x : Span) : (s.setSpan h x).contribs = s.contribs := rfl
@[simp] theorem State.setSpan_accs (s : State) (h : Nat) (x : Span) : (s.setSpan h x).accs = s.accs := rfl
@[simp] theorem State.setSpan_queues (s : State) (h : Nat) (x : Span) : (s.setSpan h x).queues = s.queues := rfl
@[simp] theorem State.setSpan_kicks (s : State) (h : Nat) (x : Span) : (s.setSpan h x).kicks = s.kicks := rfl
@[simp] theorem State.setSpan_feTurn (s : State) (h : Nat) (x : Span) : (s.setSpan h x).feTurn = s.feTurn := rfl
@[simp] theorem State.setSpan_feeds (s : State) (h : Nat) (x : Span) : (s.setSpan h x).feeds = s.feeds := rfl
@[simp] theorem State.setSpan_nextSeq (s : State) (h : Nat) (x : Span) : (s.setSpan h x).nextSeq = s.nextSeq := rfl
@[simp] theorem State.setSpan_events (s : State) (h : Nat) (x : Span) : (s.setSpan h x).events = s.events := rfl
@[simp] theorem State.setSpan_evq (s : State) (h : Nat) (x : Span) : (s.setSpan h x).evq = s.evq := rfl
@[simp] theorem State.setSpan_trapRing (s : State) (h : Nat) (x : Span) : (s.setSpan h x).trapRing = s.trapRing := rfl
@[simp] theorem State.setSpan_evRing (s : State) (h : Nat) (x : Span) : (s.setSpan h x).evRing = s.evRing := rfl
@[simp] theorem State.setSpan_harts (s : State) (h : Nat) (x : Span) : (s.setSpan h x).harts = s.harts := rfl
@[simp] theorem State.setSpan_qcores (s : State) (h : Nat) (x : Span) : (s.setSpan h x).qcores = s.qcores := rfl
@[simp] theorem State.setSpan_sup (s : State) (h : Nat) (x : Span) : (s.setSpan h x).sup = s.sup := rfl
@[simp] theorem State.setSpan_boot (s : State) (h : Nat) (x : Span) : (s.setSpan h x).boot = s.boot := rfl
@[simp] theorem State.setSpan_power (s : State) (h : Nat) (x : Span) : (s.setSpan h x).power = s.power := rfl
@[simp] theorem State.setSpan_units (s : State) (h : Nat) (x : Span) : (s.setSpan h x).units = s.units := rfl
@[simp] theorem State.setSpan_windows (s : State) (h : Nat) (x : Span) : (s.setSpan h x).windows = s.windows := rfl
@[simp] theorem State.setSpan_repairs (s : State) (h : Nat) (x : Span) : (s.setSpan h x).repairs = s.repairs := rfl
@[simp] theorem State.setSpan_degraded (s : State) (h : Nat) (x : Span) : (s.setSpan h x).degraded = s.degraded := rfl
@[simp] theorem State.setSpan_errWait (s : State) (h : Nat) (x : Span) : (s.setSpan h x).errWait = s.errWait := rfl
@[simp] theorem State.setSpan_errRing (s : State) (h : Nat) (x : Span) : (s.setSpan h x).errRing = s.errRing := rfl
@[simp] theorem State.setSpan_fab (s : State) (h : Nat) (x : Span) : (s.setSpan h x).fab = s.fab := rfl
@[simp] theorem State.setSpan_pulls (s : State) (h : Nat) (x : Span) : (s.setSpan h x).pulls = s.pulls := rfl
@[simp] theorem State.setSpan_heldImages (s : State) (h : Nat) (x : Span) : (s.setSpan h x).heldImages = s.heldImages := rfl
@[simp] theorem State.setSpan_holders (s : State) (h : Nat) (x : Span) : (s.setSpan h x).holders = s.holders := rfl
@[simp] theorem State.setSpan_ckpts (s : State) (h : Nat) (x : Span) : (s.setSpan h x).ckpts = s.ckpts := rfl
@[simp] theorem State.setSpan_ckptRegion (s : State) (h : Nat) (x : Span) : (s.setSpan h x).ckptRegion = s.ckptRegion := rfl
@[simp] theorem State.setSpan_estimates (s : State) (h : Nat) (x : Span) : (s.setSpan h x).estimates = s.estimates := rfl
@[simp] theorem State.setSpan_hubRegs (s : State) (h : Nat) (x : Span) : (s.setSpan h x).hubRegs = s.hubRegs := rfl
@[simp] theorem State.setSpan_ltime (s : State) (h : Nat) (x : Span) : (s.setSpan h x).ltime = s.ltime := rfl
@[simp] theorem State.setSpan_order (s : State) (h : Nat) (x : Span) : (s.setSpan h x).order = s.order := rfl
@[simp] theorem State.setSpan_free (s : State) (h : Nat) (x : Span) : (s.setSpan h x).free = s.free := rfl

/-! ## `State.setCore` -/

@[simp] theorem State.setCore_agenda (s : State) (n : Nat) (x : Core) : (s.setCore n x).agenda = s.agenda := rfl
@[simp] theorem State.setCore_cur (s : State) (n : Nat) (x : Core) : (s.setCore n x).cur = s.cur := rfl
@[simp] theorem State.setCore_wefts (s : State) (n : Nat) (x : Core) : (s.setCore n x).wefts = s.wefts := rfl
@[simp] theorem State.setCore_bolts (s : State) (n : Nat) (x : Core) : (s.setCore n x).bolts = s.bolts := rfl
@[simp] theorem State.setCore_courses (s : State) (n : Nat) (x : Core) : (s.setCore n x).courses = s.courses := rfl
@[simp] theorem State.setCore_spans (s : State) (n : Nat) (x : Core) : (s.setCore n x).spans = s.spans := rfl
@[simp] theorem State.setCore_cores (s : State) (n : Nat) (x : Core) : (s.setCore n x).cores = Store.insert s.cores n x := rfl
@[simp] theorem State.setCore_clusters (s : State) (n : Nat) (x : Core) : (s.setCore n x).clusters = s.clusters := rfl
@[simp] theorem State.setCore_ctxs (s : State) (n : Nat) (x : Core) : (s.setCore n x).ctxs = s.ctxs := rfl
@[simp] theorem State.setCore_mem (s : State) (n : Nat) (x : Core) : (s.setCore n x).mem = s.mem := rfl
@[simp] theorem State.setCore_memBad (s : State) (n : Nat) (x : Core) : (s.setCore n x).memBad = s.memBad := rfl
@[simp] theorem State.setCore_l2Bad (s : State) (n : Nat) (x : Core) : (s.setCore n x).l2Bad = s.l2Bad := rfl
@[simp] theorem State.setCore_hubBad (s : State) (n : Nat) (x : Core) : (s.setCore n x).hubBad = s.hubBad := rfl
@[simp] theorem State.setCore_aper (s : State) (n : Nat) (x : Core) : (s.setCore n x).aper = s.aper := rfl
@[simp] theorem State.setCore_aperBad (s : State) (n : Nat) (x : Core) : (s.setCore n x).aperBad = s.aperBad := rfl
@[simp] theorem State.setCore_lostStacks (s : State) (n : Nat) (x : Core) : (s.setCore n x).lostStacks = s.lostStacks := rfl
@[simp] theorem State.setCore_deadDies (s : State) (n : Nat) (x : Core) : (s.setCore n x).deadDies = s.deadDies := rfl
@[simp] theorem State.setCore_tlb (s : State) (n : Nat) (x : Core) : (s.setCore n x).tlb = s.tlb := rfl
@[simp] theorem State.setCore_wcache (s : State) (n : Nat) (x : Core) : (s.setCore n x).wcache = s.wcache := rfl
@[simp] theorem State.setCore_oldPages (s : State) (n : Nat) (x : Core) : (s.setCore n x).oldPages = s.oldPages := rfl
@[simp] theorem State.setCore_invals (s : State) (n : Nat) (x : Core) : (s.setCore n x).invals = s.invals := rfl
@[simp] theorem State.setCore_contribs (s : State) (n : Nat) (x : Core) : (s.setCore n x).contribs = s.contribs := rfl
@[simp] theorem State.setCore_accs (s : State) (n : Nat) (x : Core) : (s.setCore n x).accs = s.accs := rfl
@[simp] theorem State.setCore_queues (s : State) (n : Nat) (x : Core) : (s.setCore n x).queues = s.queues := rfl
@[simp] theorem State.setCore_kicks (s : State) (n : Nat) (x : Core) : (s.setCore n x).kicks = s.kicks := rfl
@[simp] theorem State.setCore_feTurn (s : State) (n : Nat) (x : Core) : (s.setCore n x).feTurn = s.feTurn := rfl
@[simp] theorem State.setCore_feeds (s : State) (n : Nat) (x : Core) : (s.setCore n x).feeds = s.feeds := rfl
@[simp] theorem State.setCore_nextSeq (s : State) (n : Nat) (x : Core) : (s.setCore n x).nextSeq = s.nextSeq := rfl
@[simp] theorem State.setCore_events (s : State) (n : Nat) (x : Core) : (s.setCore n x).events = s.events := rfl
@[simp] theorem State.setCore_evq (s : State) (n : Nat) (x : Core) : (s.setCore n x).evq = s.evq := rfl
@[simp] theorem State.setCore_trapRing (s : State) (n : Nat) (x : Core) : (s.setCore n x).trapRing = s.trapRing := rfl
@[simp] theorem State.setCore_evRing (s : State) (n : Nat) (x : Core) : (s.setCore n x).evRing = s.evRing := rfl
@[simp] theorem State.setCore_harts (s : State) (n : Nat) (x : Core) : (s.setCore n x).harts = s.harts := rfl
@[simp] theorem State.setCore_qcores (s : State) (n : Nat) (x : Core) : (s.setCore n x).qcores = s.qcores := rfl
@[simp] theorem State.setCore_sup (s : State) (n : Nat) (x : Core) : (s.setCore n x).sup = s.sup := rfl
@[simp] theorem State.setCore_boot (s : State) (n : Nat) (x : Core) : (s.setCore n x).boot = s.boot := rfl
@[simp] theorem State.setCore_power (s : State) (n : Nat) (x : Core) : (s.setCore n x).power = s.power := rfl
@[simp] theorem State.setCore_units (s : State) (n : Nat) (x : Core) : (s.setCore n x).units = s.units := rfl
@[simp] theorem State.setCore_windows (s : State) (n : Nat) (x : Core) : (s.setCore n x).windows = s.windows := rfl
@[simp] theorem State.setCore_repairs (s : State) (n : Nat) (x : Core) : (s.setCore n x).repairs = s.repairs := rfl
@[simp] theorem State.setCore_degraded (s : State) (n : Nat) (x : Core) : (s.setCore n x).degraded = s.degraded := rfl
@[simp] theorem State.setCore_errWait (s : State) (n : Nat) (x : Core) : (s.setCore n x).errWait = s.errWait := rfl
@[simp] theorem State.setCore_errRing (s : State) (n : Nat) (x : Core) : (s.setCore n x).errRing = s.errRing := rfl
@[simp] theorem State.setCore_fab (s : State) (n : Nat) (x : Core) : (s.setCore n x).fab = s.fab := rfl
@[simp] theorem State.setCore_pulls (s : State) (n : Nat) (x : Core) : (s.setCore n x).pulls = s.pulls := rfl
@[simp] theorem State.setCore_heldImages (s : State) (n : Nat) (x : Core) : (s.setCore n x).heldImages = s.heldImages := rfl
@[simp] theorem State.setCore_holders (s : State) (n : Nat) (x : Core) : (s.setCore n x).holders = s.holders := rfl
@[simp] theorem State.setCore_ckpts (s : State) (n : Nat) (x : Core) : (s.setCore n x).ckpts = s.ckpts := rfl
@[simp] theorem State.setCore_ckptRegion (s : State) (n : Nat) (x : Core) : (s.setCore n x).ckptRegion = s.ckptRegion := rfl
@[simp] theorem State.setCore_estimates (s : State) (n : Nat) (x : Core) : (s.setCore n x).estimates = s.estimates := rfl
@[simp] theorem State.setCore_hubRegs (s : State) (n : Nat) (x : Core) : (s.setCore n x).hubRegs = s.hubRegs := rfl
@[simp] theorem State.setCore_ltime (s : State) (n : Nat) (x : Core) : (s.setCore n x).ltime = s.ltime := rfl
@[simp] theorem State.setCore_order (s : State) (n : Nat) (x : Core) : (s.setCore n x).order = s.order := rfl
@[simp] theorem State.setCore_free (s : State) (n : Nat) (x : Core) : (s.setCore n x).free = s.free := rfl

/-! ## `State.setCtx` -/

@[simp] theorem State.setCtx_agenda (s : State) (asid : Nat) (x : Ctx) : (s.setCtx asid x).agenda = s.agenda := rfl
@[simp] theorem State.setCtx_cur (s : State) (asid : Nat) (x : Ctx) : (s.setCtx asid x).cur = s.cur := rfl
@[simp] theorem State.setCtx_wefts (s : State) (asid : Nat) (x : Ctx) : (s.setCtx asid x).wefts = s.wefts := rfl
@[simp] theorem State.setCtx_bolts (s : State) (asid : Nat) (x : Ctx) : (s.setCtx asid x).bolts = s.bolts := rfl
@[simp] theorem State.setCtx_courses (s : State) (asid : Nat) (x : Ctx) : (s.setCtx asid x).courses = s.courses := rfl
@[simp] theorem State.setCtx_spans (s : State) (asid : Nat) (x : Ctx) : (s.setCtx asid x).spans = s.spans := rfl
@[simp] theorem State.setCtx_cores (s : State) (asid : Nat) (x : Ctx) : (s.setCtx asid x).cores = s.cores := rfl
@[simp] theorem State.setCtx_clusters (s : State) (asid : Nat) (x : Ctx) : (s.setCtx asid x).clusters = s.clusters := rfl
@[simp] theorem State.setCtx_ctxs (s : State) (asid : Nat) (x : Ctx) : (s.setCtx asid x).ctxs = Store.insert s.ctxs asid x := rfl
@[simp] theorem State.setCtx_mem (s : State) (asid : Nat) (x : Ctx) : (s.setCtx asid x).mem = s.mem := rfl
@[simp] theorem State.setCtx_memBad (s : State) (asid : Nat) (x : Ctx) : (s.setCtx asid x).memBad = s.memBad := rfl
@[simp] theorem State.setCtx_l2Bad (s : State) (asid : Nat) (x : Ctx) : (s.setCtx asid x).l2Bad = s.l2Bad := rfl
@[simp] theorem State.setCtx_hubBad (s : State) (asid : Nat) (x : Ctx) : (s.setCtx asid x).hubBad = s.hubBad := rfl
@[simp] theorem State.setCtx_aper (s : State) (asid : Nat) (x : Ctx) : (s.setCtx asid x).aper = s.aper := rfl
@[simp] theorem State.setCtx_aperBad (s : State) (asid : Nat) (x : Ctx) : (s.setCtx asid x).aperBad = s.aperBad := rfl
@[simp] theorem State.setCtx_lostStacks (s : State) (asid : Nat) (x : Ctx) : (s.setCtx asid x).lostStacks = s.lostStacks := rfl
@[simp] theorem State.setCtx_deadDies (s : State) (asid : Nat) (x : Ctx) : (s.setCtx asid x).deadDies = s.deadDies := rfl
@[simp] theorem State.setCtx_tlb (s : State) (asid : Nat) (x : Ctx) : (s.setCtx asid x).tlb = s.tlb := rfl
@[simp] theorem State.setCtx_wcache (s : State) (asid : Nat) (x : Ctx) : (s.setCtx asid x).wcache = s.wcache := rfl
@[simp] theorem State.setCtx_oldPages (s : State) (asid : Nat) (x : Ctx) : (s.setCtx asid x).oldPages = s.oldPages := rfl
@[simp] theorem State.setCtx_invals (s : State) (asid : Nat) (x : Ctx) : (s.setCtx asid x).invals = s.invals := rfl
@[simp] theorem State.setCtx_contribs (s : State) (asid : Nat) (x : Ctx) : (s.setCtx asid x).contribs = s.contribs := rfl
@[simp] theorem State.setCtx_accs (s : State) (asid : Nat) (x : Ctx) : (s.setCtx asid x).accs = s.accs := rfl
@[simp] theorem State.setCtx_queues (s : State) (asid : Nat) (x : Ctx) : (s.setCtx asid x).queues = s.queues := rfl
@[simp] theorem State.setCtx_kicks (s : State) (asid : Nat) (x : Ctx) : (s.setCtx asid x).kicks = s.kicks := rfl
@[simp] theorem State.setCtx_feTurn (s : State) (asid : Nat) (x : Ctx) : (s.setCtx asid x).feTurn = s.feTurn := rfl
@[simp] theorem State.setCtx_feeds (s : State) (asid : Nat) (x : Ctx) : (s.setCtx asid x).feeds = s.feeds := rfl
@[simp] theorem State.setCtx_nextSeq (s : State) (asid : Nat) (x : Ctx) : (s.setCtx asid x).nextSeq = s.nextSeq := rfl
@[simp] theorem State.setCtx_events (s : State) (asid : Nat) (x : Ctx) : (s.setCtx asid x).events = s.events := rfl
@[simp] theorem State.setCtx_evq (s : State) (asid : Nat) (x : Ctx) : (s.setCtx asid x).evq = s.evq := rfl
@[simp] theorem State.setCtx_trapRing (s : State) (asid : Nat) (x : Ctx) : (s.setCtx asid x).trapRing = s.trapRing := rfl
@[simp] theorem State.setCtx_evRing (s : State) (asid : Nat) (x : Ctx) : (s.setCtx asid x).evRing = s.evRing := rfl
@[simp] theorem State.setCtx_harts (s : State) (asid : Nat) (x : Ctx) : (s.setCtx asid x).harts = s.harts := rfl
@[simp] theorem State.setCtx_qcores (s : State) (asid : Nat) (x : Ctx) : (s.setCtx asid x).qcores = s.qcores := rfl
@[simp] theorem State.setCtx_sup (s : State) (asid : Nat) (x : Ctx) : (s.setCtx asid x).sup = s.sup := rfl
@[simp] theorem State.setCtx_boot (s : State) (asid : Nat) (x : Ctx) : (s.setCtx asid x).boot = s.boot := rfl
@[simp] theorem State.setCtx_power (s : State) (asid : Nat) (x : Ctx) : (s.setCtx asid x).power = s.power := rfl
@[simp] theorem State.setCtx_units (s : State) (asid : Nat) (x : Ctx) : (s.setCtx asid x).units = s.units := rfl
@[simp] theorem State.setCtx_windows (s : State) (asid : Nat) (x : Ctx) : (s.setCtx asid x).windows = s.windows := rfl
@[simp] theorem State.setCtx_repairs (s : State) (asid : Nat) (x : Ctx) : (s.setCtx asid x).repairs = s.repairs := rfl
@[simp] theorem State.setCtx_degraded (s : State) (asid : Nat) (x : Ctx) : (s.setCtx asid x).degraded = s.degraded := rfl
@[simp] theorem State.setCtx_errWait (s : State) (asid : Nat) (x : Ctx) : (s.setCtx asid x).errWait = s.errWait := rfl
@[simp] theorem State.setCtx_errRing (s : State) (asid : Nat) (x : Ctx) : (s.setCtx asid x).errRing = s.errRing := rfl
@[simp] theorem State.setCtx_fab (s : State) (asid : Nat) (x : Ctx) : (s.setCtx asid x).fab = s.fab := rfl
@[simp] theorem State.setCtx_pulls (s : State) (asid : Nat) (x : Ctx) : (s.setCtx asid x).pulls = s.pulls := rfl
@[simp] theorem State.setCtx_heldImages (s : State) (asid : Nat) (x : Ctx) : (s.setCtx asid x).heldImages = s.heldImages := rfl
@[simp] theorem State.setCtx_holders (s : State) (asid : Nat) (x : Ctx) : (s.setCtx asid x).holders = s.holders := rfl
@[simp] theorem State.setCtx_ckpts (s : State) (asid : Nat) (x : Ctx) : (s.setCtx asid x).ckpts = s.ckpts := rfl
@[simp] theorem State.setCtx_ckptRegion (s : State) (asid : Nat) (x : Ctx) : (s.setCtx asid x).ckptRegion = s.ckptRegion := rfl
@[simp] theorem State.setCtx_estimates (s : State) (asid : Nat) (x : Ctx) : (s.setCtx asid x).estimates = s.estimates := rfl
@[simp] theorem State.setCtx_hubRegs (s : State) (asid : Nat) (x : Ctx) : (s.setCtx asid x).hubRegs = s.hubRegs := rfl
@[simp] theorem State.setCtx_ltime (s : State) (asid : Nat) (x : Ctx) : (s.setCtx asid x).ltime = s.ltime := rfl
@[simp] theorem State.setCtx_order (s : State) (asid : Nat) (x : Ctx) : (s.setCtx asid x).order = s.order := rfl
@[simp] theorem State.setCtx_free (s : State) (asid : Nat) (x : Ctx) : (s.setCtx asid x).free = s.free := rfl

/-! ## `State.setQueue` -/

@[simp] theorem State.setQueue_agenda (s : State) (q : Nat) (x : Queue) : (s.setQueue q x).agenda = s.agenda := rfl
@[simp] theorem State.setQueue_cur (s : State) (q : Nat) (x : Queue) : (s.setQueue q x).cur = s.cur := rfl
@[simp] theorem State.setQueue_wefts (s : State) (q : Nat) (x : Queue) : (s.setQueue q x).wefts = s.wefts := rfl
@[simp] theorem State.setQueue_bolts (s : State) (q : Nat) (x : Queue) : (s.setQueue q x).bolts = s.bolts := rfl
@[simp] theorem State.setQueue_courses (s : State) (q : Nat) (x : Queue) : (s.setQueue q x).courses = s.courses := rfl
@[simp] theorem State.setQueue_spans (s : State) (q : Nat) (x : Queue) : (s.setQueue q x).spans = s.spans := rfl
@[simp] theorem State.setQueue_cores (s : State) (q : Nat) (x : Queue) : (s.setQueue q x).cores = s.cores := rfl
@[simp] theorem State.setQueue_clusters (s : State) (q : Nat) (x : Queue) : (s.setQueue q x).clusters = s.clusters := rfl
@[simp] theorem State.setQueue_ctxs (s : State) (q : Nat) (x : Queue) : (s.setQueue q x).ctxs = s.ctxs := rfl
@[simp] theorem State.setQueue_mem (s : State) (q : Nat) (x : Queue) : (s.setQueue q x).mem = s.mem := rfl
@[simp] theorem State.setQueue_memBad (s : State) (q : Nat) (x : Queue) : (s.setQueue q x).memBad = s.memBad := rfl
@[simp] theorem State.setQueue_l2Bad (s : State) (q : Nat) (x : Queue) : (s.setQueue q x).l2Bad = s.l2Bad := rfl
@[simp] theorem State.setQueue_hubBad (s : State) (q : Nat) (x : Queue) : (s.setQueue q x).hubBad = s.hubBad := rfl
@[simp] theorem State.setQueue_aper (s : State) (q : Nat) (x : Queue) : (s.setQueue q x).aper = s.aper := rfl
@[simp] theorem State.setQueue_aperBad (s : State) (q : Nat) (x : Queue) : (s.setQueue q x).aperBad = s.aperBad := rfl
@[simp] theorem State.setQueue_lostStacks (s : State) (q : Nat) (x : Queue) : (s.setQueue q x).lostStacks = s.lostStacks := rfl
@[simp] theorem State.setQueue_deadDies (s : State) (q : Nat) (x : Queue) : (s.setQueue q x).deadDies = s.deadDies := rfl
@[simp] theorem State.setQueue_tlb (s : State) (q : Nat) (x : Queue) : (s.setQueue q x).tlb = s.tlb := rfl
@[simp] theorem State.setQueue_wcache (s : State) (q : Nat) (x : Queue) : (s.setQueue q x).wcache = s.wcache := rfl
@[simp] theorem State.setQueue_oldPages (s : State) (q : Nat) (x : Queue) : (s.setQueue q x).oldPages = s.oldPages := rfl
@[simp] theorem State.setQueue_invals (s : State) (q : Nat) (x : Queue) : (s.setQueue q x).invals = s.invals := rfl
@[simp] theorem State.setQueue_contribs (s : State) (q : Nat) (x : Queue) : (s.setQueue q x).contribs = s.contribs := rfl
@[simp] theorem State.setQueue_accs (s : State) (q : Nat) (x : Queue) : (s.setQueue q x).accs = s.accs := rfl
@[simp] theorem State.setQueue_queues (s : State) (q : Nat) (x : Queue) : (s.setQueue q x).queues = Store.insert s.queues q x := rfl
@[simp] theorem State.setQueue_kicks (s : State) (q : Nat) (x : Queue) : (s.setQueue q x).kicks = s.kicks := rfl
@[simp] theorem State.setQueue_feTurn (s : State) (q : Nat) (x : Queue) : (s.setQueue q x).feTurn = s.feTurn := rfl
@[simp] theorem State.setQueue_feeds (s : State) (q : Nat) (x : Queue) : (s.setQueue q x).feeds = s.feeds := rfl
@[simp] theorem State.setQueue_nextSeq (s : State) (q : Nat) (x : Queue) : (s.setQueue q x).nextSeq = s.nextSeq := rfl
@[simp] theorem State.setQueue_events (s : State) (q : Nat) (x : Queue) : (s.setQueue q x).events = s.events := rfl
@[simp] theorem State.setQueue_evq (s : State) (q : Nat) (x : Queue) : (s.setQueue q x).evq = s.evq := rfl
@[simp] theorem State.setQueue_trapRing (s : State) (q : Nat) (x : Queue) : (s.setQueue q x).trapRing = s.trapRing := rfl
@[simp] theorem State.setQueue_evRing (s : State) (q : Nat) (x : Queue) : (s.setQueue q x).evRing = s.evRing := rfl
@[simp] theorem State.setQueue_harts (s : State) (q : Nat) (x : Queue) : (s.setQueue q x).harts = s.harts := rfl
@[simp] theorem State.setQueue_qcores (s : State) (q : Nat) (x : Queue) : (s.setQueue q x).qcores = s.qcores := rfl
@[simp] theorem State.setQueue_sup (s : State) (q : Nat) (x : Queue) : (s.setQueue q x).sup = s.sup := rfl
@[simp] theorem State.setQueue_boot (s : State) (q : Nat) (x : Queue) : (s.setQueue q x).boot = s.boot := rfl
@[simp] theorem State.setQueue_power (s : State) (q : Nat) (x : Queue) : (s.setQueue q x).power = s.power := rfl
@[simp] theorem State.setQueue_units (s : State) (q : Nat) (x : Queue) : (s.setQueue q x).units = s.units := rfl
@[simp] theorem State.setQueue_windows (s : State) (q : Nat) (x : Queue) : (s.setQueue q x).windows = s.windows := rfl
@[simp] theorem State.setQueue_repairs (s : State) (q : Nat) (x : Queue) : (s.setQueue q x).repairs = s.repairs := rfl
@[simp] theorem State.setQueue_degraded (s : State) (q : Nat) (x : Queue) : (s.setQueue q x).degraded = s.degraded := rfl
@[simp] theorem State.setQueue_errWait (s : State) (q : Nat) (x : Queue) : (s.setQueue q x).errWait = s.errWait := rfl
@[simp] theorem State.setQueue_errRing (s : State) (q : Nat) (x : Queue) : (s.setQueue q x).errRing = s.errRing := rfl
@[simp] theorem State.setQueue_fab (s : State) (q : Nat) (x : Queue) : (s.setQueue q x).fab = s.fab := rfl
@[simp] theorem State.setQueue_pulls (s : State) (q : Nat) (x : Queue) : (s.setQueue q x).pulls = s.pulls := rfl
@[simp] theorem State.setQueue_heldImages (s : State) (q : Nat) (x : Queue) : (s.setQueue q x).heldImages = s.heldImages := rfl
@[simp] theorem State.setQueue_holders (s : State) (q : Nat) (x : Queue) : (s.setQueue q x).holders = s.holders := rfl
@[simp] theorem State.setQueue_ckpts (s : State) (q : Nat) (x : Queue) : (s.setQueue q x).ckpts = s.ckpts := rfl
@[simp] theorem State.setQueue_ckptRegion (s : State) (q : Nat) (x : Queue) : (s.setQueue q x).ckptRegion = s.ckptRegion := rfl
@[simp] theorem State.setQueue_estimates (s : State) (q : Nat) (x : Queue) : (s.setQueue q x).estimates = s.estimates := rfl
@[simp] theorem State.setQueue_hubRegs (s : State) (q : Nat) (x : Queue) : (s.setQueue q x).hubRegs = s.hubRegs := rfl
@[simp] theorem State.setQueue_ltime (s : State) (q : Nat) (x : Queue) : (s.setQueue q x).ltime = s.ltime := rfl
@[simp] theorem State.setQueue_order (s : State) (q : Nat) (x : Queue) : (s.setQueue q x).order = s.order := rfl
@[simp] theorem State.setQueue_free (s : State) (q : Nat) (x : Queue) : (s.setQueue q x).free = s.free := rfl

/-! ## `State.setFeed` -/

@[simp] theorem State.setFeed_agenda (s : State) (q : Nat) (x : FeedQ) : (s.setFeed q x).agenda = s.agenda := rfl
@[simp] theorem State.setFeed_cur (s : State) (q : Nat) (x : FeedQ) : (s.setFeed q x).cur = s.cur := rfl
@[simp] theorem State.setFeed_wefts (s : State) (q : Nat) (x : FeedQ) : (s.setFeed q x).wefts = s.wefts := rfl
@[simp] theorem State.setFeed_bolts (s : State) (q : Nat) (x : FeedQ) : (s.setFeed q x).bolts = s.bolts := rfl
@[simp] theorem State.setFeed_courses (s : State) (q : Nat) (x : FeedQ) : (s.setFeed q x).courses = s.courses := rfl
@[simp] theorem State.setFeed_spans (s : State) (q : Nat) (x : FeedQ) : (s.setFeed q x).spans = s.spans := rfl
@[simp] theorem State.setFeed_cores (s : State) (q : Nat) (x : FeedQ) : (s.setFeed q x).cores = s.cores := rfl
@[simp] theorem State.setFeed_clusters (s : State) (q : Nat) (x : FeedQ) : (s.setFeed q x).clusters = s.clusters := rfl
@[simp] theorem State.setFeed_ctxs (s : State) (q : Nat) (x : FeedQ) : (s.setFeed q x).ctxs = s.ctxs := rfl
@[simp] theorem State.setFeed_mem (s : State) (q : Nat) (x : FeedQ) : (s.setFeed q x).mem = s.mem := rfl
@[simp] theorem State.setFeed_memBad (s : State) (q : Nat) (x : FeedQ) : (s.setFeed q x).memBad = s.memBad := rfl
@[simp] theorem State.setFeed_l2Bad (s : State) (q : Nat) (x : FeedQ) : (s.setFeed q x).l2Bad = s.l2Bad := rfl
@[simp] theorem State.setFeed_hubBad (s : State) (q : Nat) (x : FeedQ) : (s.setFeed q x).hubBad = s.hubBad := rfl
@[simp] theorem State.setFeed_aper (s : State) (q : Nat) (x : FeedQ) : (s.setFeed q x).aper = s.aper := rfl
@[simp] theorem State.setFeed_aperBad (s : State) (q : Nat) (x : FeedQ) : (s.setFeed q x).aperBad = s.aperBad := rfl
@[simp] theorem State.setFeed_lostStacks (s : State) (q : Nat) (x : FeedQ) : (s.setFeed q x).lostStacks = s.lostStacks := rfl
@[simp] theorem State.setFeed_deadDies (s : State) (q : Nat) (x : FeedQ) : (s.setFeed q x).deadDies = s.deadDies := rfl
@[simp] theorem State.setFeed_tlb (s : State) (q : Nat) (x : FeedQ) : (s.setFeed q x).tlb = s.tlb := rfl
@[simp] theorem State.setFeed_wcache (s : State) (q : Nat) (x : FeedQ) : (s.setFeed q x).wcache = s.wcache := rfl
@[simp] theorem State.setFeed_oldPages (s : State) (q : Nat) (x : FeedQ) : (s.setFeed q x).oldPages = s.oldPages := rfl
@[simp] theorem State.setFeed_invals (s : State) (q : Nat) (x : FeedQ) : (s.setFeed q x).invals = s.invals := rfl
@[simp] theorem State.setFeed_contribs (s : State) (q : Nat) (x : FeedQ) : (s.setFeed q x).contribs = s.contribs := rfl
@[simp] theorem State.setFeed_accs (s : State) (q : Nat) (x : FeedQ) : (s.setFeed q x).accs = s.accs := rfl
@[simp] theorem State.setFeed_queues (s : State) (q : Nat) (x : FeedQ) : (s.setFeed q x).queues = s.queues := rfl
@[simp] theorem State.setFeed_kicks (s : State) (q : Nat) (x : FeedQ) : (s.setFeed q x).kicks = s.kicks := rfl
@[simp] theorem State.setFeed_feTurn (s : State) (q : Nat) (x : FeedQ) : (s.setFeed q x).feTurn = s.feTurn := rfl
@[simp] theorem State.setFeed_feeds (s : State) (q : Nat) (x : FeedQ) : (s.setFeed q x).feeds = Store.insert s.feeds q x := rfl
@[simp] theorem State.setFeed_nextSeq (s : State) (q : Nat) (x : FeedQ) : (s.setFeed q x).nextSeq = s.nextSeq := rfl
@[simp] theorem State.setFeed_events (s : State) (q : Nat) (x : FeedQ) : (s.setFeed q x).events = s.events := rfl
@[simp] theorem State.setFeed_evq (s : State) (q : Nat) (x : FeedQ) : (s.setFeed q x).evq = s.evq := rfl
@[simp] theorem State.setFeed_trapRing (s : State) (q : Nat) (x : FeedQ) : (s.setFeed q x).trapRing = s.trapRing := rfl
@[simp] theorem State.setFeed_evRing (s : State) (q : Nat) (x : FeedQ) : (s.setFeed q x).evRing = s.evRing := rfl
@[simp] theorem State.setFeed_harts (s : State) (q : Nat) (x : FeedQ) : (s.setFeed q x).harts = s.harts := rfl
@[simp] theorem State.setFeed_qcores (s : State) (q : Nat) (x : FeedQ) : (s.setFeed q x).qcores = s.qcores := rfl
@[simp] theorem State.setFeed_sup (s : State) (q : Nat) (x : FeedQ) : (s.setFeed q x).sup = s.sup := rfl
@[simp] theorem State.setFeed_boot (s : State) (q : Nat) (x : FeedQ) : (s.setFeed q x).boot = s.boot := rfl
@[simp] theorem State.setFeed_power (s : State) (q : Nat) (x : FeedQ) : (s.setFeed q x).power = s.power := rfl
@[simp] theorem State.setFeed_units (s : State) (q : Nat) (x : FeedQ) : (s.setFeed q x).units = s.units := rfl
@[simp] theorem State.setFeed_windows (s : State) (q : Nat) (x : FeedQ) : (s.setFeed q x).windows = s.windows := rfl
@[simp] theorem State.setFeed_repairs (s : State) (q : Nat) (x : FeedQ) : (s.setFeed q x).repairs = s.repairs := rfl
@[simp] theorem State.setFeed_degraded (s : State) (q : Nat) (x : FeedQ) : (s.setFeed q x).degraded = s.degraded := rfl
@[simp] theorem State.setFeed_errWait (s : State) (q : Nat) (x : FeedQ) : (s.setFeed q x).errWait = s.errWait := rfl
@[simp] theorem State.setFeed_errRing (s : State) (q : Nat) (x : FeedQ) : (s.setFeed q x).errRing = s.errRing := rfl
@[simp] theorem State.setFeed_fab (s : State) (q : Nat) (x : FeedQ) : (s.setFeed q x).fab = s.fab := rfl
@[simp] theorem State.setFeed_pulls (s : State) (q : Nat) (x : FeedQ) : (s.setFeed q x).pulls = s.pulls := rfl
@[simp] theorem State.setFeed_heldImages (s : State) (q : Nat) (x : FeedQ) : (s.setFeed q x).heldImages = s.heldImages := rfl
@[simp] theorem State.setFeed_holders (s : State) (q : Nat) (x : FeedQ) : (s.setFeed q x).holders = s.holders := rfl
@[simp] theorem State.setFeed_ckpts (s : State) (q : Nat) (x : FeedQ) : (s.setFeed q x).ckpts = s.ckpts := rfl
@[simp] theorem State.setFeed_ckptRegion (s : State) (q : Nat) (x : FeedQ) : (s.setFeed q x).ckptRegion = s.ckptRegion := rfl
@[simp] theorem State.setFeed_estimates (s : State) (q : Nat) (x : FeedQ) : (s.setFeed q x).estimates = s.estimates := rfl
@[simp] theorem State.setFeed_hubRegs (s : State) (q : Nat) (x : FeedQ) : (s.setFeed q x).hubRegs = s.hubRegs := rfl
@[simp] theorem State.setFeed_ltime (s : State) (q : Nat) (x : FeedQ) : (s.setFeed q x).ltime = s.ltime := rfl
@[simp] theorem State.setFeed_order (s : State) (q : Nat) (x : FeedQ) : (s.setFeed q x).order = s.order := rfl
@[simp] theorem State.setFeed_free (s : State) (q : Nat) (x : FeedQ) : (s.setFeed q x).free = s.free := rfl

/-! ## `State.setHart` -/

@[simp] theorem State.setHart_agenda (s : State) (n : Nat) (x : Hart) : (s.setHart n x).agenda = s.agenda := rfl
@[simp] theorem State.setHart_cur (s : State) (n : Nat) (x : Hart) : (s.setHart n x).cur = s.cur := rfl
@[simp] theorem State.setHart_wefts (s : State) (n : Nat) (x : Hart) : (s.setHart n x).wefts = s.wefts := rfl
@[simp] theorem State.setHart_bolts (s : State) (n : Nat) (x : Hart) : (s.setHart n x).bolts = s.bolts := rfl
@[simp] theorem State.setHart_courses (s : State) (n : Nat) (x : Hart) : (s.setHart n x).courses = s.courses := rfl
@[simp] theorem State.setHart_spans (s : State) (n : Nat) (x : Hart) : (s.setHart n x).spans = s.spans := rfl
@[simp] theorem State.setHart_cores (s : State) (n : Nat) (x : Hart) : (s.setHart n x).cores = s.cores := rfl
@[simp] theorem State.setHart_clusters (s : State) (n : Nat) (x : Hart) : (s.setHart n x).clusters = s.clusters := rfl
@[simp] theorem State.setHart_ctxs (s : State) (n : Nat) (x : Hart) : (s.setHart n x).ctxs = s.ctxs := rfl
@[simp] theorem State.setHart_mem (s : State) (n : Nat) (x : Hart) : (s.setHart n x).mem = s.mem := rfl
@[simp] theorem State.setHart_memBad (s : State) (n : Nat) (x : Hart) : (s.setHart n x).memBad = s.memBad := rfl
@[simp] theorem State.setHart_l2Bad (s : State) (n : Nat) (x : Hart) : (s.setHart n x).l2Bad = s.l2Bad := rfl
@[simp] theorem State.setHart_hubBad (s : State) (n : Nat) (x : Hart) : (s.setHart n x).hubBad = s.hubBad := rfl
@[simp] theorem State.setHart_aper (s : State) (n : Nat) (x : Hart) : (s.setHart n x).aper = s.aper := rfl
@[simp] theorem State.setHart_aperBad (s : State) (n : Nat) (x : Hart) : (s.setHart n x).aperBad = s.aperBad := rfl
@[simp] theorem State.setHart_lostStacks (s : State) (n : Nat) (x : Hart) : (s.setHart n x).lostStacks = s.lostStacks := rfl
@[simp] theorem State.setHart_deadDies (s : State) (n : Nat) (x : Hart) : (s.setHart n x).deadDies = s.deadDies := rfl
@[simp] theorem State.setHart_tlb (s : State) (n : Nat) (x : Hart) : (s.setHart n x).tlb = s.tlb := rfl
@[simp] theorem State.setHart_wcache (s : State) (n : Nat) (x : Hart) : (s.setHart n x).wcache = s.wcache := rfl
@[simp] theorem State.setHart_oldPages (s : State) (n : Nat) (x : Hart) : (s.setHart n x).oldPages = s.oldPages := rfl
@[simp] theorem State.setHart_invals (s : State) (n : Nat) (x : Hart) : (s.setHart n x).invals = s.invals := rfl
@[simp] theorem State.setHart_contribs (s : State) (n : Nat) (x : Hart) : (s.setHart n x).contribs = s.contribs := rfl
@[simp] theorem State.setHart_accs (s : State) (n : Nat) (x : Hart) : (s.setHart n x).accs = s.accs := rfl
@[simp] theorem State.setHart_queues (s : State) (n : Nat) (x : Hart) : (s.setHart n x).queues = s.queues := rfl
@[simp] theorem State.setHart_kicks (s : State) (n : Nat) (x : Hart) : (s.setHart n x).kicks = s.kicks := rfl
@[simp] theorem State.setHart_feTurn (s : State) (n : Nat) (x : Hart) : (s.setHart n x).feTurn = s.feTurn := rfl
@[simp] theorem State.setHart_feeds (s : State) (n : Nat) (x : Hart) : (s.setHart n x).feeds = s.feeds := rfl
@[simp] theorem State.setHart_nextSeq (s : State) (n : Nat) (x : Hart) : (s.setHart n x).nextSeq = s.nextSeq := rfl
@[simp] theorem State.setHart_events (s : State) (n : Nat) (x : Hart) : (s.setHart n x).events = s.events := rfl
@[simp] theorem State.setHart_evq (s : State) (n : Nat) (x : Hart) : (s.setHart n x).evq = s.evq := rfl
@[simp] theorem State.setHart_trapRing (s : State) (n : Nat) (x : Hart) : (s.setHart n x).trapRing = s.trapRing := rfl
@[simp] theorem State.setHart_evRing (s : State) (n : Nat) (x : Hart) : (s.setHart n x).evRing = s.evRing := rfl
@[simp] theorem State.setHart_harts (s : State) (n : Nat) (x : Hart) : (s.setHart n x).harts = Store.insert s.harts n x := rfl
@[simp] theorem State.setHart_qcores (s : State) (n : Nat) (x : Hart) : (s.setHart n x).qcores = s.qcores := rfl
@[simp] theorem State.setHart_sup (s : State) (n : Nat) (x : Hart) : (s.setHart n x).sup = s.sup := rfl
@[simp] theorem State.setHart_boot (s : State) (n : Nat) (x : Hart) : (s.setHart n x).boot = s.boot := rfl
@[simp] theorem State.setHart_power (s : State) (n : Nat) (x : Hart) : (s.setHart n x).power = s.power := rfl
@[simp] theorem State.setHart_units (s : State) (n : Nat) (x : Hart) : (s.setHart n x).units = s.units := rfl
@[simp] theorem State.setHart_windows (s : State) (n : Nat) (x : Hart) : (s.setHart n x).windows = s.windows := rfl
@[simp] theorem State.setHart_repairs (s : State) (n : Nat) (x : Hart) : (s.setHart n x).repairs = s.repairs := rfl
@[simp] theorem State.setHart_degraded (s : State) (n : Nat) (x : Hart) : (s.setHart n x).degraded = s.degraded := rfl
@[simp] theorem State.setHart_errWait (s : State) (n : Nat) (x : Hart) : (s.setHart n x).errWait = s.errWait := rfl
@[simp] theorem State.setHart_errRing (s : State) (n : Nat) (x : Hart) : (s.setHart n x).errRing = s.errRing := rfl
@[simp] theorem State.setHart_fab (s : State) (n : Nat) (x : Hart) : (s.setHart n x).fab = s.fab := rfl
@[simp] theorem State.setHart_pulls (s : State) (n : Nat) (x : Hart) : (s.setHart n x).pulls = s.pulls := rfl
@[simp] theorem State.setHart_heldImages (s : State) (n : Nat) (x : Hart) : (s.setHart n x).heldImages = s.heldImages := rfl
@[simp] theorem State.setHart_holders (s : State) (n : Nat) (x : Hart) : (s.setHart n x).holders = s.holders := rfl
@[simp] theorem State.setHart_ckpts (s : State) (n : Nat) (x : Hart) : (s.setHart n x).ckpts = s.ckpts := rfl
@[simp] theorem State.setHart_ckptRegion (s : State) (n : Nat) (x : Hart) : (s.setHart n x).ckptRegion = s.ckptRegion := rfl
@[simp] theorem State.setHart_estimates (s : State) (n : Nat) (x : Hart) : (s.setHart n x).estimates = s.estimates := rfl
@[simp] theorem State.setHart_hubRegs (s : State) (n : Nat) (x : Hart) : (s.setHart n x).hubRegs = s.hubRegs := rfl
@[simp] theorem State.setHart_ltime (s : State) (n : Nat) (x : Hart) : (s.setHart n x).ltime = s.ltime := rfl
@[simp] theorem State.setHart_order (s : State) (n : Nat) (x : Hart) : (s.setHart n x).order = s.order := rfl
@[simp] theorem State.setHart_free (s : State) (n : Nat) (x : Hart) : (s.setHart n x).free = s.free := rfl

/-! ## `State.event` -/

@[simp] theorem State.event_agenda (s : State) (kind sub arg : Nat) : (s.event kind sub arg).agenda = s.agenda := rfl
@[simp] theorem State.event_cur (s : State) (kind sub arg : Nat) : (s.event kind sub arg).cur = s.cur := rfl
@[simp] theorem State.event_wefts (s : State) (kind sub arg : Nat) : (s.event kind sub arg).wefts = s.wefts := rfl
@[simp] theorem State.event_bolts (s : State) (kind sub arg : Nat) : (s.event kind sub arg).bolts = s.bolts := rfl
@[simp] theorem State.event_courses (s : State) (kind sub arg : Nat) : (s.event kind sub arg).courses = s.courses := rfl
@[simp] theorem State.event_spans (s : State) (kind sub arg : Nat) : (s.event kind sub arg).spans = s.spans := rfl
@[simp] theorem State.event_cores (s : State) (kind sub arg : Nat) : (s.event kind sub arg).cores = s.cores := rfl
@[simp] theorem State.event_clusters (s : State) (kind sub arg : Nat) : (s.event kind sub arg).clusters = s.clusters := rfl
@[simp] theorem State.event_ctxs (s : State) (kind sub arg : Nat) : (s.event kind sub arg).ctxs = s.ctxs := rfl
@[simp] theorem State.event_mem (s : State) (kind sub arg : Nat) : (s.event kind sub arg).mem = s.mem := rfl
@[simp] theorem State.event_memBad (s : State) (kind sub arg : Nat) : (s.event kind sub arg).memBad = s.memBad := rfl
@[simp] theorem State.event_l2Bad (s : State) (kind sub arg : Nat) : (s.event kind sub arg).l2Bad = s.l2Bad := rfl
@[simp] theorem State.event_hubBad (s : State) (kind sub arg : Nat) : (s.event kind sub arg).hubBad = s.hubBad := rfl
@[simp] theorem State.event_aper (s : State) (kind sub arg : Nat) : (s.event kind sub arg).aper = s.aper := rfl
@[simp] theorem State.event_aperBad (s : State) (kind sub arg : Nat) : (s.event kind sub arg).aperBad = s.aperBad := rfl
@[simp] theorem State.event_lostStacks (s : State) (kind sub arg : Nat) : (s.event kind sub arg).lostStacks = s.lostStacks := rfl
@[simp] theorem State.event_deadDies (s : State) (kind sub arg : Nat) : (s.event kind sub arg).deadDies = s.deadDies := rfl
@[simp] theorem State.event_tlb (s : State) (kind sub arg : Nat) : (s.event kind sub arg).tlb = s.tlb := rfl
@[simp] theorem State.event_wcache (s : State) (kind sub arg : Nat) : (s.event kind sub arg).wcache = s.wcache := rfl
@[simp] theorem State.event_oldPages (s : State) (kind sub arg : Nat) : (s.event kind sub arg).oldPages = s.oldPages := rfl
@[simp] theorem State.event_invals (s : State) (kind sub arg : Nat) : (s.event kind sub arg).invals = s.invals := rfl
@[simp] theorem State.event_contribs (s : State) (kind sub arg : Nat) : (s.event kind sub arg).contribs = s.contribs := rfl
@[simp] theorem State.event_accs (s : State) (kind sub arg : Nat) : (s.event kind sub arg).accs = s.accs := rfl
@[simp] theorem State.event_queues (s : State) (kind sub arg : Nat) : (s.event kind sub arg).queues = s.queues := rfl
@[simp] theorem State.event_kicks (s : State) (kind sub arg : Nat) : (s.event kind sub arg).kicks = s.kicks := rfl
@[simp] theorem State.event_feTurn (s : State) (kind sub arg : Nat) : (s.event kind sub arg).feTurn = s.feTurn := rfl
@[simp] theorem State.event_feeds (s : State) (kind sub arg : Nat) : (s.event kind sub arg).feeds = s.feeds := rfl
@[simp] theorem State.event_nextSeq (s : State) (kind sub arg : Nat) : (s.event kind sub arg).nextSeq = s.nextSeq + 1 := rfl
@[simp] theorem State.event_events (s : State) (kind sub arg : Nat) : (s.event kind sub arg).events = s.events ++ [⟨s.nextSeq, kind, sub, arg⟩] := rfl
@[simp] theorem State.event_evq (s : State) (kind sub arg : Nat) : (s.event kind sub arg).evq = if 2 ≤ kind && kind ≤ 4 then s.evq ++ [⟨s.nextSeq, kind, sub, arg⟩] else s.evq := rfl
@[simp] theorem State.event_trapRing (s : State) (kind sub arg : Nat) : (s.event kind sub arg).trapRing = s.trapRing := rfl
@[simp] theorem State.event_evRing (s : State) (kind sub arg : Nat) : (s.event kind sub arg).evRing = if kind = 5 then s.evRing ++ [eventRecord s.nextSeq sub arg] else s.evRing := rfl
@[simp] theorem State.event_harts (s : State) (kind sub arg : Nat) : (s.event kind sub arg).harts = s.harts := rfl
@[simp] theorem State.event_qcores (s : State) (kind sub arg : Nat) : (s.event kind sub arg).qcores = s.qcores := rfl
@[simp] theorem State.event_sup (s : State) (kind sub arg : Nat) : (s.event kind sub arg).sup = s.sup := rfl
@[simp] theorem State.event_boot (s : State) (kind sub arg : Nat) : (s.event kind sub arg).boot = s.boot := rfl
@[simp] theorem State.event_power (s : State) (kind sub arg : Nat) : (s.event kind sub arg).power = s.power := rfl
@[simp] theorem State.event_units (s : State) (kind sub arg : Nat) : (s.event kind sub arg).units = s.units := rfl
@[simp] theorem State.event_windows (s : State) (kind sub arg : Nat) : (s.event kind sub arg).windows = s.windows := rfl
@[simp] theorem State.event_repairs (s : State) (kind sub arg : Nat) : (s.event kind sub arg).repairs = s.repairs := rfl
@[simp] theorem State.event_degraded (s : State) (kind sub arg : Nat) : (s.event kind sub arg).degraded = s.degraded := rfl
@[simp] theorem State.event_errWait (s : State) (kind sub arg : Nat) : (s.event kind sub arg).errWait = s.errWait := rfl
@[simp] theorem State.event_errRing (s : State) (kind sub arg : Nat) : (s.event kind sub arg).errRing = s.errRing := rfl
@[simp] theorem State.event_fab (s : State) (kind sub arg : Nat) : (s.event kind sub arg).fab = s.fab := rfl
@[simp] theorem State.event_pulls (s : State) (kind sub arg : Nat) : (s.event kind sub arg).pulls = s.pulls := rfl
@[simp] theorem State.event_heldImages (s : State) (kind sub arg : Nat) : (s.event kind sub arg).heldImages = s.heldImages := rfl
@[simp] theorem State.event_holders (s : State) (kind sub arg : Nat) : (s.event kind sub arg).holders = s.holders := rfl
@[simp] theorem State.event_ckpts (s : State) (kind sub arg : Nat) : (s.event kind sub arg).ckpts = s.ckpts := rfl
@[simp] theorem State.event_ckptRegion (s : State) (kind sub arg : Nat) : (s.event kind sub arg).ckptRegion = s.ckptRegion := rfl
@[simp] theorem State.event_estimates (s : State) (kind sub arg : Nat) : (s.event kind sub arg).estimates = s.estimates := rfl
@[simp] theorem State.event_hubRegs (s : State) (kind sub arg : Nat) : (s.event kind sub arg).hubRegs = s.hubRegs := rfl
@[simp] theorem State.event_ltime (s : State) (kind sub arg : Nat) : (s.event kind sub arg).ltime = s.ltime := rfl
@[simp] theorem State.event_order (s : State) (kind sub arg : Nat) : (s.event kind sub arg).order = s.order := rfl
@[simp] theorem State.event_free (s : State) (kind sub arg : Nat) : (s.event kind sub arg).free = s.free := rfl

/-! ## `State.stamp` -/

@[simp] theorem State.stamp_agenda (s : State) : (s.stamp.2).agenda = s.agenda := rfl
@[simp] theorem State.stamp_cur (s : State) : (s.stamp.2).cur = s.cur := rfl
@[simp] theorem State.stamp_wefts (s : State) : (s.stamp.2).wefts = s.wefts := rfl
@[simp] theorem State.stamp_bolts (s : State) : (s.stamp.2).bolts = s.bolts := rfl
@[simp] theorem State.stamp_courses (s : State) : (s.stamp.2).courses = s.courses := rfl
@[simp] theorem State.stamp_spans (s : State) : (s.stamp.2).spans = s.spans := rfl
@[simp] theorem State.stamp_cores (s : State) : (s.stamp.2).cores = s.cores := rfl
@[simp] theorem State.stamp_clusters (s : State) : (s.stamp.2).clusters = s.clusters := rfl
@[simp] theorem State.stamp_ctxs (s : State) : (s.stamp.2).ctxs = s.ctxs := rfl
@[simp] theorem State.stamp_mem (s : State) : (s.stamp.2).mem = s.mem := rfl
@[simp] theorem State.stamp_memBad (s : State) : (s.stamp.2).memBad = s.memBad := rfl
@[simp] theorem State.stamp_l2Bad (s : State) : (s.stamp.2).l2Bad = s.l2Bad := rfl
@[simp] theorem State.stamp_hubBad (s : State) : (s.stamp.2).hubBad = s.hubBad := rfl
@[simp] theorem State.stamp_aper (s : State) : (s.stamp.2).aper = s.aper := rfl
@[simp] theorem State.stamp_aperBad (s : State) : (s.stamp.2).aperBad = s.aperBad := rfl
@[simp] theorem State.stamp_lostStacks (s : State) : (s.stamp.2).lostStacks = s.lostStacks := rfl
@[simp] theorem State.stamp_deadDies (s : State) : (s.stamp.2).deadDies = s.deadDies := rfl
@[simp] theorem State.stamp_tlb (s : State) : (s.stamp.2).tlb = s.tlb := rfl
@[simp] theorem State.stamp_wcache (s : State) : (s.stamp.2).wcache = s.wcache := rfl
@[simp] theorem State.stamp_oldPages (s : State) : (s.stamp.2).oldPages = s.oldPages := rfl
@[simp] theorem State.stamp_invals (s : State) : (s.stamp.2).invals = s.invals := rfl
@[simp] theorem State.stamp_contribs (s : State) : (s.stamp.2).contribs = s.contribs := rfl
@[simp] theorem State.stamp_accs (s : State) : (s.stamp.2).accs = s.accs := rfl
@[simp] theorem State.stamp_queues (s : State) : (s.stamp.2).queues = s.queues := rfl
@[simp] theorem State.stamp_kicks (s : State) : (s.stamp.2).kicks = s.kicks := rfl
@[simp] theorem State.stamp_feTurn (s : State) : (s.stamp.2).feTurn = s.feTurn := rfl
@[simp] theorem State.stamp_feeds (s : State) : (s.stamp.2).feeds = s.feeds := rfl
@[simp] theorem State.stamp_nextSeq (s : State) : (s.stamp.2).nextSeq = s.nextSeq := rfl
@[simp] theorem State.stamp_events (s : State) : (s.stamp.2).events = s.events := rfl
@[simp] theorem State.stamp_evq (s : State) : (s.stamp.2).evq = s.evq := rfl
@[simp] theorem State.stamp_trapRing (s : State) : (s.stamp.2).trapRing = s.trapRing := rfl
@[simp] theorem State.stamp_evRing (s : State) : (s.stamp.2).evRing = s.evRing := rfl
@[simp] theorem State.stamp_harts (s : State) : (s.stamp.2).harts = s.harts := rfl
@[simp] theorem State.stamp_qcores (s : State) : (s.stamp.2).qcores = s.qcores := rfl
@[simp] theorem State.stamp_sup (s : State) : (s.stamp.2).sup = s.sup := rfl
@[simp] theorem State.stamp_boot (s : State) : (s.stamp.2).boot = s.boot := rfl
@[simp] theorem State.stamp_power (s : State) : (s.stamp.2).power = s.power := rfl
@[simp] theorem State.stamp_units (s : State) : (s.stamp.2).units = s.units := rfl
@[simp] theorem State.stamp_windows (s : State) : (s.stamp.2).windows = s.windows := rfl
@[simp] theorem State.stamp_repairs (s : State) : (s.stamp.2).repairs = s.repairs := rfl
@[simp] theorem State.stamp_degraded (s : State) : (s.stamp.2).degraded = s.degraded := rfl
@[simp] theorem State.stamp_errWait (s : State) : (s.stamp.2).errWait = s.errWait := rfl
@[simp] theorem State.stamp_errRing (s : State) : (s.stamp.2).errRing = s.errRing := rfl
@[simp] theorem State.stamp_fab (s : State) : (s.stamp.2).fab = s.fab := rfl
@[simp] theorem State.stamp_pulls (s : State) : (s.stamp.2).pulls = s.pulls := rfl
@[simp] theorem State.stamp_heldImages (s : State) : (s.stamp.2).heldImages = s.heldImages := rfl
@[simp] theorem State.stamp_holders (s : State) : (s.stamp.2).holders = s.holders := rfl
@[simp] theorem State.stamp_ckpts (s : State) : (s.stamp.2).ckpts = s.ckpts := rfl
@[simp] theorem State.stamp_ckptRegion (s : State) : (s.stamp.2).ckptRegion = s.ckptRegion := rfl
@[simp] theorem State.stamp_estimates (s : State) : (s.stamp.2).estimates = s.estimates := rfl
@[simp] theorem State.stamp_hubRegs (s : State) : (s.stamp.2).hubRegs = s.hubRegs := rfl
@[simp] theorem State.stamp_ltime (s : State) : (s.stamp.2).ltime = s.ltime := rfl
@[simp] theorem State.stamp_order (s : State) : (s.stamp.2).order = s.order + 1 := rfl
@[simp] theorem State.stamp_free (s : State) : (s.stamp.2).free = s.free := rfl

/-! ## `Weft.setV` -/

@[simp] theorem Weft.setV_bolt (w : Weft) (n t : Nat) (c : Cell) : (w.setV n t c).bolt = w.bolt := rfl
@[simp] theorem Weft.setV_id (w : Weft) (n t : Nat) (c : Cell) : (w.setV n t c).id = w.id := rfl
@[simp] theorem Weft.setV_prot (w : Weft) (n t : Nat) (c : Cell) : (w.setV n t c).prot = w.prot := rfl
@[simp] theorem Weft.setV_vregs (w : Weft) (n t : Nat) (c : Cell) : (w.setV n t c).vregs = w.vregs := rfl
@[simp] theorem Weft.setV_sregs (w : Weft) (n t : Nat) (c : Cell) : (w.setV n t c).sregs = w.sregs := rfl
@[simp] theorem Weft.setV_status (w : Weft) (n t : Nat) (c : Cell) : (w.setV n t c).status = w.status := rfl
@[simp] theorem Weft.setV_wait (w : Weft) (n t : Nat) (c : Cell) : (w.setV n t c).wait = w.wait := rfl
@[simp] theorem Weft.setV_vr (w : Weft) (n t : Nat) (c : Cell) : (w.setV n t c).vr = Store.put Cell.launch w.vr (vkey n t) c := rfl
@[simp] theorem Weft.setV_sr (w : Weft) (n t : Nat) (c : Cell) : (w.setV n t c).sr = w.sr := rfl
@[simp] theorem Weft.setV_ks (w : Weft) (n t : Nat) (c : Cell) : (w.setV n t c).ks = w.ks := rfl
@[simp] theorem Weft.setV_oddV (w : Weft) (n t : Nat) (c : Cell) : (w.setV n t c).oddV = Store.erase w.oddV (vkey n t) := rfl
@[simp] theorem Weft.setV_oddK (w : Weft) (n t : Nat) (c : Cell) : (w.setV n t c).oddK = w.oddK := rfl
@[simp] theorem Weft.setV_oddF (w : Weft) (n t : Nat) (c : Cell) : (w.setV n t c).oddF = w.oddF := rfl
@[simp] theorem Weft.setV_pc (w : Weft) (n t : Nat) (c : Cell) : (w.setV n t c).pc = w.pc := rfl
@[simp] theorem Weft.setV_active (w : Weft) (n t : Nat) (c : Cell) : (w.setV n t c).active = w.active := rfl
@[simp] theorem Weft.setV_stack (w : Weft) (n t : Nat) (c : Cell) : (w.setV n t c).stack = w.stack := rfl
@[simp] theorem Weft.setV_dlm (w : Weft) (n t : Nat) (c : Cell) : (w.setV n t c).dlm = w.dlm := rfl
@[simp] theorem Weft.setV_exm (w : Weft) (n t : Nat) (c : Cell) : (w.setV n t c).exm = w.exm := rfl
@[simp] theorem Weft.setV_fpctl (w : Weft) (n t : Nat) (c : Cell) : (w.setV n t c).fpctl = w.fpctl := rfl
@[simp] theorem Weft.setV_fpstat (w : Weft) (n t : Nat) (c : Cell) : (w.setV n t c).fpstat = w.fpstat := rfl
@[simp] theorem Weft.setV_trapcause (w : Weft) (n t : Nat) (c : Cell) : (w.setV n t c).trapcause = w.trapcause := rfl
@[simp] theorem Weft.setV_trappc (w : Weft) (n t : Nat) (c : Cell) : (w.setV n t c).trappc = w.trappc := rfl
@[simp] theorem Weft.setV_trapaddr (w : Weft) (n t : Nat) (c : Cell) : (w.setV n t c).trapaddr = w.trapaddr := rfl
@[simp] theorem Weft.setV_trapmask (w : Weft) (n t : Nat) (c : Cell) : (w.setV n t c).trapmask = w.trapmask := rfl
@[simp] theorem Weft.setV_tstat (w : Weft) (n t : Nat) (c : Cell) : (w.setV n t c).tstat = w.tstat := rfl
@[simp] theorem Weft.setV_thvec (w : Weft) (n t : Nat) (c : Cell) : (w.setV n t c).thvec = w.thvec := rfl
@[simp] theorem Weft.setV_trec (w : Weft) (n t : Nat) (c : Cell) : (w.setV n t c).trec = w.trec := rfl
@[simp] theorem Weft.setV_pend (w : Weft) (n t : Nat) (c : Cell) : (w.setV n t c).pend = w.pend := rfl
@[simp] theorem Weft.setV_mfail (w : Weft) (n t : Nat) (c : Cell) : (w.setV n t c).mfail = w.mfail := rfl
@[simp] theorem Weft.setV_flights (w : Weft) (n t : Nat) (c : Cell) : (w.setV n t c).flights = w.flights := rfl
@[simp] theorem Weft.setV_sAbort (w : Weft) (n t : Nat) (c : Cell) : (w.setV n t c).sAbort = w.sAbort := rfl
@[simp] theorem Weft.setV_repeatPhase (w : Weft) (n t : Nat) (c : Cell) : (w.setV n t c).repeatPhase = w.repeatPhase := rfl
@[simp] theorem Weft.setV_leaseDecl (w : Weft) (n t : Nat) (c : Cell) : (w.setV n t c).leaseDecl = w.leaseDecl := rfl
@[simp] theorem Weft.setV_lease (w : Weft) (n t : Nat) (c : Cell) : (w.setV n t c).lease = w.lease := rfl
@[simp] theorem Weft.setV_measured (w : Weft) (n t : Nat) (c : Cell) : (w.setV n t c).measured = w.measured := rfl
@[simp] theorem Weft.setV_lowWindows (w : Weft) (n t : Nat) (c : Cell) : (w.setV n t c).lowWindows = w.lowWindows := rfl
@[simp] theorem Weft.setV_issued (w : Weft) (n t : Nat) (c : Cell) : (w.setV n t c).issued = w.issued := rfl
@[simp] theorem Weft.setV_misses (w : Weft) (n t : Nat) (c : Cell) : (w.setV n t c).misses = w.misses := rfl
@[simp] theorem Weft.setV_slot (w : Weft) (n t : Nat) (c : Cell) : (w.setV n t c).slot = w.slot := rfl
@[simp] theorem Weft.setV_passed (w : Weft) (n t : Nat) (c : Cell) : (w.setV n t c).passed = w.passed := rfl
@[simp] theorem Weft.setV_since (w : Weft) (n t : Nat) (c : Cell) : (w.setV n t c).since = w.since := rfl
@[simp] theorem Weft.setV_scale (w : Weft) (n t : Nat) (c : Cell) : (w.setV n t c).scale = w.scale := rfl
@[simp] theorem Weft.setV_sparse (w : Weft) (n t : Nat) (c : Cell) : (w.setV n t c).sparse = w.sparse := rfl
@[simp] theorem Weft.setV_nextBatch (w : Weft) (n t : Nat) (c : Cell) : (w.setV n t c).nextBatch = w.nextBatch := rfl
@[simp] theorem Weft.setV_chain (w : Weft) (n t : Nat) (c : Cell) : (w.setV n t c).chain = w.chain := rfl
@[simp] theorem Weft.setV_batches (w : Weft) (n t : Nat) (c : Cell) : (w.setV n t c).batches = w.batches := rfl
@[simp] theorem Weft.setV_handler (w : Weft) (n t : Nat) (c : Cell) : (w.setV n t c).handler = w.handler := rfl
@[simp] theorem Weft.setV_fired (w : Weft) (n t : Nat) (c : Cell) : (w.setV n t c).fired = w.fired := rfl
@[simp] theorem Weft.setV_relTags (w : Weft) (n t : Nat) (c : Cell) : (w.setV n t c).relTags = w.relTags := rfl
@[simp] theorem Weft.setV_bad (w : Weft) (n t : Nat) (c : Cell) : (w.setV n t c).bad = if c.full then w.bad.filter (fun k => k ≠ vkey n t) else w.bad := rfl
@[simp] theorem Weft.setV_pendPath (w : Weft) (n t : Nat) (c : Cell) : (w.setV n t c).pendPath = w.pendPath := rfl
@[simp] theorem Weft.setV_seek (w : Weft) (n t : Nat) (c : Cell) : (w.setV n t c).seek = w.seek := rfl

/-! ## `Weft.setS` -/

@[simp] theorem Weft.setS_bolt (w : Weft) (n : Nat) (c : Cell) : (w.setS n c).bolt = w.bolt := rfl
@[simp] theorem Weft.setS_id (w : Weft) (n : Nat) (c : Cell) : (w.setS n c).id = w.id := rfl
@[simp] theorem Weft.setS_prot (w : Weft) (n : Nat) (c : Cell) : (w.setS n c).prot = w.prot := rfl
@[simp] theorem Weft.setS_vregs (w : Weft) (n : Nat) (c : Cell) : (w.setS n c).vregs = w.vregs := rfl
@[simp] theorem Weft.setS_sregs (w : Weft) (n : Nat) (c : Cell) : (w.setS n c).sregs = w.sregs := rfl
@[simp] theorem Weft.setS_status (w : Weft) (n : Nat) (c : Cell) : (w.setS n c).status = w.status := rfl
@[simp] theorem Weft.setS_wait (w : Weft) (n : Nat) (c : Cell) : (w.setS n c).wait = w.wait := rfl
@[simp] theorem Weft.setS_vr (w : Weft) (n : Nat) (c : Cell) : (w.setS n c).vr = w.vr := rfl
@[simp] theorem Weft.setS_sr (w : Weft) (n : Nat) (c : Cell) : (w.setS n c).sr = Store.put Cell.launch w.sr n c := rfl
@[simp] theorem Weft.setS_ks (w : Weft) (n : Nat) (c : Cell) : (w.setS n c).ks = w.ks := rfl
@[simp] theorem Weft.setS_oddV (w : Weft) (n : Nat) (c : Cell) : (w.setS n c).oddV = w.oddV := rfl
@[simp] theorem Weft.setS_oddK (w : Weft) (n : Nat) (c : Cell) : (w.setS n c).oddK = w.oddK := rfl
@[simp] theorem Weft.setS_oddF (w : Weft) (n : Nat) (c : Cell) : (w.setS n c).oddF = w.oddF := rfl
@[simp] theorem Weft.setS_pc (w : Weft) (n : Nat) (c : Cell) : (w.setS n c).pc = w.pc := rfl
@[simp] theorem Weft.setS_active (w : Weft) (n : Nat) (c : Cell) : (w.setS n c).active = w.active := rfl
@[simp] theorem Weft.setS_stack (w : Weft) (n : Nat) (c : Cell) : (w.setS n c).stack = w.stack := rfl
@[simp] theorem Weft.setS_dlm (w : Weft) (n : Nat) (c : Cell) : (w.setS n c).dlm = w.dlm := rfl
@[simp] theorem Weft.setS_exm (w : Weft) (n : Nat) (c : Cell) : (w.setS n c).exm = w.exm := rfl
@[simp] theorem Weft.setS_fpctl (w : Weft) (n : Nat) (c : Cell) : (w.setS n c).fpctl = w.fpctl := rfl
@[simp] theorem Weft.setS_fpstat (w : Weft) (n : Nat) (c : Cell) : (w.setS n c).fpstat = w.fpstat := rfl
@[simp] theorem Weft.setS_trapcause (w : Weft) (n : Nat) (c : Cell) : (w.setS n c).trapcause = w.trapcause := rfl
@[simp] theorem Weft.setS_trappc (w : Weft) (n : Nat) (c : Cell) : (w.setS n c).trappc = w.trappc := rfl
@[simp] theorem Weft.setS_trapaddr (w : Weft) (n : Nat) (c : Cell) : (w.setS n c).trapaddr = w.trapaddr := rfl
@[simp] theorem Weft.setS_trapmask (w : Weft) (n : Nat) (c : Cell) : (w.setS n c).trapmask = w.trapmask := rfl
@[simp] theorem Weft.setS_tstat (w : Weft) (n : Nat) (c : Cell) : (w.setS n c).tstat = w.tstat := rfl
@[simp] theorem Weft.setS_thvec (w : Weft) (n : Nat) (c : Cell) : (w.setS n c).thvec = w.thvec := rfl
@[simp] theorem Weft.setS_trec (w : Weft) (n : Nat) (c : Cell) : (w.setS n c).trec = w.trec := rfl
@[simp] theorem Weft.setS_pend (w : Weft) (n : Nat) (c : Cell) : (w.setS n c).pend = w.pend := rfl
@[simp] theorem Weft.setS_mfail (w : Weft) (n : Nat) (c : Cell) : (w.setS n c).mfail = w.mfail := rfl
@[simp] theorem Weft.setS_flights (w : Weft) (n : Nat) (c : Cell) : (w.setS n c).flights = w.flights := rfl
@[simp] theorem Weft.setS_sAbort (w : Weft) (n : Nat) (c : Cell) : (w.setS n c).sAbort = w.sAbort := rfl
@[simp] theorem Weft.setS_repeatPhase (w : Weft) (n : Nat) (c : Cell) : (w.setS n c).repeatPhase = w.repeatPhase := rfl
@[simp] theorem Weft.setS_leaseDecl (w : Weft) (n : Nat) (c : Cell) : (w.setS n c).leaseDecl = w.leaseDecl := rfl
@[simp] theorem Weft.setS_lease (w : Weft) (n : Nat) (c : Cell) : (w.setS n c).lease = w.lease := rfl
@[simp] theorem Weft.setS_measured (w : Weft) (n : Nat) (c : Cell) : (w.setS n c).measured = w.measured := rfl
@[simp] theorem Weft.setS_lowWindows (w : Weft) (n : Nat) (c : Cell) : (w.setS n c).lowWindows = w.lowWindows := rfl
@[simp] theorem Weft.setS_issued (w : Weft) (n : Nat) (c : Cell) : (w.setS n c).issued = w.issued := rfl
@[simp] theorem Weft.setS_misses (w : Weft) (n : Nat) (c : Cell) : (w.setS n c).misses = w.misses := rfl
@[simp] theorem Weft.setS_slot (w : Weft) (n : Nat) (c : Cell) : (w.setS n c).slot = w.slot := rfl
@[simp] theorem Weft.setS_passed (w : Weft) (n : Nat) (c : Cell) : (w.setS n c).passed = w.passed := rfl
@[simp] theorem Weft.setS_since (w : Weft) (n : Nat) (c : Cell) : (w.setS n c).since = w.since := rfl
@[simp] theorem Weft.setS_scale (w : Weft) (n : Nat) (c : Cell) : (w.setS n c).scale = w.scale := rfl
@[simp] theorem Weft.setS_sparse (w : Weft) (n : Nat) (c : Cell) : (w.setS n c).sparse = w.sparse := rfl
@[simp] theorem Weft.setS_nextBatch (w : Weft) (n : Nat) (c : Cell) : (w.setS n c).nextBatch = w.nextBatch := rfl
@[simp] theorem Weft.setS_chain (w : Weft) (n : Nat) (c : Cell) : (w.setS n c).chain = w.chain := rfl
@[simp] theorem Weft.setS_batches (w : Weft) (n : Nat) (c : Cell) : (w.setS n c).batches = w.batches := rfl
@[simp] theorem Weft.setS_handler (w : Weft) (n : Nat) (c : Cell) : (w.setS n c).handler = w.handler := rfl
@[simp] theorem Weft.setS_fired (w : Weft) (n : Nat) (c : Cell) : (w.setS n c).fired = w.fired := rfl
@[simp] theorem Weft.setS_relTags (w : Weft) (n : Nat) (c : Cell) : (w.setS n c).relTags = w.relTags := rfl
@[simp] theorem Weft.setS_bad (w : Weft) (n : Nat) (c : Cell) : (w.setS n c).bad = if c.full then w.bad.filter (fun k => k ≠ skey n) else w.bad := rfl
@[simp] theorem Weft.setS_pendPath (w : Weft) (n : Nat) (c : Cell) : (w.setS n c).pendPath = w.pendPath := rfl
@[simp] theorem Weft.setS_seek (w : Weft) (n : Nat) (c : Cell) : (w.setS n c).seek = w.seek := rfl

/-! ## `Weft.raise` -/

@[simp] theorem Weft.raise_bolt (w : Weft) (fl : Flags) : (w.raise fl).bolt = w.bolt := rfl
@[simp] theorem Weft.raise_id (w : Weft) (fl : Flags) : (w.raise fl).id = w.id := rfl
@[simp] theorem Weft.raise_prot (w : Weft) (fl : Flags) : (w.raise fl).prot = w.prot := rfl
@[simp] theorem Weft.raise_vregs (w : Weft) (fl : Flags) : (w.raise fl).vregs = w.vregs := rfl
@[simp] theorem Weft.raise_sregs (w : Weft) (fl : Flags) : (w.raise fl).sregs = w.sregs := rfl
@[simp] theorem Weft.raise_status (w : Weft) (fl : Flags) : (w.raise fl).status = w.status := rfl
@[simp] theorem Weft.raise_wait (w : Weft) (fl : Flags) : (w.raise fl).wait = w.wait := rfl
@[simp] theorem Weft.raise_vr (w : Weft) (fl : Flags) : (w.raise fl).vr = w.vr := rfl
@[simp] theorem Weft.raise_sr (w : Weft) (fl : Flags) : (w.raise fl).sr = w.sr := rfl
@[simp] theorem Weft.raise_ks (w : Weft) (fl : Flags) : (w.raise fl).ks = w.ks := rfl
@[simp] theorem Weft.raise_oddV (w : Weft) (fl : Flags) : (w.raise fl).oddV = w.oddV := rfl
@[simp] theorem Weft.raise_oddK (w : Weft) (fl : Flags) : (w.raise fl).oddK = w.oddK := rfl
@[simp] theorem Weft.raise_oddF (w : Weft) (fl : Flags) : (w.raise fl).oddF = w.oddF := rfl
@[simp] theorem Weft.raise_pc (w : Weft) (fl : Flags) : (w.raise fl).pc = w.pc := rfl
@[simp] theorem Weft.raise_active (w : Weft) (fl : Flags) : (w.raise fl).active = w.active := rfl
@[simp] theorem Weft.raise_stack (w : Weft) (fl : Flags) : (w.raise fl).stack = w.stack := rfl
@[simp] theorem Weft.raise_dlm (w : Weft) (fl : Flags) : (w.raise fl).dlm = w.dlm := rfl
@[simp] theorem Weft.raise_exm (w : Weft) (fl : Flags) : (w.raise fl).exm = w.exm := rfl
@[simp] theorem Weft.raise_fpctl (w : Weft) (fl : Flags) : (w.raise fl).fpctl = w.fpctl := rfl
@[simp] theorem Weft.raise_fpstat (w : Weft) (fl : Flags) : (w.raise fl).fpstat = w.fpstat ||| fl.zeroExtend 64 := rfl
@[simp] theorem Weft.raise_trapcause (w : Weft) (fl : Flags) : (w.raise fl).trapcause = w.trapcause := rfl
@[simp] theorem Weft.raise_trappc (w : Weft) (fl : Flags) : (w.raise fl).trappc = w.trappc := rfl
@[simp] theorem Weft.raise_trapaddr (w : Weft) (fl : Flags) : (w.raise fl).trapaddr = w.trapaddr := rfl
@[simp] theorem Weft.raise_trapmask (w : Weft) (fl : Flags) : (w.raise fl).trapmask = w.trapmask := rfl
@[simp] theorem Weft.raise_tstat (w : Weft) (fl : Flags) : (w.raise fl).tstat = w.tstat := rfl
@[simp] theorem Weft.raise_thvec (w : Weft) (fl : Flags) : (w.raise fl).thvec = w.thvec := rfl
@[simp] theorem Weft.raise_trec (w : Weft) (fl : Flags) : (w.raise fl).trec = w.trec := rfl
@[simp] theorem Weft.raise_pend (w : Weft) (fl : Flags) : (w.raise fl).pend = w.pend := rfl
@[simp] theorem Weft.raise_mfail (w : Weft) (fl : Flags) : (w.raise fl).mfail = w.mfail := rfl
@[simp] theorem Weft.raise_flights (w : Weft) (fl : Flags) : (w.raise fl).flights = w.flights := rfl
@[simp] theorem Weft.raise_sAbort (w : Weft) (fl : Flags) : (w.raise fl).sAbort = w.sAbort := rfl
@[simp] theorem Weft.raise_repeatPhase (w : Weft) (fl : Flags) : (w.raise fl).repeatPhase = w.repeatPhase := rfl
@[simp] theorem Weft.raise_leaseDecl (w : Weft) (fl : Flags) : (w.raise fl).leaseDecl = w.leaseDecl := rfl
@[simp] theorem Weft.raise_lease (w : Weft) (fl : Flags) : (w.raise fl).lease = w.lease := rfl
@[simp] theorem Weft.raise_measured (w : Weft) (fl : Flags) : (w.raise fl).measured = w.measured := rfl
@[simp] theorem Weft.raise_lowWindows (w : Weft) (fl : Flags) : (w.raise fl).lowWindows = w.lowWindows := rfl
@[simp] theorem Weft.raise_issued (w : Weft) (fl : Flags) : (w.raise fl).issued = w.issued := rfl
@[simp] theorem Weft.raise_misses (w : Weft) (fl : Flags) : (w.raise fl).misses = w.misses := rfl
@[simp] theorem Weft.raise_slot (w : Weft) (fl : Flags) : (w.raise fl).slot = w.slot := rfl
@[simp] theorem Weft.raise_passed (w : Weft) (fl : Flags) : (w.raise fl).passed = w.passed := rfl
@[simp] theorem Weft.raise_since (w : Weft) (fl : Flags) : (w.raise fl).since = w.since := rfl
@[simp] theorem Weft.raise_scale (w : Weft) (fl : Flags) : (w.raise fl).scale = w.scale := rfl
@[simp] theorem Weft.raise_sparse (w : Weft) (fl : Flags) : (w.raise fl).sparse = w.sparse := rfl
@[simp] theorem Weft.raise_nextBatch (w : Weft) (fl : Flags) : (w.raise fl).nextBatch = w.nextBatch := rfl
@[simp] theorem Weft.raise_chain (w : Weft) (fl : Flags) : (w.raise fl).chain = w.chain := rfl
@[simp] theorem Weft.raise_batches (w : Weft) (fl : Flags) : (w.raise fl).batches = w.batches := rfl
@[simp] theorem Weft.raise_handler (w : Weft) (fl : Flags) : (w.raise fl).handler = w.handler := rfl
@[simp] theorem Weft.raise_fired (w : Weft) (fl : Flags) : (w.raise fl).fired = w.fired := rfl
@[simp] theorem Weft.raise_relTags (w : Weft) (fl : Flags) : (w.raise fl).relTags = w.relTags := rfl
@[simp] theorem Weft.raise_bad (w : Weft) (fl : Flags) : (w.raise fl).bad = w.bad := rfl
@[simp] theorem Weft.raise_pendPath (w : Weft) (fl : Flags) : (w.raise fl).pendPath = w.pendPath := rfl
@[simp] theorem Weft.raise_seek (w : Weft) (fl : Flags) : (w.raise fl).seek = w.seek := rfl

/-! ## `Weft.cleared` -/

@[simp] theorem Weft.cleared_bolt (w : Weft) : (w.cleared).bolt = w.bolt := rfl
@[simp] theorem Weft.cleared_id (w : Weft) : (w.cleared).id = w.id := rfl
@[simp] theorem Weft.cleared_prot (w : Weft) : (w.cleared).prot = w.prot := rfl
@[simp] theorem Weft.cleared_vregs (w : Weft) : (w.cleared).vregs = w.vregs := rfl
@[simp] theorem Weft.cleared_sregs (w : Weft) : (w.cleared).sregs = w.sregs := rfl
@[simp] theorem Weft.cleared_status (w : Weft) : (w.cleared).status = w.status := rfl
@[simp] theorem Weft.cleared_wait (w : Weft) : (w.cleared).wait = none := rfl
@[simp] theorem Weft.cleared_vr (w : Weft) : (w.cleared).vr = w.vr := rfl
@[simp] theorem Weft.cleared_sr (w : Weft) : (w.cleared).sr = w.sr := rfl
@[simp] theorem Weft.cleared_ks (w : Weft) : (w.cleared).ks = w.ks := rfl
@[simp] theorem Weft.cleared_oddV (w : Weft) : (w.cleared).oddV = w.oddV := rfl
@[simp] theorem Weft.cleared_oddK (w : Weft) : (w.cleared).oddK = w.oddK := rfl
@[simp] theorem Weft.cleared_oddF (w : Weft) : (w.cleared).oddF = w.oddF := rfl
@[simp] theorem Weft.cleared_pc (w : Weft) : (w.cleared).pc = w.pc := rfl
@[simp] theorem Weft.cleared_active (w : Weft) : (w.cleared).active = w.active := rfl
@[simp] theorem Weft.cleared_stack (w : Weft) : (w.cleared).stack = w.stack := rfl
@[simp] theorem Weft.cleared_dlm (w : Weft) : (w.cleared).dlm = w.dlm := rfl
@[simp] theorem Weft.cleared_exm (w : Weft) : (w.cleared).exm = w.exm := rfl
@[simp] theorem Weft.cleared_fpctl (w : Weft) : (w.cleared).fpctl = w.fpctl := rfl
@[simp] theorem Weft.cleared_fpstat (w : Weft) : (w.cleared).fpstat = w.fpstat := rfl
@[simp] theorem Weft.cleared_trapcause (w : Weft) : (w.cleared).trapcause = w.trapcause := rfl
@[simp] theorem Weft.cleared_trappc (w : Weft) : (w.cleared).trappc = w.trappc := rfl
@[simp] theorem Weft.cleared_trapaddr (w : Weft) : (w.cleared).trapaddr = w.trapaddr := rfl
@[simp] theorem Weft.cleared_trapmask (w : Weft) : (w.cleared).trapmask = w.trapmask := rfl
@[simp] theorem Weft.cleared_tstat (w : Weft) : (w.cleared).tstat = w.tstat := rfl
@[simp] theorem Weft.cleared_thvec (w : Weft) : (w.cleared).thvec = w.thvec := rfl
@[simp] theorem Weft.cleared_trec (w : Weft) : (w.cleared).trec = w.trec := rfl
@[simp] theorem Weft.cleared_pend (w : Weft) : (w.cleared).pend = w.pend := rfl
@[simp] theorem Weft.cleared_mfail (w : Weft) : (w.cleared).mfail = w.mfail := rfl
@[simp] theorem Weft.cleared_flights (w : Weft) : (w.cleared).flights = w.flights := rfl
@[simp] theorem Weft.cleared_sAbort (w : Weft) : (w.cleared).sAbort = w.sAbort := rfl
@[simp] theorem Weft.cleared_repeatPhase (w : Weft) : (w.cleared).repeatPhase = none := rfl
@[simp] theorem Weft.cleared_leaseDecl (w : Weft) : (w.cleared).leaseDecl = w.leaseDecl := rfl
@[simp] theorem Weft.cleared_lease (w : Weft) : (w.cleared).lease = w.lease := rfl
@[simp] theorem Weft.cleared_measured (w : Weft) : (w.cleared).measured = w.measured := rfl
@[simp] theorem Weft.cleared_lowWindows (w : Weft) : (w.cleared).lowWindows = w.lowWindows := rfl
@[simp] theorem Weft.cleared_issued (w : Weft) : (w.cleared).issued = w.issued := rfl
@[simp] theorem Weft.cleared_misses (w : Weft) : (w.cleared).misses = w.misses := rfl
@[simp] theorem Weft.cleared_slot (w : Weft) : (w.cleared).slot = w.slot := rfl
@[simp] theorem Weft.cleared_passed (w : Weft) : (w.cleared).passed = w.passed := rfl
@[simp] theorem Weft.cleared_since (w : Weft) : (w.cleared).since = w.since := rfl
@[simp] theorem Weft.cleared_scale (w : Weft) : (w.cleared).scale = w.scale := rfl
@[simp] theorem Weft.cleared_sparse (w : Weft) : (w.cleared).sparse = w.sparse := rfl
@[simp] theorem Weft.cleared_nextBatch (w : Weft) : (w.cleared).nextBatch = w.nextBatch := rfl
@[simp] theorem Weft.cleared_chain (w : Weft) : (w.cleared).chain = w.chain := rfl
@[simp] theorem Weft.cleared_batches (w : Weft) : (w.cleared).batches = w.batches := rfl
@[simp] theorem Weft.cleared_handler (w : Weft) : (w.cleared).handler = w.handler := rfl
@[simp] theorem Weft.cleared_fired (w : Weft) : (w.cleared).fired = w.fired := rfl
@[simp] theorem Weft.cleared_relTags (w : Weft) : (w.cleared).relTags = none := rfl
@[simp] theorem Weft.cleared_bad (w : Weft) : (w.cleared).bad = w.bad := rfl
@[simp] theorem Weft.cleared_pendPath (w : Weft) : (w.cleared).pendPath = w.pendPath := rfl
@[simp] theorem Weft.cleared_seek (w : Weft) : (w.cleared).seek = w.seek := rfl

/-! ## `Weft.enterHandler` -/

@[simp] theorem Weft.enterHandler_bolt (w : Weft) (t : Trap) : (w.enterHandler t).bolt = w.bolt := rfl
@[simp] theorem Weft.enterHandler_id (w : Weft) (t : Trap) : (w.enterHandler t).id = w.id := rfl
@[simp] theorem Weft.enterHandler_prot (w : Weft) (t : Trap) : (w.enterHandler t).prot = w.prot := rfl
@[simp] theorem Weft.enterHandler_vregs (w : Weft) (t : Trap) : (w.enterHandler t).vregs = w.vregs := rfl
@[simp] theorem Weft.enterHandler_sregs (w : Weft) (t : Trap) : (w.enterHandler t).sregs = w.sregs := rfl
@[simp] theorem Weft.enterHandler_status (w : Weft) (t : Trap) : (w.enterHandler t).status = w.status := rfl
@[simp] theorem Weft.enterHandler_wait (w : Weft) (t : Trap) : (w.enterHandler t).wait = none := rfl
@[simp] theorem Weft.enterHandler_vr (w : Weft) (t : Trap) : (w.enterHandler t).vr = w.vr := rfl
@[simp] theorem Weft.enterHandler_sr (w : Weft) (t : Trap) : (w.enterHandler t).sr = w.sr := rfl
@[simp] theorem Weft.enterHandler_ks (w : Weft) (t : Trap) : (w.enterHandler t).ks = w.ks := rfl
@[simp] theorem Weft.enterHandler_oddV (w : Weft) (t : Trap) : (w.enterHandler t).oddV = w.oddV := rfl
@[simp] theorem Weft.enterHandler_oddK (w : Weft) (t : Trap) : (w.enterHandler t).oddK = w.oddK := rfl
@[simp] theorem Weft.enterHandler_oddF (w : Weft) (t : Trap) : (w.enterHandler t).oddF = w.oddF := rfl
@[simp] theorem Weft.enterHandler_pc (w : Weft) (t : Trap) : (w.enterHandler t).pc = w.thvec.truncate 57 := rfl
@[simp] theorem Weft.enterHandler_active (w : Weft) (t : Trap) : (w.enterHandler t).active = w.active := rfl
@[simp] theorem Weft.enterHandler_stack (w : Weft) (t : Trap) : (w.enterHandler t).stack = w.stack := rfl
@[simp] theorem Weft.enterHandler_dlm (w : Weft) (t : Trap) : (w.enterHandler t).dlm = w.dlm := rfl
@[simp] theorem Weft.enterHandler_exm (w : Weft) (t : Trap) : (w.enterHandler t).exm = w.exm := rfl
@[simp] theorem Weft.enterHandler_fpctl (w : Weft) (t : Trap) : (w.enterHandler t).fpctl = w.fpctl := rfl
@[simp] theorem Weft.enterHandler_fpstat (w : Weft) (t : Trap) : (w.enterHandler t).fpstat = w.fpstat := rfl
@[simp] theorem Weft.enterHandler_trapcause (w : Weft) (t : Trap) : (w.enterHandler t).trapcause = causeWord t := rfl
@[simp] theorem Weft.enterHandler_trappc (w : Weft) (t : Trap) : (w.enterHandler t).trappc = t.pc.zeroExtend 64 &&& ~~~3 := rfl
@[simp] theorem Weft.enterHandler_trapaddr (w : Weft) (t : Trap) : (w.enterHandler t).trapaddr = t.addr.zeroExtend 64 := rfl
@[simp] theorem Weft.enterHandler_trapmask (w : Weft) (t : Trap) : (w.enterHandler t).trapmask = (t.mask &&& w.bits).zeroExtend 64 := rfl
@[simp] theorem Weft.enterHandler_tstat (w : Weft) (t : Trap) : (w.enterHandler t).tstat = tstatWord w.stack.length (w.tstat.getLsbD 1) true := rfl
@[simp] theorem Weft.enterHandler_thvec (w : Weft) (t : Trap) : (w.enterHandler t).thvec = w.thvec := rfl
@[simp] theorem Weft.enterHandler_trec (w : Weft) (t : Trap) : (w.enterHandler t).trec = w.trec := rfl
@[simp] theorem Weft.enterHandler_pend (w : Weft) (t : Trap) : (w.enterHandler t).pend = w.pend := rfl
@[simp] theorem Weft.enterHandler_mfail (w : Weft) (t : Trap) : (w.enterHandler t).mfail = w.mfail := rfl
@[simp] theorem Weft.enterHandler_flights (w : Weft) (t : Trap) : (w.enterHandler t).flights = w.flights := rfl
@[simp] theorem Weft.enterHandler_sAbort (w : Weft) (t : Trap) : (w.enterHandler t).sAbort = w.sAbort := rfl
@[simp] theorem Weft.enterHandler_repeatPhase (w : Weft) (t : Trap) : (w.enterHandler t).repeatPhase = none := rfl
@[simp] theorem Weft.enterHandler_leaseDecl (w : Weft) (t : Trap) : (w.enterHandler t).leaseDecl = w.leaseDecl := rfl
@[simp] theorem Weft.enterHandler_lease (w : Weft) (t : Trap) : (w.enterHandler t).lease = w.lease := rfl
@[simp] theorem Weft.enterHandler_measured (w : Weft) (t : Trap) : (w.enterHandler t).measured = w.measured := rfl
@[simp] theorem Weft.enterHandler_lowWindows (w : Weft) (t : Trap) : (w.enterHandler t).lowWindows = w.lowWindows := rfl
@[simp] theorem Weft.enterHandler_issued (w : Weft) (t : Trap) : (w.enterHandler t).issued = w.issued := rfl
@[simp] theorem Weft.enterHandler_misses (w : Weft) (t : Trap) : (w.enterHandler t).misses = w.misses := rfl
@[simp] theorem Weft.enterHandler_slot (w : Weft) (t : Trap) : (w.enterHandler t).slot = w.slot := rfl
@[simp] theorem Weft.enterHandler_passed (w : Weft) (t : Trap) : (w.enterHandler t).passed = w.passed := rfl
@[simp] theorem Weft.enterHandler_since (w : Weft) (t : Trap) : (w.enterHandler t).since = w.since := rfl
@[simp] theorem Weft.enterHandler_scale (w : Weft) (t : Trap) : (w.enterHandler t).scale = w.scale := rfl
@[simp] theorem Weft.enterHandler_sparse (w : Weft) (t : Trap) : (w.enterHandler t).sparse = w.sparse := rfl
@[simp] theorem Weft.enterHandler_nextBatch (w : Weft) (t : Trap) : (w.enterHandler t).nextBatch = w.nextBatch := rfl
@[simp] theorem Weft.enterHandler_chain (w : Weft) (t : Trap) : (w.enterHandler t).chain = w.chain := rfl
@[simp] theorem Weft.enterHandler_batches (w : Weft) (t : Trap) : (w.enterHandler t).batches = w.batches := rfl
@[simp] theorem Weft.enterHandler_handler (w : Weft) (t : Trap) : (w.enterHandler t).handler = w.handler := rfl
@[simp] theorem Weft.enterHandler_fired (w : Weft) (t : Trap) : (w.enterHandler t).fired = w.fired := rfl
@[simp] theorem Weft.enterHandler_relTags (w : Weft) (t : Trap) : (w.enterHandler t).relTags = w.relTags := rfl
@[simp] theorem Weft.enterHandler_bad (w : Weft) (t : Trap) : (w.enterHandler t).bad = w.bad := rfl
@[simp] theorem Weft.enterHandler_pendPath (w : Weft) (t : Trap) : (w.enterHandler t).pendPath = w.pendPath := rfl
@[simp] theorem Weft.enterHandler_seek (w : Weft) (t : Trap) : (w.enterHandler t).seek = w.seek := rfl

/-! ## `Weft.returnFromTrap` -/

@[simp] theorem Weft.returnFromTrap_bolt (w : Weft) : (w.returnFromTrap).bolt = w.bolt := rfl
@[simp] theorem Weft.returnFromTrap_id (w : Weft) : (w.returnFromTrap).id = w.id := rfl
@[simp] theorem Weft.returnFromTrap_prot (w : Weft) : (w.returnFromTrap).prot = w.prot := rfl
@[simp] theorem Weft.returnFromTrap_vregs (w : Weft) : (w.returnFromTrap).vregs = w.vregs := rfl
@[simp] theorem Weft.returnFromTrap_sregs (w : Weft) : (w.returnFromTrap).sregs = w.sregs := rfl
@[simp] theorem Weft.returnFromTrap_status (w : Weft) : (w.returnFromTrap).status = w.status := rfl
@[simp] theorem Weft.returnFromTrap_wait (w : Weft) : (w.returnFromTrap).wait = w.wait := rfl
@[simp] theorem Weft.returnFromTrap_vr (w : Weft) : (w.returnFromTrap).vr = w.vr := rfl
@[simp] theorem Weft.returnFromTrap_sr (w : Weft) : (w.returnFromTrap).sr = w.sr := rfl
@[simp] theorem Weft.returnFromTrap_ks (w : Weft) : (w.returnFromTrap).ks = w.ks := rfl
@[simp] theorem Weft.returnFromTrap_oddV (w : Weft) : (w.returnFromTrap).oddV = w.oddV := rfl
@[simp] theorem Weft.returnFromTrap_oddK (w : Weft) : (w.returnFromTrap).oddK = w.oddK := rfl
@[simp] theorem Weft.returnFromTrap_oddF (w : Weft) : (w.returnFromTrap).oddF = w.oddF := rfl
@[simp] theorem Weft.returnFromTrap_pc (w : Weft) : (w.returnFromTrap).pc = w.trappc.truncate 57 := rfl
@[simp] theorem Weft.returnFromTrap_active (w : Weft) : (w.returnFromTrap).active = w.active := rfl
@[simp] theorem Weft.returnFromTrap_stack (w : Weft) : (w.returnFromTrap).stack = w.stack := rfl
@[simp] theorem Weft.returnFromTrap_dlm (w : Weft) : (w.returnFromTrap).dlm = w.dlm := rfl
@[simp] theorem Weft.returnFromTrap_exm (w : Weft) : (w.returnFromTrap).exm = w.exm := rfl
@[simp] theorem Weft.returnFromTrap_fpctl (w : Weft) : (w.returnFromTrap).fpctl = w.fpctl := rfl
@[simp] theorem Weft.returnFromTrap_fpstat (w : Weft) : (w.returnFromTrap).fpstat = w.fpstat := rfl
@[simp] theorem Weft.returnFromTrap_trapcause (w : Weft) : (w.returnFromTrap).trapcause = w.trapcause := rfl
@[simp] theorem Weft.returnFromTrap_trappc (w : Weft) : (w.returnFromTrap).trappc = w.trappc := rfl
@[simp] theorem Weft.returnFromTrap_trapaddr (w : Weft) : (w.returnFromTrap).trapaddr = w.trapaddr := rfl
@[simp] theorem Weft.returnFromTrap_trapmask (w : Weft) : (w.returnFromTrap).trapmask = w.trapmask := rfl
@[simp] theorem Weft.returnFromTrap_tstat (w : Weft) : (w.returnFromTrap).tstat = w.tstat &&& ~~~1 := rfl
@[simp] theorem Weft.returnFromTrap_thvec (w : Weft) : (w.returnFromTrap).thvec = w.thvec := rfl
@[simp] theorem Weft.returnFromTrap_trec (w : Weft) : (w.returnFromTrap).trec = w.trec := rfl
@[simp] theorem Weft.returnFromTrap_pend (w : Weft) : (w.returnFromTrap).pend = w.pend := rfl
@[simp] theorem Weft.returnFromTrap_mfail (w : Weft) : (w.returnFromTrap).mfail = w.mfail := rfl
@[simp] theorem Weft.returnFromTrap_flights (w : Weft) : (w.returnFromTrap).flights = w.flights := rfl
@[simp] theorem Weft.returnFromTrap_sAbort (w : Weft) : (w.returnFromTrap).sAbort = w.sAbort := rfl
@[simp] theorem Weft.returnFromTrap_repeatPhase (w : Weft) : (w.returnFromTrap).repeatPhase = w.repeatPhase := rfl
@[simp] theorem Weft.returnFromTrap_leaseDecl (w : Weft) : (w.returnFromTrap).leaseDecl = w.leaseDecl := rfl
@[simp] theorem Weft.returnFromTrap_lease (w : Weft) : (w.returnFromTrap).lease = w.lease := rfl
@[simp] theorem Weft.returnFromTrap_measured (w : Weft) : (w.returnFromTrap).measured = w.measured := rfl
@[simp] theorem Weft.returnFromTrap_lowWindows (w : Weft) : (w.returnFromTrap).lowWindows = w.lowWindows := rfl
@[simp] theorem Weft.returnFromTrap_issued (w : Weft) : (w.returnFromTrap).issued = w.issued := rfl
@[simp] theorem Weft.returnFromTrap_misses (w : Weft) : (w.returnFromTrap).misses = w.misses := rfl
@[simp] theorem Weft.returnFromTrap_slot (w : Weft) : (w.returnFromTrap).slot = w.slot := rfl
@[simp] theorem Weft.returnFromTrap_passed (w : Weft) : (w.returnFromTrap).passed = w.passed := rfl
@[simp] theorem Weft.returnFromTrap_since (w : Weft) : (w.returnFromTrap).since = w.since := rfl
@[simp] theorem Weft.returnFromTrap_scale (w : Weft) : (w.returnFromTrap).scale = w.scale := rfl
@[simp] theorem Weft.returnFromTrap_sparse (w : Weft) : (w.returnFromTrap).sparse = w.sparse := rfl
@[simp] theorem Weft.returnFromTrap_nextBatch (w : Weft) : (w.returnFromTrap).nextBatch = w.nextBatch := rfl
@[simp] theorem Weft.returnFromTrap_chain (w : Weft) : (w.returnFromTrap).chain = w.chain := rfl
@[simp] theorem Weft.returnFromTrap_batches (w : Weft) : (w.returnFromTrap).batches = w.batches := rfl
@[simp] theorem Weft.returnFromTrap_handler (w : Weft) : (w.returnFromTrap).handler = w.handler := rfl
@[simp] theorem Weft.returnFromTrap_fired (w : Weft) : (w.returnFromTrap).fired = w.fired := rfl
@[simp] theorem Weft.returnFromTrap_relTags (w : Weft) : (w.returnFromTrap).relTags = w.relTags := rfl
@[simp] theorem Weft.returnFromTrap_bad (w : Weft) : (w.returnFromTrap).bad = w.bad := rfl
@[simp] theorem Weft.returnFromTrap_pendPath (w : Weft) : (w.returnFromTrap).pendPath = w.pendPath := rfl
@[simp] theorem Weft.returnFromTrap_seek (w : Weft) : (w.returnFromTrap).seek = w.seek := rfl

/-! ## `Weft.goto` -/

@[simp] theorem Weft.goto_bolt (w : Weft) (pc : Va) : (w.goto pc).bolt = w.bolt := rfl
@[simp] theorem Weft.goto_id (w : Weft) (pc : Va) : (w.goto pc).id = w.id := rfl
@[simp] theorem Weft.goto_prot (w : Weft) (pc : Va) : (w.goto pc).prot = w.prot := rfl
@[simp] theorem Weft.goto_vregs (w : Weft) (pc : Va) : (w.goto pc).vregs = w.vregs := rfl
@[simp] theorem Weft.goto_sregs (w : Weft) (pc : Va) : (w.goto pc).sregs = w.sregs := rfl
@[simp] theorem Weft.goto_status (w : Weft) (pc : Va) : (w.goto pc).status = w.status := rfl
@[simp] theorem Weft.goto_wait (w : Weft) (pc : Va) : (w.goto pc).wait = w.wait := rfl
@[simp] theorem Weft.goto_vr (w : Weft) (pc : Va) : (w.goto pc).vr = w.vr := rfl
@[simp] theorem Weft.goto_sr (w : Weft) (pc : Va) : (w.goto pc).sr = w.sr := rfl
@[simp] theorem Weft.goto_ks (w : Weft) (pc : Va) : (w.goto pc).ks = w.ks := rfl
@[simp] theorem Weft.goto_oddV (w : Weft) (pc : Va) : (w.goto pc).oddV = w.oddV := rfl
@[simp] theorem Weft.goto_oddK (w : Weft) (pc : Va) : (w.goto pc).oddK = w.oddK := rfl
@[simp] theorem Weft.goto_oddF (w : Weft) (pc : Va) : (w.goto pc).oddF = w.oddF := rfl
@[simp] theorem Weft.goto_pc (w : Weft) (pc : Va) : (w.goto pc).pc = (collapse (w.stack.length + 1) ⟨pc, w.active⟩ w.stack).1.pc := rfl
@[simp] theorem Weft.goto_active (w : Weft) (pc : Va) : (w.goto pc).active = (collapse (w.stack.length + 1) ⟨pc, w.active⟩ w.stack).1.mask := rfl
@[simp] theorem Weft.goto_stack (w : Weft) (pc : Va) : (w.goto pc).stack = (collapse (w.stack.length + 1) ⟨pc, w.active⟩ w.stack).2 := rfl
@[simp] theorem Weft.goto_dlm (w : Weft) (pc : Va) : (w.goto pc).dlm = w.dlm := rfl
@[simp] theorem Weft.goto_exm (w : Weft) (pc : Va) : (w.goto pc).exm = w.exm := rfl
@[simp] theorem Weft.goto_fpctl (w : Weft) (pc : Va) : (w.goto pc).fpctl = w.fpctl := rfl
@[simp] theorem Weft.goto_fpstat (w : Weft) (pc : Va) : (w.goto pc).fpstat = w.fpstat := rfl
@[simp] theorem Weft.goto_trapcause (w : Weft) (pc : Va) : (w.goto pc).trapcause = w.trapcause := rfl
@[simp] theorem Weft.goto_trappc (w : Weft) (pc : Va) : (w.goto pc).trappc = w.trappc := rfl
@[simp] theorem Weft.goto_trapaddr (w : Weft) (pc : Va) : (w.goto pc).trapaddr = w.trapaddr := rfl
@[simp] theorem Weft.goto_trapmask (w : Weft) (pc : Va) : (w.goto pc).trapmask = w.trapmask := rfl
@[simp] theorem Weft.goto_tstat (w : Weft) (pc : Va) : (w.goto pc).tstat = w.tstat := rfl
@[simp] theorem Weft.goto_thvec (w : Weft) (pc : Va) : (w.goto pc).thvec = w.thvec := rfl
@[simp] theorem Weft.goto_trec (w : Weft) (pc : Va) : (w.goto pc).trec = w.trec := rfl
@[simp] theorem Weft.goto_pend (w : Weft) (pc : Va) : (w.goto pc).pend = w.pend := rfl
@[simp] theorem Weft.goto_mfail (w : Weft) (pc : Va) : (w.goto pc).mfail = w.mfail := rfl
@[simp] theorem Weft.goto_flights (w : Weft) (pc : Va) : (w.goto pc).flights = w.flights := rfl
@[simp] theorem Weft.goto_sAbort (w : Weft) (pc : Va) : (w.goto pc).sAbort = w.sAbort := rfl
@[simp] theorem Weft.goto_repeatPhase (w : Weft) (pc : Va) : (w.goto pc).repeatPhase = w.repeatPhase := rfl
@[simp] theorem Weft.goto_leaseDecl (w : Weft) (pc : Va) : (w.goto pc).leaseDecl = w.leaseDecl := rfl
@[simp] theorem Weft.goto_lease (w : Weft) (pc : Va) : (w.goto pc).lease = w.lease := rfl
@[simp] theorem Weft.goto_measured (w : Weft) (pc : Va) : (w.goto pc).measured = w.measured := rfl
@[simp] theorem Weft.goto_lowWindows (w : Weft) (pc : Va) : (w.goto pc).lowWindows = w.lowWindows := rfl
@[simp] theorem Weft.goto_issued (w : Weft) (pc : Va) : (w.goto pc).issued = w.issued := rfl
@[simp] theorem Weft.goto_misses (w : Weft) (pc : Va) : (w.goto pc).misses = w.misses := rfl
@[simp] theorem Weft.goto_slot (w : Weft) (pc : Va) : (w.goto pc).slot = w.slot := rfl
@[simp] theorem Weft.goto_passed (w : Weft) (pc : Va) : (w.goto pc).passed = w.passed := rfl
@[simp] theorem Weft.goto_since (w : Weft) (pc : Va) : (w.goto pc).since = w.since := rfl
@[simp] theorem Weft.goto_scale (w : Weft) (pc : Va) : (w.goto pc).scale = w.scale := rfl
@[simp] theorem Weft.goto_sparse (w : Weft) (pc : Va) : (w.goto pc).sparse = w.sparse := rfl
@[simp] theorem Weft.goto_nextBatch (w : Weft) (pc : Va) : (w.goto pc).nextBatch = w.nextBatch := rfl
@[simp] theorem Weft.goto_chain (w : Weft) (pc : Va) : (w.goto pc).chain = w.chain := rfl
@[simp] theorem Weft.goto_batches (w : Weft) (pc : Va) : (w.goto pc).batches = w.batches := rfl
@[simp] theorem Weft.goto_handler (w : Weft) (pc : Va) : (w.goto pc).handler = w.handler := rfl
@[simp] theorem Weft.goto_fired (w : Weft) (pc : Va) : (w.goto pc).fired = w.fired := rfl
@[simp] theorem Weft.goto_relTags (w : Weft) (pc : Va) : (w.goto pc).relTags = w.relTags := rfl
@[simp] theorem Weft.goto_bad (w : Weft) (pc : Va) : (w.goto pc).bad = w.bad := rfl
@[simp] theorem Weft.goto_pendPath (w : Weft) (pc : Va) : (w.goto pc).pendPath = w.pendPath := rfl
@[simp] theorem Weft.goto_seek (w : Weft) (pc : Va) : (w.goto pc).seek = w.seek := rfl

/-! ## `Weft.advance` -/

@[simp] theorem Weft.advance_bolt (w : Weft) (len : Nat) : (w.advance len).bolt = w.bolt := rfl
@[simp] theorem Weft.advance_id (w : Weft) (len : Nat) : (w.advance len).id = w.id := rfl
@[simp] theorem Weft.advance_prot (w : Weft) (len : Nat) : (w.advance len).prot = w.prot := rfl
@[simp] theorem Weft.advance_vregs (w : Weft) (len : Nat) : (w.advance len).vregs = w.vregs := rfl
@[simp] theorem Weft.advance_sregs (w : Weft) (len : Nat) : (w.advance len).sregs = w.sregs := rfl
@[simp] theorem Weft.advance_status (w : Weft) (len : Nat) : (w.advance len).status = w.status := rfl
@[simp] theorem Weft.advance_wait (w : Weft) (len : Nat) : (w.advance len).wait = w.wait := rfl
@[simp] theorem Weft.advance_vr (w : Weft) (len : Nat) : (w.advance len).vr = w.vr := rfl
@[simp] theorem Weft.advance_sr (w : Weft) (len : Nat) : (w.advance len).sr = w.sr := rfl
@[simp] theorem Weft.advance_ks (w : Weft) (len : Nat) : (w.advance len).ks = w.ks := rfl
@[simp] theorem Weft.advance_oddV (w : Weft) (len : Nat) : (w.advance len).oddV = w.oddV := rfl
@[simp] theorem Weft.advance_oddK (w : Weft) (len : Nat) : (w.advance len).oddK = w.oddK := rfl
@[simp] theorem Weft.advance_oddF (w : Weft) (len : Nat) : (w.advance len).oddF = w.oddF := rfl
@[simp] theorem Weft.advance_pc (w : Weft) (len : Nat) : (w.advance len).pc = (collapse (w.stack.length + 1) ⟨nextPc w.pc len, w.active⟩ w.stack).1.pc := rfl
@[simp] theorem Weft.advance_active (w : Weft) (len : Nat) : (w.advance len).active = (collapse (w.stack.length + 1) ⟨nextPc w.pc len, w.active⟩ w.stack).1.mask := rfl
@[simp] theorem Weft.advance_stack (w : Weft) (len : Nat) : (w.advance len).stack = (collapse (w.stack.length + 1) ⟨nextPc w.pc len, w.active⟩ w.stack).2 := rfl
@[simp] theorem Weft.advance_dlm (w : Weft) (len : Nat) : (w.advance len).dlm = w.dlm := rfl
@[simp] theorem Weft.advance_exm (w : Weft) (len : Nat) : (w.advance len).exm = w.exm := rfl
@[simp] theorem Weft.advance_fpctl (w : Weft) (len : Nat) : (w.advance len).fpctl = w.fpctl := rfl
@[simp] theorem Weft.advance_fpstat (w : Weft) (len : Nat) : (w.advance len).fpstat = w.fpstat := rfl
@[simp] theorem Weft.advance_trapcause (w : Weft) (len : Nat) : (w.advance len).trapcause = w.trapcause := rfl
@[simp] theorem Weft.advance_trappc (w : Weft) (len : Nat) : (w.advance len).trappc = w.trappc := rfl
@[simp] theorem Weft.advance_trapaddr (w : Weft) (len : Nat) : (w.advance len).trapaddr = w.trapaddr := rfl
@[simp] theorem Weft.advance_trapmask (w : Weft) (len : Nat) : (w.advance len).trapmask = w.trapmask := rfl
@[simp] theorem Weft.advance_tstat (w : Weft) (len : Nat) : (w.advance len).tstat = w.tstat := rfl
@[simp] theorem Weft.advance_thvec (w : Weft) (len : Nat) : (w.advance len).thvec = w.thvec := rfl
@[simp] theorem Weft.advance_trec (w : Weft) (len : Nat) : (w.advance len).trec = w.trec := rfl
@[simp] theorem Weft.advance_pend (w : Weft) (len : Nat) : (w.advance len).pend = w.pend := rfl
@[simp] theorem Weft.advance_mfail (w : Weft) (len : Nat) : (w.advance len).mfail = w.mfail := rfl
@[simp] theorem Weft.advance_flights (w : Weft) (len : Nat) : (w.advance len).flights = w.flights := rfl
@[simp] theorem Weft.advance_sAbort (w : Weft) (len : Nat) : (w.advance len).sAbort = w.sAbort := rfl
@[simp] theorem Weft.advance_repeatPhase (w : Weft) (len : Nat) : (w.advance len).repeatPhase = w.repeatPhase := rfl
@[simp] theorem Weft.advance_leaseDecl (w : Weft) (len : Nat) : (w.advance len).leaseDecl = w.leaseDecl := rfl
@[simp] theorem Weft.advance_lease (w : Weft) (len : Nat) : (w.advance len).lease = w.lease := rfl
@[simp] theorem Weft.advance_measured (w : Weft) (len : Nat) : (w.advance len).measured = w.measured := rfl
@[simp] theorem Weft.advance_lowWindows (w : Weft) (len : Nat) : (w.advance len).lowWindows = w.lowWindows := rfl
@[simp] theorem Weft.advance_issued (w : Weft) (len : Nat) : (w.advance len).issued = w.issued := rfl
@[simp] theorem Weft.advance_misses (w : Weft) (len : Nat) : (w.advance len).misses = w.misses := rfl
@[simp] theorem Weft.advance_slot (w : Weft) (len : Nat) : (w.advance len).slot = w.slot := rfl
@[simp] theorem Weft.advance_passed (w : Weft) (len : Nat) : (w.advance len).passed = w.passed := rfl
@[simp] theorem Weft.advance_since (w : Weft) (len : Nat) : (w.advance len).since = w.since := rfl
@[simp] theorem Weft.advance_scale (w : Weft) (len : Nat) : (w.advance len).scale = w.scale := rfl
@[simp] theorem Weft.advance_sparse (w : Weft) (len : Nat) : (w.advance len).sparse = w.sparse := rfl
@[simp] theorem Weft.advance_nextBatch (w : Weft) (len : Nat) : (w.advance len).nextBatch = w.nextBatch := rfl
@[simp] theorem Weft.advance_chain (w : Weft) (len : Nat) : (w.advance len).chain = w.chain := rfl
@[simp] theorem Weft.advance_batches (w : Weft) (len : Nat) : (w.advance len).batches = w.batches := rfl
@[simp] theorem Weft.advance_handler (w : Weft) (len : Nat) : (w.advance len).handler = w.handler := rfl
@[simp] theorem Weft.advance_fired (w : Weft) (len : Nat) : (w.advance len).fired = w.fired := rfl
@[simp] theorem Weft.advance_relTags (w : Weft) (len : Nat) : (w.advance len).relTags = w.relTags := rfl
@[simp] theorem Weft.advance_bad (w : Weft) (len : Nat) : (w.advance len).bad = w.bad := rfl
@[simp] theorem Weft.advance_pendPath (w : Weft) (len : Nat) : (w.advance len).pendPath = w.pendPath := rfl
@[simp] theorem Weft.advance_seek (w : Weft) (len : Nat) : (w.advance len).seek = w.seek := rfl

/-! ## `Weft.setK` -/

@[simp] theorem Weft.setK_bolt (w : Weft) (n : BitVec 3) (m : Mask) : (w.setK n m).bolt = w.bolt := by unfold Weft.setK; split <;> rfl
@[simp] theorem Weft.setK_id (w : Weft) (n : BitVec 3) (m : Mask) : (w.setK n m).id = w.id := by unfold Weft.setK; split <;> rfl
@[simp] theorem Weft.setK_prot (w : Weft) (n : BitVec 3) (m : Mask) : (w.setK n m).prot = w.prot := by unfold Weft.setK; split <;> rfl
@[simp] theorem Weft.setK_vregs (w : Weft) (n : BitVec 3) (m : Mask) : (w.setK n m).vregs = w.vregs := by unfold Weft.setK; split <;> rfl
@[simp] theorem Weft.setK_sregs (w : Weft) (n : BitVec 3) (m : Mask) : (w.setK n m).sregs = w.sregs := by unfold Weft.setK; split <;> rfl
@[simp] theorem Weft.setK_status (w : Weft) (n : BitVec 3) (m : Mask) : (w.setK n m).status = w.status := by unfold Weft.setK; split <;> rfl
@[simp] theorem Weft.setK_wait (w : Weft) (n : BitVec 3) (m : Mask) : (w.setK n m).wait = w.wait := by unfold Weft.setK; split <;> rfl
@[simp] theorem Weft.setK_vr (w : Weft) (n : BitVec 3) (m : Mask) : (w.setK n m).vr = w.vr := by unfold Weft.setK; split <;> rfl
@[simp] theorem Weft.setK_sr (w : Weft) (n : BitVec 3) (m : Mask) : (w.setK n m).sr = w.sr := by unfold Weft.setK; split <;> rfl
@[simp] theorem Weft.setK_oddV (w : Weft) (n : BitVec 3) (m : Mask) : (w.setK n m).oddV = w.oddV := by unfold Weft.setK; split <;> rfl
@[simp] theorem Weft.setK_oddF (w : Weft) (n : BitVec 3) (m : Mask) : (w.setK n m).oddF = w.oddF := by unfold Weft.setK; split <;> rfl
@[simp] theorem Weft.setK_pc (w : Weft) (n : BitVec 3) (m : Mask) : (w.setK n m).pc = w.pc := by unfold Weft.setK; split <;> rfl
@[simp] theorem Weft.setK_active (w : Weft) (n : BitVec 3) (m : Mask) : (w.setK n m).active = w.active := by unfold Weft.setK; split <;> rfl
@[simp] theorem Weft.setK_stack (w : Weft) (n : BitVec 3) (m : Mask) : (w.setK n m).stack = w.stack := by unfold Weft.setK; split <;> rfl
@[simp] theorem Weft.setK_dlm (w : Weft) (n : BitVec 3) (m : Mask) : (w.setK n m).dlm = w.dlm := by unfold Weft.setK; split <;> rfl
@[simp] theorem Weft.setK_exm (w : Weft) (n : BitVec 3) (m : Mask) : (w.setK n m).exm = w.exm := by unfold Weft.setK; split <;> rfl
@[simp] theorem Weft.setK_fpctl (w : Weft) (n : BitVec 3) (m : Mask) : (w.setK n m).fpctl = w.fpctl := by unfold Weft.setK; split <;> rfl
@[simp] theorem Weft.setK_fpstat (w : Weft) (n : BitVec 3) (m : Mask) : (w.setK n m).fpstat = w.fpstat := by unfold Weft.setK; split <;> rfl
@[simp] theorem Weft.setK_trapcause (w : Weft) (n : BitVec 3) (m : Mask) : (w.setK n m).trapcause = w.trapcause := by unfold Weft.setK; split <;> rfl
@[simp] theorem Weft.setK_trappc (w : Weft) (n : BitVec 3) (m : Mask) : (w.setK n m).trappc = w.trappc := by unfold Weft.setK; split <;> rfl
@[simp] theorem Weft.setK_trapaddr (w : Weft) (n : BitVec 3) (m : Mask) : (w.setK n m).trapaddr = w.trapaddr := by unfold Weft.setK; split <;> rfl
@[simp] theorem Weft.setK_trapmask (w : Weft) (n : BitVec 3) (m : Mask) : (w.setK n m).trapmask = w.trapmask := by unfold Weft.setK; split <;> rfl
@[simp] theorem Weft.setK_tstat (w : Weft) (n : BitVec 3) (m : Mask) : (w.setK n m).tstat = w.tstat := by unfold Weft.setK; split <;> rfl
@[simp] theorem Weft.setK_thvec (w : Weft) (n : BitVec 3) (m : Mask) : (w.setK n m).thvec = w.thvec := by unfold Weft.setK; split <;> rfl
@[simp] theorem Weft.setK_trec (w : Weft) (n : BitVec 3) (m : Mask) : (w.setK n m).trec = w.trec := by unfold Weft.setK; split <;> rfl
@[simp] theorem Weft.setK_pend (w : Weft) (n : BitVec 3) (m : Mask) : (w.setK n m).pend = w.pend := by unfold Weft.setK; split <;> rfl
@[simp] theorem Weft.setK_mfail (w : Weft) (n : BitVec 3) (m : Mask) : (w.setK n m).mfail = w.mfail := by unfold Weft.setK; split <;> rfl
@[simp] theorem Weft.setK_flights (w : Weft) (n : BitVec 3) (m : Mask) : (w.setK n m).flights = w.flights := by unfold Weft.setK; split <;> rfl
@[simp] theorem Weft.setK_sAbort (w : Weft) (n : BitVec 3) (m : Mask) : (w.setK n m).sAbort = w.sAbort := by unfold Weft.setK; split <;> rfl
@[simp] theorem Weft.setK_repeatPhase (w : Weft) (n : BitVec 3) (m : Mask) : (w.setK n m).repeatPhase = w.repeatPhase := by unfold Weft.setK; split <;> rfl
@[simp] theorem Weft.setK_leaseDecl (w : Weft) (n : BitVec 3) (m : Mask) : (w.setK n m).leaseDecl = w.leaseDecl := by unfold Weft.setK; split <;> rfl
@[simp] theorem Weft.setK_lease (w : Weft) (n : BitVec 3) (m : Mask) : (w.setK n m).lease = w.lease := by unfold Weft.setK; split <;> rfl
@[simp] theorem Weft.setK_measured (w : Weft) (n : BitVec 3) (m : Mask) : (w.setK n m).measured = w.measured := by unfold Weft.setK; split <;> rfl
@[simp] theorem Weft.setK_lowWindows (w : Weft) (n : BitVec 3) (m : Mask) : (w.setK n m).lowWindows = w.lowWindows := by unfold Weft.setK; split <;> rfl
@[simp] theorem Weft.setK_issued (w : Weft) (n : BitVec 3) (m : Mask) : (w.setK n m).issued = w.issued := by unfold Weft.setK; split <;> rfl
@[simp] theorem Weft.setK_misses (w : Weft) (n : BitVec 3) (m : Mask) : (w.setK n m).misses = w.misses := by unfold Weft.setK; split <;> rfl
@[simp] theorem Weft.setK_slot (w : Weft) (n : BitVec 3) (m : Mask) : (w.setK n m).slot = w.slot := by unfold Weft.setK; split <;> rfl
@[simp] theorem Weft.setK_passed (w : Weft) (n : BitVec 3) (m : Mask) : (w.setK n m).passed = w.passed := by unfold Weft.setK; split <;> rfl
@[simp] theorem Weft.setK_since (w : Weft) (n : BitVec 3) (m : Mask) : (w.setK n m).since = w.since := by unfold Weft.setK; split <;> rfl
@[simp] theorem Weft.setK_scale (w : Weft) (n : BitVec 3) (m : Mask) : (w.setK n m).scale = w.scale := by unfold Weft.setK; split <;> rfl
@[simp] theorem Weft.setK_sparse (w : Weft) (n : BitVec 3) (m : Mask) : (w.setK n m).sparse = w.sparse := by unfold Weft.setK; split <;> rfl
@[simp] theorem Weft.setK_nextBatch (w : Weft) (n : BitVec 3) (m : Mask) : (w.setK n m).nextBatch = w.nextBatch := by unfold Weft.setK; split <;> rfl
@[simp] theorem Weft.setK_chain (w : Weft) (n : BitVec 3) (m : Mask) : (w.setK n m).chain = w.chain := by unfold Weft.setK; split <;> rfl
@[simp] theorem Weft.setK_batches (w : Weft) (n : BitVec 3) (m : Mask) : (w.setK n m).batches = w.batches := by unfold Weft.setK; split <;> rfl
@[simp] theorem Weft.setK_handler (w : Weft) (n : BitVec 3) (m : Mask) : (w.setK n m).handler = w.handler := by unfold Weft.setK; split <;> rfl
@[simp] theorem Weft.setK_fired (w : Weft) (n : BitVec 3) (m : Mask) : (w.setK n m).fired = w.fired := by unfold Weft.setK; split <;> rfl
@[simp] theorem Weft.setK_relTags (w : Weft) (n : BitVec 3) (m : Mask) : (w.setK n m).relTags = w.relTags := by unfold Weft.setK; split <;> rfl
@[simp] theorem Weft.setK_bad (w : Weft) (n : BitVec 3) (m : Mask) : (w.setK n m).bad = w.bad := by unfold Weft.setK; split <;> rfl
@[simp] theorem Weft.setK_pendPath (w : Weft) (n : BitVec 3) (m : Mask) : (w.setK n m).pendPath = w.pendPath := by unfold Weft.setK; split <;> rfl
@[simp] theorem Weft.setK_seek (w : Weft) (n : BitVec 3) (m : Mask) : (w.setK n m).seek = w.seek := by unfold Weft.setK; split <;> rfl

end Sys2Proof.Machine
end

