-- ==== Sys2Proof/Laws/Store.lean ====
section
/-! SUPPORT. The laws of the state's lists of (key, value) pairs: reading what was written, the canonical form kept by every
operation, and little-endian numbers in memory. -/

namespace Sys2Proof

variable {α : Type}

/-! ## Finding -/

@[simp] theorem Store.find_nil (k : Nat) : Store.find ([] : Store α) k = none := rfl

@[simp] theorem Store.find_insert_same (l : Store α) (k : Nat) (v : α) : Store.find (Store.insert l k v) k = some v := by
  induction l with
  | nil => simp [Store.insert, Store.find]
  | cons p t ih =>
    obtain ⟨a, x⟩ := p
    simp only [Store.insert]
    split
    · simp [Store.find]
    · split
      · simp [Store.find]
      · rename_i h1 h2
        simp [Store.find, Ne.symm h2, ih]

@[simp] theorem Store.find_insert_ne (l : Store α) {k j : Nat} (v : α) (h : j ≠ k) :
    Store.find (Store.insert l k v) j = Store.find l j := by
  induction l with
  | nil => simp [Store.insert, Store.find, h.symm]
  | cons p t ih =>
    obtain ⟨a, x⟩ := p
    simp only [Store.insert]
    split
    · simp [Store.find, h.symm]
    · split
      · rename_i h1 h2
        subst h2
        simp [Store.find, h.symm]
      · simp only [Store.find]
        split
        · rfl
        · exact ih

theorem Store.find_modify_same {l : Store α} {k : Nat} {v : α} (f : α → α) (h : Store.find l k = some v) :
    Store.find (Store.modify l k f) k = some (f v) := by
  simp [Store.modify, h]

theorem Store.find_modify_ne (l : Store α) {k j : Nat} (f : α → α) (h : j ≠ k) : Store.find (Store.modify l k f) j = Store.find l j := by
  unfold Store.modify
  split
  · exact Store.find_insert_ne l _ h
  · rfl

theorem Store.find_erase_ne (l : Store α) {k j : Nat} (h : j ≠ k) : Store.find (Store.erase l k) j = Store.find l j := by
  induction l with
  | nil => rfl
  | cons p t ih =>
    obtain ⟨a, x⟩ := p
    simp only [Store.erase]
    split
    · rename_i h1
      subst h1
      simp [Store.find, h.symm, ih]
    · simp only [Store.find]
      split
      · rfl
      · exact ih

@[simp] theorem Store.find_erase_same (l : Store α) (k : Nat) : Store.find (Store.erase l k) k = none := by
  induction l with
  | nil => rfl
  | cons p t ih =>
    obtain ⟨a, x⟩ := p
    simp only [Store.erase]
    split
    · exact ih
    · rename_i ha
      simp only [Store.find, ha, if_false]
      exact ih

/-! ## Sorted keys -/

theorem Store.sortedFrom_mono {lo lo' : Option Nat} {l : Store α} (h : Store.sortedFrom lo l = true)
    (hl : ∀ b, lo' = some b → ∃ c, lo = some c ∧ b ≤ c) : Store.sortedFrom lo' l = true := by
  cases l with
  | nil => rfl
  | cons p t =>
    obtain ⟨a, x⟩ := p
    simp only [Store.sortedFrom, Bool.and_eq_true] at h ⊢
    refine ⟨?_, h.2⟩
    cases lo' with
    | none => rfl
    | some b =>
      obtain ⟨c, rfl, hc⟩ := hl b rfl
      simp only [decide_eq_true_eq] at h ⊢
      exact Nat.lt_of_le_of_lt hc h.1

theorem Store.find_none_of_lt {b k : Nat} {l : Store α} (h : Store.sortedFrom (some b) l = true) (hk : k ≤ b) :
    Store.find l k = none := by
  induction l generalizing b with
  | nil => rfl
  | cons p t ih =>
    obtain ⟨a, x⟩ := p
    simp only [Store.sortedFrom, Bool.and_eq_true, decide_eq_true_eq] at h
    have : a ≠ k := by omega
    simp only [Store.find, this, if_false]
    exact ih h.2 (by omega)

theorem Store.sortedFrom_insert {lo : Option Nat} {l : Store α} {k : Nat} (v : α) (h : Store.sortedFrom lo l = true)
    (hk : ∀ b, lo = some b → b < k) : Store.sortedFrom lo (Store.insert l k v) = true := by
  induction l generalizing lo with
  | nil =>
    cases lo with
    | none => rfl
    | some b => simp [Store.insert, Store.sortedFrom, hk b rfl]
  | cons p t ih =>
    obtain ⟨a, x⟩ := p
    simp only [Store.sortedFrom, Bool.and_eq_true] at h
    simp only [Store.insert]
    split
    · rename_i hka
      simp only [Store.sortedFrom, Bool.and_eq_true, decide_eq_true_eq]
      refine ⟨?_, hka, h.2⟩
      cases lo with
      | none => rfl
      | some b => simp [hk b rfl]
    · split
      · rename_i hne heq
        subst heq
        simp only [Store.sortedFrom, Bool.and_eq_true]
        exact ⟨h.1, h.2⟩
      · rename_i hne heq
        simp only [Store.sortedFrom, Bool.and_eq_true]
        refine ⟨h.1, ih h.2 ?_⟩
        intro b hb
        cases hb
        omega

theorem Store.sortedFrom_erase {lo : Option Nat} {l : Store α} {k : Nat} (h : Store.sortedFrom lo l = true) :
    Store.sortedFrom lo (Store.erase l k) = true := by
  induction l generalizing lo with
  | nil => rfl
  | cons p t ih =>
    obtain ⟨a, x⟩ := p
    simp only [Store.sortedFrom, Bool.and_eq_true] at h
    simp only [Store.erase]
    split
    · refine ih (Store.sortedFrom_mono h.2 ?_)
      intro b hb
      subst hb
      simp only [decide_eq_true_eq] at h
      exact ⟨a, rfl, by omega⟩
    · simp only [Store.sortedFrom, Bool.and_eq_true]
      exact ⟨h.1, ih h.2⟩

/-! ## The canonical form -/

variable [DecidableEq α]

theorem Store.wf_nil (d : α) : Store.wf d [] = true := rfl

theorem Store.wf_sorted {d : α} {l : Store α} (h : Store.wf d l = true) : Store.sortedFrom none l = true := by
  simp only [Store.wf, Bool.and_eq_true] at h
  exact h.1

theorem Store.wf_insert {d v : α} {l : Store α} {k : Nat} (h : Store.wf d l = true) (hv : v ≠ d) :
    Store.wf d (Store.insert l k v) = true := by
  simp only [Store.wf, Bool.and_eq_true] at h ⊢
  refine ⟨Store.sortedFrom_insert v h.1 (by simp), ?_⟩
  have h2 := h.2
  clear h
  induction l with
  | nil => simp [Store.insert, hv]
  | cons p t ih =>
    obtain ⟨a, x⟩ := p
    simp only [List.all_cons, Bool.and_eq_true] at h2
    simp only [Store.insert]
    split
    · simp only [List.all_cons, Bool.and_eq_true]
      exact ⟨by simp [hv], h2.1, h2.2⟩
    · split
      · simp only [List.all_cons, Bool.and_eq_true]
        exact ⟨by simp [hv], h2.2⟩
      · simp only [List.all_cons, Bool.and_eq_true]
        exact ⟨h2.1, ih h2.2⟩

theorem Store.wf_erase {d : α} {l : Store α} {k : Nat} (h : Store.wf d l = true) : Store.wf d (Store.erase l k) = true := by
  simp only [Store.wf, Bool.and_eq_true] at h ⊢
  refine ⟨Store.sortedFrom_erase h.1, ?_⟩
  have h2 := h.2
  clear h
  induction l with
  | nil => rfl
  | cons p t ih =>
    obtain ⟨a, x⟩ := p
    simp only [List.all_cons, Bool.and_eq_true] at h2
    simp only [Store.erase]
    split
    · exact ih h2.2
    · simp only [List.all_cons, Bool.and_eq_true]
      exact ⟨h2.1, ih h2.2⟩

theorem Store.wf_put {d v : α} {l : Store α} {k : Nat} (h : Store.wf d l = true) : Store.wf d (Store.put d l k v) = true := by
  unfold Store.put
  split
  · exact Store.wf_erase h
  · exact Store.wf_insert h (by assumption)

@[simp] theorem Store.get_put_same (d v : α) (l : Store α) (k : Nat) : Store.get d (Store.put d l k v) k = v := by
  unfold Store.get Store.put
  split
  · rename_i hv
    simp [hv]
  · simp

theorem Store.get_put_ne {d v : α} (l : Store α) {k j : Nat} (hj : j ≠ k) :
    Store.get d (Store.put d l k v) j = Store.get d l j := by
  unfold Store.get Store.put
  split
  · rw [Store.find_erase_ne l hj]
  · rw [Store.find_insert_ne l v hj]

/-! ## Bytes -/

theorem Store.wf_putBytes {l : Store Byte} (h : Store.wf 0 l = true) (bs : List Byte) (a : Nat) :
    Store.wf 0 (Store.putBytes l a bs) = true := by
  induction bs generalizing l a with
  | nil => exact h
  | cons b t ih => exact ih (Store.wf_put h) (a + 1)

theorem Store.wf_writeNat {l : Store Byte} (h : Store.wf 0 l = true) (a n x : Nat) :
    Store.wf 0 (Store.writeNat l a n x) = true := Store.wf_putBytes h _ _

/-- A byte outside the written ones reads as before. -/
theorem Store.get_putBytes_out (l : Store Byte) (bs : List Byte) (a j : Nat) (h : j < a ∨ a + bs.length ≤ j) :
    Store.get 0 (Store.putBytes l a bs) j = Store.get 0 l j := by
  induction bs generalizing l a with
  | nil => rfl
  | cons b t ih =>
    simp only [List.length_cons] at h
    rw [Store.putBytes, ih _ _ (by omega), Store.get_put_ne l (by omega)]

/-- A written byte reads as written. -/
theorem Store.get_putBytes_in (l : Store Byte) (bs : List Byte) (a i : Nat) (h : i < bs.length) :
    Store.get 0 (Store.putBytes l a bs) (a + i) = bs[i] := by
  induction bs generalizing l a i with
  | nil => simp at h
  | cons b t ih =>
    rw [Store.putBytes]
    cases i with
    | zero => rw [Store.get_putBytes_out _ _ _ _ (by omega), Nat.add_zero, Store.get_put_same]; rfl
    | succ i =>
      have := ih (Store.put 0 l a b) (a + 1) i (by simpa using h)
      rw [show a + (i + 1) = a + 1 + i by omega, this]
      rfl

@[simp] theorem Store.bytes_length (l : Store Byte) (a n : Nat) : (Store.bytes l a n).length = n := by
  induction n generalizing a with
  | zero => rfl
  | succ n ih => simp [Store.bytes, ih]

theorem Store.getElem_bytes (l : Store Byte) (a n i : Nat) (h : i < n) :
    (Store.bytes l a n)[i]'(by simpa using h) = Store.get 0 l (a + i) := by
  induction n generalizing a i with
  | zero => omega
  | succ n ih =>
    cases i with
    | zero => rfl
    | succ i =>
      simp only [Store.bytes, List.getElem_cons_succ]
      rw [ih (a + 1) i (by omega), show a + 1 + i = a + (i + 1) by omega]

/-- Reading back what was written. -/
theorem Store.bytes_putBytes_same (l : Store Byte) (bs : List Byte) (a : Nat) :
    Store.bytes (Store.putBytes l a bs) a bs.length = bs := by
  apply List.ext_getElem
  · simp
  · intro i h1 h2
    rw [Store.getElem_bytes _ _ _ _ h2, Store.get_putBytes_in _ _ _ _ h2]

/-- A write elsewhere changes nothing that is read. -/
theorem Store.bytes_putBytes_apart (l : Store Byte) (bs : List Byte) (a b n : Nat) (h : b + n ≤ a ∨ a + bs.length ≤ b) :
    Store.bytes (Store.putBytes l a bs) b n = Store.bytes l b n := by
  apply List.ext_getElem
  · simp
  · intro i h1 h2
    simp only [Store.bytes_length] at h1
    rw [Store.getElem_bytes _ _ _ _ h1, Store.getElem_bytes _ _ _ _ h1, Store.get_putBytes_out _ _ _ _ (by omega)]

/-! ## Little-endian numbers (R4) -/

@[simp] theorem natLe_length (n x : Nat) : (natLe n x).length = n := by
  induction n generalizing x with
  | zero => rfl
  | succ n ih => simp [natLe, ih]

theorem leNat_natLe (n x : Nat) : leNat (natLe n x) = x % 256 ^ n := by
  induction n generalizing x with
  | zero => simp [natLe, leNat, Nat.mod_one]
  | succ n ih =>
    simp only [natLe, leNat, ih, BitVec.toNat_ofNat]
    rw [show (2 : Nat) ^ 8 = 256 by norm_num, pow_succ, Nat.mul_comm (256 ^ n) 256, Nat.mod_mul]

theorem natLe_leNat (l : List Byte) : natLe l.length (leNat l) = l := by
  induction l with
  | nil => rfl
  | cons b t ih =>
    have hb : b.toNat < 256 := b.isLt
    simp only [List.length_cons, natLe, leNat]
    rw [show (b.toNat + 256 * leNat t) / 256 = leNat t by omega, ih]
    congr 1
    apply BitVec.eq_of_toNat_eq
    simp only [BitVec.toNat_ofNat]
    omega

/-- The number last written at an address is read back. -/
theorem Store.readNat_writeNat_same (l : Store Byte) (a n x : Nat) :
    Store.readNat (Store.writeNat l a n x) a n = x % 256 ^ n := by
  have := Store.bytes_putBytes_same l (natLe n x) a
  rw [natLe_length] at this
  rw [Store.readNat, Store.writeNat, this, leNat_natLe]

theorem Store.readNat_writeNat_apart (l : Store Byte) (a n x b m : Nat) (h : b + m ≤ a ∨ a + n ≤ b) :
    Store.readNat (Store.writeNat l a n x) b m = Store.readNat l b m := by
  rw [Store.readNat, Store.writeNat, Store.bytes_putBytes_apart _ _ _ _ _ (by simpa using h), Store.readNat]

end Sys2Proof
end

