-- ==== Sys2Proof/Laws/Heddle.lean ====
section
/-! SUPPORT. What the heddle may change (R251 to R257): only its own record of a weft, and the device's count of happenings.
One lemma for each of its operations says so. -/

namespace Sys2Proof.Machine

/-! ## Looking up what was set -/

@[simp] theorem State.weft_setWeft_same (s : State) (h : Nat) (w : Weft) : (s.setWeft h w).weft h = w := by
  simp [State.weft, Store.get]

@[simp] theorem State.weft_setWeft_ne (s : State) {h g : Nat} (w : Weft) (hg : g ≠ h) : (s.setWeft h w).weft g = s.weft g := by
  simp [State.weft, Store.get, hg]

@[simp] theorem State.core_setCore_same (s : State) (n : Nat) (c : Core) : (s.setCore n c).core n = c := by
  simp [State.core, Store.get]

@[simp] theorem State.core_setCore_ne (s : State) {n m : Nat} (c : Core) (hm : m ≠ n) : (s.setCore n c).core m = s.core m := by
  simp [State.core, Store.get, hm]

@[simp] theorem State.bolt_setBolt_same (s : State) (h : Nat) (b : Bolt) : (s.setBolt h b).bolt h = b := by
  simp [State.bolt, Store.get]

@[simp] theorem State.bolt_setBolt_ne (s : State) {h g : Nat} (b : Bolt) (hg : g ≠ h) : (s.setBolt h b).bolt g = s.bolt g := by
  simp [State.bolt, Store.get, hg]

@[simp] theorem State.core_setWeft (s : State) (h : Nat) (w : Weft) (n : Nat) : (s.setWeft h w).core n = s.core n := rfl
@[simp] theorem State.bolt_setWeft (s : State) (h : Nat) (w : Weft) (b : Nat) : (s.setWeft h w).bolt b = s.bolt b := rfl
@[simp] theorem State.weft_setCore (s : State) (n : Nat) (c : Core) (h : Nat) : (s.setCore n c).weft h = s.weft h := rfl
@[simp] theorem State.weft_setBolt (s : State) (n : Nat) (b : Bolt) (h : Nat) : (s.setBolt n b).weft h = s.weft h := rfl
@[simp] theorem State.core_setBolt (s : State) (n : Nat) (b : Bolt) (h : Nat) : (s.setBolt n b).core h = s.core h := rfl
@[simp] theorem State.bolt_setCore (s : State) (n : Nat) (c : Core) (h : Nat) : (s.setCore n c).bolt h = s.bolt h := rfl

theorem State.weft_mapWeft_same {s : State} {h : Nat} {w : Weft} (f : Weft → Weft) (hw : Store.find s.wefts h = some w) :
    (s.mapWeft h f).weft h = f w := by
  simp [State.mapWeft, State.weft, Store.get, Store.find_modify_same f hw]

theorem State.weft_mapWeft_ne (s : State) {h g : Nat} (f : Weft → Weft) (hg : g ≠ h) : (s.mapWeft h f).weft g = s.weft g := by
  simp [State.mapWeft, State.weft, Store.get, Store.find_modify_ne _ f hg]

/-- A weft that holds a trap record is one of the device's. -/
theorem State.find_of_trec {s : State} {h : Nat} {r : TrapRec} (hr : (s.weft h).trec = some r) :
    Store.find s.wefts h = some (s.weft h) := by
  unfold State.weft Store.get at *
  cases hf : Store.find s.wefts h with
  | none => rw [hf] at hr; cases hr
  | some w => rfl

/-! ## The heddle's own changes -/

/-- Only the heddle's record of wefts, and the count of happenings, may differ. -/
structure Heddled (s t : State) : Prop where
  device : { t with wefts := s.wefts, cores := s.cores, order := s.order } = s
  cores : ∀ n, (t.core n).arch = (s.core n).arch
  wefts : ∀ g, (t.weft g).arch = (s.weft g).arch

theorem Heddled.refl (s : State) : Heddled s s := ⟨rfl, fun _ => rfl, fun _ => rfl⟩

theorem Heddled.trans {s t u : State} (h : Heddled s t) (k : Heddled t u) : Heddled s u := by
  refine ⟨?_, fun n => (k.cores n).trans (h.cores n), fun g => (k.wefts g).trans (h.wefts g)⟩
  have a := h.device
  have b := k.device
  cases s; cases t; cases u
  simp only [State.mk.injEq] at a b ⊢
  obtain ⟨_, _, _, _, _, _, _, _⟩ := a
  simp_all

theorem Heddled.set (s : State) (h : Nat) (w : Weft) (hw : w.arch = (s.weft h).arch) : Heddled s (s.setWeft h w) := by
  refine ⟨by cases s; rfl, fun _ => rfl, fun g => ?_⟩
  by_cases hg : g = h
  · subst hg; simp [hw]
  · simp [hg]

theorem Heddled.stamp (s : State) : Heddled s s.stamp.2 := ⟨by cases s; rfl, fun _ => rfl, fun _ => rfl⟩

theorem Heddled.setCore (s : State) (n : Nat) (c : Core) (hc : c.arch = (s.core n).arch) : Heddled s (s.setCore n c) := by
  refine ⟨by cases s; rfl, fun m => ?_, fun _ => rfl⟩
  by_cases hm : m = n
  · subst hm; simp [hc]
  · simp [hm]

theorem Heddled.clearVictims (s : State) (n slot : Nat) : Heddled s (s.clearVictims n slot) := by
  unfold State.clearVictims
  dsimp only
  split
  · exact Heddled.setCore _ _ _ rfl
  · exact Heddled.refl s

@[simp] theorem State.weft_clearVictims (s : State) (n slot h : Nat) : (s.clearVictims n slot).weft h = s.weft h := by
  unfold State.clearVictims
  dsimp only
  split <;> rfl

theorem Heddled.admitTo (s : State) (n h : Nat) : Heddled s (s.admitTo n h) := by
  unfold State.admitTo
  split
  · exact Heddled.refl s
  · exact ((Heddled.stamp s).trans (Heddled.clearVictims _ n _)).trans (Heddled.set _ _ _ (by simp; rfl))

theorem Heddled.admitList (n : Nat) (l : List (Nat × Weft)) : ∀ (s : State) (b : List Nat), Heddled s (s.admitList n l b) := by
  induction l with
  | nil => exact fun s _ => Heddled.refl s
  | cons p t ih =>
    intro s b
    obtain ⟨h, w⟩ := p
    simp only [State.admitList]
    split
    · exact ih s _
    · split
      · exact (Heddled.admitTo s n h).trans (ih _ _)
      · exact ih s _

theorem Heddled.admitWefts (s : State) (n : Nat) : Heddled s (s.admitWefts n) := by
  unfold State.admitWefts
  split
  · exact Heddled.refl s
  · exact Heddled.admitList n _ s _

theorem Heddled.ready (s : State) (h : Nat) : Heddled s (s.ready h) := by
  unfold State.ready
  dsimp only
  split
  · exact Heddled.set _ _ _ rfl
  · exact (Heddled.stamp s).trans (Heddled.set _ _ _ rfl)

theorem Heddled.foldl {α : Type} (f : State → α → State) (hf : ∀ s a, Heddled s (f s a)) (l : List α) :
    ∀ s, Heddled s (l.foldl f s) := by
  induction l with
  | nil => exact Heddled.refl
  | cons a t ih => exact fun s => (hf s a).trans (ih _)

/-- Waking the wefts whose wait has cleared touches nothing but the heddle. -/
theorem Heddled.wake (s : State) : Heddled s s.wake := by
  unfold State.wake
  dsimp only
  split
  · exact Heddled.refl s
  · exact (Heddled.foldl _ Heddled.ready _ s).trans (Heddled.foldl _ Heddled.admitWefts _ _)

/-! ## What the registers of a weft are in terms of its architected state -/

theorem Weft.arch_vr {w x : Weft} (h : w.arch = x.arch) : w.vr = x.vr := by have := congrArg Weft.vr h; exact this
theorem Weft.arch_sr {w x : Weft} (h : w.arch = x.arch) : w.sr = x.sr := by have := congrArg Weft.sr h; exact this
theorem Weft.arch_ks {w x : Weft} (h : w.arch = x.arch) : w.ks = x.ks := by have := congrArg Weft.ks h; exact this
theorem Weft.arch_pc {w x : Weft} (h : w.arch = x.arch) : w.pc = x.pc := by have := congrArg Weft.pc h; exact this
theorem Weft.arch_active {w x : Weft} (h : w.arch = x.arch) : w.active = x.active := by have := congrArg Weft.active h; exact this
theorem Weft.arch_stack {w x : Weft} (h : w.arch = x.arch) : w.stack = x.stack := by have := congrArg Weft.stack h; exact this
theorem Weft.arch_fpstat {w x : Weft} (h : w.arch = x.arch) : w.fpstat = x.fpstat := by have := congrArg Weft.fpstat h; exact this

/-- Two wefts that agree but for the heddle agree but for the heddle and the registers. -/
theorem Weft.arch_withRegs {w x y : Weft} (h : w.arch = x.arch) : (w.withRegs y).arch = (x.withRegs y).arch := by
  cases w; cases x
  simp only [Weft.arch, Weft.mk.injEq] at h
  simp only [Weft.withRegs, Weft.arch, Weft.mk.injEq]
  simp_all

end Sys2Proof.Machine
end

