-- ==== Sys2Proof/Laws/Issue.lean ====
section
/-! SUPPORT. What the shared parts of a weft instruction do, each said once: an instruction whose operands are ready runs its
body, one that selects no thread does nothing, a completed body moves the path on, and results stand in the registers they
were written to and nowhere else. -/

namespace Sys2Proof.Machine

/-! ## Issue (R36) -/

/-- In a weft whose pairs agree an instruction runs once, whether or not it is a point of R114. -/
theorem runAt_active {s : State} {fm : Form} {sel : Mask} (h : Issues s fm sel) (point : Bool) (len : Nat) (f : State → Nat → Eff) :
    runAt point s len f = .next ((f s s.cur).settle s.cur len).wake := by
  have ha := h.active
  have hp := h.paired
  unfold runAt
  simp only [State.me] at ha hp
  rw [if_pos ha, hp]
  rfl

theorem operate_skip {s : State} {f : Form} (h : Issues s f 0) (body : Weft → Mask → Eff) :
    s.operate s.cur f body = .done s := by
  unfold State.operate
  simp only [h.decodes, h.threads, if_true]

theorem operate_go {s : State} {f : Form} {sel : Mask} (h : Executes s f sel) (body : Weft → Mask → Eff) :
    s.operate s.cur f body = body s.me sel := by
  unfold State.operate
  simp only [h.decodes, h.threads, h.some, h.full, h.reads, h.tags, if_false]

theorem access_skip {s : State} {f : Form} (h : Issues s f 0) (body : Weft → Mask → Eff) :
    s.access s.cur f body = .done s := operate_skip h _

theorem access_go {s : State} {f : Form} {sel : Mask} (h : Accesses s f sel) (body : Weft → Mask → Eff) :
    s.access s.cur f body = body s.me sel := by
  unfold State.access
  rw [operate_go h.toExecutes]
  simp only [h.acquired, Bool.false_eq_true, if_false]

theorem matOp_skip {s : State} {f : Form} (h : Issues s (matForm f) 0) (body : State → Weft → Mask → Eff) :
    matOp f body s s.cur = .done s := access_skip h _

theorem matOp_go {s : State} {f : Form} {sel : Mask} (h : Multiplies s (matForm f) sel) (body : State → Weft → Mask → Eff) :
    matOp f body s s.cur = body s s.me sel := by
  unfold matOp matBody
  have hf : (f : Form) → { f with matrix := true } = matForm f := fun _ => rfl
  rw [hf, access_go h.toAccesses]
  simp [h.unfailed]

theorem matNow_skip {s : State} {f : Form} (h : Issues s (matForm f) 0) (body : State → Weft → Mask → Eff) :
    matNow f body s s.cur = .done s := operate_skip h _

theorem matNow_go {s : State} {f : Form} {sel : Mask} (h : Commands s (matForm f) sel) (body : State → Weft → Mask → Eff) :
    matNow f body s s.cur = body s s.me sel := by
  unfold matNow matBody
  have hf : (f : Form) → { f with matrix := true } = matForm f := fun _ => rfl
  rw [hf, operate_go h.toExecutes]
  simp [h.unfailed]

theorem settle_done (u : State) (h len : Nat) : ((Eff.done u).settle h len).wake = u.after h len := rfl

theorem settle_moved (u : State) (h len : Nat) : ((Eff.moved u).settle h len).wake = u.moved := rfl

/-! ## After an instruction -/

theorem Heddled.after (u : State) (h len : Nat) :
    Heddled (u.setWeft h ((u.weft h).cleared.advance len)) (u.after h len) := Heddled.wake _

/-- An instruction whose whole effect is on the registers of its own weft leaves everything else. -/
theorem Frame.after_setWeft {s : State} {x : Weft} (hx : (x.withRegs s.me).arch = s.me.arch) (len : Nat) :
    Frame s ((s.setWeft s.cur x).after s.cur len) := by
  have hh := Heddled.after (s.setWeft s.cur x) s.cur len
  refine ⟨?_, fun n => (hh.cores n).trans rfl, fun g hg => ?_, ?_⟩
  · have := hh.device
    generalize State.after _ _ _ = t at this ⊢
    cases s; cases t
    simp only [State.setWeft, State.mk.injEq] at this ⊢
    simp_all
  · rw [hh.wefts]
    simp [hg]
  · rw [Weft.arch_withRegs (hh.wefts s.cur)]
    simp only [State.weft_setWeft_same]
    exact hx

theorem Heddled.weft_after (s : State) (x : Weft) (len : Nat) :
    (((s.setWeft s.cur x).after s.cur len).weft s.cur).arch = (x.cleared.advance len).arch := by
  rw [(Heddled.after (s.setWeft s.cur x) s.cur len).wefts]
  simp

/-- The place of execution after an instruction that changed registers only. -/
theorem GoesOn.after_setWeft {s : State} {x : Weft} (_hx : (x.withRegs s.me).arch = s.me.arch) (hp : x.pc = s.me.pc)
    (ha : x.active = s.me.active) (hs : x.stack = s.me.stack) (len : Nat) :
    GoesOn s ((s.setWeft s.cur x).after s.cur len) len := by
  have h := Heddled.weft_after s x len
  refine ⟨?_, ?_, ?_⟩
  · rw [Weft.arch_pc h]; simp [hp, ha, hs]
  · rw [Weft.arch_active h]; simp [hp, ha, hs]
  · rw [Weft.arch_stack h]; simp [hp, ha, hs]

/-! ## Writing registers -/

/-- The fields that writing a register leaves alone. -/
structure SameButRegs (w x : Weft) : Prop where
  arch : (x.withRegs w).arch = w.arch
  pc : x.pc = w.pc
  active : x.active = w.active
  stack : x.stack = w.stack
  fpstat : x.fpstat = w.fpstat

theorem SameButRegs.refl (w : Weft) : SameButRegs w w := ⟨by cases w; rfl, rfl, rfl, rfl, rfl⟩

theorem SameButRegs.trans {w x y : Weft} (h : SameButRegs w x) (k : SameButRegs x y) : SameButRegs w y := by
  refine ⟨?_, k.pc.trans h.pc, k.active.trans h.active, k.stack.trans h.stack, k.fpstat.trans h.fpstat⟩
  have a := h.arch
  have b := k.arch
  cases w; cases x; cases y
  simp only [Weft.arch, Weft.withRegs, Weft.mk.injEq] at a b ⊢
  simp_all

theorem SameButRegs.put (w : Weft) (r : Reg) (t : Nat) (c : Cell) : SameButRegs w (w.put r t c) := by
  cases r with
  | k n =>
    simp only [Weft.put, Weft.setK]
    split
    · exact SameButRegs.refl w
    · exact ⟨rfl, rfl, rfl, rfl, rfl⟩
  | v n => exact ⟨rfl, rfl, rfl, rfl, rfl⟩
  | s n => exact ⟨rfl, rfl, rfl, rfl, rfl⟩
  | zero => exact SameButRegs.refl w
  | lane => exact SameButRegs.refl w
  | bad n => exact SameButRegs.refl w

theorem SameButRegs.putAll (r : Reg) (l : List (Nat × Cell)) : ∀ w : Weft, SameButRegs w (w.putAll r l) := by
  induction l with
  | nil => exact SameButRegs.refl
  | cons p t ih => exact fun w => (SameButRegs.put w r p.1 p.2).trans (ih _)

theorem SameButRegs.setK (w : Weft) (n : BitVec 3) (m : Mask) : SameButRegs w (w.setK n m) := by
  unfold Weft.setK
  split
  · exact SameButRegs.refl w
  · exact ⟨rfl, rfl, rfl, rfl, rfl⟩

end Sys2Proof.Machine
end

