-- ==== Sys2Proof/Laws/Results.lean ====
section
/-! SUPPORT. Where results go: what each register reads after values were written to a destination, and that an instruction
which computes values for its threads completes with exactly those values written (R26 to R29, R67, R70). -/

namespace Sys2Proof.Machine

variable {p : Bool}

/-! ## Threads -/

theorem mem_threads {m : Mask} {t : Nat} : t ∈ threads m ↔ t < 32 ∧ m.getLsbD t = true := by
  simp [threads]

theorem threads_lt {m : Mask} {t : Nat} (h : t ∈ threads m) : t < 32 := (mem_threads.1 h).1

theorem vkey_inj {n m t u : Nat} (ht : t < 32) (hu : u < 32) : vkey n t = vkey m u ↔ n = m ∧ t = u := by
  unfold vkey
  constructor
  · intro h; omega
  · rintro ⟨rfl, rfl⟩; rfl

/-! ## Reading after writing -/

@[simp] theorem Weft.s_setV (w : Weft) (n t : Nat) (c : Cell) (m : Nat) : (w.setV n t c).s m = w.s m := rfl
@[simp] theorem Weft.k_setV (w : Weft) (n t : Nat) (c : Cell) (m : BitVec 3) : (w.setV n t c).k m = w.k m := rfl
@[simp] theorem Weft.v_setS (w : Weft) (n : Nat) (c : Cell) (m t : Nat) : (w.setS n c).v m t = w.v m t := rfl
@[simp] theorem Weft.k_setS (w : Weft) (n : Nat) (c : Cell) (m : BitVec 3) : (w.setS n c).k m = w.k m := rfl

theorem Weft.v_setV (w : Weft) (n t : Nat) (c : Cell) (m u : Nat) (ht : t < 32) (hu : u < 32) :
    (w.setV n t c).v m u = if n = m ∧ t = u then c else w.v m u := by
  unfold Weft.v
  simp only [Weft.setV_vr]
  split
  · rename_i h
    rw [h.1, h.2, Store.get_put_same]
  · rename_i h
    rw [Store.get_put_ne]
    intro e
    exact h ((vkey_inj hu ht).1 e |>.imp Eq.symm Eq.symm)

theorem Weft.s_setS (w : Weft) (n : Nat) (c : Cell) (m : Nat) : (w.setS n c).s m = if n = m then c else w.s m := by
  unfold Weft.s
  simp only [Weft.setS_sr]
  split
  · rename_i h
    rw [h, Store.get_put_same]
  · rename_i h
    rw [Store.get_put_ne _ (Ne.symm h)]

theorem Weft.k_setK (w : Weft) (n : BitVec 3) (m : Mask) (j : BitVec 3) :
    (w.setK n m).k j = if n = j ∧ j ≠ 0 then m &&& w.bits else w.k j := by
  unfold Weft.setK
  by_cases hn : n = 0
  · simp only [hn, if_true]
    split
    · rename_i h; exact absurd h.1.symm h.2
    · rfl
  · simp only [hn, if_false]
    unfold Weft.k
    by_cases hj : j = 0
    · simp [hj]
    · simp only [hj, if_false]
      by_cases he : n = j
      · subst he
        rw [if_pos ⟨rfl, hn⟩, Store.get_put_same]
      · have : j.toNat ≠ n.toNat := fun e => he (BitVec.eq_of_toNat_eq e.symm)
        simp only [he, false_and, if_false]
        rw [Store.get_put_ne _ this]

/-- Writing a value in each of some threads. -/
theorem Weft.v_putAll (d : Reg) (l : List (Nat × Cell)) (hl : ∀ p ∈ l, p.1 < 32) : ∀ (w : Weft) (n i : Nat), i < 32 →
    (w.putAll d l).v n i =
      if Reg.isV d n then ((l.reverse.find? (fun p => p.1 = i)).map (fun p => p.2)).getD (w.v n i) else w.v n i := by
  induction l with
  | nil => intro w n i _; simp [Weft.putAll]
  | cons p t ih =>
    intro w n i hi
    have ht : ∀ q ∈ t, q.1 < 32 := fun q hq => hl q (List.mem_cons_of_mem _ hq)
    have hp : p.1 < 32 := hl p List.mem_cons_self
    have hs : w.putAll d (p :: t) = (w.put d p.1 p.2).putAll d t := rfl
    rw [hs, ih ht _ _ _ hi, List.reverse_cons, List.find?_append]
    cases d with
    | v m =>
      simp only [Reg.isV, Weft.put]
      rw [Weft.v_setV _ _ _ _ _ _ hp hi]
      by_cases hm : m.toNat = n
      · simp only [hm, decide_true, if_true, true_and]
        cases (t.reverse.find? (fun p => p.1 = i)) with
        | some q => simp
        | none =>
          by_cases hpi : p.1 = i
          · simp [hpi]
          · simp [hpi]
      · simp [hm]
    | s m => simp [Reg.isV, Weft.put]
    | k m => simp [Reg.isV, Weft.put, Weft.v]
    | zero => simp [Reg.isV, Weft.put]
    | lane => simp [Reg.isV, Weft.put]
    | bad m => simp [Reg.isV, Weft.put]

theorem Weft.s_putAll (d : Reg) (l : List (Nat × Cell)) : ∀ (w : Weft) (n : Nat),
    (w.putAll d l).s n = if Reg.isS d n then (l.getLast?.map (fun p => p.2)).getD (w.s n) else w.s n := by
  induction l with
  | nil => intro w n; simp [Weft.putAll]
  | cons p t ih =>
    intro w n
    have hs : w.putAll d (p :: t) = (w.put d p.1 p.2).putAll d t := rfl
    rw [hs, ih]
    cases d with
    | s m =>
      simp only [Reg.isS, Weft.put, Weft.s_setS]
      by_cases hm : m.toNat = n
      · simp only [hm, decide_true, if_true]
        cases t with
        | nil => simp
        | cons q u => simp [List.getLast?_cons]
      · simp [hm]
    | v m => simp [Reg.isS, Weft.put]
    | k m => simp [Reg.isS, Weft.put, Weft.s]
    | zero => simp [Reg.isS, Weft.put]
    | lane => simp [Reg.isS, Weft.put]
    | bad m => simp [Reg.isS, Weft.put]

theorem Weft.ks_putAll {d : Reg} (hd : ∀ n, d ≠ .k n) (l : List (Nat × Cell)) : ∀ w : Weft, (w.putAll d l).ks = w.ks := by
  induction l with
  | nil => intro w; rfl
  | cons p t ih =>
    intro w
    have hs : w.putAll d (p :: t) = (w.put d p.1 p.2).putAll d t := rfl
    rw [hs, ih]
    cases d with
    | k n => exact absurd rfl (hd n)
    | v n => rfl
    | s n => rfl
    | zero => rfl
    | lane => rfl
    | bad n => rfl

/-- Looking a thread up among values given by thread. -/
theorem find_map_threads (l : List Nat) (val : Nat → Cell) (i : Nat) (w : Cell) :
    (((l.map (fun t => (t, val t))).reverse.find? (fun p => p.1 = i)).map (fun p => p.2)).getD w =
      if i ∈ l then val i else w := by
  have h : ∀ r : List Nat, (((r.map (fun t => (t, val t))).find? (fun p => p.1 = i)).map (fun p => p.2)).getD w =
      if i ∈ r then val i else w := by
    intro r
    induction r with
    | nil => simp
    | cons a t ih =>
      by_cases ha : a = i
      · subst ha; simp
      · simp only [List.map_cons, List.find?_cons, ha, decide_false, List.mem_cons]
        rw [ih]
        simp [Ne.symm ha]
  rw [← List.map_reverse, h]
  simp

/-! ## Completed instructions -/

/-- The state after results were written to a register and flags raised. -/
theorem Wrote.after_put {s : State} {d : Reg} {l : List (Nat × Cell)} {fl : Flags} {len : Nat} {on : Nat → Bool} {val : Nat → Cell}
    (hk : ∀ n, d ≠ .k n) (hl : ∀ p ∈ l, p.1 < 32)
    (hv : ∀ n i, i < 32 → Reg.isV d n = true →
      ((l.reverse.find? (fun p => p.1 = i)).map (fun p => p.2)).getD (s.me.v n i) = if on i then val i else s.me.v n i)
    (hs : ∀ n, Reg.isS d n = true → (l.getLast?.map (fun p => p.2)).getD (s.me.s n) = val 0) :
    Wrote s ((s.setWeft s.cur ((s.me.putAll d l).raise fl)).after s.cur len) d on val fl len := by
  have hb := SameButRegs.putAll d l s.me
  have ha : (((s.me.putAll d l).raise fl).withRegs s.me).arch = s.me.arch := by
    have := hb.arch
    generalize s.me.putAll d l = x at this ⊢
    cases x
    exact this
  have hw := Heddled.weft_after s ((s.me.putAll d l).raise fl) len
  refine ⟨Frame.after_setWeft ha len, ?_, ?_, ?_, ?_, GoesOn.after_setWeft ha hb.pc hb.active hb.stack len⟩
  · intro n i hi
    unfold Weft.v
    rw [Weft.arch_vr hw]
    have := Weft.v_putAll d l hl s.me n i hi
    unfold Weft.v at this
    simp only [Weft.advance_vr, Weft.cleared_vr, Weft.raise_vr]
    rw [this]
    cases hd : Reg.isV d n with
    | false => simp
    | true => simp only [if_true, Bool.true_and]; exact hv n i hi hd
  · intro n
    unfold Weft.s
    rw [Weft.arch_sr hw]
    have := Weft.s_putAll d l s.me n
    unfold Weft.s at this
    simp only [Weft.advance_sr, Weft.cleared_sr, Weft.raise_sr]
    rw [this]
    cases hd : Reg.isS d n with
    | false => simp
    | true => simp only [if_true]; exact hs n hd
  · rw [Weft.arch_ks hw]
    simp only [Weft.advance_ks, Weft.cleared_ks, Weft.raise_ks]
    exact Weft.ks_putAll hk l s.me
  · rw [Weft.arch_fpstat hw]
    simp [hb.fpstat]

/-- An instruction whose only effect is to go on. -/
theorem Skipped.after (s : State) (len : Nat) : Skipped s (s.after s.cur len) len := by
  have h := Wrote.after_put (s := s) (d := .zero) (l := []) (fl := 0) (len := len) (on := fun _ => false)
    (val := fun _ => Cell.launch) (by simp) (by simp) (by simp [Reg.isV]) (by simp [Reg.isS])
  have e : (s.setWeft s.cur ((s.me.putAll .zero []).raise 0)).after s.cur len = s.after s.cur len := by
    have r : (s.me.putAll .zero []).raise 0 = s.me := by
      have : ∀ w : Weft, w.raise 0 = w := fun w => by cases w; simp [Weft.raise]
      exact this s.me
    rw [r]
    unfold State.after
    simp only [State.weft_setWeft_same]
    congr 1
    simp only [State.setWeft]
    have ins : ∀ (l : Store Weft) (k : Nat) (a b : Weft), Store.insert (Store.insert l k a) k b = Store.insert l k b := by
      intro l k a b
      induction l with
      | nil => simp [Store.insert]
      | cons p t ih =>
        obtain ⟨c, x⟩ := p
        simp only [Store.insert]
        by_cases h1 : k < c
        · simp [h1, Store.insert]
        · by_cases h2 : k = c
          · simp [h2, Store.insert]
          · simp [h1, h2, Store.insert, ih]
    rw [ins]
  rw [e] at h
  exact h

theorem foldl_or_flags (l : List Lane) : orFlags l = l.foldl (fun a x => a ||| x.fl) 0 := rfl

theorem nvMask_eq_zero {l : List Lane} (h : ∀ x ∈ l, x.fl &&& Flags.nv = 0) : nvMask l = 0 := by
  unfold nvMask
  rw [List.filter_eq_nil_iff.2]
  · rfl
  · intro x hx
    simp [h x hx]

theorem orFlags_map {l : List Nat} {f : Nat → Cell × Flags} :
    orFlags (l.map (fun t => (⟨t, (f t).1, (f t).2⟩ : Lane))) = joined l (fun t => (f t).2) := by
  unfold orFlags joined
  rw [List.foldl_map]

/-- The lanes an instruction computes for. -/
theorem lanesOf_lt {g : Guard} {sel : Mask} {t : Nat} (h : t ∈ lanesOf g sel) : t < 32 := by
  unfold lanesOf at h
  split at h
  · simp at h; omega
  · exact threads_lt h

theorem threads_ne_nil {sel : Mask} (h : sel ≠ 0) : threads sel ≠ [] := by
  intro e
  apply h
  apply BitVec.eq_of_getLsbD_eq
  intro i hi
  by_contra hc
  have : i ∈ threads sel := mem_threads.2 ⟨hi, by simpa using hc⟩
  rw [e] at this
  simp at this

/-- A destination of a legal form (R26, R29): a uniform instruction writes a scalar, and never a mask or a vector. -/
theorem Form.dst_of_decodes {f : Form} {s : State} {w : Weft} (h : f.decodeFault s w = none) {o : Opnd} (ho : o ∈ f.ops) :
    o.regOk f.g.uni w = true := by
  unfold Form.decodeFault at h
  split at h
  · simp at h
  · rename_i hf
    unfold Form.badField at hf
    split at hf
    · simp at hf
    · simp at hf
    · rename_i hn
      have := List.find?_eq_none.1 hn o ho
      simpa using this

/-- The classes of a per-thread destination. -/
theorem dst_class {d : Reg} {cls : List RC} (hc : ∀ c ∈ cls, c = .v ∨ c = .z) {u : Bool} {w : Weft}
    (h : (opD cls d).regOk u w = true) : (u = true ∧ ((∃ n, d = .s n) ∨ d = .zero)) ∨ (u = false ∧ ((∃ n, d = .v n) ∨ d = .zero)) := by
  unfold Opnd.regOk at h
  cases u with
  | true =>
    left
    refine ⟨rfl, ?_⟩
    cases d with
    | s n => exact Or.inl ⟨n, rfl⟩
    | zero => exact Or.inr rfl
    | v n =>
      simp [opD, opDst, regClass, Opnd.classes] at h
    | k n =>
      simp only [opD, opDst, regClass, Opnd.classes, Bool.and_true, if_true, List.contains_eq_mem, List.mem_append] at h
      have h1 := of_decide_eq_true h
      rcases h1 with h1 | h1
      · split at h1 <;> simp at h1
      · rw [List.mem_filter] at h1
        rcases hc _ h1.1 with e | e <;> cases e
    | lane =>
      simp [opD, opDst, regClass, Opnd.classes] at h
    | bad n => simp [opD, opDst, regClass] at h
  | false =>
    right
    refine ⟨rfl, ?_⟩
    cases d with
    | v n => exact Or.inl ⟨n, rfl⟩
    | zero => exact Or.inr rfl
    | s n =>
      simp only [opD, opDst, regClass, Opnd.classes, Bool.and_eq_true, List.contains_eq_mem] at h
      have h1 := of_decide_eq_true h.1
      rcases hc _ h1 with e | e <;> cases e
    | k n =>
      simp only [opD, opDst, regClass, Opnd.classes, Bool.and_true, List.contains_eq_mem] at h
      have h1 := of_decide_eq_true h
      rcases hc _ h1 with e | e <;> cases e
    | lane =>
      simp only [opD, opDst, regClass, Opnd.classes, Bool.and_true, List.contains_eq_mem] at h
      have h1 := of_decide_eq_true h
      rcases hc _ h1 with e | e <;> cases e
    | bad n => simp [opD, opDst, regClass] at h

/-- Values given to the lanes of an instruction, written to its destination. -/
theorem Wrote.of_lanes {s : State} {d : Reg} {g : Guard} {sel : Mask} (_hsel : sel ≠ 0) {val : Nat → Cell} {fl : Flags} {len : Nat}
    (hd : (g.uni = true ∧ ((∃ n, d = .s n) ∨ d = .zero)) ∨ (g.uni = false ∧ ((∃ n, d = .v n) ∨ d = .zero))) :
    Wrote s ((s.setWeft s.cur ((s.me.putAll d ((lanesOf g sel).map (fun t => (t, val t)))).raise fl)).after s.cur len) d
      (fun k => sel.getLsbD k && !g.uni) val fl len := by
  have hk : ∀ n, d ≠ .k n := by
    rintro n rfl
    rcases hd with ⟨-, ⟨n, h⟩ | h⟩ | ⟨-, ⟨n, h⟩ | h⟩ <;> cases h
  refine Wrote.after_put hk ?_ ?_ ?_
  · intro p hp
    simp only [List.mem_map] at hp
    obtain ⟨t, ht, rfl⟩ := hp
    exact lanesOf_lt ht
  · intro n i hi hv
    rw [find_map_threads]
    rcases hd with ⟨hu, hd⟩ | ⟨hu, hd⟩
    · rcases hd with ⟨m, rfl⟩ | rfl <;> simp [Reg.isV] at hv
    · have e : lanesOf g sel = threads sel := by simp [lanesOf, hu]
      simp [e, hu, mem_threads, hi]
  · intro n hs
    rcases hd with ⟨hu, hd⟩ | ⟨hu, hd⟩
    · simp [lanesOf, hu]
    · rcases hd with ⟨m, rfl⟩ | rfl <;> simp [Reg.isS] at hs

/-- An instruction made by `computed` computes. -/
theorem Computes.of_computed {i : Instr} {f : Form} {d : Reg} {len : Nat} {val : Weft → Nat → Cell × Flags}
    (hi : ∀ s, exec i s = runAt p s len (computed f d val)) {cls : List RC} (hm : opD cls d ∈ f.ops)
    (hc : ∀ c ∈ cls, c = .v ∨ c = .z) : Computes i f d len val := by
  intro s sel
  refine ⟨fun h hnv => ?_, fun h => ?_⟩
  · have hd := dst_class hc (Form.dst_of_decodes h.decodes hm)
    refine ⟨_, ?_, Wrote.of_lanes (g := f.g) h.some hd⟩
    rw [hi, runAt_active h.toIssues]
    unfold computed
    rw [operate_go h]
    have hn : s.me.invalid f.g.uni sel ((lanesOf f.g sel).map (fun t => (⟨t, (val s.me t).1, (val s.me t).2⟩ : Lane))) = none := by
      unfold Weft.invalid
      by_cases hi : s.me.invt = true
      · rw [nvMask_eq_zero]
        · simp
        · intro x hx
          simp only [List.mem_map] at hx
          obtain ⟨t, ht, rfl⟩ := hx
          exact hnv hi t ht
      · simp [hi]
    unfold State.writeLanes
    dsimp only
    rw [hn, ← orFlags_map]
    dsimp only
    rw [settle_done, List.map_map]
    rfl
  · refine ⟨_, ?_, Skipped.after s len⟩
    rw [hi, runAt_active h]
    unfold computed
    rw [operate_skip h, settle_done]

/-! ## Masks, and bodies that write lanes -/

/-- A weft's masks do not depend on its record in the heddle. -/
theorem Weft.arch_k {w x : Weft} (h : w.arch = x.arch) (n : BitVec 3) : w.k n = x.k n := by
  have h1 := Weft.arch_ks h
  unfold Weft.k
  rw [h1]

/-- The state after a mask register was written and flags raised. -/
theorem WroteMask.after_setK (s : State) (n : BitVec 3) (m : Mask) (fl : Flags) (len : Nat) :
    WroteMask s ((s.setWeft s.cur ((s.me.setK n m).raise fl)).after s.cur len) (.k n) m fl len := by
  have hb := SameButRegs.setK s.me n m
  have ha : (((s.me.setK n m).raise fl).withRegs s.me).arch = s.me.arch := by
    have := hb.arch
    generalize s.me.setK n m = x at this ⊢
    cases x
    exact this
  have hw := Heddled.weft_after s ((s.me.setK n m).raise fl) len
  refine ⟨Frame.after_setWeft ha len, ?_, ?_, ?_, ?_, GoesOn.after_setWeft ha hb.pc hb.active hb.stack len⟩
  · intro j
    rw [Weft.arch_k hw]
    have : ((s.me.setK n m).raise fl |>.cleared.advance len).k j = (s.me.setK n m).k j := rfl
    rw [this, Weft.k_setK]
    simp
  · rw [Weft.arch_vr hw]
    simp only [Weft.advance_vr, Weft.cleared_vr, Weft.raise_vr]
    unfold Weft.setK; split <;> rfl
  · rw [Weft.arch_sr hw]
    simp only [Weft.advance_sr, Weft.cleared_sr, Weft.raise_sr]
    unfold Weft.setK; split <;> rfl
  · rw [Weft.arch_fpstat hw]
    simp

/-- What a legal destination of one class is. -/
theorem dst_k {d : Reg} {u : Bool} {w : Weft} (h : (opD [.k] d).regOk u w = true) : ∃ n, d = .k n := by
  cases d with
  | k n => exact ⟨n, rfl⟩
  | _ => cases u <;> simp [Opnd.regOk, opD, opDst, regClass, Opnd.classes] at h

theorem Weft.raise_zero (w : Weft) : w.raise 0 = w := by cases w; simp [Weft.raise]

/-- An instruction that selects no thread completes. -/
theorem run_skip {s : State} {F : State → Nat → Form} {len : Nat} {body : State → Nat → Weft → Mask → Eff}
    (h : Issues s (F s s.cur) 0) :
    ∃ t, runAt p s len (fun s h => s.operate h (F s h) (body s h)) = .next t ∧ Skipped s t len := by
  refine ⟨_, ?_, Skipped.after s len⟩
  rw [runAt_active h, operate_skip h, settle_done]

/-- An instruction that executes runs its body. -/
theorem run_done {s u : State} {F : State → Nat → Form} {len : Nat} {body : State → Nat → Weft → Mask → Eff} {sel : Mask}
    (h : Executes s (F s s.cur) sel) (hb : body s s.cur s.me sel = .done u) :
    runAt p s len (fun s h => s.operate h (F s h) (body s h)) = .next (u.after s.cur len) := by
  rw [runAt_active h.toIssues, operate_go h, hb, settle_done]

/-- An instruction that executes and moves its path itself. -/
theorem run_moved {s u : State} {F : State → Nat → Form} {len : Nat} {body : State → Nat → Weft → Mask → Eff} {sel : Mask}
    (h : Executes s (F s s.cur) sel) (hb : body s s.cur s.me sel = .moved u) :
    runAt p s len (fun s h => s.operate h (F s h) (body s h)) = .next u.moved := by
  rw [runAt_active h.toIssues, operate_go h, hb, settle_moved]

/-- An instruction that executes and faults. -/
theorem run_trap {s u : State} {F : State → Nat → Form} {len : Nat} {body : State → Nat → Weft → Mask → Eff} {sel : Mask} {t : Trap}
    (h : Executes s (F s s.cur) sel) (hb : body s s.cur s.me sel = .trap u t) :
    runAt p s len (fun s h => s.operate h (F s h) (body s h)) =
      .next (takeTrap (u.setWeft s.cur { u.weft s.cur with relTags := none }) s.cur t).wake := by
  rw [runAt_active h.toIssues, operate_go h, hb]
  rfl

/-! An instruction's part at the weft whose turn it is, as an operation or an access of some form. -/

theorem op_skip {s : State} {f : State → Nat → Eff} {F : Form} {len : Nat} {body : Weft → Mask → Eff}
    (hf : f s s.cur = s.operate s.cur F body) (h : Issues s F 0) : ∃ t, runAt p s len f = .next t ∧ Skipped s t len := by
  refine ⟨_, ?_, Skipped.after s len⟩
  rw [runAt_active h, hf, operate_skip h, settle_done]

theorem op_done {s u : State} {f : State → Nat → Eff} {F : Form} {len : Nat} {body : Weft → Mask → Eff} {sel : Mask}
    (hf : f s s.cur = s.operate s.cur F body) (h : Executes s F sel) (hb : body s.me sel = .done u) :
    runAt p s len f = .next (u.after s.cur len) := by
  rw [runAt_active h.toIssues, hf, operate_go h, hb, settle_done]

theorem op_trap {s u : State} {f : State → Nat → Eff} {F : Form} {len : Nat} {body : Weft → Mask → Eff} {sel : Mask} {t : Trap}
    (hf : f s s.cur = s.operate s.cur F body) (h : Executes s F sel) (hb : body s.me sel = .trap u t) :
    runAt p s len f = .next (takeTrap (u.setWeft s.cur { u.weft s.cur with relTags := none }) s.cur t).wake := by
  rw [runAt_active h.toIssues, hf, operate_go h, hb]
  rfl

theorem acc_skip {s : State} {f : State → Nat → Eff} {F : Form} {len : Nat} {body : Weft → Mask → Eff}
    (hf : f s s.cur = s.access s.cur F body) (h : Issues s F 0) : ∃ t, runAt p s len f = .next t ∧ Skipped s t len := by
  refine ⟨_, ?_, Skipped.after s len⟩
  rw [runAt_active h, hf, access_skip h, settle_done]

theorem acc_done {s u : State} {f : State → Nat → Eff} {F : Form} {len : Nat} {body : Weft → Mask → Eff} {sel : Mask}
    (hf : f s s.cur = s.access s.cur F body) (h : Accesses s F sel) (hb : body s.me sel = .done u) :
    runAt p s len f = .next (u.after s.cur len) := by
  rw [runAt_active h.toExecutes.toIssues, hf, access_go h, hb, settle_done]

theorem acc_trap {s u : State} {f : State → Nat → Eff} {F : Form} {len : Nat} {body : Weft → Mask → Eff} {sel : Mask} {t : Trap}
    (hf : f s s.cur = s.access s.cur F body) (h : Accesses s F sel) (hb : body s.me sel = .trap u t) :
    runAt p s len f = .next (takeTrap (u.setWeft s.cur { u.weft s.cur with relTags := none }) s.cur t).wake := by
  rw [runAt_active h.toExecutes.toIssues, hf, access_go h, hb]
  rfl

theorem mat_skip {s : State} {f : State → Nat → Eff} {F : Form} {len : Nat} {body : State → Weft → Mask → Eff}
    (hf : f s s.cur = matOp F body s s.cur) (h : Issues s (matForm F) 0) : ∃ t, runAt p s len f = .next t ∧ Skipped s t len := by
  refine ⟨_, ?_, Skipped.after s len⟩
  rw [runAt_active h, hf, matOp_skip h, settle_done]

theorem mat_done {s u : State} {f : State → Nat → Eff} {F : Form} {len : Nat} {body : State → Weft → Mask → Eff} {sel : Mask}
    (hf : f s s.cur = matOp F body s s.cur) (h : Multiplies s (matForm F) sel) (hb : body s s.me sel = .done u) :
    runAt p s len f = .next (u.after s.cur len) := by
  rw [runAt_active h.toAccesses.toExecutes.toIssues, hf, matOp_go h, hb, settle_done]

theorem now_skip {s : State} {f : State → Nat → Eff} {F : Form} {len : Nat} {body : State → Weft → Mask → Eff}
    (hf : f s s.cur = matNow F body s s.cur) (h : Issues s (matForm F) 0) : ∃ t, runAt p s len f = .next t ∧ Skipped s t len := by
  refine ⟨_, ?_, Skipped.after s len⟩
  rw [runAt_active h, hf, matNow_skip h, settle_done]

theorem now_done {s u : State} {f : State → Nat → Eff} {F : Form} {len : Nat} {body : State → Weft → Mask → Eff} {sel : Mask}
    (hf : f s s.cur = matNow F body s s.cur) (h : Commands s (matForm F) sel) (hb : body s s.me sel = .done u) :
    runAt p s len f = .next (u.after s.cur len) := by
  rw [runAt_active h.toExecutes.toIssues, hf, matNow_go h, hb, settle_done]

theorem releasing_go {s u : State} {n : Nat} {sel : Mask} {sc : Option Scope} {next : State → Eff}
    (h : match sc with | none => u = s | some x => s.release n sel x = .go u) :
    s.releasing n sel sc next = next u := by
  unfold State.releasing
  cases sc with
  | none => simp only at h ⊢; rw [h]
  | some x => simp only at h ⊢; rw [h]

theorem invalid_nil (w : Weft) (u : Bool) (sel : Mask) : w.invalid u sel [] = none := by
  unfold Weft.invalid
  have : nvMask [] = 0 := by rfl
  simp [this]

theorem invalid_quiet (w : Weft) (u : Bool) (sel : Mask) {l : List Lane} (h : ∀ x ∈ l, x.fl = 0) : w.invalid u sel l = none := by
  unfold Weft.invalid
  rw [nvMask_eq_zero (fun x hx => by simp [h x hx])]
  simp

theorem orFlags_quiet {l : List Lane} (h : ∀ x ∈ l, x.fl = 0) : orFlags l = 0 := by
  unfold orFlags
  have : ∀ (l : List Lane) (a : Flags), (∀ x ∈ l, x.fl = 0) → l.foldl (fun a x => a ||| x.fl) a = a := by
    intro l
    induction l with
    | nil => intros; rfl
    | cons x t ih =>
      intro a hx
      simp only [List.foldl_cons]
      rw [hx x List.mem_cons_self, ih _ (fun y hy => hx y (List.mem_cons_of_mem _ hy))]
      simp
  exact this l 0 h

theorem writeLanes_ok {s : State} {h : Nat} {d : Reg} {u : Bool} {sel : Mask} {l : List Lane}
    (hi : (s.weft h).invalid u sel l = none) :
    s.writeLanes h d u sel l = .done (s.setWeft h (((s.weft h).putAll d (l.map (fun x => (x.t, x.c)))).raise (orFlags l))) := by
  unfold State.writeLanes
  dsimp only
  rw [hi]

theorem writeMask_ok {s : State} {h : Nat} {n : BitVec 3} {u : Bool} {sel m : Mask} {l : List Lane}
    (hi : (s.weft h).invalid u sel l = none) :
    s.writeMask h (.k n) u sel m l = .done (s.setWeft h (((s.weft h).setK n m).raise (orFlags l))) := by
  unfold State.writeMask
  dsimp only
  rw [hi]

/-- An instruction that writes one whole mask. -/
theorem ComputesMask.of_write {i : Instr} {f : Form} {d : Reg} {len : Nat} {m : Weft → Mask → Mask} {u : Bool}
    (hi : ∀ s, exec i s = runAt p s len (fun s h => s.operate h f (fun w sel => s.writeMask h d u sel (m w sel) [])))
    (hm : opD [.k] d ∈ f.ops) : ComputesMask i f d len m := by
  intro s sel
  refine ⟨fun h => ?_, fun h => ?_⟩
  · obtain ⟨n, rfl⟩ := dst_k (Form.dst_of_decodes h.decodes hm)
    refine ⟨_, ?_, WroteMask.after_setK s n (m s.me sel) 0 len⟩
    rw [hi]
    exact run_done (F := fun _ _ => f) (body := fun s h w sel => s.writeMask h (.k n) u sel (m w sel) []) h
      (writeMask_ok (invalid_nil _ _ _))
  · rw [hi]
    exact run_skip (F := fun _ _ => f) h

/-! ## Comparisons into masks, scalar results, cross-lane results and folds -/

theorem compared_mask {f : Form} {n : BitVec 3} {val : Weft → Nat → Bool × Flags} {s : State} {len : Nat} {sel : Mask}
    (h : Executes s f sel) (hnv : s.me.invt = true → ∀ t ∈ lanesOf f.g sel, (val s.me t).2 &&& Flags.nv = 0) :
    runAt p s len (compared f (.k n) val) = .next ((s.setWeft s.cur ((s.me.setK n
      (if f.g.uni then (if (val s.me 0).1 then 0xFFFFFFFF else 0)
        else (s.me.maskSrc (.k n) &&& ~~~sel) ||| maskOf ((threads sel).filter (fun t => (val s.me t).1)))).raise
        (joined (lanesOf f.g sel) (fun t => (val s.me t).2)))).after s.cur len) := by
  have hn : s.me.invalid f.g.uni sel ((lanesOf f.g sel).map (fun t => (⟨t, Cell.launch, (val s.me t).2⟩ : Lane))) = none := by
    unfold Weft.invalid
    by_cases hi : s.me.invt = true
    · rw [nvMask_eq_zero]
      · simp
      · intro x hx
        simp only [List.mem_map] at hx
        obtain ⟨t, ht, rfl⟩ := hx
        exact hnv hi t ht
    · simp [hi]
  rw [runAt_active h.toIssues]
  unfold compared
  rw [operate_go h]
  simp only [List.map_map]
  have e : (lanesOf f.g sel).map ((fun p : Nat × Bool × Flags => (⟨p.1, Cell.launch, p.2.2⟩ : Lane)) ∘ fun t => (t, val s.me t)) =
      (lanesOf f.g sel).map (fun t => (⟨t, Cell.launch, (val s.me t).2⟩ : Lane)) := rfl
  rw [e, writeMask_ok hn, settle_done]
  have ej : orFlags ((lanesOf f.g sel).map (fun t => (⟨t, Cell.launch, (val s.me t).2⟩ : Lane))) =
      joined (lanesOf f.g sel) (fun t => (val s.me t).2) := by
    unfold orFlags joined; rw [List.foldl_map]
  rw [ej]
  have em : (if f.g.uni = true then
        if maskOf ((((lanesOf f.g sel).map fun t => (t, val s.me t)).filter fun p => p.2.1).map fun p => p.1) = 0 then 0 else 0xFFFFFFFF
      else s.me.k n &&& ~~~sel ||| maskOf ((((lanesOf f.g sel).map fun t => (t, val s.me t)).filter fun p => p.2.1).map fun p => p.1)) =
      (if f.g.uni then (if (val s.me 0).1 then (0xFFFFFFFF : Mask) else 0)
        else (s.me.maskSrc (.k n) &&& ~~~sel) ||| maskOf ((threads sel).filter (fun t => (val s.me t).1))) := by
    have e2 : ∀ l : List Nat, ((l.map fun t => (t, val s.me t)).filter fun p => p.2.1).map (fun p => p.1) =
        l.filter (fun t => (val s.me t).1) := by
      intro l; rw [List.filter_map, List.map_map]; simp [Function.comp_def]
    rw [e2]
    cases hu : f.g.uni with
    | true =>
      simp only [if_true, lanesOf, hu]
      by_cases hv : (val s.me 0).1 = true
      · simp [hv, maskOf, tbit]
      · simp [hv, maskOf]
    | false => simp [lanesOf, hu, Weft.maskSrc]
  rw [em]

theorem dst_sz {d : Reg} {cls : List RC} (hc : ∀ c ∈ cls, c = .s ∨ c = .z) {u : Bool} {w : Weft}
    (h : (opD cls d).regOk u w = true) : (∃ n, d = .s n) ∨ d = .zero := by
  have hv : cls.contains .v = false := by
    cases e : cls.contains .v with
    | false => rfl
    | true =>
      have := hc .v (by simpa using e)
      simp at this
  cases d with
  | s n => exact Or.inl ⟨n, rfl⟩
  | zero => exact Or.inr rfl
  | v n =>
    cases u <;> simp [opD, opDst, Opnd.regOk, regClass, Opnd.classes] at h hv <;> simp_all
  | k n =>
    cases u <;> simp [opD, opDst, Opnd.regOk, regClass, Opnd.classes] at h hv
    · exact absurd (hc _ h) (by simp)
    · have := hc .k (by simp_all); simp at this
  | lane =>
    cases u <;> simp [opD, opDst, Opnd.regOk, regClass, Opnd.classes] at h hv
    · exact absurd (hc _ h) (by simp)
  | bad n => simp [opD, opDst, Opnd.regOk, regClass] at h

theorem Wrote.scalar_once {s : State} {d : Reg} (hd : (∃ n, d = .s n) ∨ d = .zero) (c : Cell) (val : Nat → Cell) (hval : val 0 = c) (fl : Flags) (len : Nat) :
    Wrote s ((s.setWeft s.cur ((s.me.putAll d [(0, c)]).raise fl)).after s.cur len) d (fun _ => false) val fl len := by
  refine Wrote.after_put ?_ (by simp) ?_ ?_
  · rintro n rfl; rcases hd with ⟨m, h⟩ | h <;> cases h
  · rintro n i _ hv; rcases hd with ⟨m, rfl⟩ | rfl <;> simp [Reg.isV] at hv
  · intro n _; simp [hval]

theorem Crossed.crossOut {s : State} {d : Reg} {sel m : Mask} {sc : Cell} {v : Nat → Cell} {len : Nat}
    (hd : (∃ n, d = .v n) ∨ (∃ n, d = .s n) ∨ ∃ n, d = .k n) :
    ∃ u, s.crossOut s.cur d sel m sc v = .done u ∧ Crossed s (u.after s.cur len) d sel m sc v len := by
  rcases hd with ⟨n, rfl⟩ | ⟨n, rfl⟩ | ⟨n, rfl⟩
  · refine ⟨_, rfl, ?_⟩
    have := Wrote.after_put (s := s) (d := .v n) (l := (threads sel).map (fun t => (t, v t))) (fl := 0) (len := len)
      (on := fun k => sel.getLsbD k) (val := v) (by simp) (by
        intro p hp; simp only [List.mem_map] at hp; obtain ⟨t, ht, rfl⟩ := hp; exact threads_lt ht) (by
        intro n i hi _; rw [find_map_threads]; simp [mem_threads, hi]) (by simp [Reg.isS])
    rw [Weft.raise_zero] at this
    exact this
  · refine ⟨_, rfl, ?_⟩
    have := Wrote.scalar_once (s := s) (d := .s n) (Or.inl ⟨n, rfl⟩) sc (fun _ => sc) rfl 0 len
    rw [Weft.raise_zero] at this
    exact this
  · refine ⟨_, rfl, ?_⟩
    have := WroteMask.after_setK s n m 0 len
    rw [Weft.raise_zero] at this
    exact this

theorem dst_vsk {d : Reg} {cls : List RC} (hc : ∀ c ∈ cls, c = .v ∨ c = .s ∨ c = .k) {u : Bool} {w : Weft}
    (h : (opD cls d).regOk u w = true) : (∃ n, d = .v n) ∨ (∃ n, d = .s n) ∨ ∃ n, d = .k n := by
  cases d with
  | s n => exact Or.inr (Or.inl ⟨n, rfl⟩)
  | v n => exact Or.inl ⟨n, rfl⟩
  | k n => exact Or.inr (Or.inr ⟨n, rfl⟩)
  | zero =>
    cases u <;> simp [opD, opDst, Opnd.regOk, regClass, Opnd.classes] at h
    · exact absurd (hc _ h) (by simp)
    · exact absurd (hc .z (by simp_all)) (by simp)
  | lane =>
    cases u <;> simp [opD, opDst, Opnd.regOk, regClass, Opnd.classes] at h
    · exact absurd (hc _ h) (by simp)
  | bad n => simp [opD, opDst, Opnd.regOk, regClass] at h

theorem idx_threads (l r : List Nat) (hn : l.Nodup) (i : Nat) (f : Nat → Cell) (w : Cell) :
    ((((l.zip r).map (fun p => (p.1, f p.2))).find? (fun p => p.1 = i)).map (fun p => p.2)).getD w =
      if i ∈ l ∧ l.idxOf i < r.length then f (r.getD (l.idxOf i) 0) else w := by
  induction l generalizing r with
  | nil => simp
  | cons a t ih =>
    obtain ⟨ha, ht⟩ := List.nodup_cons.1 hn
    cases r with
    | nil => simp
    | cons b u =>
      simp only [List.zip_cons_cons, List.map_cons, List.find?_cons]
      by_cases h : a = i
      · subst h; simp
      · simp only [h, decide_false]
        rw [ih u ht]
        have hid : List.idxOf i (a :: t) = List.idxOf i t + 1 := List.idxOf_cons_ne _ h
        rw [hid]
        simp [Ne.symm h]

theorem threads_nodup (m : Mask) : (threads m).Nodup := by
  unfold threads; exact List.Nodup.filter _ List.nodup_range

theorem find_rev_nodup (l : List (Nat × Cell)) (h : (l.map (fun p => p.1)).Nodup) (i : Nat) :
    l.reverse.find? (fun p => p.1 = i) = l.find? (fun p => p.1 = i) := by
  induction l with
  | nil => rfl
  | cons p t ih =>
    simp only [List.map_cons, List.nodup_cons] at h
    rw [List.reverse_cons, List.find?_append, ih h.2, List.find?_cons]
    by_cases hp : p.1 = i
    · have : t.find? (fun p => p.1 = i) = none := by
        rw [List.find?_eq_none]; intro q hq e
        apply h.1; rw [List.mem_map]; exact ⟨q, hq, by simp at e; rw [e, hp]⟩
      simp [this, hp]
    · simp [hp]


theorem zip_fst_sublist (l r : List Nat) : ((l.zip r).map Prod.fst).Sublist l := by
  induction l generalizing r with
  | nil => simp
  | cons a t ih =>
    cases r with
    | nil => simp
    | cons b u => simpa using ih u

theorem foldInts_fst (op : FoldOp) (W : Nat) (un : Bool) (x : Nat → Int) (l : List Nat) : ∀ acc,
    (foldInts op W un x l acc).map (fun p => p.1) = l := by
  induction l with
  | nil => intro; rfl
  | cons a t ih => intro acc; simp [foldInts, ih]

theorem foldFlts_fst (op : FoldOp) (w : Weft) (wd : FWidth) (x : Nat → Nat) (l : List Nat) : ∀ acc,
    (foldFlts op w wd x l acc).map (fun p => p.1) = l := by
  induction l with
  | nil => intro; rfl
  | cons a t ih => intro acc; simp [foldFlts, ih]

theorem foldLanes_t (w : Weft) (op : FoldOp) (ty : FoldTy) (a : Src) (sel : Mask) (exc : Bool) :
    (foldLanes w op ty a sel exc).map (fun x => x.t) = threads sel := by
  unfold foldLanes
  split
  · simp only [List.map_map]
    exact foldFlts_fst _ _ _ _ _ _
  · simp only [List.map_map]
    exact foldInts_fst _ _ _ _ _ _

theorem lanes_lookup (l : List Lane) (h : (l.map (fun x => x.t)).Nodup) (i : Nat) (w : Cell) :
    (((l.map (fun x => (x.t, x.c))).reverse.find? (fun p => p.1 = i)).map (fun p => p.2)).getD w =
      if i ∈ l.map (fun x => x.t) then ((l.find? (fun x => x.t = i)).map (fun x => x.c)).getD Cell.launch else w := by
  rw [find_rev_nodup _ (by rw [List.map_map]; exact h)]
  clear h
  induction l with
  | nil => simp
  | cons x t ih =>
    simp only [List.map_cons, List.find?_cons]
    by_cases hx : x.t = i
    · simp [hx]
    · simp only [hx, decide_false, List.mem_cons]
      rw [ih]; simp [Ne.symm hx]

theorem WroteBoth.after {s : State} {flag : BitVec 3} {m : Mask} {l : List (Nat × Cell)} {on : Nat → Bool} {val : Nat → Cell}
    {len : Nat} {d : Reg} (hd : (∃ n, d = .v n) ∨ d = .zero) (hl : ∀ p ∈ l, p.1 < 32)
    (hv : ∀ n i, i < 32 → Reg.isV d n = true →
      ((l.reverse.find? (fun p => p.1 = i)).map (fun p => p.2)).getD (s.me.v n i) = if on i then val i else s.me.v n i) :
    WroteBoth s ((s.setWeft s.cur ((s.me.putAll d l).setK flag m)).after s.cur len) d on val flag m len := by
  have hk : ∀ n, d ≠ .k n := by rintro n rfl; rcases hd with ⟨m, h⟩ | h <;> cases h
  have hb := (SameButRegs.putAll d l s.me).trans (SameButRegs.setK (s.me.putAll d l) flag m)
  have hw := Heddled.weft_after s ((s.me.putAll d l).setK flag m) len
  have hvr : ((s.me.putAll d l).setK flag m).vr = (s.me.putAll d l).vr := by unfold Weft.setK; split <;> rfl
  have hsr : ((s.me.putAll d l).setK flag m).sr = (s.me.putAll d l).sr := by unfold Weft.setK; split <;> rfl
  have hsp : ((s.me.putAll d l)).sr = s.me.sr := by
    rcases hd with ⟨m, rfl⟩ | rfl
    · clear hw hvr hsr hb hl hv
      generalize s.me = w
      induction l generalizing w with
      | nil => rfl
      | cons p t ih => exact (ih (w.setV m.toNat p.1 p.2)).trans rfl
    · clear hw hvr hsr hb hl hv
      generalize s.me = w
      induction l generalizing w with
      | nil => rfl
      | cons p t ih => exact ih w
  refine ⟨Frame.after_setWeft hb.arch len, ?_, ?_, ?_, ?_, GoesOn.after_setWeft hb.arch hb.pc hb.active hb.stack len⟩
  · intro n i hi
    unfold Weft.v
    rw [Weft.arch_vr hw]
    simp only [Weft.advance_vr, Weft.cleared_vr, hvr]
    have := Weft.v_putAll d l hl s.me n i hi
    unfold Weft.v at this
    rw [this]
    cases hd : Reg.isV d n with
    | false => simp
    | true => simp only [if_true, Bool.true_and]; exact hv n i hi hd
  · intro j
    rw [Weft.arch_k hw]
    have e : ((((s.me.putAll d l).setK flag m).cleared).advance len).k j = ((s.me.putAll d l).setK flag m).k j := rfl
    have eb : (s.me.putAll d l).bits = s.me.bits := by
      have := (SameButRegs.putAll d l s.me).arch
      generalize s.me.putAll d l = x at this
      have hp : x.prot = s.me.prot := by
        generalize s.me = w at this
        cases x; cases w
        simp only [Weft.withRegs, Weft.arch, Weft.mk.injEq] at this
        simp_all
      unfold Weft.bits; rw [hp]
    rw [e, Weft.k_setK, eb]
    have ek : (s.me.putAll d l).k j = s.me.k j := by unfold Weft.k; rw [Weft.ks_putAll hk]
    rw [ek]; simp
  · rw [Weft.arch_sr hw]
    simp only [Weft.advance_sr, Weft.cleared_sr, hsr, hsp]
  · rw [Weft.arch_fpstat hw]
    simpa using (SameButRegs.putAll d l s.me).fpstat


end Sys2Proof.Machine
end

