-- ==== Sys2Proof/Laws/Route.lean ====
section
/-! SUPPORT. What the hub's operations on routes, paths and pulls can change: fabric state, pulls, the count of
happenings and, where the route table itself does not read, the error's event, and nothing else. -/

namespace Sys2Proof.Machine

/-- Only fabric state, pulls, the count of happenings and what an error event writes may differ. -/
def Fabbed (s t : State) : Prop :=
  ∃ f p o n e q r w h, t = { s with fab := f, pulls := p, order := o, nextSeq := n, events := e, evq := q, evRing := r, errWait := w,
                                    harts := h }

theorem Fabbed.refl (s : State) : Fabbed s s :=
  ⟨s.fab, s.pulls, s.order, s.nextSeq, s.events, s.evq, s.evRing, s.errWait, s.harts, rfl⟩

theorem Fabbed.trans {s t u : State} (h : Fabbed s t) (k : Fabbed t u) : Fabbed s u := by
  obtain ⟨_, _, _, _, _, _, _, _, _, rfl⟩ := h
  obtain ⟨_, _, _, _, _, _, _, _, _, rfl⟩ := k
  exact ⟨_, _, _, _, _, _, _, _, _, rfl⟩

theorem Fabbed.fab {s u : State} (h : Fabbed s u) (f : Fabric) : Fabbed s { u with fab := f } := by
  obtain ⟨_, _, _, _, _, _, _, _, _, rfl⟩ := h
  exact ⟨f, _, _, _, _, _, _, _, _, rfl⟩

theorem Fabbed.pulls {s u : State} (h : Fabbed s u) (p : List Pull) : Fabbed s { u with pulls := p } := by
  obtain ⟨_, _, _, _, _, _, _, _, _, rfl⟩ := h
  exact ⟨_, p, _, _, _, _, _, _, _, rfl⟩

/-- An event of a line changes only what an event writes. -/
theorem Fabbed.lineEvent {s u : State} (h : Fabbed s u) (c a x : Nat) : Fabbed s (u.lineEvent c a x) := by
  obtain ⟨_, _, _, _, _, _, _, _, _, rfl⟩ := h
  unfold State.lineEvent State.errEvent
  dsimp only
  split <;> split <;> exact ⟨_, _, _, _, _, _, _, _, _, rfl⟩

theorem Fabbed.route {s u : State} (h : Fabbed s u) (r : Nat) : Fabbed s (u.route r).1 := by
  unfold State.route
  split
  · exact h
  · split
    · exact h.lineEvent _ _ _
    · exact h.fab _

theorem Fabbed.emit {s u : State} (h : Fabbed s u) (p : Packet) : Fabbed s (u.emit p) := by
  unfold State.emit
  split
  · exact h.fab _
  · exact h

theorem Fabbed.newTag {s u : State} (h : Fabbed s u) : Fabbed s u.newTag.2 := h.fab _

theorem Fabbed.mapPath {s u : State} (h : Fabbed s u) (a r : Nat) (f : Egress → Egress) : Fabbed s (u.mapPath a r f) := h.fab _

theorem Fabbed.sendMarker {s u : State} (h : Fabbed s u) (a r : Nat) : Fabbed s (u.sendMarker a r) := by
  unfold State.sendMarker
  dsimp only
  apply Fabbed.emit
  apply Fabbed.fab
  apply Fabbed.mapPath
  apply Fabbed.newTag
  exact h.route r

theorem Fabbed.foldl {α : Type} (f : State → α → State) (hf : ∀ s u a, Fabbed s u → Fabbed s (f u a)) (l : List α) :
    ∀ {s u : State}, Fabbed s u → Fabbed s (l.foldl f u) := by
  induction l with
  | nil => exact id
  | cons a t ih => exact fun h => ih (hf _ _ a h)

theorem Fabbed.markAll {s u : State} (h : Fabbed s u) (a : Nat) : Fabbed s (u.markAll a).1 :=
  Fabbed.foldl _ (fun _ _ e h => h.sendMarker a e.ridx) _ h

theorem Fabbed.countPath {s u : State} (h : Fabbed s u) (a r : Nat) : Fabbed s (u.countPath a r) := by
  obtain ⟨_, _, _, _, _, _, _, _, _, rfl⟩ := h
  unfold State.countPath State.stamp
  dsimp only
  split
  · exact ⟨_, _, _, _, _, _, _, _, _, rfl⟩
  · exact ⟨_, _, _, _, _, _, _, _, _, rfl⟩

theorem Fabbed.sendPull {s u t : State} {x : Holder} {a n : Nat} (h : Fabbed s u) (hp : u.sendPull x a = some (n, t)) : Fabbed s t := by
  unfold State.sendPull at hp
  split at hp
  · cases hp
  · simp only [Option.some.injEq, Prod.mk.injEq] at hp
    obtain ⟨_, rfl⟩ := hp
    exact (h.route _).newTag.emit _

/-- Asking for a page changes only the pulls, and the fabric's packets to its holder. -/
theorem Fabbed.pullFor {s u : State} (h : Fabbed s u) (a v : Nat) : Fabbed s (u.pullFor a v) := by
  unfold State.pullFor
  dsimp only
  split
  · exact h
  · split
    · exact h.pulls _
    · split
      · exact h.pulls _
      · rename_i hp
        exact (h.sendPull hp).pulls _

theorem Fabbed.weft {s t : State} (h : Fabbed s t) (g : Nat) : t.weft g = s.weft g := by
  obtain ⟨_, _, _, _, _, _, _, _, _, rfl⟩ := h
  rfl

end Sys2Proof.Machine
end

