-- ==== Sys2Proof/Tests/Slice0.lean ====
section
/-! SUPPORT. Tests: ill-formed terms refused, words written out from the encoding tables decoded, single results of the
manual's examples, and for each statement a state and operands that meet its hypotheses. -/

namespace Sys2Proof.Tests

open Sys2Proof Sys2Proof.Machine

set_option Elab.async false

/-! ## Operands -/

/-- No hint, no predicate, not uniform. -/
abbrev g0 : Guard := ⟨0, false, false, 0⟩
/-- Predicated on k1, which a launched weft holds at 0 (R91). -/
abbrev gk : Guard := ⟨0, false, false, 1⟩
/-- Uniform. -/
abbrev gu : Guard := ⟨0, true, false, 0⟩
abbrev v (n : BitVec 7) : Src := ⟨.v n, false⟩
abbrev s (n : BitVec 6) : Src := ⟨.s n, false⟩
abbrev k (n : BitVec 3) : Src := ⟨.k n, false⟩
abbrev z : Src := ⟨.zero, false⟩
abbrev lane : Src := ⟨.lane, false⟩

/-! ## Decoding: every constructor's word, from R17, R19, R38 and its own entry -/

/-- The bits decode to the instruction, and the instruction encodes to them. -/
def reads (p : Nat × Nat × Instr) : Bool :=
  decodeTableWord p.1 p.2.1 == some p.2.2 && p.2.2.wf && encodeBytes p.2.2 == some (natLe (p.1 / 8) p.2.1)

/-- integer: words written out from the encoding tables. -/
theorem test_decode_integer : (
  reads (64, 0x4000181008005, .iadd ⟨g0, ⟨true, false, false⟩, .v 1, v 2, .reg (v 3)⟩) &&
  reads (64, 0x4000181008009, .isub ⟨g0, ⟨true, false, false⟩, .v 1, v 2, .reg (v 3)⟩) &&
  reads (64, 0x4000181008011, .imul ⟨g0, ⟨true, false, false⟩, .v 1, v 2, .reg (v 3)⟩) &&
  reads (64, 0x4000181008015, .imulhi ⟨g0, ⟨true, false, false⟩, .v 1, v 2, .reg (v 3)⟩) &&
  reads (64, 0x400018100801D, .imin ⟨g0, ⟨true, false, false⟩, .v 1, v 2, .reg (v 3)⟩) &&
  reads (64, 0x4000181008021, .imax ⟨g0, ⟨true, false, false⟩, .v 1, v 2, .reg (v 3)⟩) &&
  reads (64, 0x1000000100800D, .ineg ⟨g0, ⟨false, false, true⟩, .v 1, v 2⟩) &&
  reads (64, 0x4000064808025, .iabs ⟨g0, ⟨true, false, false⟩, .v 1, lane⟩) &&
  reads (96, 0x7000C02000100801A, .imad ⟨g0, ⟨true, true, false⟩, .v 1, v 2, .imm 7, v 4⟩) &&
  reads (64, 0x4020181008029, .isel ⟨g0, ⟨true, false, false⟩, .v 1, v 2, .reg (v 3), v 4⟩) &&
  reads (64, 0xAC006400E1002D, .icmpk ⟨g0, true, true, .ge, .k 2, v 1, .reg z⟩) &&
  reads (64, 0x20000181008031, .icmp ⟨g0, false, false, .ne, .v 1, v 2, .reg (v 3)⟩) &&
  reads (64, 0xA8000181008035, .lea ⟨g0, true, 5, .v 1, v 2, .reg (v 3)⟩)) = true := by decide +kernel

/-- bitwise: words written out from the encoding tables. -/
theorem test_decode_bitwise : (
  reads (64, 0x4181008041, .and ⟨g0, .v 1, v 2, .reg (s 3)⟩) &&
  reads (64, 0x4181008045, .or ⟨g0, .v 1, v 2, .reg (s 3)⟩) &&
  reads (64, 0x4181008049, .xor ⟨g0, .v 1, v 2, .reg (s 3)⟩) &&
  reads (64, 0x4181008051, .andn ⟨g0, .v 1, v 2, .reg (s 3)⟩) &&
  reads (64, 0x100804D, .not ⟨g0, .v 1, v 2⟩) &&
  reads (64, 0x14000181008055, .shl ⟨g0, ⟨true, false, true⟩, .v 1, v 2, .reg (v 3)⟩) &&
  reads (96, 0x1F000400000100805A, .shr ⟨g0, ⟨true, false, false⟩, .v 1, v 2, .imm 31⟩) &&
  reads (96, 0x1F000400000100805E, .sar ⟨g0, ⟨true, false, false⟩, .v 1, v 2, .imm 31⟩) &&
  reads (96, 0x1F0004000001008062, .rot ⟨g0, ⟨true, false, false⟩, .v 1, v 2, .imm 31⟩) &&
  reads (96, 0x804000C000001008066, .bfx ⟨g0, ⟨true, true, false⟩, .v 1, v 2, .imm 0x0804⟩) &&
  reads (96, 0x804000401800100806A, .bfi ⟨g0, ⟨true, false, false⟩, .v 1, v 2, .imm 0x0804, v 3⟩) &&
  reads (64, 0x100806D, .popc ⟨g0, ⟨false, false, false⟩, .v 1, v 2⟩) &&
  reads (64, 0x1008071, .clz ⟨g0, ⟨false, false, false⟩, .v 1, v 2⟩) &&
  reads (64, 0x1008075, .ctz ⟨g0, ⟨false, false, false⟩, .v 1, v 2⟩) &&
  reads (64, 0x1008079, .brev ⟨g0, ⟨false, false, false⟩, .v 1, v 2⟩)) = true := by decide +kernel

/-- float: words written out from the encoding tables. -/
theorem test_decode_float : (
  reads (64, 0x24000181008081, .fadd ⟨g0, .f32, .rtz, .v 1, v 2, .reg (v 3)⟩) &&
  reads (64, 0x24000181008085, .fsub ⟨g0, .f32, .rtz, .v 1, v 2, .reg (v 3)⟩) &&
  reads (64, 0x24000181008089, .fmul ⟨g0, .f32, .rtz, .v 1, v 2, .reg (v 3)⟩) &&
  reads (64, 0x240001810080A9, .fdiv ⟨g0, .f32, .rtz, .v 1, v 2, .reg (v 3)⟩) &&
  reads (64, 0x5002018100808D, .ffma ⟨g0, .f64, .rna, .v 1, v 2, .reg (v 3), v 4⟩) &&
  reads (64, 0x8000181008091, .fmin ⟨g0, .f16, false, .v 1, v 2, .reg (v 3)⟩) &&
  reads (64, 0x84000181008095, .fmax ⟨g0, .f32, true, .v 1, v 2, .reg (v 3)⟩) &&
  reads (64, 0x4000001008099, .fabs ⟨g0, .f32, .fpctl, .v 1, v 2⟩) &&
  reads (64, 0x400000100809D, .fneg ⟨g0, .f32, .fpctl, .v 1, v 2⟩) &&
  reads (64, 0x40000010080B1, .frcp ⟨g0, .f32, .fpctl, .v 1, v 2⟩) &&
  reads (64, 0x40000010080B5, .frsq ⟨g0, .f32, .fpctl, .v 1, v 2⟩) &&
  reads (64, 0x40000010080B9, .fexp2 ⟨g0, .f32, .fpctl, .v 1, v 2⟩) &&
  reads (64, 0x40000010080BD, .flog2 ⟨g0, .f32, .fpctl, .v 1, v 2⟩) &&
  reads (64, 0x40000010080C1, .fsin ⟨g0, .f32, .fpctl, .v 1, v 2⟩) &&
  reads (64, 0x40000010080C5, .fcos ⟨g0, .f32, .fpctl, .v 1, v 2⟩) &&
  reads (64, 0x40000010080CD, .fclass ⟨g0, .f32, .fpctl, .v 1, v 2⟩) &&
  reads (64, 0x40000010080D5, .fgetexp ⟨g0, .f32, .fpctl, .v 1, v 2⟩) &&
  reads (64, 0x384000100E080A1, .fcmpk ⟨g0, .f32, .nan, .k 1, v 1, .reg (v 2)⟩) &&
  reads (64, 0x10C0001008180A5, .fcmp ⟨g0, .bf16, .lt, .v 3, v 1, .reg (v 2)⟩) &&
  reads (64, 0x340000010080AD, .fsqrt ⟨g0, .f32, .rup, .v 1, v 2⟩) &&
  reads (64, 0x340000010080C9, .frint ⟨g0, .f32, .rup, .v 1, v 2⟩) &&
  reads (96, 0x300440000010080D2, .fscale ⟨g0, .f32, .rdn, .v 1, v 2, .imm 3⟩) &&
  reads (64, 0x180001810080E1, .padd ⟨g0, .f16, .rne, .v 1, v 2, .reg (v 3)⟩) &&
  reads (64, 0x180001810080E5, .pmul ⟨g0, .f16, .rne, .v 1, v 2, .reg (v 3)⟩) &&
  reads (64, 0x1C0201810080E9, .pfma ⟨g0, .bf16, .rne, .v 1, v 2, .reg (v 3), v 4⟩) &&
  reads (64, 0x400201810080ED, .dot8F8 ⟨g0, .rdn, .v 1, v 2, v 3, v 4⟩) &&
  reads (64, 0x6401810080F1, .dot8I8 ⟨g0, .fpctl, .v 1, v 2, v 3, z⟩)) = true := by decide +kernel

/-- convert: words written out from the encoding tables. -/
theorem test_decode_convert : (
  reads (64, 0x6C000001018101, .cvt ⟨g0, 0xB, .rne, false, .v 3, v 2⟩) &&
  reads (64, 0x19801E401008105, .cvts ⟨g0, 6, .fpctl, .v 1, v 2, z, some (v 3)⟩) &&
  reads (64, 0xC000181008109, .pack ⟨g0, 3, .v 1, v 2, v 3⟩) &&
  reads (64, 0x3C00000100810D, .unpack ⟨g0, 15, .v 1, v 2⟩) &&
  reads (64, 0x5C000001008111, .settag ⟨g0, 0x17, .v 1, v 2⟩) &&
  reads (64, 0x1008115, .gettag ⟨g0, .v 1, v 2⟩) &&
  reads (64, 0x4000061808119, .cvtk ⟨g0, true, .v 1, k 3⟩) &&
  reads (64, 0x64808121, .mov ⟨g0, .v 1, lane⟩) &&
  reads (96, 0xFFFFFFFF0004000000008126, .movi96 ⟨g0, 1, .v 1, 0xFFFFFFFF⟩) &&
  reads (128, 0x3FB999999999999A000C000000008127, .movi128 ⟨g0, 3, .v 1, 0x3FB999999999999A⟩) &&
  reads (64, 0x620181008129, .sel ⟨g0, .v 1, v 2, v 3, k 4⟩) &&
  reads (64, 0x418100812D, .bcast ⟨g0, .v 1, v 2, s 3⟩) &&
  reads (64, 0x41608131, .movkFromScalar ⟨g0, .k 1, s 2⟩) &&
  reads (96, 0xFF0000000000608132, .movkImmediate ⟨g0, .k 1, 0xFF⟩) &&
  reads (64, 0x61408131, .movkToScalar ⟨g0, .s 1, k 2⟩) &&
  reads (64, 0x61E1608141, .kand ⟨g0, .k 1, k 2, k 3⟩) &&
  reads (64, 0x61E1608145, .kor ⟨g0, .k 1, k 2, k 3⟩) &&
  reads (64, 0x61E1608149, .kxor ⟨g0, .k 1, k 2, k 3⟩) &&
  reads (64, 0x6160814D, .knot ⟨g0, .k 1, k 2⟩) &&
  reads (64, 0x4000061408151, .kpopc ⟨g0, true, .s 1, k 2⟩)) = true := by decide +kernel

/-- lanes: words written out from the encoding tables. -/
theorem test_decode_lanes : (
  reads (64, 0x8000001008161, .vote ⟨g0, .same, .v 1, v 2⟩) &&
  reads (64, 0x61408165, .ballot ⟨g0, .s 1, k 2⟩) &&
  reads (96, 0x302AC00000100816A, .lxch ⟨g0, .flip, 2, 5, .v 1, v 2, .imm 3⟩) &&
  reads (64, 0x16800000100816D, .scan ⟨g0, .max, true, .f32, .v 1, v 2⟩) &&
  reads (64, 0x94000001408171, .reduce ⟨g0, .xor, .u64, .s 1, v 2⟩) &&
  reads (64, 0x4000001408175, .matchLanes ⟨g0, true, .s 1, v 2⟩) &&
  reads (64, 0x608179, .elect ⟨g0, .k 1⟩) &&
  reads (64, 0x618100817D, .compact ⟨g0, .v 1, v 2, k 3⟩)) = true := by decide +kernel

/-- control: words written out from the encoding tables. -/
theorem test_decode_control : (
  reads (96, 0xFFFFFFFE0024000000000182, .bra ⟨g0, 9, 0xFFFFFFFE⟩) &&
  reads (96, 0x100004000001000186, .brx ⟨g0, 1, v 2, 16⟩) &&
  reads (96, 0x8000000000040818A, .call ⟨g0, .s 1, 8⟩) &&
  reads (96, 0x8000400004140818A, .callR ⟨g0, .s 1, s 2, 8⟩) &&
  reads (64, 0x4080018D, .ret ⟨g0, s 1⟩) &&
  reads (64, 0x4000000000191, .join ⟨g0, 1⟩) &&
  reads (64, 0x1195, .exit ⟨⟨0, false, false, 2⟩⟩) &&
  reads (64, 0x199, .yield ⟨g0⟩) &&
  reads (64, 0x19D, .nop ⟨g0⟩) &&
  reads (64, 0x1A1, .brk ⟨g0, none⟩) &&
  reads (96, 0x500000000000001A6, .trap ⟨g0, some 5⟩) &&
  reads (64, 0x1A9, .rft ⟨g0⟩)) = true := by decide +kernel

/-- decodes: words written out from the encoding tables. -/
theorem test_decode_decodes : (
  reads (64, 0x44200420201C1, .decrle ⟨g0, true, .v 4, s 4, .s 4⟩) &&
  reads (64, 0x4280420201C5, .decbits ⟨g0, false, .v 4, s 4, .s 5⟩) &&
  reads (64, 0x42C3420201C9, .decdelta ⟨g0, false, .v 4, s 4, s 6, .s 5⟩) &&
  reads (64, 0x42C3420201CD, .decsign ⟨g0, .v 4, s 4, s 6, .s 5⟩)) = true := by decide +kernel

/-- memory: words written out from the encoding tables. -/
theorem test_decode_memory : (
  reads (96, 0x1001D0000201028202, .ld ⟨g0, 4, some .span, .v 5, 2, v 4, some 16⟩) &&
  reads (64, 0x264028201000205, .st ⟨g0, .rne, true, some .domain, 2, v 4, none, v 5⟩) &&
  reads (64, 0x4004201428209, .ldu ⟨g0, 1, none, .s 5, 2, s 4, none⟩) &&
  reads (64, 0x42E40100020D, .stu ⟨g0, .fpctl, false, none, 2, z, none, s 5⟩) &&
  reads (64, 0x2EC0064C0828211, .lds ⟨g0, 11, some .bolt, some (s 1), .v 5, lane, none⟩) &&
  reads (96, 0x400008640200000216, .sts ⟨g0, 2, none, none, v 4, some 64, z⟩) &&
  reads (64, 0x8000200028219, .ldv ⟨g0, 2, none, .v 5, v 4, none⟩) &&
  reads (64, 0x14C02820000021D, .stv ⟨g0, 3, some .course, v 4, none, v 5⟩) &&
  reads (96, 0x3FFFF00E4028201008222, .atom ⟨g0, .cas, .ar, .record 2, .v 1, v 4, v 5, some ⟨false, .span, 0xFFFF⟩⟩) &&
  reads (96, 0x800000330028200000226, .red ⟨g0, .fadd, .relaxed, .vault, v 4, v 5, some ⟨true, .weft, 0⟩⟩) &&
  reads (64, 0x4C000000000229, .fence ⟨g0, .ar, .domain⟩) &&
  reads (64, 0xB441E40100822D, .waitv ⟨g0, true, true, some .course, .v 1, 2, z, none, s 3⟩) &&
  reads (64, 0x4000201000231, .pref ⟨g0, true, 2, v 4, none⟩) &&
  reads (64, 0x10000201000235, .cline ⟨g0, 4, 2, v 4, none⟩) &&
  reads (96, 0x10000000000000040823A, .lease ⟨g0, .s 1, .imm 0x10000⟩) &&
  reads (64, 0x420003823D, .brload ⟨g0, 7, s 4, none⟩)) = true := by decide +kernel

/-- barriers: words written out from the encoding tables. -/
theorem test_decode_barriers : (
  reads (64, 0x44241C1408241, .bufdecl ⟨g0, true, .s 1, s 2, s 3, s 4, none⟩) &&
  reads (64, 0x4180000245, .bufrel ⟨g0, s 3, none⟩) &&
  reads (64, 0x4180408249, .bufstateGet ⟨g0, .s 1, s 3, none⟩) &&
  reads (64, 0x4004180408249, .bufstateFill ⟨g0, .s 1, s 3, none⟩) &&
  reads (64, 0x8004180408249, .bufstateDrain ⟨g0, .s 1, s 3, none⟩) &&
  reads (64, 0xC004180408249, .bufstateFree ⟨g0, .s 1, s 3, none⟩) &&
  reads (64, 0x10004180408249, .bufstateWfull ⟨g0, .s 1, s 3, none⟩) &&
  reads (64, 0x14004180408249, .bufstateWfree ⟨g0, .s 1, s 3, none⟩) &&
  reads (64, 0x4424180408251, .barinit ⟨g0, true, .s 1, s 3, s 4, none⟩) &&
  reads (96, 0x200000004180000256, .barinval ⟨g0, s 3, some 32⟩) &&
  reads (64, 0x2040041C1408259, .bararrive ⟨g0, true, .s 1, some (s 2), s 3, none⟩) &&
  reads (64, 0xC42418040825D, .barexpect ⟨g0, some true, .s 1, none, s 3, s 4, none⟩) &&
  reads (64, 0x424180000261, .barwait ⟨g0, none, s 3, s 4, none⟩) &&
  reads (64, 0x4180408265, .barphase ⟨g0, .s 1, none, s 3, none⟩)) = true := by decide +kernel

/-- engines: words written out from the encoding tables. -/
theorem test_decode_engines : (
  reads (64, 0x4241C1408281, .cpyslice ⟨g0, .s 1, s 2, s 3, s 4, none⟩) &&
  reads (128, 0x87000000000000041C100040287, .cpyregLd ⟨g0, .v 8, s 2, s 3, 7, true⟩) &&
  reads (128, 0x70000000000004644104000287, .cpyregSt ⟨g0, v 8, s 2, z, 7, false⟩) &&
  reads (64, 0x41408289, .cpystat ⟨g0, .s 1, s 2⟩) &&
  reads (64, 0x4140828D, .cpycancel ⟨g0, .s 1, s 2⟩) &&
  reads (128, 0x1A000008584000041C140C40293, .layout ⟨g0, .s 8, s 1, s 2, s 3, s 4, s 5, 2, 3⟩) &&
  reads (64, 0x414082A1, .mclaim ⟨g0, .s 1, s 2⟩) &&
  reads (64, 0x410002A5, .mrel ⟨g0, s 2⟩) &&
  reads (128, 0x900000000000000041440F82AB, .mload ⟨g0, 31, s 8, 9, some (s 2)⟩) &&
  reads (128, 0x900300000008A000044C4024102AF, .mloop ⟨g0, .ord, false, true, 3, .s 2, 4, s 8, s 9, s 10⟩) &&
  reads (128, 0x4FFF000000002000000E4026402B3, .mma ⟨g0, .arr, true, false, 0xFFF, .zero, 4, z, 1, 2⟩) &&
  reads (128, 0x84000041C1408002B7, .mscale ⟨g0, s 1, s 2, s 3, s 4⟩) &&
  reads (128, 0x200000000000004140828002BB, .msparse ⟨g0, .s48, 5, s 1, s 2⟩) &&
  reads (64, 0x4082BD, .mfence ⟨g0, .s 1⟩) &&
  reads (96, 0x300000000004282C2, .mwait ⟨g0, .s 5, .imm 3⟩) &&
  reads (64, 0x2C5, .mcommit ⟨g0⟩)) = true := by decide +kernel

/-- queuesFabricSystem: words written out from the encoding tables. -/
theorem test_decode_queuesFabricSystem : (
  reads (64, 0x1C402E1, .popw ⟨g0, .s 8, 3⟩) &&
  reads (64, 0x4401C082E5, .pushw ⟨g0, .s 1, 3, s 8⟩) &&
  reads (64, 0x44408002E9, .notify ⟨g0, s 1, s 8⟩) &&
  reads (64, 0x64414082ED, .mbind ⟨g0, .s 1, s 2, z⟩) &&
  reads (128, 0xFFFFFFF0000000000250000182028303, .xld ⟨g0, 4, true, .v 5, 4, v 3, 0xFFFFFFF⟩) &&
  reads (128, 0x10182000307, .xst ⟨g0, .fpctl, false, false, 4, v 3, v 2, 0⟩) &&
  reads (128, 0x8001018264030B, .xatom ⟨g0, .add, .rel, .zero, 4, v 3, v 2, 0⟩) &&
  reads (64, 0x41E40200030D, .xsig ⟨g0, 4, z, .reg (s 3)⟩) &&
  reads (64, 0x4000000000311, .xfence ⟨g0, .acq⟩) &&
  reads (96, 0x260000000000408342, .getsr ⟨g0, .s 1, 0x026⟩) &&
  reads (96, 0x250000000040800346, .setsr ⟨g0, 0x025, s 1⟩) &&
  reads (64, 0x1C000000008349, .getid ⟨g0, 7, .v 1⟩) &&
  reads (64, 0x834D, .clock ⟨g0, .v 1⟩) &&
  reads (64, 0x351, .canon ⟨g0⟩) &&
  reads (64, 0x40800355, .halt ⟨g0, s 1⟩)) = true := by decide +kernel


/-! ## Well-formedness: each check refuses a term -/

/-- R26: U where the opcode map does not allow it. -/
theorem test_wf_uniform : (Instr.vote ⟨gu, .all, .v 1, v 2⟩).wf = false := by decide +kernel
/-- R28: PNEG with k0. -/
theorem test_wf_negated_k0 : (Instr.exit ⟨⟨0, false, true, 0⟩⟩).wf = false := by decide +kernel
/-- R155: a predicate on an instruction that takes none. -/
theorem test_wf_predicated : (Instr.ret ⟨gk, s 1⟩).wf = false := by decide +kernel
/-- R33: TE on a register without a full bit. -/
theorem test_wf_te : (Instr.iadd ⟨g0, ⟨false, false, false⟩, .v 1, ⟨.lane, true⟩, .reg z⟩).wf = false := by decide +kernel
theorem test_wf_te_b : (Instr.iadd ⟨g0, ⟨false, false, false⟩, .v 1, v 1, .reg ⟨.k 1, true⟩⟩).wf = false := by decide +kernel
theorem test_wf_te_c : (Instr.isel ⟨g0, ⟨false, false, false⟩, .v 1, v 1, .imm 0, ⟨.zero, true⟩⟩).wf = false := by decide +kernel
/-- R34: .UN and .SAT where the entry reserves them. -/
theorem test_wf_un : (Instr.iabs ⟨g0, ⟨false, true, false⟩, .v 1, v 2⟩).wf = false := by decide +kernel
theorem test_wf_sat : (Instr.imin ⟨g0, ⟨false, false, true⟩, .v 1, v 2, .reg z⟩).wf = false := by decide +kernel
/-- R20: bits 31:16 of a 16-bit immediate. -/
theorem test_wf_half_immediate : (Instr.fadd ⟨g0, .f16, .fpctl, .v 1, v 2, .imm 0x13C00⟩).wf = false := by decide +kernel
/-- R136, R137: a rounding code on an instruction that takes none. -/
theorem test_wf_rounding : (Instr.frcp ⟨g0, .f32, .rne, .v 1, v 2⟩).wf = false := by decide +kernel
/-- R139: a packed instruction of a width that is not packed, or with an immediate. -/
theorem test_wf_packed : (Instr.padd ⟨g0, .f32, .fpctl, .v 1, v 2, .reg (v 3)⟩).wf = false := by decide +kernel
theorem test_wf_packed_immediate : (Instr.padd ⟨g0, .f16, .fpctl, .v 1, v 2, .imm 0⟩).wf = false := by decide +kernel
/-- R141: DOT8.I8 takes no rounding. -/
theorem test_wf_dot : (Instr.dot8I8 ⟨g0, .rne, .v 1, v 2, v 3, v 4⟩).wf = false := by decide +kernel
/-- R144: a target code that CVTS reserves. -/
theorem test_wf_cvts : (Instr.cvts ⟨g0, 10, .fpctl, .v 1, v 2, z, none⟩).wf = false := by decide +kernel
/-- R52, R149: an invalid tag. -/
theorem test_wf_tag : (Instr.settag ⟨g0, 11, .v 1, v 2⟩).wf = false := by decide +kernel
/-- R149: the upper half of an F16 immediate, and of an INT32 one of 64 bits. -/
theorem test_wf_movi96 : (Instr.movi96 ⟨g0, 5, .v 1, 0x10000⟩).wf = false := by decide +kernel
theorem test_wf_movi128 : (Instr.movi128 ⟨g0, 2, .v 1, 0x100000000⟩).wf = false := by decide +kernel
/-- R152: the two register forms of MOVK are told apart by the class of their source. -/
theorem test_wf_movk : (Instr.movkFromScalar ⟨g0, .k 1, k 2⟩).wf = false := by decide +kernel
theorem test_wf_movk_to : (Instr.movkToScalar ⟨g0, .s 1, s 2⟩).wf = false := by decide +kernel
/-- R164: bits 31:8 of the immediate. -/
theorem test_wf_lxch : (Instr.lxch ⟨g0, .at, 0, 0, .v 1, v 2, .imm 0x100⟩).wf = false := by decide +kernel
/-- R165: a bitwise fold of a float type. -/
theorem test_wf_fold : (Instr.scan ⟨g0, .and, false, .f32, .v 1, v 2⟩).wf = false := by decide +kernel
/-- R196: a scope above .COURSE on a scratchpad access. -/
theorem test_wf_local_scope : (Instr.lds ⟨g0, 0, some .span, none, .v 1, v 2, none⟩).wf = false := by decide +kernel
/-- R201: .ORD with another operation than FADD, RED with XCHG, and an acquire in a RED. -/
theorem test_wf_ord : (Instr.atom ⟨g0, .add, .relaxed, .own, .v 1, v 2, v 3, some ⟨true, .weft, 0⟩⟩).wf = false := by decide +kernel
theorem test_wf_red : (Instr.red ⟨g0, .xchg, .relaxed, .own, v 2, v 3, none⟩).wf = false := by decide +kernel
theorem test_wf_red_acquire : (Instr.red ⟨g0, .add, .acq, .own, v 2, v 3, some ⟨false, .bolt, 0⟩⟩).wf = false := by decide +kernel
/-- R204: a fence with neither semantics. -/
theorem test_wf_fence : (Instr.fence ⟨g0, .relaxed, .bolt⟩).wf = false := by decide +kernel
/-- R289: the scale operand stands exactly with tag MXFP4x16. -/
theorem test_wf_mload : (Instr.mload ⟨g0, 0, s 1, 9, none⟩).wf = false := by decide +kernel
/-- R174: an unassigned system register. -/
theorem test_wf_sysreg : (Instr.getsr ⟨g0, .s 1, 0x006⟩).wf = false := by decide +kernel
/-- A step of another agent has no encoding. -/
theorem test_wf_machine_step : (Instr.trapRingSlotFree).wf = false := by decide +kernel

/-! ## Encodings that no instruction has -/

/-- R32, R38, R17, R31: an unassigned MAJOR, a reserved bit, an unused field, a slot past o31, and a length the map does not
allow. -/
theorem test_decode_refused :
    (decodeTableWord 64 0x03C1 == none && decodeTableWord 64 (0x19D + 2 ^ 61) == none && decodeTableWord 64 (0x19D + 2 ^ 15) == none &&
      decodeTableWord 128 (0x2AB + 32 * 2 ^ 15) == none && decodeTableWord 128 0x19F == none) = true := by decide +kernel

/-! ## Single results of the manual's examples -/

/-- A state whose next instruction may read these registers: a program's first weft, with values and tags put in. -/
def holding (l : List (Reg × Nat × BitVec 6)) : State :=
  State.reset.loaded.setWeft 0 (l.foldl (fun w p => w.putAll p.1 ((List.range 32).map (fun t => (t, ⟨BitVec.ofNat 64 p.2.1, p.2.2, true⟩))))
    (State.reset.loaded.weft 0))

/-- The state after an instruction. -/
def after (i : Instr) (u : State) : State := match exec i u with | .next t => t | _ => u

/-- What an instruction leaves in a register of thread `t`, and FPSTAT. -/
def gives (i : Instr) (u : State) (d : Reg) (t : Nat) : Nat × Nat × Nat :=
  let w := (after i u).weft 0
  ((w.cell d t).val.toNat, (w.cell d t).tag.toNat, w.fpstat.toNat)

/-- R122: the example of IADD.I32.SAT, in both of its threads, and thread 0 without .SAT. -/
theorem test_iadd_saturates :
    gives (.iadd ⟨gu, ⟨true, false, true⟩, .s 1, s 2, .reg (s 3)⟩) (holding [(.s 2, 0x7FFFFFF0, 2), (.s 3, 0x20, 2)]) (.s 1) 0 =
      (0x7FFFFFFF, 2, 32) := by decide +kernel
theorem test_iadd_wraps :
    gives (.iadd ⟨gu, ⟨true, false, false⟩, .s 1, s 2, .reg (s 3)⟩) (holding [(.s 2, 0x7FFFFFF0, 2), (.s 3, 0x20, 2)]) (.s 1) 0 =
      (0x80000010, 2, 32) := by decide +kernel
/-- R127: the example of NOT, of an INT32 and of the same bits tagged RAW. -/
theorem test_not_int32 : gives (.not ⟨gu, .s 1, s 2⟩) (holding [(.s 2, 0xFF, 2)]) (.s 1) 0 = (0xFFFFFF00, 2, 0) := by decide +kernel
theorem test_not_raw :
    gives (.not ⟨gu, .s 1, s 2⟩) (holding [(.s 2, 0xFF, 0)]) (.s 1) 0 = (0xFFFFFFFFFFFFFF00, 0, 0) := by decide +kernel
/-- R72 to R77: lines of the table of narrowing paths. NX is bit 0 of FPSTAT, UF 1, OF 2, NV 4, IOF 5 (R66). -/
theorem test_cvt_f32_tie : gives (.cvt ⟨gu, 4, .rne, false, .s 1, s 2⟩) (holding [(.s 2, 0x3FF0000010000000, 3)]) (.s 1) 0 =
    (0x3F800000, 4, 1) := by decide +kernel
theorem test_cvt_f16_overflow : gives (.cvt ⟨gu, 5, .rne, false, .s 1, s 2⟩) (holding [(.s 2, 0x477FF000, 4)]) (.s 1) 0 =
    (0x7C00, 5, 5) := by decide +kernel
/-- R149: MOVI.F64 of the binary32 value 0.5, and MOVI.I64 of −1. -/
theorem test_movi_f64 : gives (.movi96 ⟨gu, 3, .s 1, 0x3F000000⟩) (holding []) (.s 1) 0 = (0x3FE0000000000000, 3, 0) := by decide +kernel
theorem test_movi_i64 : gives (.movi96 ⟨gu, 1, .s 1, 0xFFFFFFFF⟩) (holding []) (.s 1) 0 = (0xFFFFFFFFFFFFFFFF, 1, 0) := by decide +kernel
/-- R145: the last PACK of the example of four values. -/
theorem test_pack : gives (.pack ⟨gu, 3, .s 1, s 2, s 3⟩) (holding [(.s 2, 0x2E66, 5), (.s 3, 0xC1007C003C00, 5)]) (.s 1) 0 =
    (0x2E66C1007C003C00, 5, 0) := by decide +kernel
/-- R144: CVTS.BF16.RNE of 1 + 2⁻⁹ with no scale. -/
theorem test_cvts : gives (.cvts ⟨gu, 6, .rne, .s 1, s 2, z, none⟩) (holding [(.s 2, 0x3F804000, 4)]) (.s 1) 0 = (0x3F80, 6, 1) := by decide +kernel
/-- R165: the example of SCAN.ADD.INC.I32 and of REDUCE.ADD.I32: k1 = 0xFF, thread t holds t + 1, thread 3 is dead. -/
def scanWorld : State :=
  let u := State.reset.loaded
  u.setWeft 0 { (((u.weft 0).putAll (.v 1) ((List.range 32).map (fun t => (t, ⟨BitVec.ofNat 64 (t + 1), 2, true⟩)))).setK 1 0xFF) with
    dlm := 8 }
theorem test_scan :
    [0, 1, 2, 4, 5, 6, 7, 3].map (fun t => (gives (.scan ⟨gk, .add, false, .i32, .v 2, v 1⟩) scanWorld (.v 2) t).1) =
      [1, 3, 6, 11, 17, 24, 32, 0] := by decide +kernel
theorem test_reduce : gives (.reduce ⟨gk, .add, .i32, .s 2, v 1⟩) scanWorld (.s 2) 0 = (32, 2, 0) := by decide +kernel
/-- R167 to R170: the example of DECRLE, its cursor and two of its elements once they have landed. -/
def rleWorld : State :=
  let u := holding [(.s 4, 0xE3801000, 1)]
  after (.decodeLands 0 0) (after (.decrle ⟨g0, true, .v 8, s 4, .s 4⟩)
    (u.setBolt 0 { u.bolt 0 with sp := Store.putBytes (u.bolt 0).sp 0x200 [0x13, 0x41, 0x13, 0x42] }))
theorem test_decrle : ((rleWorld.weft 0).s 4, (rleWorld.weft 0).v 8 19, (rleWorld.weft 0).v 8 20) =
    (⟨0xC00E3801010, 1, true⟩, ⟨0x41, 2, true⟩, ⟨0x42, 2, true⟩) := by decide +kernel
/-- R22, R36, R90: one step from the state `withFetchWord` makes runs the instruction there: NOP leaves the PC after it. -/
theorem test_step_nop : (match step (State.reset.withFetchWord 64 0x19D) with
    | .next t => (t.weft t.cur).pc.toNat | _ => 0) = 0x40000008 := by decide +kernel
/-- R36 step 6: an unassigned MAJOR parks the weft with cause 0x00, where the supervisor takes it (R177, R178). -/
theorem test_step_illegal : (match step (State.reset.withFetchWord 64 0x3C1) with
    | .next t => decide ((t.weft t.cur).status = .parked) | _ => false) = true := by decide +kernel

/-! ## A state that meets the hypotheses of the statements

The current weft runs threads 0 and 31. Vector and scalar registers 1 to 10 carry the format of their number, and the values
`t` and the number. Records 2 to 5 describe a page that may be read and written. -/

/-- The place of a second page, readable and writable, and of its frame. -/
abbrev pageVa : Nat := 0x40008000
abbrev pagePa : Nat := 0x40000

/-- A record of a page: its encoding, its length and its last word. -/
def recAt (base enc len w4 : Nat) : BufRec := ⟨BitVec.ofNat 64 base, BitVec.ofNat 64 (len + enc * 2 ^ 40), 0, 0, BitVec.ofNat 64 w4⟩

/-- The weft. -/
def someWeft : Weft :=
  { Weft.launch loadKernel 0 0 with
    status := .active, slot := some 0, active := 0x80000001
    vr := (List.range' 1 10).flatMap (fun n => [0, 31].map (fun t => (vkey n t, (⟨BitVec.ofNat 64 t, BitVec.ofNat 6 n, true⟩ : Cell))))
    sr := (List.range' 1 10).map (fun n => (n, (⟨BitVec.ofNat 64 n, BitVec.ofNat 6 n, true⟩ : Cell))) ++
      [(11, ⟨32, 1, true⟩), (12, ⟨64, 1, true⟩), (13, ⟨128, 1, true⟩), (14, ⟨1, 1, true⟩), (15, ⟨BitVec.ofNat 64 pageVa, 1, true⟩),
       (16, ⟨3, 1, true⟩), (17, ⟨0xFFFFFFFFFFFFFFFF, 1, true⟩), (18, ⟨256, 1, true⟩), (19, ⟨0xE3801000, 1, true⟩), (20, ⟨0, 1, true⟩), (21, ⟨4056, 1, true⟩),
       (22, ⟨0xFFFFF, 1, true⟩), (23, ⟨0xFFFFFFFF80000000, 1, true⟩), (24, ⟨0, 1, true⟩), (25, ⟨0, 1, true⟩),
       (26, ⟨BitVec.ofNat 64 (4 * 2 ^ 36), 1, true⟩), (27, ⟨1024, 1, true⟩)]
    ks := [(2, 0x80000001)] }

/-- The state. -/
def world : State :=
  let u := State.reset.loaded
  { u with
    mem := Store.writeNat (Store.writeNat u.mem (0x28000 + 8 * walkIndex pageVa 0) 8 (pagePa + 0xCF)) 0x80FC 4 32
    wefts := [(0, someWeft)]
    bolts := [(0, { Bolt.launch loadKernel 0 0 0 with
      recs := [recAt 0 0 0 0, recAt 0 0 0 0, recAt pageVa 2 4096 0, recAt pageVa 4 4096 0, recAt pageVa 1 4096 0, recAt pageVa 1 4096 (2 ^ 63 + 2 ^ 24 + 1),
        recAt pageVa 3 4096 0,
        ⟨BitVec.ofNat 64 pageVa, BitVec.ofNat 64 (512 + 0x0D * 2 ^ 40 + 2 * 2 ^ 53 + 5 * 2 ^ 56), BitVec.ofNat 64 (pageVa + 0x1000), 0, 0⟩,
        recAt pageVa 3 8192 0] })] }

/-- The threads that run. -/
abbrev two : Mask := 0x80000001

/-! ### Checks of hypotheses -/

def canIssue (u : State) (f : Form) (sel : Mask) : Bool :=
  decide (u.me.status = .active) && !u.me.shadowed && decide (f.decodeFault u u.me = none) && decide (u.me.selected f.g = sel)
def canRun (u : State) (f : Form) (sel : Mask) : Bool :=
  canIssue u f sel && decide (sel ≠ 0) && decide (f.ready u.me sel = .go) && decide (u.regAbort u.cur f u.me sel = none) &&
    decide (f.tagFault u.me sel = none)

theorem issues_of {u : State} {f : Form} {sel : Mask} (h : canIssue u f sel = true) : Issues u f sel := by
  simp only [canIssue, Bool.and_eq_true, decide_eq_true_eq, Bool.not_eq_true'] at h
  exact ⟨h.1.1.1, h.1.1.2, h.1.2, h.2⟩
theorem executes_of {u : State} {f : Form} {sel : Mask} (h : canRun u f sel = true) : Executes u f sel := by
  simp only [canRun, Bool.and_eq_true, decide_eq_true_eq] at h
  exact ⟨issues_of h.1.1.1.1, h.1.1.1.2, h.1.1.2, h.1.2, h.2⟩

/-- A form executes in both threads of a state's current weft, which traps no invalid operation; with a predicate that selects
no thread it issues. -/
structure MetIn (u : State) (f : Guard → Form) : Prop where
  executes : Executes u (f g0) two
  untrapped : u.me.invt = false
  issues : Issues u (f gk) 0
abbrev Met : (Guard → Form) → Prop := MetIn world

/-- The forms of a list are met. -/
theorem metIn_of {u : State} {l : List (Guard → Form)} (h : l.all (fun f => canRun u (f g0) two && canIssue u (f gk) 0) = true)
    (n : u.me.invt = false) : ∀ f ∈ l, MetIn u f := fun f hf => by
  have := List.all_eq_true.1 h f hf
  simp only [Bool.and_eq_true] at this
  exact ⟨executes_of this.1, n, issues_of this.2⟩
theorem world_untrapped : world.me.invt = false := by decide +kernel
theorem met_of {l : List (Guard → Form)} (h : l.all (fun f => canRun world (f g0) two && canIssue world (f gk) 0) = true) :
    ∀ f ∈ l, Met f := metIn_of h world_untrapped

/-! What a function that answers a state and a result comes to. -/
theorem pair_of {α β : Type} {x : α × β} {b : β} (h : x.2 = b) : x = (x.1, b) := by rw [← h]
theorem inl_of {α β γ : Type} {x : α × (β ⊕ γ)} (h : x.2.isLeft = true) : ∃ l, x = (x.1, .inl l) := by
  obtain ⟨a, l | r⟩ := x
  · exact ⟨l, rfl⟩
  · cases h
def CodeWord.gives : CodeWord → BitVec 32 → Bool
  | .ok m, n => m == n
  | _, _ => false
theorem codeWord_of {x : State × CodeWord} {n : BitVec 32} (h : CodeWord.gives x.2 n = true) : x = (x.1, .ok n) := by
  obtain ⟨a, m | t | -⟩ := x
  · simp only [CodeWord.gives, beq_iff_eq] at h; rw [h]
  · cases h
  · cases h

def Places.isOk : Places → Bool
  | .ok _ => true
  | _ => false
def Places.elems : Places → List ELoc
  | .ok l => l
  | _ => []
theorem places_of {x : State × Places} (h : Places.isOk x.2 = true) : x = (x.1, .ok (Places.elems x.2)) := by
  obtain ⟨a, l | t | -⟩ := x
  · rfl
  · cases h
  · cases h
def sumLeft {β γ : Type} (d : β) : β ⊕ γ → β
  | .inl x => x
  | .inr _ => d
theorem left_of {β γ : Type} {x : β ⊕ γ} (d : β) (h : x.isLeft = true) : x = .inl (sumLeft d x) := by
  obtain x | x := x
  · rfl
  · cases h
theorem fstLeft_of {α β γ : Type} {x : α × (β ⊕ γ)} (d : β) (h : x.2.isLeft = true) : x = (x.1, .inl (sumLeft d x.2)) := by
  obtain ⟨a, x | x⟩ := x
  · rfl
  · cases h
def Rel.isGo : Rel → Bool
  | .go _ => true
  | _ => false
def Rel.state (d : State) : Rel → State
  | .go s => s
  | _ => d
/-- The state after a release. -/
def releasedTo (h : Nat) (s : State) (sel : Mask) (sc : Option Scope) : State :=
  match sc with
  | none => s
  | some x => Rel.state s (s.release h sel x)
def canRelease (h : Nat) (s : State) (sel : Mask) (sc : Option Scope) : Bool :=
  match sc with
  | none => true
  | some x => Rel.isGo (s.release h sel x)
theorem released_of {h : Nat} {s : State} {sel : Mask} {sc : Option Scope} (c : canRelease h s sel sc = true) :
    Released h s sel sc (releasedTo h s sel sc) := by
  unfold Released releasedTo; unfold canRelease at c
  cases sc with
  | none => rfl
  | some x => cases e : s.release h sel x <;> simp_all [Rel.isGo, Rel.state]

/-- A form may access memory or synchronise, and issues. -/
structure MetAIn (u : State) (f : Guard → Form) : Prop where
  accesses : Accesses u (f g0) two
  issues : Issues u (f gk) 0
abbrev MetA : (Guard → Form) → Prop := MetAIn world
theorem metAIn_of {u : State} {l : List (Guard → Form)} (h : l.all (fun f => canRun u (f g0) two && canIssue u (f gk) 0) = true)
    (a : u.me.acquiring two = false) : ∀ f ∈ l, MetAIn u f := fun f hf => by
  have := List.all_eq_true.1 h f hf
  simp only [Bool.and_eq_true] at this
  exact ⟨⟨executes_of this.1, a⟩, issues_of this.2⟩
theorem metA_of {l : List (Guard → Form)} (h : l.all (fun f => canRun world (f g0) two && canIssue world (f gk) 0) = true) :
    ∀ f ∈ l, MetA f := metAIn_of h (by decide +kernel)

/-! ### Registers and masks -/

/-- R121 to R126: the shapes of the integer instructions, at both widths, with an immediate, uniform, and with ZERO and LANE. -/
theorem witness_IntegerArithmeticResults : ∀ f ∈ [
    fun g => binForm g cInt tInt (.v 1) (v 1) (.reg (v 2)), fun g => binForm g cInt tInt (.v 127) (s 2) (.imm 0xFFFFFFFF),
    fun g => binForm g cInt tInt .zero z (.reg lane), fun g => binForm { g with uni := true } cInt tInt (.s 0) (s 1) (.reg (s 2)),
    fun g => unForm g cInt tInt (.v 0) (v 1), fun g => triForm g cInt tInt (.v 3) (v 1) (.reg (s 2)) (v 2)], Met f :=
  met_of (by decide +kernel)

/-- R127 to R130: the shapes of the bitwise, shift, bit-field and counting instructions; bitwise ones take any tag. -/
theorem witness_BitwiseAndShiftResults : ∀ f ∈ [
    fun g => binForm g cInt none (.v 1) (v 9) (.reg (v 1)), fun g => binForm g cInt none (.v 1) (s 0) (.imm 0x80000000),
    fun g => unForm g cInt none (.v 1) (v 10), fun g => binForm g cInt tInt (.v 1) (v 1) (.reg (s 1)),
    fun g => binForm g cInt tInt (.v 1) (v 2) (.imm 64), fun g => triForm g cInt tInt (.v 1) (v 2) (.reg (s 1)) (v 1),
    fun g => unForm g cInt tInt (.v 1) (v 2)], Met f :=
  met_of (by decide +kernel)

/-- R132 to R136: the shapes of the floating-point instructions, in binary32 and binary64. -/
theorem witness_FloatingPointResults : ∀ f ∈ [
    fun g => binForm g cFlt (tFlt .f32) (.v 1) (v 4) (.reg (s 4)), fun g => binForm g cFlt (tFlt .f64) (.v 1) (v 3) (.imm 0x3F800000),
    fun g => triForm g cFlt (tFlt .f32) (.v 1) (v 4) (.reg (s 4)) z, fun g => triForm g cFlt (tFlt .f64) .zero (v 3) (.reg (s 3)) (v 3),
    fun g => .plain g ([opS 1 cFlt (tFlt .f32) (v 4)] ++ opSI 2 cFlt (tFlt .f32) (.reg (s 4)) ++ [opD [.v] (.v 3)]),
    fun g => unForm g cFlt (tFlt .f32) (.v 3) (v 4), fun g => unForm { g with uni := true } cFlt (tFlt .f64) (.s 4) (s 3),
    fun g => .plain g ([opS 1 cFlt (tFlt .f32) (v 4)] ++ opSI 2 cInt tInt (.reg lane) ++ [opD cDst (.v 3)])], Met f :=
  met_of (by decide +kernel)

/-- R137 to R141: the shapes of the approximate functions, the packed instructions and the dot products. -/
theorem witness_ApproximatePackedAndDotResults : ∀ f ∈ [
    fun g => unForm g cFlt (tFlt .f32) (.v 1) (v 4), fun g => binForm g cFlt (tFlt .f16) (.v 1) (v 5) (.reg (s 5)),
    fun g => binForm g cFlt (tFlt .bf16) (.v 1) (v 6) (.reg z), fun g => triForm g cFlt (tFlt .f16) (.v 1) (v 5) (.reg (v 5)) (s 5),
    fun g => .plain g [opS 1 cFlt (some [7, 8]) (v 7), opS 2 cFlt (some [7, 8]) (v 8), opS 3 cFlt (some [4]) z, opD cDst (.v 1)],
    fun g => .plain g [opS 1 cFlt (some [10]) (v 10), opS 2 cFlt (some [10]) (s 10), opS 3 cInt tInt (v 2), opD cDst (.v 1)]], Met f :=
  met_of (by decide +kernel)

/-- R143 to R150: the shapes of the conversion, tag, immediate and move instructions. -/
theorem witness_ConversionAndMoveResults : ∀ f ∈ [
    fun g => unForm g cInt (some [1, 2, 3, 4, 5, 6, 7, 8, 9, 10]) (.v 1) (v 9), fun g => unForm g cInt none (.v 1) (v 0),
    fun g => .plain g [opS 1 [.k] none (k 2), opD cDst (.v 1)], fun g => .plain g [opS 1 cInt none (v 1), opD [.v] (.v 1)],
    fun g => .plain g [opD cDst (.v 1)],
    fun g => .plain g [opS 1 cInt none (v 3), opS 2 cInt none z, opS 3 [.k] none (k 7), opD cDst (.v 127)]], Met f :=
  met_of (by decide +kernel)

/-- R144, R145, R151: packed conversions with and without a scale; PACK and UNPACK of the last element that the tag has; BCAST
of a thread that lives and, its number past the threads, of one that does not run. -/
theorem witness_PackedConversionAndBroadcastResults :
    (∀ f ∈ [fun g => cvtsForm ⟨g, 6, .rne, .v 1, v 3, z, none⟩, fun g => cvtsForm ⟨g, 7, .rne, .v 1, v 3, s 2, some (v 20)⟩,
      fun g => packForm ⟨g, 3, .v 1, v 5, v 5⟩, fun g => .plain g [opS 1 [.v, .s] none (v 5), opD [.v] (.v 1)],
      fun g => bcastForm ⟨g, .v 1, v 2, s 2⟩ world.me, fun g => bcastForm ⟨g, .v 1, v 2, s 17⟩ world.me], Met f) ∧
    indexPast 3 two g0 (packTag world.me ⟨g0, 3, .v 1, v 5, v 5⟩) = 0 ∧ tagsDiffer world.me ⟨g0, 3, .v 1, v 5, v 5⟩ two = 0 ∧
    indexPast 3 two g0 (fun t => (world.me.cell (.v 5) t).tag) = 0 :=
  ⟨met_of (by decide +kernel), by decide +kernel, by decide +kernel, by decide +kernel⟩

/-- R125, R135, R152 to R154: the shapes of the comparisons into masks, the mask moves and the mask logic, k0 among the masks. -/
theorem witness_MaskResults : ∀ f ∈ [
    fun g => .plain g ([opS 1 cInt tInt (v 1)] ++ opSI 2 cInt tInt (.reg (s 2)) ++ [opD [.k] (.k 2)]),
    fun g => .plain { g with uni := true } ([opS 1 cInt tInt (s 1)] ++ opSI 2 cInt tInt (.imm 7) ++ [opD [.k] (.k 2)]),
    fun g => .plain g ([opS 1 cFlt (tFlt .f32) (v 4)] ++ opSI 2 cFlt (tFlt .f32) (.reg (s 4)) ++ [opD [.k] (.k 0)]),
    fun g => .plain g [opS 1 [.s] none (s 9), opD [.k] (.k 3)], fun g => .plain g [opD [.k] (.k 3)],
    fun g => .plain g [opS 1 [.k] none (k 0), opD [.s] (.s 63)],
    fun g => .plain g [opS 1 [.k] none (k 2), opS 2 [.k] none (k 0), opD [.k] (.k 0)],
    fun g => .plain g [opS 1 [.k] none (k 2), opD [.k] (.k 7)], fun g => .plain g [opS 1 [.k] none (k 2), opD [.s] (.s 63)]], Met f :=
  met_of (by decide +kernel)

/-- R161 to R166: the shapes of the cross-lane instructions, with a mask, a scalar and a vector as destination; no sum of the
two threads' binary32 values is invalid. -/
theorem witness_CrossLaneResults :
    (∀ f ∈ [fun g => condForm g (.k 2) (k 2), fun g => condForm g (.s 1) (v 1), fun g => condForm g (.v 1) (s 2),
      fun g => .plain g [opS 1 [.v] none (v 9), opD [.v] (.v 1)], fun g => .plain g [opS 1 [.v] none (v 9), opD [.v, .s] (.s 1)],
      fun g => .plain g [opD [.v, .s, .k] (.k 3)], fun g => .plain g [opD [.v, .s, .k] (.s 3)],
      fun g => lxchForm ⟨g, .at, 0, 4, .v 1, v 2, .reg (s 2)⟩ world.me, fun g => lxchForm ⟨g, .below, 4, 0, .v 1, v 2, .imm 1⟩ world.me,
      fun g => .plain g [opS 1 [.v] none (v 1), opS 2 [.k] none (k 2), opD [.v] (.v 1)],
      fun g => .plain g [opS 1 [.v, .s] (foldTags .f32) (v 4), opD [.v] (.v 1)],
      fun g => .plain g [opS 1 [.v, .s] (foldTags .i32) (v 2), opD [.v, .s] (.s 1)]], Met f) ∧
    world.me.invalid false two (foldLanes world.me .add .f32 (v 4) two true) = none ∧
    world.me.invalid false two (foldLanes world.me .add .i32 (v 2) two false) = none ∧
    world.me.invalid false two (reduceLanes world.me ⟨g0, .add, .i32, .s 1, v 2⟩ two) = none :=
  ⟨met_of (by decide +kernel), by decide +kernel, by decide +kernel, by decide +kernel⟩

/-! ### Control flow, traps and decodes -/

/-- The world in a trap handler entered with an empty stack. -/
def handling : State := world.setWeft 0 { someWeft with tstat := 1 }

/-- R156 to R158: a branch to the lowest address and a call of another, an indexed branch through a table of 32 entries whose
last is taken, a call through a register and a return. -/
theorem witness_ControlTransfersComplete :
    (∀ f ∈ [fun g => .plain g [], fun g => .plain g [opS 1 cFlt tInt (v 1)], fun g => .plain g [opD [.s] (.s 63)],
      fun g => .plain g [opS 1 [.s] tInt (s 15), opD [.s] (.s 0)], fun g => .plain g [opS 1 [.s] (some [1]) (s 15)]], Met f) ∧
    inSpace (targetOf world.me.pc 0xF0000000) = true ∧ inSpace (targetOf world.me.pc 2) = true ∧
    (∃ s1 s2 l, world.codeWord world.me (wrapNat 64 (targetOf world.me.pc 64 - 4)) two = (s1, .ok 32) ∧
      (∀ t ∈ threads two, (world.me.int 64 true (v 1) t).toNat < (32 : BitVec 32).toNat) ∧
      s1.brxTargets world.me (wrapNat 64 (targetOf world.me.pc 64)) (fun t => (world.me.int 64 true (v 1) t).toNat) (threads two) [] =
        (s2, .inl l) ∧ ∀ p ∈ l, inSpace p.2 = true) ∧
    wrapNat 64 (world.me.int 64 true (s 15) 0 + 4 * (2 : BitVec 32).toInt) < 2 ^ 57 ∧ (world.me.cell (.s 15) 0).val.toNat < 2 ^ 57 :=
  ⟨met_of (by decide +kernel), by decide +kernel, by decide +kernel,
    ⟨_, _, [(0, 0x40000100), (31, 0x40000100)], codeWord_of (by decide +kernel), by decide +kernel, pair_of (by decide +kernel), by decide⟩,
    by decide +kernel, by decide +kernel⟩

/-- R158: a branch to below address 0, and a return to the highest 64-bit number. -/
theorem witness_FarTargetsFault :
    Executes world (.plain g0 []) two ∧ Executes world (.plain g0 [opD [.s] (.s 0)]) two ∧
    Executes world (.plain g0 [opS 1 [.s] (some [1]) (s 17)]) two ∧ inSpace (targetOf world.me.pc 0x80000000) = false ∧
    2 ^ 57 ≤ (world.me.cell (.s 17) 0).val.toNat :=
  ⟨executes_of (by decide +kernel), executes_of (by decide +kernel), executes_of (by decide +kernel), by decide +kernel, by decide +kernel⟩

/-- R102 to R160, R181: an instruction without operands executes and issues; in a handler entered at this depth RFT may return;
outside one, or in one entered at another depth, it may not. -/
theorem witness_PathAndTrapInstructionsComplete :
    Met (fun g => .plain g []) ∧ MetIn handling (fun g => .plain g []) ∧
    handling.me.tstat.getLsbD 0 = true ∧ handling.me.stack.length % 32 = handling.me.tstat.toNat / 256 % 32 ∧
    world.me.tstat.getLsbD 0 = false :=
  ⟨met_of (l := [_]) (by decide +kernel) _ (.head _), metIn_of (l := [_]) (by decide +kernel) (by decide +kernel) _ (.head _), by decide +kernel,
    by decide +kernel, by decide +kernel⟩

/-- R181: the same two cases. -/
theorem witness_ReturnFromTrap : Executes world (.plain g0 []) two ∧ world.me.tstat.getLsbD 0 = false ∧
    Executes handling (.plain g0 []) two ∧ handling.me.tstat.getLsbD 0 = true ∧
    handling.me.stack.length % 32 = handling.me.tstat.toNat / 256 % 32 :=
  ⟨executes_of (by decide +kernel), by decide +kernel, executes_of (by decide +kernel), by decide +kernel, by decide +kernel⟩

/-- The world with the trap of an invalid operation on and a signalling number in s28. -/
def invalidTrapped : State :=
  world.setWeft 0 { someWeft with fpctl := someWeft.fpctl ||| 0x80, sr := someWeft.sr ++ [(28, ⟨0x7F800001, 4, true⟩)] }

/-- R70, R167 to R171: the shapes of the decodes, and a stream whose fields lie within the scratchpad for each kind; a signalling scale with
the trap on. -/
theorem witness_DecodesComplete :
    (∀ f ∈ [fun g => decForm g [] (s 19) (.v 1) (.s 19), fun g => decForm g [opS 2 [.s, .z] tInt (s 1)] (s 19) (.v 1) (.s 0),
      fun g => decForm g [opS 2 [.s] (some [3, 4]) (s 4)] (s 19) (.v 1) (.s 0)], MetA f) ∧
    (world.boltOf world.me).streamFault world.me two (rleExpansion true world.me (world.boltOf world.me) (world.me.streamOf (s 19))).fields = none ∧
    (world.boltOf world.me).streamFault world.me two (bitsExpansion true world.me (world.boltOf world.me) (world.me.streamOf (s 19))).fields = none ∧
    (world.boltOf world.me).streamFault world.me two
      (deltaExpansion true (s 1) world.me (world.boltOf world.me) (world.me.streamOf (s 19))).fields = none ∧
    ((world.boltOf world.me).streamFault world.me two
      (signExpansion (s 4) world.me (world.boltOf world.me) (world.me.streamOf (s 19))).fields = none ∧
      ((signExpansion (s 4) world.me (world.boltOf world.me) (world.me.streamOf (s 19))).nv && world.me.invt) = false) ∧
    MetAIn invalidTrapped (fun g => decForm g [opS 2 [.s] (some [3, 4]) (s 28)] (s 19) (.v 1) (.s 0)) ∧
    (invalidTrapped.boltOf invalidTrapped.me).streamFault invalidTrapped.me two
      (signExpansion (s 28) invalidTrapped.me (invalidTrapped.boltOf invalidTrapped.me) (invalidTrapped.me.streamOf (s 19))).fields = none ∧
    (signExpansion (s 28) invalidTrapped.me (invalidTrapped.boltOf invalidTrapped.me) (invalidTrapped.me.streamOf (s 19))).nv = true ∧
    invalidTrapped.me.invt = true :=
  ⟨metA_of (by decide +kernel), by decide +kernel, by decide +kernel, by decide +kernel, by decide +kernel,
    metAIn_of (l := [_]) (by decide +kernel) (by decide +kernel) _ (.head _), by decide +kernel, by decide +kernel, by decide +kernel⟩

/-! ### Memory -/

/-- What `Loads` asks holds of the first and the last elements of a record. -/
theorem loads_here : (∃ u, Loads false ⟨g0, 2, none, .v 20, 2, v 2, some 992⟩ world world.me two u) ∧
    (∃ u, Loads true ⟨g0, 2, none, .s 40, 2, z, none⟩ world world.me two u) :=
  ⟨⟨_, by decide +kernel, by decide +kernel, .int, _, _, by decide +kernel, places_of (by decide +kernel), rfl⟩,
    ⟨_, by decide +kernel, by decide +kernel, .int, _, _, by decide +kernel, places_of (by decide +kernel), rfl⟩⟩

/-- R189, R196, R197, R200: loads of the elements 992 and 1023 of 1024, once of element 0; of a scratchpad's and a vault's first
and last bytes; a record that ends with the scratchpad. -/
theorem witness_LoadsComplete :
    (∀ f ∈ [fun g => recForm g 2 [opS 2 cOff tInt (v 2), opD [.v] (.v 20)], fun g => recForm g 2 [opS 2 [.s, .z] tInt z, opD [.s] (.s 40)],
      fun g => spaceLoadForm g (boltOps none) (.v 1) (v 2), fun g => spaceLoadForm g (boltOps (some (s 20))) (.v 1) (v 2),
      fun g => spaceLoadForm g [] (.v 1) (v 2), fun g => recForm g 6 [opS 2 [.s, .z] tInt (s 21)]], MetA f) ∧
    (∃ u, Loads false ⟨g0, 2, none, .v 20, 2, v 2, some 992⟩ world world.me two u) ∧
    (∃ u, Loads true ⟨g0, 2, none, .s 40, 2, z, none⟩ world world.me two u) ∧
    (∃ l, world.spaceChecked world.me false (boltTarget none) (world.me.offset (v 2) (addInt (some 4064))) (fun _ => (ldsKind 11).1) two = .inl l) ∧
    (∃ l, world.spaceChecked world.me false (boltTarget (some (s 20))) (world.me.offset (v 2) (addInt none)) (fun _ => (ldsKind 11).1) two = .inl l) ∧
    (∃ l, world.spaceChecked world.me false .vault (world.me.offset (v 2) (addInt (some 4064))) (fun _ => (ldsKind 12).1) two = .inl l) ∧
    (world.me.offset (s 21) (addInt none) 0 = (4056 : Nat) ∧ 4056 % 8 = 0 ∧ 4056 + 40 ≤ (world.boltOf world.me).scratch ∧
      world.guarded world.me false ⟨0, .sp world.me.bolt, 4056, 40, two⟩ = none ∧ world.accBad ⟨0, .sp world.me.bolt, 4056, 40, two⟩ = false ∧
      (BufRec.ofBytes (world.spaceRead (.sp world.me.bolt) 4056 40)).ok = true ∧
      (BufRec.ofBytes (world.spaceRead (.sp world.me.bolt) 4056 40)).w4 = 0) :=
  ⟨metA_of (by decide +kernel), loads_here.1, loads_here.2, ⟨_, left_of [] (by decide +kernel)⟩,
    ⟨_, left_of [] (by decide +kernel)⟩, ⟨_, left_of [] (by decide +kernel)⟩, by decide +kernel⟩

/-- What `Stores` asks, for a record whose elements are written alone and for one whose blocks are written whole. -/
def storeChecks (once : Bool) (o : StArgs) (s : State) (sel : Mask) : Bool :=
  let w := s.me
  let r := (s.recordOf w o.br).fields
  let e := w.offset o.off (addInt o.add)
  let fmt (t : Nat) : Nat := fmtOf (w.cell o.data.reg t).tag
  let x := s.resolve w r .write (r.smode ≠ 0) (r.elems fmt e (lanesWho once sel)) []
  let y := x.1.placeWrites w (wholeStore r (w.mode o.r) sel (presentElems r e (storeItems once o w sel) (Places.elems x.2))).1 []
  decide (w.recordFault (s.recordOf w o.br) true sel = none) && decide (storeFault w r (storeItems once o w sel) = none) &&
    decide (r.crossing fmt e (lanesWho once sel) = 0) && Places.isOk x.2 &&
    (if r.wholeBlocks then y.2.isLeft && canRelease s.cur y.1 sel o.rel else canRelease s.cur x.1 sel o.rel)
theorem stores_of {once : Bool} {o : StArgs} {s : State} {sel : Mask} (h : storeChecks once o s sel = true) :
    ∃ u, Stores once o s s.me sel u := by
  simp only [storeChecks, Bool.and_eq_true, decide_eq_true_eq] at h
  obtain ⟨⟨⟨⟨h1, h2⟩, h3⟩, h4⟩, h5⟩ := h
  cases hw : (s.recordOf s.me o.br).fields.wholeBlocks
  · simp only [hw, Bool.false_eq_true, if_false] at h5
    exact ⟨_, h1, h2, h3, _, _, _, _, _, _, places_of h4, by rw [if_neg (by simp [hw])]; exact ⟨rfl, rfl⟩, released_of h5, rfl⟩
  · simp only [hw, if_true, Bool.and_eq_true] at h5
    exact ⟨_, h1, h2, h3, _, _, _, _, _, _, places_of h4, by rw [if_pos hw]; exact ⟨fstLeft_of [] h5.1, rfl⟩, released_of h5.2, rfl⟩

/-- R192, R195 to R197, R200: stores through records and of a scratchpad's and a vault's last byte. -/
theorem witness_StoresComplete :
    (∀ f ∈ [fun g => recForm g 2 [opS 2 cOff tInt (v 2), opS 3 [.v] none (v 2)], fun g => recForm g 7 [opS 2 cOff tInt (v 2), opS 3 [.v] none (v 3)],
      fun g => recForm g 2 [opS 2 [.s, .z] tInt z, opS 3 [.s] none (s 2)], fun g => spaceStoreForm g (boltOps none) (v 2) (v 9),
      fun g => spaceStoreForm g [] (v 2) (s 3)], MetA f) ∧
    (∃ u, Stores false ⟨g0, .rne, false, none, 2, v 2, none, v 2⟩ world world.me two u) ∧
    (∃ u, Stores false ⟨g0, .rne, false, some .span, 7, v 2, none, v 3⟩ world world.me two u) ∧
    (∃ u, Stores true ⟨g0, .rne, false, some .bolt, 2, z, some 1023, s 2⟩ world world.me two u) ∧
    (∃ l s1, world.spaceChecked world.me true (boltTarget none) (world.me.offset (v 2) (addInt (some 4064))) (fun _ => 2 ^ (0 : BitVec 2).toNat) two =
      .inl l ∧ Released 0 world two (some .domain) s1) ∧
    (∃ l s1, world.spaceChecked world.me true .vault (world.me.offset (v 2) (addInt (some 4064))) (fun _ => 2 ^ (0 : BitVec 2).toNat) two =
      .inl l ∧ Released 0 world two none s1) :=
  ⟨metA_of (by decide +kernel), stores_of (by decide +kernel), stores_of (by decide +kernel), stores_of (by decide +kernel),
    ⟨_, _, left_of [] (by decide +kernel), released_of (by decide +kernel)⟩, ⟨_, _, left_of [] (by decide +kernel), rfl⟩⟩

/-- R201 to R203: an ATOM and a RED on a record, on the own scratchpad and on the vault, the threads' words apart; no earlier
write of the bolt and no earlier read of the weft stands before the RED. -/
theorem witness_AtomicsComplete :
    (∀ f ∈ [fun g => atomForm g (atomInner ⟨g, .add, .ar, .record 2, .v 20, v 2, v 2, some ⟨false, .domain, 0⟩⟩) [opD [.v] (.v 20)],
      fun g => atomForm g (redInner ⟨g, .add, .relaxed, .record 2, v 2, v 2, none⟩) [],
      fun g => atomForm g (atomInner ⟨g, .cas, .relaxed, .own, .v 20, z, v 20, none⟩) [opD [.v] (.v 20)],
      fun g => atomForm g (redInner ⟨g, .add, .relaxed, .vault, z, v 2, none⟩) []], MetA f) ∧
    (∃ s1 r locs s2, AtomPlaces world world.me two (atomInner ⟨g0, .add, .ar, .record 2, .v 20, v 2, v 2, some ⟨false, .domain, 0⟩⟩) s1 (.global r locs) ∧
      Released 0 s1 two (semRel .ar (some ⟨false, .domain, 0⟩)) s2) ∧
    (∃ s1 r locs s2, AtomPlaces world world.me two (redInner ⟨g0, .add, .relaxed, .record 2, v 2, v 2, none⟩) s1 (.global r locs) ∧
      Released 0 s1 two none s2 ∧
      s2.boltBuffered 0 s2.order ((locs.filterMap (fun l => l.at_.map (fun q => (l.thr, q.1)))).map (fun q =>
        (q.2, atomBytes (world.me.atomCell (v 2) q.1 .add).tag))) = false ∧
      s2.olderFlight world.me s2.order ((locs.filterMap (fun l => l.at_.map (fun q => (l.thr, q.1)))).map (fun q =>
        (q.2, atomBytes (world.me.atomCell (v 2) q.1 .add).tag))) = false) ∧
    (∃ l, AtomPlaces world world.me two (atomInner ⟨g0, .cas, .relaxed, .own, .v 20, z, v 20, none⟩) world (.space l)) ∧
    (∃ l, AtomPlaces world world.me two (redInner ⟨g0, .add, .relaxed, .vault, z, v 2, none⟩) world (.space l)) := by
  refine ⟨metA_of (by decide +kernel), ⟨_, _, _, _, ⟨by decide +kernel, by decide +kernel, by decide +kernel, _, places_of ?_, rfl⟩, released_of ?_⟩,
    ⟨_, _, _, _, ⟨by decide +kernel, by decide +kernel, by decide +kernel, _, places_of ?_, rfl⟩, rfl, ?_, ?_⟩,
    ⟨_, by decide +kernel, rfl, _, left_of [] (by decide +kernel), rfl⟩, ⟨_, by decide +kernel, rfl, _, left_of [] (by decide +kernel), rfl⟩⟩
  all_goals decide +kernel

/-- R204 to R209: a DOMAIN release and an acquire with nothing outstanding; WAITV of two words; a line operation; the form of a
lease from a register and from an immediate. -/
theorem witness_OrderingAndHintsComplete :
    (∀ f ∈ [fun g => .plain g [], fun g => recForm g 2 [opS 2 cOff tInt (v 2)],
      fun g => .plain g (opSI 1 [.s, .z] tInt (.reg (s 1)) ++ [opD [.s, .z] .zero]), fun g => .plain g (opSI 1 [.s, .z] tInt (.imm 1) ++ [opD [.s, .z] (.s 1)])],
      Met f) ∧
    MetA (fun g => recForm g 2 [opS 2 cOff tInt (v 2), opS 3 cFlt tInt (v 1), opD [.v] (.v 20)]) ∧
    (∃ s1, Released 0 world two (some .domain) s1 ∧ (s1.weft 0).owesAny two = false) ∧
    (world.me.recordFault (world.recordOf world.me 2) false two = none ∧ (world.recordOf world.me 2).fields.enc = 0x02 ∧
      ∃ s1 locs f, world.resolve world.me (world.recordOf world.me 2).fields .read false
          ((world.recordOf world.me 2).fields.elems (fun _ => 0) (world.me.offset (v 2) (addInt none)) (lanesWho false two)) [] = (s1, .ok locs) ∧
        ((s1.issueFlight 0 (.v 20) two two (.waitv (.v 20) true false
          (locs.map (fun l => (l.thr, l.at_.map (fun _ => ((world.recordOf world.me 2).fields.spot (world.me.offset (v 2) (addInt none) l.thr)).at_.toNat),
            (world.me.cell (v 1).reg l.thr).val))) none (world.recordOf world.me 2).fields.ext tagI32 world.me.pc)).weft 0).flights.find?
          (fun f => f.fid = s1.order) = some f) := by
  refine ⟨met_of (by decide +kernel), metA_of (l := [_]) (by decide +kernel) _ (.head _), ⟨_, released_of ?_, ?_⟩, by decide +kernel, by decide +kernel,
    _, _, _, places_of ?_, (Option.some_get ?_).symm⟩
  all_goals decide +kernel

/-! ### Barriers, declared buffers and copies -/

/-- The world with a live barrier object of its one weft at 32, and with a barrier table that has no room left. -/
def barred : State := world.barCreate 0 32 false 1 32
def crowded : State := world.setBolt 0 { world.bolt 0 with bars := (List.range 32).map (fun i => ⟨0, 64 + 32 * i, [], []⟩) }
/-- The barrier with a buffer of 64 bytes at 64, bound to the phase before the current one. -/
def buffered (st : BufSt) : State :=
  barred.setBolt 0 { barred.bolt 0 with bufs := [{ base := 64, len := 64, st := st, bar := 32, wph := 0xFFFFFFFF, wv := true }] }

theorem metA1 {u : State} {f : Guard → Form} (h : (canRun u (f g0) two && canIssue u (f gk) 0) = true) (a : u.me.acquiring two = false) : MetAIn u f := by
  simp only [Bool.and_eq_true] at h
  exact ⟨⟨executes_of h.1, a⟩, issues_of h.2⟩

/-- R228 to R234, R240 to R245: an object at 32 is created, found without room in the table, arrived at, waited for with the phase before
it, and read; an expect that brings its bytes to the last count that fits. -/
theorem witness_BarrierInstructionsComplete :
    (∀ f ∈ [fun g => .plain g (xOps none ++ [opS 2 cBar tInt (s 11), opS 3 cBar tInt (s 14), opD cBar (.s 0)]),
      fun g => .plain g (xOps none ++ [opS 2 cBar tInt (s 11)]), fun g => .plain g (xOps (some (s 20)) ++ [opS 2 cBar tInt (s 11), opD cBar .zero]),
      fun g => .plain g (xOps none ++ [opS 2 cBar tInt (s 11), opS 3 cBar tInt (s 17)])], MetAIn barred f) ∧
    MetA (fun g => .plain g (xOps none ++ [opS 2 cBar tInt (s 11), opS 3 cBar tInt (s 14), opD cBar (.s 0)])) ∧
    MetAIn crowded (fun g => .plain g (xOps none ++ [opS 2 cBar tInt (s 11), opS 3 cBar tInt (s 14), opD cBar (.s 0)])) ∧
    (world.barTarget world.me none (s 11) none 32 two = .inl (0, 32) ∧ (world.me.int 64 true (s 14) 0).toNat < 2 ^ (world.bolt 0).nwefts ∧
      (world.bolt 0).bufs = [] ∧ (∀ x ∈ world.barBolts 0 false 1, world.barRoom 0 32 x = true) ∧ ∃ s1, Released 0 world two (some .bolt) s1) ∧
    (crowded.barTarget crowded.me none (s 11) none 32 two = .inl (0, 32) ∧ (crowded.bolt 0).bufs = [] ∧
      ∃ x ∈ crowded.barBolts 0 false 1, crowded.barRoom 0 32 x = false) ∧
    (barred.barTarget barred.me none (s 11) none 32 two = .inl (0, 32) ∧ barred.barTarget barred.me (some (s 20)) (s 11) none 32 two = .inl (0, 32) ∧
      barred.barState 0 32 = 1 ∧ barred.participant 0 32 barred.me.bolt barred.me.id = true ∧
      (∀ all, (barred.arrivals barred.me all two 0 32).2 = false) ∧
      (∃ s1, Released 0 (barred.afterWait barred.me 0 32) two (some ((barred.afterWait barred.me 0 32).barScope 0 32)) s1) ∧
      ((barred.bolt 0).obj 32).btgt + (barred.me.int 64 true (s 14) 0).toNat < 2 ^ 40 ∧ barred.objAborts 0 32 = false ∧
      phasePassed ((barred.bolt 0).barPhase 32) (BitVec.ofInt 32 (barred.me.int 64 true (s 17) 0)) = true) := by
  refine ⟨metAIn_of (by decide +kernel) (by decide +kernel), metA1 (by decide +kernel) (by decide +kernel), metA1 (by decide +kernel) (by decide +kernel),
    ⟨by decide +kernel, by decide +kernel, by decide +kernel, by decide +kernel, _, released_of ?_⟩, by decide +kernel,
    by decide +kernel, by decide +kernel, by decide +kernel, by decide +kernel, by decide +kernel, ⟨_, released_of ?_⟩, by decide +kernel, by decide +kernel, by decide +kernel⟩
  all_goals decide +kernel

/-- The steps of a buffer operation that its state allows. -/
def bufChecks (op : BufOp) (o : BufstateArgs) (s : State) (d : DBuf) : Bool :=
  decide (s.barTarget s.me none o.base o.add 64 two = .inl (0, d.base)) && decide ((s.bolt 0).bufAt d.base = some d) && decide (bufAct op d.st ≠ .refuse) &&
    phasePassed ((s.bolt 0).barPhase d.bar) d.wph && !s.objAborts 0 d.bar &&
    (match bufAct op d.st with
     | .wait _ => canRelease s.cur (s.phaseAcquire (s.coreOf s.me) 0 d.bar d.wph) two
        (if BufOp.releases op then some ((s.phaseAcquire (s.coreOf s.me) 0 d.bar d.wph).barScope 0 d.bar) else none)
     | _ => canRelease s.cur (s.afterWait s.me 0 d.bar) two (if BufOp.releases op then some ((s.afterWait s.me 0 d.bar).barScope 0 d.bar) else none))
theorem bufferStep_of {op : BufOp} {o : BufstateArgs} {s : State} {d : DBuf} (h : bufChecks op o s d = true) : ∃ u, BufferStep op o s s.me two u := by
  simp only [bufChecks, Bool.and_eq_true, decide_eq_true_eq, Bool.not_eq_true'] at h
  obtain ⟨⟨⟨⟨⟨h1, h2⟩, h3⟩, h4⟩, h6⟩, h5⟩ := h
  cases e : bufAct op d.st with
  | wait x => simp only [e] at h5; exact ⟨_, 0, d.base, h1, d, _, _, h2, h3, by rw [e]; exact ⟨h6, h4, rfl⟩, released_of h5, rfl⟩
  | keep => simp only [e] at h5; exact ⟨_, 0, d.base, h1, d, _, _, h2, h3, by rw [e], released_of h5, rfl⟩
  | refuse => exact absurd e h3
  | bind x => simp only [e] at h5; exact ⟨_, 0, d.base, h1, d, _, _, h2, h3, by rw [e], released_of h5, rfl⟩
  | set x => simp only [e] at h5; exact ⟨_, 0, d.base, h1, d, _, _, h2, h3, by rw [e], released_of h5, rfl⟩

/-- The entries of R237's table that have an effect. -/
abbrev bufEntries : List (BufOp × BufSt) :=
  [(.get, .free), (.get, .draining), (.fill, .free), (.fill, .draining), (.drain, .filling), (.drain, .full), (.free, .free), (.free, .filling),
   (.free, .full), (.free, .draining), (.wfull, .filling), (.wfull, .full), (.wfree, .free), (.wfree, .draining)]

theorem bufEntries_step : ∀ p ∈ bufEntries, MetAIn (buffered p.2) (fun g => .plain g (xOps none ++ ([opS 2 cBar tInt (s 12)] ++ [opD cBar .zero]))) ∧
    ∃ u, BufferStep p.1 ⟨g0, .zero, s 12, none⟩ (buffered p.2) (buffered p.2).me two u := fun p hp => by
  have : bufEntries.all (fun p => canRun (buffered p.2) (.plain g0 (xOps none ++ ([opS 2 cBar tInt (s 12)] ++ [opD cBar .zero]))) two &&
      canIssue (buffered p.2) (.plain gk (xOps none ++ ([opS 2 cBar tInt (s 12)] ++ [opD cBar .zero]))) 0 && !(buffered p.2).me.acquiring two &&
      bufChecks p.1 ⟨g0, .zero, s 12, none⟩ (buffered p.2) ⟨64, 64, p.2, 32, 0xFFFFFFFF, true⟩) = true := by decide +kernel
  have h := List.all_eq_true.1 this p hp
  simp only [Bool.and_eq_true, Bool.not_eq_true'] at h
  exact ⟨metA1 (by simp only [Bool.and_eq_true]; exact h.1.1) h.1.2, bufferStep_of h.2⟩

/-- R236 to R238, R246 to R248: a buffer is declared over the scratchpad's last 64 bytes, or finds 32 declared; a FREE and a FILLING one are
released; every entry of the table with an effect is met. -/
theorem witness_BufferInstructionsComplete :
    (MetAIn barred (fun g => .plain g (xOps none ++ [opS 1 cBar tInt (s 11), opS 2 cBar tInt (s 12), opS 3 cBar tInt (s 12), opD cBar .zero])) ∧
      barred.barTarget barred.me none (s 12) (some 3968) 64 two = .inl (0, 4032) ∧ barred.me.int 64 false (s 11) 0 = (32 : Nat) ∧
      barred.objAborts 0 32 = false ∧ barred.barState 0 32 = 1 ∧ (barred.me.int 64 true (s 12) 0).toNat = 64 ∧ 4032 + 64 ≤ (barred.bolt 0).scratch ∧
      (barred.bolt 0).bufs.length < 32 ∧ (∀ d ∈ (barred.bolt 0).bufs, overlap 4032 64 d.base d.len = false) ∧ (barred.bolt 0).hitsObject 0 4032 64 = false) ∧
    (∀ st ∈ [BufSt.free, .filling], MetAIn (buffered st) (fun g => .plain g (xOps none ++ ([opS 2 cBar tInt (s 12)] ++ []))) ∧
      (buffered st).barTarget (buffered st).me none (s 12) none 64 two = .inl (0, 64) ∧
      ((buffered st).bolt 0).bufAt 64 = some ⟨64, 64, st, 32, 0xFFFFFFFF, true⟩ ∧ (buffered st).objAborts 0 32 = false ∧
      phasePassed (((buffered st).bolt 0).barPhase 32) 0xFFFFFFFF = true) ∧
    (∀ p ∈ bufEntries, MetAIn (buffered p.2) (fun g => .plain g (xOps none ++ ([opS 2 cBar tInt (s 12)] ++ [opD cBar .zero]))) ∧
      ∃ u, BufferStep p.1 ⟨g0, .zero, s 12, none⟩ (buffered p.2) (buffered p.2).me two u) :=
  ⟨⟨metA1 (by decide +kernel) (by decide +kernel), by decide +kernel⟩,
    by
      intro st h
      have hs : st = .free ∨ st = .filling := by simpa using h
      rcases hs with rfl | rfl <;> exact ⟨metA1 (by decide +kernel) (by decide +kernel), by decide +kernel⟩,
    bufEntries_step⟩

/-- The words of a descriptor: two 8-byte elements from 1024 to 2048 of the scratchpad of bolt 0, one index of counter 5 each. -/
def someDesc : List Nat :=
  [1024, 2048, 3 + 3 * 2 ^ 32, 3 * 2 ^ 32, 1 + 2 ^ 32, 1 + 2 ^ 32, 1 + 2 * 2 ^ 32, 0, 0, 8 * 2 ^ 32, 0, 0, 8 * 2 ^ 32, 0, 0, 0]
/-- The world with it at 128, with 16 copies that run, and with a copy of it open, the weft's slice in it or not. -/
def described : State := world.setBolt 0 { world.bolt 0 with sp := Store.putBytes [] 128 (someDesc.flatMap (natLe 8)) }
def someCopy : Copy := { described.describedCopy described.me 128 with parts := [0] }
def withCopies (l : Store Copy) : State := described.setBolt 0 { described.bolt 0 with copies := l }
def full16 : State := withCopies ((List.range 16).map (fun i => (i + 1, { someCopy with st := .running })))
def openOne (l : List (Nat × Nat)) : State := withCopies [(1, { someCopy with contrib := l })]

/-- R264, R271, R279 to R281: the shapes; a copy is opened, or finds no free record; its last index joins an open one, or
finds the weft's slice there already; a register copy over the whole scratchpad, and one with a barrier. -/
theorem witness_CopyInstructionsComplete :
    (∀ u ∈ [described, full16, openOne [], openOne [(0, 0)]],
      MetAIn u (fun g => .plain g [opS 1 [.s, .z] tInt (s 13), opS 2 [.s, .z] tInt (s 14), opS 3 [.s, .z] tInt (s 14), opD [.s, .z] (.s 40)])) ∧
    (world.me.offset (s 13) (addInt none) 0 = (128 : Nat) ∧ 128 % 128 = 0 ∧ 128 + 128 ≤ (world.boltOf world.me).scratch) ∧
    (∀ u ∈ [described, full16], u.me.offset (s 13) (addInt none) 0 = (128 : Nat) ∧
      (u.boltOf u.me).copies.find? (fun p => p.2.st = .opened && p.2.off = 128) = none ∧
      ∃ t, Opens ⟨g0, .s 40, s 13, s 14, s 14, none⟩ 128 u u.me two t) ∧
    ((openOne []).boltOf (openOne []).me).copies.find? (fun p => p.2.st = .opened && p.2.off = 128) = some (1, { someCopy with contrib := [] }) ∧
    (openOne []).me.id ∈ someCopy.parts ∧
    ((openOne []).me.int 64 true (s 14) 0).toNat + ((openOne []).me.int 64 true (s 14) 0).toNat ≤ someCopy.count 5 ∧
    ((openOne [(0, 0)]).boltOf (openOne [(0, 0)]).me).copies.find? (fun p => p.2.st = .opened && p.2.off = 128) =
      some (1, { someCopy with contrib := [(0, 0)] }) ∧
    (∀ f ∈ [fun g => .plain g [opS 2 [.s, .z] tInt z, opS 3 [.z] none z, { opD [.v] (.v 20) with cnt := 16 }],
      fun g => .plain g [opS 2 [.s, .z] tInt z, opS 3 [.s, .z] tInt (s 11), { opD [.v] (.v 20) with cnt := 1 }],
      fun g => .plain g [{ opS 1 [.v] none (v 112) with cnt := 16 }, opS 2 [.s, .z] tInt z, opS 3 [.z] none z],
      fun g => .plain g [opS 1 [.s] (some [1]) (s 14), opD [.s] (.s 40)], fun g => .plain g [opS 1 [.s] (some [1]) (s 14), opD [.s, .z] .zero]],
      MetAIn barred f) ∧
    (∃ u, RegisterCopy true (.v 20) z z 16 false barred barred.me two u) ∧ (∃ u, RegisterCopy true (.v 20) z (s 11) 1 true barred barred.me two u) ∧
    (∃ u, RegisterCopy false (.v 112) z z 16 false barred barred.me two u) := by
  refine ⟨?_, by decide +kernel, ?_, by decide +kernel, by decide +kernel, by decide +kernel, by decide +kernel,
    metAIn_of (by decide +kernel) (by decide +kernel), ⟨_, 0, by decide +kernel, by decide +kernel, by simp, by decide +kernel, rfl⟩,
    ⟨_, 32, by decide +kernel, by decide +kernel, fun _ => by decide +kernel, by decide +kernel, rfl⟩,
    ⟨_, 0, by decide +kernel, by decide +kernel, by simp, by decide +kernel, rfl⟩⟩
  · intro u hu
    have h : u = described ∨ u = full16 ∨ u = openOne [] ∨ u = openOne [(0, 0)] := by simpa using hu
    rcases h with rfl | rfl | rfl | rfl <;> exact metA1 (by decide +kernel) (by decide +kernel)
  · intro u hu
    have h : u = described ∨ u = full16 := by simpa using hu
    rcases h with rfl | rfl
    · refine ⟨by decide +kernel, by decide +kernel, ?_⟩
      unfold Opens
      exact ⟨_, by decide +kernel, by decide +kernel, by decide +kernel, by decide +kernel, by decide +kernel, by decide +kernel, _, _, rfl, rfl⟩
    · refine ⟨by decide +kernel, by decide +kernel, ?_⟩
      unfold Opens
      exact ⟨_, by decide +kernel, by decide +kernel, by decide +kernel, by decide +kernel, rfl⟩

/-! ### The matrix array -/

/-- A form of a matrix instruction may execute, and issues. -/
structure MetMIn (u : State) (f : Guard → Form) : Prop where
  multiplies : Multiplies u (matForm (f g0)) two
  issues : Issues u (matForm (f gk)) 0
theorem metM1 {u : State} {f : Guard → Form} (h : (canRun u (matForm (f g0)) two && canIssue u (matForm (f gk)) 0) = true)
    (a : u.me.acquiring two = false) (m : u.me.mfail = none) : MetMIn u f := by
  simp only [Bool.and_eq_true] at h
  exact ⟨⟨⟨executes_of h.1, a⟩, m⟩, issues_of h.2⟩
theorem metMIn_of {u : State} {l : List (Guard → Form)}
    (h : l.all (fun f => canRun u (matForm (f g0)) two && canIssue u (matForm (f gk)) 0) = true) (a : u.me.acquiring two = false)
    (m : u.me.mfail = none) : ∀ f ∈ l, MetMIn u f := fun f hf => metM1 (List.all_eq_true.1 h f hf) a m

/-- The world with binary64 tiles of zeros in slots 0 and 1 of its weft. -/
def someSlot : Slot := { Slot.empty with tag := 3, owner := some 0 }
def slotted : State := world.setCore 0 { Core.reset with slots := [(0, someSlot), (1, someSlot)] }
/-- With a chain open, and with a sequencer that has no entry left. -/
def someMma : MmaArgs := ⟨g0, .arr, false, false, 0, .s 40, 8, z, 0, 1⟩
def someMloop : MloopArgs := ⟨g0, .arr, false, false, 0, .s 40, 8, z, s 27, z⟩
def chained : State := slotted.enterSeq 0 (slotted.mmaIssue 0 someMma slotted.me).e true
def fullSeq : State :=
  slotted.setCore 0 { slotted.core 0 with seqr := (List.range 8).map (fun i => (i, SeqEntry.fresh 0 0 0 (.mma []))) }

/-- R284, R287 to R289, R294, R295: the shapes; the slots named are the weft's own; a layout word of the largest offset and the
lowest strides; a tile of which every element lies at offset 0, without and with scale bytes that end with the scratchpad. -/
theorem witness_MatrixOperandInstructionsComplete :
    (∀ f ∈ [fun g => .plain g [opS 1 [.s] tInt (s 14), opD [.s, .z] .zero], fun g => .plain g [opS 1 [.s] tInt (s 14)],
      fun g => .plain g (layoutOps (s 24) ++ []), fun g => .plain g [opS 1 [.s, .z] tInt z, opS 2 [.s, .z] tInt (s 1), opS 3 [.s, .z] tInt z, opS 5 [.s, .z] tInt z],
      fun g => .plain g [opS 2 [.s, .z] tInt z, opS 3 [.s, .z] tInt (s 1)]], MetMIn slotted f) ∧
    MetA (fun g => .plain g [opS 1 [.s, .z] tInt (s 22), opS 2 [.s, .z] tInt z, opS 3 [.s, .z] tInt (s 23), opS 5 [.s, .z] tInt (s 23),
      opS 6 [.s, .z] tInt z, { opD [.s] (.s 61) with cnt := 3 }]) ∧
    (∀ i ∈ slotted.me.slotMask (s 14), slotted.ownsSlot 0 i = true) ∧ LayoutFits world.me ⟨g0, .s 61, s 22, z, s 23, s 23, z, 0, 0⟩ ∧
    ((if tagValid 3 then MFmt.ofTag 3 else none) = some .f64 ∧ layEsz (slotted.me.layoutWord (s 24)) = MFmt.f64.esz ∧ slotted.ownsSlot 0 1 = true ∧
      slotted.boltIn (slotted.boltOf slotted.me).course (layBolt (slotted.me.layoutWord (s 24))) = some 0 ∧
      TileFits (slotted.me.layoutWord (s 24)) .f64 none (slotted.bolt 0).scratch) ∧
    TileFits (0, 0, 0) .mx (some 3584) (slotted.bolt 0).scratch := by
  refine ⟨metMIn_of (by decide +kernel) (by decide +kernel) (by decide +kernel), metA1 (by decide +kernel) (by decide +kernel), by decide +kernel,
    ⟨by decide +kernel, by decide +kernel, by decide +kernel⟩, ⟨by decide +kernel, by decide +kernel, by decide +kernel, by decide +kernel,
    by decide +kernel, by simp⟩, ?_, ?_⟩
  · intro e h
    obtain ⟨r, -, h⟩ := List.mem_flatMap.1 h
    obtain ⟨i, hi, rfl⟩ := List.mem_map.1 h
    have b : (slotted.bolt 0).scratch = 4096 := by decide +kernel
    have hi : i < 128 := List.mem_range.1 hi
    have z0 : layAt (0, 0, 0) r i = ((i / 2 : Nat) : Int) := by
      simp [layAt, layOff, laySt1, laySt2, layEsz, layPerm, sextNat]
    rw [z0, b, show MFmt.elemBytes .mx = 1 from rfl]
    omega
  · intro q h
    cases h
    decide +kernel

/-- R297, R298: a multiply whose tile ends with its record enters an empty sequencer, extends its chain, or finds no entry left, and so does
a loop of one step; the open batch and the one before it have completed. -/
theorem witness_MatrixWorkInstructionsComplete :
    (∀ u ∈ [slotted, chained, fullSeq], MetMIn u (fun g => recForm g 8 [opS 2 [.s, .z] tInt z, opD [.s, .z] (.s 40)]) ∧
      u.matFault 0 u.me (u.mmaIssue 0 someMma u.me) two = none) ∧
    (∃ id c, chained.sameChain 0 (chained.mmaIssue 0 someMma chained.me).e = some (id, c)) ∧
    (slotted.sameChain 0 (slotted.mmaIssue 0 someMma slotted.me).e = none ∧ ∃ u, Entered slotted (.s 40) (slotted.mmaIssue 0 someMma slotted.me).e true u) ∧
    (fullSeq.sameChain 0 (fullSeq.mmaIssue 0 someMma fullSeq.me).e = none ∧ 8 ≤ fullSeq.entriesUsed (fullSeq.coreOf fullSeq.me) ∧
      ∃ u, Entered fullSeq (.s 40) (fullSeq.mmaIssue 0 someMma fullSeq.me).e true u) ∧
    (∀ u ∈ [slotted, fullSeq], MetMIn u (fun g => recForm g 8 [opS 2 [.s, .z] tInt z, opS 3 [.s] tInt (s 27), opS 5 [.s, .z] tInt z, opD [.s, .z] (.s 40)]) ∧
      u.matFault 0 u.me (u.mloopIssue 0 someMloop u.me) two = none ∧ ∃ t, Entered u (.s 40) (u.mloopIssue 0 someMloop u.me).e false t) ∧
    (∀ f ∈ [fun g => .plain g [opD [.s, .z] .zero], fun g => .plain g [], fun g => .plain g (opSI 1 [.s, .z] tInt (.imm 0xFFFFFFFF) ++ [opD [.s, .z] (.s 40)]),
      fun g => .plain g (opSI 1 [.s, .z] tInt (.reg z) ++ [opD [.s, .z] (.s 40)])], MetMIn chained f) ∧
    (world.me.batchNum (.imm 0xFFFFFFFF) = 2 ^ 32 - 1 ∧ (world.me.nextBatch + 2 ^ 32 - (2 ^ 32 - 1)) % 2 ^ 32 = 1 ∧ world.me.batchesDone (2 ^ 32 - 1) = true) ∧
    (world.me.batchNum (.reg z) = 0 ∧ ((world.closeBatch 0).2.weft 0).batchesDone 0 = true) := by
  have e1 : ¬ 8 ≤ slotted.entriesUsed (slotted.coreOf slotted.me) := by decide +kernel
  have e2 : 8 ≤ fullSeq.entriesUsed (fullSeq.coreOf fullSeq.me) := by decide +kernel
  have enter (e : SeqEntry) (c : Bool) : ∃ u, Entered slotted (.s 40) e c u := ⟨_, by unfold Entered; rw [if_neg e1]⟩
  have turned (e : SeqEntry) (c : Bool) : ∃ u, Entered fullSeq (.s 40) e c u := ⟨_, by unfold Entered; rw [if_pos e2]; exact ⟨by decide, rfl⟩⟩
  refine ⟨?_, ?_, ⟨by decide +kernel, enter _ _⟩, ⟨by decide +kernel, e2, turned _ _⟩, ?_, metMIn_of (by decide +kernel) (by decide +kernel) (by decide +kernel),
    by decide +kernel, by decide +kernel⟩
  · intro u hu
    have h : u = slotted ∨ u = chained ∨ u = fullSeq := by simpa using hu
    rcases h with rfl | rfl | rfl <;> exact ⟨metM1 (by decide +kernel) (by decide +kernel) (by decide +kernel), by decide +kernel⟩
  · exact ⟨_, _, (Option.some_get (by decide +kernel)).symm⟩
  · intro u hu
    have h : u = slotted ∨ u = fullSeq := by simpa using hu
    rcases h with rfl | rfl
    · exact ⟨metM1 (by decide +kernel) (by decide +kernel) (by decide +kernel), by decide +kernel, enter _ _⟩
    · exact ⟨metM1 (by decide +kernel) (by decide +kernel) (by decide +kernel), by decide +kernel, turned _ _⟩

/-! ### Work feeds, lines, the fabric and system registers -/

/-- The world with feed queue 3 bound; with the core's handler record in use; with a line bound already. -/
def fed : State := world.setFeed 3 { FeedQ.reset with asid := 1, cap := 64 }
def reserved : State := world.setCore 0 { Core.reset with handler := some 64 }
def lineBound : State := world.setCtx 1 { world.ctx 1 with mboxes :=
  [{ line := pageVa, pa := pagePa, descr := 0, core := 1, bolt := none, pending := false, span := 0, kern := Kernel.absent }] }

def WRead.isOk : WRead → Bool
  | .ok _ _ => true
  | _ => false
def WRead.state (d : State) : WRead → State
  | .ok s _ => s
  | _ => d
def WRead.bytes : WRead → List Byte
  | .ok _ l => l
  | _ => []
theorem read_of {x : WRead} (d : State) (h : WRead.isOk x = true) : x = .ok (WRead.state d x) (WRead.bytes x) := by
  cases x with
  | ok s l => rfl
  | eff e => cases h

/-- A line of the page is mapped, and no other context's line is bound to it. -/
theorem ownLine_of {u : State} {k : XKind} (h : (u.place1 u.me pageVa k two).2.isLeft = true)
    (m : ∀ x, (u.place1 u.me pageVa k two).1.mailboxAt (sumLeft 0 (u.place1 u.me pageVa k two).2) = some x → x.1 = (u.place1 u.me pageVa k two).1.asidOf u.me) :
    ∃ s1 pa, OwnLine u u.me pageVa k two s1 pa :=
  ⟨_, _, by decide, fstLeft_of 0 h, fun asid x e => m (asid, x) e⟩

/-- R413 to R420: a bound feed queue of the context; a mapped line without a binding, and with one of the context's own; a kernel
descriptor that is read; a reserved record in use. -/
theorem witness_WorkInstructionsComplete :
    (∀ f ∈ [fun g => .plain g [eight (opD [.s] (.s 56))], fun g => .plain g [eight (opS 2 [.s] none (s 56)), opD [.s, .z] .zero],
      fun g => .plain g [opS 1 [.s] tInt (s 15), eight (opS 2 [.s] none (s 0))],
      fun g => .plain g [opS 1 [.s] tInt (s 15), opS 2 [.s, .z] tInt z, opD [.s, .z] (.s 40)]], MetAIn fed f) ∧
    ((fed.feed 3).asid = fed.asidOf fed.me ∧ (fed.feed 3).cap ≠ 0 ∧ ∃ s1, Released 0 fed two (some .span) s1) ∧
    (world.me.lineAddr (s 15) = pageVa ∧ ∃ s1 pa s2, OwnLine world world.me pageVa .write two s1 pa ∧ Released 0 s1 two (some .span) s2) ∧
    (∀ u ∈ [world, reserved, lineBound], MetAIn u (fun g => .plain g [opS 1 [.s] tInt (s 15), opS 2 [.s, .z] tInt (s 15), opD [.s, .z] (.s 40)])) ∧
    (∃ s1 pa, OwnLine reserved reserved.me pageVa .read two s1 pa ∧ s1.reservedUsed (s1.coreOf reserved.me) = true) ∧
    (∃ s1 pa, OwnLine lineBound lineBound.me pageVa .read two s1 pa ∧ s1.reservedUsed (s1.coreOf lineBound.me) = false ∧ (s1.mailboxAt pa).isSome = true) ∧
    (∃ s1 pa, OwnLine world world.me pageVa .read two s1 pa ∧ s1.reservedUsed (s1.coreOf world.me) = false ∧ (s1.mailboxAt pa).isSome = false ∧
      ∃ s2 l s3 r, s1.weftRead 0 world.me two 3 pageVa 64 [] = .ok s2 l ∧ s2.weftRead 0 world.me two 3 (recTab l).1 (40 * (recTab l).2) [] = .ok s3 r) := by
  refine ⟨metAIn_of (by decide +kernel) (by decide +kernel), ⟨by decide +kernel, by decide +kernel, _, released_of (by decide +kernel)⟩,
    ⟨by decide +kernel, _, _, _, ⟨by decide, fstLeft_of 0 (by decide +kernel), ?_⟩, released_of (by decide +kernel)⟩, ?_,
    ⟨_, _, ⟨by decide, fstLeft_of 0 (by decide +kernel), ?_⟩, by decide +kernel⟩,
    ⟨_, _, ⟨by decide, fstLeft_of 0 (by decide +kernel), ?_⟩, by decide +kernel, by decide +kernel⟩,
    ⟨_, _, ⟨by decide, fstLeft_of 0 (by decide +kernel), ?_⟩, by decide +kernel, by decide +kernel, _, _, _, _,
      read_of world (by decide +kernel), read_of world (by decide +kernel)⟩⟩
  · intro a m h
    rw [show State.mailboxAt _ _ = none by decide +kernel] at h; cases h
  · intro u hu
    have h : u = world ∨ u = reserved ∨ u = lineBound := by simpa using hu
    rcases h with rfl | rfl | rfl <;> exact metA1 (by decide +kernel) (by decide +kernel)
  · intro a m h
    rw [show State.mailboxAt _ _ = none by decide +kernel] at h; cases h
  · have e : ((lineBound.place1 lineBound.me pageVa .read two).1.mailboxAt (sumLeft 0 (lineBound.place1 lineBound.me pageVa .read two).2)).map (fun x => x.1) =
        some ((lineBound.place1 lineBound.me pageVa .read two).1.asidOf lineBound.me) := by decide +kernel
    intro a m h
    rw [h] at e
    exact Option.some.inj e
  · intro a m h
    rw [show State.mailboxAt _ _ = none by decide +kernel] at h; cases h

/-- The bytes of a usable route of context 1, and the world with it as route 1. -/
def someRoute : List Byte := natLe 16 0 ++ natLe 16 (2 ^ 83) ++ natLe 4 7 ++ natLe 2 1 ++ [1, 0] ++ natLe 4 1 ++ List.replicate 20 0
def routed : State := { world with fab := { world.fab with cache := [(1, someRoute)] } }
def someEnt : RtEnt := RtEnt.ofBytes someRoute
def farRec : Rec := (routed.recordOf routed.me 5).fields
theorem routed_here : Routed routed routed.me 5 routed farRec someEnt :=
  ⟨rfl, by decide +kernel, by decide +kernel, pair_of (by decide +kernel), by decide +kernel, by decide +kernel⟩

/-- R466, R470 to R476, R480: a record that names a usable route; elements in bounds; paths that can be counted; releases with nothing
outstanding; a signal's word and its largest count. -/
theorem witness_FabricInstructionsComplete :
    (∀ f ∈ [fun g => recForm g 5 [opS 2 cOff tInt (v 2), opD [.v] (.v 20)], fun g => recForm g 5 [opS 2 cOff tInt (v 2), opS 3 [.v] none (v 1)],
      fun g => recForm g 5 [opS 2 cOff tInt (v 2), atomOpnd .add (v 1), opD cDst (.v 20)],
      fun g => recForm g 5 (opS 2 [.s, .z] tInt (s 11) :: opSI 3 [.s, .z] tInt (.reg (s 1)))], MetAIn routed f) ∧
    Met (fun g => .plain g []) ∧ Routed routed routed.me 5 routed farRec someEnt ∧ PathReady routed (routed.asidOf routed.me) farRec someEnt ∧
    (∃ p locs, loadPair farRec.enc 1 = some p ∧ farRec.crossing (fun _ => 1) (routed.me.offset (v 2) 0) (lanesWho false two) = 0 ∧
      remotePlaces routed.me farRec (farRec.usesScale p 1) (farRec.elems (fun _ => 1) (routed.me.offset (v 2) 0) (lanesWho false two)) [] = .inl locs) ∧
    (∃ items locs s2, items = (lanesWho false two).map (fun p => ({ thr := p.1, who := p.2, c := routed.me.cell (v 1).reg p.1 } : SItem)) ∧
      storeFault routed.me farRec items = none ∧
      farRec.crossing (fun t => fmtOf (routed.me.cell (v 1).reg t).tag) (routed.me.offset (v 2) 0) (lanesWho false two) = 0 ∧
      remotePlaces routed.me farRec (farRec.smode ≠ 0) (farRec.elems (fun t => fmtOf (routed.me.cell (v 1).reg t).tag) (routed.me.offset (v 2) 0)
        (lanesWho false two)) [] = .inl locs ∧ Released 0 routed two (some .domain) s2 ∧ PathReady s2 (s2.asidOf routed.me) farRec someEnt) ∧
    (routed.me.casBad (v 1) .add two = 0 ∧ (∀ t ∈ threads two, atomEnc farRec (atomBytes (routed.me.atomCell (v 1) t .add).tag) = true) ∧
      (∀ t ∈ threads two, someEnt.lacksAtom .add (atomBytes (routed.me.atomCell (v 1) t .add).tag) = false) ∧
      ∃ locs, remotePlaces routed.me farRec false (farRec.elems (fun _ => 0) (routed.me.offset (v 2) 0) (lanesWho false two)) [] = .inl locs) ∧
    (someEnt.gw = false ∧ wrapNat 64 (routed.me.int 64 false (s 11) 0) / 2 ^ 60 = 0 ∧ wrapNat 64 (routed.me.int 64 false (s 11) 0) % 2 ^ 20 % 32 = 0 ∧
      (routed.me.intB 64 true (.reg (s 1)) 0).toNat < 2 ^ 40) ∧
    (∃ s1, Released 0 world two (some .domain) s1 ∧ (s1.weft 0).owesRemote = false ∧ (s1.weft 0).owesAny two = false) := by
  refine ⟨metAIn_of (by decide +kernel) (by decide +kernel), met_of (l := [_]) (by decide +kernel) _ (.head _), routed_here, .inr (by decide +kernel),
    ⟨.int, _, by decide +kernel, by decide +kernel, left_of [] (by decide +kernel)⟩,
    ⟨_, _, _, rfl, by decide +kernel, by decide +kernel, left_of [] (by decide +kernel), released_of ?_, .inr ?_⟩,
    ⟨by decide +kernel, by decide +kernel, by decide +kernel, _, left_of [] (by decide +kernel)⟩, by decide +kernel,
    ⟨_, released_of ?_, ?_, ?_⟩⟩
  all_goals decide +kernel

/-- R64 to R67, R172 to R174: the shapes; FPCTL takes its largest value, THVEC takes the highest aligned address, the clock is not
written; every register is full. -/
theorem witness_SystemInstructionsComplete :
    (∀ f ∈ [fun g => .plain g [opD [.v, .s] (.v 1)], fun g => .plain g [opD [.v, .s] (.s 1)], fun g => .plain g [opS 1 [.s, .z] (some [0, 1, 2]) (s 1)],
      fun g => .plain g [opS 1 [.s, .z] none (s 9)], fun g => .plain g []], Met f) ∧
    world.me.owesFlags = false ∧ setsrOk 0 0xC5 = true ∧ setsrOk 0x25 0x1FFFFFFFFFFFFFC = true ∧ setsrOk 0 0x100 = false ∧
    (∃ x : Dword, x = (if fmtOf (world.me.cell (s 1).reg 0).tag = 2 then BitVec.ofNat 64 ((world.me.cell (s 1).reg 0).val.toNat % 2 ^ 32)
      else (world.me.cell (s 1).reg 0).val) ∧ setsrOk 1 x = true) ∧
    setsrOk 0x10 (if fmtOf (world.me.cell (s 1).reg 0).tag = 2 then BitVec.ofNat 64 ((world.me.cell (s 1).reg 0).val.toNat % 2 ^ 32)
      else (world.me.cell (s 1).reg 0).val) = false ∧ world.me.settled = true ∧ world.owesAccess world.me = false := by
  refine ⟨met_of (by decide +kernel), by decide +kernel, by decide +kernel, by decide +kernel, by decide +kernel, ⟨_, rfl, ?_⟩, ?_, ?_, ?_⟩
  all_goals decide +kernel

/-! ### Steps of the other agents: trap records, landings, the heddle -/

/-- The weft parked, its record going to the supervisor or to the mailbox; a weft all of whose threads have exited. -/
def someTrap : Trap := someWeft.fault cIllegal
def parkedTo (r : Route) (tags : Option (List Nat)) : State := world.setWeft 0 { someWeft.park someTrap r with relTags := tags }
def emptied : State := world.setWeft 0 { someWeft with exm := 0xFFFFFFFF }

/-- R94, R159, R182, R375: a parked weft with its accesses performed, for each route; a mailbox record whose markers are answered; a ring
with one record; a weft without a thread. -/
theorem witness_TrapRecordStepsComplete :
    (∃ r, ((parkedTo .supervisor none).weft 0).trec = some r ∧ ((parkedTo .supervisor none).weft 0).status = .parked ∧ r.published = false ∧
      (parkedTo .supervisor none).performed 0 = true ∧ (parkedTo .supervisor none).displaced ((parkedTo .supervisor none).courseOf ((parkedTo .supervisor none).weft 0)) = false ∧
      r.route ≠ .mailbox ∧ (parkedTo .supervisor none).trapRing.length < trapRingSlots) ∧
    (∀ u ∈ [parkedTo .mailbox none, parkedTo .mailbox (some [])], ∃ r, (u.weft 0).trec = some r ∧ (u.weft 0).status = .parked ∧ r.published = false ∧
      u.performed 0 = true ∧ u.displaced (u.courseOf (u.weft 0)) = false ∧ r.route = .mailbox) ∧
    ((parkedTo .mailbox none).weft 0).relTags = none ∧
    (((parkedTo .mailbox (some [])).weft 0).relTags = some [] ∧ (parkedTo .mailbox (some [])).unanswered [] = false ∧
      (parkedTo .mailbox (some [])).gwBusy ((parkedTo .mailbox (some [])).asidOf ((parkedTo .mailbox (some [])).weft 0)) = false) ∧
    ({ world with trapRing := [[]] } : State).trapRing = [] :: [] ∧
    ((Store.find emptied.wefts 0).isSome = true ∧ (emptied.weft 0).alive = 0 ∧ (emptied.weft 0).status ≠ .ended ∧ (emptied.weft 0).trec = none ∧
      emptied.unaccepted 0 = false) := by
  refine ⟨⟨_, (Option.some_get (by decide +kernel)).symm, by decide +kernel⟩, ?_, by decide +kernel, by decide +kernel, rfl, by decide +kernel⟩
  intro u hu
  have h : u = parkedTo .mailbox none ∨ u = parkedTo .mailbox (some []) := by simpa using hu
  rcases h with rfl | rfl <;> exact ⟨_, (Option.some_get (by decide +kernel)).symm, by decide +kernel⟩

/-- A producer in flight: its destination, the threads a read was aborted in, and whether it is a decode. -/
def someFlight (d : Reg) (dead : Mask) (dec : Bool) : Flight :=
  { fid := 5, mask := two, aborted := dead, kind := .ready d [(0, ⟨7, 2, true⟩)] none 0 false false dec }
def flying (f : Flight) : State := world.setWeft 0 { someWeft with flights := [f] }
/-- A buffered write of one byte. -/
def oneWrite : State := world.pushStores 0 [(pagePa + 63, [1])]

/-- R93, R109, R110, R170, R171, R206, R308: a landing of one thread of two, an abort of a vector's and of a scalar's read, a decode, a poll, and a
buffered write. -/
theorem witness_LandingStepsComplete :
    (∃ f, ((flying (someFlight (.v 20) 0 false)).weft 0).flight 5 = some f ∧ (flying (someFlight (.v 20) 0 false)).canLand 0 f 1 = true) ∧
    (∃ f, ((flying (someFlight (.v 20) 1 false)).weft 0).flight 5 = some f ∧ ((flying (someFlight (.v 20) 1 false)).weft 0).abortedOf f ≠ 0 ∧ isScalar f.dest = false) ∧
    (∃ f, ((flying (someFlight (.s 40) 1 false)).weft 0).flight 5 = some f ∧ ((flying (someFlight (.s 40) 1 false)).weft 0).abortedOf f ≠ 0 ∧ isScalar f.dest = true) ∧
    (∃ f, ((flying (someFlight (.v 20) 0 true)).weft 0).flight 5 = some f ∧ f.isDecode = true ∧ f.mask ≠ 0) ∧
    (∃ e, (oneWrite.core 0).wbuf[0]? = some e ∧ oneWrite.canPerform (oneWrite.core 0) 0 e = true) := by
  refine ⟨⟨_, (Option.some_get (by decide +kernel)).symm, ?_⟩, ⟨_, (Option.some_get (by decide +kernel)).symm, ?_⟩,
    ⟨_, (Option.some_get (by decide +kernel)).symm, ?_⟩, ⟨_, (Option.some_get (by decide +kernel)).symm, ?_⟩,
    ⟨_, (Option.some_get (by decide +kernel)).symm, ?_⟩⟩
  all_goals decide +kernel

/-- The weft waiting at its slot, ready, and at the end of a lease window; its span off its core, with a switch asked for and in its second half; its
bolt swapped out. -/
def waiting : State := world.setWeft 0 { someWeft with wait := some .release }
def readied : State := world.setWeft 0 { someWeft with status := .ready, slot := none }
def lowFor (n d m : Nat) : State := world.setWeft 0 { someWeft with lowWindows := n, leaseDecl := d, misses := m, issued := leaseWindow }
def offCore : State := world.spanOff 0
def switching (x : Switch) : State := offCore.setCore 0 { offCore.core 0 with switch := x, stopping := true }
def swappedBolt : State := world.swapOut 0

/-- R253 to R263: a weft that waits, one that is queued, windows of a declared lease and of
measured ones with three low windows and with fewer (the misses 8, 7, 2, 1 and 0 fall under one clause each), and each stage of a switch, of a slow switch and of a bolt's return. -/
theorem witness_HeddleStepsComplete :
    ((waiting.weft 0).status = .active ∧ (waiting.weft 0).wait = some .release ∧ waiting.waitClear (waiting.weft 0) = false) ∧
    ((readied.core 0).stopping = false ∧ readied.admitQueue 0 ≠ []) ∧
    (∀ n ∈ [0, 3], ∀ d ∈ [0, 16384], ∀ m ∈ [0, 1, 2, 7, 8], ((lowFor n d m).weft 0).status ≠ .ended ∧ leaseWindow ≤ ((lowFor n d m).weft 0).issued ∧
      ((lowFor n d m).weft 0).leaseDecl = d ∧ ((lowFor n d m).weft 0).misses = m ∧ ((lowFor n d m).weft 0).lowWindows = n) ∧
    ((8 ≤ 8 ∧ ¬ 8 < 8) ∧ (7 < 8 ∧ 1 < 7) ∧ (2 < 8 ∧ 1 < 2) ∧ (1 ≤ 1 ∧ ¬ 1 < 1) ∧ 0 ≤ 1) ∧
    ((offCore.core 0).switch = .none ∧ (offCore.core 0).stopping = false ∧ offCore.incoming 0 0 ≠ [] ∧ offCore.canPreload 0 0 = true) ∧
    (((switching (.requested 0)).core 0).switch = .requested 0 ∧
      ((switching (.requested 0)).incoming 0 0).all (fun p => (((switching (.requested 0)).outgoing 0 0).foldl (fun (s : State) p => s.boltOff p.1)
        (switching (.requested 0))).boltCanReturn p.1) = true) ∧
    ((switching (.spilling 0)).core 0).switch = .spilling 0 ∧
    (offCore.spanIsOff 0 = true ∧ (if 0 = 0 then offCore else offCore.spanOff 0).spanCanReturn 0 = true ∧
      (if 1 = 0 then offCore else offCore.spanOff 1).spanCanReturn 0 = true ∧
      offCore.switchFree 0 = true ∧ offCore.switchFree 1 = true) ∧
    ((swappedBolt.bolt 0).swapped = true ∧ swappedBolt.faultsReported 0 = true) := by
  refine ⟨?_, ?_, ?_, by decide, ?_, ?_, ?_, ?_, ?_⟩
  all_goals decide +kernel

/-! ### Copies, the array, translation and errors -/

def Eng.isOk {α : Type} : Eng α → Bool
  | .ok _ _ => true
  | _ => false
theorem eng_of {α : Type} {x : Eng α} (h : Eng.isOk x = true) : ∃ s a, x = .ok s a := by
  cases x with
  | ok s a => exact ⟨s, a, rfl⟩
  | fail s c => cases h
  | hold s => cases h

/-- The copy with its slice, ready to walk, and a state that holds it; one whose destination is a record; and the copy as it runs. -/
def readyCopy : Copy := { someCopy with st := .ready, contrib := [(0, 0)], slices := [(0, 2)] }
def toRecord : Copy := { readyCopy with desc := [0, 0, BitVec.ofNat 64 (3 + 17 * 2 ^ 32)] ++ someCopy.desc.drop 3, drec := recAt pageVa 2 4096 0 }
def running (refused gone : Bool) (next : Nat) : Copy :=
  { readyCopy with st := .running, refused := refused, barGone := gone, next := next,
                   desc := if gone then someCopy.desc.set 3 (BitVec.ofNat 64 (3 * 2 ^ 32 + 2 ^ 20)) else someCopy.desc }
/-- The world with one copy. -/
def oneCopy (c : Copy) : State := withCopies [(1, c)]

/-- R267, R272 to R277: copies ready to walk into a scratchpad and into a record; running ones that were refused, whose barrier is gone, that have
walked their last element, and whose second element is next. -/
theorem witness_CopyStepsComplete :
    (Store.find ((oneCopy readyCopy).bolt 0).copies 1 = some readyCopy ∧ readyCopy.st = .ready ∧
      (∀ p ∈ readyCopy.contrib, (oneCopy readyCopy).performedBefore p.1 p.2 = true) ∧ ((oneCopy readyCopy).dstSide 0 readyCopy).isShadow = false) ∧
    (Store.find ((oneCopy toRecord).bolt 0).copies 1 = some toRecord ∧ toRecord.st = .ready ∧
      (∀ p ∈ toRecord.contrib, (oneCopy toRecord).performedBefore p.1 p.2 = true) ∧
      (oneCopy toRecord).dstSide 0 toRecord = .glob (recAt pageVa 2 4096 0).fields ∧
      (oneCopy toRecord).shadowTaken ((oneCopy toRecord).span ((oneCopy toRecord).course ((oneCopy toRecord).bolt 0).course).span).asid
        (recAt pageVa 2 4096 0).fields.base = false) ∧
    (∀ c ∈ [running true false 0, running false true 0, running false false 2, running false false 1],
      Store.find ((oneCopy c).bolt 0).copies 1 = some c ∧ c.st = .running ∧ c.held = none) ∧
    (running true false 0).refused = true ∧
    ((running false true 0).refused = false ∧ (oneCopy (running false true 0)).copyBarCode 0 (running false true 0) = some 4) ∧
    ((running false false 2).refused = false ∧ (oneCopy (running false false 2)).copyBarCode 0 (running false false 2) = none ∧
      (running false false 2).pos (running false false 2).next = none) ∧
    ((running false false 1).refused = false ∧ (oneCopy (running false false 1)).copyBarCode 0 (running false false 1) = none ∧
      (running false false 1).pos (running false false 1).next = some 1 ∧
      (oneCopy (running false false 1)).adoptSaved 0 1 (running false false 1).saved [] = (oneCopy (running false false 1), true, []) ∧
      ∃ s1 l s2, (oneCopy (running false false 1)).elementBytes 0 1 (running false false 1) 1 = .ok s1 l ∧
        s1.copyWrite 0 1 (running false false 1) ((running false false 1).dstAt 1) l [] = .ok s2 ()) := by
  have here (c : Copy) (h : c ∈ [running true false 0, running false true 0, running false false 2, running false false 1]) :
      Store.find ((oneCopy c).bolt 0).copies 1 = some c ∧ c.st = .running ∧ c.held = none := by
    have : [running true false 0, running false true 0, running false false 2, running false false 1].all (fun c =>
      decide (Store.find ((oneCopy c).bolt 0).copies 1 = some c ∧ c.st = .running ∧ c.held = none)) = true := by decide +kernel
    simpa using List.all_eq_true.1 this c h
  refine ⟨by decide +kernel, by decide +kernel, here, by decide +kernel, by decide +kernel, by decide +kernel, by decide +kernel, by decide +kernel, by decide +kernel, ?_⟩
  have r : (oneCopy (running false false 1)).elementBytes 0 1 (running false false 1) 1 = .ok (oneCopy (running false false 1)) (List.replicate 8 0) := by
    have e : ∀ x : Eng (List Byte), (match x with | .ok s l => s == oneCopy (running false false 1) && l == List.replicate 8 0 | _ => false) = true →
        x = .ok (oneCopy (running false false 1)) (List.replicate 8 0) := by
      intro x h
      cases x with
      | ok s l => simp only [Bool.and_eq_true, beq_iff_eq] at h; rw [h.1, h.2]
      | fail s c => cases h
      | hold s => cases h
    exact e _ (by decide +kernel)
  obtain ⟨s2, a, h⟩ := eng_of (x := (oneCopy (running false false 1)).copyWrite 0 1 (running false false 1) ((running false false 1).dstAt 1)
    (List.replicate 8 0) []) (by decide +kernel)
  exact ⟨rfl, _, _, s2, r, h⟩

/-- An MLOAD in progress, also with an uncorrectable word; a chain with a step to run, one with a tile of another format, and one
whose partial is due; a contribution on its way; a closed batch. -/
def loadingTile (bad : List Nat) : State :=
  (slotted.setBolt 0 { slotted.bolt 0 with spBad := bad }).issueMload 0 1 (0, 0, BitVec.ofNat 64 (4 * 2 ^ 36)) 3 none
def mixed : State := chained.setCore 0 { chained.core 0 with slots := [(0, someSlot), (1, { someSlot with tag := 4 })] }
def dueChain : State := chained.setCore 0 { chained.core 0 with seqr := (chained.core 0).seqr.map (fun p => (p.1, { p.2 with next := 1, closed := true })) }
def someContrib : Contribution :=
  { weft := 0, batch := 0, entry := 0, contrib := 0, merge := .arr, ordinal := 0, part := hbmSize - 8, len := 8, kind := 1, elems := [], final := false, stalled := false, uses := [] }
/-- A later contribution in order to a part whose area is full. -/
def laterContrib : Contribution := { someContrib with merge := .ord, contrib := 1 }
def filledArea : State :=
  { world with contribs := [laterContrib], accs := [(hbmSize - 8, { len := 8, next := 0, held := List.replicate 16 laterContrib })] }
theorem area_stalls : filledArea.accStalls laterContrib = true := by
  have h : filledArea.areaFull laterContrib = true := by simp [State.areaFull, filledArea, laterContrib, someContrib]
  have n : (filledArea.acc laterContrib.part).next = 0 := by decide +kernel
  have c : laterContrib.contrib = 1 ∧ laterContrib.merge = .ord := ⟨rfl, rfl⟩
  simp [State.accStalls, h, n, c]
def batched : State := world.setWeft 0 { someWeft with batches := [{ Batch.fresh 0 with closed := true }], nextBatch := 1 }
theorem chain_id : chained.seqEntry 0 slotted.order ≠ none := by decide +kernel

/-- R289 to R291, R298, R299, R313 to R316: those states meet the steps' conditions; the last part of memory takes a contribution. -/
theorem witness_ArrayStepsComplete :
    (∀ bad ∈ [[], [0]], ∃ id e, (loadingTile bad).seqEntry 0 id = some e ∧ e.kind = .mload 1 (0, 0, BitVec.ofNat 64 (4 * 2 ^ 36)) 3 none ∧ MFmt.ofTag 3 = some .f64 ∧
      (loadingTile bad).boltIn ((loadingTile bad).boltOf ((loadingTile bad).weft e.weft)).course (layBolt (0, 0, BitVec.ofNat 64 (4 * 2 ^ 36))) = some 0 ∧
      (loadingTile bad).itemRuns e = true ∧ ((loadingTile bad).slotAt ((loadingTile bad).coreOf ((loadingTile bad).weft e.weft)) 1).pins = 0 ∧
      ((loadingTile bad).slotAt 0 1).pins = 0 ∧ (loadingTile bad).slotBusyBefore e.weft id 1 = false ∧ (loadingTile bad).performedBefore e.weft id = true) ∧
    (((loadingTile []).tileBytes 0 (0, 0, BitVec.ofNat 64 (4 * 2 ^ 36)) .f64 none).isLeft = true ∧ (loadingTile []).ownsSlot 0 1 = true) ∧
    ((loadingTile [0]).tileBytes 0 (0, 0, BitVec.ofNat 64 (4 * 2 ^ 36)) .f64 none).isRight = true ∧
    (∃ id e, dueChain.seqEntry 0 id = some e ∧ dueChain.commitReady id e = true) ∧
    (∀ u ∈ [chained, mixed], ∃ id e x, u.seqEntry 0 id = some e ∧ u.commitReady id e = false ∧ e.step id e.next = some x ∧ u.stepReady id e = true ∧
      (∀ p ∈ (u.core 0).seqr, p.1 < id → p.2.kind.isEntry = true → u.stepReady p.1 p.2 = false) ∧
      ((u.runStep 0 id e x).seqEntry 0 id).isSome = decide (((u.core 0).slots.getD 1 (0, someSlot)).2.tag = 3)) ∧
    (({ world with contribs := [someContrib] } : State).contribs[0]? = some someContrib ∧ someContrib.stalled = false ∧ someContrib.part < hbmSize ∧
      ({ world with contribs := [someContrib] } : State).accStalls someContrib = false) ∧
    (filledArea.contribs[0]? = some laterContrib ∧ laterContrib.stalled = false ∧ laterContrib.part < hbmSize ∧ filledArea.accStalls laterContrib = true) ∧
    ∃ b, (batched.weft 0).batch 0 = some b ∧ b.closed = true ∧ b.left = 0 ∧ b.complete = false := by
  refine ⟨?_, by decide +kernel, by decide +kernel, ⟨slotted.order, _, (Option.some_get (by decide +kernel)).symm, by decide +kernel⟩, ?_, by decide +kernel,
    ⟨by decide +kernel, by decide, by decide +kernel, area_stalls⟩, ⟨_, (Option.some_get (by decide +kernel)).symm, by decide +kernel⟩⟩
  · intro bad hb
    have h : bad = [] ∨ bad = [0] := by simpa using hb
    rcases h with rfl | rfl <;> exact ⟨slotted.order, _, (Option.some_get (by decide +kernel)).symm, by decide +kernel⟩
  · intro u hu
    have h : u = chained ∨ u = mixed := by simpa using hu
    rcases h with rfl | rfl
    · exact ⟨slotted.order, _, _, (Option.some_get (by decide +kernel)).symm, by decide +kernel, (Option.some_get (by decide +kernel)).symm,
        by decide +kernel, by decide +kernel, by decide +kernel⟩
    · exact ⟨slotted.order, _, _, (Option.some_get (by decide +kernel)).symm, by decide +kernel, (Option.some_get (by decide +kernel)).symm,
        by decide +kernel, by decide +kernel, by decide +kernel⟩

/-! ### Translation and errors -/

/-- The world as the page's leaf has MIG set, with 15 invalidations, and with an invalidation of everything that nothing stands before. -/
def migrating : State := { world with mem := Store.writeNat world.mem (0x28000 + 8 * walkIndex pageVa 0) 8 (pagePa + 0xCF + 2 ^ 55) }
def someInval : Inval := { asid := 1, all := true, vpn := 0, n := 2 ^ 42, done := 64 }
def invalidating (n : Nat) : State := { world with invals := List.replicate n someInval }
def someInv (r : Bool) : InvCmd := ⟨BitVec.ofNat 64 (2 ^ 57 - granule), 2 ^ 42, 4095, 1, r, 64⟩
/-- A load of an 8-byte `.text`, with a data section of 8 bytes that an address is written into, of a file whose class, machine and
revision are the manual's; the same with a file of another class, and with an address that does not fit. -/
def someElf : List Byte := [0x7F, 0x45, 0x4C, 0x46, 2, 1] ++ List.replicate 12 0 ++ natLe 2 0x7A31 ++ List.replicate 28 0 ++ natLe 4 1
def someCode : CodeIn :=
  { asid := 1, base := BitVec.ofNat 57 loadVa, elf := someElf, textAt := BitVec.ofNat 57 (loadVa + 4096), text := natLe 8 0, relocs := [],
    others := [⟨BitVec.ofNat 57 pageVa, natLe 8 0, [⟨1, 0, loadVa, 0⟩]⟩], hints := [(0, 7)] }
def oldElf : CodeIn := { someCode with elf := [] }
def farCode : CodeIn := { someCode with relocs := [⟨3, 0, 2 ^ 40, 0⟩] }
/-- The world with the page's table uncorrectable. -/
def badTable : State := { world with memBad := [0x28000 / 64 + walkIndex pageVa 0 / 8] }

/-- R48 to R50, R352 to R360, R445: walks by the first core and the last of the page that may be read and written, of a page without an
entry and of one whose entry does not read; the last entry of memory; a command that is refused and one that is not, beside none and beside 15; an
invalidation that may complete; a load into the code page and three that are refused; a page that moves. -/
theorem witness_TranslationStepsComplete :
    (2047 < 2048 ∧ ∃ u a e, world.walkNow 1 pageVa = (u, .leaf 0 a e) ∧ e.testBit 55 = false ∧ leafCheck e .write = none) ∧
    (∃ u, world.walkNow 1 0 = (u, .bad 1)) ∧ (∃ u, badTable.walkNow 1 pageVa = (u, .bad 7)) ∧
    ((hbmSize - 8) % 8 = 0 ∧ hbmSize - 8 + 8 ≤ hbmSize) ∧
    invRefused (someInv true) = true ∧ (invRefused (someInv false) = false ∧ world.invals.length < 16 ∧ (invalidating 15).invals.length < 16) ∧
    ((invalidating 15).invals[14]? = some someInval ∧ (invalidating 15).invalDue someInval = true ∧ someInval.done % 8 = 0) ∧
    (∃ l pages ds, applyRelocs someCode.textAt.toNat someCode.text someCode.relocs = some l ∧
      world.loadPages codeLeaf someCode.asid (someCode.text.length / granule + 2) someCode.textAt.toNat someCode.text.length = some pages ∧
      world.sections someCode.asid someCode.others = some ds ∧ elfOk someCode.elf = true ∧ (∀ r ∈ someCode.relocs, textReloc r.typ = true) ∧
      world.codeInUse someCode.asid someCode.textAt.toNat someCode.text.length = false ∧
      (∀ d ∈ someCode.others, world.codeInUse someCode.asid d.at_.toNat d.bytes.length = false)) ∧
    (elfOk oldElf.elf = false ∧ applyRelocs farCode.textAt.toNat farCode.text farCode.relocs = none ∧
      ∃ r ∈ ({ someCode with relocs := [⟨9, 0, 0, 0⟩] } : CodeIn).relocs, textReloc r.typ = false) ∧
    ∃ a e, migrating.walk 1 pageVa = .leaf 0 a e ∧ e.testBit 55 = true ∧ hbmSize / granule - 1 < hbmSize / granule ∧ hbmSize / granule - 1 ≠ entryAddr e / granule := by
  refine ⟨⟨by decide, _, 0x28000 + 8 * walkIndex pageVa 0, pagePa + 0xCF, pair_of (by decide +kernel), by decide +kernel, by decide +kernel⟩,
    ⟨_, pair_of (by decide +kernel)⟩, ⟨_, pair_of (by decide +kernel)⟩, by decide +kernel, by decide +kernel, by decide +kernel, by decide +kernel,
    ⟨_, _, _, (Option.some_get (by decide +kernel)).symm, (Option.some_get (by decide +kernel)).symm, (Option.some_get (by decide +kernel)).symm, by decide +kernel⟩,
    by decide +kernel, 0x28000 + 8 * walkIndex pageVa 0, pagePa + 0xCF + 2 ^ 55, by decide +kernel⟩

/-- An event of an uncorrectable word at `pa`, and the world in which it waits for its record; the world with an uncorrectable word in its
vault window, and with the protection set. -/
def someErr : ErrIn := ⟨hbmSize - 1, 7, 3, 1023, 1, 8, 1, 5⟩
def someRec : ErrRec := { seq := 1, pa := hbmSize - 1, cls := 7, die := 3, idx := 1023, kind := 1, consumer := 8, asid := 1, time := 0 }
def errWaiting : State := { world.event 0 (1 + 256 * 8) (hbmSize - 1) with errWait := [someRec] }
def vaultBad : State := world.setCourse 0 { world.course 0 with vBad := [0] }
def lockedBoot : State := { world with boot := { world.boot with locked := true } }

/-- A vault word is found at its own address, which is past HBM. -/
theorem vault_found (u : State) (c : Course) (h : u.courses = [(0, c)]) (b : c.vBad = [0]) :
    hbmSize ≤ (u.errPlace (.vault 0 0)).1 ∧ u.vaultWordAt (u.errPlace (.vault 0 0)).1 = some (.vault 0 0) := by
  have e : (u.errPlace (.vault 0 0)).1 / 8 * 8 = (u.errPlace (.vault 0 0)).1 := by
    simp only [State.errPlace, State.apertureOf, coreAperture]; omega
  refine ⟨?_, ?_⟩
  · simp only [State.errPlace, State.apertureOf, coreAperture, hbmSize]; omega
  · simp only [State.vaultWordAt, h, b, List.findSome?, List.map, List.find?, e, Nat.mul_zero]
    simp

/-- R361 to R370, R457: the last byte of memory, a vault word and a word of the aperture that is none; an event that waits for no record and one
that does; a hart outside its resources; the last stack, port and lane. -/
theorem witness_ErrorStepsComplete :
    hbmSize - 1 < hbmSize ∧
    (∃ pa, hbmSize ≤ pa ∧ (vaultBad.advanceTime 0).vaultWordAt pa = some (.vault 0 0)) ∧
    (hbmSize ≤ coreAperture ∧ (world.advanceTime 0).vaultWordAt coreAperture = none) ∧
    ((world.advanceTime someErr.now).errPending someErr = none ∧ ∃ r u, (world.advanceTime someErr.now).errNow someErr = (r, u)) ∧
    (errWaiting.advanceTime someErr.now).errPending someErr = some someRec ∧
    (∀ p ∈ [(15, HubRes.secrets), (3, HubRes.secrets)], p.1 < 16 ∧ (lockedBoot.advanceTime 0).boot.locked = true ∧ mayReach (hartMode p.1) p.2 false = false) ∧
    (4 < 16 ∧ mayReach (hartMode 4) .sram true = false) ∧ 15 < 16 ∧ 11 < 12 ∧ 7 < 8 := by
  refine ⟨by decide +kernel, ⟨_, vault_found (vaultBad.advanceTime 0) ((vaultBad.advanceTime 0).course 0) (by decide +kernel) (by decide +kernel)⟩,
    by decide +kernel, ⟨by decide +kernel, _, _, rfl⟩, by decide +kernel, by decide +kernel, by decide +kernel, by decide, by decide, by decide⟩

/-! ### Context commands, the supervisor and power -/

/-- The weft parked with its record published; in a context in a state; with the copy of w7 held under a number; waiting on a barrier since time 0. -/
def published : State :=
  (parkedTo .supervisor none).setWeft 0 { (parkedTo .supervisor none).weft 0 with trec := ((parkedTo .supervisor none).weft 0).trec.map (fun r => { r with published := true }) }
def inState (x : CtxSt) : State := world.setCtx 1 { world.ctx 1 with st := x }
def heldCopy : State := withCopies [(1, { someCopy with held := some 9 })]
def someCmd (arg : Nat) (tag : BitVec 8) (mask : Mask) (value : Dword) : CtxCmd := ⟨0, 0, 0, 1, arg, tag, mask, value, 64⟩

/-- R373 to R377, R386, R495: a parked weft; the last address a PC holds; v1 in both threads, s1 and k7; each state of a context; each field that ARG
names, of the last context; a hold answered either way; a watchdog whose window has just passed. -/
theorem witness_ContextCommandsComplete :
    (∃ w r, (∀ c ∈ [someCmd 1 3 two 7, someCmd 0x81 0 0 7, someCmd 0xC7 0 two 7], Parked published c 0 w r ∧ c.arg < 256 ∧ c.tag.toNat < 64 ∧ tagValid (c.tag.truncate 6) = true ∧ c.mask &&& ~~~w.bits = 0 ∧
      (∃ d, w.cmdReg c.arg = some d ∧ (∀ t ∈ cmdThreads d c.mask, w.fullAt d t = true) ∧ ∃ t l, cmdThreads d c.mask = t :: l)) ∧
      Parked published (someCmd 0 0 0 (BitVec.ofNat 64 (2 ^ 57 - 1))) 0 w r) ∧ (BitVec.ofNat 64 (2 ^ 57 - 1)).toNat < 2 ^ 57 ∧
    (((inState .live).ctx 1).st = .live ∧ ((inState .killed).ctx 1).st = .killed ∧ ((inState .stopping).ctx 1).st = .stopping ∧ ((inState .free).ctx 1).st = .free ∧ (world.ctx 4095).st = .free) ∧
    (∀ arg ∈ [0, 2, 4, 6, 7, 10], 4095 < 4096 ∧ ∃ x, (world.ctx 4095).cmdSet arg 1 world.ltime = some x) ∧
    (∀ arg ∈ [0, 1], (someCmd arg 0 0 9).arg ≤ 1 ∧ (someCmd arg 0 0 9).weft = 0 ∧ (someCmd arg 0 0 9).bolt = 0 ∧ (someCmd arg 0 0 9).course = 0 ∧
      (someCmd arg 0 0 9).tag = 0 ∧ (someCmd arg 0 0 9).mask = 0 ∧ heldCopy.copyHeldAs 1 9 = true) ∧
    (world.advanceTime 2000000000).watchdogDue 1 = true := by
  refine ⟨⟨published.weft 0, (published.weft 0).trec.get (by decide +kernel), ?_, ⟨by decide +kernel, by decide +kernel, by decide +kernel, by decide +kernel⟩⟩,
    by decide, by decide +kernel, ?_, by decide +kernel, by decide +kernel⟩
  · intro c hc
    have h : c = someCmd 1 3 two 7 ∨ c = someCmd 0x81 0 0 7 ∨ c = someCmd 0xC7 0 two 7 := by simpa using hc
    rcases h with rfl | rfl | rfl <;>
      exact ⟨⟨by decide +kernel, by decide +kernel, by decide +kernel, by decide +kernel⟩, by decide +kernel, by decide +kernel, by decide +kernel, by decide +kernel,
        _, (Option.some_get (by decide +kernel)).symm, by decide +kernel, _, _, (List.cons_head_tail (by decide +kernel)).symm⟩
  · intro arg h
    have h : arg = 0 ∨ arg = 2 ∨ arg = 4 ∨ arg = 6 ∨ arg = 7 ∨ arg = 10 := by simpa using h
    rcases h with rfl | rfl | rfl | rfl | rfl | rfl <;> exact ⟨by decide, _, (Option.some_get (by decide +kernel)).symm⟩

/-- The world booted; with one event of a queue for a queue core. -/
def ready8 : State := { world with boot := { world.boot with bootst := 8 } }
def evented : State := { ready8 with evq := [⟨1, 1, 4095, 0⟩] }

/-- R380 to R382, R422 to R426, R448 to R453: a nonce of 64 bytes; the owner's command for kind 4, whose signature the opaque check accepts or not; a junction at 108 °C
from now on and for 1 ms; the caps' ends; the first and the last queue core, with an event to take. -/
theorem witness_SupervisorStepsComplete :
    ((List.replicate 64 (0 : Byte)).length = 64 ∧ ready8.monitorRuns = true) ∧
    (∀ kind ∈ [1, 4], 1 ≤ kind ∧ kind ≤ 4 ∧ fieldAt (natLe 4 kind) 0 4 = kind) ∧
    (∀ h, ((world.advanceTime 1).power.next 0 108 (world.advanceTime 1).ltime).hotSince = some h → (world.advanceTime 1).ltime - h < 1000000) ∧
    (∃ h, (({ world with power := { world.power with hotSince := some 0 } } : State).power.next 0 108 1000000).hotSince = some h ∧ 1000000 ≤ 1000000 - h) ∧
    (1800 ≤ 1800 ∧ 3600 ≤ 3600) ∧
    ∀ hart ∈ [4, 15], isQueueCore hart = true ∧ (evented.qcore hart).retired = false ∧ evented.booted = true ∧
      (∃ e, (evented.setQcore hart { evented.qcore hart with held := none }).evq.find?
        (fun e => !(evented.setQcore hart { evented.qcore hart with held := none }).queueLocked e.sub) = some e) ∧
      ((evented.advanceTime 7).qcore hart).retired = false ∧ (evented.advanceTime 7).booted = true := by
  refine ⟨by decide +kernel, by decide +kernel, ?_, ⟨0, by decide +kernel⟩, by decide, fun hart h => ?_⟩
  · intro h e
    have : ((world.advanceTime 1).power.next 0 108 (world.advanceTime 1).ltime).hotSince = some 1 := by decide +kernel
    rw [this] at e; cases e; decide +kernel
  · have h : hart = 4 ∨ hart = 15 := by simpa using h
    rcases h with rfl | rfl <;>
      exact ⟨by decide, by decide +kernel, by decide +kernel, ⟨_, (Option.some_get (by decide +kernel)).symm⟩, by decide +kernel, by decide +kernel⟩

/-! ### Queues, feeds and packets -/

def HubAns.isOk : HubAns → Bool
  | .ok _ => true
  | _ => false
def HubAns.bytes : HubAns → List Byte
  | .ok l => l
  | _ => []
theorem ok_of {x : State × HubAns} (h : HubAns.isOk x.2 = true) : x = (x.1, .ok (HubAns.bytes x.2)) := by
  obtain ⟨a, l | n | n | -⟩ := x
  · rfl
  · cases h
  · cases h
  · cases h

/-- A slot of a type and trailer bits above it, valid for packet 0. -/
def pkt (typ bits : Nat) (body : List Byte) : List Byte := body ++ List.replicate (252 - body.length) 0 ++ natLe 4 (typ + bits + 2 ^ 24)
/-- The last queue, bound to the last hardware slot with one packet submitted, and after a change; with the packet fetched; with it in its ring only. -/
def someQueue : Queue := { Queue.reset with ring := 0x50000, nslot := 16, asid := 1, en := true, bound := true, hwslot := 63, widx := 1 }
def fetchedPk (d : List Byte) (q : Queue := someQueue) : State :=
  { ready8.setQueue 4095 { q with fetched := [⟨0, 0, d⟩] } with feeds := [(255, { FeedQ.reset with asid := 1, cap := 16, vbase := pageVa })] }
def ringed (d : List Byte) (q : Queue := someQueue) : State := { ready8.setQueue 4095 q with mem := Store.putBytes ready8.mem 0x50000 d }
/-- A packet that has started and goes on; its queue behind it. -/
def someGoing (k : GoKind) (d : List Byte) : Going := { stamp := 0, kind := k, n := 0, data := d, at_ := someQueue.place }
def goingPk (k : GoKind) (d : List Byte) : State := fetchedPk [] { someQueue with ridx := 1, going := [someGoing k d] }
/-- The same with a remote write of the context that has not been answered. -/
def unanswered (k : GoKind) (d : List Byte) : State :=
  { goingPk k d with fab := { (goingPk k d).fab with egress := [{ asid := 1, ridx := 0, count := 1, markers := [], failed := [], used := 0 }] } }

/-- Whether a word test is met at the page, which holds zeros. -/
def testPk (typ bits op value : Nat) (more : List Byte) : List Byte := pkt typ bits (natLe 8 pageVa ++ natLe 8 0xFF ++ natLe 8 value ++ [BitVec.ofNat 8 op] ++ more)
abbrev lateWait : List Byte := testPk 7 0 0 0 (List.replicate 7 0 ++ natLe 4 (2 ^ 32 - 1))

/-- R389 to R412: the last queue, keyed or not, and the last slot; a queue that is quiet, and one that has halted; a queue that does not work; a slot with nothing
submitted, one under a skip, a reserved ORD, the first and the last reserved TYPE, and a NOP; a FEED that fits and one that does not; a WAIT whose test is met or
not, one whose DOMAIN release is not performed, and one that has timed out. -/
theorem witness_QueueStepsComplete :
    (∀ b : Bool, 4095 < 4096 ∧ ((fetchedPk [] { someQueue with keyed := b }).advanceTime 1).booted = true ∧
      (((fetchedPk [] { someQueue with keyed := b }).advanceTime 1).queue 4095).keyed = b) ∧
    (((ready8.setQueue 4095 { someQueue with bound := false }).queue 4095).bound = false ∧ ((ready8.setQueue 4095 { someQueue with bound := false }).queue 4095).setUp = true ∧
      (ready8.setQueue 4095 { someQueue with bound := false }).slotFree 63 = true) ∧
    ({ someQueue with widx := 0 }.bound = true ∧ { someQueue with widx := 0 }.quiet = true) ∧ ({ someQueue with halted := true }.halted = true) ∧
    ({ someQueue with en := false }.works = false) ∧
    (∀ p ∈ [(pkt 0 0 [], 0, 0), (pkt 0 0 [], 1, 0), (pkt 0 0 [], 1, 9), (pkt 0 0x300 [], 1, 0), (pkt 0x0E 0 [], 1, 0), (pkt 0xFF 0 [], 1, 0)], ∃ v u : State,
      v = (if ((ringed p.1 { someQueue with widx := p.2.1, skip := p.2.2 }).queue 4095).bound then
        (ringed p.1 { someQueue with widx := p.2.1, skip := p.2.2 }).retryGoing 4095 (fun k => k = .writing) State.memGo
        else ringed p.1 { someQueue with widx := p.2.1, skip := p.2.2 }) ∧
      (v.queue 4095).works = true ∧ u = (v.refreshSlots 4095 (v.queue 4095).ahead).fetchNext 4095 ∧
      (p.2.1 = 0 → (u.queue 4095).current = none) ∧ (p.2.1 = 1 → (u.queue 4095).current = some p.1) ∧ (u.queue 4095).halted = false ∧
      (u.queue 4095).phase = .idle ∧ (u.queue 4095).skip = p.2.2 ∧ (tOrd p.1 = 3 ∨ tOrd p.1 = 0) ∧ (u.queue 4095).canStart p.1 = true) ∧
    ((((goingPk .feeding (pkt 2 0 [255, 0, 3])).queue 4095).going.filter (fun g => g.kind = .feeding) = [someGoing .feeding (pkt 2 0 [255, 0, 3])]) ∧
      (∃ u t, (goingPk .feeding (pkt 2 0 [255, 0, 3])).goClean 4095 (someGoing .feeding (pkt 2 0 [255, 0, 3])) = (u, true) ∧
        u.feedAll 255 (feedRecords (pkt 2 0 [255, 0, 3])) = some t) ∧
      ∃ u, ({ goingPk .feeding (pkt 2 0 [255, 0, 3]) with feeds := [(255, { FeedQ.reset with asid := 1 })] } : State).goClean 4095
          (someGoing .feeding (pkt 2 0 [255, 0, 3])) = (u, true) ∧ u.feedAll 255 (feedRecords (pkt 2 0 [255, 0, 3])) = none) ∧
    (∀ p ∈ [(0, true), (1, false)], ∃ u v l,
      ((goingPk (.waiting 0) (testPk 7 0 p.1 0 [])).queue 4095).going.filter (fun g => g.kind.waits) = [someGoing (.waiting 0) (testPk 7 0 p.1 0 [])] ∧
      (goingPk (.waiting 0) (testPk 7 0 p.1 0 [])).goClean 4095 (someGoing (.waiting 0) (testPk 7 0 p.1 0 [])) = (u, true) ∧
      u.hubRead (u.queue 4095).asid (fieldAt (testPk 7 0 p.1 0 []) 0 8) 8 = (v, .ok l) ∧
      wordTest (fieldAt (testPk 7 0 p.1 0 []) 24 1) (leNat l) (fieldAt (testPk 7 0 p.1 0 []) 8 8) (fieldAt (testPk 7 0 p.1 0 []) 16 8) = some p.2) ∧
    (∃ u, ((unanswered (.waiting 0) (testPk 7 0x8000 0 0 [])).queue 4095).going.filter (fun g => g.kind.waits) = [someGoing (.waiting 0) (testPk 7 0x8000 0 0 [])] ∧
      (unanswered (.waiting 0) (testPk 7 0x8000 0 0 [])).goClean 4095 (someGoing (.waiting 0) (testPk 7 0x8000 0 0 [])) = (u, false)) ∧
    (∃ u g, u = (goingPk (.waiting 0) lateWait).advanceTime ((2 ^ 32 - 1) * 1000) ∧ (u.queue 4095).going.find? (fun g => g.late u.ltime) = some g) := by
  refine ⟨by decide +kernel, by decide +kernel, by decide +kernel, by decide, by decide, ?_,
    ⟨by decide +kernel, ⟨_, _, pair_of (by decide +kernel), (Option.some_get (by decide +kernel)).symm⟩, _, pair_of (by decide +kernel), by decide +kernel⟩, ?_,
    ⟨_, by decide +kernel, pair_of (by decide +kernel)⟩, ⟨_, _, rfl, (Option.some_get (by decide +kernel)).symm⟩⟩
  · intro p hp
    refine ⟨_, _, rfl, ?_, rfl, ?_⟩
    all_goals
      have h : p = (pkt 0 0 [], 0, 0) ∨ p = (pkt 0 0 [], 1, 0) ∨ p = (pkt 0 0 [], 1, 9) ∨ p = (pkt 0 0x300 [], 1, 0) ∨ p = (pkt 0x0E 0 [], 1, 0) ∨ p = (pkt 0xFF 0 [], 1, 0) := by
        simpa using hp
      rcases h with rfl | rfl | rfl | rfl | rfl | rfl <;> decide +kernel
  · intro p hp
    have h : p = (0, true) ∨ p = (1, false) := by simpa using hp
    rcases h with rfl | rfl <;> exact ⟨_, _, _, by decide +kernel, pair_of (by decide +kernel), ok_of (by decide +kernel), by decide +kernel⟩

/-- The state in which a packet's effect is made. -/
def pkState (s : State) (own : Bool) (d : List Byte) : State :=
  if tRel d = 2 ∧ own = false then ((if tType d = 1 then s else s.takeTurn 4095).domainClean (s.queue 4095).asid).1
  else if tType d = 1 then s else s.takeTurn 4095
def pkOk (s : State) (typ : Nat) (d : List Byte) : Bool :=
  decide ((s.queue 4095).current = some d ∧ (s.queue 4095).works = true ∧ ((s.queue 4095).phase = .idle ∨ (s.queue 4095).phase = .held) ∧ (s.queue 4095).skip = 0 ∧
    tType d = typ ∧ tOrd d < 3 ∧ (s.queue 4095).canStart d = true ∧ s.myTurn 4095 = true ∧ trailerBad d = false ∧
    ((if tType d = 1 then s else s.takeTurn 4095).domainClean (s.queue 4095).asid).2 = true)
theorem packeted_of {s : State} {typ : Nat} {own : Bool} {d : List Byte} (h : pkOk s typ d = true) : Packeted s 4095 typ own (pkState s own d) d := by
  simp only [pkOk, decide_eq_true_eq] at h
  obtain ⟨a, b, c, e, f, g, i, j, k, l⟩ := h
  refine ⟨a, b, c, e, f, g, i, j, k, _, rfl, ?_⟩
  subst f
  unfold pkState
  split
  · exact pair_of l
  · rfl

/-- The packets' slots. -/
def dNop (bits : Nat) : List Byte := pkt 0 bits []
def dDispatch : List Byte := pkt 1 0x8200 (natLe 8 pageVa ++ natLe 4 1 ++ natLe 4 1 ++ natLe 8 0 ++ natLe 8 16 ++ [1] ++ List.replicate 7 0 ++ natLe 8 7 ++ List.replicate 120 0 ++ [1])
def dFeed : List Byte := pkt 2 0 ([255, 0, 3] ++ List.replicate 5 0 ++ List.replicate 192 7)
def dIndirect : List Byte := pkt 3 0 (natLe 8 pageVa ++ natLe 4 65536)
def dPredicate (op : Nat) : List Byte := testPk 4 0 op 0 [255]
def dLoop : List Byte := pkt 5 0 [1, 255]
def dWrite (n : Nat) : List Byte := pkt 6 0x8000 (natLe 8 (pageVa + 32768 - n) ++ natLe 8 9 ++ natLe 1 n)
def dFence : List Byte := pkt 8 0 []
def dSignal : List Byte := pkt 9 0 (natLe 8 pageVa ++ List.replicate 56 3)
def dCopy : List Byte := pkt 10 0 (natLe 8 pageVa ++ natLe 8 (pageVa + 64) ++ natLe 8 128)
def dBind : List Byte := pkt 13 0 (natLe 8 pageVa)
/-- A kernel's descriptor of one weft, at the page. -/
def withKernel (s : State) : State :=
  { s with mem := Store.putBytes s.mem pagePa (natLe 8 loadVa ++ natLe 2 8 ++ natLe 1 64 ++ natLe 1 0 ++ natLe 4 256 ++ natLe 4 0 ++ natLe 2 1 ++ natLe 2 1 ++ natLe 8 pageVa ++ natLe 2 0) }

def PkRes.isDone : PkRes → Bool
  | .done _ => true
  | _ => false
theorem done_of {x : PkRes} (h : PkRes.isDone x = true) : ∃ v, x = .done v := by
  cases x with
  | done s => exact ⟨s, rfl⟩
  | held v => cases h
  | err s c k => cases h
  | wait s => cases h
  | start s k => cases h
def DispRes.isOk : DispRes → Bool
  | .ok _ => true
  | _ => false
theorem dispatch_of {x : State × DispRes} (h : DispRes.isOk x.2 = true) : ∃ v k, x = (v, .ok k) := by
  obtain ⟨a, k | n | n | -⟩ := x
  · exact ⟨a, k, rfl⟩
  · cases h
  · cases h
  · cases h
def feedFits (s : State) (fits : Bool) : Prop :=
  (fits = true → ∃ t, s.feedAll 255 (feedRecords dFeed) = some t) ∧ (fits = false → s.feedAll 255 (feedRecords dFeed) = none)

/-- R391 to R404, R411, R382: each packet at the last queue, with and without a DOMAIN release, under ORD 0 and 2; a DISPATCH of a CORESIDENT span with one argument; a FEED that fits and
one that does not; a level of 65536 packets; each outcome of a test; a LOOP that reaches the ring's end; writes of 4 and of 8 bytes to the page's end, whichever way the free choice of their performance falls; a BIND, whose secret is the opaque
function's (so its last condition is met exactly where that function answers one). -/
theorem witness_PacketsComplete :
    (∀ bits ∈ [0, 0x200, 0x8000, 0x4000], Packeted (fetchedPk (dNop bits)) 4095 0 false (pkState (fetchedPk (dNop bits)) false (dNop bits)) (dNop bits) ∧ zeroAt (dNop bits) 0 252 = true) ∧
    (Packeted (withKernel (fetchedPk dDispatch)) 4095 1 true (pkState (withKernel (fetchedPk dDispatch)) true dDispatch) dDispatch ∧ dispatchBad dDispatch = false ∧
      ∃ v k, (pkState (withKernel (fetchedPk dDispatch)) true dDispatch).dispatchCheck 1 dDispatch = (v, .ok k)) ∧
    (∀ s ∈ [fetchedPk dFeed, { fetchedPk dFeed with feeds := [(255, { FeedQ.reset with asid := 1 })] }], Packeted s 4095 2 false (pkState s false dFeed) dFeed ∧
      ((pkState s false dFeed).feed (fieldAt dFeed 0 2)).asid = (s.queue 4095).asid ∧ feedFits (pkState s false dFeed) (decide (((pkState s false dFeed).feed 255).cap = 16))) ∧
    (fieldAt dFeed 0 2 ≤ 255 ∧ 1 ≤ fieldAt dFeed 2 1 ∧ fieldAt dFeed 2 1 ≤ 3 ∧ zeroAt dFeed 3 8 = true ∧ zeroAt dFeed 200 252 = true) ∧
    (Packeted (fetchedPk dIndirect) 4095 3 false (pkState (fetchedPk dIndirect) false dIndirect) dIndirect ∧ fieldAt dIndirect 0 8 % 256 = 0 ∧ 1 ≤ fieldAt dIndirect 8 4 ∧
      fieldAt dIndirect 8 4 ≤ 65536 ∧ zeroAt dIndirect 12 252 = true ∧ ((fetchedPk dIndirect).queue 4095).depth < 4) ∧
    (∀ p ∈ [(0, true), (1, false), (2, true), (3, false)], Packeted (fetchedPk (dPredicate p.1)) 4095 4 false (pkState (fetchedPk (dPredicate p.1)) false (dPredicate p.1)) (dPredicate p.1) ∧
      fieldAt (dPredicate p.1) 24 1 ≤ 3 ∧ fieldAt (dPredicate p.1) 25 1 ≠ 0 ∧ zeroAt (dPredicate p.1) 26 252 = true ∧
      ∃ v l, (pkState (fetchedPk (dPredicate p.1)) false (dPredicate p.1)).hubRead 1 (fieldAt (dPredicate p.1) 0 8) 8 = (v, .ok l) ∧
        wordTest (fieldAt (dPredicate p.1) 24 1) (leNat l) (fieldAt (dPredicate p.1) 8 8) (fieldAt (dPredicate p.1) 16 8) = some p.2) ∧
    (Packeted (fetchedPk dLoop { someQueue with widx := 2 }) 4095 5 false (pkState (fetchedPk dLoop { someQueue with widx := 2 }) false dLoop) dLoop ∧ fieldAt dLoop 0 1 ≠ 0 ∧
      fieldAt dLoop 1 1 ≠ 0 ∧ zeroAt dLoop 2 252 = true ∧ someQueue.loopn = 0 ∧ { someQueue with widx := 2 }.pos + 1 + fieldAt dLoop 0 1 ≤ { someQueue with widx := 2 }.limit) ∧
    (∀ n ∈ [4, 8], Packeted (fetchedPk (dWrite n)) 4095 6 false (pkState (fetchedPk (dWrite n)) false (dWrite n)) (dWrite n) ∧ fieldAt (dWrite n) 16 1 = n ∧
      fieldAt (dWrite n) 0 8 % fieldAt (dWrite n) 16 1 = 0 ∧ zeroAt (dWrite n) 17 252 = true ∧
      ∃ v b w l, (pkState (fetchedPk (dWrite n)) false (dWrite n)).choose = (v, b) ∧
        v.hubWrite 1 (fieldAt (dWrite n) 0 8) (((dWrite n).drop 8).take (fieldAt (dWrite n) 16 1)) = (w, .ok l)) ∧
    (∀ p ∈ [(0, true), (1, false)], Packeted ((fetchedPk (testPk 7 0 p.1 0 [])).advanceTime 5) 4095 7 false (pkState ((fetchedPk (testPk 7 0 p.1 0 [])).advanceTime 5) false (testPk 7 0 p.1 0 []))
      (testPk 7 0 p.1 0 []) ∧ zeroAt (testPk 7 0 p.1 0 []) 25 32 = true ∧ zeroAt (testPk 7 0 p.1 0 []) 36 252 = true ∧
      ∃ v l, (pkState ((fetchedPk (testPk 7 0 p.1 0 [])).advanceTime 5) false (testPk 7 0 p.1 0 [])).hubRead 1 (fieldAt (testPk 7 0 p.1 0 []) 0 8) 8 = (v, .ok l) ∧
        wordTest (fieldAt (testPk 7 0 p.1 0 []) 24 1) (leNat l) (fieldAt (testPk 7 0 p.1 0 []) 8 8) (fieldAt (testPk 7 0 p.1 0 []) 16 8) = some p.2) ∧
    (Packeted (fetchedPk dFence) 4095 8 false (pkState (fetchedPk dFence) false dFence) dFence ∧ zeroAt dFence 0 252 = true) ∧
    (Packeted (fetchedPk dSignal) 4095 9 false (pkState (fetchedPk dSignal) false dSignal) dSignal ∧ fieldAt dSignal 0 8 % 64 = 0 ∧ zeroAt dSignal 64 252 = true ∧
      ∃ v b w l, (pkState (fetchedPk dSignal) false dSignal).choose = (v, b) ∧
        v.hubWrite 1 (fieldAt dSignal 0 8) ((dSignal.drop 8).take 56 ++ natLe 8 ((pkState (fetchedPk dSignal) false dSignal).queue 4095).pos) = (w, .ok l)) ∧
    (Packeted (fetchedPk dCopy) 4095 10 false (pkState (fetchedPk dCopy) false dCopy) dCopy ∧ fieldAt dCopy 0 8 % 64 = 0 ∧ fieldAt dCopy 8 8 % 64 = 0 ∧ fieldAt dCopy 16 8 % 64 = 0 ∧
      zeroAt dCopy 24 252 = true ∧ ∃ v b w, (pkState (fetchedPk dCopy) false dCopy).choose = (v, b) ∧
        v.moveLines 1 (fieldAt dCopy 16 8 / 64) (fieldAt dCopy 0 8) (fieldAt dCopy 8 8) = .done w) ∧
    (Packeted (fetchedPk dBind) 4095 13 false (pkState (fetchedPk dBind) false dBind) dBind ∧ zeroAt dBind 8 252 = true ∧
      ∃ v l, (pkState (fetchedPk dBind) false dBind).hubRead 1 (fieldAt dBind 0 8) 1600 = (v, .ok l)) := by
  have copied : ∃ v b w, (pkState (fetchedPk dCopy) false dCopy).choose = (v, b) ∧
      v.moveLines 1 (fieldAt dCopy 16 8 / 64) (fieldAt dCopy 0 8) (fieldAt dCopy 8 8) = .done w := by
    obtain ⟨w, h⟩ := done_of (x := (pkState (fetchedPk dCopy) false dCopy).choose.1.moveLines 1 (fieldAt dCopy 16 8 / 64) (fieldAt dCopy 0 8) (fieldAt dCopy 8 8))
      (by decide +kernel)
    exact ⟨_, _, w, rfl, h⟩
  refine ⟨?_, ⟨packeted_of (by decide +kernel), by decide +kernel, dispatch_of (by decide +kernel)⟩, ?_, by decide +kernel, ⟨packeted_of (by decide +kernel), by decide +kernel⟩, ?_,
    ⟨packeted_of (by decide +kernel), by decide +kernel⟩, ?_, ?_, ⟨packeted_of (by decide +kernel), by decide +kernel⟩,
    ⟨packeted_of (by decide +kernel), by decide +kernel, by decide +kernel, _, _, _, _, rfl, ok_of (by decide +kernel)⟩,
    ⟨packeted_of (by decide +kernel), by decide +kernel, by decide +kernel, by decide +kernel, by decide +kernel, copied⟩,
    ⟨packeted_of (by decide +kernel), by decide +kernel, _, _, ok_of (by decide +kernel)⟩⟩
  · intro b hb
    have h : b = 0 ∨ b = 0x200 ∨ b = 0x8000 ∨ b = 0x4000 := by simpa using hb
    rcases h with rfl | rfl | rfl | rfl <;> exact ⟨packeted_of (by decide +kernel), by decide +kernel⟩
  · intro s hs
    have h : s = fetchedPk dFeed ∨ s = { fetchedPk dFeed with feeds := [(255, { FeedQ.reset with asid := 1 })] } := by simpa using hs
    rcases h with rfl | rfl
    · exact ⟨packeted_of (by decide +kernel), by decide +kernel, fun _ => ⟨_, (Option.some_get (by decide +kernel)).symm⟩, by decide +kernel⟩
    · exact ⟨packeted_of (by decide +kernel), by decide +kernel, fun h => absurd h (by decide +kernel), by decide +kernel⟩
  · intro p hp
    have h : p = (0, true) ∨ p = (1, false) ∨ p = (2, true) ∨ p = (3, false) := by simpa using hp
    rcases h with rfl | rfl | rfl | rfl <;>
      exact ⟨packeted_of (by decide +kernel), by decide +kernel, by decide +kernel, by decide +kernel, _, _, ok_of (by decide +kernel), by decide +kernel⟩
  · intro n hn
    have h : n = 4 ∨ n = 8 := by simpa using hn
    rcases h with rfl | rfl <;>
      exact ⟨packeted_of (by decide +kernel), by decide +kernel, by decide +kernel, by decide +kernel, _, _, _, _, rfl, ok_of (by decide +kernel)⟩
  · intro p hp
    have h : p = (0, true) ∨ p = (1, false) := by simpa using hp
    rcases h with rfl | rfl <;>
      exact ⟨packeted_of (by decide +kernel), by decide +kernel, by decide +kernel, _, _, ok_of (by decide +kernel), by decide +kernel⟩

/-! ### Spans and images -/

/-- The world before its span's one course is placed, plain or CORESIDENT; with the course displaced; with its weft ended; with the span completed and a
release kind. -/
def unplaced (flags : Dword) : State :=
  { world with wefts := [], bolts := [], courses := [], spans := [(0, { world.span 0 with placed := 0, flags := BitVec.ofNat _ flags.toNat })] }
def displacedCourse (flags : Dword) : State :=
  let u := (world.spanOff 0).setSpan 0 { world.span 0 with flags := BitVec.ofNat _ flags.toNat }
  u.setCourse 0 { u.course 0 with cluster := 8 }
def overSpan : State := world.setWeft 0 { someWeft with status := .ended, slot := none }
def completedSpan (rel : Nat) : State :=
  overSpan.setSpan 0 { world.span 0 with completed := some 1, released := true, compl := pageVa, rel := rel }

def sumRight {β γ : Type} (d : γ) : β ⊕ γ → γ
  | .inr x => x
  | .inl _ => d

/-- R404 to R408, R425: core 0 and the cluster's last core for a plain and a CORESIDENT span, a displaced course back, a span of which nothing is left, and a completed
one without and with a release at DOMAIN. -/
theorem witness_SpanStepsComplete :
    (∀ flags ∈ [(0 : Dword), 1], ∀ n ∈ [0, 255], ((unplaced flags).span 0).completed = none ∧ ((unplaced flags).span 0).ending = .running ∧
      ((unplaced flags).span 0).capture = none ∧ (unplaced flags).startsNow 0 = true ∧ [n].headD 0 / 256 = 0 ∧
      (unplaced flags).homeless 0 = [] ∧ ((unplaced flags).span 0).placed < ((unplaced flags).span 0).courses ∧ (unplaced flags).spanIsOff 0 = false ∧
      (if ((unplaced flags).span 0).coresident then ((unplaced flags).span 0).courses - ((unplaced flags).span 0).placed else 1) * ((unplaced flags).span 0).kernel.bolts ≤ [n].length ∧
      ∃ t, (unplaced flags).launchAll 0 (if ((unplaced flags).span 0).coresident then ((unplaced flags).span 0).courses - ((unplaced flags).span 0).placed else 1) [n] = some t) ∧
    (∀ flags ∈ [(0 : Dword), 1], ((displacedCourse flags).span 0).completed = none ∧ ((displacedCourse flags).span 0).ending = .running ∧ ((displacedCourse flags).span 0).capture = none ∧
      [0].headD 0 / 256 = 0 ∧ (displacedCourse flags).homeless 0 = [0] ∧
      ∃ t, (displacedCourse flags).replantAll 0 (if ((displacedCourse flags).span 0).coresident then [0] else [0]) [0] = some t) ∧
    overSpan.spanOver 0 = true ∧
    (∀ rel ∈ [0, 2], ((completedSpan rel).span 0).completed = some 1 ∧ ((completedSpan rel).span 0).released = true ∧ ((completedSpan rel).span 0).recorded = false ∧
      ∃ u t, (if ((completedSpan rel).span 0).rel % 4 = 2 then (completedSpan rel).domainClean ((completedSpan rel).span 0).asid = (u, true) else u = completedSpan rel) ∧
        u.putRecord ((completedSpan rel).span 0).qid ((completedSpan rel).span 0).asid ((completedSpan rel).span 0).compl ((completedSpan rel).span 0).ending.status
          ((completedSpan rel).span 0).ending.originBit ((completedSpan rel).span 0).ending.code 1 = .inl t) := by
  refine ⟨?_, ?_, by decide +kernel, ?_⟩
  · intro flags hf n hn
    have hf : flags = 0 ∨ flags = 1 := by simpa using hf
    have hn : n = 0 ∨ n = 255 := by simpa using hn
    rcases hf with rfl | rfl <;> rcases hn with rfl | rfl <;>
      exact ⟨by decide +kernel, by decide +kernel, by decide +kernel, by decide +kernel, by decide, by decide +kernel, by decide +kernel, by decide +kernel, by decide +kernel,
        _, (Option.some_get (by decide +kernel)).symm⟩
  · intro flags hf
    have hf : flags = 0 ∨ flags = 1 := by simpa using hf
    rcases hf with rfl | rfl <;>
      exact ⟨by decide +kernel, by decide +kernel, by decide +kernel, by decide, by decide +kernel, _, (Option.some_get (by decide +kernel)).symm⟩
  · intro rel hr
    have hr : rel = 0 ∨ rel = 2 := by simpa using hr
    rcases hr with rfl | rfl
    · exact ⟨by decide +kernel, by decide +kernel, by decide +kernel, completedSpan 0, _, by rw [if_neg (by decide +kernel)], left_of world (by decide +kernel)⟩
    · exact ⟨by decide +kernel, by decide +kernel, by decide +kernel, ((completedSpan 2).domainClean ((completedSpan 2).span 0).asid).1, _,
        by rw [if_pos (by decide +kernel)]; exact pair_of (by decide +kernel), left_of world (by decide +kernel)⟩

/-- The queue's PREEMPT of a mode, and its CHECKPOINT, of a span of the queue: fetched, the span's image at the page. -/
abbrev dPreempt (md : Nat) : List Byte := pkt 0x0C 0 (natLe 8 0 ++ [BitVec.ofNat 8 md] ++ List.replicate 7 0 ++ natLe 8 pageVa)
abbrev dCheckpoint : List Byte := pkt 0x0B 0 (natLe 8 0 ++ natLe 8 pageVa)
def spanned (d : List Byte) : State := (fetchedPk d).setSpan 0 { world.span 0 with qid := 4095 }
def someCapture (md : Nat) : CaptureReq := { mode := md, qid := 4095, addr := pageVa, tiers := [], seeking := true, deadline := 0 }
/-- The span sought for a capture, its weft parked with its record published. -/
def sought (md : Nat) : State := published.setSpan 0 { world.span 0 with qid := 4095, capture := some (someCapture md) }
/-- A checkpoint with one piece of its image left, and with none; a page pulled since time 0. -/
def draining (left : List Nat) : State :=
  { world with ckpts := [{ qid := 4095, span := 0, image := [1], frames := [], imgLeft := left, sent := [], tiers := [] }] }
def pulling : State := { world with pulls := [{ asid := 1, va := pageVa, tag := 3, since := 0, got := [], dead := false }] }
def Xlat.isOk : Xlat → Bool
  | .ok _ => true
  | _ => false
def Xlat.pa : Xlat → Nat
  | .ok n => n
  | _ => 0
theorem pa_of {x : State × Xlat} (h : Xlat.isOk x.2 = true) : x = (x.1, .ok (Xlat.pa x.2)) := by
  obtain ⟨a, n | ⟨c, i⟩ | -⟩ := x
  · rfl
  · cases h
  · cases h

/-- Lines of a range that nothing waits on and that are sound read. -/
theorem homeRead_plain {u : State} (pa n a b : Nat) (c : u.cores = []) (d : u.l2Bad = []) (e : u.memBad = []) (f : u.lostStacks = []) (g : u.deadDies = [])
    (m : (linesOf pa n).all (fun l => decide (l * 64 < hbmSize)) = true) : u.homeRead pa n a b = (u, some (Store.bytes u.mem pa n)) := by
  have fixed : ∀ (l : List Nat) (h : State → Nat → State), (∀ i, h u i = u) → l.foldl h u = u := fun l h q => by
    induction l with
    | nil => rfl
    | cons x l ih => rw [List.foldl_cons, q, ih]
  have r : u.recallRange pa n = u := fixed _ _ (fun i => by simp [State.recall, State.redsOf, c, sortBy])
  unfold State.homeRead
  rw [r, fixed _ _ (fun i => by simp [State.mendL2, d])]
  have none : (linesOf pa n).find? (fun l => u.lineBad (l * 64)) = .none := by
    simp only [List.find?_eq_none]
    intro l hl
    have := List.all_eq_true.1 m l hl
    have := of_decide_eq_true this
    simp only [State.lineBad, State.lineLost, e, f, g, List.contains_nil, List.any_nil, Bool.false_or, decide_eq_true_eq]
    omega
  simp only [none]

/-! An image of one span with no course yet, at the page, beside a DIGEST that the opaque function of its bytes gives. -/
def imgTail : List Byte :=
  pad64 (natLe 2 1 ++ natLe 2 0 ++ natLe 4 1 ++ natLe 8 192) ++
    pad64 (cImgSpan.put ⟨0, 0, 0, 0, 1, 0, 0, 0, [], 0, 0, [], { Kernel.absent with wefts := 1, bolts := 1 }, 0, 0⟩)
abbrev imgLen : Nat := 384
def imgSum : List Byte := (Config.sha3 imgTail ++ List.replicate 64 0).take 64
def imgHead : List Byte := natLe 4 imgMAGIC ++ natLe 2 1 ++ natLe 2 0 ++ natLe 8 imgLen ++ natLe 4 1 ++ natLe 4 1 ++ List.replicate 24 0
def imgByte (j : Nat) : Byte :=
  if j < 48 then imgHead.getD j 0 else if j < 112 then imgSum.getD (j - 48) 0 else if j < 128 then 0 else imgTail.getD (j - 128) 0
def imaged : State := { spanned (dPreempt 3) with mem := world.mem ++ (List.range' 0 imgLen).map (fun j => (pagePa + j, imgByte j)) }

theorem find_past {α : Type} {l m : Store α} {n : Nat} (h : l.all (fun p => decide (p.1 ≠ n)) = true) : Store.find (l ++ m) n = Store.find m n := by
  induction l with
  | nil => rfl
  | cons p l ih =>
    simp only [List.all_cons, Bool.and_eq_true, decide_eq_true_eq] at h
    simp only [List.cons_append, Store.find, if_neg h.1]
    exact ih h.2
theorem find_cells {α : Type} (f : Nat → α) (pa : Nat) : ∀ n a i, a ≤ i → i < a + n → Store.find ((List.range' a n).map (fun j => (pa + j, f j))) (pa + i) = some (f i) := by
  intro n
  induction n with
  | zero => intro a i h g; omega
  | succ n ih =>
    intro a i h g
    simp only [List.range'_succ, List.map_cons, Store.find]
    by_cases e : a = i
    · rw [e, if_pos rfl]
    · rw [if_neg (by omega)]
      exact ih (a + 1) i (by omega) (by omega)
theorem bytes_cells (m : Store Byte) (f : Nat → Byte) (pa : Nat) : ∀ n a, (∀ i, a ≤ i → i < a + n → Store.get 0 m (pa + i) = f i) →
    Store.bytes m (pa + a) n = (List.range' a n).map f := by
  intro n
  induction n with
  | zero => intro a h; rfl
  | succ n ih =>
    intro a h
    simp only [List.range'_succ, List.map_cons, Store.bytes]
    rw [h a (by omega) (by omega), Nat.add_assoc, ih (a + 1) (fun i x y => h i (by omega) (by omega))]
theorem imaged_bytes : Store.bytes imaged.mem pagePa imgLen = (List.range' 0 imgLen).map imgByte := by
  refine bytes_cells imaged.mem imgByte pagePa imgLen 0 (fun i _ h => ?_)
  have e : world.mem.all (fun p => decide (p.1 < pagePa)) = true := by decide +kernel
  have n : world.mem.all (fun p => decide (p.1 ≠ pagePa + i)) = true := List.all_eq_true.2 (fun p hp => by
    have := of_decide_eq_true (List.all_eq_true.1 e p hp)
    exact decide_eq_true (by omega))
  show (Store.find (world.mem ++ _) (pagePa + i)).getD 0 = _
  rw [find_past n, find_cells imgByte pagePa imgLen 0 i (by omega) h]
  rfl
theorem imaged_sum : ((Store.bytes imaged.mem pagePa imgLen).drop 48).take 64 =
    (Config.sha3 ((Store.bytes imaged.mem pagePa imgLen).drop 128) ++ List.replicate 64 0).take 64 := by
  have e : ((List.range' 0 imgLen).map imgByte).drop 128 = imgTail := by decide +kernel
  rw [imaged_bytes, e]
  show _ = imgSum
  have l : imgSum.length = 64 := by simp [imgSum]
  apply List.ext_getElem
  · simp [l, imgLen]
  · intro i h g
    simp only [l] at g
    simp only [List.getElem_take, List.getElem_drop, List.getElem_map, List.getElem_range']
    have a : ¬ 0 + 1 * (48 + i) < 48 := by omega
    have b : 0 + 1 * (48 + i) < 112 := by omega
    simp only [imgByte, if_neg a, if_pos b]
    rw [show 0 + 1 * (48 + i) - 48 = i by omega, List.getD_eq_getElem _ _ (by omega)]
theorem imaged_ok : imageOk (Store.bytes imaged.mem pagePa imgLen) = true := by
  unfold imageOk
  rw [decide_eq_true imaged_sum]
  decide +kernel



/-- A hub translation for a read through a leaf whose A is set leaves memory as it was. -/
theorem hubTranslate_mem {u : State} {asid va : Nat} (h : ∀ l a e, (u.walkNow asid va).2 = .leaf l a e → usedLeaf e .read = e)
    (g : Xlat.isOk (u.hubTranslate asid va .read).2 = true) : (u.hubTranslate asid va .read).1.mem = u.mem := by
  have c : (u.walkNow asid va).1.mem = u.mem := by
    unfold State.walkNow
    split
    · rfl
    · rfl
  unfold State.hubTranslate State.useWalk at *
  split at g
  · cases g
  · rename_i q
    simp only [if_neg q]
    cases e : u.walkNow asid va with
    | mk t w =>
      rw [e] at c h
      simp only [e] at g ⊢
      cases w with
      | bad i => cases g
      | leaf l a x =>
        have y := h l a x rfl
        by_cases m : x.testBit 55 = true
        · simp only [m, if_true] at g; cases g
        · simp only [m] at g ⊢
          cases r : leafCheck x .read with
          | some p => simp only [r] at g; cases g
          | none =>
            simp only [r, y, if_true] at g ⊢
            exact c


/-- A hub read within the first lines of the page. -/
theorem hubRead_page {u : State} {n pa : Nat} (p : 0 < n) (q : n ≤ 4096) (h : (u.hubTranslate 1 pageVa .read).2 = .ok pa)
    (c : (u.hubTranslate 1 pageVa .read).1.cores = [] ∧ (u.hubTranslate 1 pageVa .read).1.l2Bad = [] ∧ (u.hubTranslate 1 pageVa .read).1.memBad = [] ∧
      (u.hubTranslate 1 pageVa .read).1.lostStacks = [] ∧ (u.hubTranslate 1 pageVa .read).1.deadDies = [])
    (m : (linesOf pa n).all (fun l => decide (l * 64 < hbmSize)) = true) :
    u.hubRead 1 pageVa n = ((u.hubTranslate 1 pageVa .read).1, .ok (Store.bytes (u.hubTranslate 1 pageVa .read).1.mem pa n)) := by
  obtain ⟨a, b, c, d, e⟩ := c
  have f : n / granule + 2 = 1 + 1 := by simp only [granule]; omega
  have g : min n (granule - pageVa % granule) = n := by simp only [granule, pageVa]; omega
  unfold State.hubRead
  rw [f, State.hubReadGo, if_neg (by omega)]
  simp only [g, Nat.sub_self]
  rw [pair_of h]
  simp only [homeRead_plain pa n 8 1 a b c d e m]
  rw [State.hubReadGo, if_pos rfl]
  simp only [List.append_nil]

theorem takeTurn_mem (s : State) (q : Nat) : (s.takeTurn q).mem = s.mem := rfl
/-- The state in which the image is read, after the header's read, and after the whole. -/
def imaged1 : State := pkState imaged false (dPreempt 3)
def imaged2 : State := (imaged1.hubTranslate 1 pageVa .read).1
def imaged3 : State := (imaged2.hubTranslate 1 pageVa .read).1
theorem imaged1_mem : imaged1.mem = imaged.mem := by
  unfold imaged1 pkState
  rw [if_neg (by decide +kernel), if_neg (by decide +kernel)]
  exact takeTurn_mem _ _
def usedAll (u : State) : Bool :=
  match (u.walkNow 1 pageVa).2 with
  | .leaf _ _ e => decide (usedLeaf e .read = e)
  | .bad _ => true
theorem used_of {u : State} (h : usedAll u = true) : ∀ l a e, (u.walkNow 1 pageVa).2 = .leaf l a e → usedLeaf e .read = e := fun l a e q => by
  simp only [usedAll, q, decide_eq_true_eq] at h
  exact h
theorem imaged2_mem : imaged2.mem = imaged.mem := by
  have h := hubTranslate_mem (u := imaged1) (used_of (by decide +kernel)) (by decide +kernel)
  unfold imaged2
  exact h.trans imaged1_mem
theorem imaged3_mem : imaged3.mem = imaged.mem := by
  have h := hubTranslate_mem (u := imaged2) (used_of (by decide +kernel)) (by decide +kernel)
  unfold imaged3
  exact h.trans imaged2_mem
theorem imaged_head : imaged1.hubRead 1 pageVa 128 = (imaged2, .ok (Store.bytes imaged.mem pagePa 128)) := by
  have h := hubRead_page (u := imaged1) (n := 128) (pa := pagePa) (by decide) (by decide) (by decide +kernel) (by decide +kernel) (by decide +kernel)
  rw [show (imaged1.hubTranslate 1 pageVa .read).1 = imaged2 from rfl, imaged2_mem] at h
  exact h
theorem imaged_whole : imaged2.hubRead 1 pageVa imgLen = (imaged3, .ok (Store.bytes imaged.mem pagePa imgLen)) := by
  have h := hubRead_page (u := imaged2) (n := imgLen) (pa := pagePa) (by decide) (by decide) (by decide +kernel) (by decide +kernel) (by decide +kernel)
  rw [show (imaged2.hubTranslate 1 pageVa .read).1 = imaged3 from rfl, imaged3_mem] at h
  exact h
theorem imaged_image : ∃ x, readImage (Store.bytes imaged.mem pagePa imgLen) = some x ∧ imaged3.restoreCheck 1 x = 0 ∧ imaged3.slotsReady 1 x = true := by
  have h : (readImage (Store.bytes imaged.mem pagePa imgLen)).any (fun x => decide (imaged3.restoreCheck 1 x = 0) && imaged3.slotsReady 1 x) = true := by
    unfold readImage
    rw [imaged_ok]
    decide +kernel
  obtain ⟨x, e, f⟩ := (Option.any_eq_true _ _).1 h
  simp only [Bool.and_eq_true, decide_eq_true_eq] at f
  exact ⟨x, e, f⟩

/-- R427 to R435, R439, R440, R443: each mode of PREEMPT with a shortest and a longest deferral; a RESTORE of an image whose DIGEST is the function's; a CHECKPOINT; a capture of each mode; a piece left, none left; a page pulled for a second. -/
theorem witness_ImageStepsComplete :
    (∃ u sp, Packeted (spanned (dPreempt 0)) 4095 0x0C false u (dPreempt 0) ∧ fieldAt (dPreempt 0) 8 1 % 4 = 0 ∧ preemptBad (dPreempt 0) = false ∧
      u.spanRef 4095 (fieldAt (dPreempt 0) 0 8) = some sp) ∧
    (∀ md ∈ [1, 2, 253, 254], ∃ u sp, Packeted ((spanned (dPreempt md)).advanceTime 5) 4095 0x0C false u (dPreempt md) ∧ preemptBad (dPreempt md) = false ∧
      u.spanRef 4095 (fieldAt (dPreempt md) 0 8) = some sp ∧ (u.span sp).capture = none ∧ (fieldAt (dPreempt md) 8 1 % 4 = 1 ∨ fieldAt (dPreempt md) 8 1 % 4 = 2)) ∧
    (∃ u v l w r x, Packeted imaged 4095 0x0C false u (dPreempt 3) ∧ fieldAt (dPreempt 3) 8 1 % 4 = 3 ∧ preemptBad (dPreempt 3) = false ∧
      fieldAt (dPreempt 3) 0 8 = 0 ∧ u.hubRead (imaged.queue 4095).asid (fieldAt (dPreempt 3) 16 8) 128 = (v, .ok l) ∧ headOk l = true ∧
      v.hubRead (imaged.queue 4095).asid (fieldAt (dPreempt 3) 16 8) (fieldAt l 8 8) = (w, .ok r) ∧ readImage r = some x ∧
      w.restoreCheck (imaged.queue 4095).asid x = 0 ∧ w.slotsReady (imaged.queue 4095).asid x = true) ∧
    (∃ u sp v l, Packeted ((spanned dCheckpoint).advanceTime 5) 4095 0x0B false u dCheckpoint ∧ zeroAt dCheckpoint 16 252 = true ∧
      u.spanRef 4095 (fieldAt dCheckpoint 0 8) = some sp ∧ u.hubRead (((spanned dCheckpoint).advanceTime 5).queue 4095).asid (fieldAt dCheckpoint 8 8) 64 = (v, .ok l) ∧
      fieldAt l 0 8 = 0 ∧ (v.span sp).capture = none) ∧
    (∀ md ∈ [1, 2, 3], ∃ u v, ((sought md).span 0).capture = some (someCapture md) ∧ (someCapture md).seeking = true ∧ (sought md).captureReady 0 = true ∧
      (sought md).domainClean ((sought md).span 0).asid = (u, true) ∧
      v = (u.pendFailures ((sought md).span 0).asid ((u.spanWefts 0).map (·.1))).quiesce 0 ∧ v.spanReadable 0 = true ∧ (someCapture md).mode = md ∧ v.ctxBusy 0 = false) ∧
    (∃ c u tags, (draining [0]).ckpts[0]? = some c ∧ c.imgLeft = [0] ∧ (draining [0]).sendPiece c 0 ((c.image.drop (granule * 0)).take granule) = (u, tags)) ∧
    (∃ c, (draining []).ckpts[0]? = some c ∧ c.imgLeft = [] ∧ c.frames = []) ∧
    (∃ u p, u = pulling.advanceTime 1000000000 ∧ u.pulls[0]? = some p ∧ 1000000000 ≤ u.ltime - p.since) := by
  have restore : ∃ u v l w r x, Packeted imaged 4095 0x0C false u (dPreempt 3) ∧ fieldAt (dPreempt 3) 8 1 % 4 = 3 ∧ preemptBad (dPreempt 3) = false ∧
      fieldAt (dPreempt 3) 0 8 = 0 ∧ u.hubRead (imaged.queue 4095).asid (fieldAt (dPreempt 3) 16 8) 128 = (v, .ok l) ∧ headOk l = true ∧
      v.hubRead (imaged.queue 4095).asid (fieldAt (dPreempt 3) 16 8) (fieldAt l 8 8) = (w, .ok r) ∧ readImage r = some x ∧
      w.restoreCheck (imaged.queue 4095).asid x = 0 ∧ w.slotsReady (imaged.queue 4095).asid x = true := by
    obtain ⟨x, h1, h2, h3⟩ := imaged_image
    have a : (imaged.queue 4095).asid = 1 := by decide +kernel
    have b : fieldAt (dPreempt 3) 16 8 = pageVa := by decide +kernel
    have c : fieldAt (Store.bytes imaged.mem pagePa 128) 8 8 = imgLen := by decide +kernel
    rw [a, b]
    refine ⟨imaged1, imaged2, _, imaged3, _, x, packeted_of (by decide +kernel), by decide +kernel, by decide +kernel, by decide +kernel, imaged_head, by decide +kernel, ?_, h1, h2, h3⟩
    rw [c]
    exact imaged_whole
  refine ⟨⟨_, _, packeted_of (by decide +kernel), by decide +kernel, by decide +kernel, (Option.some_get (by decide +kernel)).symm⟩, ?_,
    restore,
    ⟨_, _, _, _, packeted_of (by decide +kernel), by decide +kernel, (Option.some_get (by decide +kernel)).symm, ok_of (by decide +kernel), by decide +kernel, by decide +kernel⟩, ?_,
    ⟨_, _, _, rfl, rfl, rfl⟩, ⟨_, rfl, rfl, rfl⟩, ⟨_, _, rfl, rfl, by decide +kernel⟩⟩
  · intro md h
    have h : md = 1 ∨ md = 2 ∨ md = 253 ∨ md = 254 := by simpa using h
    rcases h with rfl | rfl | rfl | rfl <;>
      exact ⟨_, _, packeted_of (by decide +kernel), by decide +kernel, (Option.some_get (by decide +kernel)).symm, by decide +kernel, by decide +kernel⟩
  · intro md h
    have h : md = 1 ∨ md = 2 ∨ md = 3 := by simpa using h
    rcases h with rfl | rfl | rfl <;>
      exact ⟨_, _, by decide +kernel, by decide +kernel, by decide +kernel, pair_of (by decide +kernel), rfl, by decide +kernel, by decide +kernel, by decide +kernel⟩

/-! ### Links, packets and gateways -/

/-- The world with port 11 up, in a fabric of extents 2 whose port 0 is up too; with packets that have arrived, and a domain of context 1. -/
def linked : State :=
  (({ ready8 with fab := { world.fab with cfg := 0x8000000001111110#64 ||| 0x8000000111000000#64, domains := [(0, ⟨7, 1, 0, 1, true, false, 0, 0⟩)] } }).setPort 11 { Port.reset with up := true }).setPort 0
    { Port.reset with up := true }
def inboxed (l : List Packet) (u : State := linked) : State := { u with fab := { u.fab with inbox := l } }
/-- A flit with its CRC right, or wrong. -/
def rawFlit (idle : Bool) (seq : BitVec 16) : Flit :=
  { content := [], crc := 0, seq := seq, ackseq := 0, stop := 0, vc := 0, idle := idle, nak := false, lpar := 0 }
def wholeFlit (idle : Bool) (seq : BitVec 16) : Flit := { rawFlit idle seq with crc := Config.crc64 (flitCrcBytes (rawFlit idle seq)) }
def brokenFlit : Flit := { rawFlit false 0 with crc := Config.crc64 (flitCrcBytes (rawFlit false 0)) + 1 }
/-- A packet of a type, of domain 7, that has one hop to go by port 0. -/
def somePacket (typ : BitVec 8) (addr len : Nat) (payload : List Byte) : Packet :=
  { fwd := 16, ret := BitVec.ofNat 128 (2 ^ 83 + 16), seg := 0, cls := false, last := 7, hleft := 1, typ := typ, ordered := false, domid := 7,
    srcpos := 1, dstpos := 0, addr := BitVec.ofNat 64 addr, len := len, ridx := 1, tag := 0x80000009, payload := payload, aborts := [] }
def outPacket : State := { linked with fab := { linked.fab with out := [somePacket tWRITE 0 1 [0]] } }
/-- A request of this device under way. -/
def someReq (typ : BitVec 8) (gw : Bool) (fid : Option Nat) : Req :=
  { tag := 0x80000009, asid := 1, ridx := 1, weft := 0, fid := fid, thr := 0, addr := 0, len := 8, sent := 0, gw := gw, typ := typ, data := [] }
def asked (q : Req) (u : State := linked) : State := { u with fab := { u.fab with reqs := [q], rto := 1 } }

/-- The last queue, its BIND under way or not started. -/
def notified (b : Bool) : State := linked.setQueue 4095 { someQueue with phase := if b then .held else .idle, fetched := [⟨0, 0, dBind⟩] }

/-- R372, R373, R383, R456 to R466, R480, R485: whole flits in sequence, idle ones and ones out of sequence, where numbers wrap; a damaged one; a port that trains and one that goes down;
a packet that leaves, one on its way and one at its end; an entry and a notify, of a queue that runs a BIND or none; addresses a mode may write and may not; a read, a marker and a
gateway's write that have lasted RTO. -/
theorem witness_LinkStepsComplete :
    (11 < 12 ∧ ((linked.advanceTime 7).port 11).up = true ∧
      (flitIntact (wholeFlit false 0) = true ∧ (wholeFlit false 0).idle = false ∧ (wholeFlit false 0).seq = ((linked.advanceTime 7).port 11).rxNext) ∧
      (flitIntact (wholeFlit true 0xFFFF) = true ∧ (wholeFlit true 0xFFFF).idle = true ∧ (wholeFlit true 0xFFFF).seq = ((linked.advanceTime 7).port 11).rxNext - 1) ∧
      (∀ idle, flitIntact (wholeFlit idle 1) = true ∧
        (wholeFlit idle 1).seq ≠ (if (wholeFlit idle 1).idle then ((linked.advanceTime 7).port 11).rxNext - 1 else ((linked.advanceTime 7).port 11).rxNext)) ∧
      flitIntact brokenFlit = false) ∧
    ((linked.port 11).up ≠ false ∧ (world.port 11).up ≠ true) ∧
    (∃ t, somePacket tWRITE 0 1 [0] ∈ outPacket.fab.out ∧ outPacket.fabOn = true ∧ firstOf outPacket.fab.out (somePacket tWRITE 0 1 [0]) = true ∧
      ({ outPacket with fab := { outPacket.fab with out := outPacket.fab.out.erase (somePacket tWRITE 0 1 [0]) } } : State).startPacket (somePacket tWRITE 0 1 [0]) = some t) ∧
    (∀ n ∈ [0, 1], ∃ t, ({ somePacket tWRITE 0 1 [0] with hleft := n } : Packet) ∉ linked.fab.out ∧ linked.fabOn = true ∧
      linked.atRouter { somePacket tWRITE 0 1 [0] with hleft := n } = some t) ∧
    ((somePacket tLINKSTATE 0 16 []).typ = tLINKSTATE ∧ somePacket tLINKSTATE 0 16 [] ∈ (inboxed [somePacket tLINKSTATE 0 16 []]).fab.inbox) ∧
    (∀ b, (somePacket tQNOTIFY 0 64 [0xFF, 0x0F]).typ = tQNOTIFY ∧
      somePacket tQNOTIFY 0 64 [0xFF, 0x0F] ∈ (inboxed [somePacket tQNOTIFY 0 64 [0xFF, 0x0F]] (notified b)).fab.inbox ∧
      (inboxed [somePacket tQNOTIFY 0 64 [0xFF, 0x0F]] (notified b)).booted = true ∧
      (inboxed [somePacket tQNOTIFY 0 64 [0xFF, 0x0F]] (notified b)).notifyWaits (somePacket tQNOTIFY 0 64 [0xFF, 0x0F]) = false ∧
      (((inboxed [somePacket tQNOTIFY 0 64 [0xFF, 0x0F]] (notified b)).takePacket (somePacket tQNOTIFY 0 64 [0xFF, 0x0F])).queue
        (fieldAt (somePacket tQNOTIFY 0 64 [0xFF, 0x0F]).payload 0 2)).binding = b) ∧
    (fabricBase % 8 = 0 ∧ mayReach .s (hubPlace fabricBase).res true = true ∧ mayReach .u (hubPlace fabricBase).res true = false) ∧
    (∀ q ∈ [someReq tREAD false (some 5), someReq tMARKER false none, someReq tWRITE true none], ∃ u, u = (asked q).advanceTime 1000 ∧
      u.fab.reqs.find? (fun q => q.tag = 0x80000009) = some q ∧ (q.fid.isSome = true ∨ q.typ = tMARKER ∨ (q.gw = true ∧ q.typ ≠ tPIECE)) ∧
      u.fab.rto.toNat * 1000 ≤ u.ltime - q.sent) := by
  have whole : ∀ i n, flitIntact (wholeFlit i n) = true := fun i n => decide_eq_true rfl
  refine ⟨⟨by decide, by decide +kernel, ⟨whole _ _, rfl, by decide +kernel⟩, ⟨whole _ _, rfl, by decide +kernel⟩, fun i => ⟨whole _ _, ?_⟩, ?_⟩, by decide +kernel,
    ⟨_, by decide +kernel, by decide +kernel, by decide +kernel, (Option.some_get (by decide +kernel)).symm⟩, ?_, by decide +kernel, ?_, by decide +kernel, ?_⟩
  · cases i <;> decide +kernel
  · have h : ∀ y : BitVec 64, y + 1 ≠ y := fun y h => by bv_omega
    exact decide_eq_false (h _)
  · intro n hn
    have hn : n = 0 ∨ n = 1 := by simpa using hn
    rcases hn with rfl | rfl <;> exact ⟨_, by decide +kernel, by decide +kernel, (Option.some_get (by decide +kernel)).symm⟩
  · intro b; cases b <;> decide +kernel
  · intro q hq
    have h : q = someReq tREAD false (some 5) ∨ q = someReq tMARKER false none ∨ q = someReq tWRITE true none := by simpa using hq
    rcases h with rfl | rfl | rfl <;> exact ⟨_, rfl, by decide +kernel⟩

/-- R468, R469, R475 to R481: each access of the page by a packet of context 1, the first of its line: a write of one byte at the page's end, a read of 64 bytes, an atomic of 4 and of 8 bytes,
a signal that brings a barrier's bytes to their last count; a marker. -/
theorem witness_RequestsAtDestinationComplete :
    (∀ p ∈ [somePacket tWRITE (pageVa + 4095) 1 [9]], ∃ u l, Admitted (inboxed [p]) p tWRITE 1 ∧
      ((inboxed [p]).takePacket p).hubWrite 1 p.addr.toNat (p.payload.take p.len) = (u, .ok l)) ∧
    (∃ u l bad, Admitted (inboxed [somePacket tREAD pageVa 64 []]) (somePacket tREAD pageVa 64 []) tREAD 1 ∧
      ((inboxed [somePacket tREAD pageVa 64 []]).takePacket (somePacket tREAD pageVa 64 [])).readFlagged 1 ((somePacket tREAD pageVa 64 []).len / 64 + 2) 0
        (somePacket tREAD pageVa 64 []).addr.toNat (somePacket tREAD pageVa 64 []).len = (u, .inl (l, bad))) ∧
    (∀ n ∈ [4, 8], ∃ op m a c1 u pa v r, Admitted (inboxed [somePacket tATOM (pageVa + n) n (natLe 1 0 ++ natLe 1 n)]) (somePacket tATOM (pageVa + n) n (natLe 1 0 ++ natLe 1 n)) tATOM 1 ∧
      atomOf (somePacket tATOM (pageVa + n) n (natLe 1 0 ++ natLe 1 n)).payload = some (op, m, a, c1) ∧ (somePacket tATOM (pageVa + n) n (natLe 1 0 ++ natLe 1 n)).addr.toNat % m = 0 ∧
      ((inboxed [somePacket tATOM (pageVa + n) n (natLe 1 0 ++ natLe 1 n)]).takePacket (somePacket tATOM (pageVa + n) n (natLe 1 0 ++ natLe 1 n))).hubTranslate 1
        (somePacket tATOM (pageVa + n) n (natLe 1 0 ++ natLe 1 n)).addr.toNat .rw = (u, .ok pa) ∧ u.homeAtom op m (op = .fadd) pa a c1 1 = (v, r)) ∧
    (∀ n ∈ [1, 2 ^ 40 - 1], ∃ bh u, Admitted (inboxed [somePacket tSIGNAL 32 8 (natLe 8 n)] ({ barred with fab := linked.fab })) (somePacket tSIGNAL 32 8 (natLe 8 n)) tSIGNAL 1 ∧
      u = (inboxed [somePacket tSIGNAL 32 8 (natLe 8 n)] ({ barred with fab := linked.fab })).takePacket (somePacket tSIGNAL 32 8 (natLe 8 n)) ∧
      u.signalBolt 1 (somePacket tSIGNAL 32 8 (natLe 8 n)).addr.toNat = some bh ∧ u.barState bh ((somePacket tSIGNAL 32 8 (natLe 8 n)).addr.toNat % 2 ^ 20) = 1 ∧
      ((u.bolt bh).obj ((somePacket tSIGNAL 32 8 (natLe 8 n)).addr.toNat % 2 ^ 20)).bcnt + fieldAt (somePacket tSIGNAL 32 8 (natLe 8 n)).payload 0 8 < 2 ^ 40) ∧
    ((somePacket tMARKER 0 0 []).typ = tMARKER ∧ somePacket tMARKER 0 0 [] ∈ (inboxed [somePacket tMARKER 0 0 []]).fab.inbox ∧
      (inboxed [somePacket tMARKER 0 0 []]).blocked (somePacket tMARKER 0 0 []) = false) := by
  have adm : ∀ (u : State) (p : Packet) typ, u.domainOf p.domid = some (0, ⟨7, 1, 0, 1, true, false, 0, 0⟩) → (u.ctx 1).st ≠ .killed → p.typ = typ → p ∈ u.fab.inbox →
      u.blocked p = false → Admitted u p typ 1 := fun u p typ d a t m b => ⟨t, m, b, ⟨_, _, d, rfl⟩, a⟩
  refine ⟨?_, ⟨_, _, _, adm _ _ _ (by decide +kernel) (by decide +kernel) (by decide +kernel) (by decide +kernel) (by decide +kernel), fstLeft_of ([], []) (by decide +kernel)⟩, ?_, ?_, by decide +kernel⟩
  · intro p hp
    have h : p = somePacket tWRITE (pageVa + 4095) 1 [9] := by simpa using hp
    subst h
    exact ⟨_, _, adm _ _ _ (by decide +kernel) (by decide +kernel) (by decide +kernel) (by decide +kernel) (by decide +kernel), ok_of (by decide +kernel)⟩
  · intro n hn
    have h : n = 4 ∨ n = 8 := by simpa using hn
    rcases h with rfl | rfl
    · obtain ⟨pa, e⟩ : ∃ pa, (((inboxed [somePacket tATOM (pageVa + 4) 4 (natLe 1 0 ++ natLe 1 4)]).takePacket (somePacket tATOM (pageVa + 4) 4 (natLe 1 0 ++ natLe 1 4))).hubTranslate 1
        (somePacket tATOM (pageVa + 4) 4 (natLe 1 0 ++ natLe 1 4)).addr.toNat .rw).2 = .ok pa := ⟨pagePa + 4, by decide +kernel⟩
      exact ⟨.add, 4, 0, 0, _, pa, _, _, adm _ _ _ (by decide +kernel) (by decide +kernel) (by decide +kernel) (by decide +kernel) (by decide +kernel), by decide +kernel, by decide +kernel,
        pair_of e, rfl⟩
    · obtain ⟨pa, e⟩ : ∃ pa, (((inboxed [somePacket tATOM (pageVa + 8) 8 (natLe 1 0 ++ natLe 1 8)]).takePacket (somePacket tATOM (pageVa + 8) 8 (natLe 1 0 ++ natLe 1 8))).hubTranslate 1
        (somePacket tATOM (pageVa + 8) 8 (natLe 1 0 ++ natLe 1 8)).addr.toNat .rw).2 = .ok pa := ⟨pagePa + 8, by decide +kernel⟩
      exact ⟨.add, 8, 0, 0, _, pa, _, _, adm _ _ _ (by decide +kernel) (by decide +kernel) (by decide +kernel) (by decide +kernel) (by decide +kernel), by decide +kernel, by decide +kernel,
        pair_of e, rfl⟩
  · intro n hn
    have h : n = 1 ∨ n = 2 ^ 40 - 1 := by simpa using hn
    rcases h with rfl | rfl <;>
      exact ⟨_, _, adm _ _ _ (by decide +kernel) (by decide +kernel) (by decide +kernel) (by decide +kernel) (by decide +kernel), rfl,
        (Option.some_get (by decide +kernel)).symm, by decide +kernel, by decide +kernel⟩

/-- A route as an entry names it, as a NOTICE for its packets brings it back; an image held; a page being pulled, of which some pieces are here. -/
def noticed : State := inboxed [{ somePacket tNOTICE 0 0 (natLe 1 1 ++ [0] ++ natLe 2 1) with ret := 0 }] { linked with fab := { linked.fab with cache := [(1, someRoute)] } }
def imageHeld : State := inboxed [somePacket tPULL (pageVa / granule * granule) 0 [7]]
  { linked with heldImages := [⟨[7], 1, [(pageVa / granule, pagePa / granule)]⟩] }
def arriving (n : Nat) : State := inboxed [somePacket tPAGE (pageVa / granule * granule + 4096 * 7) 4096 [1]]
  { linked with pulls := [{ asid := 1, va := pageVa / granule * granule, tag := 0x80000009, since := 0, got := (List.range n).map (fun i => (i, [1])), dead := false }] }

theorem some_of {α β : Type} {x : α × Option β} (h : x.2.isSome = true) : x = (x.1, some (x.2.get h)) := by rw [Option.some_get]

/-- R440, R443, R477 to R485: a response of each kind with its request; a NOTICE of the route in use; an ERROR; a withdraw notice of a domain; the last page of a held image
asked for, and its release; the last piece of a page and an earlier one; a checkpoint's piece and its answer. -/
theorem witness_ResponsesAndNoticesComplete :
    (∀ p ∈ [(tRDATA, someReq tREAD false (some 5)), (tADATA, someReq tATOM false (some 5)), (tMACK, someReq tMARKER false none)],
      somePacket p.1 0 8 [] ∈ (inboxed [somePacket p.1 0 8 []] (asked p.2)).fab.inbox ∧ (somePacket p.1 0 8 []).typ = p.1 ∧
      (inboxed [somePacket p.1 0 8 []] (asked p.2)).fab.reqs.find? (fun q => q.tag = (somePacket p.1 0 8 []).tag.toNat && q.typ = p.2.typ && !q.gw) = some p.2) ∧
    (∃ p u e, p.typ = tNOTICE ∧ p ∈ noticed.fab.inbox ∧ (noticed.takePacket p).route (fieldAt p.payload 2 2) = (u, e) ∧ e.valid = true ∧ e.fwd = p.ret) ∧
    (∀ typ ∈ [tERROR, tPIECE, tPACK], (somePacket typ 0 8 []).typ = typ ∧ somePacket typ 0 8 [] ∈ (inboxed [somePacket typ 0 8 []]).fab.inbox) ∧
    (∃ i e, somePacket tWITHDRAW 0 0 [] ∈ (inboxed [somePacket tWITHDRAW 0 0 []]).fab.inbox ∧
      (inboxed [somePacket tWITHDRAW 0 0 []]).domainOf (somePacket tWITHDRAW 0 0 []).domid = some (i, e)) ∧
    (∃ p h x u l, p.typ = tPULL ∧ p.addr.toNat ≠ releaseAddr ∧ p ∈ imageHeld.fab.inbox ∧ imageHeld.heldImages.find? (fun h => h.digest = p.payload) = some h ∧
      h.pages.find? (fun x => x.1 * granule = p.addr.toNat) = some x ∧ (imageHeld.takePacket p).homeRead (x.2 * granule) granule 0 0 = (u, some l)) ∧
    (somePacket tPULL releaseAddr 0 [7] ∈ (inboxed [somePacket tPULL releaseAddr 0 [7]]).fab.inbox ∧ (somePacket tPULL releaseAddr 0 [7]).addr.toNat = releaseAddr) ∧
    (∀ n ∈ [0, 7], ∃ p x got, p.typ = tPAGE ∧ p ∈ (arriving n).fab.inbox ∧ (arriving n).pulls.find? (fun x => x.tag = p.tag.toNat && !x.dead) = some x ∧
      got = Store.insert x.got ((p.addr.toNat - x.va) / 4096) p.payload ∧ (got.length = 8 ↔ n = 7)) := by
  refine ⟨by decide +kernel, ⟨{ somePacket tNOTICE 0 0 (natLe 1 1 ++ [0] ++ natLe 2 1) with ret := 0 }, _, _, rfl, by decide +kernel, rfl, by decide +kernel, by decide +kernel⟩, by decide +kernel,
    ⟨_, _, by decide +kernel, (Option.some_get (by decide +kernel)).symm⟩,
    ⟨somePacket tPULL (pageVa / granule * granule) 0 [7], ⟨[7], 1, [(pageVa / granule, pagePa / granule)]⟩, (pageVa / granule, pagePa / granule), _, _, rfl, by decide +kernel, by decide +kernel,
      by decide +kernel, by decide +kernel, homeRead_plain _ _ _ _ rfl rfl rfl rfl rfl (by decide +kernel)⟩, by decide +kernel, ?_⟩
  · intro n hn
    have hn : n = 0 ∨ n = 7 := by simpa using hn
    rcases hn with rfl | rfl <;>
      exact ⟨somePacket tPAGE (pageVa / granule * granule + 4096 * 7) 4096 [1], _, _, rfl, by decide +kernel, (Option.some_get (by decide +kernel)).symm, rfl, by decide +kernel⟩

/-- The fabric's gateway ports 0 and 3 in modes, and the last key's region over the page, with a feed queue. -/
def gated (m : Nat) : State :=
  let r : Region := { asid := 1, base := pageVa, len := 4096, r := true, w := true, feed := some 255 }
  { linked with fab := { linked.fab with gwmode := [m, 2, 2, m], regions := [(1023, r)], reqs := [someReq tREAD true (some 5)] },
                feeds := [(255, { FeedQ.reset with asid := 1, cap := 16, vbase := pageVa })] }
def someGw (port n : Nat) (data : List Byte) (op : Option AtomOp) : GwReq := { port := port, key := 1023, off := 4096 - n, len := n, data := data, atomOp := op }
abbrev gwRegion : Region := { asid := 1, base := pageVa, len := 4096, r := true, w := true, feed := some 255 }
theorem region_of {u : State} {r : GwReq} {n : Nat} {w : Bool} (h : (decide (Store.find u.fab.regions r.key = some gwRegion) && decide (r.key < 1024) && gwRegion.admits r.off n w) = true) :
    RegionOf u r n w gwRegion := by
  simp only [Bool.and_eq_true, decide_eq_true_eq] at h
  exact ⟨h.1.1, h.1.2, h.2⟩

/-- R487 to R489: the last bytes of the last key's region, by the first and the last port of either mode: a write, a read, a send, and UALink's read, write and atomics of 4 and 8 bytes
(whether a UALink port knows one is the implementation's, log entry 15); an answer to a request of this device. -/
theorem witness_GatewayStepsComplete :
    (∀ port ∈ [0, 3], (gated 0).gwRuns port 0 = true ∧ RegionOf (gated 0) (someGw port 1 [9] none) 1 true gwRegion ∧
      (∃ u l, (gated 0).hubWrite gwRegion.asid (gwRegion.base + (someGw port 1 [9] none).off) (someGw port 1 [9] none).data = (u, .ok l) ∧
        gwRegion.feed = some 255 ∧ ∃ v st, u.feedAppend 255 (sendRecord (someGw port 1 [9] none)) = (v, st)) ∧
      RegionOf (gated 0) (someGw port 64 [] none) 64 false gwRegion ∧
      (∃ u l, (gated 0).hubRead gwRegion.asid (gwRegion.base + (someGw port 64 [] none).off) 64 = (u, .ok l))) ∧
    (∀ port ∈ [0, 3], (gated 1).gwRuns port 1 = true ∧ RegionOf (gated 1) (someGw port 64 [] none) 64 false gwRegion ∧ RegionOf (gated 1) (someGw port 1 [9] none) 1 true gwRegion ∧
      (∃ u l, (gated 1).hubRead gwRegion.asid (gwRegion.base + (someGw port 64 [] none).off) 64 = (u, .ok l)) ∧
      (∃ u l, (gated 1).hubWrite gwRegion.asid (gwRegion.base + (someGw port 1 [9] none).off) (someGw port 1 [9] none).data = (u, .ok l))) ∧
    (∀ n ∈ [4, 8], RegionOf (gated 1) (someGw 3 n (natLe 16 5) (some .add)) n true gwRegion ∧ gwRegion.r = true ∧
      (gwRegion.base + (someGw 3 n (natLe 16 5) (some .add)).off) % n = 0 ∧
      ∃ u pa v old, (gated 1).hubTranslate gwRegion.asid (gwRegion.base + (someGw 3 n (natLe 16 5) (some .add)).off) .rw = (u, .ok pa) ∧
        u.homeAtom .add n (AtomOp.add = .fadd) pa (fieldAt (natLe 16 5) 0 8) (fieldAt (natLe 16 5) 8 8) gwRegion.asid = (v, some old)) ∧
    (∃ q, (gated 0).fab.reqs.find? (fun q => q.gw && q.tag = 0x80000009) = some q) := by
  refine ⟨?_, ?_, ?_, _, (Option.some_get (by decide +kernel)).symm⟩
  · intro port h
    have h : port = 0 ∨ port = 3 := by simpa using h
    rcases h with rfl | rfl <;>
      exact ⟨by decide +kernel, region_of (by decide +kernel), ⟨_, _, ok_of (by decide +kernel), rfl, _, _, rfl⟩, region_of (by decide +kernel), _, _, ok_of (by decide +kernel)⟩
  · intro port h
    have h : port = 0 ∨ port = 3 := by simpa using h
    rcases h with rfl | rfl <;>
      exact ⟨by decide +kernel, region_of (by decide +kernel), region_of (by decide +kernel), ⟨_, _, ok_of (by decide +kernel)⟩, _, _, ok_of (by decide +kernel)⟩
  · intro n h
    have h : n = 4 ∨ n = 8 := by simpa using h
    rcases h with rfl | rfl
    · exact ⟨region_of (by decide +kernel), rfl, by decide, _, pagePa + 4092, _, _, pair_of (by decide +kernel), some_of (by decide +kernel)⟩
    · exact ⟨region_of (by decide +kernel), rfl, by decide, _, pagePa + 4088, _, _, pair_of (by decide +kernel), some_of (by decide +kernel)⟩

/-! ### The step -/

theorem turn_of {u : State} (h : decide (u.power.off = false ∧ u.agenda = [] ∧ u.me.status = .active ∧ u.me.alive ≠ 0 ∧ u.stopsHere u.me = false ∧ u.seekStops u.cur = false ∧
    u.me.pend = none) = true) : Turn u := by
  obtain ⟨a, b, c, d, e, f, g⟩ := of_decide_eq_true h
  exact ⟨a, b, c, d, e, f, g⟩
/-- The world with bytes where its weft's code page begins, and its PC some bytes on. -/
def coded (l : List Byte) (off : Nat := 0) : State :=
  { world with mem := Store.putBytes world.mem loadPa l, wefts := [(0, { someWeft with pc := BitVec.ofNat 57 (loadVa + off) })] }
def codeOf (i : Instr) : List Byte := (encodeBytes i).getD []
abbrev someAdd : Instr := .iadd ⟨g0, ⟨true, false, false⟩, .v 1, v 2, .reg (v 2)⟩
abbrev someLoad : Instr := .ld ⟨g0, 2, none, .v 20, 2, v 2, none⟩
/-- The same while a capture seeks the weft. -/
def soughtAt (i : Instr) : State := 
  let u := (coded (codeOf i)).setSpan 0 { world.span 0 with capture := some (someCapture 1) }
  u.setWeft 0 { u.me with flights := [someFlight (.v 21) 0 false] }

def isNext : Out → Bool
  | .next _ => true
  | _ => false
theorem next_of {x : Out} (h : isNext x = true) : ∃ t, x = .next t := by
  cases x with
  | next t => exact ⟨t, rfl⟩
  | fault f => cases h
  | refused r => cases h

/-- What a fetch at the current weft's PC comes to: its translation, and what is read there. -/
def fetchX (u : State) : State × Xlat := u.translate (u.coreOf u.me) (u.asidOf u.me) u.me.pc.toNat .fetch
def fetchV (u : State) : State × Option (List Byte) := (fetchX u).1.codeRead u.me (Xlat.pa (fetchX u).2) (32 - u.me.pc.toNat % 32)
def fetchedTo (u : State) (f : List Byte → Bool) : Bool :=
  Xlat.isOk (fetchX u).2 && decide (u.me.pc.toNat % 4 = 0 ∧ u.me.pc.toNat % 32 ≠ 28) && (fetchV u).2.isSome && f ((fetchV u).2.getD [])
theorem fetchedTo_of {u : State} {f : List Byte → Bool} (h : fetchedTo u f = true) : ∃ x pa v bytes,
    u.translate (u.coreOf u.me) (u.asidOf u.me) u.me.pc.toNat .fetch = (x, .ok pa) ∧ u.me.pc.toNat % 4 = 0 ∧ u.me.pc.toNat % 32 ≠ 28 ∧
      x.codeRead u.me pa (32 - u.me.pc.toNat % 32) = (v, some bytes) ∧ f bytes = true ∧ v = (fetchV u).1 := by
  simp only [fetchedTo, Bool.and_eq_true, decide_eq_true_eq] at h
  obtain ⟨⟨⟨h1, h2⟩, h3⟩, h4⟩ := h
  obtain ⟨l, hl⟩ := Option.isSome_iff_exists.1 h3
  have e : fetchX u = ((fetchX u).1, .ok (Xlat.pa (fetchX u).2)) := pa_of h1
  have g : fetchV u = ((fetchV u).1, some l) := by rw [← hl]
  rw [hl] at h4
  exact ⟨(fetchX u).1, Xlat.pa (fetchX u).2, (fetchV u).1, l, e, h2.1, h2.2, g, h4, rfl⟩
def isInstr (i : Instr) (l : List Byte) : Bool :=
  match decodeBytes l with
  | .instr j _ => j == i
  | _ => false
theorem instr_of {i : Instr} {l : List Byte} (h : isInstr i l = true) : ∃ n, decodeBytes l = .instr i n := by
  unfold isInstr at h
  cases e : decodeBytes l with
  | instr j n =>
    rw [e] at h
    exact ⟨n, by rw [eq_of_beq h]⟩
  | illegalLength => rw [e] at h; cases h
  | crosses => rw [e] at h; cases h
  | illegal => rw [e] at h; cases h

/-- R22, R36, R86, R362, R428: an instruction and a producer fetched in a weft's turn, with no capture and while one seeks the weft; and a step with a task of either kind before it. -/
theorem witness_StepRunsDecodedInstruction :
    (∀ i ∈ [someAdd, someLoad], ∀ u ∈ [(coded (codeOf i), false), (soughtAt i, true)], Turn u.1 ∧ ∃ x v pa bytes n,
      u.1.translate (u.1.coreOf u.1.me) (u.1.asidOf u.1.me) u.1.me.pc.toNat .fetch = (x, .ok pa) ∧ u.1.me.pc.toNat % 4 = 0 ∧ u.1.me.pc.toNat % 32 ≠ 28 ∧
        x.codeRead u.1.me pa (32 - u.1.me.pc.toNat % 32) = (v, some bytes) ∧ decodeBytes bytes = .instr i n ∧ v.seeks (v.weft u.1.cur) = u.2 ∧
        (∃ t, exec i { v with cur := u.1.cur } = .next t) ∧ (v.weft u.1.cur).startsProducer i = (i == someLoad)) ∧
    (∀ t ∈ [Task.ev (.deferExpiry 0 0), .issue 0], ({ world with agenda := [t] } : State).power.off = false ∧ ({ world with agenda := [t] } : State).agenda = t :: []) := by
  have runs : ∀ (u : State) (i : Instr) (seek : Bool), fetchedTo u (isInstr i) = true → (fetchV u).1.seeks ((fetchV u).1.weft u.cur) = seek →
      isNext (exec i { (fetchV u).1 with cur := u.cur }) = true → ((fetchV u).1.weft u.cur).startsProducer i = (i == someLoad) → ∃ x v pa bytes n,
      u.translate (u.coreOf u.me) (u.asidOf u.me) u.me.pc.toNat .fetch = (x, .ok pa) ∧ u.me.pc.toNat % 4 = 0 ∧ u.me.pc.toNat % 32 ≠ 28 ∧
        x.codeRead u.me pa (32 - u.me.pc.toNat % 32) = (v, some bytes) ∧ decodeBytes bytes = .instr i n ∧ v.seeks (v.weft u.cur) = seek ∧
        (∃ t, exec i { v with cur := u.cur } = .next t) ∧ (v.weft u.cur).startsProducer i = (i == someLoad) := by
    intro u i seek h a b c
    obtain ⟨x, pa, v, bytes, h1, h2, h3, h4, h5, rfl⟩ := fetchedTo_of h
    obtain ⟨n, hn⟩ := instr_of h5
    exact ⟨x, _, pa, bytes, n, h1, h2, h3, h4, hn, a, next_of b, c⟩
  have on : world.power.off = false := by decide +kernel
  refine ⟨?_, fun t _ => ⟨on, rfl⟩⟩
  intro i hi u hu
  have hi : i = someAdd ∨ i = someLoad := by simpa using hi
  have hu : u = (coded (codeOf i), false) ∨ u = (soughtAt i, true) := by simpa using hu
  rcases hi with rfl | rfl <;> rcases hu with rfl | rfl <;> exact ⟨turn_of (by decide +kernel), runs _ _ _ (by decide +kernel) (by decide +kernel) (by decide +kernel) (by decide +kernel)⟩

/-- The world's code page migrating, and its line uncorrectable. -/
def codeMoving : State := { world with mem := Store.writeNat world.mem (0x28000 + 8 * walkIndex loadVa 0) 8 (loadPa + 0x57 + 2 ^ 55) }
def badCode : State := { world with memBad := [loadPa / 64] }

/-- R23, R36, R177, R362: a PC that is not mapped; a migrating page; a misaligned PC and the last word of a block; an uncorrectable line; length 0; a length that leaves the block; an unassigned
major opcode. -/
theorem witness_FetchFaults :
    (Turn (coded [] 0x10000) ∧ ∃ x c i, (coded [] 0x10000).translate ((coded [] 0x10000).coreOf (coded [] 0x10000).me) ((coded [] 0x10000).asidOf (coded [] 0x10000).me)
      (coded [] 0x10000).me.pc.toNat .fetch = (x, .fault c i)) ∧
    (Turn codeMoving ∧ ∃ x, codeMoving.translate (codeMoving.coreOf codeMoving.me) (codeMoving.asidOf codeMoving.me) codeMoving.me.pc.toNat .fetch = (x, .mig)) ∧
    (∀ off ∈ [1, 28], Turn (coded [] off) ∧ (∃ x pa, (coded [] off).translate ((coded [] off).coreOf (coded [] off).me) ((coded [] off).asidOf (coded [] off).me)
      (coded [] off).me.pc.toNat .fetch = (x, .ok pa)) ∧ ((coded [] off).me.pc.toNat % 4 ≠ 0 ∨ (coded [] off).me.pc.toNat % 32 = 28)) ∧
    (Turn badCode ∧ ∃ x pa v, badCode.translate (badCode.coreOf badCode.me) (badCode.asidOf badCode.me) badCode.me.pc.toNat .fetch = (x, .ok pa) ∧
      badCode.me.pc.toNat % 4 = 0 ∧ badCode.me.pc.toNat % 32 ≠ 28 ∧ x.codeRead badCode.me pa (32 - badCode.me.pc.toNat % 32) = (v, none)) ∧
    (∀ p ∈ [(coded [], Fetched.illegalLength), (coded (List.replicate 24 0 ++ [3]) 24, .crosses), (coded [0xFD, 0xFF, 0, 0], .illegal)], Turn p.1 ∧ ∃ x pa v bytes,
      p.1.translate (p.1.coreOf p.1.me) (p.1.asidOf p.1.me) p.1.me.pc.toNat .fetch = (x, .ok pa) ∧ p.1.me.pc.toNat % 4 = 0 ∧ p.1.me.pc.toNat % 32 ≠ 28 ∧
        x.codeRead p.1.me pa (32 - p.1.me.pc.toNat % 32) = (v, some bytes) ∧ (decodeBytes bytes == p.2) = true) := by
  have stops : ∀ (u : State) (d : Fetched), fetchedTo u (fun l => decodeBytes l == d) = true → ∃ x pa v bytes,
      u.translate (u.coreOf u.me) (u.asidOf u.me) u.me.pc.toNat .fetch = (x, .ok pa) ∧ u.me.pc.toNat % 4 = 0 ∧ u.me.pc.toNat % 32 ≠ 28 ∧
        x.codeRead u.me pa (32 - u.me.pc.toNat % 32) = (v, some bytes) ∧ (decodeBytes bytes == d) = true := by
    intro u d h
    obtain ⟨x, pa, v, bytes, h1, h2, h3, h4, h5, -⟩ := fetchedTo_of h
    exact ⟨x, pa, v, bytes, h1, h2, h3, h4, h5⟩
  refine ⟨⟨turn_of (by decide +kernel), _, cFetch, 1, pair_of (by decide +kernel)⟩, ⟨turn_of (by decide +kernel), _, pair_of (by decide +kernel)⟩, ?_,
    ⟨turn_of (by decide +kernel), _, _, _, pa_of (by decide +kernel), by decide +kernel, by decide +kernel, pair_of (by decide +kernel)⟩, ?_⟩
  · intro off h
    have h : off = 1 ∨ off = 28 := by simpa using h
    rcases h with rfl | rfl <;> exact ⟨turn_of (by decide +kernel), ⟨_, _, pa_of (by decide +kernel)⟩, by decide +kernel⟩
  · intro p hp
    have h : p = (coded [], Fetched.illegalLength) ∨ p = (coded (List.replicate 24 0 ++ [3]) 24, .crosses) ∨ p = (coded [0xFD, 0xFF, 0, 0], .illegal) := by simpa using hp
    rcases h with rfl | rfl | rfl <;> exact ⟨turn_of (by decide +kernel), stops _ _ (by decide +kernel)⟩

/-! ### Checks and pairs -/

/-- The world with scalar 40 empty and scalar 41 left empty by an aborted producer. -/
def gappy : State := world.setWeft 0 { someWeft with sr := someWeft.sr ++ [(40, ⟨0, 0, false⟩), (41, ⟨0, 0, false⟩)], sAbort := [41] }
/-- A form by its source A, and a source whose tag it does not accept. -/
abbrev shapes : List ((Src → Form) × Option Src) :=
  [(fun a => binForm g0 cInt tInt (.v 1) a (.reg (v 2)), some (s 3)), (fun a => unForm g0 cInt tInt (.v 1) a, some (s 3)),
   (fun a => triForm g0 cInt tInt (.v 1) a (.reg (v 2)) (v 2), some (v 3)), (fun a => binForm g0 cInt none (.v 1) a (.reg (v 2)), none),
   (fun a => binForm g0 cFlt (tFlt .f32) (.v 1) a (.imm 0), some (s 1)), (fun a => triForm g0 cFlt (tFlt .f64) (.v 1) a (.reg (v 3)) (v 3), some (v 4)),
   (fun a => .plain g0 [opS 1 [.s] (some [1]) a], some (s 2)), (fun a => recForm g0 2 [opS 2 cOff tInt a, opD [.v] (.v 20)], some (v 3)),
   (fun a => recForm g0 2 [opS 2 [.s, .z] tInt a, opD [.s] (.s 63)], some (s 3))]
def isTrap : Ready → Bool
  | .trap _ => true
  | _ => false
def isHold : Ready → Bool
  | .hold _ => true
  | _ => false
theorem trap_of {x : Ready} (h : isTrap x = true) : ∃ t, x = .trap t := by
  cases x with
  | trap t => exact ⟨t, rfl⟩
  | go => cases h
  | hold w => cases h
theorem hold_of {x : Ready} (h : isHold x = true) : ∃ w, x = .hold w := by
  cases x with
  | hold w => exact ⟨w, rfl⟩
  | go => cases h
  | trap t => cases h

/-- R36 (steps 7 to 10), R55, R94, R110: for each shape a mask register as a source, an empty source with TE set and an aborted one, an empty one without, and, where the shape checks a tag, one
that it does not accept; of RFT, which has no operand, the first check alone can be asked, and it passes. -/
theorem witness_FormChecksFault :
    gappy.me.status = .active ∧ gappy.me.shadowed = false ∧ (.plain g0 [] : Form).decodeFault gappy gappy.me = none ∧
    ∀ p ∈ shapes, (∃ t, (p.1 (k 1)).decodeFault gappy gappy.me = some t) ∧
      (∀ a ∈ [(⟨.s 40, true⟩ : Src), s 41], (p.1 a).decodeFault gappy gappy.me = none ∧ gappy.me.selected (p.1 a).g ≠ 0 ∧ ∃ t, (p.1 a).ready gappy.me (gappy.me.selected (p.1 a).g) = .trap t) ∧
      ((p.1 (s 40)).decodeFault gappy gappy.me = none ∧ ∃ x, (p.1 (s 40)).ready gappy.me (gappy.me.selected (p.1 (s 40)).g) = .hold x) ∧
      (∀ a, p.2 = some a → (p.1 a).decodeFault gappy gappy.me = none ∧ gappy.me.selected (p.1 a).g ≠ 0 ∧ (p.1 a).ready gappy.me (gappy.me.selected (p.1 a).g) = .go ∧
        gappy.regAbort gappy.cur (p.1 a) gappy.me (gappy.me.selected (p.1 a).g) = none ∧ ∃ t, (p.1 a).tagFault gappy.me (gappy.me.selected (p.1 a).g) = some t) := by
  have all : shapes.all (fun p => ((p.1 (k 1)).decodeFault gappy gappy.me).isSome &&
      [(⟨.s 40, true⟩ : Src), s 41].all (fun a => decide ((p.1 a).decodeFault gappy gappy.me = none ∧ gappy.me.selected (p.1 a).g ≠ 0) &&
        isTrap ((p.1 a).ready gappy.me (gappy.me.selected (p.1 a).g))) &&
      (decide ((p.1 (s 40)).decodeFault gappy gappy.me = none) && isHold ((p.1 (s 40)).ready gappy.me (gappy.me.selected (p.1 (s 40)).g))) &&
      p.2.all (fun a => decide ((p.1 a).decodeFault gappy gappy.me = none ∧ gappy.me.selected (p.1 a).g ≠ 0 ∧ (p.1 a).ready gappy.me (gappy.me.selected (p.1 a).g) = .go ∧
        gappy.regAbort gappy.cur (p.1 a) gappy.me (gappy.me.selected (p.1 a).g) = none) && ((p.1 a).tagFault gappy.me (gappy.me.selected (p.1 a).g)).isSome)) = true := by decide +kernel
  refine ⟨by decide +kernel, by decide +kernel, by decide +kernel, fun p hp => ?_⟩
  have h := List.all_eq_true.1 all p hp
  simp only [Bool.and_eq_true, decide_eq_true_eq] at h
  obtain ⟨⟨⟨h1, h2⟩, h3, h4⟩, h5⟩ := h
  refine ⟨Option.isSome_iff_exists.1 h1, fun a ha => ?_, ⟨h3, hold_of h4⟩, fun a ha => ?_⟩
  · have q := List.all_eq_true.1 h2 a ha
    simp only [Bool.and_eq_true, decide_eq_true_eq] at q
    exact ⟨q.1.1, q.1.2, trap_of q.2⟩
  · rw [ha] at h5
    simp only [Option.all_some, Bool.and_eq_true, decide_eq_true_eq] at h5
    obtain ⟨⟨a, b, c, d⟩, e⟩ := h5
    exact ⟨a, b, c, d, Option.isSome_iff_exists.1 e⟩

/-- A state whose weft is protected and runs threads 0 and 15, with what their shadows hold otherwise. -/
def paired (u : State) (oV : Store Cell) (oK : Store Mask) : State :=
  u.setWeft 0 { u.me with
    prot := true, active := 0x8001, ks := [(2, 0x8001), (3, 0x8001), (4, 1)], oddV := oV, oddK := oK
    vr := (List.range' 1 10).flatMap (fun n => [0, 15].map (fun t => (vkey n t, (⟨BitVec.ofNat 64 t, BitVec.ofNat 6 n, true⟩ : Cell)))) }
def unheld : Eff → Bool
  | .hold _ _ => false
  | _ => true
def sameKind : Eff → Eff → Bool
  | .done _, .done _ => true
  | .moved _, .moved _ => true
  | _, _ => false
/-- The premises of a comparison, in a state whose pairs clash or agree. -/
def pairMet (u : State) (f : State → Nat → Eff) (clash : Bool) : Bool :=
  decide (u.me.status = .active) && u.me.shadowed && unheld (f u u.cur) && unheld (f (u.setWeft u.cur u.me.oddView) u.cur) &&
    (u.pairClash u.cur f (BitVec.allOnes 32) == clash) && (clash || sameKind (f u u.cur) (f (u.setWeft u.cur u.me.oddView) u.cur))

/-- Predicated on k3, which thread 0 and its shadow may hold otherwise; the branch and the exit as the statement has them. -/
abbrev g3 : Guard := ⟨0, false, false, 3⟩
def braOp (o : BraArgs) (s : State) (h : Nat) : Eff :=
  s.operate h (.plain o.g []) (fun w sel =>
    if inSpace (targetOf w.pc o.off) then .moved (s.setWeft h (w.cleared.branch o.tag
      [⟨BitVec.ofNat 57 (targetOf w.pc o.off).toNat, sel⟩, ⟨nextPc w.pc 12, w.active &&& ~~~sel⟩]))
    else .trap s (w.farTarget (targetOf w.pc o.off) sel))
def exitOp (o : PlainArgs) (s : State) (h : Nat) : Eff :=
  s.operate h (.plain o.g []) (fun w sel => .moved ((s.setWeft h { w.cleared with pc := nextPc w.pc 8 }).exit h sel))
/-- Shadows that differ in v1 of thread 0, in k3 of both threads, and in v9, which the instructions do not name. -/
def oddData (u : State) : State := paired u [(vkey 1 0, ⟨77, 1, true⟩)] []
def oddMask (u : State) : State := paired u [] [(3, 0)]
def oddIdle (u : State) : State := paired u [(vkey 9 0, ⟨77, 9, true⟩)] []

/-! The comparisons, one evaluation each. -/
abbrev stF : State → Nat → Eff := storeOp false ⟨g0, .rne, false, none, 4, v 2, none, v 1⟩
abbrev stuF : State → Nat → Eff := storeOp true ⟨g3, .rne, false, none, 4, s 20, none, s 1⟩
abbrev atomF : State → Nat → Eff := atomOp ⟨g0, .add, .relaxed, .record 4, .v 20, v 2, v 1, none⟩
abbrev redF : State → Nat → Eff := redOp ⟨g0, .add, .relaxed, .record 4, v 2, v 1, none⟩
abbrev cpyF : State → Nat → Eff := cpysliceOp ⟨g3, .s 40, s 13, s 14, s 14, none⟩
abbrev lduF : State → Nat → Eff := loadOp false ⟨{ g3 with uni := true }, 2, none, .s 50, 2, s 20, none⟩


def effE (u : State) : Eff := ((stF (u.setWeft u.cur { u.me with active := u.me.active &&& BitVec.allOnes 32 }) u.cur)).visible u.cur u.me.oddF
def effO (u : State) : Eff := ((stF (u.setWeft u.cur { u.me.oddView with active := u.me.active &&& BitVec.allOnes 32 }) u.cur)).visible u.cur u.me.oddF
/-- The bytes that the executions buffer, as numbers. -/
def buffered8 (e : Eff) : List Nat := (e.state.core 0).wbuf.flatMap (fun x => x.data.map (fun b => b.toNat))
def coresOf (e : Eff) : Store Core := e.state.cores
def ungut : Eff → Eff
  | .done s => .done { s with cores := [], wefts := [], mem := [], tlb := [], wcache := [] }
  | e => e
theorem eff_eq {a b : State} (h : ({ a with cores := [], wefts := [], mem := [], tlb := [], wcache := [] } : State) = { b with cores := [], wefts := [], mem := [], tlb := [], wcache := [] }) (c : a.cores = b.cores) (w : a.wefts = b.wefts)
    (m : a.mem = b.mem) (l : a.tlb = b.tlb) (k : a.wcache = b.wcache) : a = b := by
  have e : ∀ s : State, s = { ({ s with cores := [], wefts := [], mem := [], tlb := [], wcache := [] } : State) with cores := s.cores, wefts := s.wefts, mem := s.mem, tlb := s.tlb, wcache := s.wcache } := fun s => rfl
  rw [e a, e b, h, c, w, m, l, k]
/-- What the two threads' stores leave in the core: their elements, in the core's write buffer. -/
def storedCore : Core :=
  { Core.reset with wbuf := [⟨0, 0, 0, 0x40000, [(32769, 1)], List.replicate 8 0⟩, ⟨0, 0, 0, 0x40078, [(32769, 1)], 15 :: List.replicate 7 0⟩] }
theorem pair_st : pairMet (oddData world) stF true = true := by
  have n : effE (oddData world) ≠ effO (oddData world) := fun h => absurd (congrArg buffered8 h) (by decide +kernel)
  have c : (oddData world).pairClash (oddData world).cur stF (BitVec.allOnes 32) = true := by
    unfold State.pairClash
    exact Bool.or_eq_true_iff.2 (.inl (decide_eq_true n))
  unfold pairMet
  rw [c]
  decide +kernel

theorem pair_st_idle : pairMet (oddIdle world) stF false = true := by
  have e1 : coresOf (effE (oddIdle world)) = [(0, storedCore)] := by decide +kernel
  have e2 : coresOf (effO (oddIdle world)) = [(0, storedCore)] := by decide +kernel
  have e3 : ungut (effE (oddIdle world)) = ungut (effO (oddIdle world)) := by decide +kernel
  have e4 : (effE (oddIdle world)).state.wefts = (effO (oddIdle world)).state.wefts := by decide +kernel
  have e5 : (effE (oddIdle world)).state.mem = (effO (oddIdle world)).state.mem := by decide +kernel
  have e6 : (effE (oddIdle world)).state.tlb = (effO (oddIdle world)).state.tlb := by decide +kernel
  have e7 : (effE (oddIdle world)).state.wcache = (effO (oddIdle world)).state.wcache := by decide +kernel
  have d1 : sameKind (effE (oddIdle world)) (.done world) = true := by decide +kernel
  have d2 : sameKind (effO (oddIdle world)) (.done world) = true := by decide +kernel
  have n : effE (oddIdle world) = effO (oddIdle world) := by
    generalize effE (oddIdle world) = a at *
    generalize effO (oddIdle world) = b at *
    cases a with
    | done a =>
      cases b with
      | done b => rw [eff_eq (Eff.done.inj e3) (e1.trans e2.symm) e4 e5 e6 e7]
      | moved b => cases d2
      | trap b t => cases d2
      | hold b x => cases d2
    | moved a => cases d1
    | trap a t => cases d1
    | hold a x => cases d1
  have m : masksClash (oddIdle world).me
      ((stF ((oddIdle world).setWeft (oddIdle world).cur { (oddIdle world).me with active := (oddIdle world).me.active &&& BitVec.allOnes 32 }) (oddIdle world).cur).state.weft (oddIdle world).cur)
      ((stF ((oddIdle world).setWeft (oddIdle world).cur { (oddIdle world).me.oddView with active := (oddIdle world).me.active &&& BitVec.allOnes 32 }) (oddIdle world).cur).state.weft (oddIdle world).cur) = false := by
    decide +kernel
  have c : (oddIdle world).pairClash (oddIdle world).cur stF (BitVec.allOnes 32) = false := by
    unfold State.pairClash
    exact Bool.or_eq_false_iff.2 ⟨decide_eq_false (fun x => x n), m⟩
  unfold pairMet
  rw [c]
  decide +kernel
theorem pair_atom : pairMet (oddData world) atomF true = true := by decide +kernel
theorem pair_atom_idle : pairMet (oddIdle world) atomF false = true := by decide +kernel
theorem pair_red : pairMet (oddData world) redF true = true := by decide +kernel
theorem pair_red_idle : pairMet (oddIdle world) redF false = true := by decide +kernel
theorem pair_stu : pairMet (oddMask world) stuF true = true := by decide +kernel
theorem pair_stu_idle : pairMet (oddIdle world) stuF false = true := by decide +kernel
theorem pair_cpyslice : pairMet (oddMask described) cpyF true = true := by decide +kernel
theorem pair_cpyslice_idle : pairMet (oddIdle described) cpyF false = true := by decide +kernel
theorem pair_bra : pairMet (oddMask world) (braOp ⟨g3, 0, 16⟩) true = true := by decide +kernel
theorem pair_bra_idle : pairMet (oddIdle world) (braOp ⟨g3, 0, 16⟩) false = true := by decide +kernel
theorem pair_exit : pairMet (oddMask world) (exitOp ⟨g3⟩) true = true := by decide +kernel
theorem pair_exit_idle : pairMet (oddIdle world) (exitOp ⟨g3⟩) false = true := by decide +kernel
theorem pair_ld : pairMet (oddMask world) lduF true = true := by decide +kernel
theorem pair_ld_idle : pairMet (oddIdle world) lduF false = true := by decide +kernel

/-- R112 to R115: a store, an atomic and a RED whose datum differs in one pair, and a store once, a CPYSLICE, a branch, an EXIT and a uniform load whose predicate does; and each of them with a
difference in a register that it does not read. -/
theorem witness_PairsAreCompared :
    (∀ f ∈ [stF, atomF, redF], pairMet (oddData world) f true = true ∧ pairMet (oddIdle world) f false = true) ∧
    (∀ f ∈ [stuF, braOp ⟨g3, 0, 16⟩, exitOp ⟨g3⟩, lduF], pairMet (oddMask world) f true = true ∧ pairMet (oddIdle world) f false = true) ∧
    pairMet (oddMask described) cpyF true = true ∧ pairMet (oddIdle described) cpyF false = true := by
  refine ⟨fun f hf => ?_, fun f hf => ?_, pair_cpyslice, pair_cpyslice_idle⟩
  · simp only [List.mem_cons, List.not_mem_nil, or_false] at hf
    rcases hf with rfl | rfl | rfl
    · exact ⟨pair_st, pair_st_idle⟩
    · exact ⟨pair_atom, pair_atom_idle⟩
    · exact ⟨pair_red, pair_red_idle⟩
  · simp only [List.mem_cons, List.not_mem_nil, or_false] at hf
    rcases hf with rfl | rfl | rfl | rfl
    · exact ⟨pair_stu, pair_stu_idle⟩
    · exact ⟨pair_bra, pair_bra_idle⟩
    · exact ⟨pair_exit, pair_exit_idle⟩
    · exact ⟨pair_ld, pair_ld_idle⟩

/-! ### Traps, registers, memory and the whole device -/

/-- The world with a delegation word, a handler address, a peer and TSTAT; with its ring full. -/
def delegated (deleg peer thvec tstat : Dword) : State :=
  (world.setCtx 1 { world.ctx 1 with deleg := deleg, peer := peer }).setWeft 0 { someWeft with thvec := thvec, tstat := tstat }
def ringFull (u : State) : State := { u with trapRing := List.replicate trapRingSlots [] }

/-- R175, R178, R180, R182, R375: an illegal instruction delegated to the context, to a peer and to none; a fetch fault; a full ring. -/
theorem witness_TrapDelivery :
    (neverInContext cIllegal = false ∧ ((delegated 4 0 4 0).weft 0).tstat.getLsbD 0 = false ∧ routeBits (delegMask ((delegated 4 0 4 0).ctx 1).deleg) cIllegal = 1 ∧
      ((delegated 4 0 4 0).weft 0).thvec ≠ 0 ∧
      faultRoute ((delegated 4 0 4 0).ctxOf ((delegated 4 0 4 0).weft 0)) ((delegated 4 0 4 0).weft 0) someTrap.cause = .context ∧ 1 ≠ 0) ∧
    (routeBits (delegMask ((delegated 8 (2 ^ 63) 0 0).ctx 1).deleg) cIllegal = 2 ∧ ((delegated 8 (2 ^ 63) 0 0).ctx 1).peer.getLsbD 63 = true ∧
      faultRoute ((delegated 8 (2 ^ 63) 0 0).ctxOf ((delegated 8 (2 ^ 63) 0 0).weft 0)) ((delegated 8 (2 ^ 63) 0 0).weft 0) someTrap.cause = .mailbox) ∧
    (∀ c ∈ [cIllegal, cFetch], faultRoute (world.ctxOf (world.weft 0)) (world.weft 0) (someWeft.fault c).cause = .supervisor ∧ world.trapRing.length < trapRingSlots ∧
      (someWeft.fault c).cause = c ∧ faultRoute ((ringFull world).ctxOf ((ringFull world).weft 0)) ((ringFull world).weft 0) (someWeft.fault c).cause = .supervisor ∧
      trapRingSlots ≤ (ringFull world).trapRing.length) := by decide +kernel

/-- R179: a route to the context with THVEC zero, one to a peer that is not registered, and a fault under a handler. -/
theorem witness_DelegationExceptions :
    (routeBits (delegMask ((delegated 4 0 0 0).ctx 1).deleg) cIllegal = 1 ∧ ((delegated 4 0 0 0).weft 0).thvec = 0) ∧
    (routeBits (delegMask ((delegated 8 0 4 0).ctx 1).deleg) cIllegal = 2 ∧ ((delegated 8 0 4 0).ctx 1).peer.getLsbD 63 = false) ∧
    ((delegated 4 0 4 1).weft 0).tstat.getLsbD 0 = true ∧ ((delegated 4 0 4 0).weft 0).tstat.getLsbD 0 = false ∧ (0 ≠ 1 ∧ 63 ≠ 1) := by decide +kernel

/-- R91, R407: 64 arguments, as many as there are scalar registers; a mask register other than k0. -/
theorem witness_WeftLaunch : (List.replicate 64 ((0 : Dword), (1 : BitVec 6))).length ≤ 64 ∧ 63 < 64 ∧ (7 : BitVec 3) ≠ 0 := by decide +kernel

/-- R29, R92, R113: the last thread, another register and another thread, k7. -/
theorem witness_RegisterReadsAndWrites : 31 < 32 ∧ ((127 : BitVec 7).toNat, 31) ≠ (127, 0) ∧ 62 ≠ (63 : BitVec 6).toNat ∧ (7 : BitVec 3) ≠ 0 ∧ (1 : BitVec 3) ≠ 7 := by decide +kernel

theorem calm_of {u : State} {pa n : Nat} (h : decide ((∀ l ∈ linesOf pa n, u.lineBad (l * 64) = false) ∧ (∀ l ∈ linesOf pa n, l ∉ u.l2Bad) ∧ (∀ p ∈ u.cores, p.2.upd = []) ∧
    (u.accs = [] ∧ u.contribs = []) ∧ u.ckpts = [] ∧ (∀ p ∈ u.wefts, p.2.flights = []) ∧ (∀ p ∈ u.ctxs, p.2.mboxes = [])) = true) : Calm u pa n := by
  obtain ⟨a, b, c, d, e, f, g⟩ := of_decide_eq_true h
  exact ⟨a, b, c, d, e, f, g⟩

/-- R308, R310: a write across a line's end, a buffered one, and a write of the last byte of HBM. -/
theorem witness_WritesReachMemory :
    (([1, 2] : List Byte) ≠ [] ∧ Calm world (pagePa + 63) 2 ∧ Calm world (hbmSize - 1) 1) ∧
    (∃ e, (oneWrite.core 0).wbuf[0]? = some e ∧ oneWrite.canPerform (oneWrite.core 0) 0 e = true ∧ e.data ≠ [] ∧
      Calm (oneWrite.setCore 0 { oneWrite.core 0 with wbuf := (oneWrite.core 0).wbuf.eraseIdx 0 }) e.pa e.data.length) :=
  ⟨⟨by decide, calm_of (by decide +kernel), calm_of (by decide +kernel)⟩, _, (Option.some_get (by decide +kernel)).symm, by decide +kernel, by decide +kernel, calm_of (by decide +kernel)⟩

/-- R202, R310: words of 4 and of 8 bytes, the last of HBM. -/
theorem witness_AtomicsAtHome : ∀ n ∈ [4, 8], (n = 4 ∨ n = 8) ∧ (hbmSize - n) % n = 0 ∧ Calm world (hbmSize - n) n := by
  intro n h
  have h : n = 4 ∨ n = 8 := by simpa using h
  rcases h with rfl | rfl <;> exact ⟨by decide, by decide, calm_of (by decide +kernel)⟩

/-- R452: a module without power. -/
theorem witness_PoweredOffStops : ({ world with power := { world.power with off := true } } : State).power.off = true := rfl

/-- R378: a step from the world with an event numbered. -/
theorem witness_StepKeepsInvariant :
    (coded (codeOf someAdd)).Inv ∧ ∃ t, step (coded (codeOf someAdd)) = .next t := ⟨⟨by decide +kernel, by unfold State.numbered; decide +kernel⟩, next_of (by decide +kernel)⟩

/-- R17 to R39: an instruction that the encodings express, and its bytes. -/
theorem witness_EncodeDecodeRoundTrip : someAdd.wf = true ∧ someLoad.wf = true := by decide +kernel
theorem witness_DecodedBytesAreEncodings : ∃ n, decodeBytes (codeOf someLoad) = .instr someLoad n := instr_of (by decide +kernel)
end Sys2Proof.Tests
end

section
/-! ## Instruction words as bytes (R4, R17 to R20) -/

namespace Sys2Proof

/-! ### Bit vectors joined from fields -/

/-- A bit vector is a join of two exactly when they are its two parts. The width of the join is left out of the pattern, so that
`simp` finds it where the widths are numerals. -/
@[simp] theorem append_eq_iff {v w : Nat} {a : BitVec v} {b : BitVec w} {x : BitVec (v + w)} :
    @Eq (no_index (BitVec (v + w))) (@HAppend.hAppend (BitVec v) (BitVec w) (no_index (BitVec (v + w))) _ a b) x ↔
      a = x.extractLsb' w v ∧ b = x.extractLsb' 0 w := by
  constructor
  · rintro rfl
    exact ⟨BitVec.extractLsb'_append_eq_left.symm, BitVec.extractLsb'_append_eq_right.symm⟩
  · rintro ⟨rfl, rfl⟩
    rw [BitVec.extractLsb'_append_extractLsb'_eq_extractLsb' (Nat.zero_add w).symm]
    simp

@[simp] theorem extractLsb'_extractLsb' {n : Nat} (x : BitVec n) {i j k l : Nat} (h : k + l ≤ j) :
    (x.extractLsb' i j).extractLsb' k l = x.extractLsb' (i + k) l := by
  apply BitVec.eq_of_getLsbD_eq
  intro m hm
  simp [Nat.add_assoc, hm, show k + m < j by omega]

@[simp] theorem ofBool_eq_extractLsb'_iff {n : Nat} {x : BitVec n} {b : Bool} {i : Nat} :
    BitVec.ofBool b = x.extractLsb' i 1 ↔ b = x.getLsbD i := by
  constructor
  · intro h
    simpa using congrArg (BitVec.getLsbD · 0) h
  · rintro rfl
    apply BitVec.eq_of_getLsbD_eq
    intro m hm
    simp [show m = 0 by omega]

/-! ### Words from bytes and back -/

theorem bytesNat_eq_leNat (l : List Byte) : bytesNat l = leNat l := by
  induction l with
  | nil => rfl
  | cons b t ih => rw [bytesNat, leNat, ih]

theorem natBytes_eq_natLe (n x : Nat) : natBytes n x = natLe n x := by
  induction n generalizing x with
  | zero => rfl
  | succ n ih => rw [natBytes, natLe, ih]

/-- The bytes of a word read back as the word. -/
theorem ofNat_bytesNat_natBytes {k w : Nat} (x : BitVec w) (h : w = 8 * k) :
    BitVec.ofNat w (bytesNat (natBytes k x.toNat)) = x := by
  subst h
  rw [bytesNat_eq_leNat, natBytes_eq_natLe, leNat_natLe, show 256 = 2 ^ 8 from rfl, ← pow_mul, Nat.mod_eq_of_lt x.isLt,
    BitVec.ofNat_toNat, BitVec.setWidth_eq]

theorem bytesNat_lt (l : List Byte) : bytesNat l < 2 ^ (8 * l.length) := by
  rw [bytesNat_eq_leNat, pow_mul, show 2 ^ 8 = 256 from rfl, ← natLe_leNat l, natLe_length, leNat_natLe]
  exact Nat.mod_lt _ (by positivity)

/-- A word read from bytes has those bytes. -/
theorem natBytes_ofNat_bytesNat {l : List Byte} {k w : Nat} (hl : l.length = k) (hw : w = 8 * k) :
    natBytes k (BitVec.ofNat w (bytesNat l)).toNat = l := by
  subst hl hw
  rw [BitVec.toNat_ofNat, Nat.mod_eq_of_lt (bytesNat_lt l), natBytes_eq_natLe, bytesNat_eq_leNat, natLe_leNat]

@[simp] theorem natBytes_length (n x : Nat) : (natBytes n x).length = n := by
  rw [natBytes_eq_natLe, natLe_length]

/-- The fields of word 0 and LEN make up its bits (R17). -/
theorem Word0.bits_eq_iff {w : Word0} {len : BitVec 2} {x : BitVec 64} :
    w.bits len = x ↔ w = Word0.ofBits x ∧ len = x.extractLsb' 0 2 := by
  cases w
  simp only [Word0.bits, Word0.ofBits, append_eq_iff, extractLsb'_extractLsb', ofBool_eq_extractLsb'_iff, Word0.mk.injEq,
    Nat.reduceAdd, Nat.reduceLeDiff]
  grind

/-- The fields of an extension word make up its bits (R19). -/
theorem Ext.bits_eq_iff {x : Ext} {v : BitVec 64} : x.bits = v ↔ x = Ext.ofBits v := by
  cases x
  simp only [Ext.bits, Ext.ofBits, append_eq_iff, extractLsb'_extractLsb', Ext.mk.injEq, Nat.reduceAdd, Nat.reduceLeDiff]
  grind

/-! ### The bytes of an encoding -/

/-- What the decoder reads from the bytes of an encoding is that encoding (R36, steps 3 to 6). -/
theorem decodeBytes_bytes {e : Enc} {i : Instr} (h : decode e = some i) (rest : List Byte) :
    decodeBytes (e.bytes ++ rest) = .instr i e.t.size := by
  obtain ⟨w, t⟩ := e
  have hw (len : BitVec 2) : Word0.ofBits (w.bits len) = w ∧ (w.bits len).extractLsb' 0 2 = len :=
    (Word0.bits_eq_iff.1 rfl).imp Eq.symm Eq.symm
  cases t with
  | none => simp [decodeBytes, Enc.bytes, ofNat_bytesNat_natBytes, Tail.len, Tail.size, hw, h]
  | imm v =>
    simp [decodeBytes, Enc.bytes, ofNat_bytesNat_natBytes, Tail.len, Tail.size, hw, h]
    omega
  | long v =>
    simp [decodeBytes, Enc.bytes, ofNat_bytesNat_natBytes, Tail.len, Tail.size, hw, h]
    omega

/-- The bytes that follow word 0 (R18). -/
def Tail.bytes : Tail → List Byte
  | .none => []
  | .imm v => natBytes 4 v.toNat
  | .long v => natBytes 8 v.toNat

theorem Enc.bytes_eq (e : Enc) : e.bytes = natBytes 8 (e.w.bits e.t.len).toNat ++ e.t.bytes := by
  obtain ⟨w, t⟩ := e
  cases t <;> rfl

/-- The bytes of an encoding whose word 0 was read from the front of a byte string, with LEN as its tail asks. -/
theorem Enc.bytes_ofBits {bs : List Byte} (t : Tail)
    (hlen : (BitVec.ofNat 64 (bytesNat (bs.take 8))).extractLsb' 0 2 = t.len) (h8 : 8 ≤ bs.length) :
    Enc.bytes ⟨Word0.ofBits (BitVec.ofNat 64 (bytesNat (bs.take 8))), t⟩ = bs.take 8 ++ t.bytes := by
  rw [Enc.bytes_eq, Word0.bits_eq_iff.2 ⟨rfl, hlen.symm⟩, natBytes_ofNat_bytesNat (by simp [h8]) rfl]

/-- Bytes that decode are the bytes of an encoding that decodes (R36, steps 3 to 6). -/
theorem exists_enc_of_decodeBytes {bs : List Byte} {i : Instr} {n : Nat} (h : decodeBytes bs = .instr i n) :
    ∃ e, decode e = some i ∧ n ≤ bs.length ∧ e.bytes = bs.take n := by
  simp only [decodeBytes] at h
  generalize hlen : (BitVec.ofNat 64 (bytesNat (bs.take 8))).extractLsb' 0 2 = len at h
  split at h
  · cases h
  split at h
  · cases h
  split at h
  case h_2 => cases h
  case h_1 h0 hn i' hd =>
    cases h
    refine ⟨_, hd, by omega, ?_⟩
    have hlt := len.isLt
    have front (t : Tail) (ht : len.toNat = t.len.toNat) :=
      Enc.bytes_ofBits t (hlen.trans (BitVec.eq_of_toNat_eq ht)) (by omega)
    split_ifs with h1 h2
    · rw [front .none h1, h1, Tail.bytes, List.append_nil]
    · rw [front (.imm _) h2, h2, Tail.bytes, natBytes_ofNat_bytesNat (by simp; omega) rfl, ← List.take_add]
    · have h3 : len.toNat = 3 := by omega
      rw [front (.long _) h3, h3, Tail.bytes, natBytes_ofNat_bytesNat (by simp; omega) rfl, ← List.take_add]

end Sys2Proof
end

section
/-! ## The fields of an encoding (R17, R19, R29 to R35) -/

namespace Sys2Proof

/-! ### Conditions -/

@[simp] theorem req_eq_some {c : Bool} {x : Unit} : req c = some x ↔ c = true := by
  cases c <;> simp [req]

/-! ### Registers and sources -/

theorem Reg.field_ofField : ∀ f : BitVec 8, (Reg.ofField f).field = f := by decide

theorem Reg.ofField_field (r : Reg) : Reg.ofField r.field = r := by
  cases r with
  | v n => revert n; decide
  | s n => revert n; decide
  | k n => revert n; decide
  | zero => rfl
  | lane => rfl
  | bad n => revert n; decide

theorem Reg.field_eq_iff {r : Reg} {f : BitVec 8} : r.field = f ↔ r = Reg.ofField f :=
  ⟨fun h => by rw [← h, Reg.ofField_field], fun h => by rw [h, Reg.field_ofField]⟩

@[simp] theorem Enc.field_eq_dst_iff {e : Enc} {r : Reg} : r.field = e.w.dst ↔ r = e.d := Reg.field_eq_iff

@[simp] theorem Enc.zero_eq_dst_iff {e : Enc} : 0#8 = e.w.dst ↔ e.noD = true := by
  rw [Enc.noD, beq_iff_eq]
  exact eq_comm

theorem Src.eq_ofField_iff {a : Src} {f : BitVec 8} {te : Bool} : a = .ofField f te ↔ a.reg.field = f ∧ a.te = te := by
  cases a
  simp [Src.ofField, Reg.field_eq_iff]

theorem Src.unused_eq_ofField_iff {f : BitVec 8} {te : Bool} : Src.unused = .ofField f te ↔ f = 0 ∧ te = false := by
  rw [Src.eq_ofField_iff, show Src.unused.reg.field = 0 from rfl, show Src.unused.te = false from rfl, eq_comm,
    @eq_comm _ false]

theorem Src.index_eq_ofField_iff {x f : BitVec 8} {te : Bool} : Src.index x = .ofField f te ↔ x = f ∧ te = false := by
  rw [Src.eq_ofField_iff, Src.index, Reg.field_ofField, @eq_comm _ false]

@[simp] theorem Src.ok_unused : Src.unused.ok = true := rfl
@[simp] theorem Src.ok_index (x : BitVec 8) : (Src.index x).ok = true := rfl

@[simp] theorem Enc.unused_eq_a_iff {e : Enc} : Src.unused = e.a ↔ e.noA = true := by
  simp [Enc.a, Enc.noA, Src.unused_eq_ofField_iff]
@[simp] theorem Enc.unused_eq_b_iff {e : Enc} : Src.unused = e.b ↔ e.noB = true := by
  simp [Enc.b, Enc.noB, Src.unused_eq_ofField_iff]
@[simp] theorem Enc.unused_eq_c_iff {e : Enc} : Src.unused = e.c ↔ e.noC = true := by
  simp [Enc.c, Enc.noC, Src.unused_eq_ofField_iff]
@[simp] theorem Enc.index_eq_a_iff {e : Enc} {x : BitVec 8} : Src.index x = e.a ↔ x = e.w.sa ∧ e.resA = true := by
  simp [Enc.a, Enc.resA, Src.index_eq_ofField_iff]
@[simp] theorem Enc.index_eq_c_iff {e : Enc} {x : BitVec 8} : Src.index x = e.c ↔ x = e.w.sc ∧ e.resC = true := by
  simp [Enc.c, Enc.resC, Src.index_eq_ofField_iff]
/-- A codec's table register: TE of SC is clear. -/
@[simp] theorem Enc.noTe_eq_c_iff {e : Enc} {r : Reg} : ⟨r, false⟩ = e.c ↔ r = e.c.reg ∧ e.resC = true := by
  simp [Enc.c, Enc.resC, Src.ofField, @eq_comm _ false]

@[simp] theorem Dec.slot_eq_some {f : BitVec 8} {k : BitVec 5} : Dec.slot f = some k ↔ Encode.slot k = f := by
  simp only [Dec.slot, Encode.slot, append_eq_iff, Option.bind_eq_bind, Option.bind_eq_some_iff, req_eq_some, beq_iff_eq]
  grind

/-! ### The parts of an encoding -/

/-- The fields of an encoding but for its MAJOR and the reserved bits. -/
structure Enc.Shows (e : Enc) (g : Guard) (mod d : BitVec 8) (a b c : Src) (t : Tail) : Prop where
  guard : g = e.guard
  mod : mod = e.w.mod
  dst : d = e.w.dst
  srcA : a = e.a
  srcB : b = e.b
  srcC : c = e.c
  tail : t = e.t

@[simp] theorem Enc.shows_iff {e : Enc} {g : Guard} {mod d : BitVec 8} {a b c : Src} {t : Tail} :
    e.Shows g mod d a b c t ↔
      g = e.guard ∧ mod = e.w.mod ∧ d = e.w.dst ∧ a = e.a ∧ b = e.b ∧ c = e.c ∧ t = e.t :=
  ⟨fun ⟨hg, hm, hd, ha, hb, hc, ht⟩ => ⟨hg, hm, hd, ha, hb, hc, ht⟩,
    fun ⟨hg, hm, hd, ha, hb, hc, ht⟩ => ⟨hg, hm, hd, ha, hb, hc, ht⟩⟩

/-- An encoding is made of its MAJOR and the fields it shows. -/
theorem Encode.make_eq_iff {e : Enc} {maj : Nat} {g : Guard} {mod d : BitVec 8} {a b c : Src} {t : Tail} :
    Encode.make maj g mod d a b c t = e ↔ e.w.rsv = 0 ∧ BitVec.ofNat 8 maj = e.w.major ∧ e.Shows g mod d a b c t := by
  obtain ⟨w, t'⟩ := e
  cases w
  cases g
  simp only [Encode.make, Enc.shows_iff, Enc.mk.injEq, Word0.mk.injEq, append_eq_iff, ofBool_eq_extractLsb'_iff, Enc.guard,
    Guard.mk.injEq, Enc.a, Enc.b, Enc.c, Src.eq_ofField_iff, BitVec.getLsbD_extractLsb']
  simp
  grind

theorem Enc.Shows.make_eq {e : Enc} {maj : Nat} {g : Guard} {mod d : BitVec 8} {a b c : Src} {t : Tail}
    (h : e.Shows g mod d a b c t) (hr : e.w.rsv = 0) (hm : e.w.major.toNat = maj) : Encode.make maj g mod d a b c t = e :=
  Encode.make_eq_iff.2 ⟨hr, by subst hm; simp, h⟩

theorem Encode.shows_make (maj : Nat) (g : Guard) (mod d : BitVec 8) (a b c : Src) (t : Tail) :
    (Encode.make maj g mod d a b c t).Shows g mod d a b c t := (Encode.make_eq_iff.1 rfl).2.2

/-! ### Tails -/

@[simp] theorem Dec.only64_eq_some {e : Enc} {x : Unit} : Dec.only64 e = some x ↔ Tail.none = e.t := by
  rw [Dec.only64, req_eq_some, beq_iff_eq, eq_comm]

@[simp] theorem Dec.imm_eq_some {e : Enc} {v : BitVec 32} : Dec.imm e = some v ↔ Tail.imm v = e.t := by
  unfold Dec.imm
  cases e.t <;> simp [@eq_comm _ v]

@[simp] theorem Dec.addend_eq_some {e : Enc} {v : Option (BitVec 32)} : Dec.addend e = some v ↔ Encode.addend v = e.t := by
  unfold Dec.addend
  cases e.t <;> cases v <;> simp [Encode.addend, @eq_comm _ (_ : BitVec 32)]

@[simp] theorem Dec.srcB_eq_some {e : Enc} {b : SrcI} :
    Dec.srcB e = some b ↔ WF.srcI b = true ∧ Encode.srcOf b = e.b ∧ Encode.tailOf b = e.t := by
  unfold Dec.srcB
  cases e.t <;> cases b <;> simp [Encode.srcOf, Encode.tailOf, WF.srcI, Option.bind_eq_some_iff]
  all_goals grind

theorem Dec.ext_eq_some {e : Enc} {x : Ext} : Dec.ext e = some x ↔ Tail.long x.bits = e.t := by
  unfold Dec.ext
  cases e.t <;> simp [Ext.bits_eq_iff, @eq_comm _ x]


@[simp] theorem Enc.m_eq (e : Enc) (n k : Nat) : e.m n k = e.w.mod.extractLsb' n k := rfl

/-! ### Codes of the MOD sub-fields -/

@[simp] theorem RMode.code_eq_iff {r : RMode} {x : BitVec 3} : r.code = x ↔ RMode.ofCode x = some r := by
  cases r <;> revert x <;> decide
@[simp] theorem FWidth.code_eq_iff {w : FWidth} {x : BitVec 2} : w.code = x ↔ w = FWidth.ofCode x := by
  cases w <;> revert x <;> decide
@[simp] theorem Scope.code_eq_iff {s : Scope} {x : BitVec 3} : s.code = x ↔ Scope.ofCode x = some s := by
  cases s <;> revert x <;> decide
@[simp] theorem Sem.code_eq_iff {s : Sem} {x : BitVec 2} : s.code = x ↔ s = Sem.ofCode x := by
  cases s <;> revert x <;> decide
@[simp] theorem ICond.code_eq_iff {c : ICond} {x : BitVec 3} : c.code = x ↔ ICond.ofCode x = some c := by
  cases c <;> revert x <;> decide
@[simp] theorem FCond.code_eq_iff {c : FCond} {x : BitVec 3} : c.code = x ↔ c = FCond.ofCode x := by
  cases c <;> revert x <;> decide
@[simp] theorem FoldOp.code_eq_iff {o : FoldOp} {x : BitVec 3} : o.code = x ↔ FoldOp.ofCode x = some o := by
  cases o <;> revert x <;> decide
@[simp] theorem FoldTy.code_eq_iff {t : FoldTy} {x : BitVec 3} : t.code = x ↔ FoldTy.ofCode x = some t := by
  cases t <;> revert x <;> decide
@[simp] theorem XchMode.code_eq_iff {m : XchMode} {x : BitVec 2} : m.code = x ↔ m = XchMode.ofCode x := by
  cases m <;> revert x <;> decide
@[simp] theorem VoteMode.code_eq_iff {m : VoteMode} {x : BitVec 8} : m.code = x ↔ VoteMode.ofCode x = some m := by
  cases m <;> revert x <;> decide
@[simp] theorem AtomOp.code_eq_iff {o : AtomOp} {x : BitVec 4} : o.code = x ↔ AtomOp.ofCode x = some o := by
  cases o <;> revert x <;> decide
@[simp] theorem Merge.code_eq_iff {m : Merge} {x : BitVec 2} : Encode.mergeCode m = x ↔ Dec.mergeOf x = some m := by
  cases m <;> revert x <;> decide

/-- A number below `n` is its own code in a field wide enough for it. -/
theorem ofNat_val_eq_iff {n w : Nat} (h : n ≤ 2 ^ w) {k : Fin n} {x : BitVec w} :
    BitVec.ofNat w k.val = x ↔ finOf n x.toNat = some k := by
  have hk : k.val < 2 ^ w := by omega
  rw [finOf]
  constructor
  · rintro rfl
    simp [Nat.mod_eq_of_lt hk]
  · intro hx
    split at hx
    · cases hx
      simp
    · cases hx

@[simp] theorem Dec.rmode_eq_some {any : Bool} {x : BitVec 3} {r : RMode} :
    Dec.rmode any x = some r ↔ RMode.ofCode x = some r ∧ (any || r == .fpctl) = true := by
  simp [Dec.rmode, Option.bind_eq_some_iff]

/-- `mod1` -/
@[simp] theorem Encode.mod1_eq_iff {e : Enc} {b : Bool} : Encode.mod1 b = e.w.mod ↔ e.m 1 7 = 0 ∧ b = e.w.mod.getLsbD 0 := by
  simp [Encode.mod1]
  grind
@[simp] theorem Encode.optScope_eq (s : Option Scope) : Encode.optScope s = s.elim 0 Scope.code ++ BitVec.ofBool s.isSome := by
  cases s <;> rfl
@[simp] theorem Encode.optLocal_eq (s : Option Scope) :
    Encode.optLocal s = s.elim 0 (fun x => x.code.extractLsb' 0 2) ++ BitVec.ofBool s.isSome := by
  cases s <;> rfl
@[simp] theorem Dec.optScope_eq_some {on : Bool} {x : BitVec 3} {s : Option Scope} :
    Dec.optScope on x = some s ↔ s.isSome = on ∧ s.elim 0 Scope.code = x := by
  rcases on with _ | _ <;> rcases s with _ | s <;> simp [Dec.optScope, Option.bind_eq_some_iff, @eq_comm _ x]
@[simp] theorem Dec.optLocal_eq_some {on : Bool} {x : BitVec 2} {s : Option Scope} :
    Dec.optLocal on x = some s ↔ WF.optLocal s = true ∧ s.isSome = on ∧ s.elim 0 (fun x => x.code.extractLsb' 0 2) = x := by
  rcases s with _ | s <;> [skip; cases s] <;> revert x on <;> decide
@[simp] theorem Dec.boltX_eq_some {x : Bool} {e : Enc} {b : Option Src} :
    Dec.boltX x e = some b ↔ WF.optSrc b = true ∧ b.isSome = x ∧ Encode.boltX b = e.a := by
  cases x <;> cases b <;> simp [Dec.boltX, WF.optSrc, Encode.boltX, Option.bind_eq_some_iff]
  grind
@[simp] theorem Dec.arrOf_eq_some {arr all : Bool} {o : Option Bool} :
    Dec.arrOf arr all = some o ↔ o.isSome = arr ∧ o.getD false = all := by
  revert o; revert arr all; decide

@[simp] theorem Dec.atomBase_eq_some {e : Enc} {b : AtomBase} :
    Dec.atomBase e = some b ↔ (Encode.baseSrc b).ok = true ∧ Encode.space b = e.m 6 2 ∧ Encode.baseSrc b = e.a := by
  unfold Dec.atomBase
  generalize e.m 6 2 = x
  obtain rfl | rfl | rfl | rfl : x = 0 ∨ x = 1 ∨ x = 2 ∨ x = 3 := by revert x; decide
  all_goals cases b <;> simp [Encode.space, Encode.baseSrc, Option.bind_eq_some_iff]
  all_goals grind

@[simp] theorem Dec.atomExt_eq_some {e : Enc} {x : Option AtomExt} :
    Dec.atomExt e = some x ↔ Encode.atomTail x = e.t := by
  unfold Dec.atomExt
  cases e.t <;> rcases x with _ | ⟨ord, scope, add⟩ <;> simp [Encode.atomTail, Option.bind_eq_some_iff]
  grind
@[simp] theorem Encode.xscope_eq (on : Bool) : Encode.xscope on = (if on then (4 : BitVec 3) else 0) ++ BitVec.ofBool on := by
  cases on <;> rfl

/-- MOD bits 6:1, of which BAREXPECT has given bit 1 a meaning. -/
theorem mod6_eq_zero_iff (x : BitVec 8) : x.extractLsb' 1 6 = 0 ↔ x.getLsbD 1 = false ∧ x.extractLsb' 2 5 = 0 := by
  revert x
  decide

/-- MOD bits 6:0, of which BAREXPECT has given bits 1 and 0 a meaning. -/
theorem mod7_eq_zero_iff (x : BitVec 8) :
    x.extractLsb' 0 7 = 0 ↔ x.getLsbD 0 = false ∧ x.getLsbD 1 = false ∧ x.extractLsb' 2 5 = 0 := by
  revert x
  decide

@[simp] theorem Encode.barMod_eq_iff {e : Enc} {b0 b1 x : Bool} : Encode.barMod b0 b1 x = e.w.mod ↔
    b0 = e.w.mod.getLsbD 0 ∧ b1 = e.w.mod.getLsbD 1 ∧ e.m 2 5 = 0 ∧ x = e.w.mod.getLsbD 7 := by
  simp [Encode.barMod]
  grind

/-! ### The extension word (R19) -/

@[simp] theorem Dec.unused_eq_xa_iff {x : Ext} : Src.unused = Dec.xa x ↔ x.xa = 0 ∧ x.xte.getLsbD 0 = false := 
  Src.unused_eq_ofField_iff
@[simp] theorem Dec.unused_eq_xb_iff {x : Ext} : Src.unused = Dec.xb x ↔ x.xb = 0 ∧ x.xte.getLsbD 1 = false := 
  Src.unused_eq_ofField_iff
@[simp] theorem Dec.index_eq_xa_iff {x : Ext} {f : BitVec 8} : Src.index f = Dec.xa x ↔ f = x.xa ∧ x.xte.getLsbD 0 = false :=
  Src.index_eq_ofField_iff

theorem Encode.extAB_eq_iff {e : Enc} {a b : Src} {ximm : BitVec 28} :
    Encode.extAB a b ximm = e.t ↔ ∃ x, Dec.ext e = some x ∧ a = Dec.xa x ∧ b = Dec.xb x ∧ x.xc = 0 ∧ x.xd = 0 ∧
      x.xte.extractLsb' 2 2 = 0 ∧ ximm = x.ximm := by
  unfold Encode.extAB
  rw [← Dec.ext_eq_some]
  cases Dec.ext e with
  | none => simp
  | some x =>
    cases x
    simp [Dec.xa, Dec.xb, Src.eq_ofField_iff]
    grind

/-- The TE bits of the extension word: those of XA and XB, and the two above them. -/
theorem xte_eq_zero_iff (x : BitVec 4) :
    x = 0 ↔ x.getLsbD 0 = false ∧ x.getLsbD 1 = false ∧ x.extractLsb' 2 2 = 0 := by
  revert x
  decide

theorem xte3_eq_zero_iff (x : BitVec 4) : x.extractLsb' 1 3 = 0 ↔ x.getLsbD 1 = false ∧ x.extractLsb' 2 2 = 0 := by
  revert x
  decide

theorem Encode.ext0_eq_iff {e : Enc} {ximm : BitVec 28} :
    Encode.ext0 ximm = e.t ↔ ∃ x, Dec.ext e = some x ∧ Dec.noX x = true ∧ ximm = x.ximm := by
  rw [Encode.ext0, Encode.extAB_eq_iff]
  cases Dec.ext e with
  | none => simp
  | some x =>
    have := xte_eq_zero_iff x.xte
    simp [Dec.noX]
    grind
@[simp] theorem Encode.imod_eq_iff {e : Enc} {m : IMod} : Encode.imod m = e.w.mod ↔ e.m 3 5 = 0 ∧ m = Dec.imod e := by
  cases m
  simp [Encode.imod, Dec.imod]
  grind
@[simp] theorem Encode.fmod_eq_iff {e : Enc} {w : FWidth} {r : RMode} :
    Encode.fmod w r = e.w.mod ↔ e.m 5 3 = 0 ∧ RMode.ofCode (e.m 2 3) = some r ∧ w = FWidth.ofCode (e.m 0 2) := by
  simp [Encode.fmod]
  grind

end Sys2Proof
end

section
/-! ## What each decoder reads (the encoding tables)

One lemma per decoder: it gives `o` exactly when `o` is well-formed and the encoding shows the fields that the encoder writes for
`o`. On both sides stand the same equations, one for each field of the encoding: the laws of the fields above bring the encoder's
side to them, and what is left is that two conjunctions of them agree. -/

namespace Sys2Proof

/-! ### Integer and bitwise shapes (R34) -/

theorem Dec.iun_eq_some {e : Enc} {un sat : Bool} {o : IUn} : Dec.iun un sat e = some o ↔
    WF.iun un sat o = true ∧ e.Shows o.g (Encode.imod o.m) o.d.field o.a .unused .unused .none := by
  cases o
  simp [Dec.iun, WF.iun, Option.bind_eq_some_iff]
  grind

theorem Dec.ibin_eq_some {e : Enc} {un sat : Bool} {o : IBin} : Dec.ibin un sat e = some o ↔
    WF.ibin un sat o = true ∧
      e.Shows o.g (Encode.imod o.m) o.d.field o.a (Encode.srcOf o.b) .unused (Encode.tailOf o.b) := by
  cases o
  simp [Dec.ibin, WF.ibin, Option.bind_eq_some_iff]
  grind

theorem Dec.itri_eq_some {e : Enc} {un sat : Bool} {o : ITri} : Dec.itri un sat e = some o ↔
    WF.itri un sat o = true ∧ e.Shows o.g (Encode.imod o.m) o.d.field o.a (Encode.srcOf o.b) o.c (Encode.tailOf o.b) := by
  cases o
  simp [Dec.itri, WF.itri, Option.bind_eq_some_iff]
  grind

theorem Dec.icmp_eq_some {e : Enc} {o : ICmpArgs} : Dec.icmp e = some o ↔
    WF.icmp o = true ∧
      e.Shows o.g ((0 : BitVec 2) ++ o.cond.code ++ (0 : BitVec 1) ++ Encode.bit o.un ++ Encode.bit o.w32) o.d.field o.a
        (Encode.srcOf o.b) .unused (Encode.tailOf o.b) := by
  cases o
  simp [Dec.icmp, WF.icmp, Option.bind_eq_some_iff]
  grind

theorem Dec.lea_eq_some {e : Enc} {o : LeaArgs} : Dec.lea e = some o ↔
    (o.g.ok true && o.a.ok && WF.srcI o.b) = true ∧
      e.Shows o.g ((0 : BitVec 2) ++ o.n ++ (0 : BitVec 1) ++ Encode.bit o.un ++ (0 : BitVec 1)) o.d.field o.a
        (Encode.srcOf o.b) .unused (Encode.tailOf o.b) := by
  cases o
  simp [Dec.lea, Option.bind_eq_some_iff]
  grind

theorem Dec.lun_eq_some {e : Enc} {uni : Bool} {o : LUn} : Dec.lun uni e = some o ↔
    WF.lun uni o = true ∧ e.Shows o.g 0 o.d.field o.a .unused .unused .none := by
  cases o
  simp [Dec.lun, WF.lun, Option.bind_eq_some_iff]
  grind

theorem Dec.lbin_eq_some {e : Enc} {o : LBin} : Dec.lbin e = some o ↔
    WF.lbin o = true ∧ e.Shows o.g 0 o.d.field o.a (Encode.srcOf o.b) .unused (Encode.tailOf o.b) := by
  cases o
  simp [Dec.lbin, WF.lbin, Option.bind_eq_some_iff]
  grind

/-! ### Floating-point shapes -/

theorem Dec.fun1_eq_some {e : Enc} {any : Bool} {o : FUn} : Dec.fun1 any e = some o ↔
    WF.fun1 any o = true ∧ e.Shows o.g (Encode.fmod o.w o.r) o.d.field o.a .unused .unused .none := by
  cases o
  simp [Dec.fun1, WF.fun1, Option.bind_eq_some_iff]
  grind

theorem Dec.fbin_eq_some {e : Enc} {o : FBin} : Dec.fbin e = some o ↔
    WF.fbin o = true ∧
      e.Shows o.g (Encode.fmod o.w o.r) o.d.field o.a (Encode.srcOf o.b) .unused (Encode.tailOf o.b) := by
  cases o
  simp [Dec.fbin, WF.fbin, Option.bind_eq_some_iff]
  grind

theorem Dec.fscale_eq_some {e : Enc} {o : FBin} : Dec.fscale e = some o ↔
    (o.g.ok true && o.a.ok && WF.srcI o.b) = true ∧
      e.Shows o.g (Encode.fmod o.w o.r) o.d.field o.a (Encode.srcOf o.b) .unused (Encode.tailOf o.b) := by
  cases o
  simp [Dec.fscale, Option.bind_eq_some_iff]
  grind

theorem Dec.ftri_eq_some {e : Enc} {o : FTri} : Dec.ftri e = some o ↔
    WF.ftri o = true ∧ e.Shows o.g (Encode.fmod o.w o.r) o.d.field o.a (Encode.srcOf o.b) o.c (Encode.tailOf o.b) := by
  cases o
  simp [Dec.ftri, WF.ftri, Option.bind_eq_some_iff]
  grind

theorem Dec.fminmax_eq_some {e : Enc} {o : FMinMaxArgs} : Dec.fminmax e = some o ↔
    WF.fminmax o = true ∧
      e.Shows o.g ((0 : BitVec 2) ++ Encode.bit o.nan ++ (0 : BitVec 3) ++ o.w.code) o.d.field o.a (Encode.srcOf o.b) .unused
        (Encode.tailOf o.b) := by
  cases o
  simp [Dec.fminmax, WF.fminmax, Option.bind_eq_some_iff]
  grind

theorem Dec.fcmp_eq_some {e : Enc} {o : FCmpArgs} : Dec.fcmp e = some o ↔
    WF.fcmp o = true ∧
      e.Shows o.g (o.cond.code ++ (0 : BitVec 3) ++ o.w.code) o.d.field o.a (Encode.srcOf o.b) .unused (Encode.tailOf o.b) := by
  cases o
  simp [Dec.fcmp, WF.fcmp, Option.bind_eq_some_iff]
  grind

theorem Dec.pbin_eq_some {e : Enc} {o : FBin} : Dec.pbin e = some o ↔
    WF.pbin o = true ∧
      e.Shows o.g (Encode.fmod o.w o.r) o.d.field o.a (Encode.srcOf o.b) .unused (Encode.tailOf o.b) := by
  obtain ⟨g, w, r, d, a, b⟩ := o
  cases b <;> simp [Dec.pbin, WF.pbin, WF.regB, Encode.srcOf, Encode.tailOf, Option.bind_eq_some_iff]
  grind

theorem Dec.ptri_eq_some {e : Enc} {o : FTri} : Dec.ptri e = some o ↔
    WF.ptri o = true ∧ e.Shows o.g (Encode.fmod o.w o.r) o.d.field o.a (Encode.srcOf o.b) o.c (Encode.tailOf o.b) := by
  obtain ⟨g, w, r, d, a, b, c⟩ := o
  cases b <;> simp [Dec.ptri, WF.ptri, WF.regB, Encode.srcOf, Encode.tailOf, Option.bind_eq_some_iff]
  grind

theorem Dec.dot_eq_some {e : Enc} {any : Bool} {o : DotArgs} : Dec.dot any e = some o ↔
    WF.dot any o = true ∧ e.Shows o.g ((0 : BitVec 3) ++ o.r.code ++ (0 : BitVec 2)) o.d.field o.a o.b o.c .none := by
  cases o
  simp [Dec.dot, WF.dot, Option.bind_eq_some_iff]
  grind

/-! ### Conversion and move shapes -/

theorem Dec.cvt_eq_some {e : Enc} {o : CvtArgs} : Dec.cvt e = some o ↔
    (o.g.ok true && o.a.ok) = true ∧
      e.Shows o.g (Encode.bit o.x ++ o.r.code ++ o.tgt) o.d.field o.a .unused .unused .none := by
  cases o
  simp [Dec.cvt, Option.bind_eq_some_iff]
  grind

theorem Dec.pack_eq_some {e : Enc} {o : PackArgs} : Dec.pack e = some o ↔
    (o.g.ok true && o.a.ok && o.b.ok) = true ∧ e.Shows o.g ((0 : BitVec 4) ++ o.e) o.d.field o.a o.b .unused .none := by
  cases o
  simp [Dec.pack, Option.bind_eq_some_iff]
  grind

theorem Dec.unpack_eq_some {e : Enc} {o : UnpackArgs} : Dec.unpack e = some o ↔
    (o.g.ok true && o.a.ok) = true ∧ e.Shows o.g ((0 : BitVec 4) ++ o.e) o.d.field o.a .unused .unused .none := by
  cases o
  simp [Dec.unpack, Option.bind_eq_some_iff]
  grind

theorem Dec.settag_eq_some {e : Enc} {o : SettagArgs} : Dec.settag e = some o ↔
    (o.g.ok true && tagValid o.tag && o.a.ok) = true ∧
      e.Shows o.g ((0 : BitVec 2) ++ o.tag) o.d.field o.a .unused .unused .none := by
  cases o
  simp [Dec.settag, Option.bind_eq_some_iff]
  grind

theorem Dec.cvtk_eq_some {e : Enc} {o : CvtkArgs} : Dec.cvtk e = some o ↔
    (o.g.ok true && o.k.ok) = true ∧ e.Shows o.g (Encode.mod1 o.all) o.d.field o.k .unused .unused .none := by
  cases o
  simp [Dec.cvtk, Option.bind_eq_some_iff]
  grind

theorem Dec.sel_eq_some {e : Enc} {o : SelArgs} : Dec.sel e = some o ↔
    (o.g.ok true && o.a.ok && o.b.ok && o.k.ok) = true ∧ e.Shows o.g 0 o.d.field o.a o.b o.k .none := by
  cases o
  simp [Dec.sel, Option.bind_eq_some_iff]
  grind

theorem Dec.bcast_eq_some {e : Enc} {o : BcastArgs} : Dec.bcast e = some o ↔
    (WF.weft o.g && o.a.ok && o.b.ok) = true ∧ e.Shows o.g 0 o.d.field o.a o.b .unused .none := by
  cases o
  simp [Dec.bcast, WF.weft, Option.bind_eq_some_iff]
  grind

/-! ### Mask and cross-lane shapes -/

theorem Dec.kbin_eq_some {e : Enc} {o : KBin} : Dec.kbin e = some o ↔
    WF.kbin o = true ∧ e.Shows o.g 0 o.d.field o.a o.b .unused .none := by
  cases o
  simp [Dec.kbin, WF.kbin, Option.bind_eq_some_iff]
  grind

theorem Dec.kun_eq_some {e : Enc} {o : KUn} : Dec.kun e = some o ↔
    (WF.weft o.g && o.a.ok) = true ∧ e.Shows o.g 0 o.d.field o.a .unused .unused .none := by
  cases o
  simp [Dec.kun, WF.weft, Option.bind_eq_some_iff]
  grind

theorem Dec.kpopc_eq_some {e : Enc} {o : KpopcArgs} : Dec.kpopc e = some o ↔
    (WF.weft o.g && o.k.ok) = true ∧ e.Shows o.g (Encode.mod1 o.live) o.d.field o.k .unused .unused .none := by
  cases o
  simp [Dec.kpopc, WF.weft, Option.bind_eq_some_iff]
  grind

theorem Dec.vote_eq_some {e : Enc} {o : VoteArgs} : Dec.vote e = some o ↔
    (WF.weft o.g && o.a.ok) = true ∧ e.Shows o.g o.mode.code o.d.field o.a .unused .unused .none := by
  cases o
  simp [Dec.vote, WF.weft, Option.bind_eq_some_iff]
  grind

theorem Dec.lxch_eq_some {e : Enc} {o : LxchArgs} : Dec.lxch e = some o ↔
    (WF.weft o.g && o.a.ok && WF.srcI o.b && Dec.lxchImmOk o.b) = true ∧
      e.Shows o.g (o.flag ++ BitVec.ofNat 3 o.grp.val ++ o.mode.code) o.d.field o.a (Encode.srcOf o.b) .unused
        (Encode.tailOf o.b) := by
  cases o
  simp [Dec.lxch, WF.weft, ofNat_val_eq_iff, Option.bind_eq_some_iff]
  grind

theorem Dec.scan_eq_some {e : Enc} {o : ScanArgs} : Dec.scan e = some o ↔
    (WF.weft o.g && foldOk o.op o.ty && o.a.ok) = true ∧
      e.Shows o.g (Encode.fold o.op o.exc o.ty) o.d.field o.a .unused .unused .none := by
  cases o
  simp [Dec.scan, WF.weft, Encode.fold, Option.bind_eq_some_iff]
  grind

theorem Dec.reduce_eq_some {e : Enc} {o : ReduceArgs} : Dec.reduce e = some o ↔
    (WF.weft o.g && foldOk o.op o.ty && o.a.ok) = true ∧
      e.Shows o.g (Encode.fold o.op false o.ty) o.d.field o.a .unused .unused .none := by
  cases o
  simp [Dec.reduce, WF.weft, Encode.fold, Option.bind_eq_some_iff]
  grind

theorem Dec.matchLanes_eq_some {e : Enc} {o : MatchArgs} : Dec.matchLanes e = some o ↔
    (WF.weft o.g && o.a.ok) = true ∧ e.Shows o.g (Encode.mod1 o.all) o.d.field o.a .unused .unused .none := by
  cases o
  simp [Dec.matchLanes, WF.weft, Option.bind_eq_some_iff]
  grind

theorem Dec.elect_eq_some {e : Enc} {o : ElectArgs} : Dec.elect e = some o ↔
    WF.weft o.g = true ∧ e.Shows o.g 0 o.d.field .unused .unused .unused .none := by
  cases o
  simp [Dec.elect, WF.weft, Option.bind_eq_some_iff]
  grind

theorem Dec.compact_eq_some {e : Enc} {o : CompactArgs} : Dec.compact e = some o ↔
    (WF.weft o.g && o.a.ok && o.k.ok) = true ∧ e.Shows o.g 0 o.d.field o.a o.k .unused .none := by
  cases o
  simp [Dec.compact, WF.weft, Option.bind_eq_some_iff]
  grind

/-! ### Control shapes -/

theorem Dec.bra_eq_some {e : Enc} {o : BraArgs} : Dec.bra e = some o ↔
    WF.weft o.g = true ∧ e.Shows o.g o.tag 0 .unused .unused .unused (.imm o.off) := by
  cases o
  simp [Dec.bra, WF.weft, Option.bind_eq_some_iff]
  grind

theorem Dec.brx_eq_some {e : Enc} {o : BrxArgs} : Dec.brx e = some o ↔
    (WF.weft o.g && o.a.ok) = true ∧ e.Shows o.g o.tag 0 o.a .unused .unused (.imm o.off) := by
  cases o
  simp [Dec.brx, WF.weft, Option.bind_eq_some_iff]
  grind

theorem Dec.ret_eq_some {e : Enc} {o : RetArgs} : Dec.ret e = some o ↔
    (o.g.plain && o.a.ok) = true ∧ e.Shows o.g 0 0 o.a .unused .unused .none := by
  cases o
  simp [Dec.ret, Option.bind_eq_some_iff]
  grind

theorem Dec.join_eq_some {e : Enc} {o : JoinArgs} : Dec.join e = some o ↔
    o.g.plain = true ∧ e.Shows o.g o.tag 0 .unused .unused .unused .none := by
  cases o
  simp [Dec.join, Option.bind_eq_some_iff]
  grind

theorem Dec.bare_eq_some {e : Enc} {plain : Bool} {o : PlainArgs} : Dec.bare plain e = some o ↔
    (if plain then o.g.plain else WF.weft o.g) = true ∧ e.Shows o.g 0 0 .unused .unused .unused .none := by
  cases o
  simp [Dec.bare, WF.weft, Option.bind_eq_some_iff]
  grind

theorem Dec.code_eq_some {e : Enc} {o : CodeArgs} : Dec.code e = some o ↔
    WF.weft o.g = true ∧ e.Shows o.g 0 0 .unused .unused .unused (Encode.addend o.code) := by
  cases o
  simp [Dec.code, WF.weft, Option.bind_eq_some_iff]
  grind

/-! ### Codec shapes -/

theorem Dec.dec_eq_some {e : Enc} {o : DecArgs} : Dec.dec e = some o ↔
    (WF.weft o.g && o.a.ok) = true ∧ e.Shows o.g (Encode.mod1 o.i32) o.d.field o.a .unused ⟨o.c, false⟩ .none := by
  cases o
  simp [Dec.dec, WF.weft, Option.bind_eq_some_iff]
  grind

theorem Dec.decd_eq_some {e : Enc} {o : DecdArgs} : Dec.decd e = some o ↔
    (WF.weft o.g && o.a.ok && o.b.ok) = true ∧ e.Shows o.g (Encode.mod1 o.i32) o.d.field o.a o.b ⟨o.c, false⟩ .none := by
  cases o
  simp [Dec.decd, WF.weft, Option.bind_eq_some_iff]
  grind

theorem Dec.decs_eq_some {e : Enc} {o : DecsArgs} : Dec.decs e = some o ↔
    (WF.weft o.g && o.a.ok && o.b.ok) = true ∧ e.Shows o.g 0 o.d.field o.a o.b ⟨o.c, false⟩ .none := by
  cases o
  simp [Dec.decs, WF.weft, Option.bind_eq_some_iff]
  grind

/-! ### Memory shapes -/

theorem Dec.ld_eq_some {e : Enc} {o : LdArgs} : Dec.ld e = some o ↔
    (WF.weft o.g && o.off.ok) = true ∧
      e.Shows o.g (Encode.optScope o.acq ++ BitVec.ofNat 4 o.fmt.val) o.d.field (.index o.br) o.off .unused
        (Encode.addend o.add) := by
  cases o
  simp [Dec.ld, WF.weft, ofNat_val_eq_iff, Option.bind_eq_some_iff]
  grind

theorem Dec.st_eq_some {e : Enc} {o : StArgs} : Dec.st e = some o ↔
    (WF.weft o.g && o.off.ok && o.data.ok) = true ∧
      e.Shows o.g (Encode.optScope o.rel ++ Encode.bit o.sat ++ o.r.code) 0 (.index o.br) o.off o.data (Encode.addend o.add) := by
  cases o
  simp [Dec.st, WF.weft, Option.bind_eq_some_iff]
  grind

theorem Dec.lds_eq_some {e : Enc} {o : LdsArgs} : Dec.lds e = some o ↔
    (WF.weft o.g && WF.optLocal o.acq && WF.optSrc o.bolt && o.off.ok) = true ∧
      e.Shows o.g (Encode.bit o.bolt.isSome ++ Encode.optLocal o.acq ++ BitVec.ofNat 4 o.kind.val) o.d.field
        (Encode.boltX o.bolt) o.off .unused (Encode.addend o.add) := by
  cases o
  simp [Dec.lds, WF.weft, ofNat_val_eq_iff, Option.bind_eq_some_iff]
  grind

theorem Dec.sts_eq_some {e : Enc} {o : StsArgs} : Dec.sts e = some o ↔
    (WF.weft o.g && WF.optLocal o.rel && WF.optSrc o.bolt && o.off.ok && o.data.ok) = true ∧
      e.Shows o.g (Encode.bit o.bolt.isSome ++ Encode.optLocal o.rel ++ (0 : BitVec 2) ++ o.size) 0
        (Encode.boltX o.bolt) o.off o.data (Encode.addend o.add) := by
  cases o
  simp [Dec.sts, WF.weft, Option.bind_eq_some_iff]
  grind

theorem Dec.ldv_eq_some {e : Enc} {o : LdvArgs} : Dec.ldv e = some o ↔
    (WF.weft o.g && WF.optLocal o.acq && o.off.ok) = true ∧
      e.Shows o.g ((0 : BitVec 1) ++ Encode.optLocal o.acq ++ BitVec.ofNat 4 o.kind.val) o.d.field .unused o.off .unused
        (Encode.addend o.add) := by
  cases o
  simp [Dec.ldv, WF.weft, ofNat_val_eq_iff, Option.bind_eq_some_iff]
  grind

theorem Dec.stv_eq_some {e : Enc} {o : StvArgs} : Dec.stv e = some o ↔
    (WF.weft o.g && WF.optLocal o.rel && o.off.ok && o.data.ok) = true ∧
      e.Shows o.g ((0 : BitVec 1) ++ Encode.optLocal o.rel ++ (0 : BitVec 2) ++ o.size) 0 .unused o.off o.data
        (Encode.addend o.add) := by
  cases o
  simp [Dec.stv, WF.weft, Option.bind_eq_some_iff]
  grind

theorem Dec.atom_eq_some {e : Enc} {o : AtomArgs} : Dec.atom e = some o ↔
    (WF.weft o.g && (Encode.baseSrc o.base).ok && Dec.atomExtOk o.op o.sem o.base o.ext && o.off.ok && o.c.ok) = true ∧
      e.Shows o.g (Encode.space o.base ++ o.sem.code ++ o.op.code) o.d.field (Encode.baseSrc o.base) o.off o.c
        (Encode.atomTail o.ext) := by
  cases o
  simp [Dec.atom, WF.weft, Option.bind_eq_some_iff]
  grind

theorem Dec.red_eq_some {e : Enc} {o : RedArgs} : Dec.red e = some o ↔
    (WF.weft o.g && (Encode.baseSrc o.base).ok && Dec.redOk o.op o.sem && Dec.atomExtOk o.op o.sem o.base o.ext && o.off.ok &&
        o.c.ok) = true ∧
      e.Shows o.g (Encode.space o.base ++ o.sem.code ++ o.op.code) 0 (Encode.baseSrc o.base) o.off o.c
        (Encode.atomTail o.ext) := by
  cases o
  simp [Dec.red, WF.weft, Option.bind_eq_some_iff]
  grind

theorem Dec.fence_eq_some {e : Enc} {o : FenceArgs} : Dec.fence e = some o ↔
    (WF.weft o.g && o.sem != .relaxed) = true ∧
      e.Shows o.g ((0 : BitVec 3) ++ o.scope.code ++ o.sem.code) 0 .unused .unused .unused .none := by
  cases o
  simp [Dec.fence, WF.weft, Option.bind_eq_some_iff]
  grind

theorem Dec.waitv_eq_some {e : Enc} {o : WaitvArgs} : Dec.waitv e = some o ↔
    (WF.weft o.g && o.off.ok && o.a.ok) = true ∧
      e.Shows o.g ((0 : BitVec 1) ++ Encode.optScope o.acq ++ Encode.bit o.w64 ++ (0 : BitVec 1) ++ Encode.bit o.eq) o.d.field
        (.index o.br) o.off o.a (Encode.addend o.add) := by
  cases o
  simp [Dec.waitv, WF.weft, Option.bind_eq_some_iff]
  grind

theorem Dec.pref_eq_some {e : Enc} {o : PrefArgs} : Dec.pref e = some o ↔
    (WF.weft o.g && o.off.ok) = true ∧
      e.Shows o.g (Encode.mod1 o.l2) 0 (.index o.br) o.off .unused (Encode.addend o.add) := by
  cases o
  simp [Dec.pref, WF.weft, Option.bind_eq_some_iff]
  grind

theorem Dec.cline_eq_some {e : Enc} {o : ClineArgs} : Dec.cline e = some o ↔
    (WF.weft o.g && o.off.ok) = true ∧
      e.Shows o.g (BitVec.ofNat 8 o.op.val) 0 (.index o.br) o.off .unused (Encode.addend o.add) := by
  have hop : BitVec.ofNat 8 o.op.val = (0 : BitVec 5) ++ BitVec.ofNat 3 o.op.val := by
    generalize o.op = op
    revert op
    decide
  rw [hop]
  cases o
  simp [Dec.cline, WF.weft, ofNat_val_eq_iff, Option.bind_eq_some_iff]
  grind

theorem Dec.lease_eq_some {e : Enc} {o : LeaseArgs} : Dec.lease e = some o ↔
    (WF.weft o.g && WF.srcI o.a) = true ∧
      e.Shows o.g 0 o.d.field (Encode.srcOf o.a) .unused .unused (Encode.tailOf o.a) := by
  obtain ⟨g, d, a⟩ := o
  cases ht : e.t <;> cases a <;>
    simp [Dec.lease, ht, WF.weft, WF.srcI, Encode.srcOf, Encode.tailOf, Option.bind_eq_some_iff]
  all_goals grind

theorem Dec.brload_eq_some {e : Enc} {o : BrloadArgs} : Dec.brload e = some o ↔
    (WF.weft o.g && o.off.ok) = true ∧ e.Shows o.g 0 o.br .unused o.off .unused (Encode.addend o.add) := by
  cases o
  simp [Dec.brload, WF.weft, Option.bind_eq_some_iff]
  grind

/-! ### Buffer, barrier and copy shapes -/

theorem Dec.bufdecl_eq_some {e : Enc} {o : BufdeclArgs} : Dec.bufdecl e = some o ↔
    (WF.weft o.g && o.bar.ok && o.base.ok && o.len.ok) = true ∧
      e.Shows o.g (Encode.mod1 o.fill) o.d.field o.bar o.base o.len (Encode.addend o.add) := by
  cases o
  simp [Dec.bufdecl, WF.weft, Option.bind_eq_some_iff]
  grind

theorem Dec.bufrel_eq_some {e : Enc} {o : BufrelArgs} : Dec.bufrel e = some o ↔
    (WF.weft o.g && o.base.ok) = true ∧ e.Shows o.g 0 0 .unused o.base .unused (Encode.addend o.add) := by
  cases o
  simp [Dec.bufrel, WF.weft, Option.bind_eq_some_iff]
  grind

theorem Dec.barinit_eq_some {e : Enc} {o : BarinitArgs} : Dec.barinit e = some o ↔
    (WF.weft o.g && o.off.ok && o.pmask.ok) = true ∧
      e.Shows o.g (Encode.mod1 o.crs) o.d.field .unused o.off o.pmask (Encode.addend o.add) := by
  cases o
  simp [Dec.barinit, WF.weft, Option.bind_eq_some_iff]
  grind

theorem Dec.barinval_eq_some {e : Enc} {o : BarinvalArgs} : Dec.barinval e = some o ↔
    (WF.weft o.g && o.off.ok) = true ∧ e.Shows o.g 0 0 .unused o.off .unused (Encode.addend o.add) := by
  cases o
  simp [Dec.barinval, WF.weft, Option.bind_eq_some_iff]
  grind

theorem Dec.bararrive_eq_some {e : Enc} {o : BararriveArgs} : Dec.bararrive e = some o ↔
    (WF.weft o.g && WF.optSrc o.bolt && o.off.ok) = true ∧
      e.Shows o.g (Encode.barMod o.all false o.bolt.isSome) o.d.field (Encode.boltX o.bolt) o.off .unused
        (Encode.addend o.add) := by
  have hm := mod6_eq_zero_iff e.w.mod
  cases o
  simp [Dec.bararrive, WF.weft, Option.bind_eq_some_iff]
  grind

theorem Dec.barexpect_eq_some {e : Enc} {o : BarexpectArgs} : Dec.barexpect e = some o ↔
    (WF.weft o.g && WF.optSrc o.bolt && o.off.ok && o.bytes.ok) = true ∧
      e.Shows o.g (Encode.barMod o.arr.isSome (o.arr.getD false) o.bolt.isSome) o.d.field (Encode.boltX o.bolt) o.off o.bytes
        (Encode.addend o.add) := by
  cases o
  simp [Dec.barexpect, WF.weft, Option.bind_eq_some_iff]
  grind

theorem Dec.barwait_eq_some {e : Enc} {o : BarwaitArgs} : Dec.barwait e = some o ↔
    (WF.weft o.g && WF.optSrc o.bolt && o.off.ok && o.phase.ok) = true ∧
      e.Shows o.g (Encode.barMod false false o.bolt.isSome) 0 (Encode.boltX o.bolt) o.off o.phase (Encode.addend o.add) := by
  have hm := mod7_eq_zero_iff e.w.mod
  cases o
  simp [Dec.barwait, WF.weft, Option.bind_eq_some_iff]
  grind

theorem Dec.barphase_eq_some {e : Enc} {o : BarphaseArgs} : Dec.barphase e = some o ↔
    (WF.weft o.g && WF.optSrc o.bolt && o.off.ok) = true ∧
      e.Shows o.g (Encode.barMod false false o.bolt.isSome) o.d.field (Encode.boltX o.bolt) o.off .unused
        (Encode.addend o.add) := by
  have hm := mod7_eq_zero_iff e.w.mod
  cases o
  simp [Dec.barphase, WF.weft, Option.bind_eq_some_iff]
  grind

theorem Dec.cpyslice_eq_some {e : Enc} {o : CpysliceArgs} : Dec.cpyslice e = some o ↔
    (WF.weft o.g && o.a.ok && o.lo.ok && o.cnt.ok) = true ∧
      e.Shows o.g 0 o.d.field o.a o.lo o.cnt (Encode.addend o.add) := by
  cases o
  simp [Dec.cpyslice, WF.weft, Option.bind_eq_some_iff]
  grind

theorem Dec.cpy_eq_some {e : Enc} {o : CpyArgs} : Dec.cpy e = some o ↔
    (WF.weft o.g && o.h.ok) = true ∧ e.Shows o.g 0 o.d.field o.h .unused .unused .none := by
  cases o
  simp [Dec.cpy, WF.weft, Option.bind_eq_some_iff]
  grind

/-! ### Matrix shapes -/

theorem Dec.layout_eq_some {e : Enc} {o : LayoutArgs} : Dec.layout e = some o ↔
    (WF.weft o.g && o.off.ok && o.bolt.ok && o.st0.ok && o.st1.ok && o.st2.ok) = true ∧
      e.Shows o.g 0 o.d.field o.off o.bolt o.st0 (Encode.extAB o.st1 o.st2
        ((0 : BitVec 21) ++ BitVec.ofNat 4 o.perm.val ++ BitVec.ofNat 3 o.esz.val)) := by
  cases o
  simp [Dec.layout, WF.weft, ofNat_val_eq_iff, Encode.extAB_eq_iff, Option.bind_eq_some_iff]
  grind

theorem Dec.mclaim_eq_some {e : Enc} {o : MclaimArgs} : Dec.mclaim e = some o ↔
    (WF.weft o.g && o.a.ok) = true ∧ e.Shows o.g 0 o.d.field o.a .unused .unused .none := by
  cases o
  simp [Dec.mclaim, WF.weft, Option.bind_eq_some_iff]
  grind

theorem Dec.mrel_eq_some {e : Enc} {o : MrelArgs} : Dec.mrel e = some o ↔
    (WF.weft o.g && o.a.ok) = true ∧ e.Shows o.g 0 0 o.a .unused .unused .none := by
  cases o
  simp [Dec.mrel, WF.weft, Option.bind_eq_some_iff]
  grind

theorem Dec.mload_eq_some {e : Enc} {o : MloadArgs} : Dec.mload e = some o ↔
    (WF.weft o.g && o.layout.ok && tagValid o.tag && (o.sc.isSome == (o.tag == 9)) && WF.optSrc o.sc) = true ∧
      e.Shows o.g 0 (Encode.slot o.slot) o.layout (o.sc.getD .unused) .unused (Encode.ext0 ((0 : BitVec 22) ++ o.tag)) := by
  obtain ⟨g, slot, layout, tag, sc⟩ := o
  simp only [Dec.mload, Enc.shows_iff, Encode.ext0_eq_iff]
  cases Dec.ext e with
  | none => simp
  | some x =>
    by_cases h9 : x.ximm.extractLsb' 0 6 = 9#6 <;> cases sc <;>
      simp [h9, WF.weft, WF.optSrc, Option.bind_eq_some_iff]
    all_goals grind

theorem Dec.mloop_eq_some {e : Enc} {o : MloopArgs} : Dec.mloop e = some o ↔
    (WF.weft o.g && o.off.ok && o.loop.ok && o.bar.ok) = true ∧
      e.Shows o.g 0 o.d.field (.index o.br) o.off o.loop (Encode.extAB o.bar .unused
        (Encode.mmaImm o.merge o.sp o.sc o.contrib)) := by
  cases o
  simp only [Dec.mloop, Enc.shows_iff, Encode.extAB_eq_iff]
  cases Dec.ext e with
  | none => simp
  | some x =>
    have hte := xte3_eq_zero_iff x.xte
    simp [WF.weft, Encode.mmaImm, Option.bind_eq_some_iff]
    grind

theorem Dec.mma_eq_some {e : Enc} {o : MmaArgs} : Dec.mma e = some o ↔
    (WF.weft o.g && o.off.ok) = true ∧
      e.Shows o.g 0 o.d.field (.index o.br) o.off (.index (Encode.slot o.slotA)) (Encode.extAB (.index (Encode.slot o.slotB))
        .unused (Encode.mmaImm o.merge o.sp o.sc o.contrib)) := by
  cases o
  simp only [Dec.mma, Enc.shows_iff, Encode.extAB_eq_iff]
  cases Dec.ext e with
  | none => simp
  | some x =>
    have hte := xte_eq_zero_iff x.xte
    simp [WF.weft, Encode.mmaImm, Option.bind_eq_some_iff]
    grind

theorem Dec.mscale_eq_some {e : Enc} {o : MscaleArgs} : Dec.mscale e = some o ↔
    (WF.weft o.g && o.a.ok && o.b.ok && o.c.ok && o.xa.ok) = true ∧
      e.Shows o.g 0 0 o.a o.b o.c (Encode.extAB o.xa .unused 0) := by
  cases o
  simp only [Dec.mscale, Enc.shows_iff, Encode.extAB_eq_iff]
  cases Dec.ext e with
  | none => simp
  | some x =>
    have hte := xte3_eq_zero_iff x.xte
    simp [WF.weft, Option.bind_eq_some_iff]
    grind

@[simp] theorem Encode.patCode_eq_iff {p : SpPat} {x : BitVec 28} :
    Encode.patCode p = x ↔ x.extractLsb' 2 26 = 0 ∧ Dec.patOf (x.extractLsb' 0 2) = some p := by
  have code : ∀ c : BitVec 2, (c = 0 ↔ Dec.patOf c = some .off) ∧ (c = 1 ↔ Dec.patOf c = some .s24) ∧
      (c = 2 ↔ Dec.patOf c = some .s48) := by decide
  obtain ⟨h0, h1, h2⟩ := code (x.extractLsb' 0 2)
  cases p
  · rw [← h0, Encode.patCode, show (0 : BitVec 28) = (0 : BitVec 26) ++ (0 : BitVec 2) from rfl, append_eq_iff]
    grind
  · rw [← h1, Encode.patCode, show (1 : BitVec 28) = (0 : BitVec 26) ++ (1 : BitVec 2) from rfl, append_eq_iff]
    grind
  · rw [← h2, Encode.patCode, show (2 : BitVec 28) = (0 : BitVec 26) ++ (2 : BitVec 2) from rfl, append_eq_iff]
    grind

theorem Dec.msparse_eq_some {e : Enc} {o : MsparseArgs} : Dec.msparse e = some o ↔
    (WF.weft o.g && o.a.ok && o.b.ok) = true ∧
      e.Shows o.g 0 0 (.index (Encode.slot o.slot)) o.a o.b (Encode.ext0 (Encode.patCode o.pat)) := by
  cases o
  simp [Dec.msparse, WF.weft, Encode.ext0_eq_iff, Option.bind_eq_some_iff]
  grind

theorem Dec.mfence_eq_some {e : Enc} {o : MfenceArgs} : Dec.mfence e = some o ↔
    WF.weft o.g = true ∧ e.Shows o.g 0 o.d.field .unused .unused .unused .none := by
  cases o
  simp [Dec.mfence, WF.weft, Option.bind_eq_some_iff]
  grind

theorem Dec.mwait_eq_some {e : Enc} {o : MwaitArgs} : Dec.mwait e = some o ↔
    (WF.weft o.g && WF.srcI o.n) = true ∧
      e.Shows o.g 0 o.d.field (Encode.srcOf o.n) .unused .unused (Encode.tailOf o.n) := by
  obtain ⟨g, d, n⟩ := o
  cases ht : e.t <;> cases n <;>
    simp [Dec.mwait, ht, WF.weft, WF.srcI, Encode.srcOf, Encode.tailOf, Option.bind_eq_some_iff]
  all_goals grind

/-! ### Work and fabric shapes -/

theorem Dec.popw_eq_some {e : Enc} {o : PopwArgs} : Dec.popw e = some o ↔
    WF.weft o.g = true ∧ e.Shows o.g 0 o.d.field (.index o.q) .unused .unused .none := by
  cases o
  simp [Dec.popw, WF.weft, Option.bind_eq_some_iff]
  grind

theorem Dec.pushw_eq_some {e : Enc} {o : PushwArgs} : Dec.pushw e = some o ↔
    (WF.weft o.g && o.a.ok) = true ∧ e.Shows o.g 0 o.d.field (.index o.q) o.a .unused .none := by
  cases o
  simp [Dec.pushw, WF.weft, Option.bind_eq_some_iff]
  grind

theorem Dec.notify_eq_some {e : Enc} {o : NotifyArgs} : Dec.notify e = some o ↔
    (WF.weft o.g && o.l.ok && o.a.ok) = true ∧ e.Shows o.g 0 0 o.l o.a .unused .none := by
  cases o
  simp [Dec.notify, WF.weft, Option.bind_eq_some_iff]
  grind

theorem Dec.mbind_eq_some {e : Enc} {o : MbindArgs} : Dec.mbind e = some o ↔
    (WF.weft o.g && o.l.ok && o.k.ok) = true ∧ e.Shows o.g 0 o.d.field o.l o.k .unused .none := by
  cases o
  simp [Dec.mbind, WF.weft, Option.bind_eq_some_iff]
  grind

theorem Dec.xld_eq_some {e : Enc} {o : XldArgs} : Dec.xld e = some o ↔
    (WF.weft o.g && o.off.ok) = true ∧
      e.Shows o.g (Encode.xscope o.acq ++ BitVec.ofNat 4 o.fmt.val) o.d.field (.index o.br) o.off .unused
        (Encode.ext0 o.add) := by
  cases o
  simp [Dec.xld, Dec.xscope, WF.weft, ofNat_val_eq_iff, Encode.ext0_eq_iff, Option.bind_eq_some_iff]
  grind

theorem Dec.xst_eq_some {e : Enc} {o : XstArgs} : Dec.xst e = some o ↔
    (WF.weft o.g && o.off.ok && o.data.ok) = true ∧
      e.Shows o.g (Encode.xscope o.rel ++ Encode.bit o.sat ++ o.r.code) 0 (.index o.br) o.off o.data (Encode.ext0 o.add) := by
  cases o
  simp [Dec.xst, Dec.xscope, WF.weft, Encode.ext0_eq_iff, Option.bind_eq_some_iff]
  grind

theorem Dec.xatom_eq_some {e : Enc} {o : XatomArgs} : Dec.xatom e = some o ↔
    (WF.weft o.g && o.off.ok && o.c.ok) = true ∧
      e.Shows o.g ((0 : BitVec 2) ++ o.sem.code ++ o.op.code) o.d.field (.index o.br) o.off o.c (Encode.ext0 o.add) := by
  cases o
  simp [Dec.xatom, WF.weft, Encode.ext0_eq_iff, Option.bind_eq_some_iff]
  grind

theorem Dec.xsig_eq_some {e : Enc} {o : XsigArgs} : Dec.xsig e = some o ↔
    (WF.weft o.g && o.tw.ok && WF.srcI o.cnt) = true ∧
      e.Shows o.g 0 0 (.index o.br) o.tw (Encode.srcOf o.cnt) (Encode.tailOf o.cnt) := by
  obtain ⟨g, br, tw, cnt⟩ := o
  cases ht : e.t <;> cases cnt <;>
    simp [Dec.xsig, ht, WF.weft, WF.srcI, Encode.srcOf, Encode.tailOf, Option.bind_eq_some_iff]
  all_goals grind

theorem Dec.xfence_eq_some {e : Enc} {o : XfenceArgs} : Dec.xfence e = some o ↔
    (WF.weft o.g && o.sem != .relaxed) = true ∧
      e.Shows o.g ((0 : BitVec 6) ++ o.sem.code) 0 .unused .unused .unused .none := by
  cases o
  simp [Dec.xfence, WF.weft, Option.bind_eq_some_iff]
  grind

/-! ### System shapes -/

/-- An assigned system-register number, with the immediate that carries it (R39). -/
theorem Dec.sysNum_and_iff {v : BitVec 32} {num : BitVec 12} : Dec.sysNum v = true ∧ v.extractLsb' 0 12 = num ↔
    (0 : BitVec 20) ++ num = v ∧ sysregs.contains num.toNat = true := by
  rw [append_eq_iff, Dec.sysNum, Bool.and_eq_true, beq_iff_eq]
  constructor
  · rintro ⟨⟨h0, hs⟩, rfl⟩
    exact ⟨⟨h0.symm, rfl⟩, hs⟩
  · rintro ⟨⟨h0, rfl⟩, hs⟩
    exact ⟨⟨h0.symm, hs⟩, rfl⟩

theorem Dec.getsr_eq_some {e : Enc} {o : GetsrArgs} : Dec.getsr e = some o ↔
    (WF.weft o.g && sysregs.contains o.num.toNat) = true ∧
      e.Shows o.g 0 o.d.field .unused .unused .unused (.imm ((0 : BitVec 20) ++ o.num)) := by
  obtain ⟨g, d, num⟩ := o
  have hv (v : BitVec 32) := Dec.sysNum_and_iff (v := v) (num := num)
  simp only [Enc.shows_iff]
  cases ht : e.t <;> simp [Dec.getsr, ht, WF.weft, Option.bind_eq_some_iff, -append_eq_iff, -List.contains_eq_mem]
  grind

theorem Dec.setsr_eq_some {e : Enc} {o : SetsrArgs} : Dec.setsr e = some o ↔
    (WF.weft o.g && sysregs.contains o.num.toNat && o.a.ok) = true ∧
      e.Shows o.g 0 0 o.a .unused .unused (.imm ((0 : BitVec 20) ++ o.num)) := by
  obtain ⟨g, num, a⟩ := o
  have hv (v : BitVec 32) := Dec.sysNum_and_iff (v := v) (num := num)
  simp only [Enc.shows_iff]
  cases ht : e.t <;> simp [Dec.setsr, ht, WF.weft, Option.bind_eq_some_iff, -append_eq_iff, -List.contains_eq_mem]
  grind

theorem Dec.getid_eq_some {e : Enc} {o : GetidArgs} : Dec.getid e = some o ↔
    WF.weft o.g = true ∧ e.Shows o.g ((0 : BitVec 5) ++ o.id) o.d.field .unused .unused .unused .none := by
  cases o
  simp [Dec.getid, WF.weft, Option.bind_eq_some_iff]
  grind

theorem Dec.clock_eq_some {e : Enc} {o : ClockArgs} : Dec.clock e = some o ↔
    WF.weft o.g = true ∧ e.Shows o.g 0 o.d.field .unused .unused .unused .none := by
  cases o
  simp [Dec.clock, WF.weft, Option.bind_eq_some_iff]
  grind

theorem Dec.halt_eq_some {e : Enc} {o : HaltArgs} : Dec.halt e = some o ↔
    (WF.weft o.g && o.a.ok) = true ∧ e.Shows o.g 0 0 o.a .unused .unused .none := by
  cases o
  simp [Dec.halt, WF.weft, Option.bind_eq_some_iff]
  grind

/-! ### CVTS, whose MOD depends on its seed operand (R144) -/

theorem Dec.cvts_eq_some {e : Enc} {o : CvtsArgs} : Dec.cvts e = some o ↔
    (o.g.ok true && Dec.cvtsTarget o.tgt && (o.c.isNone || o.r == .fpctl) && o.a.ok && o.b.ok && WF.optSrc o.c) = true ∧
      e.Shows o.g (Encode.cvts o).w.mod o.d.field o.a o.b (o.c.getD .unused) .none := by
  obtain ⟨g, tgt, r, d, a, b, c⟩ := o
  have h6 : RMode.ofCode 6 = none := rfl
  have hx : ∀ x : BitVec 8, 6 = x.extractLsb' 4 4 ↔ x.extractLsb' 4 3 = 6 ∧ x.extractLsb' 7 1 = 0 := by decide
  have := hx e.w.mod
  by_cases hs : e.w.mod.extractLsb' 4 3 = 6#3 <;> cases c <;>
    simp [Dec.cvts, hs, Encode.cvts, Encode.make, WF.optSrc, Option.bind_eq_some_iff]
  all_goals grind

theorem Encode.cvts_eq_make (o : CvtsArgs) : Encode.cvts o =
    Encode.make 0x41 o.g (Encode.cvts o).w.mod o.d.field o.a o.b (o.c.getD .unused) .none := by
  obtain ⟨g, tgt, r, d, a, b, _ | c⟩ := o <;> rfl

/-! ### Decoders that give more than one instruction -/

theorem Dec.movi_form {e : Enc} {i : Instr} (h : Dec.movi e = some i) :
    (∃ o, i = .movi96 o) ∨ ∃ o, i = .movi128 o := by
  simp only [Dec.movi] at h
  cases ht : e.t <;> simp [ht, Option.bind_eq_some_iff] at h
  · exact .inl ⟨_, h.2.2.symm⟩
  · exact .inr ⟨_, h.2.2.symm⟩

theorem Dec.movi_eq_movi96 {e : Enc} {o : Movi96Args} : Dec.movi e = some (.movi96 o) ↔
    (o.g.ok true && Dec.movi96Ok o.tag o.imm) = true ∧
      e.Shows o.g ((0 : BitVec 2) ++ o.tag) o.d.field .unused .unused .unused (.imm o.imm) := by
  cases o
  cases ht : e.t <;> simp [Dec.movi, ht, Option.bind_eq_some_iff]
  grind

theorem Dec.movi_eq_movi128 {e : Enc} {o : Movi128Args} : Dec.movi e = some (.movi128 o) ↔
    (o.g.ok true && Dec.movi128Ok o.tag o.imm) = true ∧
      e.Shows o.g ((0 : BitVec 2) ++ o.tag) o.d.field .unused .unused .unused (.long o.imm) := by
  cases o
  cases ht : e.t <;> simp [Dec.movi, ht, Option.bind_eq_some_iff]
  grind

theorem Dec.movk_form {e : Enc} {i : Instr} (h : Dec.movk e = some i) :
    (∃ o, i = .movkFromScalar o) ∨ (∃ o, i = .movkImmediate o) ∨ ∃ o, i = .movkToScalar o := by
  simp only [Dec.movk] at h
  cases ht : e.t <;> simp [ht, Option.bind_eq_some_iff] at h
  · obtain ⟨-, -, h⟩ := h
    split at h <;> cases h
    · exact .inr (.inr ⟨_, rfl⟩)
    · exact .inl ⟨_, rfl⟩
  · exact .inr (.inl ⟨_, h.2.2.symm⟩)

theorem Dec.movk_eq_movkFromScalar {e : Enc} {o : LUn} : Dec.movk e = some (.movkFromScalar o) ↔
    (WF.lun false o && !WF.isK o.a.reg) = true ∧ e.Shows o.g 0 o.d.field o.a .unused .unused .none := by
  cases o
  cases ht : e.t <;> cases hr : e.a.reg <;> simp [Dec.movk, ht, hr, WF.lun, Option.bind_eq_some_iff]
  all_goals grind [WF.isK]

theorem Dec.movk_eq_movkToScalar {e : Enc} {o : MovkToArgs} : Dec.movk e = some (.movkToScalar o) ↔
    (WF.weft o.g && o.k.ok && WF.isK o.k.reg) = true ∧ e.Shows o.g 0 o.d.field o.k .unused .unused .none := by
  cases o
  cases ht : e.t <;> cases hr : e.a.reg <;> simp [Dec.movk, ht, hr, WF.weft, Option.bind_eq_some_iff]
  all_goals grind [WF.isK]

theorem Dec.movk_eq_movkImmediate {e : Enc} {o : MovkImmArgs} : Dec.movk e = some (.movkImmediate o) ↔
    WF.weft o.g = true ∧ e.Shows o.g 0 o.d.field .unused .unused .unused (.imm o.imm) := by
  cases o
  cases ht : e.t <;> simp [Dec.movk, ht, WF.weft, Option.bind_eq_some_iff]
  all_goals grind

theorem Dec.call_form {e : Enc} {i : Instr} (h : Dec.call e = some i) : (∃ o, i = .call o) ∨ ∃ o, i = .callR o := by
  simp [Dec.call, Option.bind_eq_some_iff] at h
  obtain ⟨v, -, -, h⟩ := h
  split at h <;> simp [Option.bind_eq_some_iff] at h
  · exact .inr ⟨_, h.2.symm⟩
  · exact .inl ⟨_, h.2.symm⟩

theorem Dec.call_eq_call {e : Enc} {o : CallArgs} : Dec.call e = some (.call o) ↔
    o.g.plain = true ∧ e.Shows o.g 0 o.d.field .unused .unused .unused (.imm o.off) := by
  rw [show (0 : BitVec 8) = Encode.mod1 false from rfl]
  cases o
  cases hr : e.w.mod[0] <;> simp [Dec.call, hr, Option.bind_eq_some_iff]
  grind

theorem Dec.call_eq_callR {e : Enc} {o : CallRArgs} : Dec.call e = some (.callR o) ↔
    (o.g.plain && o.a.ok) = true ∧ e.Shows o.g 1 o.d.field o.a .unused .unused (.imm o.off) := by
  rw [show (1 : BitVec 8) = Encode.mod1 true from rfl]
  cases o
  cases hr : e.w.mod[0] <;> simp [Dec.call, hr, Option.bind_eq_some_iff]
  grind

theorem Dec.cpyreg_form {e : Enc} {i : Instr} (h : Dec.cpyreg e = some i) :
    (∃ o, i = .cpyregLd o) ∨ ∃ o, i = .cpyregSt o := by
  simp [Dec.cpyreg, Option.bind_eq_some_iff] at h
  obtain ⟨x, -, -, h⟩ := h
  split at h <;> simp [Option.bind_eq_some_iff] at h
  · exact .inr ⟨_, h.2.symm⟩
  · exact .inl ⟨_, h.2.symm⟩

theorem Dec.cpyreg_eq_cpyregLd {e : Enc} {o : CpyregLdArgs} : Dec.cpyreg e = some (.cpyregLd o) ↔
    (WF.weft o.g && o.off.ok && o.bar.ok) = true ∧
      e.Shows o.g 0 o.d.field .unused o.off o.bar (Encode.ext0 (Encode.cpyregImm o.count1 o.barv)) := by
  rw [show (0 : BitVec 8) = Encode.mod1 false from rfl]
  cases o
  cases hr : e.w.mod[0] <;> simp [Dec.cpyreg, hr, WF.weft, Encode.ext0_eq_iff, Encode.cpyregImm, Option.bind_eq_some_iff]
  grind

theorem Dec.cpyreg_eq_cpyregSt {e : Enc} {o : CpyregStArgs} : Dec.cpyreg e = some (.cpyregSt o) ↔
    (WF.weft o.g && o.a.ok && o.off.ok && o.bar.ok) = true ∧
      e.Shows o.g 1 0 o.a o.off o.bar (Encode.ext0 (Encode.cpyregImm o.count1 o.barv)) := by
  rw [show (1 : BitVec 8) = Encode.mod1 true from rfl]
  cases o
  cases hr : e.w.mod[0] <;> simp [Dec.cpyreg, hr, WF.weft, Encode.ext0_eq_iff, Encode.cpyregImm, Option.bind_eq_some_iff]
  grind

/-- The constructor that an operation code of BUFSTATE stands for (R237, R239). -/
def bufstateOf : BufOp → BufstateArgs → Instr
  | .get => .bufstateGet
  | .fill => .bufstateFill
  | .drain => .bufstateDrain
  | .free => .bufstateFree
  | .wfull => .bufstateWfull
  | .wfree => .bufstateWfree

def BufOp.code : BufOp → BitVec 3
  | .get => 0 | .fill => 1 | .drain => 2 | .free => 3 | .wfull => 4 | .wfree => 5

theorem Dec.bufstate_form {e : Enc} {i : Instr} (h : Dec.bufstate e = some i) : ∃ op o, i = bufstateOf op o := by
  simp only [Dec.bufstate, Option.bind_eq_bind, Option.bind_eq_some_iff] at h
  obtain ⟨-, -, add, -, h⟩ := h
  split at h <;> cases h
  · exact ⟨.get, _, rfl⟩
  · exact ⟨.fill, _, rfl⟩
  · exact ⟨.drain, _, rfl⟩
  · exact ⟨.free, _, rfl⟩
  · exact ⟨.wfull, _, rfl⟩
  · exact ⟨.wfree, _, rfl⟩

theorem Dec.bufstate_eq_bufstateOf {e : Enc} {op : BufOp} {o : BufstateArgs} : Dec.bufstate e = some (bufstateOf op o) ↔
    (WF.weft o.g && o.base.ok) = true ∧
      e.Shows o.g ((0 : BitVec 5) ++ op.code) o.d.field .unused o.base .unused (Encode.addend o.add) := by
  have codes : ∀ x : BitVec 3, x = 0 ∨ x = 1 ∨ x = 2 ∨ x = 3 ∨ x = 4 ∨ x = 5 ∨ x = 6 ∨ x = 7 := by decide
  cases o
  simp only [Dec.bufstate, Enc.shows_iff, Enc.m_eq, append_eq_iff]
  generalize e.w.mod.extractLsb' 0 3 = x
  rcases codes x with rfl | rfl | rfl | rfl | rfl | rfl | rfl | rfl <;> cases op <;>
    simp [bufstateOf, BufOp.code, WF.weft, Option.bind_eq_some_iff]
  all_goals grind
end Sys2Proof
end

section
/-! ## Decoding and encoding (R38) -/

namespace Sys2Proof

/-! ### Decoders with more than one constructor -/

variable {e : Enc} {i : Instr}

theorem encode_of_cvts {o : CvtsArgs} (hr : e.w.rsv = 0) (hm : e.w.major.toNat = 0x41) (h : Dec.cvts e = some o) :
    (Instr.cvts o).wf = true ∧ encode (.cvts o) = some e := by
  obtain ⟨hw, hs⟩ := Dec.cvts_eq_some.1 h
  exact ⟨hw, congrArg some ((Encode.cvts_eq_make o).trans (hs.make_eq hr hm))⟩

theorem encode_of_movi (hr : e.w.rsv = 0) (hm : e.w.major.toNat = 0x49) (h : Dec.movi e = some i) :
    i.wf = true ∧ encode i = some e := by
  obtain ⟨o, rfl⟩ | ⟨o, rfl⟩ := Dec.movi_form h
  · exact (Dec.movi_eq_movi96.1 h).imp_right fun hs => congrArg some (hs.make_eq hr hm)
  · exact (Dec.movi_eq_movi128.1 h).imp_right fun hs => congrArg some (hs.make_eq hr hm)

theorem encode_of_movk (hr : e.w.rsv = 0) (hm : e.w.major.toNat = 0x4C) (h : Dec.movk e = some i) :
    i.wf = true ∧ encode i = some e := by
  obtain ⟨o, rfl⟩ | ⟨o, rfl⟩ | ⟨o, rfl⟩ := Dec.movk_form h
  · exact (Dec.movk_eq_movkFromScalar.1 h).imp_right fun hs => congrArg some (hs.make_eq hr hm)
  · exact (Dec.movk_eq_movkImmediate.1 h).imp_right fun hs => congrArg some (hs.make_eq hr hm)
  · exact (Dec.movk_eq_movkToScalar.1 h).imp_right fun hs => congrArg some (hs.make_eq hr hm)

theorem encode_of_call (hr : e.w.rsv = 0) (hm : e.w.major.toNat = 0x62) (h : Dec.call e = some i) :
    i.wf = true ∧ encode i = some e := by
  obtain ⟨o, rfl⟩ | ⟨o, rfl⟩ := Dec.call_form h
  · exact (Dec.call_eq_call.1 h).imp_right fun hs => congrArg some (hs.make_eq hr hm)
  · exact (Dec.call_eq_callR.1 h).imp_right fun hs => congrArg some (hs.make_eq hr hm)

theorem encode_of_bufstate (hr : e.w.rsv = 0) (hm : e.w.major.toNat = 0x92) (h : Dec.bufstate e = some i) :
    i.wf = true ∧ encode i = some e := by
  obtain ⟨op, o, rfl⟩ := Dec.bufstate_form h
  obtain ⟨hw, hs⟩ := Dec.bufstate_eq_bufstateOf.1 h
  have he := congrArg some (hs.make_eq hr hm)
  cases op <;> exact ⟨hw, he⟩

theorem encode_of_cpyreg (hr : e.w.rsv = 0) (hm : e.w.major.toNat = 0xA1) (h : Dec.cpyreg e = some i) :
    i.wf = true ∧ encode i = some e := by
  obtain ⟨o, rfl⟩ | ⟨o, rfl⟩ := Dec.cpyreg_form h
  · exact (Dec.cpyreg_eq_cpyregLd.1 h).imp_right fun hs => congrArg some (hs.make_eq hr hm)
  · exact (Dec.cpyreg_eq_cpyregSt.1 h).imp_right fun hs => congrArg some (hs.make_eq hr hm)

/-- What decodes has an encoding, and the fields it was decoded from are that encoding (R38). -/
theorem encode_of_decode (h : decode e = some i) : i.wf = true ∧ encode i = some e := by
  unfold decode at h
  split at h
  · cases h
  rename_i hr
  rw [not_not] at hr
  split at h
  all_goals rename_i hm
  -- The branches of `decode` in the order of their MAJOR: first those that are not one shape, CVTS, MOVI, MOVK, CALL, BUFSTATE,
  -- CPYREG and no assigned MAJOR.
  case h_57 =>
    obtain ⟨o, ho, rfl⟩ := Option.map_eq_some_iff.1 h
    exact encode_of_cvts hr hm ho
  case h_64 => exact encode_of_movi hr hm h
  case h_67 => exact encode_of_movk hr hm h
  case h_83 => exact encode_of_call hr hm h
  case h_114 => exact encode_of_bufstate hr hm h
  case h_122 => exact encode_of_cpyreg hr hm h
  case h_151 => cases h
  all_goals
    simp only [Option.map_eq_some_iff,
      Dec.iun_eq_some, Dec.ibin_eq_some, Dec.itri_eq_some, Dec.icmp_eq_some, Dec.lea_eq_some, Dec.lun_eq_some,
      Dec.lbin_eq_some, Dec.fun1_eq_some, Dec.fbin_eq_some, Dec.fscale_eq_some, Dec.ftri_eq_some, Dec.fminmax_eq_some,
      Dec.fcmp_eq_some, Dec.pbin_eq_some, Dec.ptri_eq_some, Dec.dot_eq_some, Dec.cvt_eq_some, Dec.pack_eq_some,
      Dec.unpack_eq_some, Dec.settag_eq_some, Dec.cvtk_eq_some, Dec.sel_eq_some, Dec.bcast_eq_some, Dec.kbin_eq_some,
      Dec.kun_eq_some, Dec.kpopc_eq_some, Dec.vote_eq_some, Dec.lxch_eq_some, Dec.scan_eq_some, Dec.reduce_eq_some,
      Dec.matchLanes_eq_some, Dec.elect_eq_some, Dec.compact_eq_some, Dec.bra_eq_some, Dec.brx_eq_some, Dec.ret_eq_some,
      Dec.join_eq_some, Dec.bare_eq_some, Dec.code_eq_some, Dec.dec_eq_some, Dec.decd_eq_some, Dec.decs_eq_some,
      Dec.ld_eq_some, Dec.st_eq_some, Dec.lds_eq_some, Dec.sts_eq_some, Dec.ldv_eq_some, Dec.stv_eq_some, Dec.atom_eq_some,
      Dec.red_eq_some, Dec.fence_eq_some, Dec.waitv_eq_some, Dec.pref_eq_some, Dec.cline_eq_some, Dec.lease_eq_some,
      Dec.brload_eq_some, Dec.bufdecl_eq_some, Dec.bufrel_eq_some, Dec.barinit_eq_some, Dec.barinval_eq_some,
      Dec.bararrive_eq_some, Dec.barexpect_eq_some, Dec.barwait_eq_some, Dec.barphase_eq_some, Dec.cpyslice_eq_some,
      Dec.cpy_eq_some, Dec.layout_eq_some, Dec.mclaim_eq_some, Dec.mrel_eq_some, Dec.mload_eq_some, Dec.mloop_eq_some,
      Dec.mma_eq_some, Dec.mscale_eq_some, Dec.msparse_eq_some, Dec.mfence_eq_some, Dec.mwait_eq_some, Dec.popw_eq_some,
      Dec.pushw_eq_some, Dec.notify_eq_some, Dec.mbind_eq_some, Dec.xld_eq_some, Dec.xst_eq_some, Dec.xatom_eq_some,
      Dec.xsig_eq_some, Dec.xfence_eq_some, Dec.getsr_eq_some, Dec.setsr_eq_some, Dec.getid_eq_some, Dec.clock_eq_some,
      Dec.halt_eq_some] at h
    obtain ⟨o, ⟨hw, hs⟩, rfl⟩ := h
    exact ⟨hw, congrArg some (hs.make_eq hr hm)⟩

/-- Every instruction that the encodings can express decodes from its encoding. -/
theorem decode_encode (h : i.wf = true) : ∃ e, encode i = some e ∧ decode e = some i := by
  cases i with
  | iadd o | isub o | imul o | imulhi o | imin o | imax o | shl o | shr o | sar o | rot o | bfx o =>
    exact ⟨_, rfl, congrArg (Option.map _) (Dec.ibin_eq_some.2 ⟨h, Encode.shows_make ..⟩)⟩
  | ineg o | iabs o | popc o | clz o | ctz o | brev o =>
    exact ⟨_, rfl, congrArg (Option.map _) (Dec.iun_eq_some.2 ⟨h, Encode.shows_make ..⟩)⟩
  | imad o | isel o | bfi o =>
    exact ⟨_, rfl, congrArg (Option.map _) (Dec.itri_eq_some.2 ⟨h, Encode.shows_make ..⟩)⟩
  | icmpk o | icmp o =>
    exact ⟨_, rfl, congrArg (Option.map _) (Dec.icmp_eq_some.2 ⟨h, Encode.shows_make ..⟩)⟩
  | lea o =>
    exact ⟨_, rfl, congrArg (Option.map _) (Dec.lea_eq_some.2 ⟨h, Encode.shows_make ..⟩)⟩
  | and o | or o | xor o | andn o =>
    exact ⟨_, rfl, congrArg (Option.map _) (Dec.lbin_eq_some.2 ⟨h, Encode.shows_make ..⟩)⟩
  | not o | gettag o | mov o | ballot o =>
    exact ⟨_, rfl, congrArg (Option.map _) (Dec.lun_eq_some.2 ⟨h, Encode.shows_make ..⟩)⟩
  | fadd o | fsub o | fmul o | fdiv o =>
    exact ⟨_, rfl, congrArg (Option.map _) (Dec.fbin_eq_some.2 ⟨h, Encode.shows_make ..⟩)⟩
  | ffma o =>
    exact ⟨_, rfl, congrArg (Option.map _) (Dec.ftri_eq_some.2 ⟨h, Encode.shows_make ..⟩)⟩
  | fmin o | fmax o =>
    exact ⟨_, rfl, congrArg (Option.map _) (Dec.fminmax_eq_some.2 ⟨h, Encode.shows_make ..⟩)⟩
  | fabs o | fneg o | fsqrt o | frcp o | frsq o | fexp2 o | flog2 o | fsin o | fcos o | frint o | fclass o | fgetexp o =>
    exact ⟨_, rfl, congrArg (Option.map _) (Dec.fun1_eq_some.2 ⟨h, Encode.shows_make ..⟩)⟩
  | fcmpk o | fcmp o =>
    exact ⟨_, rfl, congrArg (Option.map _) (Dec.fcmp_eq_some.2 ⟨h, Encode.shows_make ..⟩)⟩
  | fscale o =>
    exact ⟨_, rfl, congrArg (Option.map _) (Dec.fscale_eq_some.2 ⟨h, Encode.shows_make ..⟩)⟩
  | padd o | pmul o =>
    exact ⟨_, rfl, congrArg (Option.map _) (Dec.pbin_eq_some.2 ⟨h, Encode.shows_make ..⟩)⟩
  | pfma o =>
    exact ⟨_, rfl, congrArg (Option.map _) (Dec.ptri_eq_some.2 ⟨h, Encode.shows_make ..⟩)⟩
  | dot8F8 o | dot8I8 o =>
    exact ⟨_, rfl, congrArg (Option.map _) (Dec.dot_eq_some.2 ⟨h, Encode.shows_make ..⟩)⟩
  | cvt o =>
    exact ⟨_, rfl, congrArg (Option.map _) (Dec.cvt_eq_some.2 ⟨h, Encode.shows_make ..⟩)⟩
  | pack o =>
    exact ⟨_, rfl, congrArg (Option.map _) (Dec.pack_eq_some.2 ⟨h, Encode.shows_make ..⟩)⟩
  | unpack o =>
    exact ⟨_, rfl, congrArg (Option.map _) (Dec.unpack_eq_some.2 ⟨h, Encode.shows_make ..⟩)⟩
  | settag o =>
    exact ⟨_, rfl, congrArg (Option.map _) (Dec.settag_eq_some.2 ⟨h, Encode.shows_make ..⟩)⟩
  | cvtk o =>
    exact ⟨_, rfl, congrArg (Option.map _) (Dec.cvtk_eq_some.2 ⟨h, Encode.shows_make ..⟩)⟩
  | sel o =>
    exact ⟨_, rfl, congrArg (Option.map _) (Dec.sel_eq_some.2 ⟨h, Encode.shows_make ..⟩)⟩
  | bcast o =>
    exact ⟨_, rfl, congrArg (Option.map _) (Dec.bcast_eq_some.2 ⟨h, Encode.shows_make ..⟩)⟩
  | kand o | kor o | kxor o =>
    exact ⟨_, rfl, congrArg (Option.map _) (Dec.kbin_eq_some.2 ⟨h, Encode.shows_make ..⟩)⟩
  | knot o =>
    exact ⟨_, rfl, congrArg (Option.map _) (Dec.kun_eq_some.2 ⟨h, Encode.shows_make ..⟩)⟩
  | kpopc o =>
    exact ⟨_, rfl, congrArg (Option.map _) (Dec.kpopc_eq_some.2 ⟨h, Encode.shows_make ..⟩)⟩
  | vote o =>
    exact ⟨_, rfl, congrArg (Option.map _) (Dec.vote_eq_some.2 ⟨h, Encode.shows_make ..⟩)⟩
  | lxch o =>
    exact ⟨_, rfl, congrArg (Option.map _) (Dec.lxch_eq_some.2 ⟨h, Encode.shows_make ..⟩)⟩
  | scan o =>
    exact ⟨_, rfl, congrArg (Option.map _) (Dec.scan_eq_some.2 ⟨h, Encode.shows_make ..⟩)⟩
  | reduce o =>
    exact ⟨_, rfl, congrArg (Option.map _) (Dec.reduce_eq_some.2 ⟨h, Encode.shows_make ..⟩)⟩
  | matchLanes o =>
    exact ⟨_, rfl, congrArg (Option.map _) (Dec.matchLanes_eq_some.2 ⟨h, Encode.shows_make ..⟩)⟩
  | elect o =>
    exact ⟨_, rfl, congrArg (Option.map _) (Dec.elect_eq_some.2 ⟨h, Encode.shows_make ..⟩)⟩
  | compact o =>
    exact ⟨_, rfl, congrArg (Option.map _) (Dec.compact_eq_some.2 ⟨h, Encode.shows_make ..⟩)⟩
  | bra o =>
    exact ⟨_, rfl, congrArg (Option.map _) (Dec.bra_eq_some.2 ⟨h, Encode.shows_make ..⟩)⟩
  | brx o =>
    exact ⟨_, rfl, congrArg (Option.map _) (Dec.brx_eq_some.2 ⟨h, Encode.shows_make ..⟩)⟩
  | ret o =>
    exact ⟨_, rfl, congrArg (Option.map _) (Dec.ret_eq_some.2 ⟨h, Encode.shows_make ..⟩)⟩
  | join o =>
    exact ⟨_, rfl, congrArg (Option.map _) (Dec.join_eq_some.2 ⟨h, Encode.shows_make ..⟩)⟩
  | exit o | mcommit o | canon o =>
    exact ⟨_, rfl, congrArg (Option.map _) (Dec.bare_eq_some (plain := false).2 ⟨h, Encode.shows_make ..⟩)⟩
  | yield o | nop o | rft o =>
    exact ⟨_, rfl, congrArg (Option.map _) (Dec.bare_eq_some (plain := true).2 ⟨h, Encode.shows_make ..⟩)⟩
  | brk o | trap o =>
    exact ⟨_, rfl, congrArg (Option.map _) (Dec.code_eq_some.2 ⟨h, Encode.shows_make ..⟩)⟩
  | decrle o | decbits o =>
    exact ⟨_, rfl, congrArg (Option.map _) (Dec.dec_eq_some.2 ⟨h, Encode.shows_make ..⟩)⟩
  | decdelta o =>
    exact ⟨_, rfl, congrArg (Option.map _) (Dec.decd_eq_some.2 ⟨h, Encode.shows_make ..⟩)⟩
  | decsign o =>
    exact ⟨_, rfl, congrArg (Option.map _) (Dec.decs_eq_some.2 ⟨h, Encode.shows_make ..⟩)⟩
  | ld o | ldu o =>
    exact ⟨_, rfl, congrArg (Option.map _) (Dec.ld_eq_some.2 ⟨h, Encode.shows_make ..⟩)⟩
  | st o | stu o =>
    exact ⟨_, rfl, congrArg (Option.map _) (Dec.st_eq_some.2 ⟨h, Encode.shows_make ..⟩)⟩
  | lds o =>
    exact ⟨_, rfl, congrArg (Option.map _) (Dec.lds_eq_some.2 ⟨h, Encode.shows_make ..⟩)⟩
  | sts o =>
    exact ⟨_, rfl, congrArg (Option.map _) (Dec.sts_eq_some.2 ⟨h, Encode.shows_make ..⟩)⟩
  | ldv o =>
    exact ⟨_, rfl, congrArg (Option.map _) (Dec.ldv_eq_some.2 ⟨h, Encode.shows_make ..⟩)⟩
  | stv o =>
    exact ⟨_, rfl, congrArg (Option.map _) (Dec.stv_eq_some.2 ⟨h, Encode.shows_make ..⟩)⟩
  | atom o =>
    exact ⟨_, rfl, congrArg (Option.map _) (Dec.atom_eq_some.2 ⟨h, Encode.shows_make ..⟩)⟩
  | red o =>
    exact ⟨_, rfl, congrArg (Option.map _) (Dec.red_eq_some.2 ⟨h, Encode.shows_make ..⟩)⟩
  | fence o =>
    exact ⟨_, rfl, congrArg (Option.map _) (Dec.fence_eq_some.2 ⟨h, Encode.shows_make ..⟩)⟩
  | waitv o =>
    exact ⟨_, rfl, congrArg (Option.map _) (Dec.waitv_eq_some.2 ⟨h, Encode.shows_make ..⟩)⟩
  | pref o =>
    exact ⟨_, rfl, congrArg (Option.map _) (Dec.pref_eq_some.2 ⟨h, Encode.shows_make ..⟩)⟩
  | cline o =>
    exact ⟨_, rfl, congrArg (Option.map _) (Dec.cline_eq_some.2 ⟨h, Encode.shows_make ..⟩)⟩
  | lease o =>
    exact ⟨_, rfl, congrArg (Option.map _) (Dec.lease_eq_some.2 ⟨h, Encode.shows_make ..⟩)⟩
  | brload o =>
    exact ⟨_, rfl, congrArg (Option.map _) (Dec.brload_eq_some.2 ⟨h, Encode.shows_make ..⟩)⟩
  | bufdecl o =>
    exact ⟨_, rfl, congrArg (Option.map _) (Dec.bufdecl_eq_some.2 ⟨h, Encode.shows_make ..⟩)⟩
  | bufrel o =>
    exact ⟨_, rfl, congrArg (Option.map _) (Dec.bufrel_eq_some.2 ⟨h, Encode.shows_make ..⟩)⟩
  | barinit o =>
    exact ⟨_, rfl, congrArg (Option.map _) (Dec.barinit_eq_some.2 ⟨h, Encode.shows_make ..⟩)⟩
  | barinval o =>
    exact ⟨_, rfl, congrArg (Option.map _) (Dec.barinval_eq_some.2 ⟨h, Encode.shows_make ..⟩)⟩
  | bararrive o =>
    exact ⟨_, rfl, congrArg (Option.map _) (Dec.bararrive_eq_some.2 ⟨h, Encode.shows_make ..⟩)⟩
  | barexpect o =>
    exact ⟨_, rfl, congrArg (Option.map _) (Dec.barexpect_eq_some.2 ⟨h, Encode.shows_make ..⟩)⟩
  | barwait o =>
    exact ⟨_, rfl, congrArg (Option.map _) (Dec.barwait_eq_some.2 ⟨h, Encode.shows_make ..⟩)⟩
  | barphase o =>
    exact ⟨_, rfl, congrArg (Option.map _) (Dec.barphase_eq_some.2 ⟨h, Encode.shows_make ..⟩)⟩
  | cpyslice o =>
    exact ⟨_, rfl, congrArg (Option.map _) (Dec.cpyslice_eq_some.2 ⟨h, Encode.shows_make ..⟩)⟩
  | cpystat o | cpycancel o =>
    exact ⟨_, rfl, congrArg (Option.map _) (Dec.cpy_eq_some.2 ⟨h, Encode.shows_make ..⟩)⟩
  | layout o =>
    exact ⟨_, rfl, congrArg (Option.map _) (Dec.layout_eq_some.2 ⟨h, Encode.shows_make ..⟩)⟩
  | mclaim o =>
    exact ⟨_, rfl, congrArg (Option.map _) (Dec.mclaim_eq_some.2 ⟨h, Encode.shows_make ..⟩)⟩
  | mrel o =>
    exact ⟨_, rfl, congrArg (Option.map _) (Dec.mrel_eq_some.2 ⟨h, Encode.shows_make ..⟩)⟩
  | mload o =>
    exact ⟨_, rfl, congrArg (Option.map _) (Dec.mload_eq_some.2 ⟨h, Encode.shows_make ..⟩)⟩
  | mloop o =>
    exact ⟨_, rfl, congrArg (Option.map _) (Dec.mloop_eq_some.2 ⟨h, Encode.shows_make ..⟩)⟩
  | mma o =>
    exact ⟨_, rfl, congrArg (Option.map _) (Dec.mma_eq_some.2 ⟨h, Encode.shows_make ..⟩)⟩
  | mscale o =>
    exact ⟨_, rfl, congrArg (Option.map _) (Dec.mscale_eq_some.2 ⟨h, Encode.shows_make ..⟩)⟩
  | msparse o =>
    exact ⟨_, rfl, congrArg (Option.map _) (Dec.msparse_eq_some.2 ⟨h, Encode.shows_make ..⟩)⟩
  | mfence o =>
    exact ⟨_, rfl, congrArg (Option.map _) (Dec.mfence_eq_some.2 ⟨h, Encode.shows_make ..⟩)⟩
  | mwait o =>
    exact ⟨_, rfl, congrArg (Option.map _) (Dec.mwait_eq_some.2 ⟨h, Encode.shows_make ..⟩)⟩
  | popw o =>
    exact ⟨_, rfl, congrArg (Option.map _) (Dec.popw_eq_some.2 ⟨h, Encode.shows_make ..⟩)⟩
  | pushw o =>
    exact ⟨_, rfl, congrArg (Option.map _) (Dec.pushw_eq_some.2 ⟨h, Encode.shows_make ..⟩)⟩
  | notify o =>
    exact ⟨_, rfl, congrArg (Option.map _) (Dec.notify_eq_some.2 ⟨h, Encode.shows_make ..⟩)⟩
  | mbind o =>
    exact ⟨_, rfl, congrArg (Option.map _) (Dec.mbind_eq_some.2 ⟨h, Encode.shows_make ..⟩)⟩
  | xld o =>
    exact ⟨_, rfl, congrArg (Option.map _) (Dec.xld_eq_some.2 ⟨h, Encode.shows_make ..⟩)⟩
  | xst o =>
    exact ⟨_, rfl, congrArg (Option.map _) (Dec.xst_eq_some.2 ⟨h, Encode.shows_make ..⟩)⟩
  | xatom o =>
    exact ⟨_, rfl, congrArg (Option.map _) (Dec.xatom_eq_some.2 ⟨h, Encode.shows_make ..⟩)⟩
  | xsig o =>
    exact ⟨_, rfl, congrArg (Option.map _) (Dec.xsig_eq_some.2 ⟨h, Encode.shows_make ..⟩)⟩
  | xfence o =>
    exact ⟨_, rfl, congrArg (Option.map _) (Dec.xfence_eq_some.2 ⟨h, Encode.shows_make ..⟩)⟩
  | getsr o =>
    exact ⟨_, rfl, congrArg (Option.map _) (Dec.getsr_eq_some.2 ⟨h, Encode.shows_make ..⟩)⟩
  | setsr o =>
    exact ⟨_, rfl, congrArg (Option.map _) (Dec.setsr_eq_some.2 ⟨h, Encode.shows_make ..⟩)⟩
  | getid o =>
    exact ⟨_, rfl, congrArg (Option.map _) (Dec.getid_eq_some.2 ⟨h, Encode.shows_make ..⟩)⟩
  | clock o =>
    exact ⟨_, rfl, congrArg (Option.map _) (Dec.clock_eq_some.2 ⟨h, Encode.shows_make ..⟩)⟩
  | halt o =>
    exact ⟨_, rfl, congrArg (Option.map _) (Dec.halt_eq_some.2 ⟨h, Encode.shows_make ..⟩)⟩
  | cvts o =>
    have hs := Encode.shows_make 0x41 o.g (Encode.cvts o).w.mod o.d.field o.a o.b (o.c.getD .unused) .none
    exact ⟨_, congrArg some (Encode.cvts_eq_make o), congrArg (Option.map _) (Dec.cvts_eq_some.2 ⟨h, hs⟩)⟩
  | movi96 o => exact ⟨_, rfl, Dec.movi_eq_movi96.2 ⟨h, Encode.shows_make ..⟩⟩
  | movi128 o => exact ⟨_, rfl, Dec.movi_eq_movi128.2 ⟨h, Encode.shows_make ..⟩⟩
  | movkFromScalar o => exact ⟨_, rfl, Dec.movk_eq_movkFromScalar.2 ⟨h, Encode.shows_make ..⟩⟩
  | movkImmediate o => exact ⟨_, rfl, Dec.movk_eq_movkImmediate.2 ⟨h, Encode.shows_make ..⟩⟩
  | movkToScalar o => exact ⟨_, rfl, Dec.movk_eq_movkToScalar.2 ⟨h, Encode.shows_make ..⟩⟩
  | call o => exact ⟨_, rfl, Dec.call_eq_call.2 ⟨h, Encode.shows_make ..⟩⟩
  | callR o => exact ⟨_, rfl, Dec.call_eq_callR.2 ⟨h, Encode.shows_make ..⟩⟩
  | bufstateGet o => exact ⟨_, rfl, Dec.bufstate_eq_bufstateOf (op := .get).2 ⟨h, Encode.shows_make ..⟩⟩
  | bufstateFill o => exact ⟨_, rfl, Dec.bufstate_eq_bufstateOf (op := .fill).2 ⟨h, Encode.shows_make ..⟩⟩
  | bufstateDrain o => exact ⟨_, rfl, Dec.bufstate_eq_bufstateOf (op := .drain).2 ⟨h, Encode.shows_make ..⟩⟩
  | bufstateFree o => exact ⟨_, rfl, Dec.bufstate_eq_bufstateOf (op := .free).2 ⟨h, Encode.shows_make ..⟩⟩
  | bufstateWfull o => exact ⟨_, rfl, Dec.bufstate_eq_bufstateOf (op := .wfull).2 ⟨h, Encode.shows_make ..⟩⟩
  | bufstateWfree o => exact ⟨_, rfl, Dec.bufstate_eq_bufstateOf (op := .wfree).2 ⟨h, Encode.shows_make ..⟩⟩
  | cpyregLd o => exact ⟨_, rfl, Dec.cpyreg_eq_cpyregLd.2 ⟨h, Encode.shows_make ..⟩⟩
  | cpyregSt o => exact ⟨_, rfl, Dec.cpyreg_eq_cpyregSt.2 ⟨h, Encode.shows_make ..⟩⟩
  | _ => cases h

/-! ### The obligations -/

/-- Settles O57: an instruction's encoding decodes to it, and its bytes give back that encoding. -/
theorem encodeDecodeRoundTrip : Obligations.EncodeDecodeRoundTrip := by
  intro i hi
  obtain ⟨e, he, hd⟩ := decode_encode hi
  exact ⟨e, he, decodeBytes_bytes hd⟩

/-- Settles O58: bytes that decode are the bytes of an encoding, which is the encoding of what it decodes to. -/
theorem decodedBytesAreEncodings : Obligations.DecodedBytesAreEncodings := by
  intro bs i n h
  obtain ⟨e, hd, hn, hb⟩ := exists_enc_of_decodeBytes h
  obtain ⟨hw, he⟩ := encode_of_decode hd
  exact ⟨hw, hn, by rw [encodeBytes, he, Option.map_some, hb]⟩

end Sys2Proof
end

section
/-! ## Registers (R29, R92, R113) and the worked encodings -/

namespace Sys2Proof.Machine

/-- Settles O59: each byte string decodes as the manual writes it out. -/
theorem workedWordsDecode : Obligations.WorkedWordsDecode := by
  refine ⟨?_, ?_, ?_, ?_, ?_, ?_⟩ <;> rfl

theorem Weft.cell_lane_toNat (w : Weft) {t : Nat} (ht : t < 32) : (w.cell .lane t).val.toNat = t := by
  rw [Weft.cell, BitVec.toNat_ofNat]
  omega

@[simp] theorem Weft.s_setK (w : Weft) (n : BitVec 3) (m : Mask) (j : Nat) : (w.setK n m).s j = w.s j := by
  unfold Weft.setK
  split <;> rfl

@[simp] theorem Weft.v_setK (w : Weft) (n : BitVec 3) (m : Mask) (j t : Nat) : (w.setK n m).v j t = w.v j t := by
  unfold Weft.setK
  split <;> rfl

/-- Settles O50: constant registers deliver their constants, and a register read after a write gives what was written to it. -/
theorem registerReadsAndWrites : Obligations.RegisterReadsAndWrites := by
  refine ⟨fun w t => ⟨rfl, rfl, fun ht => ⟨w.cell_lane_toNat ht, rfl⟩⟩, fun w t c => ⟨rfl, rfl⟩, ?_, ?_, ?_⟩
  · intro w n t c ht
    refine ⟨?_, fun m r hr hm => ?_, fun m => rfl, fun m => rfl⟩
    · rw [Weft.put, Weft.v_setV _ _ _ _ _ _ ht ht, if_pos ⟨rfl, rfl⟩]
    · rw [Weft.put, Weft.v_setV _ _ _ _ _ _ ht hr, if_neg fun h => hm (Prod.ext h.1.symm h.2.symm)]
  · intro w n t c
    refine ⟨?_, fun m hm => ?_, fun m r => rfl, fun m => rfl⟩
    · rw [Weft.put, Weft.s_setS, if_pos rfl]
    · rw [Weft.put, Weft.s_setS, if_neg hm.symm]
  · intro w n t c hn
    refine ⟨?_, fun m hm => ?_, fun m => w.s_setK .., fun m r => w.v_setK ..⟩
    · rw [Weft.put, Weft.k_setK, if_pos ⟨rfl, hn⟩]
    · rw [Weft.put, Weft.k_setK, if_neg fun h => hm h.1.symm]

/-! ## The turn of a weft (R36, R86) -/

section Turn

variable {s u v : State} {h : Nat}

theorem issue_of_active (ha : (s.weft h).status = .active) (hl : (s.weft h).alive ≠ 0) : s.issue h = s.issueActive h := by
  simp only [State.issue, ha, hl, if_false]

/-- A step in which the current weft fetches is its fetch and what comes of it. -/
theorem step_of_turn (ht : Turn s) : step s = s.issueActive s.cur := by
  simp only [step, ht.power, ht.agenda, issue_of_active ht.active ht.alive, Bool.false_eq_true, if_false]

theorem step_of_fetch_hold (ht : Turn s) (hf : s.fetch s.cur = (u, .hold)) :
    step s = .next (u.noteTurn s.cur none (u.setWeft s.cur { u.weft s.cur with wait := some .mig })) := by
  rw [step_of_turn ht]
  simp [State.issueActive, ht.issues, ht.free, ht.failed, hf]

theorem step_of_fetch_trap {t : Trap} (ht : Turn s) (hf : s.fetch s.cur = (u, .trap t)) :
    step s = .next (u.noteTurn s.cur none (takeTrap u s.cur t)) := by
  rw [step_of_turn ht]
  simp [State.issueActive, ht.issues, ht.free, ht.failed, hf]

theorem step_of_fetch_go {i : Instr} {n : Nat} (ht : Turn s) (hf : s.fetch s.cur = (u, .go i n)) :
    step s = u.issueInstr s.cur i := by
  rw [step_of_turn ht]
  simp [State.issueActive, ht.issues, ht.free, ht.failed, hf]

/-! ### The fetch (R23, R36 steps 1 to 6, R362) -/

theorem fetch_mig (ht : s.translate (s.coreOf (s.weft h)) (s.asidOf (s.weft h)) (s.weft h).pc.toNat .fetch = (u, .mig)) :
    s.fetch h = (u, .hold) := by
  simp only [State.fetch, ht]

theorem fetch_fault {c : BitVec 8} {i : Nat}
    (ht : s.translate (s.coreOf (s.weft h)) (s.asidOf (s.weft h)) (s.weft h).pc.toNat .fetch = (u, .fault c i)) :
    s.fetch h = (u, .trap ((s.weft h).fault c (info := i) (addr := (s.weft h).pc.toNat))) := by
  simp only [State.fetch, ht]

variable {pa : Nat}
  (ht : s.translate (s.coreOf (s.weft h)) (s.asidOf (s.weft h)) (s.weft h).pc.toNat .fetch = (u, .ok pa))

include ht

theorem fetch_misaligned (hp : (s.weft h).pc.toNat % 4 ≠ 0 ∨ (s.weft h).pc.toNat % 32 = 28) :
    s.fetch h = (u, .trap ((s.weft h).fault cBoundary)) := by
  simp [State.fetch, ht, hp]

theorem fetch_aborted (h4 : (s.weft h).pc.toNat % 4 = 0) (h28 : (s.weft h).pc.toNat % 32 ≠ 28)
    (hc : u.codeRead (s.weft h) pa (32 - (s.weft h).pc.toNat % 32) = (v, none)) :
    s.fetch h = (v, .trap ((s.weft h).fault cAbort (addr := (s.weft h).pc.toNat))) := by
  simp [State.fetch, ht, h4, h28, hc]

theorem fetch_read {bytes : List Byte} (h4 : (s.weft h).pc.toNat % 4 = 0) (h28 : (s.weft h).pc.toNat % 32 ≠ 28)
    (hc : u.codeRead (s.weft h) pa (32 - (s.weft h).pc.toNat % 32) = (v, some bytes)) :
    s.fetch h = (v, (s.weft h).decodeAt bytes) := by
  simp [State.fetch, ht, h4, h28, hc]

end Turn

/-- Settles O43: each failure of the fetch is the trap, or the hold, that the step then takes. -/
theorem fetchFaults : Obligations.FetchFaults := by
  intro s u ht
  refine ⟨fun c i hf => step_of_fetch_trap ht (fetch_fault hf), fun hf => step_of_fetch_hold ht (fetch_mig hf), fun pa hf => ?_⟩
  refine ⟨fun hp => step_of_fetch_trap ht (fetch_misaligned hf hp), fun h4 h28 v => ?_⟩
  refine ⟨fun hc => step_of_fetch_trap ht (fetch_aborted hf h4 h28 hc), fun bytes hc => ?_⟩
  have hr := fetch_read hf h4 h28 hc
  refine ⟨fun hd => ?_, fun hd => ?_, fun hd => ?_⟩ <;>
    exact step_of_fetch_trap ht (hr.trans (by simp only [Weft.decodeAt, hd]))

/-! ### Noting a turn (R258, R384) -/

/-- What noting a turn may change: the measure of a context. -/
structure NotedCtx (t u : State) : Prop where
  wefts : u.wefts = t.wefts
  rest : { u with ctxs := t.ctxs } = t

theorem NotedCtx.refl (t : State) : NotedCtx t t := ⟨rfl, rfl⟩

theorem NotedCtx.progressed (t : State) (asid : Nat) : NotedCtx t (t.progressed asid) := by
  unfold State.progressed
  split
  · exact ⟨rfl, rfl⟩
  · exact .refl t

theorem NotedCtx.noteExempt (t : State) (asid : Nat) : NotedCtx t (t.noteExempt asid) := by
  unfold State.noteExempt
  split
  · exact .progressed t asid
  · exact .refl t

/-- The state of a weft that has issued one instruction more in its lease window. -/
def State.countIssue (t : State) (h : Nat) : State := t.mapWeft h (fun w => { w with issued := w.issued + 1 })

theorem NotedCtx.noteTurn (s t : State) (h : Nat) (i : Option Instr) :
    NotedCtx t (s.noteTurn h i t) ∨ NotedCtx (t.countIssue h) (s.noteTurn h i t) := by
  unfold State.noteTurn State.countIssue
  dsimp only
  split <;> split
  · exact .inr (.progressed ..)
  · exact .inr (.noteExempt ..)
  · exact .inl (.progressed ..)
  · exact .inl (.noteExempt ..)

/-- Counting an issue changes nothing else of a weft. -/
theorem weft_countIssue (t : State) (h g : Nat) :
    { (t.countIssue h).weft g with issued := (t.weft g).issued } = t.weft g := by
  by_cases hg : g = h
  · subst hg
    cases hw : Store.find t.wefts g with
    | none => simp [State.countIssue, State.mapWeft, Store.modify, State.weft, hw]
    | some w =>
      rw [State.countIssue, State.weft_mapWeft_same _ hw, State.weft, Store.get, hw]
      rfl
  · rw [State.countIssue, State.weft_mapWeft_ne _ _ hg]

theorem NotedCtx.weft {t u : State} (h : NotedCtx t u) (g : Nat) : u.weft g = t.weft g := by
  rw [State.weft, State.weft, h.wefts]

theorem NotedCtx.device {t u : State} (h : NotedCtx t u) : { u with ctxs := t.ctxs, wefts := t.wefts } = t := by
  rw [← h.wefts]
  exact h.rest

/-- Noting a turn changes contexts and wefts only. -/
theorem noteTurn_device (s t : State) (h : Nat) (i : Option Instr) :
    { s.noteTurn h i t with ctxs := t.ctxs, wefts := t.wefts } = t := by
  obtain hn | hn := NotedCtx.noteTurn s t h i
  · exact hn.device
  · exact congrArg (fun x : State => { x with wefts := t.wefts }) hn.device

/-- Of a weft, noting a turn changes the count of its lease window only. -/
theorem weft_noteTurn (s t : State) (h g : Nat) (i : Option Instr) :
    { (s.noteTurn h i t).weft g with issued := (t.weft g).issued } = t.weft g := by
  obtain hn | hn := NotedCtx.noteTurn s t h i
  · rw [hn.weft]
  · rw [hn.weft, weft_countIssue]

/-! ### Issuing the instruction decoded (R428) -/

section Issue

variable {s t : State} {h : Nat} {i : Instr}

theorem issueInstr_free (hs : s.seeks (s.weft h) = false) (hx : exec i { s with cur := h } = .next t) :
    s.issueInstr h i = .next (s.noteTurn h (some i) t) := by
  simp [State.issueInstr, hs, hx]

theorem issueInstr_fault {f : Fault} (hs : s.seeks (s.weft h) = false) (hx : exec i { s with cur := h } = .fault f) :
    s.issueInstr h i = .fault f := by
  simp [State.issueInstr, hs, hx]

theorem issueInstr_refused {r : Refusal} (hs : s.seeks (s.weft h) = false) (hx : exec i { s with cur := h } = .refused r) :
    s.issueInstr h i = .refused r := by
  simp [State.issueInstr, hs, hx]

theorem issueInstr_withheld (hs : s.seeks (s.weft h) = true) (hp : (s.weft h).startsProducer i = true) :
    s.issueInstr h i = .next (s.stay h) := by
  simp [State.issueInstr, hs, hp]

theorem issueInstr_seeking (hs : s.seeks (s.weft h) = true) (hp : (s.weft h).startsProducer i = false)
    (hx : exec i { s with cur := h } = .next t) :
    s.issueInstr h i = .next (if (t.weft h).wait.isSome then s.stay h
      else (s.noteTurn h (some i) t).mapWeft h (fun w => { w with seek := w.seek + 1 })) := by
  simp only [State.issueInstr, hs, hp, hx, Bool.and_false, Bool.true_and, Bool.false_eq_true, if_false, if_true]
  split <;> rfl

end Issue

theorem step_of_event {s : State} {i : Instr} {rest : List Task} (hp : s.power.off = false) (ha : s.agenda = .ev i :: rest) :
    step s = exec i { s with agenda := rest } := by
  simp [step, hp, ha, State.runTask]

theorem step_of_issue {s : State} {h : Nat} {rest : List Task} (hp : s.power.off = false) (ha : s.agenda = .issue h :: rest) :
    step s = State.issue { s with agenda := rest } h := by
  simp [step, hp, ha, State.runTask]

/-- Settles O42: the fetch finds the instruction, and the step issues it. -/
theorem stepRunsDecodedInstruction : Obligations.StepRunsDecodedInstruction := by
  refine ⟨?_, fun s i rest => step_of_event, fun s h rest => step_of_issue⟩
  intro s u v pa bytes i n ht hx h4 h28 hc hd
  have hf : s.fetch s.cur = (v, .go i n) :=
    (fetch_read hx h4 h28 hc).trans (by simp only [Weft.decodeAt, hd])
  rw [step_of_fetch_go ht hf]
  refine ⟨fun hs => ⟨fun t he => ?_, fun f => issueInstr_fault hs, fun r => issueInstr_refused hs⟩,
    fun hs => ⟨issueInstr_withheld hs, fun t hp => issueInstr_seeking hs hp⟩⟩
  exact ⟨issueInstr_free hs he, noteTurn_device .., fun g => weft_noteTurn v t s.cur g (some i)⟩

end Sys2Proof.Machine
end

section
/-! ## The checks of a form (R36 steps 7 to 10) -/

namespace Sys2Proof.Machine

section Operate

variable {s : State} {h : Nat} {F : Form} {body : Weft → Mask → Eff} {t : Trap}

theorem operate_decodeFault (hd : F.decodeFault s (s.weft h) = some t) : s.operate h F body = .trap s t := by
  simp only [State.operate, hd]

variable (hd : F.decodeFault s (s.weft h) = none) (hs : (s.weft h).selected F.g ≠ 0)

include hd hs

theorem operate_readyTrap (hr : F.ready (s.weft h) ((s.weft h).selected F.g) = .trap t) : s.operate h F body = .trap s t := by
  simp only [State.operate, hd, hs, hr, if_false]

theorem operate_readyHold {x : Wait} (hr : F.ready (s.weft h) ((s.weft h).selected F.g) = .hold x) :
    s.operate h F body = .hold s x := by
  simp only [State.operate, hd, hs, hr, if_false]

theorem operate_tagFault (hr : F.ready (s.weft h) ((s.weft h).selected F.g) = .go)
    (hb : s.regAbort h F (s.weft h) ((s.weft h).selected F.g) = none)
    (hg : F.tagFault (s.weft h) ((s.weft h).selected F.g) = some t) : s.operate h F body = .trap s t := by
  simp only [State.operate, hd, hs, hr, hb, hg, if_false]

end Operate

/-- In an active weft that is not shadowed an instruction runs once. -/
theorem runAt_unshadowed {s : State} (ha : s.me.status = .active) (hp : s.me.shadowed = false) (point : Bool) (len : Nat)
    (f : State → Nat → Eff) : runAt point s len f = .next ((f s s.cur).settle s.cur len).wake := by
  simp only [State.me] at ha hp
  simp only [runAt, ha, hp, Bool.false_eq_true, if_true, if_false]

/-- The instruction runs as an operation on the form `F`, whatever it does once the form's checks have passed. -/
def Operates (i : Instr) (F : Form) : Prop :=
  ∀ s, ∃ p len f body, exec i s = runAt p s len f ∧ f s s.cur = s.operate s.cur F body

/-- An operation's checks come before its effect. -/
theorem Operates.checked {i : Instr} {F : Form} (hi : Operates i F) : Checked i F := by
  intro s ha hp
  obtain ⟨p, len, f, body, hx, hf⟩ := hi s
  rw [hx, runAt_unshadowed ha hp, hf]
  refine ⟨fun t hd => ?_, fun hd hs => ⟨fun t hr => ?_, fun x hr => ?_, fun t hr hb hg => ?_⟩⟩
  · rw [operate_decodeFault hd]; rfl
  · rw [operate_readyTrap hd hs hr]; rfl
  · rw [operate_readyHold hd hs hr]; rfl
  · rw [operate_tagFault hd hs hr hb hg]; rfl

/-- An instruction that computes a value per thread is an operation. -/
theorem Operates.of_computed {i : Instr} {F : Form} {p : Bool} {len : Nat} {d : Reg} {val : Weft → Nat → Cell × Flags}
    (hi : ∀ s, exec i s = runAt p s len (computed F d val)) : Operates i F :=
  fun s => ⟨p, len, _, _, hi s, rfl⟩

/-- An instruction that runs as an access is an operation whose effect waits for the acquires before it. -/
theorem Operates.of_access {i : Instr} {F : Form} {p : Bool} {len : Nat} {f : State → Nat → Eff}
    {body : State → Weft → Mask → Eff} (hi : ∀ s, exec i s = runAt p s len f)
    (hf : ∀ s, f s s.cur = s.access s.cur F (body s)) : Operates i F :=
  fun s => ⟨p, len, f, _, hi s, hf s⟩

theorem operates_intBin : ∀ p ∈ [Instr.iadd, Instr.isub, Instr.imul, Instr.imulhi, Instr.imin, Instr.imax, Instr.shl, Instr.shr, Instr.sar,
    Instr.rot, Instr.bfx], ∀ o : IBin, Operates (p o) (binForm o.g cInt tInt o.d o.a o.b) := by
  simp only [List.forall_mem_cons]
  refine ⟨?_, ?_, ?_, ?_, ?_, ?_, ?_, ?_, ?_, ?_, ?_, fun _ h => nomatch h⟩ <;>
    exact fun o => .of_computed fun _ => rfl

theorem operates_intUn : ∀ p ∈ [Instr.ineg, Instr.iabs, Instr.popc, Instr.clz, Instr.ctz, Instr.brev], ∀ o : IUn,
    Operates (p o) (unForm o.g cInt tInt o.d o.a) := by
  simp only [List.forall_mem_cons]
  refine ⟨?_, ?_, ?_, ?_, ?_, ?_, fun _ h => nomatch h⟩ <;>
    exact fun o => .of_computed fun _ => rfl

theorem operates_intTri : ∀ p ∈ [Instr.imad, Instr.isel, Instr.bfi], ∀ o : ITri,
    Operates (p o) (triForm o.g cInt tInt o.d o.a o.b o.c) := by
  simp only [List.forall_mem_cons]
  refine ⟨?_, ?_, ?_, fun _ h => nomatch h⟩ <;>
    exact fun o => .of_computed fun _ => rfl

theorem operates_bitBin : ∀ p ∈ [Instr.and, Instr.or, Instr.xor, Instr.andn], ∀ o : LBin,
    Operates (p o) (binForm o.g cInt none o.d o.a o.b) := by
  simp only [List.forall_mem_cons]
  refine ⟨?_, ?_, ?_, ?_, fun _ h => nomatch h⟩ <;>
    exact fun o => .of_computed fun _ => rfl

theorem operates_fltBin : ∀ p ∈ [Instr.fadd, Instr.fsub, Instr.fmul, Instr.fdiv], ∀ o : FBin,
    Operates (p o) (binForm o.g cFlt (tFlt o.w) o.d o.a o.b) := by
  simp only [List.forall_mem_cons]
  refine ⟨?_, ?_, ?_, ?_, fun _ h => nomatch h⟩ <;>
    exact fun o => .of_computed fun _ => rfl

theorem operates_ffma (o : FTri) : Operates (.ffma o) (triForm o.g cFlt (tFlt o.w) o.d o.a o.b o.c) :=
  .of_computed fun _ => rfl

theorem operates_rft (o : PlainArgs) : Operates (.rft o) (.plain o.g []) :=
  fun _ => ⟨_, _, _, _, rfl, rfl⟩

theorem operates_ret (o : RetArgs) : Operates (.ret o) (.plain o.g [opS 1 [.s] (some [1]) o.a]) :=
  fun _ => ⟨_, _, _, _, rfl, rfl⟩

theorem operates_ld (o : LdArgs) : Operates (.ld o) (recForm o.g o.br [opS 2 cOff tInt o.off, opD [.v] o.d]) :=
  .of_access (fun _ => rfl) fun _ => rfl

theorem operates_ldu (o : LdArgs) : Operates (.ldu o) (recForm o.g o.br [opS 2 [.s, .z] tInt o.off, opD [.s] o.d]) :=
  .of_access (fun _ => rfl) fun _ => rfl

/-- Settles O44: each instruction is an operation on its form, and an operation begins with the form's checks. -/
theorem formChecksFault : Obligations.FormChecksFault :=
  ⟨fun p hp o => (operates_intBin p hp o).checked, fun p hp o => (operates_intUn p hp o).checked,
    fun p hp o => (operates_intTri p hp o).checked, fun p hp o => (operates_bitBin p hp o).checked,
    fun p hp o => (operates_fltBin p hp o).checked, fun o => (operates_ffma o).checked,
    fun o => (operates_rft o).checked, fun o => (operates_ret o).checked,
    fun o => (operates_ld o).checked, fun o => (operates_ldu o).checked⟩

end Sys2Proof.Machine
end

section
/-! ## From an operation's body to its completion (R36)

What a body gives for the conditions of an effect, its instruction completes with: each of `Effects`, `Moves` and `Faults` from
the one fact about the body. -/

namespace Sys2Proof.Machine

section Body

variable {i : Instr} {p : Bool} {F : Form} {len : Nat} {body : State → Nat → Weft → Mask → Eff}
  (hi : ∀ s, exec i s = runAt p s len (fun s h => s.operate h F (body s h)))

include hi

theorem Effects.of_body {rel : State → Weft → Mask → State → Prop}
    (hb : ∀ s w sel u, rel s w sel u → body s s.cur w sel = .done u) : Effects Executes i F len rel := by
  intro s sel
  rw [hi]
  exact ⟨fun h u hu => run_done (F := fun _ _ => F) h (hb s _ sel u hu), run_skip (F := fun _ _ => F)⟩

theorem Moves.of_body {rel : State → Weft → Mask → State → Prop}
    (hb : ∀ s w sel u, rel s w sel u → body s s.cur w sel = .moved u) : Moves i F len rel := by
  intro s sel
  rw [hi]
  exact ⟨fun h u hu => run_moved (F := fun _ _ => F) h (hb s _ sel u hu), run_skip (F := fun _ _ => F)⟩

theorem Faults.of_body {rel : State → Weft → Mask → State → Trap → Prop}
    (hb : ∀ s w sel u t, rel s w sel u t → body s s.cur w sel = .trap u t) : Faults Executes i F rel := by
  intro s sel h u t ht
  rw [hi]
  exact run_trap (F := fun _ _ => F) h (hb s _ sel u t ht)

end Body

end Sys2Proof.Machine
end

section
/-! ## System instructions (R65, R67, R172 to R174, R484) -/

namespace Sys2Proof.Machine

/-- Settles O24: each instruction is an operation, whose body tests the statement's condition and then makes its effect. -/
theorem systemInstructionsComplete : Obligations.SystemInstructionsComplete := by
  refine ⟨fun o => .of_body (fun _ => rfl) ?getsr, fun o => .of_body (fun _ => rfl) ?setsr, fun o => .of_body (fun _ => rfl) ?setsrFault,
    fun o => .of_body (fun _ => rfl) ?getid, fun o => .of_body (fun _ => rfl) ?clock, fun o => .of_body (fun _ => rfl) ?canon,
    fun o => .of_body (fun _ => rfl) ?halt⟩
  case getsr =>
    rintro s w sel u ⟨hflags, rfl⟩
    refine if_neg fun howes => ?_
    obtain ⟨hn, hw⟩ := (Bool.and_eq_true _ _).mp howes
    have hnum : o.num = 1 := BitVec.eq_of_toNat_eq (of_decide_eq_true hn)
    exact Bool.false_ne_true ((hflags hnum).symm.trans hw)
  case setsr =>
    rintro s w sel u ⟨x, rfl, hok, rfl⟩
    exact if_pos hok
  case setsrFault =>
    rintro s w sel u t ⟨hbad, rfl, rfl⟩
    exact if_neg (Bool.eq_false_iff.mp hbad)
  case getid =>
    rintro s w sel u rfl
    rfl
  case clock =>
    rintro s w sel u rfl
    rfl
  case canon =>
    rintro s w sel u ⟨hw, rfl⟩
    exact if_pos hw
  case halt =>
    rintro s w sel u ⟨hdrained, rfl⟩
    exact if_neg (Bool.eq_false_iff.mp hdrained)

end Sys2Proof.Machine
end

section
/-! ## Path and trap instructions (R102, R106, R108, R155, R160, R181) -/

namespace Sys2Proof.Machine

theorem codeOf_eq_getD (c : Option (BitVec 32)) : codeOf c = (c.map BitVec.toNat).getD 0 := by
  cases c <;> rfl

theorem codeLen_eq_ite (c : Option (BitVec 32)) : codeLen c = if c.isSome then 12 else 8 := by
  cases c <;> rfl

theorem Weft.mayReturn_iff (w : Weft) :
    w.mayReturn = true ↔ w.tstat.getLsbD 0 = true ∧ w.stack.length % 32 = w.tstat.toNat / 256 % 32 := by
  rw [Weft.mayReturn, Bool.and_eq_true, decide_eq_true_iff]

theorem Weft.not_mayReturn_iff (w : Weft) :
    ¬ w.mayReturn = true ↔ w.tstat.getLsbD 0 = false ∨ w.stack.length % 32 ≠ w.tstat.toNat / 256 % 32 := by
  rw [w.mayReturn_iff, not_and_or, Bool.not_eq_true]

/-- A NOP that executes leaves what one that selects no thread leaves. -/
theorem exec_nop_skips {o : PlainArgs} {s : State} {sel : Mask} (h : Executes s (.plain o.g []) sel ∨ Issues s (.plain o.g []) 0) :
    ∃ t, exec (.nop o) s = .next t ∧ Skipped s t 8 := by
  obtain h | h := h
  · exact ⟨_, run_done (F := fun _ _ => .plain o.g []) (body := fun s _ _ _ => .done s) h rfl, Skipped.after s 8⟩
  · exact run_skip (F := fun _ _ => .plain o.g []) (body := fun s _ _ _ => .done s) h

/-- Settles O11: each instruction is an operation without operands whose body is the path's move or the fault; RFT's body asks first
whether a handler of this depth runs. -/
theorem pathAndTrapInstructionsComplete : Obligations.PathAndTrapInstructionsComplete := by
  refine ⟨fun o => .of_body (fun _ => rfl) ?join, fun o => .of_body (fun _ => rfl) ?exit, fun o => .of_body (fun _ => rfl) ?yield,
    fun o s sel => exec_nop_skips, fun o => .of_body (fun _ => rfl) ?brk, fun o => .of_body (fun _ => rfl) ?trap,
    fun o => .of_body (fun _ => rfl) ?rft, fun o => .of_body (fun _ => rfl) ?rftFault⟩
  case join =>
    rintro s w sel u rfl
    rfl
  case exit =>
    rintro s w sel u rfl
    rfl
  case yield =>
    rintro s w sel u rfl
    rfl
  case brk =>
    rintro s w sel u t ⟨rfl, rfl⟩
    rw [codeOf_eq_getD]
  case trap =>
    rintro s w sel u t ⟨rfl, rfl⟩
    rw [codeOf_eq_getD, codeLen_eq_ite]
  case rft =>
    rintro s w sel u ⟨hinh, hdepth, x, rfl, rfl⟩
    exact if_pos (w.mayReturn_iff.mpr ⟨hinh, hdepth⟩)
  case rftFault =>
    rintro s w sel u t ⟨hbad, rfl, rfl⟩
    exact if_neg (w.not_mayReturn_iff.mpr hbad)

end Sys2Proof.Machine
end

section
/-! ## Trap records and the end of a weft (R94, R159, R182, R375) -/

namespace Sys2Proof.Machine

variable {s : State}

/-! ### A page that is pulled before the record (R440) -/

theorem RtEnt.ofBytes_nil_valid : (RtEnt.ofBytes []).valid = false := rfl

/-- A route found usable was read without an error: the hub has at most cached it. -/
theorem State.route_of_routeTo {pos : BitVec 24} {n : Nat} {e : RtEnt} (h : s.routeTo pos = some (n, e)) :
    ∃ f, (s.route n).1 = { s with fab := f } := by
  obtain ⟨m, -, hm⟩ := List.exists_of_findSome?_eq_some h
  dsimp only at hm
  split at hm
  case isFalse => cases hm
  case isTrue hok =>
    cases hm
    simp only [Bool.and_eq_true] at hok
    obtain ⟨⟨⟨hvalid, -⟩, -⟩, -⟩ := hok
    unfold State.route at hvalid ⊢
    split
    · exact ⟨s.fab, rfl⟩
    · next hmiss =>
      rw [hmiss] at hvalid
      dsimp only at hvalid ⊢
      split
      · next hbad =>
        rw [if_pos hbad] at hvalid
        exact absurd (RtEnt.ofBytes_nil_valid.symm.trans hvalid) Bool.false_ne_true
      · exact ⟨_, rfl⟩

theorem State.emit_fab (s : State) (p : Packet) : ∃ f, s.emit p = { s with fab := f } := by
  unfold State.emit
  split
  · exact ⟨_, rfl⟩
  · exact ⟨s.fab, rfl⟩

/-- A pull that is sent changes only the fabric. -/
theorem State.sendPull_fab {x : Holder} {a n : Nat} {t : State} (h : s.sendPull x a = some (n, t)) : ∃ f, t = { s with fab := f } := by
  unfold State.sendPull at h
  split at h
  · cases h
  · next r e hr =>
    cases h
    obtain ⟨f, hf⟩ := State.route_of_routeTo hr
    rw [hf]
    exact State.emit_fab _ _

/-- Asking for a page changes only the fabric and the pulls: no event comes of it. -/
theorem State.pullFor_device (s : State) (asid va : Nat) : ∃ f p, s.pullFor asid va = { s with fab := f, pulls := p } := by
  unfold State.pullFor
  dsimp only
  split
  · exact ⟨s.fab, s.pulls, rfl⟩
  · split
    · exact ⟨s.fab, _, rfl⟩
    · split
      · exact ⟨s.fab, _, rfl⟩
      · next hp =>
        obtain ⟨f, rfl⟩ := State.sendPull_fab hp
        exact ⟨f, _, rfl⟩

/-! ### Publishing a record (R182, R375) -/

/-- A record stands in the ring, and the event of it is numbered. -/
structure RingTaken (s : State) (w : Nat) (r : TrapRec) (t : State) : Prop where
  ring : t.trapRing = s.trapRing ++ [s.trapBytes (s.weft w) r s.nextSeq]
  interrupt : (t.hart t.sup.active).irqTrap = true
  events : t.events = s.events ++ [⟨s.nextSeq, 1, 0, s.asidOf (s.weft w)⟩]
  wefts : t.wefts = s.wefts
  mem : t.mem = s.mem

theorem State.irqTrap_interrupts (s : State) : (s.irqTrap.hart s.irqTrap.sup.active).irqTrap = true := by
  rw [State.irqTrap, State.setHart_sup, State.hart, State.setHart_harts, Store.get, Store.find_insert_same]
  rfl

theorem State.hart_ringPut (s : State) (l : List Byte) (n : Nat) : (s.ringPut l).hart n = s.irqTrap.hart n := rfl
theorem State.ringPut_sup (s : State) (l : List Byte) : (s.ringPut l).sup = s.irqTrap.sup := rfl
theorem State.ringPut_wefts (s : State) (l : List Byte) : (s.ringPut l).wefts = s.wefts := rfl
theorem State.ringPut_mem (s : State) (l : List Byte) : (s.ringPut l).mem = s.mem := rfl
theorem State.hart_event (s : State) (kind sub arg n : Nat) : (s.event kind sub arg).hart n = s.hart n := rfl

/-- A record enters the ring with the next event's number, whatever a pull has done to the fabric before. -/
theorem RingTaken.ringPut (s : State) (w : Nat) (r : TrapRec) (f : Fabric) (p : List Pull) :
    RingTaken s w r ((({ s with fab := f, pulls := p } : State).ringPut (s.trapBytes (s.weft w) r s.nextSeq)).event 1 0
      (s.asidOf (s.weft w))) where
  ring := rfl
  interrupt := by
    rw [State.hart_event, State.event_sup, State.hart_ringPut, State.ringPut_sup]
    exact State.irqTrap_interrupts _
  events := rfl
  wefts := by rw [State.event_wefts, State.ringPut_wefts]
  mem := by rw [State.event_mem, State.ringPut_mem]

theorem State.publishRing_eq (s : State) (w : Nat) (r : TrapRec) :
    ∃ u, RingTaken s w r u ∧ s.publishRing w r = u.markPublished w r s.nextSeq := by
  unfold State.publishRing
  dsimp only
  split
  · obtain ⟨f, p, h⟩ := s.pullFor_device (s.asidOf (s.weft w)) r.t.addr.toNat
    rw [h]
    exact ⟨_, .ringPut s w r f p, rfl⟩
  · exact ⟨_, .ringPut s w r s.fab s.pulls, rfl⟩

theorem State.weft_of_wefts {t : State} (h : t.wefts = s.wefts) (g : Nat) : t.weft g = s.weft g := by
  rw [State.weft, h, State.weft]

/-- Numbering the record of a weft changes that weft only. -/
theorem RingTaken.markPublished {w : Nat} {r : TrapRec} {u : State} (h : RingTaken s w r u) (hw : Store.find s.wefts w = some (s.weft w)) :
    let t := u.markPublished w r s.nextSeq
    t.trapRing = s.trapRing ++ [s.trapBytes (s.weft w) r s.nextSeq] ∧ (t.hart t.sup.active).irqTrap = true ∧
      t.events = s.events ++ [⟨s.nextSeq, 1, 0, s.asidOf (s.weft w)⟩] ∧
      (t.weft w).trec = some { r with published := true, seq := s.nextSeq } ∧ (∀ g, g ≠ w → t.weft g = s.weft g) ∧ t.mem = s.mem := by
  have hu : Store.find u.wefts w = some (s.weft w) := h.wefts ▸ hw
  refine ⟨h.ring, h.interrupt, h.events, congrArg Weft.trec (State.weft_mapWeft_same _ hu), fun g hg => ?_, h.mem⟩
  exact (State.weft_mapWeft_ne u _ hg).trans (State.weft_of_wefts h.wefts g)

/-- The record of a weft that stands for delivery, once its earlier accesses are performed. -/
structure RecordDue (s : State) (w : Nat) (r : TrapRec) : Prop where
  trec : (s.weft w).trec = some r
  status : (s.weft w).status = .parked ∨ (s.weft w).status = .swapped
  pending : r.published = false
  performed : s.performed w = true
  placed : s.displaced (s.courseOf (s.weft w)) = false

section Due

variable {w : Nat} {r : TrapRec} (h : RecordDue s w r)

include h

theorem RecordDue.guard :
    (!((s.weft w).status = .parked || (s.weft w).status = .swapped) || r.published || !s.performed w ||
      s.displaced (s.courseOf (s.weft w))) = false := by
  obtain hs | hs := h.status <;> simp [hs, h.pending, h.performed, h.placed]

/-- Of the routes only the mailbox's has an arm of its own, which `hr` rules out. -/
theorem exec_trapRecordPublish_ring (hr : r.route ≠ .mailbox) (hroom : s.trapRing.length < trapRingSlots) :
    exec (.trapRecordPublish w) s = .next (s.publishRing w r) := by
  change execTrapRecordPublish w s = _
  simp only [execTrapRecordPublish, h.trec, h.guard, hroom, Bool.false_eq_true, if_false, if_true]

theorem exec_trapRecordPublish_mark (hr : r.route = .mailbox) (ht : (s.weft w).relTags = none) :
    exec (.trapRecordPublish w) s = .next ((s.markAll (s.asidOf (s.weft w))).1.mapWeft w (fun v =>
      { v with relTags := some (s.markAll (s.asidOf (s.weft w))).2 })) := by
  change execTrapRecordPublish w s = _
  simp only [execTrapRecordPublish, h.trec, h.guard, hr, ht, Bool.false_eq_true, if_false]

theorem exec_trapRecordPublish_mailbox {tags : List Nat} (hr : r.route = .mailbox) (ht : (s.weft w).relTags = some tags)
    (ha : s.unanswered tags = false) (hg : s.gwBusy (s.asidOf (s.weft w)) = false) :
    exec (.trapRecordPublish w) s = .next (s.publishMailbox w r) := by
  change execTrapRecordPublish w s = _
  simp only [execTrapRecordPublish, h.trec, h.guard, hr, ht, ha, hg, Bool.or_self, Bool.false_eq_true, if_false]

end Due

/-! ### A slot of the ring is freed (R375) -/

theorem Heddled.mem {t : State} (h : Heddled s t) : t.mem = s.mem := by
  have := congrArg State.mem h.device
  exact this

theorem Heddled.trapRing {t : State} (h : Heddled s t) : t.trapRing = s.trapRing := by
  have := congrArg State.trapRing h.device
  exact this

/-- A weft that tries again because a slot is free: only the heddle's record of it changes. -/
theorem Heddled.ringRetry (s : State) (p : Nat × Weft) : Heddled s (s.ringRetry p) := by
  have hset : Heddled s (s.setWeft p.1 { s.weft p.1 with wait := none }) := .set _ _ _ rfl
  unfold State.ringRetry
  dsimp only
  split
  · exact (hset.trans (.ready _ _)).trans (.admitWefts _ _)
  · exact hset

theorem exec_trapRingSlotFree {l : List Byte} {rest : List (List Byte)} (h : s.trapRing = l :: rest) :
    exec .trapRingSlotFree s =
      .next ((s.wefts.filter (fun p => p.2.wait = some .ringFull)).foldl State.ringRetry { s with trapRing := rest }) := by
  change execTrapRingSlotFree s = _
  simp only [execTrapRingSlotFree, h]

/-! ### The end of a weft (R159) -/

theorem exec_weftEnd {w : Nat} (hw : (Store.find s.wefts w).isSome = true) (ha : (s.weft w).alive = 0)
    (hs : (s.weft w).status ≠ .ended) (hr : ∀ r, (s.weft w).trec = some r → r.published = true) (hu : s.unaccepted w = false) :
    exec (.weftEnd w) s = .next (s.weftOver w).wake := by
  change execWeftEnd w s = _
  unfold execWeftEnd
  cases ht : (s.weft w).trec with
  | none => simp [hw, ha, hs, hu, ht]
  | some r => simp [hw, ha, hs, hu, ht, hr r ht]

/-- Settles O25: a record that is due is published by its route, a freed slot wakes those that waited for it, and an empty weft ends.
The arguments of the record's event are the model's choice (log 71): R378 gives them for kind 5 only. -/
theorem trapRecordStepsComplete : Obligations.TrapRecordStepsComplete := by
  refine ⟨?ring, ?mailbox, ?slotFree, fun s w => exec_weftEnd⟩
  case ring =>
    intro s w r htrec hstatus hpending hperformed hplaced hroute hroom
    have hdue : RecordDue s w r := ⟨htrec, hstatus, hpending, hperformed, hplaced⟩
    obtain ⟨u, htaken, hu⟩ := s.publishRing_eq w r
    rw [exec_trapRecordPublish_ring hdue hroute hroom, hu]
    exact ⟨_, rfl, htaken.markPublished (State.find_of_trec htrec)⟩
  case mailbox =>
    intro s w r htrec hstatus hpending hperformed hplaced hroute
    have hdue : RecordDue s w r := ⟨htrec, hstatus, hpending, hperformed, hplaced⟩
    exact ⟨exec_trapRecordPublish_mark hdue hroute, fun tags => exec_trapRecordPublish_mailbox hdue hroute⟩
  case slotFree =>
    intro s l rest hring
    have hh := Heddled.foldl State.ringRetry .ringRetry (s.wefts.filter (fun p => p.2.wait = some .ringFull)) { s with trapRing := rest }
    exact ⟨_, exec_trapRingSlotFree hring, hh.trapRing, hh.mem,
      fun g => ⟨Weft.arch_vr (hh.wefts g), Weft.arch_sr (hh.wefts g), Weft.arch_pc (hh.wefts g)⟩⟩

end Sys2Proof.Machine
end

section
/-! ## Landings, aborts, polls and buffered writes (R93, R109, R110, R170, R171, R206, R308, R309) -/

namespace Sys2Proof.Machine

variable {s : State} {w fid : Nat} {f : Flight}

theorem exec_loadDataLands {mask : Mask} (hf : (s.weft w).flight fid = some f) (hl : s.canLand w f mask = true) :
    exec (.loadDataLands w fid mask) s = .next (s.eachFlight w fid (fun s f => s.landFlight w f mask)).wake := by
  change execLoadDataLands w fid mask s = _
  simp only [execLoadDataLands, hf, hl, if_true]

theorem exec_abortCompletion_vector (hf : (s.weft w).flight fid = some f) (ha : (s.weft w).abortedOf f ≠ 0) (hd : isScalar f.dest = false) :
    exec (.abortCompletion w fid) s = .next ((s.eachFlight w fid (fun s f => s.mapWeft w (fun x => x.abortTaken f))).kill w
      ((s.weft w).abortedOf f)).wake := by
  change execAbortCompletion w fid s = _
  simp only [execAbortCompletion, hf, ha, hd, Bool.false_eq_true, if_false]

theorem exec_abortCompletion_scalar (hf : (s.weft w).flight fid = some f) (ha : (s.weft w).abortedOf f ≠ 0) (hd : isScalar f.dest = true) :
    exec (.abortCompletion w fid) s = .next (s.eachFlight w fid (fun s f => s.mapWeft w (fun x => x.abortTaken f))).wake := by
  change execAbortCompletion w fid s = _
  simp only [execAbortCompletion, hf, ha, hd, if_false, if_true]

theorem exec_decodeLands (hf : (s.weft w).flight fid = some f) (hd : f.isDecode = true) (hm : f.mask ≠ 0) :
    exec (.decodeLands w fid) s = .next (s.eachFlight w fid (fun s f => s.mapWeft w (fun x => x.decodeLanded f))).wake := by
  change execDecodeLands w fid s = _
  simp only [execDecodeLands, hf]
  exact if_pos ((Bool.and_eq_true _ _).mpr ⟨hd, decide_eq_true hm⟩)

theorem exec_waitvPoll (hf : (s.weft w).flight fid = some f) : exec (.waitvPoll w fid) s = .next (s.pollFlight w f).wake := by
  change execWaitvPoll w fid s = _
  simp only [execWaitvPoll, hf]

theorem exec_homeSliceAccess {core idx : Nat} {e : WEntry} (he : (s.core core).wbuf[idx]? = some e)
    (hp : s.canPerform (s.core core) idx e = true) :
    ∃ s1 s2, s1 = s.setCore core { s.core core with wbuf := (s.core core).wbuf.eraseIdx idx } ∧ s2 = s1.homeWrite e.pa e.data ∧
      exec (.homeSliceAccess core idx) s = .next ((s2.setCore core ((s2.core core).ackStore e)).wake) := by
  refine ⟨_, _, rfl, rfl, ?_⟩
  change execHomeSliceAccess core idx s = _
  simp only [execHomeSliceAccess, he, hp, if_true]

/-- Settles O26: each step finds its flight or its buffered write and, where its condition holds, has its effect. -/
theorem landingStepsComplete : Obligations.LandingStepsComplete :=
  ⟨fun _ _ _ _ _ => exec_loadDataLands, fun _ _ _ _ => exec_abortCompletion_vector, fun _ _ _ _ => exec_abortCompletion_scalar,
    fun _ _ _ _ => exec_decodeLands, fun _ _ _ _ => exec_waitvPoll, fun _ _ _ _ => exec_homeSliceAccess⟩

end Sys2Proof.Machine
end

section
/-! ## A weft at launch (R91, R407) -/

namespace Sys2Proof.Machine

/-- Arguments written into the scalar registers from register `i` upward. -/
def Weft.withArgsFrom (w : Weft) (i : Nat) (args : List (Dword × BitVec 6)) : Weft :=
  (args.zipIdx i).foldl (fun w p => w.setS p.2 ⟨p.1.1, p.1.2, true⟩) w

theorem Weft.withArgs_eq_from (w : Weft) (args : List (Dword × BitVec 6)) : w.withArgs args = w.withArgsFrom 0 args := rfl

theorem Weft.withArgsFrom_cons (w : Weft) (i : Nat) (a : Dword × BitVec 6) (args : List (Dword × BitVec 6)) :
    w.withArgsFrom i (a :: args) = (w.setS i ⟨a.1, a.2, true⟩).withArgsFrom (i + 1) args := rfl

/-- Writing arguments changes scalar registers, and the marks of their words, only. -/
theorem Weft.withArgsFrom_frame (args : List (Dword × BitVec 6)) :
    ∀ (w : Weft) (i : Nat), { w.withArgsFrom i args with sr := w.sr, bad := w.bad } = w := by
  induction args with
  | nil => exact fun _ _ => rfl
  | cons a args ih =>
    intro w i
    rw [Weft.withArgsFrom_cons]
    exact congrArg (fun x : Weft => { x with sr := w.sr, bad := w.bad }) (ih (w.setS i ⟨a.1, a.2, true⟩) (i + 1))

theorem Weft.withArgs_frame (w : Weft) (args : List (Dword × BitVec 6)) : { w.withArgs args with sr := w.sr, bad := w.bad } = w :=
  Weft.withArgsFrom_frame args w 0

theorem Weft.s_withArgsFrom_of_lt (args : List (Dword × BitVec 6)) :
    ∀ (w : Weft) {i n : Nat}, n < i → (w.withArgsFrom i args).s n = w.s n := by
  induction args with
  | nil => exact fun _ _ _ _ => rfl
  | cons a args ih =>
    intro w i n hn
    rw [Weft.withArgsFrom_cons, ih _ (Nat.lt_succ_of_lt hn), Weft.s_setS, if_neg hn.ne']

/-- Register `i + n` holds argument `n`, where there is one. -/
theorem Weft.s_withArgsFrom_add (args : List (Dword × BitVec 6)) :
    ∀ (w : Weft) (i n : Nat),
      (w.withArgsFrom i args).s (i + n) = (args[n]?.map (fun a => (⟨a.1, a.2, true⟩ : Cell))).getD (w.s (i + n)) := by
  induction args with
  | nil => exact fun _ _ _ => rfl
  | cons a args ih =>
    intro w i n
    rw [Weft.withArgsFrom_cons]
    cases n with
    | zero =>
      change ((w.setS i ⟨a.1, a.2, true⟩).withArgsFrom (i + 1) args).s i = _
      rw [Weft.s_withArgsFrom_of_lt _ _ (Nat.lt_succ_self i), Weft.s_setS, if_pos rfl]
      rfl
    | succ n =>
      rw [← Nat.add_assoc, Nat.add_right_comm, ih, Weft.s_setS, if_neg (by omega), List.getElem?_cons_succ]

theorem Weft.s_withArgs (w : Weft) (args : List (Dword × BitVec 6)) (n : Nat) :
    (w.withArgs args).s n = (args[n]?.map (fun a => (⟨a.1, a.2, true⟩ : Cell))).getD (w.s n) := by
  have h := Weft.s_withArgsFrom_add args w 0 n
  rwa [Nat.zero_add] at h

/-- Settles O49: a launched weft holds its zero values, and its arguments are written over scalar registers only. -/
theorem weftLaunch : Obligations.WeftLaunch := by
  rintro k b id args w rfl -
  have hframe := Weft.withArgs_frame (Weft.launch k b id) args
  generalize hx : (Weft.launch k b id).withArgs args = x at hframe
  have hs := Weft.s_withArgs (Weft.launch k b id) args
  rw [hx] at hs
  have hvr : x.vr = [] := congrArg Weft.vr hframe
  have hks : x.ks = [] := congrArg Weft.ks hframe
  refine ⟨fun n t => ?_, fun n h => ?_, fun n h => ?_, fun n hn => ?_, congrArg Weft.dlm hframe, congrArg Weft.exm hframe,
    congrArg Weft.fpctl hframe, congrArg Weft.fpstat hframe, congrArg Weft.stack hframe, congrArg Weft.pc hframe⟩
  · rw [Weft.v, hvr]
    rfl
  · rw [hs, List.getElem?_eq_getElem h]
    rfl
  · rw [hs, List.getElem?_eq_none h]
    rfl
  · rw [Weft.k, if_neg hn, hks]
    rfl

end Sys2Proof.Machine
end

section
/-! ## The state after reset (R91, R372, R373, R378, R388, R410, R448, R460, R461) -/

namespace Sys2Proof.Machine

@[simp] theorem State.ctx_reset (a : Nat) : State.reset.ctx a = Ctx.reset := rfl
@[simp] theorem State.queue_reset (q : Nat) : State.reset.queue q = Queue.reset := rfl
@[simp] theorem State.feed_reset (q : Nat) : State.reset.feed q = FeedQ.reset := rfl

/-- Settles O54: nothing is listed after reset, so each context, queue and feed queue reads as its reset block. -/
theorem resetState : Obligations.ResetState := by
  refine ⟨rfl, rfl, rfl, rfl, rfl, fun a => ?contexts, fun q => ?queues, rfl, rfl, rfl, rfl, rfl, rfl⟩
  case contexts =>
    rw [State.ctx_reset]
    exact ⟨rfl, rfl, rfl, rfl, rfl⟩
  case queues =>
    rw [State.queue_reset, State.feed_reset]
    exact ⟨rfl, rfl, rfl, rfl, rfl, rfl⟩

end Sys2Proof.Machine
end

section
/-! ## Instructions that compute a value per thread (R26, R29, R121 to R150)

The destination stands among the operands of each shape, so an instruction that `computed` gives a meaning computes, by
`Computes.of_computed`. -/

namespace Sys2Proof.Machine

/-! ### The destination among the operands -/

theorem mem_plain_last (g : Guard) (l : List Opnd) (o : Opnd) : o ∈ (Form.plain g (l ++ [o])).ops :=
  List.mem_append_right l (List.mem_singleton_self o)

theorem dst_mem_unForm (g : Guard) (cls : List RC) (tags : Option (List Nat)) (d : Reg) (a : Src) :
    opD cDst d ∈ (unForm g cls tags d a).ops :=
  mem_plain_last g [opS 1 cls tags a] _

theorem dst_mem_binForm (g : Guard) (cls : List RC) (tags : Option (List Nat)) (d : Reg) (a : Src) (b : SrcI) :
    opD cDst d ∈ (binForm g cls tags d a b).ops :=
  mem_plain_last g ([opS 1 cls tags a] ++ opSI 2 cls tags b) _

theorem dst_mem_triForm (g : Guard) (cls : List RC) (tags : Option (List Nat)) (d : Reg) (a : Src) (b : SrcI) (c : Src) :
    opD cDst d ∈ (triForm g cls tags d a b c).ops :=
  List.mem_append_right _ (List.mem_cons_of_mem _ (List.mem_singleton_self _))

theorem dst_mem_cvtsForm (o : CvtsArgs) : opD cDst o.d ∈ (cvtsForm o).ops :=
  mem_plain_last o.g _ _

theorem perThread_cDst : ∀ c ∈ cDst, c = .v ∨ c = .z := by decide

theorem perThread_v : ∀ c ∈ [RC.v], c = .v ∨ c = .z := by decide

/-! ### One lemma per shape -/

section Shapes

variable {i : Instr} {p : Bool} {g : Guard} {cls : List RC} {tags : Option (List Nat)} {d : Reg} {a c : Src} {b : SrcI} {len : Nat}
  {val : Weft → Nat → Cell × Flags}

theorem Computes.of_unForm (hi : ∀ s, exec i s = runAt p s len (computed (unForm g cls tags d a) d val)) :
    Computes i (unForm g cls tags d a) d len val :=
  .of_computed hi (dst_mem_unForm ..) perThread_cDst

theorem Computes.of_binForm (hi : ∀ s, exec i s = runAt p s len (computed (binForm g cls tags d a b) d val)) :
    Computes i (binForm g cls tags d a b) d len val :=
  .of_computed hi (dst_mem_binForm ..) perThread_cDst

theorem Computes.of_triForm (hi : ∀ s, exec i s = runAt p s len (computed (triForm g cls tags d a b c) d val)) :
    Computes i (triForm g cls tags d a b c) d len val :=
  .of_computed hi (dst_mem_triForm ..) perThread_cDst

end Shapes

end Sys2Proof.Machine
end

section
/-! ## Integer, bitwise, shift and bit-field instructions (R121 to R130) -/

namespace Sys2Proof.Machine

/-- ISEL takes A where C is not zero; put the other way round, B where it is. -/
theorem exec_isel (o : ITri) (s : State) : exec (.isel o) s = runWeft o.g s (lenI o.b)
    (computed (triForm o.g cInt tInt o.d o.a o.b o.c) o.d (fun w t =>
      finish (if w.int (widthOf o.m.w32) false o.c t = 0 then w.intB (widthOf o.m.w32) false o.b t
        else w.int (widthOf o.m.w32) false o.a t) (widthOf o.m.w32) false false)) := by
  change execIsel o s = _
  simp only [execIsel, ne_eq, ite_not]

/-- Settles O1: in the statement's order, each instruction's meaning is its shape `computed` with the value stated; ISEL's after its
choice is turned round. -/
theorem integerArithmeticResults : Obligations.IntegerArithmeticResults :=
  ⟨fun _ => .of_binForm fun _ => rfl, fun _ => .of_binForm fun _ => rfl, fun _ => .of_unForm fun _ => rfl,
    fun _ => .of_binForm fun _ => rfl, fun _ => .of_binForm fun _ => rfl, fun _ => .of_triForm fun _ => rfl,
    fun _ => .of_binForm fun _ => rfl, fun _ => .of_binForm fun _ => rfl, fun _ => .of_unForm fun _ => rfl,
    fun o => .of_triForm (exec_isel o), fun _ => .of_binForm fun _ => rfl, fun _ => .of_binForm fun _ => rfl⟩

/-- Settles O2: in the statement's order, each instruction's meaning is its shape `computed` with the value stated. -/
theorem bitwiseAndShiftResults : Obligations.BitwiseAndShiftResults :=
  ⟨fun _ => .of_binForm fun _ => rfl, fun _ => .of_binForm fun _ => rfl, fun _ => .of_binForm fun _ => rfl,
    fun _ => .of_binForm fun _ => rfl, fun _ => .of_unForm fun _ => rfl, fun _ => .of_binForm fun _ => rfl,
    fun _ => .of_binForm fun _ => rfl, fun _ => .of_binForm fun _ => rfl, fun _ => .of_binForm fun _ => rfl,
    fun _ => .of_binForm fun _ => rfl, fun _ => .of_triForm fun _ => rfl, fun _ => .of_unForm fun _ => rfl,
    fun _ => .of_unForm fun _ => rfl, fun _ => .of_unForm fun _ => rfl, fun _ => .of_unForm fun _ => rfl⟩

end Sys2Proof.Machine
end

section
/-! ## Floating point, packed and dot products (R131 to R141) -/

namespace Sys2Proof.Machine

/-- Settles O3: in the statement's order, each instruction's meaning is its shape `computed` with the value stated; FCMP and FSCALE
have a shape of their own. -/
theorem floatingPointResults : Obligations.FloatingPointResults :=
  ⟨fun _ => .of_binForm fun _ => rfl, fun _ => .of_binForm fun _ => rfl, fun _ => .of_binForm fun _ => rfl,
    fun _ => .of_triForm fun _ => rfl, fun _ => .of_binForm fun _ => rfl, fun _ => .of_unForm fun _ => rfl,
    fun _ => .of_binForm fun _ => rfl, fun _ => .of_binForm fun _ => rfl, fun _ => .of_unForm fun _ => rfl,
    fun _ => .of_unForm fun _ => rfl, fun _ => .of_computed (fun _ => rfl) (mem_plain_last ..) perThread_v,
    fun _ => .of_unForm fun _ => rfl, fun _ => .of_unForm fun _ => rfl,
    fun _ => .of_computed (fun _ => rfl) (mem_plain_last ..) perThread_cDst, fun _ => .of_unForm fun _ => rfl⟩

theorem computes_approx : ∀ q ∈ [(Instr.frcp, ApproxFn.rcp), (Instr.frsq, ApproxFn.rsq), (Instr.fexp2, ApproxFn.exp2),
    (Instr.flog2, ApproxFn.log2), (Instr.fsin, ApproxFn.sin), (Instr.fcos, ApproxFn.cos)], ∀ o : FUn,
    Computes (q.1 o) (unForm o.g cFlt (tFlt o.w) o.d o.a) o.d 8 (fun w t =>
      w.fout o.w (approxWidth q.2 o.w w.ftz (w.fcode o.w o.a t))) := by
  simp only [List.forall_mem_cons]
  refine ⟨?_, ?_, ?_, ?_, ?_, ?_, fun _ h => nomatch h⟩ <;>
    exact fun o => .of_unForm fun _ => rfl

/-- Settles O4: in the statement's order, each instruction's meaning is its shape `computed` with the value stated. -/
theorem approximatePackedAndDotResults : Obligations.ApproximatePackedAndDotResults :=
  ⟨computes_approx, fun _ => .of_binForm fun _ => rfl, fun _ => .of_binForm fun _ => rfl, fun _ => .of_triForm fun _ => rfl,
    fun o => .of_computed (fun _ => rfl) (mem_plain_last o.g [_, _, _] _) perThread_cDst,
    fun o => .of_computed (fun _ => rfl) (mem_plain_last o.g [_, _, _] _) perThread_cDst⟩

end Sys2Proof.Machine
end

section
/-! ## Conversions, tags and moves (R143 to R150) -/

namespace Sys2Proof.Machine

/-- CVTK with its choice of a dword or of a bit made inside the result (R147). -/
theorem exec_cvtk (o : CvtkArgs) (s : State) : exec (.cvtk o) s = runWeft o.g s 8
    (computed (.plain o.g [opS 1 [.k] none o.k, opD cDst o.d]) o.d (fun w t =>
      (if o.all then mkCell (if w.kbit o.g o.k.reg t then 2 ^ 64 - 1 else 0) tagI64
       else mkCell (if w.kbit o.g o.k.reg t then 1 else 0) tagI32, 0))) := by
  change execCvtk o s = _
  unfold execCvtk
  cases o.all <;> rfl

/-- Settles O5: in the statement's order, each instruction's meaning is its shape `computed` with the value stated; CVTK's after its
choice is drawn into the value. -/
theorem conversionAndMoveResults : Obligations.ConversionAndMoveResults :=
  ⟨fun _ => .of_unForm fun _ => rfl, fun _ => .of_unForm fun _ => rfl, fun _ => .of_unForm fun _ => rfl,
    fun o => .of_computed (exec_cvtk o) (mem_plain_last o.g [_] _) perThread_cDst,
    fun o => .of_computed (fun _ => rfl) (mem_plain_last o.g [_] _) perThread_v,
    fun o => .of_computed (fun _ => rfl) (mem_plain_last o.g [] _) perThread_cDst,
    fun o => .of_computed (fun _ => rfl) (mem_plain_last o.g [] _) perThread_cDst,
    fun o => .of_computed (fun _ => rfl) (mem_plain_last o.g [_, _, _] _) perThread_cDst⟩

end Sys2Proof.Machine
end

section
/-! ## Packed conversion, packing, unpacking and broadcast (R144, R145, R151) -/

namespace Sys2Proof.Machine

/-! ### Bodies that deliver values without flags -/

section Quiet

variable {s : State} {f : Form} {sel : Mask} {d : Reg}

/-- Values given to the lanes of an instruction are written to its per-thread destination. -/
theorem writeLanes_wrote {cls : List RC} (h : Executes s f sel) (hm : opD cls d ∈ f.ops) (hc : ∀ c ∈ cls, c = .v ∨ c = .z)
    (val : Nat → Cell) (len : Nat) :
    ∃ u, s.writeLanes s.cur d f.g.uni sel ((lanesOf f.g sel).map (fun t => ⟨t, val t, 0⟩)) = .done u ∧
      Wrote s (u.after s.cur len) d (fun k => sel.getLsbD k && !f.g.uni) val 0 len := by
  have hquiet : ∀ x ∈ (lanesOf f.g sel).map (fun t => (⟨t, val t, 0⟩ : Lane)), x.fl = 0 :=
    List.forall_mem_map.mpr fun _ _ => rfl
  refine ⟨_, writeLanes_ok (invalid_quiet _ _ _ hquiet), ?_⟩
  rw [orFlags_quiet hquiet, List.map_map]
  exact Wrote.of_lanes h.some (dst_class hc (Form.dst_of_decodes h.decodes hm))

/-- A single value is written to a scalar destination. -/
theorem writeLanes_wrote_scalar (h : Executes s f sel) (hm : opD [.s] d ∈ f.ops) (c : Cell) (len : Nat) :
    ∃ u, s.writeLanes s.cur d true sel [⟨0, c, 0⟩] = .done u ∧
      Wrote s (u.after s.cur len) d (fun _ => false) (fun _ => c) 0 len := by
  have hquiet : ∀ x ∈ [(⟨0, c, 0⟩ : Lane)], x.fl = 0 := List.forall_mem_singleton.mpr rfl
  refine ⟨_, writeLanes_ok (invalid_quiet _ _ _ hquiet), ?_⟩
  rw [orFlags_quiet hquiet]
  exact Wrote.scalar_once (dst_sz (by decide) (Form.dst_of_decodes h.decodes hm)) c _ rfl 0 len

end Quiet

/-- An operation delivers what its body writes where the conditions hold. -/
theorem Delivers.of_body {i : Instr} {p : Bool} {f : Form} {d : Reg} {len : Nat} {ok : State → Weft → Mask → Prop}
    {on : Weft → Mask → Nat → Bool} {val : Weft → Mask → Nat → Cell} {fl : Weft → Mask → Flags}
    {body : State → Nat → Weft → Mask → Eff} (hi : ∀ s, exec i s = runAt p s len (fun s h => s.operate h f (body s h)))
    (hb : ∀ s sel, Executes s f sel → ok s s.me sel → ∃ u, body s s.cur s.me sel = .done u ∧
      Wrote s (u.after s.cur len) d (on s.me sel) (val s.me sel) (fl s.me sel) len) : Delivers i f d len ok on val fl := by
  intro s sel
  rw [hi]
  refine ⟨fun h hok => ?_, run_skip (F := fun _ _ => f)⟩
  obtain ⟨u, hdone, hwrote⟩ := hb s sel h hok
  exact ⟨_, run_done (F := fun _ _ => f) h hdone, hwrote⟩

/-! ### PACK, UNPACK and BCAST -/

/-- PACK without a tag fault: its body writes each lane's value (R145). -/
theorem delivers_pack (o : PackArgs) : Delivers (.pack o) (packForm o) o.d 8
    (fun _ w sel => indexPast o.e sel o.g (packTag w o) = 0 ∧ tagsDiffer w o sel = 0)
    (fun _ sel k => sel.getLsbD k && !o.g.uni) (fun w _ t => packLane o w t) (fun _ _ => 0) := by
  refine .of_body (fun _ => rfl) fun s sel h ⟨hindex, htags⟩ => ?_
  rw [if_neg (not_not.mpr hindex), if_neg (not_not.mpr htags)]
  exact writeLanes_wrote h (mem_plain_last o.g [_, _] _) perThread_v (packLane o s.me) 8

/-- UNPACK without a tag fault: its body writes each lane's value (R145). -/
theorem delivers_unpack (o : UnpackArgs) : Delivers (.unpack o) (.plain o.g [opS 1 [.v, .s] none o.a, opD [.v] o.d]) o.d 8
    (fun _ w sel => indexPast o.e sel o.g (fun t => (w.cell o.a.reg t).tag) = 0)
    (fun _ sel k => sel.getLsbD k && !o.g.uni) (fun w _ t => unpackLane o w t) (fun _ _ => 0) := by
  refine .of_body (fun _ => rfl) fun s sel h hindex => ?_
  rw [if_neg (not_not.mpr hindex)]
  exact writeLanes_wrote h (mem_plain_last o.g [_] _) perThread_v (unpackLane o s.me) 8

/-- BCAST, which is never uniform, gives each selected thread the one cell read (R151). -/
theorem exec_bcast_wrote (o : BcastArgs) {s : State} {sel : Mask} (h : Executes s (bcastForm o s.me) sel) (hu : o.g.uni = false) :
    ∃ t, exec (.bcast o) s = .next t ∧ Wrote s t o.d (fun k => sel.getLsbD k) (fun _ => bcastCell o s.me) 0 8 := by
  obtain ⟨u, hdone, hwrote⟩ := writeLanes_wrote h (mem_plain_last o.g [_, _] _) perThread_cDst (fun _ => bcastCell o s.me) 8
  have hg : (bcastForm o s.me).g = o.g := rfl
  simp only [hg, hu, lanesOf, Bool.false_eq_true, if_false, Bool.not_false, Bool.and_true] at hdone hwrote
  exact ⟨_, run_done (F := fun s h => bcastForm o (s.weft h)) h hdone, hwrote⟩

/-- Settles O6: CVTS computes a value per thread, PACK and UNPACK deliver theirs once their tag checks pass, and BCAST gives every
thread the cell it reads. -/
theorem packedConversionAndBroadcastResults : Obligations.PackedConversionAndBroadcastResults :=
  ⟨fun o => .of_computed (fun _ => rfl) (dst_mem_cvtsForm o) perThread_cDst, delivers_pack, delivers_unpack,
    fun o _ _ => ⟨exec_bcast_wrote o, run_skip (F := fun s h => bcastForm o (s.weft h))⟩⟩

end Sys2Proof.Machine
end

section
/-! ## Comparisons into masks, mask moves and mask logic (R125, R135, R152 to R154) -/

namespace Sys2Proof.Machine

theorem joined_zero (l : List Nat) : joined l (fun _ => 0) = 0 := by
  simp only [joined, BitVec.ofNat_eq_ofNat, BitVec.or_zero, List.foldl_fixed]

section Compared

variable {i : Instr} {p : Bool} {f : Form} {d : Reg} {len : Nat}

/-- A comparison into a mask completes with its mask and its flags, unless an invalid operation is trapped (R70, R125). -/
theorem exec_compared {val : Weft → Nat → Bool × Flags} (hi : ∀ s, exec i s = runAt p s len (compared f d val))
    (hm : opD [.k] d ∈ f.ops) {s : State} {sel : Mask} (h : Executes s f sel)
    (hnv : s.me.invt = true → ∀ t ∈ lanesOf f.g sel, (val s.me t).2 &&& Flags.nv = 0) :
    ∃ t, exec i s = .next t ∧
      WroteMask s t d (if f.g.uni then (if (val s.me 0).1 then 0xFFFFFFFF else 0)
        else (s.me.maskSrc d &&& ~~~sel) ||| maskOf ((threads sel).filter (fun t => (val s.me t).1)))
        (joined (lanesOf f.g sel) (fun t => (val s.me t).2)) len := by
  obtain ⟨n, rfl⟩ := dst_k (Form.dst_of_decodes h.decodes hm)
  exact ⟨_, (hi s).trans (compared_mask h hnv), WroteMask.after_setK s n _ _ len⟩

/-- One that raises no flag always completes. -/
theorem exec_compared_quiet {holds : Weft → Nat → Bool}
    (hi : ∀ s, exec i s = runAt p s len (compared f d (fun w t => (holds w t, 0)))) (hm : opD [.k] d ∈ f.ops) {s : State} {sel : Mask}
    (h : Executes s f sel) :
    ∃ t, exec i s = .next t ∧
      WroteMask s t d (if f.g.uni then (if holds s.me 0 then 0xFFFFFFFF else 0)
        else (s.me.maskSrc d &&& ~~~sel) ||| maskOf ((threads sel).filter (fun t => holds s.me t))) 0 len := by
  have hx := exec_compared hi hm h fun _ _ _ => BitVec.zero_and
  rwa [joined_zero] at hx

end Compared

theorem delivers_movkToScalar (o : MovkToArgs) : Delivers (.movkToScalar o) (.plain o.g [opS 1 [.k] none o.k, opD [.s] o.d]) o.d 8
    (fun _ _ _ => True) (fun _ _ _ => false) (fun w _ _ => mkCell (w.maskSrc o.k.reg).toNat tagI32) (fun _ _ => 0) :=
  .of_body (fun _ => rfl) fun _ _ h _ => writeLanes_wrote_scalar h (mem_plain_last o.g [_] _) _ 8

theorem delivers_kpopc (o : KpopcArgs) : Delivers (.kpopc o) (.plain o.g [opS 1 [.k] none o.k, opD [.s] o.d]) o.d 8
    (fun _ _ _ => True) (fun _ _ _ => false)
    (fun w _ _ => mkCell (popMask (if o.live then w.maskSrc o.k.reg &&& w.alive else w.maskSrc o.k.reg)) tagI32) (fun _ _ => 0) :=
  .of_body (fun _ => rfl) fun _ _ h _ => writeLanes_wrote_scalar h (mem_plain_last o.g [_] _) _ 8

/-- Settles O7: the comparisons complete with their masks, mask moves and mask logic write one whole mask, and the two that read a
mask into a scalar deliver one value. -/
theorem maskResults : Obligations.MaskResults :=
  ⟨fun _ _ _ => ⟨exec_compared_quiet (fun _ => rfl) (mem_plain_last ..), run_skip (F := fun _ _ => _)⟩,
    fun _ _ _ => ⟨exec_compared (fun _ => rfl) (mem_plain_last ..), run_skip (F := fun _ _ => _)⟩,
    fun o => .of_write (fun _ => rfl) (mem_plain_last o.g [_] _), fun o => .of_write (fun _ => rfl) (mem_plain_last o.g [] _),
    delivers_movkToScalar,
    fun o => .of_write (fun _ => rfl) (mem_plain_last o.g [_, _] _), fun o => .of_write (fun _ => rfl) (mem_plain_last o.g [_, _] _),
    fun o => .of_write (fun _ => rfl) (mem_plain_last o.g [_, _] _), fun o => .of_write (fun _ => rfl) (mem_plain_last o.g [_] _),
    delivers_kpopc⟩

end Sys2Proof.Machine
end

section
/-! ## Branches, calls and the return (R22, R24, R156 to R158) -/

namespace Sys2Proof.Machine

/-! ### Targets -/

theorem inSpace_natCast (n : Nat) : inSpace (n : Int) = decide (n < 2 ^ 57) := by
  rw [inSpace, Bool.eq_iff_iff]
  simp only [Bool.and_eq_true, decide_eq_true_iff]
  omega

theorem low57_natCast (n : Nat) : low57 (n : Int) = n % 2 ^ 57 := by
  rw [low57, wrapNat]
  omega

theorem Weft.put_pc (w : Weft) (r : Reg) (t : Nat) (c : Cell) : (w.put r t c).pc = w.pc := (SameButRegs.put w r t c).pc

/-- The fault of a far target names the PC, which saving the return address leaves. -/
theorem Weft.farTarget_put (w : Weft) (r : Reg) (t : Nat) (c : Cell) (x : Int) (m : Mask) :
    (w.put r t c).farTarget x m = w.farTarget x m := by
  simp only [Weft.farTarget, Weft.fault, Weft.put_pc]

/-! ### Jumps -/

section Jump

variable {s : State} {h : Nat} {w : Weft} {x : Int} {sel : Mask}

theorem transfer_near (hx : inSpace x = true) :
    s.transfer h w x sel = .moved (s.setWeft h (w.cleared.goto (BitVec.ofNat 57 x.toNat))) := if_pos hx

theorem transfer_far (hx : inSpace x = false) : s.transfer h w x sel = .trap s (w.farTarget x sel) :=
  if_neg (Bool.eq_false_iff.mp hx)

/-- With every target inside the space the jump of BRX is a branch to all of them. -/
theorem brxGo_near {o : BrxArgs} {l : List (Nat × Int)} (hl : ∀ p ∈ l, inSpace p.2 = true) :
    s.brxGo h w o sel l = .moved (s.setWeft h (w.cleared.branch o.tag (jumpPaths w sel l))) := by
  have hfar : l.filter (fun p => !inSpace p.2) = [] :=
    List.filter_eq_nil_iff.mpr fun p hp => by rw [hl p hp]; exact Bool.false_ne_true
  unfold State.brxGo
  dsimp only
  rw [hfar]
  rfl

end Jump

/-- No thread's index is past the table. -/
theorem maskOf_filter_le_eq_zero {n : Nat} {l : List Nat} {idx : Nat → Nat} (hl : ∀ t ∈ l, idx t < n) :
    maskOf (l.filter (fun t => n ≤ idx t)) = 0 := by
  rw [List.filter_eq_nil_iff.mpr fun t ht => by simpa using hl t ht]
  rfl

/-- Settles O9: each body finds its targets inside the space and moves the path there. -/
theorem controlTransfersComplete : Obligations.ControlTransfersComplete := by
  refine ⟨fun o => .of_body (fun _ => rfl) ?bra, fun o => .of_body (fun _ => rfl) ?brx, fun o => .of_body (fun _ => rfl) ?call,
    fun o => .of_body (fun _ => rfl) ?callR, fun o => .of_body (fun _ => rfl) ?ret⟩
  case bra =>
    rintro s w sel u ⟨hx, rfl⟩
    exact if_neg (by rw [hx]; exact Bool.false_ne_true)
  case brx =>
    rintro s w sel u ⟨s1, n, s2, l, hn, hidx, hread, hl, rfl⟩
    dsimp only
    rw [hn]
    dsimp only
    rw [maskOf_filter_le_eq_zero hidx, if_neg (not_not.mpr rfl), hread]
    exact brxGo_near hl
  case call =>
    rintro s w sel u ⟨hx, rfl⟩
    exact transfer_near hx
  case callR =>
    rintro s w sel u ⟨hx, rfl⟩
    exact transfer_near ((inSpace_natCast _).trans (decide_eq_true hx))
  case ret =>
    rintro s w sel u ⟨hx, rfl⟩
    exact transfer_near ((inSpace_natCast _).trans (decide_eq_true hx))

/-- Settles O10: each body finds its target outside the space and takes the fault of it in the state as it was. -/
theorem farTargetsFault : Obligations.FarTargetsFault := by
  refine ⟨fun o => .of_body (fun _ => rfl) ?bra, fun o => .of_body (fun _ => rfl) ?call, fun o => .of_body (fun _ => rfl) ?ret⟩
  case bra =>
    rintro s w sel u t ⟨hx, rfl, rfl⟩
    exact if_pos (by rw [hx]; rfl)
  case call =>
    rintro s w sel u t ⟨hx, rfl, rfl⟩
    exact (transfer_far hx).trans (congrArg _ (Weft.farTarget_put ..))
  case ret =>
    rintro s w sel u t ⟨hx, rfl, rfl⟩
    rw [← low57_natCast]
    exact transfer_far ((inSpace_natCast _).trans (decide_eq_false hx.not_gt))

end Sys2Proof.Machine
end

section
/-! ## Decode instructions (R70, R167 to R171) -/

namespace Sys2Proof.Machine

section Decode

variable {g : Guard} {ops : List Opnd} {a : Src} {d c : Reg} {ex : Weft → Bolt → Stream → Expansion} {i : Instr} {p : Bool}
  {len : Nat}

variable (hi : ∀ s, exec i s = runAt p s len (fun s h => s.decode h g ops a d c ex))

include hi

/-- A decode completes where its fields may be read and no signalling scale is trapped (R70, R170). -/
theorem Effects.of_decode : Effects Accesses i (decForm g ops a d c) len (fun s w sel u =>
    (s.boltOf w).streamFault w sel (ex w (s.boltOf w) (w.streamOf a)).fields = none ∧
    ((ex w (s.boltOf w) (w.streamOf a)).nv && w.invt) = false ∧
    u = s.issueDecode s.cur d c sel (ex w (s.boltOf w) (w.streamOf a))) := by
  intro s sel
  rw [hi]
  refine ⟨fun h u ⟨hread, hquiet, hu⟩ => ?_, acc_skip rfl⟩
  refine acc_done rfl h ?_
  simp only [hread, hquiet, hu, Bool.false_eq_true, if_false]

/-- A decode that raises no NV completes where its fields may be read. -/
theorem Effects.of_quiet_decode (hq : ∀ w b st, (ex w b st).nv = false) : Effects Accesses i (decForm g ops a d c) len (fun s w sel u =>
    (s.boltOf w).streamFault w sel (ex w (s.boltOf w) (w.streamOf a)).fields = none ∧
    u = s.issueDecode s.cur d c sel (ex w (s.boltOf w) (w.streamOf a))) := by
  intro s sel
  obtain ⟨hgo, hskip⟩ := Effects.of_decode hi s sel
  exact ⟨fun h u ⟨hread, hu⟩ => hgo h u ⟨hread, by rw [hq, Bool.false_and], hu⟩, hskip⟩

/-- A decode of a signalling scale faults under INVT (R70). -/
theorem Faults.of_decode : Faults Accesses i (decForm g ops a d c) (fun s w sel u t =>
    (s.boltOf w).streamFault w sel (ex w (s.boltOf w) (w.streamOf a)).fields = none ∧
    (ex w (s.boltOf w) (w.streamOf a)).nv = true ∧ w.invt = true ∧ u = s ∧ t = w.fault cInvalid (mask := sel)) := by
  rintro s sel h u t ⟨hread, hnv, hinvt, rfl, rfl⟩
  rw [hi]
  refine acc_trap rfl h ?_
  simp only [hread, hnv, hinvt, Bool.and_self, if_true]

end Decode

/-- Settles O12: each instruction is a decode with its own expansion, of which only DECSIGN's can raise NV. -/
theorem decodesComplete : Obligations.DecodesComplete :=
  ⟨fun _ => .of_quiet_decode (fun _ => rfl) fun _ _ _ => rfl, fun _ => .of_quiet_decode (fun _ => rfl) fun _ _ _ => rfl,
    fun _ => .of_quiet_decode (fun _ => rfl) fun _ _ _ => rfl, fun _ => .of_decode fun _ => rfl, fun _ => .of_decode fun _ => rfl⟩

end Sys2Proof.Machine
end

section
/-! ## Taking a fault (R175, R178 to R180, R182, R262, R375) -/

namespace Sys2Proof.Machine

/-! ### Where a fault goes -/

section Route

variable {c : Ctx} {w : Weft} {x : BitVec 8}

/-- The route as the one choice it is: by what bars delegation, then by the two bits of DELEG. -/
theorem faultRoute_eq_ite (c : Ctx) (w : Weft) (x : BitVec 8) :
    faultRoute c w x =
      if neverInContext x || w.tstat.getLsbD 0 then .supervisor
      else if routeBits (delegMask c.deleg) x = 1 then (if w.thvec = 0 then .supervisor else .context)
      else if routeBits (delegMask c.deleg) x = 2 then (if c.peer.getLsbD 63 then .mailbox else .supervisor)
      else .supervisor := by
  unfold faultRoute
  congr 1
  split
  · next h => rw [if_pos h]
  · next h =>
    rw [h]
    rfl
  · next h1 h2 => rw [if_neg h1, if_neg h2]

theorem faultRoute_eq_context_iff : faultRoute c w x = .context ↔
    neverInContext x = false ∧ w.tstat.getLsbD 0 = false ∧ routeBits (delegMask c.deleg) x = 1 ∧ w.thvec ≠ 0 := by
  rw [faultRoute_eq_ite]
  split_ifs <;> grind

theorem faultRoute_eq_mailbox_iff : faultRoute c w x = .mailbox ↔
    neverInContext x = false ∧ w.tstat.getLsbD 0 = false ∧ routeBits (delegMask c.deleg) x = 2 ∧ c.peer.getLsbD 63 = true := by
  rw [faultRoute_eq_ite]
  split_ifs <;> grind

/-- What goes neither in context nor to the mailbox goes to the supervisor. -/
theorem faultRoute_eq_supervisor (hc : faultRoute c w x ≠ .context) (hm : faultRoute c w x ≠ .mailbox) :
    faultRoute c w x = .supervisor := by
  cases h : faultRoute c w x with
  | supervisor => rfl
  | context => exact absurd h hc
  | mailbox => exact absurd h hm

end Route

/-! ### What taking it does, by its route -/

section Take

variable {s : State} {h : Nat} {t : Trap}

theorem takeTrap_of_context (hr : faultRoute (s.ctxOf (s.weft h)) (s.weft h) t.cause = .context) :
    takeTrap s h t = s.setWeft h ((s.weft h).enterHandler t) := by
  simp only [takeTrap, hr]

theorem takeTrap_of_mailbox (hr : faultRoute (s.ctxOf (s.weft h)) (s.weft h) t.cause = .mailbox) :
    takeTrap s h t = (s.setWeft h ((s.weft h).park t .mailbox)).admitWefts (s.coreOf (s.weft h)) := by
  simp only [takeTrap, hr]

variable (hr : faultRoute (s.ctxOf (s.weft h)) (s.weft h) t.cause = .supervisor)

include hr

theorem takeTrap_of_ringFull (hf : trapRingSlots ≤ s.trapRing.length) :
    takeTrap s h t = s.setWeft h { s.weft h with wait := some .ringFull } := by
  simp only [takeTrap, hr, hf, if_true]

theorem takeTrap_of_fetch (hf : s.trapRing.length < trapRingSlots) (hc : t.cause = cFetch) :
    takeTrap s h t = (s.setWeft h ((s.weft h).park t .supervisor)).swapOut (s.weft h).bolt := by
  simp only [takeTrap, hr]
  rw [if_neg hf.not_ge, if_pos hc]

theorem takeTrap_of_supervisor (hf : s.trapRing.length < trapRingSlots) (hc : t.cause ≠ cFetch) :
    takeTrap s h t = (s.setWeft h ((s.weft h).park t .supervisor)).admitWefts (s.coreOf (s.weft h)) := by
  simp only [takeTrap, hr]
  rw [if_neg hf.not_ge, if_neg hc]

end Take

/-- Settles O46: the route is one choice, and taking the fault follows it. What the record of `Weft.park` holds is not stated. -/
theorem trapDelivery : Obligations.TrapDelivery := by
  refine ⟨fun _ _ _ => faultRoute_eq_context_iff, fun _ _ _ => faultRoute_eq_mailbox_iff, ?context, ?supervisor, ?fetch, ?ringFull, ?mailbox,
    fun w t r => ⟨rfl, rfl, rfl, rfl, rfl, rfl, rfl, rfl, rfl, rfl⟩⟩
  case context =>
    rintro s h t w rfl hr
    rw [takeTrap_of_context hr]
    exact ⟨State.weft_setWeft_same .., fun g hg => State.weft_setWeft_ne _ _ hg, rfl⟩
  case supervisor =>
    rintro s h t w rfl hr hroom hc
    exact takeTrap_of_supervisor hr hroom hc
  case fetch =>
    rintro s h t w rfl hr hroom hc
    exact takeTrap_of_fetch hr hroom hc
  case ringFull =>
    rintro s h t w rfl hr hfull
    exact takeTrap_of_ringFull hr hfull
  case mailbox =>
    rintro s h t w rfl hr
    exact takeTrap_of_mailbox hr

/-! ### The exceptions of R179 -/

theorem getLsbD_setNest (x : Dword) (k : Nat) : (setNest x).getLsbD k = (x.getLsbD k || decide (k = 1)) := by
  have hbit : (2 : Dword) = BitVec.twoPow 64 1 := rfl
  rw [setNest, hbit, BitVec.getLsbD_or, BitVec.getLsbD_twoPow]
  simp [eq_comm]

theorem Weft.park_tstat (w : Weft) (t : Trap) (r : Route) :
    (w.park t r).tstat = if w.tstat.getLsbD 0 then setNest w.tstat else w.tstat := rfl

/-- Settles O47: each exception fails a condition of either other route, and parking sets NEST where a handler runs. -/
theorem delegationExceptions : Obligations.DelegationExceptions := by
  refine ⟨fun c w x hbits hvec => ?noHandler, fun c w x hbits hpeer => ?noPeer, fun c w x hinh => ?nested, fun w t k hinh => ?nest,
    fun w t hinh => ?plain⟩
  case noHandler =>
    refine faultRoute_eq_supervisor (fun h => ?_) (fun h => ?_)
    · obtain ⟨-, -, -, hv⟩ := faultRoute_eq_context_iff.mp h
      exact hv hvec
    · obtain ⟨-, -, hb, -⟩ := faultRoute_eq_mailbox_iff.mp h
      omega
  case noPeer =>
    refine faultRoute_eq_supervisor (fun h => ?_) (fun h => ?_)
    · obtain ⟨-, -, hb, -⟩ := faultRoute_eq_context_iff.mp h
      omega
    · obtain ⟨-, -, -, hp⟩ := faultRoute_eq_mailbox_iff.mp h
      exact Bool.false_ne_true (hpeer.symm.trans hp)
  case nested =>
    refine faultRoute_eq_supervisor (fun h => ?_) (fun h => ?_)
    · obtain ⟨-, hi, -, -⟩ := faultRoute_eq_context_iff.mp h
      exact Bool.false_ne_true (hi.symm.trans hinh)
    · obtain ⟨-, hi, -, -⟩ := faultRoute_eq_mailbox_iff.mp h
      exact Bool.false_ne_true (hi.symm.trans hinh)
  case nest =>
    rw [Weft.park_tstat, if_pos hinh, getLsbD_setNest, getLsbD_setNest]
    exact ⟨by simp, fun hk => by simp [hk]⟩
  case plain =>
    rw [Weft.park_tstat, if_neg (Bool.eq_false_iff.mp hinh)]

end Sys2Proof.Machine
end

section
/-! ## The return from a trap (R181) -/

namespace Sys2Proof.Machine

/-- Merging and popping entries leaves a running path at its PC (R100). -/
theorem collapse_pc : ∀ (n : Nat) (p : Path) (st : List REntry), (collapse n p st).1.pc = p.pc := by
  intro n
  induction n with
  | zero => exact fun _ _ => rfl
  | succ n ih =>
    intro p st
    cases st with
    | nil => rfl
    | cons e rest =>
      unfold collapse
      dsimp only
      split
      · exact ih _ rest
      · rfl

/-- A moved path stands at the PC it was moved to. -/
theorem Weft.goto_pc_eq (w : Weft) (pc : Va) : (w.goto pc).pc = pc := by
  rw [Weft.goto_pc, collapse_pc]

/-- Where RFT may return it leaves the weft at TRAPPC with INH clear, and then wakes others. -/
theorem exec_rft_returns {o : PlainArgs} {s : State} {sel : Mask} (hx : Executes s (.plain o.g []) sel)
    (hinh : s.me.tstat.getLsbD 0 = true) (hdepth : s.me.stack.length % 32 = s.me.tstat.toNat / 256 % 32) :
    ∃ t, exec (.rft o) s = .next t ∧
      Heddled (s.setWeft s.cur (s.me.cleared.returnFromTrap.goto (s.me.trappc.truncate 57))) t := by
  obtain ⟨-, -, -, -, -, -, hreturns, -⟩ := pathAndTrapInstructionsComplete
  exact ⟨_, (hreturns o s sel).1 hx _ ⟨hinh, hdepth, _, rfl, rfl⟩, .wake _⟩

/-- Settles O48: RFT faults or returns as its body says, and the wake after it changes only the heddle's records. -/
theorem returnFromTrap : Obligations.ReturnFromTrap := by
  intro o s sel hx
  refine ⟨fun hbad => ?fault, fun hinh hdepth => ?goes⟩
  case fault =>
    obtain ⟨-, -, -, -, -, -, -, hfaults⟩ := pathAndTrapInstructionsComplete
    exact hfaults o s sel hx _ _ ⟨hbad, rfl, rfl⟩
  case goes =>
    obtain ⟨t, ht, hh⟩ := exec_rft_returns hx hinh hdepth
    have hme := hh.wefts s.cur
    rw [State.weft_setWeft_same] at hme
    refine ⟨t, ht, (Weft.arch_pc hme).trans (Weft.goto_pc_eq ..), (congrArg Weft.tstat hme :), (Weft.arch_vr hme :), (Weft.arch_sr hme :),
      (Weft.arch_ks hme :), (congrArg Weft.fpctl hme :), (Weft.arch_fpstat hme :), (congrArg Weft.trapcause hme :),
      (congrArg Weft.trappc hme :), (congrArg Weft.trapaddr hme :), (congrArg Weft.trapmask hme :), fun g hg => ?_, hh.cores, ?_⟩
    · rw [hh.wefts, State.weft_setWeft_ne _ _ hg]
    · exact congrArg (fun u : State => { u with wefts := s.wefts }) hh.device

end Sys2Proof.Machine
end

section
/-! ## Cross-lane instructions (R161 to R166) -/

namespace Sys2Proof.Machine

/-! ### Results by class of destination -/

/-- An operation that hands its results to `crossOut` crosses lanes with them (R161). -/
theorem Crosses.of_crossOut {i : Instr} {p : Bool} {f : Form} {d : Reg} {cls : List RC} {m : Weft → Mask → Mask}
    {sc : Weft → Mask → Cell} {v : Weft → Mask → Nat → Cell}
    (hi : ∀ s, exec i s = runAt p s 8 (fun s h => s.operate h f (fun w sel => s.crossOut h d sel (m w sel) (sc w sel) (v w sel))))
    (hm : opD cls d ∈ f.ops) (hc : ∀ c ∈ cls, c = .v ∨ c = .s ∨ c = .k) : Crosses i f d m sc v := by
  intro s sel
  rw [hi]
  refine ⟨fun h => ?_, run_skip (F := fun _ _ => f)⟩
  obtain ⟨u, hdone, hcrossed⟩ := Crossed.crossOut (s := s) (sel := sel) (m := m s.me sel) (sc := sc s.me sel) (v := v s.me sel) (len := 8)
    (dst_vsk hc (Form.dst_of_decodes h.decodes hm))
  exact ⟨_, run_done (F := fun _ _ => f) h hdone, hcrossed⟩

theorem crossing_vsk : ∀ c ∈ [RC.v, RC.s, RC.k], c = .v ∨ c = .s ∨ c = .k := by decide

theorem crossing_match (all : Bool) : ∀ c ∈ (if all then [RC.v, RC.s] else [RC.v]), c = .v ∨ c = .s ∨ c = .k := by
  cases all <;> decide

/-- A legal destination among vectors and scalars. -/
theorem dst_vs {d : Reg} {u : Bool} {w : Weft} (h : (opD [.v, .s] d).regOk u w = true) : (∃ n, d = .v n) ∨ ∃ n, d = .s n := by
  obtain hv | hs | ⟨n, rfl⟩ := dst_vsk (by decide) h
  · exact .inl hv
  · exact .inr hs
  · cases u <;> cases h

/-! ### Values given to the contributors -/

section Contributors

variable {s : State} {f : Form} {sel : Mask} {d : Reg} {len : Nat}

/-- Where an instruction that is not uniform may put a value per thread. -/
theorem Executes.dst_perThread (h : Executes s f sel) (hm : opD [.v] d ∈ f.ops) (hu : f.g.uni = false) :
    (∃ n, d = .v n) ∨ d = .zero := by
  obtain ⟨ht, -⟩ | ⟨-, hd⟩ := dst_class perThread_v (Form.dst_of_decodes h.decodes hm)
  · exact absurd (hu.symm.trans ht) Bool.false_ne_true
  · exact hd

/-- Cells written by thread to a vector register or to ZERO, and flags raised. -/
theorem Wrote.after_cells {l : List (Nat × Cell)} {on : Nat → Bool} {val : Nat → Cell} {fl : Flags} (hd : (∃ n, d = .v n) ∨ d = .zero)
    (hl : ∀ p ∈ l, p.1 < 32)
    (hv : ∀ n i, i < 32 →
      ((l.reverse.find? (fun p => p.1 = i)).map (fun p => p.2)).getD (s.me.v n i) = if on i then val i else s.me.v n i) :
    Wrote s ((s.setWeft s.cur ((s.me.putAll d l).raise fl)).after s.cur len) d on val fl len := by
  refine .after_put ?_ hl (fun n i hi _ => hv n i hi) ?_
  · rintro n rfl
    obtain ⟨m, h⟩ | h := hd <;> cases h
  · intro n hs
    obtain ⟨m, rfl⟩ | rfl := hd <;> cases hs

theorem contributors_lt {val : Nat → Cell} : ∀ p ∈ (threads sel).map (fun t => (t, val t)), p.1 < 32 :=
  List.forall_mem_map.mpr fun _ => threads_lt

theorem find_contributor {val : Nat → Cell} {i : Nat} {c : Cell} (hi : i < 32) :
    ((((threads sel).map (fun t => (t, val t))).reverse.find? (fun p => p.1 = i)).map (fun p => p.2)).getD c =
      if sel.getLsbD i then val i else c := by
  rw [find_map_threads]
  simp only [mem_threads, hi, true_and]

/-- A value for each contributor, written to a vector register or to ZERO. -/
theorem Wrote.of_contributors {val : Nat → Cell} {fl : Flags} (hd : (∃ n, d = .v n) ∨ d = .zero) :
    Wrote s ((s.setWeft s.cur ((s.me.putAll d ((threads sel).map (fun t => (t, val t)))).raise fl)).after s.cur len) d
      (fun k => sel.getLsbD k) val fl len :=
  .after_cells hd contributors_lt fun _ _ hi => find_contributor hi

/-- One value that every contributor gives, written to a scalar register. -/
theorem Wrote.of_contributors_scalar {n : BitVec 6} {on : Nat → Bool} {c : Cell} {fl : Flags} (hsel : sel ≠ 0) :
    Wrote s ((s.setWeft s.cur ((s.me.putAll (.s n) ((threads sel).map (fun t => (t, c)))).raise fl)).after s.cur len) (.s n)
      on (fun _ => c) fl len := by
  refine .after_put (fun _ => Reg.noConfusion) contributors_lt (fun _ _ _ => Bool.noConfusion) fun m _ => ?_
  rw [List.getLast?_map, List.getLast?_eq_some_getLast (threads_ne_nil hsel)]
  rfl

/-- The cells of lanes that stand for the contributors in order. -/
theorem map_cells_eq {l : List Lane} {val : Nat → Cell} (ht : l.map (fun x => x.t) = threads sel) (hc : ∀ x ∈ l, x.c = val x.t) :
    l.map (fun x => (x.t, x.c)) = (threads sel).map (fun t => (t, val t)) := by
  rw [← ht, List.map_map]
  exact List.map_congr_left fun x hx => Prod.ext rfl (hc x hx)

end Contributors

/-! ### LXCH (R164) -/

theorem map_fst_filter {α β : Type} (l : List α) (f : α → β × Bool) :
    ((l.map (fun t => (t, f t))).filter (fun p => p.2.2)).map (fun p => p.1) = l.filter (fun t => (f t).2) := by
  rw [List.filter_map, List.map_map]
  exact List.map_id _

/-- LXCH gives each contributor the cell it reads, and flags those that read no other thread's. -/
theorem exec_lxch_wrote (o : LxchArgs) {s : State} {sel : Mask} (h : Executes s (lxchForm o s.me) sel) (hu : o.g.uni = false) :
    ∃ t, exec (.lxch o) s = .next t ∧
      WroteBoth s t o.d (fun k => sel.getLsbD k) (fun k => { (lxchValue o s.me k).1 with full := true }) o.flag
        (maskOf ((threads sel).filter (fun k => (lxchValue o s.me k).2))) (lenI o.b) := by
  have hd := h.dst_perThread (d := o.d) (mem_plain_last o.g _ _) hu
  refine ⟨_, run_done (F := fun s h => lxchForm o (s.weft h)) h rfl, ?_⟩
  rw [map_fst_filter, List.map_map]
  exact .after hd contributors_lt fun n i hi _ => find_contributor hi

/-! ### COMPACT (R166) -/

/-- The cells COMPACT gives: to the contributors in order, those of the marked threads in order. -/
def compactCells (w : Weft) (a k : Src) (sel : Mask) : List (Nat × Cell) :=
  ((threads sel).zip ((threads sel).filter (fun t => (w.maskSrc k.reg).getLsbD t))).map
    (fun p => (p.1, { w.cell a.reg p.2 with full := true }))

theorem compactCells_fst_sublist (w : Weft) (a k : Src) (sel : Mask) :
    ((compactCells w a k sel).map (fun p => p.1)).Sublist (threads sel) := by
  rw [compactCells, List.map_map]
  exact zip_fst_sublist _ _

theorem compactCells_lt (w : Weft) (a k : Src) (sel : Mask) : ∀ p ∈ compactCells w a k sel, p.1 < 32 :=
  fun _ hp => threads_lt ((compactCells_fst_sublist w a k sel).subset (List.mem_map_of_mem hp))

/-- The contributor at a place gets the cell of the marked thread at that place, if there is one. -/
theorem find_compactCells (w : Weft) (a k : Src) (sel : Mask) {i : Nat} (hi : i < 32) (c : Cell) :
    (((compactCells w a k sel).reverse.find? (fun p => p.1 = i)).map (fun p => p.2)).getD c =
      if sel.getLsbD i && (threads sel).idxOf i < ((threads sel).filter (fun t => (w.maskSrc k.reg).getLsbD t)).length then
        { w.cell a.reg (((threads sel).filter (fun t => (w.maskSrc k.reg).getLsbD t)).getD ((threads sel).idxOf i) 0) with full := true }
      else c := by
  rw [find_rev_nodup _ ((threads_nodup sel).sublist (compactCells_fst_sublist w a k sel)), compactCells,
    idx_threads _ _ (threads_nodup sel) i (fun t => { w.cell a.reg t with full := true })]
  simp only [mem_threads, hi, true_and, Bool.and_eq_true, decide_eq_true_iff]

theorem delivers_compact (o : CompactArgs) (hu : o.g.uni = false) :
    Delivers (.compact o) (.plain o.g [opS 1 [.v] none o.a, opS 2 [.k] none o.k, opD [.v] o.d]) o.d 8 (fun _ _ _ => True)
      (fun w sel k => sel.getLsbD k &&
        (threads sel).idxOf k < ((threads sel).filter (fun t => (w.maskSrc o.k.reg).getLsbD t)).length)
      (fun w sel k => { w.cell o.a.reg
        (((threads sel).filter (fun t => (w.maskSrc o.k.reg).getLsbD t)).getD ((threads sel).idxOf k) 0) with full := true })
      (fun _ _ => 0) := by
  refine .of_body (fun _ => rfl) fun s sel h _ => ⟨_, rfl, ?_⟩
  have hd := h.dst_perThread (d := o.d) (mem_plain_last o.g [_, _] _) hu
  change Wrote s ((s.setWeft s.cur (s.me.putAll o.d (compactCells s.me o.a o.k sel))).after s.cur 8) _ _ _ _ _
  rw [← Weft.raise_zero (s.me.putAll _ _)]
  exact .after_cells hd (compactCells_lt s.me o.a o.k sel) fun n i hi => find_compactCells s.me o.a o.k sel hi _

/-! ### SCAN and REDUCE (R165) -/

theorem find_lane {l : List Lane} (hn : (l.map (fun x => x.t)).Nodup) {x : Lane} (hx : x ∈ l) :
    l.find? (fun y => y.t = x.t) = some x := by
  induction l with
  | nil => cases hx
  | cons y l ih =>
    obtain ⟨hy, hl⟩ := List.nodup_cons.mp hn
    obtain rfl | hx := List.mem_cons.mp hx
    · exact List.find?_cons_of_pos (decide_eq_true rfl)
    · have hne : y.t ≠ x.t := fun e => hy (List.mem_map.mpr ⟨x, hx, e.symm⟩)
      rw [List.find?_cons_of_neg (by simpa using hne), ih hl hx]

/-- A fold's cells by thread. -/
theorem foldLanes_cells (w : Weft) (op : FoldOp) (ty : FoldTy) (a : Src) (sel : Mask) (exc : Bool) :
    (foldLanes w op ty a sel exc).map (fun x => (x.t, x.c)) = (threads sel).map (fun t =>
      (t, (((foldLanes w op ty a sel exc).find? (fun x => x.t = t)).map (fun x => x.c)).getD Cell.launch)) := by
  have ht := foldLanes_t w op ty a sel exc
  refine map_cells_eq ht fun x hx => ?_
  rw [find_lane (ht ▸ threads_nodup sel) hx]
  rfl

/-- REDUCE gives every contributor the last cell of its fold. -/
theorem reduceLanes_cells (w : Weft) (o : ReduceArgs) (sel : Mask) :
    (reduceLanes w o sel).map (fun x => (x.t, x.c)) = (threads sel).map (fun t =>
      (t, ((foldLanes w o.op o.ty o.a sel false).getLast?.map (fun x => x.c)).getD Cell.launch)) := by
  have ht := foldLanes_t w o.op o.ty o.a sel false
  unfold reduceLanes
  dsimp only
  cases hlast : (foldLanes w o.op o.ty o.a sel false).getLast? with
  | none =>
    rw [List.getLast?_eq_none_iff.mp hlast] at ht
    rw [← ht]
    rfl
  | some x =>
    rw [← ht, List.map_map, List.map_map]
    rfl

/-- SCAN gives each contributor its own cell of the fold, unless an invalid operation is trapped (R70). -/
theorem exec_scan_wrote (o : ScanArgs) {s : State} {sel : Mask} (hu : o.g.uni = false)
    (h : Executes s (.plain o.g [opS 1 [.v, .s] (foldTags o.ty) o.a, opD [.v] o.d]) sel)
    (hinv : s.me.invalid false sel (foldLanes s.me o.op o.ty o.a sel o.exc) = none) :
    ∃ t, exec (.scan o) s = .next t ∧ Wrote s t o.d (fun k => sel.getLsbD k)
      (fun k => (((foldLanes s.me o.op o.ty o.a sel o.exc).find? (fun x => x.t = k)).map (fun x => x.c)).getD Cell.launch)
      (orFlags (foldLanes s.me o.op o.ty o.a sel o.exc)) 8 := by
  refine ⟨_, run_done (F := fun _ _ => _) h (writeLanes_ok hinv), ?_⟩
  rw [foldLanes_cells]
  exact .of_contributors (h.dst_perThread (mem_plain_last o.g [_] _) hu)

/-- REDUCE gives every contributor, or the scalar, the whole fold, unless an invalid operation is trapped (R70). -/
theorem exec_reduce_wrote (o : ReduceArgs) {s : State} {sel : Mask}
    (h : Executes s (.plain o.g [opS 1 [.v, .s] (foldTags o.ty) o.a, opD [.v, .s] o.d]) sel)
    (hinv : s.me.invalid false sel (reduceLanes s.me o sel) = none) :
    ∃ t, exec (.reduce o) s = .next t ∧ Wrote s t o.d (fun k => sel.getLsbD k)
      (fun _ => ((foldLanes s.me o.op o.ty o.a sel false).getLast?.map (fun x => x.c)).getD Cell.launch)
      (orFlags (reduceLanes s.me o sel)) 8 := by
  refine ⟨_, run_done (F := fun _ _ => _) h (writeLanes_ok hinv), ?_⟩
  rw [reduceLanes_cells]
  obtain hv | ⟨n, hn⟩ := dst_vs (Form.dst_of_decodes h.decodes (mem_plain_last o.g [_] _))
  · exact .of_contributors (.inl hv)
  · rw [hn]
    exact .of_contributors_scalar h.some

/-- Settles O8: VOTE, BALLOT, MATCH and ELECT hand one result to each class of destination; LXCH, COMPACT, SCAN and REDUCE write a
cell for each contributor. -/
theorem crossLaneResults : Obligations.CrossLaneResults :=
  ⟨fun o => .of_crossOut (fun _ => rfl) (mem_plain_last o.g [_] _) crossing_vsk,
    fun o => .of_crossOut (fun _ => rfl) (mem_plain_last o.g [_] _) crossing_vsk,
    fun o => .of_crossOut (fun _ => rfl) (mem_plain_last o.g [_] _) (crossing_match o.all),
    fun o => .of_crossOut (fun _ => rfl) (mem_plain_last o.g [] _) crossing_vsk,
    fun o _ _ => ⟨exec_lxch_wrote o, run_skip (F := fun s h => lxchForm o (s.weft h))⟩,
    delivers_compact,
    fun o hu _ _ => ⟨exec_scan_wrote o hu, run_skip (F := fun _ _ => _)⟩,
    fun o _ _ => ⟨exec_reduce_wrote o, run_skip (F := fun _ _ => _)⟩⟩

end Sys2Proof.Machine
end

section
/-! ## Memory instructions: from a body to its completion (R189 to R209) -/

namespace Sys2Proof.Machine

/-- What an access's body gives for the conditions of an effect, its instruction completes with, once no earlier acquire is
outstanding (R325). -/
theorem Effects.of_access {i : Instr} {p : Bool} {F : Form} {len : Nat} {body : State → Nat → Weft → Mask → Eff}
    {rel : State → Weft → Mask → State → Prop} (hi : ∀ s, exec i s = runAt p s len (fun s h => s.access h F (body s h)))
    (hb : ∀ s w sel u, rel s w sel u → body s s.cur w sel = .done u) : Effects Accesses i F len rel := by
  intro s sel
  rw [hi]
  exact ⟨fun h u hu => acc_done rfl h (hb s _ sel u hu), acc_skip rfl⟩

/-- Once the release an instruction carries has been made, the instruction goes on (R205). -/
theorem releasing_of_released {h : Nat} {s u : State} {sel : Mask} {sc : Option Scope} (hr : Released h s sel sc u) (next : State → Eff) :
    s.releasing h sel sc next = next u :=
  releasing_go hr

end Sys2Proof.Machine
end

section
/-! ## Loads (R189, R196, R197, R200) -/

namespace Sys2Proof.Machine

/-- LD and LDU complete once their record, groups and pages raise no fault (R197). -/
theorem Effects.of_load {i : Instr} {p once : Bool} {o : LdArgs} (hi : ∀ s, exec i s = runAt p s (lenA o.add) (loadOp once o)) :
    Effects Accesses i (recForm o.g o.br [opS 2 (if once then [.s, .z] else cOff) tInt o.off, opD (if once then [.s] else [.v]) o.d])
      (lenA o.add) (Loads once o) := by
  refine .of_access hi ?_
  rintro s w sel u ⟨hrec, hcut, p, s1, locs, hpair, hlocs, rfl⟩
  simp only [hrec, hpair, hcut, hlocs, ne_eq, not_true_eq_false, if_false]

/-- LDS and LDV complete once their places pass the checks of R200. -/
theorem Effects.of_spaceLoad {i : Instr} {p : Bool} {g : Guard} {kind : Nat} {acq : Option Scope} {x : Target} {xops : List Opnd}
    {d : Reg} {off : Src} {add : Option (BitVec 32)} (hi : ∀ s, exec i s = runAt p s (lenA add) (spaceLoad g kind acq x xops d off add)) :
    Effects Accesses i (spaceLoadForm g xops d off) (lenA add) (fun s w sel u =>
      ∃ l, s.spaceChecked w false x (w.offset off (addInt add)) (fun _ => (ldsKind kind).1) sel = .inl l ∧
        u = (s.issueSpaceLoad s.cur d sel kind l).acquiresNow (s.coreOf w) acq) := by
  refine .of_access hi ?_
  rintro s w sel u ⟨l, hplaces, rfl⟩
  simp only [hplaces]

/-- Settles O13: a load's body makes the checks in the statement's order and then issues its flight; BRLOAD's makes those of R189 and
sets the record. -/
theorem loadsComplete : Obligations.LoadsComplete := by
  refine ⟨fun o => .of_load (once := false) fun _ => rfl, fun o => .of_load (once := true) fun _ => rfl,
    fun o => .of_spaceLoad fun _ => rfl, fun o => .of_spaceLoad fun _ => rfl, fun o => .of_access (fun _ => rfl) ?brload⟩
  rintro s w sel u ⟨off, hoff, halign, hfits, hguard, hgood, hok, hw4, s1, rfl, rfl⟩
  have haligned : ¬ (off : Int) % 8 ≠ 0 := by omega
  have hinside : ¬ ((off : Int) < 0 || (s.boltOf w).scratch < (off : Int) + 40) = true := by
    simp only [Bool.or_eq_true, decide_eq_true_iff]
    omega
  simp only [hoff, haligned, hinside, Int.toNat_natCast, hguard, hgood, hok, hw4, ne_eq, not_true_eq_false, Bool.not_true, Bool.false_eq_true,
    if_false]

end Sys2Proof.Machine
end

section
/-! ## Stores (R192, R195 to R197, R200, R308) -/

namespace Sys2Proof.Machine

/-- ST and STU complete once their record, registers, groups and pages raise no fault and their release is made (R192, R197). -/
theorem Effects.of_store {i : Instr} {p once : Bool} {o : StArgs} (hi : ∀ s, exec i s = runAt p s (lenA o.add) (storeOp once o)) :
    Effects Accesses i (recForm o.g o.br [opS 2 (if once then [.s, .z] else cOff) tInt o.off, opS 3 (if once then [.s] else [.v]) none o.data])
      (lenA o.add) (Stores once o) := by
  refine .of_access hi ?_
  rintro s w sel u ⟨hrec, htags, hcut, s1, locs, s2, ws, fl, s3, hlocs, hbytes, hrel, rfl⟩
  rw [storeItems] at htags hbytes
  simp only [hrec, htags, hcut, hlocs, ne_eq, not_true_eq_false, if_false]
  by_cases hw : (s.recordOf w o.br).fields.wholeBlocks = true
  · rw [if_pos hw] at hbytes
    obtain ⟨hplaced, rfl⟩ := hbytes
    simp only [hw, if_true, hplaced, releasing_of_released hrel]
  · rw [if_neg hw] at hbytes
    obtain ⟨rfl, hplain⟩ := hbytes
    simp only [hw, Bool.false_eq_true, if_false, ← hplain, releasing_of_released hrel]

/-- STS and STV complete once their places pass the checks of R200 and their release is made. -/
theorem Effects.of_spaceStore {i : Instr} {p : Bool} {g : Guard} {size : Nat} {rel : Option Scope} {x : Target} {xops : List Opnd}
    {off data : Src} {add : Option (BitVec 32)}
    (hi : ∀ s, exec i s = runAt p s (lenA add) (spaceStore g size rel x xops off add data)) :
    Effects Accesses i (spaceStoreForm g xops off data) (lenA add) (fun s w sel u =>
      ∃ l s1, s.spaceChecked w true x (w.offset off (addInt add)) (fun _ => 2 ^ size) sel = .inl l ∧ Released s.cur s sel rel s1 ∧
        u = l.foldl (fun (s : State) a => s.spaceWrite a.sp a.off (natLe a.n (w.cell data.reg a.thr).val.toNat)) s1) := by
  refine .of_access hi ?_
  rintro s w sel u ⟨l, s1, hplaces, hrel, rfl⟩
  simp only [hplaces, releasing_of_released hrel]

/-- Settles O14: a store's body makes the checks and the release in the statement's order and then its writes. -/
theorem storesComplete : Obligations.StoresComplete :=
  ⟨fun _ => .of_store (once := false) fun _ => rfl, fun _ => .of_store (once := true) fun _ => rfl,
    fun _ => .of_spaceStore fun _ => rfl, fun _ => .of_spaceStore fun _ => rfl⟩

end Sys2Proof.Machine
end

section
/-! ## Atomics and reductions (R201 to R203, R311) -/

namespace Sys2Proof.Machine

theorem maskOf_nil : maskOf [] = 0 := rfl

/-- Where the checks of an atomic find its places, it goes on there. -/
theorem atomChecked_of_places {s u : State} {w : Weft} {sel : Mask} {o : AtomIn} {p : AtomAt} (h : AtomPlaces s w sel o u p)
    (next : State → AtomAt → Eff) : s.atomChecked w sel o next = next u p := by
  obtain ⟨op, base, off, c, add⟩ := o
  obtain ⟨hcas, hplaces⟩ := h
  unfold State.atomChecked
  simp only [hcas, ne_eq, not_true_eq_false, if_false]
  cases base with
  | record br =>
    obtain ⟨hrec, hwidths, locs, hlocs, rfl⟩ := hplaces
    have hbad : (threads sel).filter (fun t => !atomEnc (s.recordOf w br).fields (atomBytes (w.atomCell c t op).tag)) = [] :=
      List.filter_eq_nil_iff.mpr fun t ht => by simp only [hwidths t ht, Bool.not_true, Bool.false_eq_true, not_false_eq_true]
    simp only [hrec, hbad, maskOf_nil, hlocs, not_true_eq_false, if_false]
  | own =>
    obtain ⟨rfl, l, hl, rfl⟩ := hplaces
    simp only [hl]
  | bolt b =>
    obtain ⟨rfl, l, hl, rfl⟩ := hplaces
    simp only [hl]
  | vault =>
    obtain ⟨rfl, l, hl, rfl⟩ := hplaces
    simp only [hl]

/-- Settles O15: an atomic makes its checks and its release and then goes on at its places, by their kind. That a RED waits for its
bolt's buffered stores to the same bytes is the model's choice (log 45). -/
theorem atomicsComplete : Obligations.AtomicsComplete := by
  refine ⟨fun o => .of_access (fun _ => rfl) ?atom, fun o => .of_access (fun _ => rfl) ?red⟩
  case atom =>
    rintro s w sel u ⟨s1, p, s2, hplaces, hrel, hu⟩
    simp only [atomChecked_of_places hplaces, releasing_of_released hrel]
    cases p with
    | global r locs => rw [hu]
    | space l =>
      obtain ⟨s3, cells, dead, hdone, rfl⟩ := hu
      simp only [hdone]
  case red =>
    rintro s w sel u ⟨s1, p, s2, hplaces, hrel, hu⟩
    simp only [atomChecked_of_places hplaces, releasing_of_released hrel]
    cases p with
    | global r locs =>
      obtain ⟨hwrites, hreads, rfl⟩ := hu
      simp only [hwrites, hreads, Bool.or_self, Bool.false_eq_true, if_false]
    | space l => rw [hu]

end Sys2Proof.Machine
end

section
/-! ## Fences, waits for values, prefetches, line operations and leases (R204 to R209) -/

namespace Sys2Proof.Machine

/-- The acquire of a fence at WEFT scope, or with no read outstanding, is made at once (R205). -/
theorem fenceAcquire_done {s : State} {h : Nat} {sel : Mask} {sc : Scope} (hq : sc = .weft ∨ (s.weft h).owesAny sel = false) :
    s.fenceAcquire h sel sc = .done (s.acquire (s.coreOf (s.weft h)) sc) := by
  refine if_neg fun hwait => ?_
  obtain ⟨hsc, howes⟩ := (Bool.and_eq_true _ _).mp hwait
  obtain rfl | hnone := hq
  · exact of_decide_eq_true hsc rfl
  · exact Bool.false_ne_true (hnone.symm.trans howes)

/-- .INVL1, .WBINVL1 and .EVICT drop the core's copies (R208). -/
theorem cline_drops_iff : ∀ op : Fin 5, (op.val = 0 || op.val = 2 || op.val = 4) = true ↔ op = 0 ∨ op = 2 ∨ op = 4 := by
  decide

/-- .WBL2 and .EVICT make the home combine (R208, R311). -/
theorem cline_recalls_iff : ∀ op : Fin 5, (op.val = 3 || op.val = 4) = true ↔ op = 3 ∨ op = 4 := by
  decide

/-- Settles O16: each body makes the statement's checks in its order and then its effect. That CLINE takes one element for each thread
is the model's choice (log 51). -/
theorem orderingAndHintsComplete : Obligations.OrderingAndHintsComplete := by
  refine ⟨fun o => .of_body (fun _ => rfl) ?fence, fun o => .of_access (fun _ => rfl) ?waitv, fun o => .of_body (fun _ => rfl) ?pref,
    fun o => .of_body (fun _ => rfl) ?cline, fun o => .of_body (fun _ => rfl) ?lease⟩
  case fence =>
    rintro s w sel u ⟨s1, hrel, hu⟩
    refine (releasing_of_released hrel _).trans ?_
    by_cases hacq : Sem.acquires o.sem = true
    · rw [if_pos hacq] at hu
      obtain ⟨hquiet, rfl⟩ := hu
      rw [if_pos hacq, fenceAcquire_done hquiet]
    · rw [if_neg hacq] at hu
      rw [if_neg hacq, hu]
  case waitv =>
    rintro s w sel u ⟨hrec, henc, s1, locs, f, s2, hlocs, rfl, hf, rfl⟩
    have hwidth : (if o.w64 then (s.recordOf w o.br).fields.enc = 0x01 || (s.recordOf w o.br).fields.enc = 0x00
        else (s.recordOf w o.br).fields.enc = 0x02 || (s.recordOf w o.br).fields.enc = 0x0C : Bool) = true := by
      cases hw : o.w64 <;> simpa [hw] using henc
    simp only [hrec, hwidth, hlocs, hf, Bool.not_true, Bool.false_eq_true, if_false]
  case pref =>
    rintro s w sel u rfl
    exact (apply_ite Eff.done ..).symm
  case cline =>
    rintro s w sel u ⟨hrec, s1, locs, s2, hlocs, rfl, rfl⟩
    simp only [hrec, hlocs, cline_drops_iff, cline_recalls_iff]
  case lease =>
    rintro s w sel u rfl
    rfl

end Sys2Proof.Machine
end

section
/-! ## Memory at its home (R202, R308 to R310) -/

namespace Sys2Proof.Machine

/-! ### Lines -/

theorem lineBad_of_line (s : State) (pa : Nat) : s.lineBad (pa / 64 * 64) = s.lineBad pa := by
  have hline : pa / 64 * 64 / 64 = pa / 64 := Nat.mul_div_cancel _ (by decide)
  have hstack : pa / 64 * 64 / stackSize = pa / stackSize := by simp only [stackSize]; omega
  have hend : hbmSize ≤ pa / 64 * 64 ↔ hbmSize ≤ pa := by simp only [hbmSize]; omega
  simp only [State.lineBad, State.lineLost, hline, hstack, hend]

/-- The line of a range's first byte is among its lines. -/
theorem line_mem_linesOf {pa n : Nat} (hn : 0 < n) : pa / 64 ∈ linesOf pa n :=
  List.mem_map.mpr ⟨0, List.mem_range.mpr (by omega), Nat.add_zero _⟩

/-! ### What waits on nothing stays as it is -/

section Quiet

variable {s : State}

theorem recall_of_noCopies (h : ∀ p ∈ s.cores, p.2.upd = []) (line : Nat) : s.recall line = s := by
  have hnone : s.redsOf line = [] := by
    have hflat : s.cores.flatMap (fun p => p.2.upd.filter (fun e => e.pa / 64 = line)) = [] :=
      List.flatMap_eq_nil_iff.mpr fun p hp => by rw [h p hp, List.filter_nil]
    rw [State.redsOf, hflat]
    rfl
  rw [State.recall, hnone]

theorem mendL2_of_clean {line : Nat} (h : line ∉ s.l2Bad) : s.mendL2 line = s :=
  if_neg (by simpa using h)

theorem endSequences_of_noSums (h : s.accs = [] ∧ s.contribs = []) (pa n : Nat) : s.endSequences pa n = s := by
  obtain ⟨haccs, hcontribs⟩ := h
  have hparts : s.partsAt pa n = [] := by rw [State.partsAt, haccs, hcontribs]; rfl
  rw [State.endSequences, hparts, List.foldl_nil]

theorem drainFrame_of_noCkpts (h : s.ckpts = []) (frame : Nat) : s.drainFrame frame = s :=
  if_neg (by simp [h])

/-- A write that no poll and no mailbox waits on is followed by nothing (R206, R413). -/
theorem written_of_unwatched (hpolls : ∀ p ∈ s.wefts, p.2.flights = []) (hboxes : ∀ p ∈ s.ctxs, p.2.mboxes = []) (pa : Nat) :
    s.written pa = s := by
  have hflights : s.wefts.flatMap (fun p => (p.2.flights.filter (fun f => f.polls pa)).map (fun f => (p.1, f))) = [] :=
    List.flatMap_eq_nil_iff.mpr fun p hp => by rw [hpolls p hp]; rfl
  have hbox : s.mailboxAt pa = none :=
    List.findSome?_eq_none_iff.mpr fun p hp => by rw [hboxes p hp]; rfl
  rw [State.written, State.triggerPolls, hflights, List.foldl_nil, State.fire, hbox]

end Quiet

/-! ### Accesses to calm memory -/

section Calm

variable {s : State} {pa n : Nat} (hc : Calm s pa n)

include hc

theorem homeRead_of_calm (consumer asid : Nat) : s.homeRead pa n consumer asid = (s, some (Store.bytes s.mem pa n)) := by
  have hrecall : s.recallRange pa n = s := List.foldl_fixed' (recall_of_noCopies hc.copies) _
  have hmend : (linesOf pa n).foldl (fun s l => s.mendL2 l) s = s :=
    List.foldlRecOn (motive := fun u => u = s) _ _ rfl fun u hu l hl => by rw [hu, mendL2_of_clean (hc.clean l hl)]
  have hsound : (linesOf pa n).find? (fun l => s.lineBad (l * 64)) = none :=
    List.find?_eq_none.mpr fun l hl => Bool.eq_false_iff.mp (hc.sound l hl)
  simp only [State.homeRead, hrecall, hmend, hsound]

/-- A write to the line of the first byte stores its bytes and does nothing else. -/
theorem writeLine_of_calm (hn : 0 < n) (l : List Byte) (ends : Bool) :
    s.writeLine pa l ends = { s with mem := Store.putBytes s.mem pa l } := by
  have hline := line_mem_linesOf (pa := pa) hn
  have hsound : s.lineBad pa = false := lineBad_of_line s pa ▸ hc.sound _ hline
  simp only [State.writeLine, recall_of_noCopies hc.copies, mendL2_of_clean (hc.clean _ hline), endSequences_of_noSums hc.sums, ite_self,
    drainFrame_of_noCkpts hc.drains, hsound, Bool.false_eq_true, if_false]
  exact written_of_unwatched (s := { s with mem := Store.putBytes s.mem pa l }) hc.polls hc.boxes pa

/-- An atomic at its home reads the old value and writes the new one (R202). -/
theorem homeAtom_of_calm (hn : 0 < n) (op : AtomOp) (flt : Bool) (a c1 asid : Nat) :
    s.homeAtom op n flt pa a c1 asid =
      ({ s with mem := Store.writeNat s.mem pa n (atomicNew op n flt (Store.readNat s.mem pa n) a c1) },
        some (Store.readNat s.mem pa n)) := by
  simp only [State.homeAtom, homeRead_of_calm hc, writeLine_of_calm hc hn]
  rfl

end Calm

/-- Settles O52: nothing waits on the bytes, so the atomic is one read and one write of memory. -/
theorem atomicsAtHome : Obligations.AtomicsAtHome := by
  intro s op n flt pa a c1 asid hn _ hc
  have hpos : 0 < n := by omega
  refine ⟨_, homeAtom_of_calm hc hpos op flt a c1 asid, Store.readNat_writeNat_same .., fun b hb => ?_, rfl⟩
  exact Store.get_putBytes_out _ _ _ _ (by simpa using hb)

end Sys2Proof.Machine
end

section
/-! ## Barriers and declared buffers: what their instructions share (R228 to R240) -/

namespace Sys2Proof.Machine

/-- An instruction on an object completes with what its own part gives for the conditions of its effect there (R240). -/
theorem Effects.of_object {i : Instr} {p : Bool} {F : Form} {len : Nat} {bolt : Option Src} {off : Src} {add : Option (BitVec 32)} {align : Nat}
    {obj : Nat → State → Weft → Mask → Nat → Nat → Eff} {rel : State → Weft → Mask → Nat → Nat → State → Prop}
    (hi : ∀ s, exec i s = runAt p s len (fun s h => s.access h F (s.barAt bolt off add align (obj h))))
    (hb : ∀ s sel b f u, rel s s.me sel b f u → obj s.cur s s.me sel b f = .done u) :
    Effects Accesses i F len (AtObject bolt off add align rel) := by
  intro s sel
  rw [hi]
  refine ⟨?_, acc_skip rfl⟩
  rintro hmay u ⟨b, f, htarget, hrel⟩
  refine acc_done rfl hmay ?_
  simp only [State.barAt, htarget]
  exact hb s sel b f u hrel

section Object

variable {s : State} {b f : Nat} {sel : Mask}

/-- An object without an uncorrectable word is read (R362). -/
theorem objRead_of_readable {w : Weft} (h : s.objAborts b f = false) (next : Eff) : s.objRead w b f sel next = next :=
  if_neg (by simp only [h, Bool.false_eq_true, not_false_eq_true])

/-- A wait for a phase that has passed makes its acquire and goes on (R233). -/
theorem phaseWait_of_passed {h : Nat} {p : Word32} (hp : phasePassed ((s.bolt b).barPhase f) p = true) (wt : Wait) (next : State → Eff) :
    s.phaseWait h b f p sel wt next = next (s.phaseAcquire (s.coreOf (s.weft h)) b f p) :=
  if_pos hp

/-- A buffer operation whose barrier is readable and has passed the buffer's phase goes on (R237). -/
theorem bufWait_of_passed {h : Nat} {d : DBuf} (ha : s.objAborts b d.bar = false) (hp : phasePassed ((s.bolt b).barPhase d.bar) d.wph = true)
    (next : State → Eff) : s.bufWait h b d sel next = next (s.phaseAcquire (s.coreOf (s.weft h)) b d.bar d.wph) :=
  (objRead_of_readable ha _).trans (phaseWait_of_passed hp _ _)

end Object

/-- No buffer that `bufs` declares shares a byte with the range. -/
theorem any_overlap_eq_false {bufs : List DBuf} {a n : Nat} (h : ∀ d ∈ bufs, overlap a n d.base d.len = false) :
    bufs.any (fun d => overlap a n d.base d.len) = false :=
  List.any_eq_false.mpr fun d hd => Bool.eq_false_iff.mp (h d hd)

end Sys2Proof.Machine
end

section
/-! ## Barrier instructions (R229 to R234, R240 to R245) -/

namespace Sys2Proof.Machine

section Live

variable {bytes : Option (Weft → Nat)} {d : Reg} {s u : State} {sel : Mask} {b f : Nat}

/-- A LIVE object expects the bytes that its count can hold (R230). -/
theorem barDo_of_expects {x : Weft → Nat} (hlive : s.barState b f = 1) (hfits : ((s.bolt b).obj f).btgt + x s.me < 2 ^ 40) :
    barDo none (some x) d s s.cur s.me sel b f =
      .done ((s.barHappen s.cur b f 0 (some (x s.me))).answered s.cur d ((s.bolt b).obj f).phase) := by
  simp only [barDo, hlive, Option.map_some, decide_eq_false (Nat.not_le.mpr hfits), Option.isSome_none, Bool.false_and, ne_eq, not_true_eq_false,
    Bool.false_eq_true, if_false]
  rfl

/-- A LIVE object takes a participant's arrivals, with the bytes they expect where its count can hold those (R230). -/
theorem barDo_of_arrives {all : Bool} (h : Arrives all d (bytes.map (fun x => x s.me)) s s.me sel b f u)
    (hfits : ∀ x, bytes = some x → ((s.bolt b).obj f).btgt + x s.me < 2 ^ 40) :
    barDo (some all) bytes d s s.cur s.me sel b f = .done u := by
  obtain ⟨-, hlive, hpart, t, s1, harr, hrel, rfl⟩ := h
  simp only [barDo, hlive, hpart, harr, releasing_of_released hrel, Bool.not_true, Bool.and_false, ne_eq, not_true_eq_false, Bool.false_eq_true,
    if_false]
  cases bytes with
  | none => rfl
  | some x => exact if_neg (by simpa using hfits x rfl)

end Live

/-- Settles O17: each body makes the statement's checks at its object in their order and then its effect there. That bytes
with no object registered count as INVALID (log 53), that BAREXPECT.ARR checks the participant before the overflow (log 56) and that BARINVAL
ends the running copies at once (log 57) is the model's choice. -/
theorem barrierInstructionsComplete : Obligations.BarrierInstructionsComplete := by
  refine ⟨fun o => .of_object (fun _ => rfl) ?init, fun o => .of_object (fun _ => rfl) ?inval, fun o => .of_object (fun _ => rfl) ?arrive,
    fun o => .of_object (fun _ => rfl) ?expect, fun o => .of_object (fun _ => rfl) ?wait, fun o => .of_body (fun _ => rfl) ?phase⟩
  case init =>
    rintro s sel b f u ⟨hpm, hbufs, hroom⟩
    simp only [decide_eq_false (Nat.not_le.mpr hpm), any_overlap_eq_false hbufs, Bool.or_self, Bool.false_eq_true, if_false]
    obtain ⟨⟨x, hx, hfull⟩, rfl⟩ | ⟨hfree, s1, hrel, rfl⟩ := hroom
    · have hany : (s.barBolts b o.crs (s.me.int 64 true o.pmask 0).toNat).all (fun x => s.barRoom b f x) = false :=
        List.all_eq_false.mpr ⟨x, hx, Bool.eq_false_iff.mp hfull⟩
      simp only [hany, Bool.not_false, if_true]
      rfl
    · simp only [List.all_eq_true.mpr hfree, Bool.not_true, Bool.false_eq_true, if_false, releasing_of_released hrel]
      rfl
  case inval =>
    rintro s sel b f u rfl
    rfl
  case arrive =>
    intro s sel b f u h
    have ⟨hread, _⟩ := h
    exact (objRead_of_readable hread _).trans (barDo_of_arrives (bytes := none) h (fun _ hx => nomatch hx))
  case expect =>
    rintro s sel b f u ⟨hread, hfits, h⟩
    refine (objRead_of_readable hread _).trans ?_
    cases harr : o.arr with
    | none =>
      simp only [harr] at h
      obtain ⟨hlive, rfl⟩ := h
      exact barDo_of_expects hlive hfits
    | some all =>
      simp only [harr] at h
      exact barDo_of_arrives h fun _ hx => Option.some.inj hx ▸ hfits
  case wait =>
    rintro s sel b f u ⟨hread, hpassed, rfl⟩
    exact (objRead_of_readable hread _).trans (phaseWait_of_passed hpassed _ _)
  case phase =>
    rintro s w sel u ⟨b, f, htarget, hread, rfl⟩
    simp only [State.barAt, htarget, objRead_of_readable hread]
    rfl

end Sys2Proof.Machine
end

section
/-! ## Declared buffers (R236 to R238, R246 to R248) -/

namespace Sys2Proof.Machine

/-- Each operation of BUFSTATE completes where R237's table gives the buffer's state an effect and its wait is over. -/
theorem Effects.of_bufstate {i : Instr} {p : Bool} {op : BufOp} {o : BufstateArgs}
    (hi : ∀ s, exec i s = runAt p s (lenA o.add) (bufstateOp op o)) :
    Effects Accesses i (.plain o.g (xOps none ++ ([opS 2 cBar tInt o.base] ++ [opD cBar o.d]))) (lenA o.add) (BufferStep op o) := by
  refine .of_object hi ?_
  rintro s sel b f u ⟨d, s1, s2, hbuf, hallowed, hwait, hrel, rfl⟩
  simp only [hbuf]
  cases hact : bufAct op d.st with
  | refuse => exact absurd hact hallowed
  | wait x =>
    simp only [hact] at hwait
    obtain ⟨hread, hpassed, rfl⟩ := hwait
    exact (bufWait_of_passed hread hpassed _).trans (releasing_of_released hrel _)
  | keep | bind x | set x =>
    simp only [hact] at hwait
    exact hwait ▸ releasing_of_released hrel _

/-- Settles O18: the declaration makes its checks in order; a release and an operation of BUFSTATE find the buffer and make the wait that
its state asks for. That BUFDECL makes the checks of R240 before its own (log 55) and gives a FREE buffer WPH 0 is the model's choice. -/
theorem bufferInstructionsComplete : Obligations.BufferInstructionsComplete := by
  refine ⟨fun o => .of_object (fun _ => rfl) ?decl, fun o => .of_object (fun _ => rfl) ?rel, ?state⟩
  case decl =>
    rintro s sel b base u ⟨bar, hbar, hread, hlive, hpos, haligned, hfits, hbufs, hobjs, hu⟩
    have hnonneg : ¬ (bar : Int) < 0 := by omega
    simp only [hbar, Int.toNat_natCast, objRead_of_readable hread, hnonneg, hlive, Nat.pos_iff_ne_zero.mp hpos, haligned, Nat.not_lt.mpr hfits,
      any_overlap_eq_false hbufs, hobjs, ne_eq, not_true_eq_false, decide_false, Bool.or_self, Bool.false_eq_true, if_false]
    by_cases hfull : 32 ≤ (s.bolt b).bufs.length
    · rw [if_pos hfull] at hu ⊢
      exact congrArg Eff.done hu.symm
    · rw [if_neg hfull] at hu ⊢
      exact congrArg Eff.done hu.symm
  case rel =>
    rintro s sel b f u ⟨d, s1, hbuf, hwait, rfl⟩
    simp only [hbuf]
    by_cases hidle : d.st = .free ∨ d.st = .full ∨ (s.barState b d.bar ≠ 1 ∧ s.me.waited b d.bar = false)
    · rw [if_pos hidle] at hwait
      rw [hwait]
      exact if_pos (by simpa [or_assoc] using hidle)
    · rw [if_neg hidle] at hwait
      obtain ⟨hread, hpassed, rfl⟩ := hwait
      exact (if_neg (by simpa [or_assoc] using hidle)).trans (bufWait_of_passed hread hpassed _)
  case state =>
    simp only [List.forall_mem_cons]
    refine ⟨?_, ?_, ?_, ?_, ?_, ?_, fun _ h => nomatch h⟩ <;>
      exact fun o => .of_bufstate fun _ => rfl

end Sys2Proof.Machine
end

section
/-! ## The heddle's steps (R253 to R263) -/

namespace Sys2Proof.Machine

variable {s : State} {w core : Nat}

/-- An active weft whose wait still holds leaves its slot (R253). -/
theorem exec_heddlePendingTimeout {x : Wait} (ha : (s.weft w).status = .active) (hx : (s.weft w).wait = some x)
    (hc : s.waitClear (s.weft w) = false) :
    exec (.heddlePendingTimeout w) s =
      .next ((s.setWeft w { s.weft w with status := .pending, slot := none }).admitWefts (s.coreOf (s.weft w))) := by
  change execHeddlePendingTimeout w s = _
  simp only [execHeddlePendingTimeout]
  exact if_pos (by simp only [ha, hx, hc, Option.isSome_some, Bool.and_false, Bool.not_false, Bool.and_true, decide_true])

theorem exec_heddleRotation (hs : (s.core core).stopping = false) (hq : s.admitQueue core ≠ []) :
    exec (.heddleRotation core) s = .next (s.rotate core) := by
  change execHeddleRotation core s = _
  simp only [execHeddleRotation, hs, List.isEmpty_eq_false_iff.mpr hq, Bool.or_self, Bool.false_eq_true, if_false]

/-! ### Lease windows (R258) -/

/-- A weft as its window ends. -/
def Weft.windowEnd (x : Weft) : Weft :=
  { (if x.leaseDecl = 0 then x.leaseStep x.misses else x) with issued := x.issued - leaseWindow, misses := 0 }

theorem exec_leaseWindow (he : (s.weft w).status ≠ .ended) (hi : leaseWindow ≤ (s.weft w).issued) :
    exec (.leaseWindow w (s.weft w).misses) s = .next (s.setWeft w (s.weft w).windowEnd) := by
  change execLeaseWindow w _ s = _
  exact if_neg (by simp [he, hi])

section Lease

variable {x : Weft}

/-- A window moves the measured lease and its count of low windows, and begins the next; all else stands. -/
theorem windowEnd_frame : { x.windowEnd with measured := 0, lowWindows := 0, issued := 0, misses := 0 } =
    { x with measured := 0, lowWindows := 0, issued := 0, misses := 0 } := by
  unfold Weft.windowEnd Weft.leaseStep
  split_ifs <;> rfl

theorem windowEnd_declared (hd : x.leaseDecl ≠ 0) : x.windowEnd.measured = x.measured ∧ x.windowEnd.lowWindows = x.lowWindows := by
  simp only [Weft.windowEnd, hd, if_false, and_self]

variable (hd : x.leaseDecl = 0)

include hd

theorem windowEnd_manyMisses (h : 8 ≤ x.misses) :
    x.windowEnd.measured = min (x.measured + 16384) 1048576 ∧ x.windowEnd.lowWindows = 0 := by
  simp only [Weft.windowEnd, Weft.leaseStep, hd, h, if_true, and_self]

theorem windowEnd_someMisses (h8 : x.misses < 8) (h1 : 1 < x.misses) : x.windowEnd.measured = x.measured ∧ x.windowEnd.lowWindows = 0 := by
  simp only [Weft.windowEnd, Weft.leaseStep, hd, Nat.not_le.mpr h8, h1, if_true, if_false, and_self]

variable (h : x.misses ≤ 1)

include h

theorem windowEnd_fourthLow (hl : x.lowWindows = 3) :
    x.windowEnd.measured = max (x.measured - 16384) 16384 ∧ x.windowEnd.lowWindows = 0 := by
  have h8 : ¬ 8 ≤ x.misses := by omega
  simp only [Weft.windowEnd, Weft.leaseStep, hd, h8, Nat.not_lt.mpr h, hl, if_true, if_false, and_self]

theorem windowEnd_low (hl : x.lowWindows ≠ 3) : x.windowEnd.measured = x.measured ∧ x.windowEnd.lowWindows = x.lowWindows + 1 := by
  have h8 : ¬ 8 ≤ x.misses := by omega
  simp only [Weft.windowEnd, Weft.leaseStep, hd, h8, Nat.not_lt.mpr h, hl, if_true, if_false, and_self]

end Lease

/-! ### Switches (R260, R261) -/

theorem exec_fastSwitch {span : Nat} (hsw : (s.core core).switch = .none) (hst : (s.core core).stopping = false)
    (hin : s.incoming core span ≠ []) (hp : s.canPreload core span = true) :
    exec (.fastSwitch core span) s = .next (s.setCore core { ((s.core core).rollbackAll (fun _ => true)) with
      switch := .requested span, shadow := some span, stopping := true }) := by
  change execFastSwitch core span s = _
  simp only [execFastSwitch, hsw, hst, hp, List.isEmpty_eq_false_iff.mpr hin, Bool.not_false, Bool.and_self, decide_true, if_true]

theorem exec_bankSwap {inn : Nat} {s1 s2 : State} (hsw : (s.core core).switch = .requested inn)
    (h1 : s1 = (s.outgoing core inn).foldl (fun (s : State) p => s.boltOff p.1) s)
    (hret : (s.incoming core inn).all (fun p => s1.boltCanReturn p.1) = true)
    (h2 : s2 = (s.incoming core inn).foldl (fun (s : State) p => s.boltOn p.1)
      (s1.setCore core { s1.core core with switch := .spilling (s.leaving core inn), shadow := some (s.leaving core inn),
                                           stopping := false, victims := [] })) :
    exec (.bankSwap core) s = .next ((s2.setSpan inn { s2.span inn with switched := none }).admitWefts core) := by
  subst h1 h2
  change execBankSwap core s = _
  simp only [execBankSwap, hsw, hret, if_true]

theorem exec_spillComplete {out : Nat} (hsw : (s.core core).switch = .spilling out) :
    exec (.spillComplete core) s = .next (s.setCore core { s.core core with switch := .none, shadow := none }) := by
  change execSpillComplete core s = _
  simp only [execSpillComplete, hsw]

theorem exec_slowSwitch {out inn : Nat} {s1 : State} (h1 : s1 = (if out = inn then s else s.spanOff out)) (hoff : s.spanIsOff inn = true)
    (hout : s.switchFree out = true) (hinn : s.switchFree inn = true) (hret : s1.spanCanReturn inn = true) :
    exec (.slowSwitch out inn) s = .next ((s1.spanOn inn).setSpan inn { (s1.spanOn inn).span inn with switched := none }) := by
  subst h1
  change execSlowSwitch out inn s = _
  simp only [execSlowSwitch, hoff, hout, hinn, hret, Bool.and_self, if_true]

/-! ### A bolt's return and a rebuild (R262, R263) -/

theorem exec_boltReload {b : Nat} (hsw : (s.bolt b).swapped = true) (hrep : s.faultsReported b = true) :
    ∃ s1 hs s2, s1 = s.setBolt b { s.bolt b with swapped := false } ∧ hs = sortBy (fun h => (s1.weft h).id) (s1.weftsOf b) ∧
      s2 = hs.foldl (fun (s : State) h => s.refetch h) s1 ∧
      exec (.boltReload b) s = .next (if (s.bolt b).out then s2
        else (hs.foldl (fun (s : State) h => if (s.weft h).status = .swapped then s.ready h else s) s2).admitWefts (s.bolt b).core) := by
  refine ⟨_, _, _, rfl, rfl, rfl, ?_⟩
  change execBoltReload b s = _
  simp only [execBoltReload, hsw, hrep, Bool.not_true, Bool.or_self, Bool.false_eq_true, if_false]
  exact (apply_ite Host.Outcome.next ..).symm

theorem exec_heddleRebuild (s : State) (cluster : Nat) : ∃ cores s0 s1, cores = s.clusterCores cluster ∧
    s0 = cores.foldl (fun (s : State) n => s.setCore n { s.core n with victims := [] }) s ∧
    s1 = cores.foldl (fun (s : State) n => (s.queued n).foldl (fun (s : State) h => s.ready h) s) s0 ∧
    exec (.heddleRebuild cluster) s = .next (cores.foldl (fun (s : State) n => s.admitWefts n) (s1.event 5 1 cluster)) :=
  ⟨_, _, _, rfl, rfl, rfl, rfl⟩

/-- Settles O27: each step of the heddle makes the change that its rule names, once the rule's conditions hold. That a rebuild queues
the wefts of several courses by course first is the model's choice (log 141). -/
theorem heddleStepsComplete : Obligations.HeddleStepsComplete := by
  refine ⟨fun _ _ _ => exec_heddlePendingTimeout, fun _ _ => exec_heddleRotation, ?lease, fun _ _ _ => exec_fastSwitch,
    fun _ _ _ _ _ => exec_bankSwap, fun _ _ _ => exec_spillComplete, fun _ _ _ _ => exec_slowSwitch, fun _ _ => exec_boltReload,
    exec_heddleRebuild⟩
  case lease =>
    intro s w he hi
    refine ⟨_, exec_leaseWindow he hi, ?_⟩
    rw [State.weft_setWeft_same]
    exact ⟨windowEnd_frame, rfl, rfl, windowEnd_declared, windowEnd_manyMisses, windowEnd_someMisses, windowEnd_fourthLow, windowEnd_low⟩

end Sys2Proof.Machine
end

section
/-! ## Matrix instructions: from a body to its completion (R296, R299) -/

namespace Sys2Proof.Machine

section Body

variable {i : Instr} {p : Bool} {F : Form} {len : Nat} {body : Nat → State → Weft → Mask → Eff} {rel : State → Weft → Mask → State → Prop}
  (hb : ∀ s sel u, rel s s.me sel u → body s.cur s s.me sel = .done u)

include hb

/-- What a matrix command's body gives for the conditions of an effect, its instruction completes with, once no failure of earlier
work is to be raised. -/
theorem Effects.of_matNow (hi : ∀ s, exec i s = runAt p s len (fun s h => matNow F (body h) s h)) :
    Effects Commands i (matForm F) len rel := by
  intro s sel
  rw [hi]
  exact ⟨fun h u hu => now_done rfl h (hb s sel u hu), now_skip rfl⟩

/-- The same for a matrix instruction that gives the array an access to memory, or synchronises. -/
theorem Effects.of_matOp (hi : ∀ s, exec i s = runAt p s len (fun s h => matOp F (body h) s h)) :
    Effects Multiplies i (matForm F) len rel := by
  intro s sel
  rw [hi]
  exact ⟨fun h u hu => mat_done rfl h (hb s sel u hu), mat_skip rfl⟩

end Body

end Sys2Proof.Machine
end

section
/-! ## Slots, layout words, tile loads, scale and sparsity layouts (R284, R287 to R289, R294, R295) -/

namespace Sys2Proof.Machine

theorem fits32_iff {x : Int} : fits32 x = true ↔ -2 ^ 31 ≤ x ∧ x < 2 ^ 31 := by
  simp only [fits32, Bool.and_eq_true, decide_eq_true_iff]

/-- Sources in range pass LAYOUT's one check (R288). -/
theorem LayoutFits.unrefused {w : Weft} {o : LayoutArgs} (h : LayoutFits w o) :
    ¬ (w.int 64 false o.off 0 < 0 || 2 ^ 20 ≤ w.int 64 false o.off 0 || w.int 64 false o.bolt 0 < 0 || 256 ≤ w.int 64 false o.bolt 0 ||
      !fits32 (w.int 64 false o.st0 0) || !fits32 (w.int 64 false o.st1 0) || !fits32 (w.int 64 false o.st2 0)) = true := by
  obtain ⟨hoff, hbolt, hst⟩ := h
  have hfits : ∀ a ∈ [o.st0, o.st1, o.st2], fits32 (w.int 64 false a 0) = true := fun a ha => fits32_iff.mpr (hst a ha)
  simp only [List.forall_mem_cons, List.not_mem_nil, false_implies, implies_true, and_true] at hfits
  obtain ⟨h0, h1, h2⟩ := hfits
  simp only [h0, h1, h2, Bool.not_true, Bool.or_false, Bool.or_eq_true, decide_eq_true_iff]
  omega

/-- A tile and its scale bytes that fit the scratchpad pass MLOAD's check of them (R289). -/
theorem TileFits.unrefused {x : Dword × Dword × Dword} {f : MFmt} {sc : Option Int} {len : Int} : TileFits x f sc len →
    ¬ ((layAll x f).any (fun e => e < 0 || len < e + f.elemBytes) ||
      (match sc with | some q => (q < 0 || len < q + 512 : Bool) | none => false)) = true := by
  rintro ⟨htile, hscale⟩
  refine Bool.eq_false_iff.mp (Bool.or_eq_false_iff.mpr ⟨List.any_eq_false.mpr fun e he => ?_, ?_⟩)
  · have := htile e he
    simp only [Bool.or_eq_true, decide_eq_true_iff]
    omega
  · cases sc with
    | none => rfl
    | some q =>
      have := hscale q rfl
      simp only [Bool.or_eq_false_iff, decide_eq_false_iff_not]
      omega

/-- Settles O20: each body makes the statement's checks in their order, and then its effect. -/
theorem matrixOperandInstructionsComplete : Obligations.MatrixOperandInstructionsComplete := by
  refine ⟨fun o => .of_matNow ?claim fun _ => rfl, fun o => .of_matNow ?release fun _ => rfl,
    fun o => .of_body (fun s => by change execLayout o s = _; unfold execLayout layoutOp; rfl) ?layout,
    fun o => .of_matOp ?load fun _ => rfl, fun o => .of_matNow ?scale fun _ => rfl, fun o => .of_matNow ?sparse fun _ => rfl⟩
  case claim =>
    rintro s sel u rfl
    exact (apply_ite Eff.done ..).symm
  case release =>
    rintro s sel u ⟨howned, rfl⟩
    simp only [List.all_eq_true.mpr howned, Bool.not_true, Bool.false_eq_true, if_false]
  case layout =>
    rintro s w sel u ⟨hfits, rfl⟩
    exact if_neg (LayoutFits.unrefused hfits)
  case load =>
    rintro s sel u ⟨f, b, hfmt, hesz, hslot, hbolt, hfits, rfl⟩
    simp only [hfmt, hesz, hslot, hbolt, Bool.not_true, Bool.false_eq_true, ne_eq, not_true_eq_false, if_false]
    exact if_neg (TileFits.unrefused hfits)
  case scale =>
    rintro s sel u ⟨l, rfl, rfl⟩
    rfl
  case sparse =>
    rintro s sel u ⟨hslot, l, rfl, rfl⟩
    simp only [hslot, Bool.not_true, Bool.false_eq_true, if_false]

end Sys2Proof.Machine
end

section
/-! ## Multiplies, loops, fences, commits and waits (R297, R298) -/

namespace Sys2Proof.Machine

/-- An MMA or an MLOOP whose checks pass enters the sequencer, or finds it full (R297). -/
theorem newEntry_of_entered {s u : State} {d : Reg} {e : SeqEntry} {chain : Bool} (h : Entered s d e chain u) :
    s.newEntry s.cur s.me d e chain = .done u := by
  unfold Entered at h
  unfold State.newEntry
  by_cases hfull : 8 ≤ s.entriesUsed (s.coreOf s.me)
  · rw [if_pos hfull] at h ⊢
    obtain ⟨hd, rfl⟩ := h
    exact if_neg hd
  · rw [if_neg hfull] at h ⊢
    exact congrArg Eff.done h.symm

/-- Settles O21: a multiply and a loop pass R297's checks and then extend a chain or enter the sequencer; a wait whose number is the open
batch's closes it first. -/
theorem matrixWorkInstructionsComplete : Obligations.MatrixWorkInstructionsComplete := by
  refine ⟨fun o => .of_matOp ?mma fun _ => rfl, fun o => .of_matOp ?loop fun _ => rfl, fun o => .of_matNow ?fence fun _ => rfl,
    fun o => .of_matNow ?commit fun _ => rfl, fun o => .of_matOp ?wait fun _ => rfl⟩
  case mma =>
    rintro s sel u ⟨hchecks, hu⟩
    simp only [hchecks]
    cases hchain : s.sameChain s.cur (s.mmaIssue s.cur o s.me).e with
    | none =>
      simp only [hchain] at hu
      exact newEntry_of_entered hu
    | some c =>
      simp only [hchain] at hu
      exact congrArg Eff.done hu.symm
  case loop =>
    rintro s sel u ⟨hchecks, hu⟩
    simp only [hchecks]
    exact newEntry_of_entered hu
  case fence =>
    rintro s sel u rfl
    rfl
  case commit =>
    rintro s sel u rfl
    rfl
  case wait =>
    rintro s sel u ⟨n, s1, rfl, hpast, rfl, hdone, rfl⟩
    exact (if_neg (Nat.not_le.mpr hpast)).trans (if_pos hdone)

end Sys2Proof.Machine
end

section
/-! ## Copy instructions (R264, R268, R271, R279 to R281) -/

namespace Sys2Proof.Machine

variable {s u : State} {w : Weft} {sel : Mask}

/-- A descriptor that is readable and passes its checks is opened (R264, R268, R271). -/
theorem openSlice_of_opens {o : CpysliceArgs} {off : Nat} (h : Opens o off s w sel u) :
    s.openSlice s.cur w sel off (w.int 64 true o.lo 0).toNat (w.int 64 true o.cnt 0).toNat o.d = .done u := by
  obtain ⟨hacquired, hguard, hreads, hchecks, hopened⟩ := h
  simp only [State.openSlice, hacquired, hguard, hreads, hchecks, Bool.false_eq_true, if_false]
  cases hfree : (s.spaceSplit (.sp w.bolt) off 128).noRecord w.bolt with
  | some x =>
    simp only [hfree] at hopened
    exact congrArg Eff.done hopened.symm
  | none =>
    simp only [hfree] at hopened
    obtain ⟨hpart, hslice, hd, s1, hopen, rfl⟩ := hopened
    simp only [List.contains_iff_mem.mpr hpart, Nat.not_lt.mpr hslice, hopen, Bool.not_true, Bool.false_eq_true, if_false]
    exact (apply_ite Eff.done ..).symm

/-- The words of a register copy that lie within the allocation pass R279's check of them. -/
theorem find_outside_eq_none {l : List Int} {len : Int} (h : ∀ x ∈ l, 0 ≤ x ∧ x + 8 ≤ len) :
    l.find? (fun x => x < 0 || decide (len < x + 8)) = none :=
  List.find?_eq_none.mpr fun x hx => by
    have := h x hx
    simp only [Bool.or_eq_true, decide_eq_true_iff]
    omega

/-- CPYREG in either direction makes the checks of R279 and then starts its copy. -/
theorem Effects.of_cpyreg {i : Instr} {p : Bool} {g : Guard} {ld : Bool} {r : Opnd} {off bar : Src} {cnt : Nat} {barv : Bool}
    (hi : ∀ s, exec i s = runAt p s 16 (cpyregOp g ld r off bar cnt barv)) :
    Effects Accesses i (.plain g (if ld
        then [opS 2 [.s, .z] tInt off, opS 3 (if barv then [.s, .z] else [.z]) (if barv then tInt else none) bar, { r with cnt := cnt }]
        else [{ r with cnt := cnt }, opS 2 [.s, .z] tInt off, opS 3 (if barv then [.s, .z] else [.z]) (if barv then tInt else none) bar]))
      16 (RegisterCopy ld r.reg off bar cnt barv) := by
  refine .of_access hi ?_
  rintro s w sel u ⟨f, hf, hinside, hbar, hroom, hu⟩
  have hnonneg : ¬ (f : Int) < 0 := by omega
  simp only [find_outside_eq_none hinside, hf, hnonneg, Int.toNat_natCast, if_false, hroom, Option.isSome_none, Bool.false_eq_true]
  cases barv with
  | true =>
    simp only [hbar rfl, if_true]
    exact congrArg Eff.done hu.symm
  | false => exact congrArg Eff.done hu.symm

/-- Settles O19: CPYSLICE finds an open copy of the descriptor to join, or opens one; CPYREG makes the checks of R279 and starts its copy.
That the opening form waits for the acquires of its threads (log 144) is the model's choice. -/
theorem copyInstructionsComplete : Obligations.CopyInstructionsComplete := by
  refine ⟨fun o => .of_body (fun _ => rfl) ?slice, fun o => .of_cpyreg (ld := true) (r := opD [.v] o.d) fun _ => rfl,
    fun o => .of_cpyreg (ld := false) (r := opS 1 [.v] none o.a) fun _ => rfl, fun o => .of_body (fun _ => rfl) ?stat,
    fun o => .of_body (fun _ => rfl) ?cancel⟩
  case slice =>
    rintro s w sel u ⟨off, hoff, haligned, hfits, hu⟩
    have hinside : ¬ ((off : Int) < 0 || ((s.boltOf w).scratch : Int) < off + 128) = true := by
      simp only [Bool.or_eq_true, decide_eq_true_iff]
      omega
    have haligned' : ¬ (off : Int) % 128 ≠ 0 := by omega
    simp only [hoff, haligned', hinside, Int.toNat_natCast, if_false]
    cases hopen : (s.boltOf w).copies.find? (fun p => p.2.st = .opened && p.2.off = off) with
    | none =>
      simp only [hopen] at hu
      exact openSlice_of_opens hu
    | some p =>
      simp only [hopen] at hu
      by_cases hjoined : p.2.contrib.any (fun q => q.1 = s.cur) = true
      · rw [if_pos hjoined] at hu
        exact (if_pos hjoined).trans (congrArg Eff.done hu.symm)
      · rw [if_neg hjoined] at hu
        obtain ⟨hpart, hslice, rfl⟩ := hu
        simp only [hjoined, List.contains_iff_mem.mpr hpart, Nat.not_lt.mpr hslice, Bool.not_true, Bool.false_eq_true, if_false]
        rfl
  case stat =>
    rintro s w sel u rfl
    rfl
  case cancel =>
    rintro s w sel u rfl
    rfl

end Sys2Proof.Machine
end

section
/-! ## The steps of a copy (R267, R273 to R275, R320) -/

namespace Sys2Proof.Machine

/-! ### A copy whose barrier has left LIVE -/

/-- A running copy whose barrier has left LIVE ends with the code at once: no page that an image brought is given a frame first. -/
theorem exec_copyElementLand_of_barrier {s : State} {b h : Nat} {c : Copy} {code : Nat} (frames : List Nat)
    (hfind : Store.find (s.bolt b).copies h = some c) (hrun : c.st = .running) (hheld : c.held = none) (href : c.refused = false)
    (hcode : s.copyBarCode b c = some code) :
    exec (.copyElementLand b h frames) s = .next (s.failCopy b h code).wake := by
  change execCopyElementLand b h frames s = _
  simp only [execCopyElementLand, hfind, hrun, hheld, href, hcode, ne_eq, not_true_eq_false, decide_false, Option.isSome_none, Bool.or_self,
    Bool.false_eq_true, if_false]

theorem Fabbed.mem {s t : State} (h : Fabbed s t) : t.mem = s.mem := by
  obtain ⟨_, _, _, _, _, _, _, _, _, rfl⟩ := h
  rfl

@[simp] theorem State.mapCopy_mem (s : State) (b h : Nat) (f : Copy → Copy) : (s.mapCopy b h f).mem = s.mem := rfl

/-- What a copy wrote of lines in part raises events and nothing else. -/
theorem State.endGather_mem (s : State) (b h : Nat) : (s.endGather b h).mem = s.mem := by
  unfold State.endGather
  split
  · rfl
  · exact (Fabbed.foldl _ (fun _ _ _ hu => hu.lineEvent _ _ _) _ (Fabbed.refl s)).mem

/-- The end with code 4 leaves memory, for the barrier that is gone takes no error. -/
theorem State.endCopy_barrierGone_mem (s : State) (b h : Nat) : (s.endCopy b h 4).mem = s.mem := by
  unfold State.endCopy
  split
  · rfl
  · split
    · rfl
    · simp only [Bool.and_false, Bool.false_and, Bool.false_eq_true, if_false, ne_eq, not_true_eq_false, decide_false]
      split
      · split_ifs <;> rfl
      · rfl

theorem State.failCopy_barrierGone_mem (s : State) (b h : Nat) : (s.failCopy b h 4).mem = s.mem :=
  (State.endCopy_barrierGone_mem _ b h).trans (s.endGather_mem b h)

/-! ### The pages that an image brought -/

/-- The frame given to a page of a shadow begins with the first byte that an image brought of the page (R320). -/
theorem shadowPage_byte {s : State} {b h page old frame : Nat} {c : Copy} {l : List Byte} {x : Byte}
    (hfind : Store.find (s.bolt b).copies h = some c) (hsaved : c.saved.find? (fun p => p.1 = page) = some (page, x :: l)) :
    Store.get 0 (s.shadowPage b h page old frame).mem (frame * granule) = x := by
  simp only [State.shadowPage, hfind, Option.map_some, Option.getD_some, hsaved, State.mapCopy_mem]
  generalize frame * granule = a
  exact Store.get_putBytes_in _ (x :: l) a 0 (Nat.succ_pos _)

/-! ### A copy that ends otherwise than the statement says -/

/-- A running copy whose barrier is gone, with a page that an image brought and that has no frame yet. -/
def imageCopy : Copy :=
  { State.reset.newCopy 0 0 [0, 0, 0, 2 ^ 20] with st := .running, barGone := true, saved := [(loadVa / granule, [1])] }

/-- The state in which it runs. -/
def barrierGone : State := State.reset.loaded.setBolt 0 { State.reset.loaded.bolt 0 with copies := [(1, imageCopy)] }

/-- The leaf of that page. -/
theorem barrierGone_walk : barrierGone.walk (barrierGone.boltAsid 0) (loadVa / granule * granule) =
    .leaf 0 (0x28000 + 8 * walkIndex loadVa 0) (0x8000 + 0x57) := by decide +kernel

/-- With frame 6 offered, the page would be adopted there. -/
theorem barrierGone_adopts :
    barrierGone.adoptSaved 0 1 imageCopy.saved [6] = (barrierGone.shadowPage 0 1 (loadVa / granule) 1 6, true, []) := by
  have hframe : barrierGone.canTake 6 = true := by decide +kernel
  have htake : barrierGone.takeShadow 0 1 (loadVa / granule * granule) 1 [6] =
      some (barrierGone.shadowPage 0 1 (loadVa / granule) 1 6, 6, []) := by
    simp only [State.takeShadow, State.splitFor, barrierGone_walk, hframe, if_true, Nat.mul_div_cancel _ (show 0 < granule by decide)]
  simp only [show imageCopy.saved = [(loadVa / granule, [1])] from rfl, State.adoptSaved, barrierGone_walk]
  simp only [show leafPa 0 (0x8000 + 0x57) (loadVa / granule * granule) / granule = 1 by decide, htake]

/-- Refutes O28: the statement ends a copy whose barrier has left LIVE in the state in which the pages of its image have taken
frames, while the model ends it in the state it finds. In `barrierGone`, with frame 6 offered, memory is left as it was, where the statement
has the page's byte in the frame. -/
theorem not_copyStepsComplete : ¬ Obligations.CopyStepsComplete := by
  rintro ⟨-, -, hland⟩
  have hfind : Store.find (barrierGone.bolt 0).copies 1 = some imageCopy := by decide +kernel
  have hcode : barrierGone.copyBarCode 0 imageCopy = some 4 := by decide +kernel
  obtain ⟨-, hends, -⟩ := hland barrierGone 0 1 imageCopy [6] hfind rfl rfl
  have hsame := (exec_copyElementLand_of_barrier [6] hfind rfl rfl rfl hcode).symm.trans (hends 4 rfl hcode)
  rw [barrierGone_adopts] at hsame
  have hmem := congrArg State.mem (Host.Outcome.next.inj hsame)
  rw [(Heddled.wake _).mem, (Heddled.wake _).mem, State.failCopy_barrierGone_mem, State.failCopy_barrierGone_mem] at hmem
  have hbyte : Store.get 0 (barrierGone.shadowPage 0 1 (loadVa / granule) 1 6).mem (6 * granule) = (1 : Byte) :=
    shadowPage_byte hfind rfl
  rw [← hmem] at hbyte
  exact absurd hbyte (by decide +kernel)

end Sys2Proof.Machine
end

section
/-! ## The steps of the array (R289 to R291, R298, R313 to R316) -/

namespace Sys2Proof.Machine

variable {s : State} {core id : Nat} {e : SeqEntry}

/-! ### MLOAD_COMPLETE (R289) -/

section Load

variable {k b : Nat} {x : Dword × Dword × Dword} {tag : BitVec 6} {sc : Option Nat} {f : MFmt}
  (hentry : s.seqEntry core id = some e) (hkind : e.kind = .mload k x tag sc) (hfmt : MFmt.ofTag tag = some f)
  (hbolt : s.boltIn (s.boltOf (s.weft e.weft)).course (layBolt x) = some b) (hruns : s.itemRuns e = true) (hpins : (s.slotAt core k).pins = 0)
  (hslot : s.slotBusyBefore e.weft id k = false) (hearlier : s.performedBefore e.weft id = true)

include hentry hkind hfmt hbolt hruns hpins hslot hearlier

/-- A tile that reads is loaded whole into its slot, which its weft still owns. -/
theorem exec_mloadComplete_of_tile {l : List (Nat × Byte)} {s1 : State} (htile : s.tileBytes b x f sc = .inl l)
    (hsplit : s1 = s.spaceSplits (.sp b) (tileRanges x f sc)) (howns : s1.ownsSlot e.weft k = true) :
    exec (.mloadComplete core id) s =
      .next ((s1.setCore core { s1.core core with slots := Store.modify (s1.core core).slots k (fun y => y.loaded tag f l) }).removeItem
        core id).wake := by
  subst hsplit
  change execMloadComplete core id s = _
  simp only [execMloadComplete, hentry, hkind, hfmt, hbolt, hruns, hpins, hslot, hearlier, htile, howns, Bool.not_true, ne_eq, not_true_eq_false,
    decide_false, Bool.or_self, Bool.false_eq_true, if_false, if_true]

/-- A tile that does not read ends its batch with the cause (R299). -/
theorem exec_mloadComplete_of_cause {cause : BitVec 8} {a : ErrAt} (htile : s.tileBytes b x f sc = .inr (cause, a)) :
    exec (.mloadComplete core id) s = .next ((s.arrayAbort e.weft cause a).failBatch e.weft e.batch cause e.place 0).wake := by
  change execMloadComplete core id s = _
  simp only [execMloadComplete, hentry, hkind, hfmt, hbolt, hruns, hpins, hslot, hearlier, htile, Bool.not_true, ne_eq, not_true_eq_false,
    decide_false, Bool.or_self, Bool.false_eq_true, if_false]

end Load

/-! ### MATRIX_STEP (R290, R291) -/

/-- A commit that is due is made. -/
theorem exec_matrixStep_of_due (hentry : s.seqEntry core id = some e) (hdue : s.commitReady id e = true) :
    exec (.matrixStep core id) s = .next (s.commitEntry core id e).wake := by
  change execMatrixStep core id s = _
  simp only [execMatrixStep, hentry, hdue, if_true]

section Run

variable {x : MStep} (hentry : s.seqEntry core id = some e) (hdue : s.commitReady id e = false) (hstep : e.step id e.next = some x)
  (hready : s.stepReady id e = true)
  (holder : ∀ p ∈ (s.core core).seqr, p.1 < id → p.2.kind.isEntry = true → s.stepReady p.1 p.2 = false)

include holder

/-- No older entry's next step is ready, as MATRIX_STEP asks it of the sequencer. -/
theorem olderReady_eq_false :
    ((s.core core).seqr.filter (fun p => p.1 < id)).any (fun p => p.2.kind.isEntry && s.stepReady p.1 p.2) = false := by
  refine List.any_eq_false.mpr fun p hp hboth => ?_
  obtain ⟨hmem, hlt⟩ := List.mem_filter.mp hp
  obtain ⟨hentry, hready⟩ := (Bool.and_eq_true _ _).mp hboth
  exact Bool.false_ne_true ((holder p hmem (of_decide_eq_true hlt) hentry).symm.trans hready)

include hentry hdue hstep hready

/-- The array runs the step, and commits at once what it made due. -/
theorem exec_matrixStep_of_step {f : SeqEntry} (hleft : (s.runStep core id e x).seqEntry core id = some f) :
    exec (.matrixStep core id) s =
      .next (if (s.runStep core id e x).commitReady id f then (s.runStep core id e x).commitEntry core id f else s.runStep core id e x).wake := by
  change execMatrixStep core id s = _
  simp only [execMatrixStep, hentry, hdue, hstep, hready, olderReady_eq_false holder, hleft, Bool.not_false, Bool.and_self, Bool.false_eq_true,
    if_false, if_true]

/-- The array runs a step that ends its entry. -/
theorem exec_matrixStep_of_lastStep (hgone : (s.runStep core id e x).seqEntry core id = none) :
    exec (.matrixStep core id) s = .next (s.runStep core id e x).wake := by
  change execMatrixStep core id s = _
  simp only [execMatrixStep, hentry, hdue, hstep, hready, olderReady_eq_false holder, hgone, Bool.not_false, Bool.and_self, Bool.false_eq_true,
    if_false, if_true]

end Run

/-! ### CONTRIBUTION_ARRIVAL (R313 to R316) -/

section Arrival

variable {n : Nat} {c : Contribution} (hc : s.contribs[n]? = some c) (hstalled : c.stalled = false) (hpart : c.part < hbmSize)
  (hfirst : ∀ x ∈ s.contribs.take n, ¬(x.weft = c.weft ∧ x.part = c.part))

include hstalled hpart hfirst

/-- The first contribution of its weft to its part, on its way to a part in HBM, passes what CONTRIBUTION_ARRIVAL asks of it. -/
theorem arrives_of_first :
    ¬ (c.stalled || hbmSize ≤ c.part || (s.contribs.take n).any (fun x => x.weft = c.weft && x.part = c.part)) = true := by
  have hnone : (s.contribs.take n).any (fun x => x.weft = c.weft && x.part = c.part) = false :=
    List.any_eq_false.mpr fun x hx => by simpa using hfirst x hx
  simp only [hstalled, decide_eq_false (Nat.not_le.mpr hpart), hnone, Bool.or_self, Bool.false_eq_true, not_false_eq_true]

include hc

/-- It reaches its slice where the slice takes it. -/
theorem exec_contributionArrival_of_room (hroom : s.accStalls c = false) :
    ∃ s1, s1 = ({ s with contribs := s.contribs.eraseIdx n } : State).arriveContribution c ∧
      exec (.contributionArrival n) s = .next (s1.retryStalled s1.contribs.length).wake := by
  refine ⟨_, rfl, ?_⟩
  change execContributionArrival n s = _
  simp only [execContributionArrival, hc, hroom, Bool.false_eq_true, if_false]
  exact if_neg (arrives_of_first hstalled hpart hfirst)

/-- It stalls where the slice's area is full (R316). -/
theorem exec_contributionArrival_of_full (hfull : s.accStalls c = true) :
    exec (.contributionArrival n) s = .next { s with contribs := s.contribs.set n { c with stalled := true } } := by
  change execContributionArrival n s = _
  simp only [execContributionArrival, hc, hfull, if_true]
  exact if_neg (arrives_of_first hstalled hpart hfirst)

end Arrival

/-! ### BATCH_COMPLETE (R298) -/

theorem exec_batchComplete {w n : Nat} {b : Batch} (hb : (s.weft w).batch n = some b) (hclosed : b.closed = true) (hleft : b.left = 0)
    (hopen : b.complete = false) :
    ∃ s1, s1 = s.mapWeft w (fun x => x.mapBatch n (fun b => { b with complete := true })) ∧
      exec (.batchComplete w n) s = .next (s1.mapWeft w (fun x => { x with batches := x.batches.filter (fun b =>
        !(b.complete && 16 < (x.nextBatch + 2 ^ 32 - b.num) % 2 ^ 32)) })).wake := by
  refine ⟨_, rfl, ?_⟩
  change execBatchComplete w n s = _
  simp only [execBatchComplete, hb, hclosed, hleft, hopen, decide_true, Bool.not_false, Bool.and_self, if_true]

/-- Settles O29: each step of the array makes the change that its rule names, once the rule's conditions hold. -/
theorem arrayStepsComplete : Obligations.ArrayStepsComplete := by
  refine ⟨?load, fun _ _ _ _ => exec_matrixStep_of_due, ?step, fun _ _ _ => exec_contributionArrival_of_room,
    fun _ _ _ => exec_contributionArrival_of_full, fun _ _ _ _ => exec_batchComplete⟩
  case load =>
    intro s core id e k x tag sc f b hentry hkind hfmt hbolt hruns hpins hslot hearlier
    exact ⟨fun _ _ => exec_mloadComplete_of_tile hentry hkind hfmt hbolt hruns hpins hslot hearlier,
      fun _ _ => exec_mloadComplete_of_cause hentry hkind hfmt hbolt hruns hpins hslot hearlier⟩
  case step =>
    rintro s core id e x s1 hentry hdue hstep hready holder rfl
    exact ⟨fun _ => exec_matrixStep_of_step hentry hdue hstep hready holder,
      exec_matrixStep_of_lastStep hentry hdue hstep hready holder⟩

end Sys2Proof.Machine
end

section
/-! ## Writes at their home (R308, R310) -/

namespace Sys2Proof

/-- Bytes are written in their order, so the first `k` may be written first and the rest after them. -/
theorem Store.putBytes_take_drop (m : Store Byte) (pa : Nat) {l : List Byte} {k : Nat} (h : k ≤ l.length) :
    Store.putBytes (Store.putBytes m pa (l.take k)) (pa + k) (l.drop k) = Store.putBytes m pa l := by
  induction k generalizing m pa l with
  | zero => rfl
  | succ k ih =>
    cases l with
    | nil => exact absurd h (Nat.not_succ_le_zero k)
    | cons x l =>
      rw [show pa + (k + 1) = pa + 1 + k by omega]
      exact ih (Store.put 0 m pa x) (pa + 1) (Nat.le_of_succ_le_succ h)

end Sys2Proof

namespace Sys2Proof.Machine

theorem mem_linesOf {pa n line : Nat} : line ∈ linesOf pa n ↔ pa / 64 ≤ line ∧ line ≤ (pa + n - 1) / 64 := by
  simp only [linesOf, List.mem_map, List.mem_range]
  constructor
  · rintro ⟨i, hi, rfl⟩
    omega
  · rintro ⟨hlo, hhi⟩
    exact ⟨line - pa / 64, by omega, by omega⟩

/-- A part of a calm range is calm, whatever the memory holds. -/
theorem calm_part {s : State} {pa n qa k : Nat} (hc : Calm s pa n) (hlo : pa ≤ qa) (hhi : qa + k ≤ pa + n) (m : Store Byte) :
    Calm { s with mem := m } qa k := by
  have hlines {line : Nat} (h : line ∈ linesOf qa k) : line ∈ linesOf pa n := by
    rw [mem_linesOf] at h ⊢
    omega
  exact { hc with sound := fun l hl => hc.sound l (hlines hl), clean := fun l hl => hc.clean l (hlines hl) }

@[simp] theorem State.writeLines_nil (s : State) (ends : Bool) (fuel pa : Nat) : s.writeLines ends fuel pa [] = s := by
  cases fuel <;> rfl

theorem State.writeLines_succ (s : State) (ends : Bool) (fuel pa : Nat) {l : List Byte} (hl : l ≠ []) :
    s.writeLines ends (fuel + 1) pa l =
      (s.writeLine pa (l.take (64 - pa % 64)) ends).writeLines ends fuel (pa + (64 - pa % 64)) (l.drop (64 - pa % 64)) := by
  cases l with
  | nil => exact absurd rfl hl
  | cons x l => rfl

/-- With fuel for every line that it touches, a write to a calm range stores its bytes and does nothing else: the first line takes its
part of them, and what follows it is a shorter calm range. -/
theorem writeLines_of_calm {s : State} {pa : Nat} {l : List Byte} (hc : Calm s pa l.length) (ends : Bool) {fuel : Nat}
    (hfuel : pa % 64 + l.length ≤ 64 * fuel) : s.writeLines ends fuel pa l = { s with mem := Store.putBytes s.mem pa l } := by
  induction fuel generalizing s pa l with
  | zero =>
    obtain rfl : l = [] := List.eq_nil_of_length_eq_zero (by omega)
    rfl
  | succ fuel ih =>
    by_cases hl : l = []
    · rw [hl, State.writeLines_nil]
      rfl
    rw [State.writeLines_succ _ _ _ _ hl, writeLine_of_calm hc (List.length_pos_iff.mpr hl)]
    generalize hk : 64 - pa % 64 = k
    by_cases hfits : l.length ≤ k
    · rw [List.take_of_length_le hfits, List.drop_eq_nil_of_le hfits, State.writeLines_nil]
    · have hrest : Calm { s with mem := Store.putBytes s.mem pa (l.take k) } (pa + k) (l.drop k).length :=
        calm_part hc (by omega) (by rw [List.length_drop]; omega) _
      rw [ih hrest (by rw [List.length_drop]; omega)]
      simp only [Store.putBytes_take_drop _ _ (Nat.le_of_not_le hfits)]

/-- A write to a calm range stores its bytes at its home and does nothing else. -/
theorem homeWrite_of_calm {s : State} {pa : Nat} {l : List Byte} (hc : Calm s pa l.length) :
    s.homeWrite pa l = { s with mem := Store.putBytes s.mem pa l } :=
  writeLines_of_calm hc true (by omega)

/-- Settles O51: where nothing waits on the range, the write is one change of memory; what the core and the wake do after a buffered one
leaves memory as it is. -/
theorem writesReachMemory : Obligations.WritesReachMemory := by
  constructor
  case left =>
    intro s pa l _ hc
    rw [homeWrite_of_calm hc]
    exact ⟨Store.get_putBytes_in _ _ _, Store.get_putBytes_out _ _ _, rfl⟩
  case right =>
    intro s core idx e he hp _ hc
    obtain ⟨s1, s2, rfl, rfl, hexec⟩ := exec_homeSliceAccess he hp
    refine ⟨_, hexec, ?_⟩
    rw [(Heddled.wake _).mem, State.setCore_mem, homeWrite_of_calm hc]
    exact ⟨Store.get_putBytes_in _ _ _, Store.get_putBytes_out _ _ _⟩

end Sys2Proof.Machine
end

section
/-! ## Walks, invalidations, code loads and page moves (R352 to R360, R445) -/

namespace Sys2Proof.Machine

variable {s : State}

/-! ### Walks (R352, R353, R355) -/

section Walk

variable {core asid : Nat} {kind : XKind} {u : State}

/-- A leaf without MIG that allows the access is used: A and D are set there, and the walk cache and the TLBs are filled. -/
theorem State.useWalk_of_leaf {va level a e : Nat} (hwalk : s.walkNow asid va = (u, .leaf level a e)) (hmig : e.testBit 55 = false)
    (hallow : leafCheck e kind = none) :
    s.useWalk core asid va kind =
      (((if usedLeaf e kind = e then u else { u with mem := Store.writeNat u.mem a 8 (usedLeaf e kind) }).cacheWalk asid va).tlbFill core
        asid va level (usedLeaf e kind), .ok (leafPa level (usedLeaf e kind) va)) := by
  simp only [State.useWalk, hwalk, hmig, hallow, Bool.false_eq_true, if_false]

/-- A walk that ends without a leaf fills nothing, and an entry that does not read raises its error event. -/
theorem State.useWalk_of_bad {va i : Nat} (hwalk : s.walkNow asid va = (u, .bad i)) :
    s.useWalk core asid va kind =
      (if i = 7 then u.lineEvent 6 asid (u.walkLast va 4 (entryAddr (u.ctx asid).trans.toNat) 3) else u,
        .fault (if kind = .fetch then cFetch else cTranslation) i) := by
  simp only [State.useWalk, hwalk]

/-- A core's walk is the use that it makes of where the walk ends. -/
theorem exec_pageWalkComplete {va : Va} (hcore : core < 2048) :
    exec (.pageWalkComplete core asid va kind) s = .next (s.useWalk core asid va.toNat kind).1 :=
  if_pos hcore

end Walk

/-! ### Table entries (R356, R357) -/

theorem exec_heldWalkRetry {pa : Nat} {entry : Dword} (halign : pa % 8 = 0) (hin : pa + 8 ≤ hbmSize) :
    exec (.heldWalkRetry pa entry) s =
      .next ((((s.homeWrite pa (natLe 8 entry.toNat)).landReady).wefts.map (·.1)).foldl (fun (s : State) h => s.retryHeld h)
        (s.homeWrite pa (natLe 8 entry.toNat)).landReady) := by
  change execHeldWalkRetry pa entry s = _
  simp only [execHeldWalkRetry, halign, hin, decide_true, Bool.and_self, if_true]

/-! ### Words of hub SRAM (R364) -/

/-- Address translation and memory are the same; hub SRAM and what an error event writes may differ. -/
structure HubWritten (s t : State) : Prop where
  tlb : t.tlb = s.tlb
  wcache : t.wcache = s.wcache
  invals : t.invals = s.invals
  mem : t.mem = s.mem

theorem HubWritten.errEvent {u : State} (h : HubWritten s u) (kind consumer asid : Nat) (x : ErrAt) :
    HubWritten s (u.errEvent kind consumer asid x) := by
  unfold State.errEvent
  dsimp only
  split <;> exact ⟨h.tlb, h.wcache, h.invals, h.mem⟩

theorem HubWritten.hubPutByte {u : State} (h : HubWritten s u) (a : Nat) (b : Byte) : HubWritten s (u.hubPutByte a b) := by
  unfold State.hubPutByte
  split
  · exact h.errEvent ..
  · exact ⟨h.tlb, h.wcache, h.invals, h.mem⟩

/-- A dword of hub SRAM is one word, or the bytes of two. -/
theorem HubWritten.hubPut (s : State) (a : Nat) (x : Dword) : HubWritten s (s.hubPut a x) := by
  unfold State.hubPut
  split
  · exact ⟨rfl, rfl, rfl, rfl⟩
  · exact List.foldlRecOn _ _ ⟨rfl, rfl, rfl, rfl⟩ fun _ h p _ => h.hubPutByte (a + p.2) p.1

theorem State.hubPut_of_aligned {a : Nat} (x : Dword) (halign : a % 8 = 0) : s.hubPut a x = s.hubPutWord a x := if_pos halign

/-- A whole word that is written reads as written. -/
theorem State.get_hubPutWord {a : Nat} (x : Dword) (halign : a % 8 = 0) : Store.get 0 (s.hubPutWord a x).hubRegs a = x := by
  rw [State.hubPutWord, Nat.div_mul_cancel (Nat.dvd_of_mod_eq_zero halign)]
  exact Store.get_put_same ..

/-! ### Invalidations (R358, R359) -/

theorem exec_invalidate_of_refused {c : InvCmd} (href : invRefused c = true) : exec (.invalidate c) s = .next (s.hubPut c.done 2) :=
  if_pos href

theorem exec_invalidate_of_room {c : InvCmd} (href : invRefused c = false) (hroom : s.invals.length < 16) :
    exec (.invalidate c) s = .next { s with invals := s.invals ++
      [{ asid := c.asid.toNat, all := c.flags.getLsbD 0, vpn := c.vabase.toNat / granule, n := c.npages, done := c.done }] } := by
  change execInvalidate c s = _
  simp only [execInvalidate, href, maxInvals, Nat.not_le.mpr hroom, Bool.false_eq_true, if_false]

/-- The translations and the walk entries that an invalidation does not match, without the invalidation. -/
def State.invalidated (s : State) (n : Nat) (i : Inval) : State :=
  { s with tlb := s.tlb.filter (fun t => !i.hits t), wcache := s.wcache.filter (fun x => !i.hitsWalk x), invals := s.invals.eraseIdx n }

theorem exec_invalidationComplete {n : Nat} {i : Inval} (hi : s.invals[n]? = some i) (hdue : s.invalDue i = true) :
    exec (.invalidationComplete n) s = .next (((s.invalidated n i).hubPut i.done 0).event 5 2 i.done) := by
  change execInvalidationComplete n s = _
  simp only [execInvalidationComplete, hi, hdue, if_true, State.invalidated]

/-- The status is written past what was invalidated, and its event is numbered next where the status is one whole word. -/
theorem exec_invalidationComplete_effect {n : Nat} {i : Inval} (hi : s.invals[n]? = some i) (hdue : s.invalDue i = true) :
    ∃ t, exec (.invalidationComplete n) s = .next t ∧
      (∀ x ∈ t.tlb, i.hits x = false) ∧ (∀ x ∈ t.wcache, i.hitsWalk x = false) ∧ t.invals = s.invals.eraseIdx n ∧ t.mem = s.mem ∧
      (i.done % 8 = 0 → Store.get 0 t.hubRegs i.done = 0 ∧ t.events = s.events ++ [⟨s.nextSeq, 5, 2, i.done⟩]) := by
  refine ⟨_, exec_invalidationComplete hi hdue, ?_⟩
  obtain ⟨htlb, hwcache, hinvals, hmem⟩ := HubWritten.hubPut (s.invalidated n i) i.done 0
  refine ⟨fun x hx => ?_, fun x hx => ?_, hinvals, hmem, fun halign => ?_⟩
  · rw [State.event_tlb, htlb, State.invalidated] at hx
    simpa using (List.mem_filter.mp hx).2
  · rw [State.event_wcache, hwcache, State.invalidated] at hx
    simpa using (List.mem_filter.mp hx).2
  · rw [State.hubPut_of_aligned _ halign, State.event_hubRegs]
    exact ⟨State.get_hubPutWord _ halign, rfl⟩

/-! ### Code loads (R48 to R50, R445) -/

section Load

variable {x : CodeIn} {l : List Byte} {pages : List (Nat × Nat × Nat)} {ds : List (List (Nat × Nat × Nat) × List Byte)}

/-- The other sections are stored, then the text in its code pages, and the load is recorded. -/
theorem exec_codeRewrite_of_loadable {s0 s1 : State} {n : Nat} (hn : n = x.text.length)
    (hrel : applyRelocs x.textAt.toNat x.text x.relocs = some l)
    (hpages : s.loadPages codeLeaf x.asid (n / granule + 2) x.textAt.toNat n = some pages) (hsec : s.sections x.asid x.others = some ds)
    (helf : elfOk x.elf = true) (htext : ∀ r ∈ x.relocs, textReloc r.typ = true) (hfree : s.codeInUse x.asid x.textAt.toNat n = false)
    (hfrees : ∀ d ∈ x.others, s.codeInUse x.asid d.at_.toNat d.bytes.length = false)
    (h0 : s0 = ds.foldl (fun (s : State) d => s.writePlaces d.1 d.2) s) (h1 : s1 = s0.writePlaces pages (x.hints.foldl applyHint l)) :
    exec (.codeRewrite x) s = .next (s1.setCtx x.asid { s1.ctx x.asid with
      loads := (s1.ctx x.asid).loads.filter (fun y => y.base ≠ x.base) ++
        [⟨x.base, Config.sha3 x.elf, x.textAt.toNat + n - x.base.toNat⟩] }) := by
  subst hn h0 h1
  have htexts : x.relocs.all (fun r => textReloc r.typ) = true := List.all_eq_true.mpr htext
  have hothers : x.others.any (fun d => s.codeInUse x.asid d.at_.toNat d.bytes.length) = false :=
    List.any_eq_false.mpr fun d hd => by simp [hfrees d hd]
  change execCodeRewrite x s = _
  simp only [execCodeRewrite, hrel, hpages, hsec, helf, htexts, hfree, hothers, Bool.or_self, Bool.not_false, Bool.and_self, if_true]

/-- A load error, a file that the loader rejects and a relocation that may not stand against the text change nothing. -/
theorem exec_codeRewrite_of_rejected
    (hbad : applyRelocs x.textAt.toNat x.text x.relocs = none ∨ elfOk x.elf = false ∨ ∃ r ∈ x.relocs, textReloc r.typ = false) :
    exec (.codeRewrite x) s = .next s := by
  change execCodeRewrite x s = _
  unfold execCodeRewrite
  dsimp only
  split
  case h_1 l pages ds hrel hpages hsec =>
    rcases hbad with hnone | helf | ⟨r, hr, htext⟩
    · exact absurd hrel (by simp [hnone])
    · simp [helf]
    · have htexts : x.relocs.all (fun r => textReloc r.typ) = false := List.all_eq_false.mpr ⟨r, hr, by simp [htext]⟩
      simp [htexts]
  case h_2 => rfl

end Load

/-! ### A page's move (R360) -/

theorem exec_migrationCopy {asid new a e : Nat} {va : Va} (hwalk : s.walk asid va.toNat = .leaf 0 a e) (hmig : e.testBit 55 = true)
    (hnew : new < hbmSize / granule) (hother : new ≠ entryAddr e / granule) :
    exec (.migrationCopy asid va new) s = .next ((((s.takePage (entryAddr e / granule) new).dropFrame new).moveAccumulators
      (entryAddr e / granule) new).moveMailboxes (entryAddr e / granule) new) := by
  change execMigrationCopy asid va new s = _
  simp only [execMigrationCopy, hwalk, hmig, hnew, hother, ne_eq, not_false_eq_true, decide_true, Bool.and_self, if_true]

/-- Settles O30: a walk is the use of its end; each other step makes its change once its conditions hold. -/
theorem translationStepsComplete : Obligations.TranslationStepsComplete := by
  refine ⟨?leaf, ?bad, fun _ _ _ => exec_heldWalkRetry, fun _ _ => ⟨exec_invalidate_of_refused, exec_invalidate_of_room⟩,
    fun _ _ _ => exec_invalidationComplete_effect, fun _ _ _ _ _ _ _ _ => exec_codeRewrite_of_loadable,
    fun _ _ => exec_codeRewrite_of_rejected, fun _ _ _ _ _ _ => exec_migrationCopy⟩
  case leaf =>
    intro s core asid va kind u level a e hcore hwalk hmig hallow
    rw [exec_pageWalkComplete hcore, State.useWalk_of_leaf hwalk hmig hallow]
  case bad =>
    intro s core asid va kind u i hcore hwalk
    rw [exec_pageWalkComplete hcore, State.useWalk_of_bad hwalk]

end Sys2Proof.Machine
end

section
/-! ## Errors and their counts (R361 to R367, R370, R458) -/

namespace Sys2Proof.Machine

variable {s : State}

/-! ### PATROL_SCRUB (R362, R364) -/

section Scrub

variable {pa now : Nat}

theorem exec_patrolScrub_of_line (hpa : pa < hbmSize) :
    exec (.patrolScrub pa now) s =
      .next (if (s.advanceTime now).lineBad pa then (s.advanceTime now).lineEvent 0 0 (pa / 64 * 64) else s.advanceTime now) :=
  if_pos hpa

theorem exec_patrolScrub_of_vaultWord {x : ErrAt} (hpa : hbmSize ≤ pa) (hword : (s.advanceTime now).vaultWordAt pa = some x) :
    exec (.patrolScrub pa now) s = .next ((s.advanceTime now).errEvent 1 0 0 x) := by
  change execPatrolScrub pa now s = _
  simp only [execPatrolScrub, Nat.not_lt.mpr hpa, hword, if_false]

theorem exec_patrolScrub_of_noVaultWord (hpa : hbmSize ≤ pa) (hword : (s.advanceTime now).vaultWordAt pa = none) :
    exec (.patrolScrub pa now) s =
      .next (if pa / 8 ∈ (s.advanceTime now).aperBad then (s.advanceTime now).errEvent 1 0 0 (.hub (pa / 8 * 8))
        else s.advanceTime now) := by
  change execPatrolScrub pa now s = _
  simp only [execPatrolScrub, Nat.not_lt.mpr hpa, hword, List.contains_iff_mem, if_false]

end Scrub

/-! ### ERROR_RECORD (R362, R365, R366) -/

/-- The record of an event that waits for it, or of one numbered now, enters the ring, and an error of a unit's own counts for the unit. -/
theorem exec_errorRecord {e : ErrIn} {r : ErrRec} {u v : State}
    (hrec : ((s.advanceTime e.now).errPending e = some r ∧
        u = { s.advanceTime e.now with errWait := (s.advanceTime e.now).errWait.erase r }) ∨
      ((s.advanceTime e.now).errPending e = none ∧ (s.advanceTime e.now).errNow e = (r, u)))
    (hv : v = { u with errRing := u.errRing ++ [errRecord r] }) :
    exec (.errorRecord e) s = .next (if r.kind ≤ 2 ∧ 1 ≤ r.cls ∧ r.cls ≤ 7 then v.countUnit r.cls r.die r.idx (v.atOnce r) else v) := by
  change execErrorRecord e s = _
  rw [apply_ite Host.Outcome.next]
  obtain ⟨hwaits, rfl⟩ | ⟨hnone, hnow⟩ := hrec
  · simp only [execErrorRecord, hwaits, hv, Bool.and_eq_true, decide_eq_true_eq, and_assoc]
  · simp only [execErrorRecord, hnone, hnow, hv, Bool.and_eq_true, decide_eq_true_eq, and_assoc]

/-! ### Faults of harts, stacks and lanes (R364, R370, R458) -/

theorem exec_hubAccessFault {hart now : Nat} {res : HubRes} {write : Bool} (hhart : hart < 16)
    (hlocked : (s.advanceTime now).boot.locked = true) (hreach : mayReach (hartMode hart) res write = false) :
    exec (.hubAccessFault hart res write now) s = .next ((s.advanceTime now).accessFault hart write) := by
  change execHubAccessFault hart res write now s = _
  simp only [execHubAccessFault, Nat.not_le.mpr hhart, hlocked, hreach, decide_false, Bool.not_true, Bool.or_self, Bool.false_eq_true,
    if_false]

/-- A lost stack is listed once, and the device is degraded (R364). -/
def State.lose (s : State) (stack : Nat) : State :=
  ({ s with lostStacks := if s.lostStacks.contains stack then s.lostStacks else s.lostStacks ++ [stack] } : State).degrade

theorem State.mem_lostStacks_lose (s : State) (stack : Nat) : stack ∈ (s.lose stack).lostStacks := by
  change stack ∈ if s.lostStacks.contains stack then s.lostStacks else s.lostStacks ++ [stack]
  split
  case isTrue hlisted => exact List.contains_iff_mem.mp hlisted
  case isFalse => exact List.mem_append_right _ (List.mem_singleton_self stack)

theorem exec_hbmStackLoss {stack : Nat} (hstack : stack < 16) : exec (.hbmStackLoss stack) s = .next (s.lose stack) := if_pos hstack

theorem exec_symbolLockLoss {port lane now : Nat} (hport : port < 12) (hlane : lane < 8) :
    exec (.symbolLockLoss port lane now) s = .next ((s.advanceTime now).countLane port lane) := by
  change execSymbolLockLoss port lane now s = _
  simp only [execSymbolLockLoss, hport, hlane, decide_true, Bool.and_self, if_true]

/-- Settles O31: each step makes its change at the time it brings. Choices of the model, not of the manual: how the numbers of
links, lanes and rows make a unit (log 81), that kinds 0 to 2 count and kind 3 does not (log 82), and that the patrol finds a vault word, or
another word of the core aperture, at an address past HBM (log 86). That a read of a lost stack answers with an abort is not stated. -/
theorem errorStepsComplete : Obligations.ErrorStepsComplete := by
  refine ⟨?scrub, fun _ _ _ _ _ => exec_errorRecord, fun _ _ _ => rfl, fun _ _ _ _ _ => exec_hubAccessFault, ?stack,
    fun _ _ _ _ => exec_symbolLockLoss⟩
  case scrub =>
    rintro s pa now _ rfl
    exact ⟨exec_patrolScrub_of_line, fun _ => exec_patrolScrub_of_vaultWord, exec_patrolScrub_of_noVaultWord⟩
  case stack =>
    intro s stack hstack
    exact ⟨_, exec_hbmStackLoss hstack, s.mem_lostStacks_lose stack, rfl, rfl⟩

end Sys2Proof.Machine
end

section
/-! ## Context commands and the deadlock watchdog (R373 to R377, R386, R495) -/

namespace Sys2Proof.Machine

variable {s : State} {c : CtxCmd}

/-! ### Commands to a parked weft (R375, R376) -/

section Parked

variable {h : Nat} {w : Weft} {r : TrapRec}

theorem parkedNow_of_parked (hp : Parked s c h w r) : w.parkedNow = true := by
  obtain ⟨-, htrec, hst, hpub⟩ := hp
  simp [Weft.parkedNow, htrec, hst, hpub]

/-- A command to a weft that is parked, with its record published, does its own work on it. -/
theorem State.onParked_of_parked (hp : Parked s c h w r) (op : Nat) (f : Nat → Weft → TrapRec → State) :
    s.onParked c op f = .next (f h w r) := by
  obtain ⟨l, hl⟩ := List.head?_eq_some_iff.mp hp.named
  simp only [State.onParked, hl, hp.trapped, parkedNow_of_parked hp, if_true]

theorem exec_resume (hp : Parked s c h w r) : exec (.resume c) s = .next ((s.unpark h r.t.pc).result c 1 0) :=
  State.onParked_of_parked hp ..

theorem exec_redirect (hp : Parked s c h w r) (hv : c.value.toNat < 2 ^ 57) :
    exec (.redirect c) s = .next ((s.unpark h (c.value.truncate 57)).result c 2 0) :=
  (State.onParked_of_parked hp ..).trans (by rw [if_pos hv])

variable {d : Reg}

theorem exec_setreg (hp : Parked s c h w r) (harg : c.arg < 256) (hd : w.cmdReg c.arg = some d) (htag : c.tag.toNat < 64)
    (hvalid : tagValid (c.tag.truncate 6) = true) (hmask : c.mask &&& ~~~w.bits = 0)
    (hfull : ∀ t ∈ cmdThreads d c.mask, w.fullAt d t = true) :
    exec (.setreg c) s =
      .next ((s.setWeft h (w.putAll d ((cmdThreads d c.mask).map (fun t => (t, ⟨c.value, c.tag.truncate 6, true⟩))))).result c 3 0) := by
  have hnone : (cmdThreads d c.mask).any (fun t => !w.fullAt d t) = false := List.any_eq_false.mpr fun t ht => by simp [hfull t ht]
  refine (State.onParked_of_parked hp ..).trans ?_
  simp only [hd, Nat.not_le.mpr harg, Nat.not_le.mpr htag, hvalid, hmask, hnone, decide_false, Bool.not_true, ne_eq, not_true_eq_false,
    Bool.or_self, Bool.false_eq_true, if_false]

theorem exec_getreg (hp : Parked s c h w r) (harg : c.arg < 256) (hd : w.cmdReg c.arg = some d) (hmask : c.mask &&& ~~~w.bits = 0)
    {t : Nat} {l : List Nat} (ht : cmdThreads d c.mask = t :: l) :
    exec (.getreg c) s = .next (s.result c 4 0 (w.cell d t).val (w.cell d t).tag (w.fullAt d t)) := by
  refine (State.onParked_of_parked hp ..).trans ?_
  simp only [hd, Nat.not_le.mpr harg, hmask, ht, decide_false, ne_eq, not_true_eq_false, Bool.or_self, Bool.false_eq_true, if_false]

end Parked

/-! ### Commands to a context (R373, R374, R376, R377, R495) -/

theorem exec_kill_of_live (hst : (s.ctx c.asid).st = .live) : exec (.kill c) s = .next ((s.killCtx c.asid).result c 5 0).wake := by
  change execKill c s = _
  simp only [execKill, hst]

theorem exec_kill_of_ending (hst : (s.ctx c.asid).st = .stopping ∨ (s.ctx c.asid).st = .killed) :
    exec (.kill c) s = .next (s.result c 5 0) := by
  change execKill c s = _
  obtain hst | hst := hst <;> simp only [execKill, hst]

theorem exec_kill_of_free (hst : (s.ctx c.asid).st = .free) : exec (.kill c) s = .next (s.result c 5 4) := by
  change execKill c s = _
  simp only [execKill, hst]

theorem exec_ctxset {x : Ctx} (hasid : c.asid < 4096) (hx : (s.ctx c.asid).cmdSet c.arg c.value s.ltime = some x) :
    exec (.ctxset c) s =
      .next (((s.setCtx c.asid x).journal (if c.arg = 2 then .delegChange c.asid else .ccbWrite c.asid)).result c 6 0) := by
  change execCtxset c s = _
  simp only [execCtxset, Nat.not_le.mpr hasid, hx, if_false]

/-- An answer names nothing but the hold, and some copy or entry of the context is held under its number. -/
theorem exec_engreply (hweft : c.weft = 0) (hbolt : c.bolt = 0) (hcourse : c.course = 0) (htag : c.tag = 0) (hmask : c.mask = 0)
    (harg : c.arg ≤ 1) (hheld : s.copyHeldAs c.asid c.value.toNat = true ∨ s.entryHeldAs c.asid c.value.toNat = true) :
    exec (.engreply c) s = .next (((s.noteExempt c.asid).answerHold c.value.toNat (c.arg = 1)).result c 7 0) := by
  have hfree : (!s.copyHeldAs c.asid c.value.toNat && !s.entryHeldAs c.asid c.value.toNat) = false := by
    obtain hheld | hheld := hheld <;> simp [hheld]
  change execEngreply c s = _
  simp only [execEngreply, hweft, hbolt, hcourse, htag, hmask, Nat.not_lt.mpr harg, hfree, ne_eq, not_true_eq_false, decide_false,
    Bool.or_self, Bool.false_eq_true, if_false]

/-! ### The watchdog (R386) -/

theorem exec_watchdogFire {asid now : Nat} (hdue : (s.advanceTime now).watchdogDue asid = true) :
    exec (.watchdogFire asid now) s = .next (((s.advanceTime now).ctxWefts asid).foldl (fun (s : State) p =>
      s.takePend p.1 (p.2.fault cWatchdog (info := s.watchState p.1) (mask := p.2.live))) ((s.advanceTime now).event 6 0 asid)) :=
  if_pos hdue

/-- Settles O32: a command finds its weft parked, or its context as the statement says, and has its effect. That the watchdog's event
names the context as its argument, with subkind 0, is a choice of the model (log 71). -/
theorem contextCommandsComplete : Obligations.ContextCommandsComplete :=
  ⟨fun _ _ _ _ _ => exec_resume, fun _ _ _ _ _ => exec_redirect, fun _ _ _ _ _ _ => exec_setreg,
    fun _ _ _ _ _ _ _ _ hp harg hd hmask ht => exec_getreg hp harg hd hmask ht,
    fun _ _ => ⟨exec_kill_of_live, exec_kill_of_ending, exec_kill_of_free⟩, fun _ _ _ => exec_ctxset, fun _ _ => exec_engreply,
    fun _ _ _ => exec_watchdogFire⟩

end Sys2Proof.Machine
end

section
/-! ## The supervisor, boot and power (R380 to R382, R422 to R426, R448 to R453) -/

namespace Sys2Proof.Machine

variable {s : State}

/-! ### Reports and minimums of the monitor (R381, R382) -/

theorem exec_attestationReport {nonce r : List Byte} (hlen : nonce.length = 64) (hruns : s.monitorRuns = true)
    (hr : r = nonce ++ Config.serial ++ s.boot.meas.flatten ++ s.boot.svn.flatMap (natLe 4) ++
      Config.sha3 (Config.kemPublic s.boot.kemKey) ++ natLe 8 s.ltime) :
    exec (.attestationReport nonce) s =
      .next { s with sup := { s.sup with attest := s.sup.attest ++ [r ++ Config.mldsaSign (Config.sha3 r)] } } := by
  subst hr
  change execAttestationReport nonce s = _
  simp only [execAttestationReport, hlen, hruns, decide_true, Bool.and_self, if_true]

/-- The minimums with that of one kind raised to the version that runs (R382). -/
def Boot.raised (b : Boot) (kind : Nat) : List Nat :=
  (List.range 4).map (fun i => if i + 1 = kind then max (b.svnMin.getD i 0) (b.svn.getD i 0) else b.svnMin.getD i 0)

theorem Boot.getD_raised (b : Boot) (kind : Nat) {k : Nat} (hlo : 1 ≤ k) (hhi : k ≤ 4) :
    (b.raised kind).getD (k - 1) 0 =
      if k = kind then max (b.svnMin.getD (k - 1) 0) (b.svn.getD (k - 1) 0) else b.svnMin.getD (k - 1) 0 := by
  obtain ⟨i, rfl⟩ : ∃ i, k = i + 1 := ⟨k - 1, by omega⟩
  have hi : i < 4 := by omega
  simp [Boot.raised, hi]

theorem exec_svnMinimumRaise {kind : Nat} {cmd sig : List Byte} (hlo : 1 ≤ kind) (hhi : kind ≤ 4) (hruns : s.monitorRuns = true)
    (hkind : fieldAt cmd 0 4 = kind) (hsig : Config.mldsaVerify 1 cmd sig = true) :
    exec (.svnMinimumRaise kind cmd sig) s = .next { s with boot := { s.boot with svnMin := s.boot.raised kind } } := by
  change execSvnMinimumRaise kind cmd sig s = _
  simp only [execSvnMinimumRaise, hlo, hhi, hruns, hkind, hsig, decide_true, Bool.and_self, if_true, Boot.raised]

/-! ### Power (R452, R453) -/

section Power

variable {watts temp now : Nat}

theorem exec_pstepEval_of_cool
    (hcool : ∀ h, ((s.advanceTime now).power.next watts temp (s.advanceTime now).ltime).hotSince = some h →
      (s.advanceTime now).ltime - h < 1000000) :
    exec (.pstepEval watts temp now) s =
      .next { s.advanceTime now with power := (s.advanceTime now).power.next watts temp (s.advanceTime now).ltime } :=
  if_neg fun hany => by
    obtain ⟨h, hhot, hlong⟩ := Option.any_eq_true _ _ |>.mp hany
    exact Nat.not_lt.mpr (of_decide_eq_true hlong) (hcool h hhot)

/-- A junction that has been hot for 1 ms takes the power, and only what survives a reset is left. -/
theorem exec_pstepEval_of_hot {h : Nat} (hhot : ((s.advanceTime now).power.next watts temp (s.advanceTime now).ltime).hotSince = some h)
    (hlong : 1000000 ≤ (s.advanceTime now).ltime - h) :
    exec (.pstepEval watts temp now) s =
      .next { (s.advanceTime now).kept with power := { State.reset.power with pstep := 4, off := true } } :=
  if_pos (by simpa [hhot] using hlong)

end Power

/-! ### Queue cores (R422, R423) -/

section QueueCore

variable {hart : Nat}

theorem exec_eventDispatch {e : Event} {s1 : State} (hcore : isQueueCore hart = true) (hused : (s.qcore hart).retired = false)
    (hboot : s.booted = true) (h1 : s1 = s.setQcore hart { s.qcore hart with held := none })
    (hfirst : s1.evq.find? (fun e => !s1.queueLocked e.sub) = some e) :
    exec (.eventDispatch hart) s = .next { s1.setQcore hart { s1.qcore hart with held := some e } with evq := s1.evq.erase e } := by
  subst h1
  dsimp only at hfirst
  have hgo : ¬(!isQueueCore hart || (s.qcore hart).retired || !s.booted) = true := by simp [hcore, hused, hboot]
  refine (if_neg hgo).trans ?_
  simp only [hfirst]

theorem State.giveBack_ltime (s : State) (h : Nat) : (s.giveBack h).ltime = s.ltime := by
  unfold State.giveBack
  dsimp only
  split <;> rfl

theorem exec_queueCoreWatchdog {now : Nat} {s1 s2 : State} (hcore : isQueueCore hart = true) (h1 : s1 = s.advanceTime now)
    (hused : (s1.qcore hart).retired = false) (hboot : s1.booted = true) (h2 : s2 = s1.giveBack hart) :
    exec (.queueCoreWatchdog hart now) s =
      .next (if s1.ltime - (s1.qcore hart).kicked < 5000 ∨ 500000 < s1.ltime - (s1.qcore hart).kicked then
        (s2.setQcore hart { s2.qcore hart with kicked := s1.ltime, restarts := (s1.qcore hart).restarts + 1 }).countUnit 7 0 hart false
        else s1.setQcore hart { s1.qcore hart with kicked := s1.ltime }) := by
  subst h1 h2
  have hgo : ¬(!isQueueCore hart || ((s.advanceTime now).qcore hart).retired || !(s.advanceTime now).booted) = true := by
    simp [hcore, hused, hboot]
  refine (if_neg hgo).trans ?_
  simp only [State.giveBack_ltime, Bool.or_eq_true, decide_eq_true_eq, apply_ite Host.Outcome.next]

end QueueCore

/-- Settles O33: each step makes the statement's change once its conditions hold. Choices of the model, not of the manual: a queue core
commits the event it holds before it takes the next (log 98), and a staged image stands in place of an earlier one of its kind. -/
theorem supervisorStepsComplete : Obligations.SupervisorStepsComplete := by
  refine ⟨fun _ _ => rfl, fun _ _ _ => exec_attestationReport, ?raise, fun _ => rfl, fun _ _ => rfl, ?cool, ?hot, ?cap,
    fun _ _ => rfl, fun _ _ _ _ => exec_eventDispatch, fun _ _ _ _ _ => exec_queueCoreWatchdog⟩
  case raise =>
    intro s kind cmd sig hlo hhi hruns hkind hsig
    exact ⟨_, exec_svnMinimumRaise hlo hhi hruns hkind hsig, rfl, rfl, fun k => s.boot.getD_raised kind⟩
  case cool =>
    rintro s watts temp now _ _ rfl rfl
    exact exec_pstepEval_of_cool
  case hot =>
    rintro s watts temp now _ h rfl
    exact exec_pstepEval_of_hot
  case cap =>
    intro s watts
    refine ⟨_, rfl, rfl, rfl, rfl, fun hlow => ?_, fun hlo hhi => ?_, fun hhigh => ?_⟩ <;> dsimp only <;> omega

end Sys2Proof.Machine
end

section
/-! ## Links, the router and the fabric's registers (R383, R456 to R466, R480, R485) -/

namespace Sys2Proof.Machine

variable {s : State}

/-! ### Flits and ports (R457 to R459) -/

section Flit

variable {port now : Nat} {f : Flit} {u : State}

theorem exec_flitReceive_of_damaged (hport : port < 12) (hu : u = s.advanceTime now) (hup : (u.port port).up = true)
    (hbad : flitIntact f = false) : exec (.flitReceive port f now) s = .next (u.damaged port f) := by
  change execFlitReceive port f now s = _
  simp only [execFlitReceive, ← hu, Nat.not_le.mpr hport, hup, hbad, decide_false, Bool.not_true, Bool.or_self, Bool.not_false,
    Bool.false_eq_true, if_false, if_true]

/-- A whole flit is taken where its number is the expected one, an idle flit's being the last one taken. -/
theorem exec_flitReceive_of_intact (hport : port < 12) (hu : u = s.advanceTime now) (hup : (u.port port).up = true)
    (hgood : flitIntact f = true) :
    exec (.flitReceive port f now) s = .next (u.setPort port
      (if f.seq ≠ (if f.idle then (u.port port).rxNext - 1 else (u.port port).rxNext) then { u.port port with nak := true }
        else ({ u.port port with rxNext := if f.idle then (u.port port).rxNext else (u.port port).rxNext + 1, nak := false } : Port).hear f)) := by
  change execFlitReceive port f now s = _
  simp only [execFlitReceive, ← hu, Nat.not_le.mpr hport, hup, hgood, decide_false, Bool.not_true, Bool.or_self, Bool.false_eq_true, if_false,
    apply_ite (u.setPort port), apply_ite Host.Outcome.next]

theorem exec_portStateChange {up : Bool} (hport : port < 12) (hup : (s.port port).up ≠ up) :
    exec (.portStateChange port up) s =
      .next ((s.setPort port { s.port port with replay := [], stop := 0, retries := 0 }).portChange port up) := by
  change execPortStateChange port up s = _
  simp only [execPortStateChange, Nat.not_le.mpr hport, hup, decide_false, Bool.or_self, Bool.false_eq_true, if_false]

end Flit

/-! ### Hops (R464) -/

section Hop

variable {p : Packet} {t : State}

theorem exec_routerHop_of_sent {u : State} (hout : p ∈ s.fab.out) (hon : s.fabOn = true) (hfirst : firstOf s.fab.out p = true)
    (hu : u = { s with fab := { s.fab with out := s.fab.out.erase p } }) (hstart : u.startPacket p = some t) :
    exec (.routerHop p) s = .next t := by
  subst hu
  change execRouterHop p s = _
  simp only [execRouterHop, List.contains_iff_mem, hout, hon, hfirst, hstart, Bool.not_true, Bool.false_eq_true, if_true, if_false,
    Option.getD_some]

theorem exec_routerHop_of_arrived (hout : p ∉ s.fab.out) (hon : s.fabOn = true) (hgo : s.atRouter p = some t) :
    exec (.routerHop p) s = .next t := by
  change execRouterHop p s = _
  simp only [execRouterHop, List.contains_iff_mem, hout, hon, hgo, if_true, if_false, Option.getD_some]

end Hop

/-! ### What the hub takes: topology entries and notifies (R383, R462, R469) -/

section Packet

variable {p : Packet}

theorem State.onPacket_of_arrived {typ : BitVec 8} (htyp : p.typ = typ) (hin : p ∈ s.fab.inbox) (f : State → State) :
    s.onPacket p typ f = .next (f (s.takePacket p)).wake :=
  if_pos (by simp [htyp, hin])

theorem exec_linkstate (htyp : p.typ = tLINKSTATE) (hin : p ∈ s.fab.inbox) :
    exec (.linkstate p) s = .next ((s.takePacket p).putMap (s.linear p.srcpos) (p.payload.take 16)).wake :=
  State.onPacket_of_arrived htyp hin fun t => t.putMap (t.linear p.srcpos) (p.payload.take 16)

theorem exec_qnotify (htyp : p.typ = tQNOTIFY) (hin : p ∈ s.fab.inbox) (hboot : s.booted = true) (hgo : s.notifyWaits p = false) :
    exec (.qnotify p) s = .next (if ((s.takePacket p).queue (fieldAt p.payload 0 2)).binding then s.takePacket p
      else (s.takePacket p).notify p.payload).wake := by
  change execQnotify p s = _
  simp only [execQnotify, hboot, hgo, Bool.not_true, Bool.or_self, Bool.false_eq_true, if_false]
  exact State.onPacket_of_arrived htyp hin _

end Packet

/-! ### Registers (R370, R460) -/

section Register

variable {addr : Nat} {x : Dword} {md : HMode}

theorem exec_registerWrite_of_reach (halign : addr % 8 = 0) (hreach : mayReach md (hubPlace addr).res true = true) :
    exec (.registerWrite addr x md) s = .next (s.writeRegister md addr x) :=
  if_pos (by simp [halign, hreach])

theorem exec_registerWrite_of_noReach (hreach : mayReach md (hubPlace addr).res true = false) :
    exec (.registerWrite addr x md) s = .next s :=
  if_neg (by simp [hreach])

end Register

/-! ### Requests without a response (R485) -/

theorem exec_remoteTimeout {tag now : Nat} {u : State} {q : Req} (hu : u = s.advanceTime now)
    (hq : u.fab.reqs.find? (fun q => q.tag = tag) = some q)
    (howed : q.fid.isSome = true ∨ q.typ = tMARKER ∨ (q.gw = true ∧ q.typ ≠ tPIECE))
    (hlate : u.fab.rto.toNat * 1000 ≤ u.ltime - q.sent) : exec (.remoteTimeout tag now) s = .next (u.failReq q 2).wake := by
  have hdue : (q.fid.isSome || decide (q.typ = tMARKER) || (q.gw && decide (q.typ ≠ tPIECE))) = true := by
    simpa [or_assoc] using howed
  change execRemoteTimeout tag now s = _
  simp only [execRemoteTimeout, ← hu, hq, hdue, hlate, decide_true, Bool.and_self, if_true]

/-- Settles O38: each step makes the statement's change once its conditions hold. Choices of the model, not of the manual: a register
write by a mode that may not reach the register changes nothing beside the access fault of its own step (log 127), and a notify that
arrives while a BIND of its queue is held leaves no event and no count (log 154). -/
theorem linkStepsComplete : Obligations.LinkStepsComplete := by
  refine ⟨?intact, fun _ _ _ _ _ => exec_flitReceive_of_damaged, fun _ _ _ => exec_portStateChange,
    fun _ _ _ _ => exec_routerHop_of_sent, fun _ _ _ => exec_routerHop_of_arrived,
    fun _ _ => exec_linkstate, ?notify, fun _ _ => rfl,
    fun _ _ _ _ halign => ⟨exec_registerWrite_of_reach halign, exec_registerWrite_of_noReach⟩, fun _ _ _ _ _ => exec_remoteTimeout⟩
  case intact =>
    intro s port f now u hport hu hup hgood
    rw [exec_flitReceive_of_intact hport hu hup hgood]
    refine ⟨fun hidle hseq => ?_, fun hidle hseq => ?_, fun hseq => by rw [if_pos hseq]⟩ <;> simp [hidle, hseq]
  case notify =>
    intro s p htyp hin hboot hgo
    rw [exec_qnotify htyp hin hboot hgo]
    exact ⟨fun hfree => by rw [hfree]; rfl, fun hheld => by rw [hheld]; rfl⟩

end Sys2Proof.Machine
end

section
/-! ## What every step keeps (R378) -/

namespace Sys2Proof.Machine

set_option Elab.async false

/-- Settles O55: nothing is in memory after reset, and no event has been numbered. -/
theorem resetHasInvariant : Obligations.ResetHasInvariant := ⟨rfl, rfl, rfl⟩

/-! ### What the invariant of a result means

Each function a step is made of has one lemma, `State.Inv.<its name>`: its result keeps the invariant when the state it is given meets
it. The lemmas stand in the model's order. A result that carries a state keeps the invariant when that state does; one that carries none
does so always. -/

def Out.Inv : Out → Prop
  | .next t => t.Inv
  | _ => True

def Eff.Inv (e : Eff) : Prop := e.state.Inv

def Rel.Inv : Rel → Prop
  | .go t | .hold t _ | .trap t _ => t.Inv

def Eng.Inv {α : Type} : Eng α → Prop
  | .ok t _ | .fail t _ | .hold t => t.Inv

def WRead.Inv : WRead → Prop
  | .ok t _ => t.Inv
  | .eff e => e.Inv

def PkRes.Inv : PkRes → Prop
  | .done t | .err t _ _ | .wait t | .start t _ => t.Inv
  | .held _ => True

def FabRes.Inv : FabRes → Prop
  | .done t | .refuse t _ => t.Inv
  | .hold _ => True

theorem Eff.Inv.of_eq {e x : Eff} (h : e.Inv) (hx : e = x) : x.Inv := hx ▸ h
theorem Rel.Inv.of_eq {e x : Rel} (h : e.Inv) (hx : e = x) : x.Inv := hx ▸ h
theorem Eng.Inv.of_eq {α : Type} {e x : Eng α} (h : e.Inv) (hx : e = x) : x.Inv := hx ▸ h
theorem WRead.Inv.of_eq {e x : WRead} (h : e.Inv) (hx : e = x) : x.Inv := hx ▸ h
theorem FabRes.Inv.of_eq {e x : FabRes} (h : e.Inv) (hx : e = x) : x.Inv := hx ▸ h
theorem Out.Inv.of_eq {e x : Out} (h : e.Inv) (hx : e = x) : x.Inv := hx ▸ h
theorem Eff.Inv.trap {s : State} {t : Trap} (hs : s.Inv) : (Eff.trap s t).Inv := hs

theorem State.Inv.fst {α : Type} {p : State × α} {t : State} {a : α} (h : p.1.Inv) (hp : p = (t, a)) : t.Inv := by
  subst hp
  exact h

theorem State.Inv.snd {α : Type} {p : α × State} {t : State} {a : α} (h : p.2.Inv) (hp : p = (a, t)) : t.Inv := by
  subst hp
  exact h

/-! ### The rules -/

variable {s : State}

/-- A change of anything but memory, the events and their next number keeps the invariant. -/
theorem State.Inv.frame {t : State} (hs : s.Inv)
    (h : (t.mem, t.events, t.nextSeq) = (s.mem, s.events, s.nextSeq) := by rfl) : t.Inv := by
  obtain ⟨hm, he, hn⟩ : t.mem = s.mem ∧ t.events = s.events ∧ t.nextSeq = s.nextSeq := by simpa using h
  refine ⟨hm ▸ hs.memory, ?_⟩
  rw [State.numbered, he, hn]
  exact hs.events

/-- Memory may take any other canonical form. -/
theorem State.Inv.withMem {t : State} (hs : s.Inv) (hm : Memory.wf t.mem = true)
    (h : (t.events, t.nextSeq) = (s.events, s.nextSeq) := by rfl) : t.Inv := by
  obtain ⟨he, hn⟩ : t.events = s.events ∧ t.nextSeq = s.nextSeq := by simpa using h
  refine ⟨hm, ?_⟩
  rw [State.numbered, he, hn]
  exact hs.events

/-- A new event takes the next number. -/
theorem State.Inv.event (hs : s.Inv) {kind sub arg : Nat} : (s.event kind sub arg).Inv := by
  obtain ⟨hmem, hseq, hnext⟩ := hs
  refine ⟨hmem, ?_, ?_⟩
  · simp only [State.event, List.map_append, hseq, List.length_append, List.map_cons, List.map_nil, List.length_cons, List.length_nil,
      hnext, List.range'_concat]
    simp [Nat.add_comm]
  · simp [State.event, hnext]

theorem State.Inv.ite {a b : State} {c : Prop} [Decidable c] (ha : a.Inv) (hb : b.Inv) : (if c then a else b).Inv := by
  split
  · exact ha
  · exact hb

theorem State.Inv.getD {o : Option State} (hs : s.Inv) (ho : ∀ t, o = some t → t.Inv) : (o.getD s).Inv := by
  cases o with
  | none => exact hs
  | some t => exact ho t rfl

theorem State.Inv.mapD {α : Type} {o : Option α} {f : α → State} (hs : s.Inv) (hf : ∀ a, (f a).Inv) : ((o.map f).getD s).Inv := by
  cases o with
  | none => exact hs
  | some a => exact hf a

theorem State.Inv.foldl {α : Type} {f : State → α → State} {l : List α} (hs : s.Inv) (hf : ∀ t x, t.Inv → (f t x).Inv) :
    (l.foldl f s).Inv := List.foldlRecOn l f hs fun t ht x _ => hf t x ht

/-- The same where the fold gathers something beside the state. -/
theorem State.Inv.foldlFst {α β : Type} {f : State × β → α → State × β} {l : List α} {p : State × β} (hp : p.1.Inv)
    (hf : ∀ q x, q.1.Inv → (f q x).1.Inv) : (l.foldl f p).1.Inv := List.foldlRecOn l f hp fun q hq x _ => hf q x hq

end Sys2Proof.Machine
end

section
/-! ## What every step keeps: the state's operations, translation and packets -/

namespace Sys2Proof.Machine

set_option Elab.async false

variable {s : State}

/-! ### The state's operations -/

theorem State.Inv.setWeft (hs : s.Inv) {h : Nat} {w : Weft} : (s.setWeft h w).Inv := hs.frame

theorem State.Inv.setBolt (hs : s.Inv) {h : Nat} {b : Bolt} : (s.setBolt h b).Inv := hs.frame

theorem State.Inv.setCourse (hs : s.Inv) {h : Nat} {c : Course} : (s.setCourse h c).Inv := hs.frame

theorem State.Inv.setSpan (hs : s.Inv) {h : Nat} {x : Span} : (s.setSpan h x).Inv := hs.frame

theorem State.Inv.setCore (hs : s.Inv) {n : Nat} {c : Core} : (s.setCore n c).Inv := hs.frame

theorem State.Inv.setCtx (hs : s.Inv) {asid : Nat} {c : Ctx} : (s.setCtx asid c).Inv := hs.frame

theorem State.Inv.setQueue (hs : s.Inv) {q : Nat} {x : Queue} : (s.setQueue q x).Inv := hs.frame

theorem State.Inv.setFeed (hs : s.Inv) {q : Nat} {x : FeedQ} : (s.setFeed q x).Inv := hs.frame

theorem State.Inv.stamp (hs : s.Inv) : s.stamp.2.Inv := hs.frame

theorem State.Inv.withOdd (hs : s.Inv) {h : Nat} {b : State} : (s.withOdd h b).Inv := hs.frame

theorem State.Inv.both (hs : s.Inv) {h : Nat} {f : State → State} (hf : ∀ t, t.Inv → (f t).Inv) : (s.both h f).Inv :=
  .ite (.withOdd (hf _ hs)) (hf _ hs)

theorem State.Inv.setHart (hs : s.Inv) {n : Nat} {x : Hart} : (s.setHart n x).Inv := hs.frame

theorem State.Inv.irqErr (hs : s.Inv) : s.irqErr.Inv := hs.frame

theorem State.Inv.clearVictims (hs : s.Inv) {n slot : Nat} : (s.clearVictims n slot).Inv := .ite hs.setCore hs

theorem State.Inv.admitTo (hs : s.Inv) {n h : Nat} : (s.admitTo n h).Inv := by
  unfold State.admitTo
  dsimp only
  split
  · exact hs
  · exact hs.stamp.clearVictims.setWeft

theorem State.Inv.admitList (hs : s.Inv) {n : Nat} {x : List (Nat × Weft)} {y : List Nat} : (s.admitList n x y).Inv := by
  fun_induction State.admitList
  · exact hs
  next ih => exact ih hs
  next ih => exact ih hs.admitTo
  next ih => exact ih hs

theorem State.Inv.admitWefts (hs : s.Inv) {n : Nat} : (s.admitWefts n).Inv := .ite hs hs.admitList

theorem State.Inv.ready (hs : s.Inv) {h : Nat} : (s.ready h).Inv := .ite hs.setWeft hs.frame.setWeft

theorem State.Inv.wake (hs : s.Inv) : s.wake.Inv := by
  unfold State.wake
  dsimp only
  split
  · exact hs
  · exact .foldl (.foldl hs fun _ _ ht => ht.ready) fun _ _ ht => ht.admitWefts

theorem State.Inv.swapOut (hs : s.Inv) {bh : Nat} : (s.swapOut bh).Inv := by
  unfold State.swapOut
  dsimp only
  split
  · exact hs
  · exact .admitWefts (.setCore (.foldl hs.setBolt fun _ _ ht => .ite ht ht.setWeft))

theorem State.Inv.takeTrap (hs : s.Inv) {h : Nat} {t : Trap} : (takeTrap s h t).Inv := by
  unfold Machine.takeTrap
  dsimp only
  split
  · exact hs.setWeft
  · split
    · exact hs.setWeft
    · exact .ite hs.setWeft.swapOut hs.setWeft.admitWefts
  · exact hs.setWeft.admitWefts

/-! ### Virtual to physical addresses (R349 to R355, R361) -/

theorem State.Inv.errEvent (hs : s.Inv) {kind consumer asid : Nat} {x : ErrAt} : (s.errEvent kind consumer asid x).Inv :=
  .ite hs.event.frame.irqErr hs.event.frame

theorem State.Inv.lineEvent (hs : s.Inv) {consumer asid pa : Nat} : (s.lineEvent consumer asid pa).Inv := .ite hs.errEvent hs.errEvent

theorem State.Inv.cacheWalk (hs : s.Inv) {asid va : Nat} : (s.cacheWalk asid va).Inv := hs.frame

theorem State.Inv.choose (hs : s.Inv) : s.choose.1.Inv := hs.frame

theorem State.Inv.walkNow (hs : s.Inv) {asid va : Nat} : (s.walkNow asid va).1.Inv := by
  unfold State.walkNow
  split
  · exact hs
  · exact hs.frame

theorem State.Inv.tlbFill (hs : s.Inv) {core asid va level entry : Nat} : (s.tlbFill core asid va level entry).Inv := hs.frame

theorem State.Inv.useWalk (hs : s.Inv) {core asid va : Nat} {k : XKind} : (s.useWalk core asid va k).1.Inv := by
  unfold State.useWalk
  split
  next heq => exact .ite (hs.walkNow.fst heq).lineEvent (hs.walkNow.fst heq)
  next heq =>
    have hu := hs.walkNow.fst heq
    split
    · exact hu
    · split
      · exact hu
      · exact .tlbFill (.cacheWalk (.ite hu (hu.withMem (Store.wf_writeNat hu.memory _ _ _))))

theorem State.Inv.translate (hs : s.Inv) {core asid va : Nat} {k : XKind} : (s.translate core asid va k).1.Inv := by
  unfold State.translate
  dsimp only
  split
  · exact hs
  · split
    · exact hs.useWalk
    · split
      · exact hs.useWalk
      · split
        · split
          · exact hs
          · split
            · exact hs.choose
            · exact hs.choose.useWalk
        · split
          · exact hs
          · split
            · exact hs.choose
            · exact hs.choose.useWalk

theorem State.Inv.hubTranslate (hs : s.Inv) {asid va : Nat} {k : XKind} : (s.hubTranslate asid va k).1.Inv := by
  unfold State.hubTranslate
  split
  · exact hs
  · split
    next heq => exact (hs.useWalk.fst heq).frame

/-! ### Barrier objects and declared buffers (R228 to R238) -/

theorem State.Inv.setObj (hs : s.Inv) {owner off : Nat} {o : BarObj} : (s.setObj owner off o).Inv := .ite hs.errEvent hs.setBolt

theorem State.Inv.mapBars (hs : s.Inv) {owner off : Nat} {f : BarEnt → BarEnt} : (s.mapBars owner off f).Inv := hs.frame

theorem State.Inv.setArr (hs : s.Inv) {bh wid owner off : Nat} {m : Mask} : (s.setArr bh wid owner off m).Inv := hs.frame

theorem State.Inv.peerCheck (hs : s.Inv) {owner off : Nat} : (s.peerCheck owner off).Inv := .ite hs.setObj hs

theorem State.Inv.barCheck (hs : s.Inv) {owner off : Nat} : (s.barCheck owner off).Inv := by
  unfold State.barCheck
  dsimp only
  split
  · exact hs
  · split
    · exact hs.setBolt.mapBars.peerCheck
    · exact .ite hs.setObj hs.peerCheck

theorem State.Inv.barArrive (hs : s.Inv) {owner off bh wid : Nat} {m : Mask} : (s.barArrive owner off bh wid m).Inv := hs.setArr.setObj

theorem State.Inv.barExpect (hs : s.Inv) {owner off a : Nat} : (s.barExpect owner off a).Inv := hs.setObj

theorem State.Inv.barLand (hs : s.Inv) {owner off k : Nat} : (s.barLand owner off k).Inv := .ite hs (.ite hs.setObj hs.setObj.barCheck)

theorem State.Inv.barError (hs : s.Inv) {owner off st info : Nat} : (s.barError owner off st info).Inv := .ite hs.setObj hs

theorem State.Inv.departOne (hs : s.Inv) {bh wid t owner off : Nat} : (s.departOne bh wid t owner off).Inv :=
  .ite hs (.barCheck (.ite hs.setObj hs.setArr.setObj))

theorem State.Inv.depart (hs : s.Inv) {bh wid : Nat} {m : Mask} : (s.depart bh wid m).Inv :=
  .wake (.foldl hs fun _ _ ht => .foldl ht fun _ _ hu => hu.departOne)

theorem State.Inv.trapAt (hs : s.Inv) {h : Nat} {t : Trap} : (s.trapAt h t).Inv := by
  unfold State.trapAt
  dsimp only
  split
  · exact hs.takeTrap
  · exact hs.takeTrap
  · exact .ite hs.takeTrap.ready.admitWefts hs.takeTrap
  · exact hs.setWeft

theorem State.Inv.mapCopy (hs : s.Inv) {bh hd : Nat} {f : Copy → Copy} : (s.mapCopy bh hd f).Inv := hs.frame

theorem State.Inv.endCopy (hs : s.Inv) {bh hd code : Nat} : (s.endCopy bh hd code).Inv := by
  unfold State.endCopy
  dsimp only
  split
  · exact hs
  · split
    · exact hs
    · split
      · refine .barError ?_
        split
        · exact .ite hs.stamp.mapCopy hs.stamp.mapCopy.setWeft
        · exact hs.stamp.mapCopy
      · split
        · exact .ite hs.stamp.mapCopy hs.stamp.mapCopy.setWeft
        · exact hs.stamp.mapCopy

theorem State.Inv.barCopies (hs : s.Inv) {owner off : Nat} : (s.barCopies owner off).Inv :=
  .foldl hs fun _ _ ht => .ite ht.mapCopy ht.endCopy

theorem State.Inv.barInvalidate (hs : s.Inv) {owner off : Nat} : (s.barInvalidate owner off).Inv :=
  .foldl hs.setBolt.barCopies.frame fun _ _ ht => ht.trapAt

/-! ### Packets, paths and pages that follow (R439, R463 to R480) -/

theorem State.Inv.route (hs : s.Inv) {ridx : Nat} : (s.route ridx).1.Inv := by
  unfold State.route
  dsimp only
  split
  · exact hs
  · split
    · exact hs.lineEvent
    · exact hs.frame

theorem State.Inv.breakRoute (hs : s.Inv) {ridx : Nat} : (s.breakRoute ridx).Inv := by
  unfold State.breakRoute
  extract_lets a b t
  have ht : t.Inv := hs.withMem (Store.wf_put hs.memory)
  split
  · exact ht
  · exact ht.frame

theorem State.Inv.emit (hs : s.Inv) {p : Packet} : (s.emit p).Inv := .ite hs.frame hs

theorem State.Inv.newTag (hs : s.Inv) : s.newTag.2.Inv := hs.frame

theorem State.Inv.mapPath (hs : s.Inv) {asid ridx : Nat} {f : Egress → Egress} : (s.mapPath asid ridx f).Inv := hs.frame

theorem State.Inv.countPath (hs : s.Inv) {asid ridx : Nat} : (s.countPath asid ridx).Inv := .ite hs.frame.mapPath hs.frame.frame

theorem State.Inv.sendMarker (hs : s.Inv) {asid ridx : Nat} : (s.sendMarker asid ridx).Inv := by
  unfold State.sendMarker
  split
  next heq =>
    split
    next heq' => exact ((hs.route.fst heq).newTag.snd heq').frame.emit

theorem State.Inv.evictPath (hs : s.Inv) : s.evictPath.Inv := by
  unfold State.evictPath
  split
  · exact hs.sendMarker
  · exact hs

theorem State.Inv.markAll (hs : s.Inv) {asid : Nat} : (s.markAll asid).1.Inv := .foldl hs fun _ _ ht => ht.sendMarker

theorem State.Inv.takeFailure (hs : s.Inv) {asid i : Nat} {a : Va} {t : State} (h : s.takeFailure asid = some (i, a, t)) : t.Inv := by
  unfold State.takeFailure at h
  split at h
  · split at h <;> cases h
    exact hs.mapPath
  · cases h

theorem State.Inv.sendPull (hs : s.Inv) {x : Holder} {addr n : Nat} {t : State} (h : s.sendPull x addr = some (n, t)) : t.Inv := by
  unfold State.sendPull at h
  split at h
  · cases h
  · cases h
    exact hs.route.newTag.emit

theorem State.Inv.pullFor (hs : s.Inv) {asid va : Nat} : (s.pullFor asid va).Inv := by
  unfold State.pullFor
  dsimp only
  split
  · exact hs
  · split
    · exact hs.frame
    · split
      · exact hs.frame
      next heq => exact (hs.sendPull heq).frame

theorem State.Inv.releaseHolders (hs : s.Inv) {gone : Holder → Bool} : (s.releaseHolders gone).Inv := by
  unfold State.releaseHolders
  extract_lets t
  have ht : t.Inv := .foldl hs fun u x hu => .getD hu fun v hv => by
    obtain ⟨p, hp, rfl⟩ := Option.map_eq_some_iff.mp hv
    exact hu.sendPull hp
  exact ht.frame

theorem State.Inv.dropImages (hs : s.Inv) {asid : Nat} : (s.dropImages asid).Inv := hs.releaseHolders.frame

/-! ### Making bolts and wefts -/

theorem State.Inv.freeCourse (hs : s.Inv) {c : Nat} : (s.freeCourse c).Inv := .ite hs.frame hs

theorem State.Inv.addWeft (hs : s.Inv) {w : Weft} : (s.addWeft w).2.Inv := hs.setWeft.ready

theorem State.Inv.startHandler (hs : s.Inv) {asid : Nat} {m : MBox} : (s.startHandler asid m).Inv :=
  .admitWefts (.setCtx (.ready (.setWeft (.ite hs.setCourse.setBolt.setCore.lineEvent hs.setCourse.setBolt.setCore))))

theorem State.Inv.fire (hs : s.Inv) {pa : Nat} : (s.fire pa).Inv := by
  unfold State.fire
  dsimp only
  split
  · exact hs
  · split
    · exact hs.startHandler
    · exact hs.setCtx

/-! ### The home slice (R309) -/

theorem wf_applyReds {m : Store Byte} (h : Memory.wf m = true) (l : List RedEntry) (pa : Nat) : Memory.wf (applyReds m l pa) = true := by
  unfold applyReds
  dsimp only
  split
  · exact h
  · exact Store.wf_writeNat h _ _ _

theorem State.Inv.recall (hs : s.Inv) {line : Nat} : (s.recall line).Inv := by
  unfold State.recall
  split
  · exact hs
  · refine .ite hs.frame.lineEvent (hs.withMem ?_)
    exact List.foldlRecOn (motive := fun m => Memory.wf m = true) _ _ hs.memory fun _ hm a _ => wf_applyReds hm _ a

theorem State.Inv.recallRange (hs : s.Inv) {pa n : Nat} : (s.recallRange pa n).Inv := .foldl hs fun _ _ ht => ht.recall

theorem State.Inv.mendL2 (hs : s.Inv) {line : Nat} : (s.mendL2 line).Inv := .ite hs.frame.errEvent hs

theorem State.Inv.homeRead (hs : s.Inv) {pa n consumer asid : Nat} : (s.homeRead pa n consumer asid).1.Inv := by
  unfold State.homeRead
  dsimp only
  split
  · exact .lineEvent (.foldl hs.recallRange fun _ _ ht => ht.mendL2)
  · exact .foldl hs.recallRange fun _ _ ht => ht.mendL2

theorem State.Inv.applyElems (hs : s.Inv) {k : Nat} {l : List (Nat × Dword)} {fl : Flags} : (s.applyElems k l fl).1.Inv := by
  induction l generalizing s fl with
  | nil => exact hs
  | cons x rest ih =>
    unfold State.applyElems
    dsimp only
    split
    · exact ih hs.recall
    · exact ih (hs.recall.withMem (Store.wf_writeNat hs.recall.memory _ _ _))

theorem State.Inv.mapWeft (hs : s.Inv) {h : Nat} {f : Weft → Weft} : (s.mapWeft h f).Inv := hs.frame

theorem State.Inv.applyContribution (hs : s.Inv) {c : Contribution} : (s.applyContribution c).Inv :=
  .mapWeft (.foldl hs.applyElems fun _ _ ht => ht.lineEvent)

theorem State.Inv.setAcc (hs : s.Inv) {part : Nat} {a : AccPart} : (s.setAcc part a).Inv := hs.frame

theorem State.Inv.advanceAcc (hs : s.Inv) {part x : Nat} {y : Bool} : (s.advanceAcc part x y).Inv := by
  fun_induction State.advanceAcc
  · exact hs
  · exact hs
  next ih => exact ih (.foldl hs.setAcc fun _ _ ht => ht.applyContribution)

theorem State.Inv.arriveContribution (hs : s.Inv) {c : Contribution} : (s.arriveContribution c).Inv := by
  unfold State.arriveContribution
  dsimp only
  split
  · exact hs.applyContribution
  · split
    · exact hs.applyContribution
    · split
      · exact hs.setAcc.applyContribution.advanceAcc
      · exact hs.setAcc.setAcc

theorem State.Inv.retryOne (hs : s.Inv) : s.retryOne.Inv := by
  unfold State.retryOne
  split
  · exact hs
  · exact hs.frame.arriveContribution

theorem State.Inv.retryStalled (hs : s.Inv) {x : Nat} : (s.retryStalled x).Inv := by
  fun_induction State.retryStalled
  · exact hs
  next ih => exact ih hs.retryOne

theorem State.Inv.endSequence (hs : s.Inv) {part : Nat} : (s.endSequence part).Inv :=
  .retryStalled (.foldl hs.frame.setAcc fun _ _ ht => ht.applyContribution)

theorem State.Inv.endSequences (hs : s.Inv) {pa n : Nat} : (s.endSequences pa n).Inv := .foldl hs fun _ _ ht => ht.endSequence

theorem State.Inv.sendPiece (hs : s.Inv) {c : Ckpt} {i : Nat} {l : List Byte} : (s.sendPiece c i l).1.Inv := by
  unfold State.sendPiece
  dsimp only
  split
  · exact hs
  · refine .foldlFst hs fun q _ hq => ?_
    split
    · exact hq.newTag.frame
    · exact hq.newTag.route.emit

theorem State.Inv.drainOf (hs : s.Inv) {c : Ckpt} {frame : Nat} : (s.drainOf c frame).1.Inv := by
  unfold State.drainOf
  dsimp only
  exact State.Inv.foldlFst hs fun _ _ hq => hq.sendPiece

theorem State.Inv.drainFrame (hs : s.Inv) {frame : Nat} : (s.drainFrame frame).Inv := by
  unfold State.drainFrame
  split
  · split
    next heq =>
      refine (State.Inv.fst (.foldlFst (p := (s, [])) hs fun _ _ hq => ?_) heq).frame
      exact State.Inv.drainOf hq
  · exact hs

theorem State.Inv.acquireL1 (hs : s.Inv) {core : Nat} : (s.acquireL1 core).Inv := hs.frame

theorem State.Inv.acquire (hs : s.Inv) {core : Nat} {sc : Scope} : (s.acquire core sc).Inv := by
  unfold State.acquire
  split
  · exact hs
  · exact hs
  · exact hs.acquireL1

theorem State.Inv.dropLine (hs : s.Inv) {core line : Nat} : (s.dropLine core line).Inv := .ite hs.setCore hs

theorem State.Inv.fillL1 (hs : s.Inv) {n : Nat} {slot : Option Nat} {line : Nat} : (s.fillL1 n slot line).Inv := hs.frame

theorem State.Inv.noteMiss (hs : s.Inv) {h line : Nat} : (s.noteMiss h line).Inv := .ite hs.setWeft hs

theorem State.Inv.pollWord (hs : s.Inv) {h : Nat} {f : Flight} {d : Reg} {eq w64 : Bool} {acq : Option Scope} {tag : BitVec 6}
    {wd : Nat × Option Nat × Dword} :
    (s.pollWord h f d eq w64 acq tag wd).Inv := by
  unfold State.pollWord
  dsimp only
  split
  · exact hs
  · split
    · split
      · split
        · exact hs.mapWeft.acquire
        · exact hs.mapWeft
      · exact hs
    · split
      next heq₂ =>
        have ht := hs.translate.fst heq₂
        split
        · split
          · exact ht
          · split
            next heq₅ => exact (ht.homeRead.fst heq₅).mapWeft
            next heq₅ =>
              have hu := ht.homeRead.fst heq₅
              split
              · split
                · exact hu.dropLine.mapWeft.acquire
                · exact hu.dropLine.mapWeft
              · exact hu.dropLine
        · split
          · exact ht
          · split
            next heq₅ => exact (ht.homeRead.fst heq₅).mapWeft
            next heq₅ =>
              have hv := ht.homeRead.fst heq₅
              split
              · split
                · exact hv.dropLine.mapWeft.acquire
                · exact hv.dropLine.mapWeft
              · exact hv.dropLine
      next heq₂ => exact hs.translate.fst heq₂

theorem State.Inv.pollFlight (hs : s.Inv) {h : Nat} {f : Flight} : (s.pollFlight h f).Inv := by
  unfold State.pollFlight
  split
  · refine .foldl hs fun _ _ ht => ?_
    split
    · exact ht.pollWord
    · exact ht
  · exact hs

theorem State.Inv.triggerPolls (hs : s.Inv) {pa : Nat} : (s.triggerPolls pa).Inv := .foldl hs fun _ _ ht => ht.pollFlight

theorem State.Inv.written (hs : s.Inv) {pa : Nat} : (s.written pa).Inv := hs.triggerPolls.fire

theorem State.Inv.writeLine (hs : s.Inv) {pa : Nat} {l : List Byte} {ends : Bool} : (s.writeLine pa l ends).Inv := by
  unfold State.writeLine
  extract_lets t u v
  have hv : v.Inv := .drainFrame (.ite hs.recall.mendL2.endSequences hs.recall.mendL2)
  have hw : Memory.wf (Store.putBytes v.mem pa l) = true := Store.wf_putBytes hv.memory _ _
  split
  · split
    · exact .written (hv.withMem hw)
    · exact hv.lineEvent
  · exact .written (hv.withMem hw)

theorem State.Inv.writeLines (hs : s.Inv) {ends : Bool} {x y : Nat} {z : List Byte} : (s.writeLines ends x y z).Inv := by
  fun_induction State.writeLines
  · exact hs
  · exact hs
  next ih => exact ih hs.writeLine

theorem State.Inv.homeWrite (hs : s.Inv) {pa : Nat} {l : List Byte} {ends : Bool} : (s.homeWrite pa l ends).Inv := hs.writeLines

theorem State.Inv.homeAtom (hs : s.Inv) {op : AtomOp} {n : Nat} {flt : Bool} {pa a c1 asid : Nat} :
    (s.homeAtom op n flt pa a c1 asid).1.Inv := by
  unfold State.homeAtom
  dsimp only
  split
  next heq => exact hs.homeRead.fst heq
  next heq => exact (hs.homeRead.fst heq).writeLine

theorem State.Inv.redAt (hs : s.Inv) {h : Nat} {x : RedEntry} : (s.redAt h x).Inv := .setCore (.dropLine (.ite hs.recall hs))

theorem State.Inv.homeOrdered (hs : s.Inv) {h fid : Nat} {q : AtomReq} {pa : Nat} : (s.homeOrdered h fid q pa).1.Inv := by
  unfold State.homeOrdered
  split
  next heq => exact hs.homeRead.fst heq
  next heq => exact (hs.homeRead.fst heq).redAt

end Sys2Proof.Machine
end

section
/-! ## What every step keeps: the weft instructions -/

namespace Sys2Proof.Machine

set_option Elab.async false

variable {s : State}

/-! ### Paths and the reconvergence stack (R98 to R109) -/

theorem State.Inv.retireIfEmpty (hs : s.Inv) {h : Nat} : (s.retireIfEmpty h).Inv := .ite hs.setWeft.admitWefts hs

theorem State.Inv.kill (hs : s.Inv) {h : Nat} {m : Mask} : (s.kill h m).Inv := .ite hs hs.setWeft.depart.retireIfEmpty.wake

theorem State.Inv.exit (hs : s.Inv) {h : Nat} {m : Mask} : (s.exit h m).Inv := hs.setWeft.depart.retireIfEmpty.wake

/-! ### Operands and execution (R36) -/

theorem State.Inv.regAbort (hs : s.Inv) {h : Nat} {f : Form} {w : Weft} {sel : Mask} {e : Eff} (he : s.regAbort h f w sel = some e) :
    e.Inv := by
  unfold State.regAbort at he
  split at he
  · cases he
  · split at he
    · cases he
      exact Eff.Inv.trap hs.errEvent
    · dsimp only at he
      split at he
      · cases he
      · cases he
        exact State.Inv.kill (.foldl hs fun _ _ ht => ht.errEvent)

theorem State.Inv.operate (hs : s.Inv) {h : Nat} {f : Form} {body : Weft → Mask → Eff} (hbody : ∀ t x, (body t x).Inv) :
    (s.operate h f body).Inv := by
  unfold State.operate
  dsimp only
  split
  · exact hs
  · split
    · exact hs
    · split
      · exact hs
      · exact hs
      · split
        next heq₃ => exact hs.regAbort heq₃
        · split
          · exact hs
          · exact hbody _ _

theorem Eff.Inv.settle {h len : Nat} {x : Eff} (hx : x.Inv) : (Eff.settle h len x).Inv := by
  unfold Machine.Eff.settle
  dsimp only
  split
  · exact hx.setWeft
  · exact hx
  · exact hx.setWeft.takeTrap
  · exact hx.setWeft

theorem State.Inv.runPair (hs : s.Inv) {h : Nat} {point : Bool} {f : State → Nat → Eff} (hf : ∀ t x, t.Inv → (f t x).Inv) :
    (s.runPair h point f).Inv := by
  unfold State.runPair
  split
  next heq => exact (hf _ _ hs).of_eq heq
  · exact hs
  · split
    · exact hs
    · split
      next heq₂ _ => exact ((hf _ _ hs).of_eq heq₂).withOdd
      next heq₂ _ => exact ((hf _ _ hs).of_eq heq₂).withOdd
      · exact hf _ _ hs

theorem State.Inv.runAt (hs : s.Inv) {point : Bool} {len : Nat} {f : State → Nat → Eff} (hf : ∀ t x, t.Inv → (f t x).Inv) :
    Out.Inv (runAt point s len f) := by
  unfold Machine.runAt
  split
  · refine State.Inv.wake (Eff.Inv.settle ?_)
    split
    · exact hs.runPair fun _ _ ht => hf _ _ ht
    · exact hf _ _ hs
  · exact trivial

theorem State.Inv.runWeft (hs : s.Inv) {g : Guard} {len : Nat} {f : State → Nat → Eff} (hf : ∀ t x, t.Inv → (f t x).Inv) :
    Out.Inv (runWeft g s len f) := hs.runAt fun _ _ ht => hf _ _ ht

theorem State.Inv.runPoint (hs : s.Inv) {len : Nat} {f : State → Nat → Eff} (hf : ∀ t x, t.Inv → (f t x).Inv) :
    Out.Inv (runPoint s len f) := hs.runAt fun _ _ ht => hf _ _ ht

theorem State.Inv.writeLanes (hs : s.Inv) {h : Nat} {d : Reg} {uni : Bool} {sel : Mask} {l : List Lane} :
    (s.writeLanes h d uni sel l).Inv := by
  unfold State.writeLanes
  dsimp only
  split
  · exact hs
  · exact hs.setWeft

theorem State.Inv.writeMask (hs : s.Inv) {h : Nat} {d : Reg} {uni : Bool} {sel m : Mask} {l : List Lane} :
    (s.writeMask h d uni sel m l).Inv := by
  unfold State.writeMask
  dsimp only
  split
  · exact hs
  · split <;> exact hs.setWeft

theorem State.Inv.computed (hs : s.Inv) {f : Form} {d : Reg} {val : Weft → Nat → Cell × Flags} {h : Nat} : (computed f d val s h).Inv :=
  hs.operate fun _ _ => hs.writeLanes

theorem State.Inv.compared (hs : s.Inv) {f : Form} {d : Reg} {val : Weft → Nat → Bool × Flags} {h : Nat} : (compared f d val s h).Inv :=
  hs.operate fun _ _ => hs.writeMask

/-! ### Instructions that compute -/

theorem State.Inv.intUn (hs : s.Inv) {o : IUn} {x : Int → Int} : Out.Inv (intUn o x s) := hs.runWeft fun _ _ ht => ht.computed

theorem State.Inv.intBin (hs : s.Inv) {o : IBin} {x : Nat → Int → Int → Int} : Out.Inv (intBin o x s) :=
  hs.runWeft fun _ _ ht => ht.computed

theorem State.Inv.execIadd (hs : s.Inv) {o : IBin} : Out.Inv (execIadd o s) := hs.intBin

theorem State.Inv.execIsub (hs : s.Inv) {o : IBin} : Out.Inv (execIsub o s) := hs.intBin

theorem State.Inv.execIneg (hs : s.Inv) {o : IUn} : Out.Inv (execIneg o s) := hs.intUn

theorem State.Inv.execImul (hs : s.Inv) {o : IBin} : Out.Inv (execImul o s) := hs.intBin

theorem State.Inv.execImulhi (hs : s.Inv) {o : IBin} : Out.Inv (execImulhi o s) := hs.intBin

theorem State.Inv.execImad (hs : s.Inv) {o : ITri} : Out.Inv (execImad o s) := hs.runWeft fun _ _ ht => ht.computed

theorem State.Inv.execImin (hs : s.Inv) {o : IBin} : Out.Inv (execImin o s) := hs.intBin

theorem State.Inv.execImax (hs : s.Inv) {o : IBin} : Out.Inv (execImax o s) := hs.intBin

theorem State.Inv.execIabs (hs : s.Inv) {o : IUn} : Out.Inv (execIabs o s) := hs.intUn

theorem State.Inv.execIsel (hs : s.Inv) {o : ITri} : Out.Inv (execIsel o s) := hs.runWeft fun _ _ ht => ht.computed

theorem State.Inv.execIcmpk (hs : s.Inv) {o : ICmpArgs} : Out.Inv (execIcmpk o s) := hs.runWeft fun _ _ ht => ht.compared

theorem State.Inv.execIcmp (hs : s.Inv) {o : ICmpArgs} : Out.Inv (execIcmp o s) := hs.runWeft fun _ _ ht => ht.computed

theorem State.Inv.execLea (hs : s.Inv) {o : LeaArgs} : Out.Inv (execLea o s) := hs.runWeft fun _ _ ht => ht.computed

theorem State.Inv.bitBin (hs : s.Inv) {o : LBin} {f : Dword → Dword → Dword} : Out.Inv (bitBin o f s) :=
  hs.runWeft fun _ _ ht => ht.computed

theorem State.Inv.execAnd (hs : s.Inv) {o : LBin} : Out.Inv (execAnd o s) := hs.bitBin

theorem State.Inv.execOr (hs : s.Inv) {o : LBin} : Out.Inv (execOr o s) := hs.bitBin

theorem State.Inv.execXor (hs : s.Inv) {o : LBin} : Out.Inv (execXor o s) := hs.bitBin

theorem State.Inv.execAndn (hs : s.Inv) {o : LBin} : Out.Inv (execAndn o s) := hs.bitBin

theorem State.Inv.execNot (hs : s.Inv) {o : LUn} : Out.Inv (execNot o s) := hs.runWeft fun _ _ ht => ht.computed

theorem State.Inv.shiftOp (hs : s.Inv) {o : IBin} {f : Weft → Nat → Nat → Nat} : Out.Inv (shiftOp o f s) :=
  hs.runWeft fun _ _ ht => ht.computed

theorem State.Inv.execShl (hs : s.Inv) {o : IBin} : Out.Inv (execShl o s) := hs.runWeft fun _ _ ht => ht.computed

theorem State.Inv.execShr (hs : s.Inv) {o : IBin} : Out.Inv (execShr o s) := hs.shiftOp

theorem State.Inv.execSar (hs : s.Inv) {o : IBin} : Out.Inv (execSar o s) := hs.shiftOp

theorem State.Inv.execRot (hs : s.Inv) {o : IBin} : Out.Inv (execRot o s) := hs.shiftOp

theorem State.Inv.execBfx (hs : s.Inv) {o : IBin} : Out.Inv (execBfx o s) := hs.shiftOp

theorem State.Inv.execBfi (hs : s.Inv) {o : ITri} : Out.Inv (execBfi o s) := hs.runWeft fun _ _ ht => ht.computed

theorem State.Inv.bitUn (hs : s.Inv) {o : IUn} {f : Nat → Nat → Nat} : Out.Inv (bitUn o f s) := hs.runWeft fun _ _ ht => ht.computed

theorem State.Inv.execPopc (hs : s.Inv) {o : IUn} : Out.Inv (execPopc o s) := hs.bitUn

theorem State.Inv.execClz (hs : s.Inv) {o : IUn} : Out.Inv (execClz o s) := hs.bitUn

theorem State.Inv.execCtz (hs : s.Inv) {o : IUn} : Out.Inv (execCtz o s) := hs.bitUn

theorem State.Inv.execBrev (hs : s.Inv) {o : IUn} : Out.Inv (execBrev o s) := hs.bitUn

theorem State.Inv.fltUn (hs : s.Inv) {o : FUn} {f : FSpec → Rnd → FVal → Nat × Flags} : Out.Inv (fltUn o f s) :=
  hs.runWeft fun _ _ ht => ht.computed

theorem State.Inv.fltBin (hs : s.Inv) {o : FBin} {f : FSpec → Rnd → FVal → FVal → Nat × Flags} : Out.Inv (fltBin o f s) :=
  hs.runWeft fun _ _ ht => ht.computed

theorem State.Inv.execFadd (hs : s.Inv) {o : FBin} : Out.Inv (execFadd o s) := hs.fltBin

theorem State.Inv.execFsub (hs : s.Inv) {o : FBin} : Out.Inv (execFsub o s) := hs.fltBin

theorem State.Inv.execFmul (hs : s.Inv) {o : FBin} : Out.Inv (execFmul o s) := hs.fltBin

theorem State.Inv.execFdiv (hs : s.Inv) {o : FBin} : Out.Inv (execFdiv o s) := hs.fltBin

theorem State.Inv.execFsqrt (hs : s.Inv) {o : FUn} : Out.Inv (execFsqrt o s) := hs.fltUn

theorem State.Inv.execFfma (hs : s.Inv) {o : FTri} : Out.Inv (execFfma o s) := hs.runWeft fun _ _ ht => ht.computed

theorem State.Inv.fltMinMax (hs : s.Inv) {isMax : Bool} {o : FMinMaxArgs} : Out.Inv (fltMinMax isMax o s) :=
  hs.runWeft fun _ _ ht => ht.computed

theorem State.Inv.execFmin (hs : s.Inv) {o : FMinMaxArgs} : Out.Inv (execFmin o s) := hs.fltMinMax

theorem State.Inv.execFmax (hs : s.Inv) {o : FMinMaxArgs} : Out.Inv (execFmax o s) := hs.fltMinMax

theorem State.Inv.execFabs (hs : s.Inv) {o : FUn} : Out.Inv (execFabs o s) := hs.runWeft fun _ _ ht => ht.computed

theorem State.Inv.execFneg (hs : s.Inv) {o : FUn} : Out.Inv (execFneg o s) := hs.runWeft fun _ _ ht => ht.computed

theorem State.Inv.execFcmpk (hs : s.Inv) {o : FCmpArgs} : Out.Inv (execFcmpk o s) := hs.runWeft fun _ _ ht => ht.compared

theorem State.Inv.execFcmp (hs : s.Inv) {o : FCmpArgs} : Out.Inv (execFcmp o s) := hs.runWeft fun _ _ ht => ht.computed

theorem State.Inv.execFrint (hs : s.Inv) {o : FUn} : Out.Inv (execFrint o s) := hs.fltUn

theorem State.Inv.execFclass (hs : s.Inv) {o : FUn} : Out.Inv (execFclass o s) := hs.runWeft fun _ _ ht => ht.computed

theorem State.Inv.execFscale (hs : s.Inv) {o : FBin} : Out.Inv (execFscale o s) := hs.runWeft fun _ _ ht => ht.computed

theorem State.Inv.execFgetexp (hs : s.Inv) {o : FUn} : Out.Inv (execFgetexp o s) := hs.runWeft fun _ _ ht => ht.computed

theorem State.Inv.approxOp (hs : s.Inv) {fn : ApproxFn} {o : FUn} : Out.Inv (approxOp fn o s) := hs.runWeft fun _ _ ht => ht.computed

theorem State.Inv.execFrcp (hs : s.Inv) {o : FUn} : Out.Inv (execFrcp o s) := hs.approxOp

theorem State.Inv.execFrsq (hs : s.Inv) {o : FUn} : Out.Inv (execFrsq o s) := hs.approxOp

theorem State.Inv.execFexp2 (hs : s.Inv) {o : FUn} : Out.Inv (execFexp2 o s) := hs.approxOp

theorem State.Inv.execFlog2 (hs : s.Inv) {o : FUn} : Out.Inv (execFlog2 o s) := hs.approxOp

theorem State.Inv.execFsin (hs : s.Inv) {o : FUn} : Out.Inv (execFsin o s) := hs.approxOp

theorem State.Inv.execFcos (hs : s.Inv) {o : FUn} : Out.Inv (execFcos o s) := hs.approxOp

theorem State.Inv.packBin (hs : s.Inv) {o : FBin} {f : FSpec → Rnd → FVal → FVal → Nat × Flags} : Out.Inv (packBin o f s) :=
  hs.runWeft fun _ _ ht => ht.computed

theorem State.Inv.execPadd (hs : s.Inv) {o : FBin} : Out.Inv (execPadd o s) := hs.packBin

theorem State.Inv.execPmul (hs : s.Inv) {o : FBin} : Out.Inv (execPmul o s) := hs.packBin

theorem State.Inv.execPfma (hs : s.Inv) {o : FTri} : Out.Inv (execPfma o s) := hs.runWeft fun _ _ ht => ht.computed

theorem State.Inv.execDot8F8 (hs : s.Inv) {o : DotArgs} : Out.Inv (execDot8F8 o s) := hs.runWeft fun _ _ ht => ht.computed

theorem State.Inv.execDot8I8 (hs : s.Inv) {o : DotArgs} : Out.Inv (execDot8I8 o s) := hs.runWeft fun _ _ ht => ht.computed

theorem State.Inv.execCvt (hs : s.Inv) {o : CvtArgs} : Out.Inv (execCvt o s) := hs.runWeft fun _ _ ht => ht.computed

theorem State.Inv.execCvts (hs : s.Inv) {o : CvtsArgs} : Out.Inv (execCvts o s) := hs.runWeft fun _ _ ht => ht.computed

theorem State.Inv.execPack (hs : s.Inv) {o : PackArgs} : Out.Inv (execPack o s) := by
  unfold Machine.execPack
  refine hs.runWeft fun _ _ ht => ht.operate fun _ _ => ?_
  dsimp only
  split
  · exact ht
  · split
    · exact ht
    · exact ht.writeLanes

theorem State.Inv.execUnpack (hs : s.Inv) {o : UnpackArgs} : Out.Inv (execUnpack o s) := by
  unfold Machine.execUnpack
  refine hs.runWeft fun _ _ ht => ht.operate fun _ _ => ?_
  dsimp only
  split
  · exact ht
  · exact ht.writeLanes

theorem State.Inv.execSettag (hs : s.Inv) {o : SettagArgs} : Out.Inv (execSettag o s) := hs.runWeft fun _ _ ht => ht.computed

theorem State.Inv.execGettag (hs : s.Inv) {o : LUn} : Out.Inv (execGettag o s) := hs.runWeft fun _ _ ht => ht.computed

theorem State.Inv.execCvtk (hs : s.Inv) {o : CvtkArgs} : Out.Inv (execCvtk o s) := hs.runWeft fun _ _ ht => ht.computed

theorem State.Inv.execMov (hs : s.Inv) {o : LUn} : Out.Inv (execMov o s) := hs.runWeft fun _ _ ht => ht.computed

theorem State.Inv.execMovi96 (hs : s.Inv) {o : Movi96Args} : Out.Inv (execMovi96 o s) := hs.runWeft fun _ _ ht => ht.computed

theorem State.Inv.execMovi128 (hs : s.Inv) {o : Movi128Args} : Out.Inv (execMovi128 o s) := hs.runWeft fun _ _ ht => ht.computed

theorem State.Inv.execSel (hs : s.Inv) {o : SelArgs} : Out.Inv (execSel o s) := hs.runWeft fun _ _ ht => ht.computed

theorem State.Inv.execBcast (hs : s.Inv) {o : BcastArgs} : Out.Inv (execBcast o s) :=
  hs.runWeft fun _ _ ht => ht.operate fun _ _ => ht.writeLanes

theorem State.Inv.maskOp (hs : s.Inv) {f : Form} {d : Reg} {m : Weft → Mask} : Out.Inv (maskOp f d m s) :=
  hs.runWeft fun _ _ ht => ht.operate fun _ _ => ht.writeMask

theorem State.Inv.execMovkFromScalar (hs : s.Inv) {o : LUn} : Out.Inv (execMovkFromScalar o s) := hs.maskOp

theorem State.Inv.execMovkImmediate (hs : s.Inv) {o : MovkImmArgs} : Out.Inv (execMovkImmediate o s) :=
  hs.runWeft fun _ _ ht => ht.operate fun _ _ => ht.writeMask

theorem State.Inv.execMovkToScalar (hs : s.Inv) {o : MovkToArgs} : Out.Inv (execMovkToScalar o s) :=
  hs.runWeft fun _ _ ht => ht.operate fun _ _ => ht.writeLanes

theorem State.Inv.kBin (hs : s.Inv) {o : KBin} {f : Mask → Mask → Mask} : Out.Inv (kBin o f s) := hs.maskOp

theorem State.Inv.execKand (hs : s.Inv) {o : KBin} : Out.Inv (execKand o s) := hs.kBin

theorem State.Inv.execKor (hs : s.Inv) {o : KBin} : Out.Inv (execKor o s) := hs.kBin

theorem State.Inv.execKxor (hs : s.Inv) {o : KBin} : Out.Inv (execKxor o s) := hs.kBin

theorem State.Inv.execKnot (hs : s.Inv) {o : KUn} : Out.Inv (execKnot o s) := hs.maskOp

theorem State.Inv.execKpopc (hs : s.Inv) {o : KpopcArgs} : Out.Inv (execKpopc o s) :=
  hs.runWeft fun _ _ ht => ht.operate fun _ _ => ht.writeLanes

/-! ### Cross-lane operations (R161 to R166) -/

theorem State.Inv.crossOut (hs : s.Inv) {h : Nat} {d : Reg} {sel m : Mask} {sc : Cell} {v : Nat → Cell} :
    (s.crossOut h d sel m sc v).Inv := by
  unfold State.crossOut
  split <;> exact hs.setWeft

theorem State.Inv.execVote (hs : s.Inv) {o : VoteArgs} : Out.Inv (execVote o s) :=
  hs.runWeft fun _ _ ht => ht.operate fun _ _ => ht.crossOut

theorem State.Inv.execBallot (hs : s.Inv) {o : LUn} : Out.Inv (execBallot o s) := hs.runWeft fun _ _ ht => ht.operate fun _ _ => ht.crossOut

theorem State.Inv.execLxch (hs : s.Inv) {o : LxchArgs} : Out.Inv (execLxch o s) := hs.runWeft fun _ _ ht => ht.operate fun _ _ => ht.setWeft

theorem State.Inv.execScan (hs : s.Inv) {o : ScanArgs} : Out.Inv (execScan o s) :=
  hs.runWeft fun _ _ ht => ht.operate fun _ _ => ht.writeLanes

theorem State.Inv.execReduce (hs : s.Inv) {o : ReduceArgs} : Out.Inv (execReduce o s) :=
  hs.runWeft fun _ _ ht => ht.operate fun _ _ => ht.writeLanes

theorem State.Inv.execMatchLanes (hs : s.Inv) {o : MatchArgs} : Out.Inv (execMatchLanes o s) :=
  hs.runWeft fun _ _ ht => ht.operate fun _ _ => ht.crossOut

theorem State.Inv.execElect (hs : s.Inv) {o : ElectArgs} : Out.Inv (execElect o s) :=
  hs.runWeft fun _ _ ht => ht.operate fun _ _ => ht.crossOut

theorem State.Inv.execCompact (hs : s.Inv) {o : CompactArgs} : Out.Inv (execCompact o s) :=
  hs.runWeft fun _ _ ht => ht.operate fun _ _ => ht.setWeft

/-! ### Control flow and the return from a trap (R155 to R160, R181) -/

theorem State.Inv.execBra (hs : s.Inv) {o : BraArgs} : Out.Inv (execBra o s) := by
  unfold Machine.execBra
  refine hs.runPoint fun _ _ ht => ht.operate fun _ _ => ?_
  dsimp only
  split
  · exact ht
  · exact ht.setWeft

theorem State.Inv.codeRead (hs : s.Inv) {w : Weft} {pa n : Nat} : (s.codeRead w pa n).1.Inv := by
  unfold State.codeRead
  dsimp only
  split
  · split
    · dsimp only
      exact hs.setCore.errEvent
    · split
      next heq => exact hs.setCore.errEvent.homeRead.fst heq
      next heq => exact (hs.setCore.errEvent.homeRead.fst heq).setCore
  · split
    · exact hs
    · split
      next heq => exact hs.homeRead.fst heq
      next heq => exact (hs.homeRead.fst heq).setCore

theorem State.Inv.codeWord (hs : s.Inv) {w : Weft} {va : Nat} {m : Mask} : (s.codeWord w va m).1.Inv := by
  unfold State.codeWord
  split
  next heq => exact hs.translate.fst heq
  next heq => exact hs.translate.fst heq
  next heq =>
    have ht := hs.translate.fst heq
    split
    next heq' => exact ht.codeRead.fst heq'
    next heq' => exact ht.codeRead.fst heq'

theorem State.Inv.brxTargets (hs : s.Inv) {w : Weft} {T : Nat} {idx : Nat → Nat} {x : List Nat} {y : List (Nat × Int)} :
    (s.brxTargets w T idx x y).1.Inv := by
  fun_induction State.brxTargets
  · exact hs
  next heq => exact hs.codeWord.fst heq
  next heq => exact hs.codeWord.fst heq
  next heq ih => exact ih (hs.codeWord.fst heq)

theorem State.Inv.brxGo (hs : s.Inv) {h : Nat} {w : Weft} {o : BrxArgs} {sel : Mask} {l : List (Nat × Int)} :
    (s.brxGo h w o sel l).Inv := by
  unfold State.brxGo
  dsimp only
  split
  · exact hs
  · exact hs.setWeft

theorem State.Inv.execBrx (hs : s.Inv) {o : BrxArgs} : Out.Inv (execBrx o s) := by
  unfold Machine.execBrx
  refine hs.runPoint fun _ _ ht => ht.operate fun _ _ => ?_
  dsimp only
  split
  next heq' => exact ht.codeWord.fst heq'
  next heq' => exact ht.codeWord.fst heq'
  next heq' =>
    have hu := ht.codeWord.fst heq'
    split
    · exact hu
    · split
      next heq₃ => exact hu.brxTargets.fst heq₃
      next heq₃ => exact hu.brxTargets.fst heq₃
      next heq₃ => exact (hu.brxTargets.fst heq₃).brxGo

theorem State.Inv.transfer (hs : s.Inv) {h : Nat} {w : Weft} {x : Int} {sel : Mask} : (s.transfer h w x sel).Inv := by
  unfold State.transfer
  split
  · exact hs.setWeft
  · exact hs

theorem State.Inv.execCall (hs : s.Inv) {o : CallArgs} : Out.Inv (execCall o s) :=
  hs.runPoint fun _ _ ht => ht.operate fun _ _ => ht.transfer

theorem State.Inv.execCallR (hs : s.Inv) {o : CallRArgs} : Out.Inv (execCallR o s) :=
  hs.runPoint fun _ _ ht => ht.operate fun _ _ => ht.transfer

theorem State.Inv.execRet (hs : s.Inv) {o : RetArgs} : Out.Inv (execRet o s) := hs.runPoint fun _ _ ht => ht.operate fun _ _ => ht.transfer

theorem State.Inv.execJoin (hs : s.Inv) {o : JoinArgs} : Out.Inv (execJoin o s) := hs.runWeft fun _ _ ht => ht.operate fun _ _ => ht.setWeft

theorem State.Inv.execExit (hs : s.Inv) {o : PlainArgs} : Out.Inv (execExit o s) :=
  hs.runPoint fun _ _ ht => ht.operate fun _ _ => ht.setWeft.exit

theorem State.Inv.execYield (hs : s.Inv) {o : PlainArgs} : Out.Inv (execYield o s) :=
  hs.runWeft fun _ _ ht => ht.operate fun _ _ => ht.setWeft

theorem State.Inv.execNop (hs : s.Inv) {o : PlainArgs} : Out.Inv (execNop o s) := hs.runWeft fun _ _ ht => ht.operate fun _ _ => ht

theorem State.Inv.execBrk (hs : s.Inv) {o : CodeArgs} : Out.Inv (execBrk o s) := hs.runWeft fun _ _ ht => ht.operate fun _ _ => ht

theorem State.Inv.execTrap (hs : s.Inv) {o : CodeArgs} : Out.Inv (execTrap o s) := hs.runWeft fun _ _ ht => ht.operate fun _ _ => ht

theorem State.Inv.execRft (hs : s.Inv) {o : PlainArgs} : Out.Inv (execRft o s) := by
  unfold Machine.execRft
  refine hs.runWeft fun _ _ ht => ht.operate fun _ _ => ?_
  dsimp only
  split
  · exact ht.setWeft
  · exact ht

/-! ### Memory access (R187 to R200) -/

theorem State.Inv.place1 (hs : s.Inv) {w : Weft} {va : Nat} {k : XKind} {who : Mask} : (s.place1 w va k who).1.Inv := by
  unfold State.place1
  split
  next heq => exact hs.translate.fst heq
  next heq => exact hs.translate.fst heq
  next heq => exact hs.translate.fst heq

theorem State.Inv.resolveFrom {s0 : State} (hs0 : s0.Inv) {w : Weft} {r : Rec} {k : XKind} {scaled : Bool} {l : List Elem}
    {acc : List ELoc} (hs : s.Inv) :
    (s0.resolveFrom s w r k scaled l acc).1.Inv := by
  induction l generalizing s acc with
  | nil => exact hs
  | cons x rest ih =>
    unfold State.resolveFrom
    dsimp only
    split
    · split
      · exact ih hs
      · exact hs0
    · split
      · exact hs0.place1
      next heq =>
        have hu := hs.place1.fst heq
        split
        · exact ih hu
        · split
          · exact hs0.place1
          next heq => exact ih (hu.place1.fst heq)

theorem State.Inv.resolve (hs : s.Inv) {w : Weft} {r : Rec} {k : XKind} {scaled : Bool} {l : List Elem} {acc : List ELoc} :
    (s.resolve w r k scaled l acc).1.Inv := hs.resolveFrom hs

theorem State.Inv.access (hs : s.Inv) {h : Nat} {f : Form} {body : Weft → Mask → Eff} (hbody : ∀ t x, (body t x).Inv) :
    (s.access h f body).Inv := by
  unfold State.access
  refine hs.operate fun _ _ => ?_
  split
  · exact hs
  · exact hbody _ _

theorem State.Inv.releaseDomain (hs : s.Inv) {h : Nat} {sel : Mask} : (s.releaseDomain h sel).Inv := by
  unfold State.releaseDomain
  dsimp only
  split
  · split
    next heq' => exact hs.takeFailure heq'
    · split
      · exact hs.markAll
      · exact hs.markAll.setWeft
  · split
    · exact hs
    · split
      next heq₂ => exact hs.takeFailure heq₂
      · exact hs.setWeft

theorem State.Inv.release (hs : s.Inv) {h : Nat} {sel : Mask} {sc : Scope} : (s.release h sel sc).Inv := by
  unfold State.release
  dsimp only
  split
  · exact hs
  · split
    · exact hs
    · split
      · exact hs
      · split
        · exact hs.releaseDomain
        · exact hs

theorem State.Inv.releasing (hs : s.Inv) {h : Nat} {sel : Mask} {sc : Option Scope} {next : State → Eff}
    (hnext : ∀ t, t.Inv → (next t).Inv) :
    (s.releasing h sel sc next).Inv := by
  unfold State.releasing
  split
  · exact hnext _ hs
  · split
    next heq' => exact hnext _ (hs.release.of_eq heq')
    next heq' => exact hs.release.of_eq heq'
    next heq' => exact hs.release.of_eq heq'

theorem State.Inv.acquiresNow (hs : s.Inv) {core : Nat} {sc : Option Scope} : (s.acquiresNow core sc).Inv := by
  unfold State.acquiresNow
  split
  · exact hs
  · exact hs.acquire

theorem State.Inv.pushStores (hs : s.Inv) {h : Nat} {l : List (Nat × List Byte)} : (s.pushStores h l).Inv := hs.frame

theorem State.Inv.setFolds (hs : s.Inv) {x : Space} {l : List OrdFold} : (s.setFolds x l).Inv := by
  unfold State.setFolds
  dsimp only
  split
  · exact hs.setBolt
  · exact hs.setCourse

theorem State.Inv.spaceSplit (hs : s.Inv) {x : Space} {off n : Nat} : (s.spaceSplit x off n).Inv := .ite hs hs.setFolds

theorem State.Inv.spaceSplits (hs : s.Inv) {x : Space} {l : List (Nat × Nat)} : (s.spaceSplits x l).Inv :=
  .foldl hs fun _ _ ht => ht.spaceSplit

theorem State.Inv.spaceError (hs : s.Inv) {consumer : Nat} {x : Space} {off n : Nat} : (s.spaceError consumer x off n).Inv := hs.errEvent

theorem State.Inv.spaceWrite (hs : s.Inv) {x : Space} {off : Nat} {l : List Byte} : (s.spaceWrite x off l).Inv := by
  unfold State.spaceWrite
  dsimp only
  split
  · exact hs.spaceSplit.errEvent
  · split
    · exact hs.spaceSplit.setBolt
    · exact hs.spaceSplit.setCourse

theorem State.Inv.issueReady (hs : s.Inv) {h : Nat} {d : Reg} {sel : Mask} {cells : List (Nat × Cell)} {dead : Mask} :
    (s.issueReady h d sel cells dead).Inv := hs.frame

theorem State.Inv.issueFlight (hs : s.Inv) {h : Nat} {d : Reg} {sel m : Mask} {k : FlightKind} : (s.issueFlight h d sel m k).Inv := hs.frame

/-! ### Barriers and declared buffers (R239 to R250) -/

theorem State.Inv.barAt (hs : s.Inv) {bolt : Option Src} {off : Src} {add : Option (BitVec 32)} {align : Nat}
    {body : State → Weft → Mask → Nat → Nat → Eff} {w : Weft} {sel : Mask} (hbody : ∀ t x y z v, t.Inv → (body t x y z v).Inv) :
    (s.barAt bolt off add align body w sel).Inv := by
  unfold State.barAt
  split
  · exact hs
  · exact hbody _ _ _ _ _ hs

theorem State.Inv.barOp (hs : s.Inv) {g : Guard} {bolt : Option Src} {off : Src} {ops : List Opnd} {add : Option (BitVec 32)} {align : Nat}
    {body : State → Weft → Mask → Nat → Nat → Eff} {h : Nat} (hbody : ∀ t x y z v, t.Inv → (body t x y z v).Inv) :
    (barOp g bolt off ops add align body s h).Inv := hs.access fun _ _ => hs.barAt fun _ _ _ _ _ hu => hbody _ _ _ _ _ hu

theorem State.Inv.objRead (hs : s.Inv) {w : Weft} {b f : Nat} {sel : Mask} {next : Eff} (hnext : next.Inv) :
    (s.objRead w b f sel next).Inv := by
  unfold State.objRead
  split
  · exact Eff.Inv.trap hs.errEvent
  · exact hnext

theorem State.Inv.answered (hs : s.Inv) {h : Nat} {d : Reg} {x : Nat} : (s.answered h d x).Inv := hs.frame

theorem State.Inv.answer (hs : s.Inv) {h : Nat} {d : Reg} {x : Nat} : (s.answer h d x).Inv := hs.answered

theorem State.Inv.phaseAcquire (hs : s.Inv) {core owner off : Nat} {p : Word32} : (s.phaseAcquire core owner off p).Inv :=
  .ite hs.acquireL1 hs

theorem State.Inv.holdPhase (hs : s.Inv) {h owner off : Nat} {p : Word32} {wt : Wait} : (s.holdPhase h owner off p wt).Inv := hs.setWeft

theorem State.Inv.phaseWait (hs : s.Inv) {h owner off : Nat} {p : Word32} {sel : Mask} {wt : Wait} {next : State → Eff}
    (hnext : ∀ t, t.Inv → (next t).Inv) :
    (s.phaseWait h owner off p sel wt next).Inv := by
  unfold State.phaseWait
  dsimp only
  split
  · exact hnext _ hs.phaseAcquire
  · split
    · exact hs
    · exact hs.holdPhase

theorem State.Inv.barCreate (hs : s.Inv) {owner off : Nat} {crs : Bool} {pmask n : Nat} : (s.barCreate owner off crs pmask n).Inv :=
  hs.frame

theorem State.Inv.barinitOp (hs : s.Inv) {o : BarinitArgs} {x : Nat} : (barinitOp o s x).Inv := by
  unfold Machine.barinitOp
  refine hs.barOp fun _ _ _ _ _ ht => ?_
  dsimp only
  split
  · exact ht
  · split
    · exact ht.answer
    · exact ht.releasing fun _ ht => State.Inv.answer (.barCreate (.ite ht ht.barInvalidate))

theorem State.Inv.execBarinit (hs : s.Inv) {o : BarinitArgs} : Out.Inv (execBarinit o s) := hs.runWeft fun _ _ ht => ht.barinitOp

theorem State.Inv.execBarinval (hs : s.Inv) {o : BarinvalArgs} : Out.Inv (execBarinval o s) :=
  hs.runWeft fun _ _ ht => ht.barOp fun _ _ _ _ _ hu => State.Inv.ite hu hu.barInvalidate

theorem State.Inv.barHappen (hs : s.Inv) {h owner off : Nat} {t : Mask} {bytes : Option Nat} : (s.barHappen h owner off t bytes).Inv := by
  unfold State.barHappen
  refine .barCheck (.ite ?_ (.barArrive ?_))
  · split
    · exact hs.barExpect
    · exact hs
  · split
    · exact hs.barExpect
    · exact hs

theorem State.Inv.barEvent (hs : s.Inv) {h : Nat} {d : Reg} {owner off : Nat} {t : Mask} {bytes : Option Nat} :
    (s.barEvent h d owner off t bytes).Inv := hs.barHappen.answer

theorem State.Inv.afterWait (hs : s.Inv) {w : Weft} {owner off : Nat} : (s.afterWait w owner off).Inv := by
  unfold State.afterWait
  split
  · exact hs.phaseAcquire
  · exact hs

theorem State.Inv.barDo (hs : s.Inv) {arr : Option Bool} {bytes : Option (Weft → Nat)} {d : Reg} {h : Nat} {w : Weft} {sel : Mask}
    {b f : Nat} :
    (barDo arr bytes d s h w sel b f).Inv := by
  unfold Machine.barDo
  dsimp only
  split
  · exact hs
  · split
    · exact hs
    · split
      · split
        · exact hs
        · split
          · exact hs.barEvent
          · split
            · exact hs.holdPhase
            · exact hs.afterWait.releasing fun _ ht => ht.barEvent
      · split
        · exact hs
        · split
          · exact hs.barEvent
          · split
            · exact hs.holdPhase
            · exact hs.afterWait.releasing fun _ ht => ht.barEvent

theorem State.Inv.execBararrive (hs : s.Inv) {o : BararriveArgs} : Out.Inv (execBararrive o s) :=
  hs.runWeft fun _ _ ht => ht.barOp fun _ _ _ _ _ hu => hu.objRead hu.barDo

theorem State.Inv.execBarexpect (hs : s.Inv) {o : BarexpectArgs} : Out.Inv (execBarexpect o s) :=
  hs.runWeft fun _ _ ht => ht.barOp fun _ _ _ _ _ hu => hu.objRead hu.barDo

theorem State.Inv.execBarwait (hs : s.Inv) {o : BarwaitArgs} : Out.Inv (execBarwait o s) :=
  hs.runWeft fun _ _ ht => ht.barOp fun _ _ _ _ _ hu => hu.objRead (hu.phaseWait fun _ hv => hv)

theorem State.Inv.execBarphase (hs : s.Inv) {o : BarphaseArgs} : Out.Inv (execBarphase o s) :=
  hs.runWeft fun _ _ ht => ht.operate fun _ _ => ht.barAt fun _ _ _ _ _ hv => hv.objRead hv.answer

theorem State.Inv.bufdeclOp (hs : s.Inv) {o : BufdeclArgs} {x : Nat} : (bufdeclOp o s x).Inv := by
  unfold Machine.bufdeclOp
  refine hs.barOp fun _ _ _ _ _ ht => ht.objRead ?_
  dsimp only
  split
  · exact ht
  · split
    · exact ht
    · split
      · exact ht
      · split
        · exact ht
        · split
          · exact ht.answer
          · exact ht.setBolt.answer

theorem State.Inv.execBufdecl (hs : s.Inv) {o : BufdeclArgs} : Out.Inv (execBufdecl o s) := hs.runWeft fun _ _ ht => ht.bufdeclOp

theorem State.Inv.bufOp (hs : s.Inv) {g : Guard} {base : Src} {ops : List Opnd} {add : Option (BitVec 32)}
    {body : State → Weft → Mask → Nat → DBuf → Eff} {h : Nat} (hbody : ∀ t x y z v, t.Inv → (body t x y z v).Inv) :
    (bufOp g base ops add body s h).Inv := by
  unfold Machine.bufOp
  refine hs.barOp fun _ _ _ _ _ ht => ?_
  split
  · exact hbody _ _ _ _ _ ht
  · exact ht

theorem State.Inv.bufWait (hs : s.Inv) {h b : Nat} {d : DBuf} {sel : Mask} {next : State → Eff} (hnext : ∀ t, t.Inv → (next t).Inv) :
    (s.bufWait h b d sel next).Inv := hs.objRead (hs.phaseWait fun _ ht => hnext _ ht)

theorem State.Inv.execBufrel (hs : s.Inv) {o : BufrelArgs} : Out.Inv (execBufrel o s) := by
  unfold Machine.execBufrel
  refine hs.runWeft fun _ _ ht => ht.bufOp fun _ _ _ _ _ hu => ?_
  dsimp only
  split
  · exact hu.afterWait.setBolt
  · exact hu.bufWait fun _ ht => ht.setBolt

theorem State.Inv.bufSet (hs : s.Inv) {b : Nat} {d : DBuf} {act : BufAct} : (s.bufSet b d act).Inv := hs.frame

theorem State.Inv.bufstateOp (hs : s.Inv) {op : BufOp} {o : BufstateArgs} {h : Nat} : (bufstateOp op o s h).Inv := by
  unfold Machine.bufstateOp
  refine hs.bufOp fun _ _ _ _ _ ht => ?_
  dsimp only
  split
  · exact ht
  · exact ht.bufWait fun _ ht => ht.releasing fun _ hu => hu.bufSet.answer
  · exact ht.afterWait.releasing fun _ ht => ht.bufSet.answer

theorem State.Inv.execBufstateGet (hs : s.Inv) {o : BufstateArgs} : Out.Inv (execBufstateGet o s) := hs.runWeft fun _ _ ht => ht.bufstateOp

theorem State.Inv.execBufstateFill (hs : s.Inv) {o : BufstateArgs} : Out.Inv (execBufstateFill o s) :=
  hs.runWeft fun _ _ ht => ht.bufstateOp

theorem State.Inv.execBufstateDrain (hs : s.Inv) {o : BufstateArgs} : Out.Inv (execBufstateDrain o s) :=
  hs.runWeft fun _ _ ht => ht.bufstateOp

theorem State.Inv.execBufstateFree (hs : s.Inv) {o : BufstateArgs} : Out.Inv (execBufstateFree o s) :=
  hs.runWeft fun _ _ ht => ht.bufstateOp

theorem State.Inv.execBufstateWfull (hs : s.Inv) {o : BufstateArgs} : Out.Inv (execBufstateWfull o s) :=
  hs.runWeft fun _ _ ht => ht.bufstateOp

theorem State.Inv.execBufstateWfree (hs : s.Inv) {o : BufstateArgs} : Out.Inv (execBufstateWfree o s) :=
  hs.runWeft fun _ _ ht => ht.bufstateOp

/-! ### Landings, aborts and polls (R93, R109, R192, R206, R310) -/

theorem State.Inv.readHome (hs : s.Inv) {h pa k consumer : Nat} {l1 : Bool} : (s.readHome h pa k consumer l1).1.Inv := by
  unfold State.readHome
  dsimp only
  split
  next heq => exact hs.homeRead.fst heq
  next heq =>
    have ht := hs.homeRead.fst heq
    split
    · exact ht.fillL1
    · exact ht.dropLine

theorem State.Inv.mendL1 (hs : s.Inv) {core line : Nat} : (s.mendL1 core line).Inv := .ite hs.dropLine.errEvent hs

theorem State.Inv.readCached (hs : s.Inv) {h pa k consumer : Nat} {l1 : Bool} : (s.readCached h pa k consumer l1).1.Inv := by
  unfold State.readCached
  dsimp only
  split
  · split
    · exact hs.mendL1.readHome
    · split
      · exact hs.mendL1
      · split
        · exact hs.mendL1.choose
        · exact hs.mendL1.choose.readHome
  · exact .readHome (.ite hs.mendL1.noteMiss hs.mendL1)

theorem State.Inv.loadBytes (hs : s.Inv) {h fid pa k consumer : Nat} {l1 : Bool} : (s.loadBytes h fid pa k consumer l1).1.Inv := by
  unfold State.loadBytes
  dsimp only
  split
  · exact hs
  · split
    next heq' => exact hs.readCached.fst heq'
    next heq' => exact hs.readCached.fst heq'

theorem State.Inv.readScale (hs : s.Inv) {x : LoadIn} {a : Option Nat} : (s.readScale x a).1.Inv := by
  unfold State.readScale
  split
  · exact hs
  · exact hs.loadBytes

theorem State.Inv.readElem (hs : s.Inv) {x : LoadIn} {e : ELoc} : (s.readElem x e).1.Inv := by
  unfold State.readElem
  dsimp only
  split
  · exact hs
  · split
    next heq' => exact hs.loadBytes.fst heq'
    next heq' =>
      have ht := hs.loadBytes.fst heq'
      split
      next heq₂ => exact ht.readScale.fst heq₂
      next heq₂ => exact ht.readScale.fst heq₂

theorem State.Inv.readElems (hs : s.Inv) {x : LoadIn} {y : List ELoc} : (s.readElems x y).1.Inv := by
  fun_induction State.readElems
  · exact hs
  next heq => exact hs.readElem.fst heq
  next heq _ heq₂ ih => exact (ih (hs.readElem.fst heq)).fst heq₂
  next heq _ _ _ heq₂ ih => exact (ih (hs.readElem.fst heq)).fst heq₂

theorem State.Inv.readMxScale (hs : s.Inv) {x : LoadIn} {l : List ELoc} : (s.readMxScale x l).1.Inv := by
  unfold State.readMxScale
  split
  · split
    · split
      next heq₂ => exact hs.loadBytes.fst heq₂
      next heq₂ => exact hs.loadBytes.fst heq₂
    · exact hs
  · exact hs

theorem State.Inv.readLane (hs : s.Inv) {x : LoadIn} {l : List ELoc} : (s.readLane x l).1.Inv := by
  unfold State.readLane
  dsimp only
  split
  next heq => exact hs.readElems.fst heq
  next heq =>
    have ht := hs.readElems.fst heq
    split
    next heq' => exact ht.readMxScale.fst heq'
    next heq' => exact ht.readMxScale.fst heq'

theorem State.Inv.landLane (hs : s.Inv) {h fid : Nat} {d : Reg} {t : Nat} {r : Option (Cell × Flags)} : (s.landLane h fid d t r).Inv := by
  unfold State.landLane
  split <;> exact hs.mapWeft

theorem State.Inv.landAtom (hs : s.Inv) {h : Nat} {f : Flight} {d : Reg} {op : AtomOp} {ord : Bool} {q : AtomReq} :
    (s.landAtom h f d op ord q).Inv := by
  unfold State.landAtom
  split
  · exact hs.landLane
  next pa _ =>
    have hp : (if ord then s.homeOrdered h f.fid q pa else
        s.homeAtom op (atomBytes q.tag) false pa q.a.toNat q.c1.toNat (s.asidOf (s.weft h))).1.Inv := by
      split
      · exact hs.homeOrdered
      · exact hs.homeAtom
    split
    next heq => exact (hp.fst heq).landLane
    next heq => exact (hp.fst heq).dropLine.landLane

theorem State.Inv.landFlight (hs : s.Inv) {h : Nat} {f : Flight} {m : Mask} : (s.landFlight h f m).Inv := by
  unfold State.landFlight
  dsimp only
  split
  · exact .foldl hs.acquiresNow fun _ _ ht => ht.readLane.landLane
  · exact .acquiresNow (.foldl hs fun _ _ ht => ht.landAtom)
  · exact .foldl hs fun _ _ ht => ht.landLane
  · exact hs

theorem State.Inv.eachFlight (hs : s.Inv) {h fid : Nat} {f : State → Flight → State} (hf : ∀ t x, t.Inv → (f t x).Inv) :
    (s.eachFlight h fid f).Inv := by
  unfold State.eachFlight
  refine hs.both fun _ ht => ?_
  split
  · exact hf _ _ ht
  · exact ht

theorem State.Inv.execLoadDataLands (hs : s.Inv) {w fid : Nat} {mask : Mask} : Out.Inv (execLoadDataLands w fid mask s) := by
  unfold Machine.execLoadDataLands
  split
  · split
    · exact State.Inv.wake (hs.eachFlight fun _ _ ht => ht.landFlight)
    · exact hs
  · exact hs

theorem State.Inv.execDecodeLands (hs : s.Inv) {w fid : Nat} : Out.Inv (execDecodeLands w fid s) := by
  unfold Machine.execDecodeLands
  split
  · split
    · exact State.Inv.wake (hs.eachFlight fun _ _ ht => ht.mapWeft)
    · exact hs
  · exact hs

theorem State.Inv.execAbortCompletion (hs : s.Inv) {w fid : Nat} : Out.Inv (execAbortCompletion w fid s) := by
  unfold Machine.execAbortCompletion
  dsimp only
  split
  · split
    · exact hs
    · split
      · exact State.Inv.wake (hs.eachFlight fun _ _ ht => ht.mapWeft)
      · exact State.Inv.wake (.kill (hs.eachFlight fun _ _ ht => ht.mapWeft))
  · exact hs

theorem State.Inv.execWaitvPoll (hs : s.Inv) {w fid : Nat} : Out.Inv (execWaitvPoll w fid s) := by
  unfold Machine.execWaitvPoll
  split
  · exact hs.pollFlight.wake
  · exact hs

theorem State.Inv.execHomeSliceAccess (hs : s.Inv) {core idx : Nat} : Out.Inv (execHomeSliceAccess core idx s) := by
  unfold Machine.execHomeSliceAccess
  dsimp only
  split
  · split
    · exact hs.setCore.homeWrite.setCore.wake
    · exact hs
  · exact hs

/-! ### The memory instructions (R189, R196 to R209) -/

theorem State.Inv.loadOp (hs : s.Inv) {once : Bool} {o : LdArgs} {h : Nat} : (loadOp once o s h).Inv := by
  unfold Machine.loadOp
  refine hs.access fun _ _ => ?_
  dsimp only
  split
  · exact hs
  · exact hs
  · split
    · exact hs
    · split
      next heq₃ => exact hs.resolve.fst heq₃
      next heq₃ => exact hs.resolve.fst heq₃
      next heq₃ => exact (hs.resolve.fst heq₃).issueFlight

theorem State.Inv.execLd (hs : s.Inv) {o : LdArgs} : Out.Inv (execLd o s) := hs.runWeft fun _ _ ht => ht.loadOp

theorem State.Inv.execLdu (hs : s.Inv) {o : LdArgs} : Out.Inv (execLdu o s) := hs.runWeft fun _ _ ht => ht.loadOp

theorem State.Inv.placeBytesAt (hs : s.Inv) {w : Weft} {who : Mask} {x y : Nat} {z : List Byte} {u : List (Nat × List Byte)} :
    (s.placeBytesAt w who x y z u).1.Inv := by
  fun_induction State.placeBytesAt
  · exact hs
  · exact hs
  next heq => exact hs.place1.fst heq
  next heq ih => exact ih (hs.place1.fst heq)

theorem State.Inv.placeWrites (hs : s.Inv) {w : Weft} {x : List (Nat × List Byte × Mask)} {y : List (Nat × List Byte)} :
    (s.placeWrites w x y).1.Inv := by
  fun_induction State.placeWrites
  · exact hs
  next heq => exact hs.placeBytesAt.fst heq
  next heq ih => exact ih (hs.placeBytesAt.fst heq)

theorem State.Inv.storeOp (hs : s.Inv) {once : Bool} {o : StArgs} {h : Nat} : (storeOp once o s h).Inv := by
  unfold Machine.storeOp
  refine hs.access fun _ _ => ?_
  dsimp only
  split
  · exact hs
  · exact hs
  · split
    · exact hs
    · split
      next heq₃ => exact hs.resolve.fst heq₃
      next heq₃ => exact hs.resolve.fst heq₃
      next heq₃ =>
        have hu := hs.resolve.fst heq₃
        split
        · split
          · exact hs
          · exact hs.place1
          next heq₅ => exact (hu.placeWrites.fst heq₅).releasing fun _ ht => ht.setWeft.pushStores
        · exact hu.releasing fun _ ht => ht.setWeft.pushStores

theorem State.Inv.execSt (hs : s.Inv) {o : StArgs} : Out.Inv (execSt o s) := hs.runPoint fun _ _ ht => ht.storeOp

theorem State.Inv.execStu (hs : s.Inv) {o : StArgs} : Out.Inv (execStu o s) := hs.runPoint fun _ _ ht => ht.storeOp

theorem State.Inv.accError (hs : s.Inv) {a : SAcc} : (s.accError a).Inv := hs.spaceError

theorem State.Inv.issueSpaceLoad (hs : s.Inv) {h : Nat} {d : Reg} {sel : Mask} {kind : Nat} {l : List SAcc} :
    (s.issueSpaceLoad h d sel kind l).Inv := .issueReady (.foldl (.foldl hs fun _ _ ht => ht.spaceSplit) fun _ _ ht => ht.accError)

theorem State.Inv.spaceLoad (hs : s.Inv) {g : Guard} {kind : Nat} {acq : Option Scope} {x : Target} {xops : List Opnd} {d : Reg}
    {off : Src} {add : Option (BitVec 32)} {h : Nat} :
    (spaceLoad g kind acq x xops d off add s h).Inv := by
  unfold Machine.spaceLoad
  refine hs.access fun _ _ => ?_
  split
  · exact hs
  · exact hs.issueSpaceLoad.acquiresNow

theorem State.Inv.execLds (hs : s.Inv) {o : LdsArgs} : Out.Inv (execLds o s) := hs.runWeft fun _ _ ht => ht.spaceLoad

theorem State.Inv.execLdv (hs : s.Inv) {o : LdvArgs} : Out.Inv (execLdv o s) := hs.runWeft fun _ _ ht => ht.spaceLoad

theorem State.Inv.spaceStore (hs : s.Inv) {g : Guard} {size : Nat} {rel : Option Scope} {x : Target} {xops : List Opnd} {off : Src}
    {add : Option (BitVec 32)} {data : Src} {h : Nat} :
    (spaceStore g size rel x xops off add data s h).Inv := by
  unfold Machine.spaceStore
  refine hs.access fun _ _ => ?_
  split
  · exact hs
  · exact hs.releasing fun _ ht => State.Inv.foldl ht fun _ _ hu => hu.spaceWrite

theorem State.Inv.execSts (hs : s.Inv) {o : StsArgs} : Out.Inv (execSts o s) := hs.runPoint fun _ _ ht => ht.spaceStore

theorem State.Inv.execStv (hs : s.Inv) {o : StvArgs} : Out.Inv (execStv o s) := hs.runPoint fun _ _ ht => ht.spaceStore

theorem State.Inv.atomChecked (hs : s.Inv) {w : Weft} {sel : Mask} {o : AtomIn} {next : State → AtomAt → Eff}
    (hnext : ∀ t x, t.Inv → (next t x).Inv) :
    (s.atomChecked w sel o next).Inv := by
  unfold State.atomChecked
  dsimp only
  split
  · exact hs
  · split
    · split
      · exact hs
      · split
        · exact hs
        · split
          next heq₄ => exact hs.resolve.fst heq₄
          next heq₄ => exact hs.resolve.fst heq₄
          next heq₄ => exact hnext _ _ (hs.resolve.fst heq₄)
    · split
      · exact hs
      · exact hnext _ _ hs

theorem State.Inv.spaceAtom (hs : s.Inv) {w : Weft} {o : AtomIn} {a : SAcc} : (s.spaceAtom w o a).1.Inv := by
  unfold State.spaceAtom
  dsimp only
  split
  · exact hs.accError
  · exact hs.spaceWrite

theorem State.Inv.spaceAddend (hs : s.Inv) {x : Space} {off : Nat} {e : RedEntry} : (s.spaceAddend x off e).Inv := hs.spaceWrite.setFolds

theorem State.Inv.spaceOrdered (hs : s.Inv) {w : Weft} {o : AtomIn} {seq : Nat} {reads : Bool} {a : SAcc} :
    (s.spaceOrdered w o seq reads a).1.Inv := by
  unfold State.spaceOrdered
  dsimp only
  split
  · exact hs.accError
  · exact .spaceAddend (.ite hs.spaceSplit hs)

theorem State.Inv.spaceAtoms (hs : s.Inv) {w : Weft} {o : AtomIn} {ord reads : Bool} {l : List SAcc} :
    (s.spaceAtoms w o ord reads l).1.Inv := by
  have hstep (seq : Nat) (q : State × List (Nat × Cell) × List Nat) (a : SAcc) (hq : q.1.Inv) :
      (if ord then q.1.spaceOrdered w o seq reads a else q.1.spaceAtom w o a).1.Inv := by
    split
    · exact hq.spaceOrdered
    · exact hq.spaceAtom
  unfold State.spaceAtoms
  split
  next heq =>
    refine .foldlFst ?_ fun q a hq => ?_
    · split at heq <;> cases heq
      · exact hs.stamp
      · exact hs
    · split
      next heq => exact (hstep _ q a hq).fst heq
      next heq => exact (hstep _ q a hq).fst heq

theorem State.Inv.atomOp (hs : s.Inv) {o : AtomArgs} {h : Nat} : (atomOp o s h).Inv := by
  unfold Machine.atomOp
  refine hs.access fun _ _ => hs.atomChecked fun _ _ hu => hu.releasing fun _ hv => ?_
  dsimp only
  split
  · exact hv.issueFlight
  · exact hv.spaceAtoms.issueReady.acquiresNow

theorem State.Inv.execAtom (hs : s.Inv) {o : AtomArgs} : Out.Inv (execAtom o s) := hs.runPoint fun _ _ ht => ht.atomOp

theorem State.Inv.redAll (hs : s.Inv) {h : Nat} {w : Weft} {o : RedArgs} {ord : Bool} {l : List (Nat × Nat)} : (s.redAll h w o ord l).Inv :=
  .foldl hs.frame fun _ _ ht => ht.redAt

theorem State.Inv.redOp (hs : s.Inv) {o : RedArgs} {h : Nat} : (redOp o s h).Inv := by
  unfold Machine.redOp
  refine hs.access fun _ _ => hs.atomChecked fun _ _ hu => hu.releasing fun _ hv => ?_
  dsimp only
  split
  · split
    · exact hv
    · exact hv.redAll
  · exact hv.spaceAtoms

theorem State.Inv.execRed (hs : s.Inv) {o : RedArgs} : Out.Inv (execRed o s) := hs.runPoint fun _ _ ht => ht.redOp

theorem State.Inv.fenceAcquire (hs : s.Inv) {h : Nat} {sel : Mask} {sc : Scope} : (s.fenceAcquire h sel sc).Inv := by
  unfold State.fenceAcquire
  dsimp only
  split
  · exact hs
  · exact hs.acquire

theorem State.Inv.execFence (hs : s.Inv) {o : FenceArgs} : Out.Inv (execFence o s) := by
  unfold Machine.execFence
  refine hs.runWeft fun _ _ ht => ht.operate fun _ _ => ht.releasing fun _ hv => ?_
  split
  · exact hv.fenceAcquire
  · exact hv

theorem State.Inv.waitvOp (hs : s.Inv) {o : WaitvArgs} {h : Nat} : (waitvOp o s h).Inv := by
  unfold Machine.waitvOp
  refine hs.access fun _ _ => ?_
  dsimp only
  split
  · exact hs
  · split
    · split
      · exact hs
      · split
        next heq₄ => exact hs.resolve.fst heq₄
        next heq₄ => exact hs.resolve.fst heq₄
        next heq₄ =>
          have ht := hs.resolve.fst heq₄
          split
          · exact ht.issueFlight.pollFlight
          · exact ht.issueFlight
    · split
      · exact hs
      · split
        next heq₄ => exact hs.resolve.fst heq₄
        next heq₄ => exact hs.resolve.fst heq₄
        next heq₄ =>
          have hu := hs.resolve.fst heq₄
          split
          · exact hu.issueFlight.pollFlight
          · exact hu.issueFlight

theorem State.Inv.execWaitv (hs : s.Inv) {o : WaitvArgs} : Out.Inv (execWaitv o s) := hs.runWeft fun _ _ ht => ht.waitvOp

theorem State.Inv.prefetch (hs : s.Inv) {w : Weft} {r : Rec} {l1 : Bool} {i : Int} : (s.prefetch w r l1 i).Inv := by
  unfold State.prefetch
  dsimp only
  split
  · exact hs
  · split
    next heq' => exact .foldl (hs.place1.fst heq') fun _ _ ht => .ite ht ht.fillL1
    · exact hs

theorem State.Inv.prefOp (hs : s.Inv) {o : PrefArgs} {h : Nat} : (prefOp o s h).Inv := by
  unfold Machine.prefOp
  refine hs.operate fun _ _ => ?_
  dsimp only
  split
  · exact hs
  · exact State.Inv.foldl hs fun _ _ ht => ht.prefetch

theorem State.Inv.execPref (hs : s.Inv) {o : PrefArgs} : Out.Inv (execPref o s) := hs.runWeft fun _ _ ht => ht.prefOp

theorem State.Inv.clineOp (hs : s.Inv) {o : ClineArgs} {h : Nat} : (clineOp o s h).Inv := by
  unfold Machine.clineOp
  refine hs.operate fun _ _ => ?_
  dsimp only
  split
  · exact hs
  · split
    next heq₂ => exact hs.resolve.fst heq₂
    next heq₂ => exact hs.resolve.fst heq₂
    next heq₂ =>
      have hu := hs.resolve.fst heq₂
      split
      · exact State.Inv.foldl (.ite (.foldl hu fun _ _ ht => ht.dropLine) hu) fun _ _ ht => ht.recall
      · split
        · exact State.Inv.foldl hu fun _ _ ht => ht.dropLine
        · exact hu

theorem State.Inv.execCline (hs : s.Inv) {o : ClineArgs} : Out.Inv (execCline o s) := hs.runWeft fun _ _ ht => ht.clineOp

theorem State.Inv.execLease (hs : s.Inv) {o : LeaseArgs} : Out.Inv (execLease o s) :=
  hs.runWeft fun _ _ ht => ht.operate fun _ _ => ht.setWeft

theorem State.Inv.brloadOp (hs : s.Inv) {o : BrloadArgs} {h : Nat} : (brloadOp o s h).Inv := by
  unfold Machine.brloadOp
  refine hs.access fun _ _ => ?_
  dsimp only
  split
  · exact hs
  · split
    · exact hs
    · split
      · exact hs
      · split
        · exact hs.spaceError
        · split
          · exact hs
          · split
            · exact hs
            · exact hs.spaceSplit.setBolt

theorem State.Inv.execBrload (hs : s.Inv) {o : BrloadArgs} : Out.Inv (execBrload o s) := hs.runWeft fun _ _ ht => ht.brloadOp

end Sys2Proof.Machine
end

section
/-! ## What every step keeps: the hub, the shuttle and the matrix array -/

namespace Sys2Proof.Machine

set_option Elab.async false

variable {s : State}

/-! ### The hub's accesses and feed queues (R410 to R418) -/

theorem State.Inv.askPage (hs : s.Inv) {va info : Nat} : (s.askPage va info).1.Inv := by
  unfold State.askPage
  split
  next heq => exact hs.choose.fst heq
  next heq => exact hs.choose.fst heq

theorem State.Inv.hubReadGo (hs : s.Inv) {asid x y z : Nat} : (s.hubReadGo asid x y z).1.Inv := by
  fun_induction State.hubReadGo
  · exact hs
  · exact hs
  next heq => exact hs.hubTranslate.fst heq
  next heq => exact (hs.hubTranslate.fst heq).askPage
  next heq _ => exact hs.hubTranslate.fst heq
  next heq _ heq₂ => exact (hs.hubTranslate.fst heq).homeRead.fst heq₂
  next heq _ _ heq₂ _ _ heq₃ ih => exact (ih ((hs.hubTranslate.fst heq).homeRead.fst heq₂)).fst heq₃
  next heq _ _ heq₂ _ ih => exact ih ((hs.hubTranslate.fst heq).homeRead.fst heq₂)

theorem State.Inv.hubRead (hs : s.Inv) {asid va n : Nat} : (s.hubRead asid va n).1.Inv := hs.hubReadGo

theorem State.Inv.hubCanWriteGo (hs : s.Inv) {asid x y z : Nat} : (s.hubCanWriteGo asid x y z).1.Inv := by
  fun_induction State.hubCanWriteGo
  · exact hs
  · exact hs
  next heq => exact hs.hubTranslate.fst heq
  next heq _ => exact (hs.hubTranslate.fst heq).askPage
  next heq _ => exact hs.hubTranslate.fst heq
  next heq ih => exact ih (hs.hubTranslate.fst heq)

theorem State.Inv.hubCanWrite (hs : s.Inv) {asid va n : Nat} : (s.hubCanWrite asid va n).1.Inv := hs.hubCanWriteGo

theorem State.Inv.hubWriteGo (hs : s.Inv) {asid x y : Nat} {z : List Byte} : (s.hubWriteGo asid x y z).Inv := by
  fun_induction State.hubWriteGo
  · exact hs
  · exact hs
  next heq ih => exact ih (hs.hubTranslate.fst heq).homeWrite
  next heq => exact hs.hubTranslate.fst heq

theorem State.Inv.hubWrite (hs : s.Inv) {asid va : Nat} {l : List Byte} : (s.hubWrite asid va l).1.Inv := by
  unfold State.hubWrite
  split
  next heq => exact hs.hubCanWrite.fst heq
  next heq => exact (hs.hubCanWrite.fst heq).hubWriteGo

theorem State.Inv.aperRead (hs : s.Inv) {pa n consumer asid : Nat} : (s.aperRead pa n consumer asid).1.Inv := by
  unfold State.aperRead
  split
  · dsimp only
    exact hs.errEvent
  · exact hs

theorem State.Inv.aperWrite (hs : s.Inv) {pa : Nat} {l : List Byte} : (s.aperWrite pa l).Inv := hs.frame

theorem State.Inv.feedTake (hs : s.Inv) {n fuel : Nat} : (s.feedTake n fuel).Inv := by
  induction fuel generalizing s with
  | zero => exact hs
  | succ fuel ih =>
    unfold State.feedTake
    dsimp only
    split
    · exact hs
    · split
      · exact hs
      · refine ih ?_
        split
        · exact hs.aperRead.setFeed.setWeft.acquire
        · exact hs.aperRead.setFeed

theorem State.Inv.feedServe (hs : s.Inv) {n : Nat} : (s.feedServe n).Inv := hs.feedTake.wake

theorem State.Inv.feedAppend (hs : s.Inv) {n : Nat} {r : List Byte} : (s.feedAppend n r).1.Inv := by
  unfold State.feedAppend
  dsimp only
  split
  · exact hs.aperWrite.setFeed.feedServe
  · split
    · split
      next heq₂ => exact (hs.hubWrite.fst heq₂).setFeed
      next heq₂ => exact hs.hubWrite.fst heq₂
    · exact hs

theorem State.Inv.feedMove1 (hs : s.Inv) {n : Nat} : (s.feedMove1 n).Inv := by
  unfold State.feedMove1
  dsimp only
  split
  · split
    next heq' => exact (hs.hubRead.fst heq').aperWrite.setFeed.feedServe
    next heq' => exact hs.hubRead.fst heq'
  · exact hs

/-! ### Bolts off and back on their cores (R260 to R262) -/

theorem State.Inv.boltOff (hs : s.Inv) {bh : Nat} : (s.boltOff bh).Inv := .ite hs (.foldl hs.setCore.setBolt fun _ _ ht => ht.mapWeft)

theorem State.Inv.boltOn (hs : s.Inv) {bh : Nat} : (s.boltOn bh).Inv := .ite hs (.foldl hs.setCore.setBolt fun _ _ ht => .ite ht.ready ht)

theorem State.Inv.spanOff (hs : s.Inv) {sp : Nat} : (s.spanOff sp).Inv :=
  .foldl (.foldl hs fun _ _ ht => ht.boltOff) fun _ _ ht => ht.admitWefts

theorem State.Inv.spanOn (hs : s.Inv) {sp : Nat} : (s.spanOn sp).Inv :=
  .foldl (.foldl hs fun _ _ ht => ht.boltOn) fun _ _ ht => ht.admitWefts

/-! ### The shuttle (R264 to R282, R318 to R320) -/

theorem State.Inv.endGather (hs : s.Inv) {bh hd : Nat} : (s.endGather bh hd).Inv := by
  unfold State.endGather
  split
  · exact hs
  · exact .mapCopy (.foldl hs fun _ _ ht => ht.lineEvent)

theorem State.Inv.failCopy (hs : s.Inv) {bh hd code : Nat} : (s.failCopy bh hd code).Inv := hs.endGather.endCopy

theorem State.Inv.reuseRecord (hs : s.Inv) {n : Nat} : (s.reuseRecord n).Inv := by
  unfold State.reuseRecord
  dsimp only
  split
  · exact hs
  · split
    · exact hs
    · exact hs.setBolt

theorem State.Inv.openCopy (hs : s.Inv) {bh : Nat} {c : Copy} : (s.openCopy bh c).2.Inv := hs.reuseRecord.setBolt

theorem State.Inv.completeSlices (hs : s.Inv) {bh hd : Nat} : (s.completeSlices bh hd).Inv := hs.frame

theorem State.Inv.copiesLose (hs : s.Inv) {bh : Nat} : (s.copiesLose bh).Inv := .foldl hs fun _ _ ht => ht.completeSlices

theorem State.Inv.joinCopy (hs : s.Inv) {h hd lo cnt : Nat} : (s.joinCopy h hd lo cnt).Inv := hs.frame

theorem State.Inv.contribute (hs : s.Inv) {h hd lo cnt : Nat} {d : Reg} : (s.contribute h hd lo cnt d).Inv := hs.joinCopy.answer

theorem State.Inv.openSlice (hs : s.Inv) {h : Nat} {w : Weft} {sel : Mask} {off lo cnt : Nat} {d : Reg} :
    (s.openSlice h w sel off lo cnt d).Inv := by
  unfold State.openSlice
  dsimp only
  split
  · exact hs
  · split
    · exact hs
    · split
      · exact hs.spaceError
      · split
        · exact hs.spaceSplit
        · split
          · exact hs.spaceSplit.answer
          · split
            · exact hs
            · split
              · exact hs
              · split
                · exact hs.spaceSplit.openCopy.contribute
                · exact hs.spaceSplit.openCopy.endCopy.answer

theorem State.Inv.cpysliceOp (hs : s.Inv) {o : CpysliceArgs} {h : Nat} : (cpysliceOp o s h).Inv := by
  unfold Machine.cpysliceOp
  refine hs.operate fun _ _ => ?_
  dsimp only
  split
  · exact hs
  · split
    · exact hs
    · split
      · split
        · exact hs.answer
        · split
          · exact hs
          · split
            · exact hs
            · exact hs.contribute
      · exact hs.openSlice

theorem State.Inv.execCpyslice (hs : s.Inv) {o : CpysliceArgs} : Out.Inv (execCpyslice o s) := hs.runPoint fun _ _ ht => ht.cpysliceOp

theorem State.Inv.startCpyreg (hs : s.Inv) {h : Nat} {w : Weft} {sel : Mask} {c : Copy} {ld : Bool} {r : Reg} {cnt : Nat} :
    (s.startCpyreg h w sel c ld r cnt).Inv := .ite hs.frame.openCopy.setWeft hs.frame.openCopy

theorem State.Inv.cpyregOp (hs : s.Inv) {g : Guard} {ld : Bool} {r : Opnd} {off bar : Src} {cnt : Nat} {barv : Bool} {h : Nat} :
    (cpyregOp g ld r off bar cnt barv s h).Inv := by
  unfold Machine.cpyregOp
  refine hs.access fun _ _ => ?_
  dsimp only
  split
  · exact hs
  · split
    · exact hs
    · split
      · exact hs
      · exact hs.startCpyreg

theorem State.Inv.execCpyregLd (hs : s.Inv) {o : CpyregLdArgs} : Out.Inv (execCpyregLd o s) := hs.runWeft fun _ _ ht => ht.cpyregOp

theorem State.Inv.execCpyregSt (hs : s.Inv) {o : CpyregStArgs} : Out.Inv (execCpyregSt o s) := hs.runPoint fun _ _ ht => ht.cpyregOp

theorem State.Inv.execCpystat (hs : s.Inv) {o : CpyArgs} : Out.Inv (execCpystat o s) :=
  hs.runWeft fun _ _ ht => ht.operate fun _ _ => ht.answer

theorem State.Inv.execCpycancel (hs : s.Inv) {o : CpyArgs} : Out.Inv (execCpycancel o s) :=
  hs.runWeft fun _ _ ht => ht.operate fun _ _ => ht.failCopy.answer

theorem State.Inv.engineHold (hs : s.Inv) {asid va : Nat} : (s.engineHold asid va).2.Inv := hs.event.pullFor

theorem State.Inv.copyFrame (hs : s.Inv) {bh hd va : Nat} {write : Bool} : (s.copyFrame bh hd va write).Inv := by
  unfold State.copyFrame
  dsimp only
  split
  · exact hs
  · split
    next heq' => exact (hs.translate.fst heq').mapCopy
    next heq' => exact hs.translate.fst heq'
    next heq' =>
      have ht := hs.translate.fst heq'
      split
      · exact ht
      · exact ht.engineHold.mapCopy

theorem State.Inv.copyPlaces (hs : s.Inv) {bh hd : Nat} {write : Bool} {x : List (Nat × Nat)} {y : List (Nat × Nat × Nat)} :
    (s.copyPlaces bh hd write x y).Inv := by
  fun_induction State.copyPlaces
  · exact hs
  next heq ih => exact ih (hs.copyFrame.of_eq heq)
  next heq => exact hs.copyFrame.of_eq heq
  next heq => exact hs.copyFrame.of_eq heq

theorem State.Inv.mapSlot (hs : s.Inv) {bh i : Nat} {f : Slot → Slot} : (s.mapSlot bh i f).Inv := .ite hs.setBolt hs.setCore

theorem State.Inv.readPlaces (hs : s.Inv) {asid : Nat} {x : List (Nat × Nat × Nat)} {y : List Byte} : (s.readPlaces asid x y).1.Inv := by
  fun_induction State.readPlaces
  · exact hs
  next heq => exact hs.homeRead.fst heq
  next heq ih => exact ih (hs.homeRead.fst heq)

theorem State.Inv.copyRead (hs : s.Inv) {bh hd : Nat} {c : Copy} {off n : Nat} : (s.copyRead bh hd c off n).Inv := by
  unfold State.copyRead
  dsimp only
  split
  · split
    next heq' =>
      split
      next heq₂ => exact (hs.copyPlaces.of_eq heq').readPlaces.fst heq₂
      next heq₂ => exact (hs.copyPlaces.of_eq heq').readPlaces.fst heq₂
    next heq' => exact hs.copyPlaces.of_eq heq'
    next heq' => exact hs.copyPlaces.of_eq heq'
  · split
    · exact hs.spaceError
    · exact hs.spaceSplit
  · split
    · exact hs
    · split
      · exact hs.spaceError
      · exact hs.spaceSplit
  · split
    · exact hs
    · split
      · exact hs.errEvent
      · exact hs
  · split
    · exact hs
    · split
      · exact hs
      · split
        · exact hs.errEvent
        · exact hs
  · exact hs

theorem State.Inv.dropFrame (hs : s.Inv) {frame : Nat} : (s.dropFrame frame).Inv := hs.frame

theorem State.Inv.takePage (hs : s.Inv) {old frame : Nat} : (s.takePage old frame).Inv := by
  have ht : ((s.recallRange (old * granule) granule).dropFrame frame).Inv := hs.recallRange.dropFrame
  refine ht.withMem ?_
  simp only [State.takePage]
  exact Store.wf_putBytes ht.memory _ _

theorem State.Inv.shadowPage (hs : s.Inv) {bh hd page old frame : Nat} : (s.shadowPage bh hd page old frame).Inv := by
  have ht : (s.takePage old frame).Inv := hs.takePage
  unfold State.shadowPage
  refine State.Inv.mapCopy ?_
  split
  · exact ht.withMem (Store.wf_putBytes ht.memory _ _)
  · exact ht

theorem State.Inv.splitLeaf (hs : s.Inv) {a e level frame : Nat} : (s.splitLeaf a e level frame).Inv := by
  have ht : (s.dropFrame frame).Inv := hs.dropFrame
  exact ht.withMem (Store.wf_writeNat (Store.wf_putBytes ht.memory _ _) _ _ _)

theorem State.Inv.splitFor (hs : s.Inv) {asid va n : Nat} {l r : List Nat} {t : State} (h : s.splitFor asid va n l = some (t, r)) :
    t.Inv := by
  induction n generalizing s l with
  | zero => cases h
  | succ n ih =>
    unfold State.splitFor at h
    split at h
    · cases h
      exact hs
    · split at h
      · exact ih hs.splitLeaf h
      · cases h
    · cases h

theorem State.Inv.takeShadow (hs : s.Inv) {bh hd va old f : Nat} {l r : List Nat} {t : State}
    (h : s.takeShadow bh hd va old l = some (t, f, r)) :
    t.Inv := by
  unfold State.takeShadow at h
  split at h
  next heq =>
    split at h <;> cases h
    exact (hs.splitFor heq).shadowPage
  · cases h

theorem State.Inv.shadowPlaces (hs : s.Inv) {bh hd : Nat} {x : List (Nat × Nat × Nat)} {y : List Nat} {z : List (Nat × Nat × Nat)} :
    (s.shadowPlaces bh hd x y z).Inv := by
  fun_induction State.shadowPlaces
  · exact hs
  next ih => exact ih hs
  next heq ih => exact ih (hs.takeShadow heq)
  · exact hs

theorem State.Inv.adoptSaved (hs : s.Inv) {bh hd : Nat} {x : List (Nat × List Byte)} {y : List Nat} : (s.adoptSaved bh hd x y).1.Inv := by
  fun_induction State.adoptSaved
  · exact hs
  · exact hs
  next heq ih => exact ih (hs.takeShadow heq)
  · exact hs

theorem State.Inv.copyLine (hs : s.Inv) {bh hd pa : Nat} {l : List Byte} : (s.copyLine bh hd pa l).Inv :=
  .ite (.ite hs.homeWrite.mapCopy hs.mapCopy) hs.homeWrite

theorem State.Inv.copyPut (hs : s.Inv) {bh hd pa : Nat} {l : List Byte} : (s.copyPut bh hd pa l).Inv := by
  unfold State.copyPut
  dsimp only
  split
  · exact .ite hs hs.copyLine.dropLine
  · exact .dropLine (.copyLine (.ite hs hs.copyLine.dropLine))

theorem State.Inv.copyPuts (hs : s.Inv) {bh hd : Nat} {x : List (Nat × Nat × Nat)} {y : List Byte} : (s.copyPuts bh hd x y).Inv := by
  fun_induction State.copyPuts
  · exact hs
  next ih => exact ih hs.copyPut

theorem State.Inv.writePlaces (hs : s.Inv) {x : List (Nat × Nat × Nat)} {y : List Byte} : (s.writePlaces x y).Inv := by
  fun_induction State.writePlaces
  · exact hs
  next ih => exact ih hs.homeWrite

theorem State.Inv.slotEvents (hs : s.Inv) {bh i : Nat} {x : Slot} {off : Nat} {l : List Byte} : (s.slotEvents bh i x off l).Inv :=
  .foldl hs fun _ _ ht => .ite ht.errEvent ht

theorem State.Inv.copyWrite (hs : s.Inv) {bh hd : Nat} {c : Copy} {off : Nat} {l : List Byte} {frames : List Nat} :
    (s.copyWrite bh hd c off l frames).Inv := by
  unfold State.copyWrite
  dsimp only
  split
  · split
    next heq' =>
      split
      · split
        next heq₃ => exact ((hs.copyPlaces.of_eq heq').shadowPlaces.of_eq heq₃).copyPuts
        next heq₃ => exact (hs.copyPlaces.of_eq heq').shadowPlaces.of_eq heq₃
        next heq₃ => exact (hs.copyPlaces.of_eq heq').shadowPlaces.of_eq heq₃
      · exact (hs.copyPlaces.of_eq heq').copyPuts
    next heq' => exact hs.copyPlaces.of_eq heq'
    next heq' => exact hs.copyPlaces.of_eq heq'
  · exact State.Inv.foldl hs fun _ _ ht => ht.spaceWrite
  · split
    · exact hs
    · split
      · exact hs
      · exact State.Inv.foldl hs fun _ _ ht => ht.spaceWrite
  · split
    · exact hs
    · split
      · exact hs
      · exact hs.slotEvents.mapSlot
  · split
    · exact hs
    · exact hs.setWeft.mapCopy
  · exact hs

theorem State.Inv.countLand (hs : s.Inv) {bh hd : Nat} {c : Copy} : (s.countLand bh hd c).Inv :=
  .ite (.ite hs.mapCopy.barLand hs.barLand) hs.mapCopy

theorem State.Inv.countLands (hs : s.Inv) {bh hd : Nat} {c : Copy} {x : Nat} : (s.countLands bh hd c x).Inv := by
  fun_induction State.countLands
  · exact hs
  next ih => exact ih hs.countLand

theorem State.Inv.mapShadow (hs : s.Inv) {asid : Nat} {p : Nat × Nat} : (s.mapShadow asid p).Inv := by
  unfold State.mapShadow
  split
  · exact hs.withMem (Store.wf_writeNat hs.memory _ _ _)
  · exact hs

theorem State.Inv.finishCopy (hs : s.Inv) {bh hd : Nat} : (s.finishCopy bh hd).Inv := by
  unfold State.finishCopy
  dsimp only
  split
  · exact hs
  · exact .mapCopy (.stamp (.countLands (.foldl hs.endGather fun _ _ ht => ht.mapShadow)))

theorem State.Inv.finishIfDone (hs : s.Inv) {bh hd : Nat} : (s.finishIfDone bh hd).Inv := by
  unfold State.finishIfDone
  split
  · exact .ite hs.finishCopy hs
  · exact hs

theorem State.Inv.startCopy (hs : s.Inv) {bh hd : Nat} {c : Copy} : (s.startCopy bh hd c).Inv := by
  unfold State.startCopy
  dsimp only
  split
  · exact hs.endCopy
  · split
    · exact .ite hs.endCopy hs.setWeft.mapCopy.finishIfDone
    · exact hs.mapCopy.finishIfDone

theorem State.Inv.execCopyStart (hs : s.Inv) {b h : Nat} : Out.Inv (execCopyStart b h s) := by
  unfold Machine.execCopyStart
  dsimp only
  split
  · exact hs
  · split
    · split
      · exact hs.startCopy.wake
      · exact hs
    · split
      · exact hs.startCopy.wake
      · exact hs

theorem State.Inv.abortThread (hs : s.Inv) {bh : Nat} {c : Copy} {off : Nat} : (s.abortThread bh c off).Inv := by
  unfold State.abortThread
  split
  · exact hs.kill
  · exact hs

theorem State.Inv.landElement (hs : s.Inv) {bh hd : Nat} {c : Copy} {p : Nat} : (s.landElement bh hd c p).Inv :=
  .finishIfDone (.mapCopy (.ite hs.mapCopy hs.countLand))

theorem State.Inv.elementBytes (hs : s.Inv) {bh hd : Nat} {c : Copy} {p : Nat} : (s.elementBytes bh hd c p).Inv := by
  unfold State.elementBytes
  split
  · exact hs
  · split
    · exact hs
    · exact hs.copyRead

theorem State.Inv.copyElement (hs : s.Inv) {bh hd : Nat} {c : Copy} {p : Nat} {frames : List Nat} :
    (s.copyElement bh hd c p frames).Inv := by
  unfold State.copyElement
  dsimp only
  split
  next heq => exact hs.elementBytes.of_eq heq
  next heq =>
    split
    · exact (hs.elementBytes.of_eq heq).failCopy.abortThread
    · exact (hs.elementBytes.of_eq heq).failCopy
  next heq =>
    split
    next heq' => exact (hs.elementBytes.of_eq heq).copyWrite.of_eq heq'
    next heq' => exact ((hs.elementBytes.of_eq heq).copyWrite.of_eq heq').failCopy
    next heq' => exact ((hs.elementBytes.of_eq heq).copyWrite.of_eq heq').landElement

theorem State.Inv.execCopyElementLand (hs : s.Inv) {b h : Nat} {frames : List Nat} : Out.Inv (execCopyElementLand b h frames s) := by
  unfold Machine.execCopyElementLand
  split
  · exact hs
  · split
    · exact hs
    · split
      · exact hs.failCopy.wake
      · split
        · exact hs.failCopy.wake
        next heq₃ => exact hs.adoptSaved.fst heq₃
        next heq₃ =>
          have ht := hs.adoptSaved.fst heq₃
          split
          · exact ht.finishIfDone.wake
          · exact ht.copyElement.wake

/-! ### The matrix array (R283 to R301) -/

theorem State.Inv.mapEntry (hs : s.Inv) {core id : Nat} {f : SeqEntry → SeqEntry} : (s.mapEntry core id f).Inv := hs.frame

theorem State.Inv.releaseSlot (hs : s.Inv) {core i : Nat} : (s.releaseSlot core i).Inv := hs.frame

theorem State.Inv.releaseEnded (hs : s.Inv) {h : Nat} : (s.releaseEnded h).Inv := .ite (.foldl hs fun _ _ ht => ht.releaseSlot) hs

theorem State.Inv.joinBatch (hs : s.Inv) {h : Nat} {works : Bool} : (s.joinBatch h works).2.Inv := hs.setWeft

theorem State.Inv.sendMark (hs : s.Inv) {h n : Nat} {p : Nat × Nat × Nat} : (s.sendMark h n p).Inv := hs.frame

theorem State.Inv.sendMarks (hs : s.Inv) {h n : Nat} : (s.sendMarks h n).Inv := .foldl hs.mapWeft fun _ _ ht => ht.sendMark

theorem State.Inv.closeGroups (hs : s.Inv) {h n : Nat} : (s.closeGroups h n).Inv := by
  unfold State.closeGroups
  split
  · exact .ite hs.sendMarks hs
  · exact hs

theorem State.Inv.removeItem (hs : s.Inv) {core id : Nat} : (s.removeItem core id).Inv := by
  unfold State.removeItem
  dsimp only
  split
  · exact hs
  · exact hs.setCore.mapWeft.closeGroups.releaseEnded

theorem State.Inv.closeChain (hs : s.Inv) {h : Nat} : (s.closeChain h).Inv := by
  unfold State.closeChain
  dsimp only
  split
  · exact hs
  · split
    · exact .ite hs.mapEntry.mapWeft.removeItem hs.mapEntry.mapWeft
    · exact hs.mapEntry.mapWeft

theorem State.Inv.closeBatch (hs : s.Inv) {h : Nat} : (s.closeBatch h).2.Inv := hs.closeChain.setWeft.closeGroups.mapWeft

theorem State.Inv.matrixEvent (hs : s.Inv) {h : Nat} {cause : BitVec 8} {place idx : Nat} : (s.matrixEvent h cause place idx).Inv :=
  hs.event

theorem State.Inv.failBatch (hs : s.Inv) {h n : Nat} {cause : BitVec 8} {place idx : Nat} : (s.failBatch h n cause place idx).Inv := by
  unfold State.failBatch
  dsimp only
  split
  · exact .matrixEvent (.foldl (.mapWeft (.foldl hs fun _ _ ht => ht.removeItem)) fun _ _ ht => ht.sendMarks)
  · exact .mapWeft (.foldl (.mapWeft (.foldl hs fun _ _ ht => ht.removeItem)) fun _ _ ht => ht.sendMarks)

theorem State.Inv.matBody (hs : s.Inv) {body : State → Weft → Mask → Eff} {h : Nat} {w : Weft} {sel : Mask}
    (hbody : ∀ t x y, t.Inv → (body t x y).Inv) :
    (matBody body s h w sel).Inv := by
  unfold Machine.matBody
  split
  · exact hs.setWeft
  · exact hbody _ _ _ hs

theorem State.Inv.matOp (hs : s.Inv) {f : Form} {body : State → Weft → Mask → Eff} {h : Nat} (hbody : ∀ t x y, t.Inv → (body t x y).Inv) :
    (matOp f body s h).Inv := hs.access fun _ _ => hs.matBody fun _ _ _ hu => hbody _ _ _ hu

theorem State.Inv.matNow (hs : s.Inv) {f : Form} {body : State → Weft → Mask → Eff} {h : Nat} (hbody : ∀ t x y, t.Inv → (body t x y).Inv) :
    (matNow f body s h).Inv := hs.operate fun _ _ => hs.matBody fun _ _ _ hu => hbody _ _ _ hu

theorem State.Inv.matProt (hs : s.Inv) {w : Weft} {sel : Mask} {i : Nat} : (matProt s w sel i).Inv := hs

theorem State.Inv.claimSlots (hs : s.Inv) {h : Nat} {l : List Nat} : (s.claimSlots h l).Inv := hs.frame

theorem State.Inv.mclaimOp (hs : s.Inv) {o : MclaimArgs} {x : Nat} : (mclaimOp o s x).Inv := by
  unfold Machine.mclaimOp
  refine hs.matNow fun _ _ _ ht => ?_
  dsimp only
  split
  · exact ht.claimSlots.answer
  · exact ht.answer

theorem State.Inv.execMclaim (hs : s.Inv) {o : MclaimArgs} : Out.Inv (execMclaim o s) := hs.runWeft fun _ _ ht => ht.mclaimOp

theorem State.Inv.mrelOp (hs : s.Inv) {o : MrelArgs} {x : Nat} : (mrelOp o s x).Inv := by
  unfold Machine.mrelOp
  refine hs.matNow fun _ _ _ ht => ?_
  dsimp only
  split
  · exact ht.matProt
  · exact State.Inv.foldl ht fun _ _ ht => ht.releaseSlot

theorem State.Inv.execMrel (hs : s.Inv) {o : MrelArgs} : Out.Inv (execMrel o s) := hs.runWeft fun _ _ ht => ht.mrelOp

theorem State.Inv.layoutOp (hs : s.Inv) {o : LayoutArgs} {h : Nat} : (layoutOp o s h).Inv := by
  unfold Machine.layoutOp
  refine hs.operate fun _ _ => ?_
  dsimp only
  split
  · exact hs.matProt
  · exact hs.setWeft

theorem State.Inv.execLayout (hs : s.Inv) {o : LayoutArgs} : Out.Inv (execLayout o s) := hs.runWeft fun _ _ ht => ht.layoutOp

theorem State.Inv.addItem (hs : s.Inv) {h : Nat} {e : SeqEntry} : (s.addItem h e).2.Inv := hs.frame.setCore

theorem State.Inv.issueMload (hs : s.Inv) {h k : Nat} {x : Dword × Dword × Dword} {tag : BitVec 6} {sc : Option Nat} :
    (s.issueMload h k x tag sc).Inv := .addItem (.setWeft (.ite hs.closeChain hs))

theorem State.Inv.mloadOp (hs : s.Inv) {o : MloadArgs} {x : Nat} : (mloadOp o s x).Inv := by
  unfold Machine.mloadOp
  refine hs.matOp fun _ _ _ ht => ?_
  dsimp only
  split
  · exact ht
  · split
    · exact ht
    · split
      · exact ht.matProt
      · split
        · exact ht.matProt
        · split
          · split
            · exact ht.matProt
            · exact ht.issueMload
          · split
            · exact ht.matProt
            · exact ht.issueMload

theorem State.Inv.execMload (hs : s.Inv) {o : MloadArgs} : Out.Inv (execMload o s) := hs.runWeft fun _ _ ht => ht.mloadOp

theorem State.Inv.arrayAbort (hs : s.Inv) {h : Nat} {cause : BitVec 8} {a : ErrAt} : (s.arrayAbort h cause a).Inv := .ite hs.errEvent hs

theorem State.Inv.execMloadComplete (hs : s.Inv) {core id : Nat} : Out.Inv (execMloadComplete core id s) := by
  unfold Machine.execMloadComplete
  dsimp only
  split
  · split
    · split
      · split
        · exact hs
        · split
          · exact hs.arrayAbort.failBatch.wake
          · exact State.Inv.wake (.removeItem (.ite hs.spaceSplits.setCore hs.spaceSplits))
      · exact hs
    · exact hs
  · exact hs

theorem State.Inv.mscaleOp (hs : s.Inv) {o : MscaleArgs} {x : Nat} : (mscaleOp o s x).Inv := hs.matNow fun _ _ _ ht => ht.setWeft

theorem State.Inv.execMscale (hs : s.Inv) {o : MscaleArgs} : Out.Inv (execMscale o s) := hs.runWeft fun _ _ ht => ht.mscaleOp

theorem State.Inv.msparseOp (hs : s.Inv) {o : MsparseArgs} {x : Nat} : (msparseOp o s x).Inv := by
  unfold Machine.msparseOp
  refine hs.matNow fun _ _ _ ht => ?_
  dsimp only
  split
  · exact ht.matProt
  · exact ht.setWeft

theorem State.Inv.execMsparse (hs : s.Inv) {o : MsparseArgs} : Out.Inv (execMsparse o s) := hs.runWeft fun _ _ ht => ht.msparseOp

theorem State.Inv.enterSeq (hs : s.Inv) {h : Nat} {e : SeqEntry} {chain : Bool} : (s.enterSeq h e chain).Inv := by
  unfold State.enterSeq
  dsimp only
  split
  · exact hs.closeChain.joinBatch.addItem.mapEntry.mapWeft
  · exact hs.closeChain.joinBatch.addItem

theorem State.Inv.newEntry (hs : s.Inv) {h : Nat} {w : Weft} {d : Reg} {e : SeqEntry} {chain : Bool} : (s.newEntry h w d e chain).Inv := by
  unfold State.newEntry
  split
  · split
    · exact hs.closeChain
    · exact hs.answer
  · exact hs.enterSeq.answer

theorem State.Inv.extendChain (hs : s.Inv) {h id : Nat} {step : MStep} : (s.extendChain h id step).Inv := hs.frame

theorem State.Inv.mmaOp (hs : s.Inv) {o : MmaArgs} {x : Nat} : (mmaOp o s x).Inv := by
  unfold Machine.mmaOp
  refine hs.matOp fun _ _ _ ht => ?_
  dsimp only
  split
  · exact ht
  · split
    · exact ht.extendChain.answer
    · exact ht.newEntry

theorem State.Inv.execMma (hs : s.Inv) {o : MmaArgs} : Out.Inv (execMma o s) := hs.runWeft fun _ _ ht => ht.mmaOp

theorem State.Inv.mloopOp (hs : s.Inv) {o : MloopArgs} {x : Nat} : (mloopOp o s x).Inv := by
  unfold Machine.mloopOp
  refine hs.matOp fun _ _ _ ht => ?_
  dsimp only
  split
  · exact ht
  · exact ht.newEntry

theorem State.Inv.execMloop (hs : s.Inv) {o : MloopArgs} : Out.Inv (execMloop o s) := hs.runWeft fun _ _ ht => ht.mloopOp

theorem State.Inv.mfenceOp (hs : s.Inv) {o : MfenceArgs} {x : Nat} : (mfenceOp o s x).Inv :=
  hs.matNow fun _ _ _ ht => ht.closeChain.setWeft.closeGroups.mapWeft.answer

theorem State.Inv.execMfence (hs : s.Inv) {o : MfenceArgs} : Out.Inv (execMfence o s) := hs.runWeft fun _ _ ht => ht.mfenceOp

theorem State.Inv.execMcommit (hs : s.Inv) {o : PlainArgs} : Out.Inv (execMcommit o s) :=
  hs.runWeft fun _ _ ht => ht.matNow fun _ _ _ hu => hu.closeChain

theorem State.Inv.mwaitOp (hs : s.Inv) {o : MwaitArgs} {x : Nat} : (mwaitOp o s x).Inv := by
  unfold Machine.mwaitOp
  refine hs.matOp fun _ _ _ ht => ?_
  dsimp only
  split
  · exact ht
  · split
    · split
      · exact ht.closeBatch.acquire.answer
      · exact ht.closeBatch
    · split
      · exact ht.acquire.answer
      · exact ht

theorem State.Inv.execMwait (hs : s.Inv) {o : MwaitArgs} : Out.Inv (execMwait o s) := hs.runWeft fun _ _ ht => ht.mwaitOp

theorem State.Inv.splitScales (hs : s.Inv) {b : Nat} {d : StepData} {e : SeqEntry} {x : MStep} {j : Nat} :
    (s.splitScales b d e x j).Inv := by
  unfold State.splitScales
  split
  · exact hs
  · exact hs.spaceSplits

theorem State.Inv.runStep (hs : s.Inv) {core id : Nat} {e : SeqEntry} {x : MStep} : (s.runStep core id e x).Inv := by
  unfold State.runStep
  dsimp only
  split
  · exact hs.failBatch
  · split
    · exact hs.arrayAbort.failBatch
    · exact hs.splitScales.setCore.mapEntry.mapWeft

theorem State.Inv.tileFrames (hs : s.Inv) {core asid : Nat} {x : List Nat} {y : List (Nat × Nat × Nat × Nat)} :
    (s.tileFrames core asid x y).Inv := by
  fun_induction State.tileFrames
  · exact hs
  next heq ih => exact ih (hs.translate.fst heq)
  next heq => exact hs.translate.fst heq
  next heq => exact hs.translate.fst heq
  next heq _ => exact hs.translate.fst heq

theorem State.Inv.joinParts (hs : s.Inv) {p : Nat × Nat} : (s.joinParts p).Inv := by
  unfold State.joinParts
  extract_lets stray old move a t u
  have hu : u.Inv := .setAcc (.foldl hs fun _ _ ht => ht.setAcc)
  exact .ite hs hu.frame

theorem State.Inv.pushCommit (hs : s.Inv) {core id : Nat} {e : SeqEntry} {els : List (Nat × Dword)} {pages : List (Nat × Nat × Nat × Nat)} :
    (s.pushCommit core id e els pages).Inv := by
  unfold State.pushCommit
  split
  next heq =>
    extract_lets parts t _ _ _ _ cs keys u v w z
    have ht : t.Inv := .foldl (hs.stamp.snd heq) fun _ _ ht => ht.joinParts
    have hz : z.Inv := .mapEntry (.setCore ht.frame)
    split
    · exact .ite hz.removeItem hz
    · exact hz

theorem State.Inv.commitEntry (hs : s.Inv) {core id : Nat} {e : SeqEntry} : (s.commitEntry core id e).Inv := by
  unfold State.commitEntry
  dsimp only
  split
  · exact hs.failBatch
  · split
    next heq' => exact hs.tileFrames.of_eq heq'
    next heq' => exact (hs.tileFrames.of_eq heq').failBatch
    next heq' => exact (hs.tileFrames.of_eq heq').engineHold.mapEntry
    next heq' => exact (hs.tileFrames.of_eq heq').pushCommit

theorem State.Inv.execMatrixStep (hs : s.Inv) {core id : Nat} : Out.Inv (execMatrixStep core id s) := by
  unfold Machine.execMatrixStep
  dsimp only
  split
  · exact hs
  · split
    · exact hs.commitEntry.wake
    · split
      · split
        · split
          · exact State.Inv.wake (.ite hs.runStep.commitEntry hs.runStep)
          · exact hs.runStep.wake
        · exact hs
      · exact hs

theorem State.Inv.execContributionArrival (hs : s.Inv) {n : Nat} : Out.Inv (execContributionArrival n s) := by
  unfold Machine.execContributionArrival
  dsimp only
  split
  · exact hs
  · split
    · exact hs
    · split
      · exact hs.frame
      · exact hs.frame.arriveContribution.retryStalled.wake

theorem State.Inv.execBatchComplete (hs : s.Inv) {w n : Nat} : Out.Inv (execBatchComplete w n s) := by
  unfold Machine.execBatchComplete
  dsimp only
  split
  · exact hs
  · split
    · exact hs.mapWeft.mapWeft.wake
    · exact hs

/-! ### The work instructions (R415 to R421) -/

theorem State.Inv.ownFeed (hs : s.Inv) {w : Weft} {q : Nat} {sel : Mask} {next : FeedQ → Eff} (hnext : ∀ t, (next t).Inv) :
    (s.ownFeed w q sel next).Inv := by
  unfold State.ownFeed
  dsimp only
  split
  · exact hnext _
  · exact hs

theorem State.Inv.issuePop (hs : s.Inv) {h : Nat} {sel : Mask} {d : Reg} {base q : Nat} : (s.issuePop h sel d base q).Inv :=
  hs.frame.setWeft.setFeed.feedServe

theorem State.Inv.popwOp (hs : s.Inv) {o : PopwArgs} {h : Nat} : (popwOp o s h).Inv := hs.access fun _ _ => hs.ownFeed fun _ => hs.issuePop

theorem State.Inv.execPopw (hs : s.Inv) {o : PopwArgs} : Out.Inv (execPopw o s) := hs.runWeft fun _ _ ht => ht.popwOp

theorem State.Inv.pushwOp (hs : s.Inv) {o : PushwArgs} {h : Nat} : (pushwOp o s h).Inv :=
  hs.access fun _ _ => hs.ownFeed fun _ => hs.releasing fun _ ht => ht.feedAppend.answer

theorem State.Inv.execPushw (hs : s.Inv) {o : PushwArgs} : Out.Inv (execPushw o s) := hs.runPoint fun _ _ ht => ht.pushwOp

theorem State.Inv.ownLine (hs : s.Inv) {w : Weft} {va : Nat} {k : XKind} {sel : Mask} {next : State → Nat → Eff}
    (hnext : ∀ t x, t.Inv → (next t x).Inv) :
    (s.ownLine w va k sel next).Inv := by
  unfold State.ownLine
  split
  · exact hs
  · split
    next heq' => exact hs.place1.fst heq'
    next heq' => exact hs.place1.fst heq'
    next heq' =>
      have ht := hs.place1.fst heq'
      split
      · split
        · exact hnext _ _ ht
        · exact ht
      · exact hnext _ _ ht

theorem State.Inv.notifyOp (hs : s.Inv) {o : NotifyArgs} {h : Nat} : (notifyOp o s h).Inv :=
  hs.access fun _ _ => hs.ownLine fun _ _ hu => hu.releasing fun _ hv => hv.homeWrite.dropLine

theorem State.Inv.execNotify (hs : s.Inv) {o : NotifyArgs} : Out.Inv (execNotify o s) := hs.runWeft fun _ _ ht => ht.notifyOp

theorem State.Inv.weftRead (hs : s.Inv) {h : Nat} {w : Weft} {sel : Mask} {x y z : Nat} {u : List Byte} :
    (s.weftRead h w sel x y z u).Inv := by
  fun_induction State.weftRead
  · exact hs
  · exact hs
  next heq => exact hs.place1.fst heq
  next heq => exact hs.place1.fst heq
  next heq _ => exact hs.place1.fst heq
  next heq _ _ heq₂ => exact (hs.place1.fst heq).homeRead.fst heq₂
  next heq _ _ _ heq₂ ih => exact ih ((hs.place1.fst heq).homeRead.fst heq₂)

theorem State.Inv.bindLine (hs : s.Inv) {h : Nat} {w : Weft} {line pa : Nat} {k : Kernel} {good : Bool} :
    (s.bindLine h w line pa k good).1.Inv := by
  unfold State.bindLine
  dsimp only
  split
  · exact hs
  · split
    · exact hs
    · exact hs.setCtx.setCore

theorem State.Inv.unbindLine (hs : s.Inv) {asid line : Nat} : (s.unbindLine asid line).1.Inv := by
  unfold State.unbindLine
  dsimp only
  split
  · exact hs
  · exact hs.setCtx.setCore

theorem State.Inv.readKernel (hs : s.Inv) {h : Nat} {w : Weft} {sel : Mask} {va : Nat} {next : State → Kernel → Bool → Eff}
    (hnext : ∀ t x y, t.Inv → (next t x y).Inv) :
    (s.readKernel h w sel va next).Inv := by
  unfold State.readKernel
  dsimp only
  split
  next heq => exact hs.weftRead.of_eq heq
  next heq =>
    split
    next heq' => exact (hs.weftRead.of_eq heq).weftRead.of_eq heq'
    next heq' => exact hnext _ _ _ ((hs.weftRead.of_eq heq).weftRead.of_eq heq')

theorem State.Inv.mbindOp (hs : s.Inv) {o : MbindArgs} {h : Nat} : (mbindOp o s h).Inv := by
  unfold Machine.mbindOp
  refine hs.access fun _ _ => ?_
  dsimp only
  split
  · exact hs.unbindLine.answer
  · refine hs.ownLine fun _ _ ht => ?_
    split
    · exact ht.answer
    · split
      · exact ht.answer
      · split
        · exact ht
        · exact ht.readKernel fun _ _ _ ht => ht.bindLine.answer

theorem State.Inv.execMbind (hs : s.Inv) {o : MbindArgs} : Out.Inv (execMbind o s) := hs.runWeft fun _ _ ht => ht.mbindOp

/-! ### The fabric instructions (R470 to R476) -/

theorem State.Inv.remoteCheck (hs : s.Inv) {w : Weft} {br : BitVec 8} {sel : Mask} {next : State → Rec → RtEnt → Eff}
    (hnext : ∀ t x y, t.Inv → (next t x y).Inv) :
    (s.remoteCheck w br sel next).Inv := by
  unfold State.remoteCheck
  dsimp only
  split
  · exact hs
  · split
    · exact hs
    · split
      · exact hs.route
      · split
        · exact hs.route
        · exact hnext _ _ _ hs.route

theorem State.Inv.sendRequest (hs : s.Inv) {asid ridx : Nat} {e : RtEnt} {x : Sending} : (s.sendRequest asid ridx e x).Inv := by
  unfold State.sendRequest
  dsimp only
  split
  · exact hs.newTag.frame
  · exact .emit (.ite hs.newTag.frame hs.newTag.frame.countPath)

theorem State.Inv.sendAll (hs : s.Inv) {asid ridx : Nat} {e : RtEnt} {l : List Sending} : (s.sendAll asid ridx e l).Inv :=
  .foldl hs fun _ _ ht => ht.sendRequest

theorem State.Inv.pathReady (hs : s.Inv) {asid : Nat} {r : Rec} {e : RtEnt} {next : State → Eff} (hnext : ∀ t, t.Inv → (next t).Inv) :
    (s.pathReady asid r e next).Inv := by
  unfold State.pathReady
  split
  · exact hnext _ hs
  · split
    · exact hs
    · exact hs.evictPath

theorem State.Inv.landXld (hs : s.Inv) {h fid : Nat} : (s.landXld h fid).Inv := by
  unfold State.landXld
  dsimp only
  split
  · split
    · exact .foldl hs fun _ _ ht => .ite (.landLane (.ite ht.acquireL1 ht)) ht
    · exact hs
  · exact hs

theorem State.Inv.issueXld (hs : s.Inv) {h : Nat} {w : Weft} {sel : Mask} {o : XldArgs} {r : Rec} {e : RtEnt} {smode : Nat}
    {locs : List ELoc} :
    (s.issueXld h w sel o r e smode locs).Inv := hs.issueFlight.sendAll.landXld

theorem State.Inv.xldOp (hs : s.Inv) {o : XldArgs} {h : Nat} : (xldOp o s h).Inv := by
  unfold Machine.xldOp
  refine hs.access fun _ _ => hs.remoteCheck fun _ _ _ hu => ?_
  dsimp only
  split
  · exact hu
  · split
    · exact hu
    · split
      · exact hu
      · exact hu.issueXld

theorem State.Inv.execXld (hs : s.Inv) {o : XldArgs} : Out.Inv (execXld o s) := hs.runWeft fun _ _ ht => ht.xldOp

theorem State.Inv.issueXst (hs : s.Inv) {h : Nat} {w : Weft} {r : Rec} {e : RtEnt} {rel : Bool} {ws : List (Nat × List Byte)} {fl : Flags} :
    (s.issueXst h w r e rel ws fl).Inv := hs.setWeft.sendAll

theorem State.Inv.xstOp (hs : s.Inv) {o : XstArgs} {h : Nat} : (xstOp o s h).Inv := by
  unfold Machine.xstOp
  refine hs.access fun _ _ => hs.remoteCheck fun _ _ _ hu => ?_
  dsimp only
  split
  · exact hu
  · split
    · exact hu
    · split
      · exact hu
      · exact hu.releasing fun _ ht => ht.pathReady fun _ hu => hu.issueXst

theorem State.Inv.execXst (hs : s.Inv) {o : XstArgs} : Out.Inv (execXst o s) := hs.runPoint fun _ _ ht => ht.xstOp

theorem State.Inv.issueXatom (hs : s.Inv) {h : Nat} {w : Weft} {sel : Mask} {o : XatomArgs} {r : Rec} {e : RtEnt} {locs : List ELoc} :
    (s.issueXatom h w sel o r e locs).Inv := .mapWeft (.sendAll (.ite (.mapWeft (.ite hs.issueFlight hs)) (.ite hs.issueFlight hs)))

theorem State.Inv.xatomOp (hs : s.Inv) {o : XatomArgs} {h : Nat} : (xatomOp o s h).Inv := by
  unfold Machine.xatomOp
  refine hs.access fun _ _ => hs.remoteCheck fun _ _ _ hu => ?_
  dsimp only
  split
  · exact hu
  · split
    · exact hu
    · split
      · exact hu
      · split
        · exact hu
        · exact hu.releasing fun _ ht => ht.pathReady fun _ hu => hu.issueXatom

theorem State.Inv.execXatom (hs : s.Inv) {o : XatomArgs} : Out.Inv (execXatom o s) := hs.runPoint fun _ _ ht => ht.xatomOp

theorem State.Inv.execXsig (hs : s.Inv) {o : XsigArgs} : Out.Inv (execXsig o s) := by
  unfold Machine.execXsig
  refine hs.runPoint fun _ _ ht => ht.access fun _ _ => ht.remoteCheck fun _ _ _ hv => ?_
  dsimp only
  split
  · exact hv
  · split
    · exact hv
    · split
      · exact hv
      · exact hv.pathReady fun _ ht => ht.sendRequest

theorem State.Inv.execXfence (hs : s.Inv) {o : XfenceArgs} : Out.Inv (execXfence o s) := by
  unfold Machine.execXfence
  refine hs.runWeft fun _ _ ht => ht.operate fun _ _ => ht.releasing fun _ hv => ?_
  split
  · exact hv
  · split
    · exact hv.fenceAcquire
    · exact hv

/-! ### The end of wefts and spans (R159, R173, R408) -/

theorem State.Inv.remoteLost (hs : s.Inv) {asid ridx : Nat} : (s.remoteLost asid ridx).Inv := hs.event

theorem State.Inv.flushFailures (hs : s.Inv) {asid : Nat} : (s.flushFailures asid).Inv := .foldl hs.frame fun _ _ ht => ht.remoteLost

theorem State.Inv.endBatches (hs : s.Inv) {h : Nat} : (s.endBatches h).Inv := by
  unfold State.endBatches
  split
  · exact .ite hs.closeBatch hs.closeChain
  · exact hs.closeChain

theorem State.Inv.endFailures (hs : s.Inv) {h : Nat} : (s.endFailures h).Inv := by
  unfold State.endFailures
  refine .mapWeft ?_
  split
  · split
    · refine .remoteLost ?_
      split
      · exact hs.matrixEvent
      · exact hs
    · split
      · exact hs.matrixEvent
      · exact hs
  · split
    · exact hs.matrixEvent
    · exact hs

theorem State.Inv.handlerEnded (hs : s.Inv) {h : Nat} : (s.handlerEnded h).Inv := by
  unfold State.handlerEnded
  dsimp only
  split
  · exact hs
  · exact .ite hs.setCtx.startHandler hs.setCtx

theorem State.Inv.courseEnds (hs : s.Inv) {c : Nat} : (s.courseEnds c).Inv := .ite (.freeCourse (.ite hs.setCourse hs.setCourse.setSpan)) hs

theorem State.Inv.weftOver (hs : s.Inv) {h : Nat} : (s.weftOver h).Inv := by
  unfold State.weftOver
  extract_lets _ _ _ _ _ _ t
  have ht : t.Inv := hs.setWeft.endBatches.endFailures.releaseEnded.copiesLose.courseEnds
  exact .admitWefts (.ite ht.handlerEnded ht)

theorem State.Inv.execWeftEnd (hs : s.Inv) {w : Nat} : Out.Inv (execWeftEnd w s) := by
  unfold Machine.execWeftEnd
  dsimp only
  split
  · split
    · exact hs.weftOver.wake
    · exact hs
  · split
    · exact hs.weftOver.wake
    · exact hs

theorem State.Inv.withdraw (hs : s.Inv) {asid : Nat} : (s.withdraw asid).Inv := by
  unfold State.withdraw
  extract_lets t
  have ht : t.Inv := .foldl hs fun u r hu => .ite hu.route.newTag.emit hu
  exact ht.frame

theorem State.Inv.dropWeft (hs : s.Inv) {h : Nat} : (s.dropWeft h).Inv :=
  .mapWeft (.foldl (.foldl hs fun _ _ ht => ht.removeItem) fun _ _ ht => ht.sendMarks)

theorem State.Inv.stopWefts (hs : s.Inv) {l : List Nat} : (s.stopWefts l).Inv := by
  have h1 : (l.foldl (fun (s : State) h => s.dropWeft h) s).Inv := .foldl hs fun _ _ ht => ht.dropWeft
  refine .foldl (.foldl (.foldl (.foldl h1 fun _ _ ht => ?_) fun _ _ ht => ?_) fun _ _ ht => ?_) fun _ _ ht => ?_
  · exact .foldl ht fun _ _ hu => hu.failCopy
  · exact ht.releaseEnded
  · exact ht.courseEnds
  · exact ht.admitWefts

theorem State.Inv.endSpan (hs : s.Inv) {sp : Nat} {why : SpanEnd} : (s.endSpan sp why).Inv := .ite hs hs.setSpan.stopWefts.wake

/-! ### The system instructions (R172 to R174) -/

theorem State.Inv.getsrOp (hs : s.Inv) {o : GetsrArgs} {h : Nat} : (getsrOp o s h).Inv := by
  unfold Machine.getsrOp
  refine hs.operate fun _ _ => ?_
  dsimp only
  split
  · exact hs
  · exact hs.setWeft

theorem State.Inv.execGetsr (hs : s.Inv) {o : GetsrArgs} : Out.Inv (execGetsr o s) := hs.runWeft fun _ _ ht => ht.getsrOp

theorem State.Inv.setsrOp (hs : s.Inv) {o : SetsrArgs} {h : Nat} : (setsrOp o s h).Inv := by
  unfold Machine.setsrOp
  refine hs.operate fun _ _ => ?_
  dsimp only
  split
  · split
    · exact hs.setWeft
    · exact hs
  · split
    · exact hs.setWeft
    · exact hs

theorem State.Inv.execSetsr (hs : s.Inv) {o : SetsrArgs} : Out.Inv (execSetsr o s) := hs.runWeft fun _ _ ht => ht.setsrOp

theorem State.Inv.execGetid (hs : s.Inv) {o : GetidArgs} : Out.Inv (execGetid o s) :=
  hs.runWeft fun _ _ ht => ht.operate fun _ _ => ht.setWeft

theorem State.Inv.tick (hs : s.Inv) {n : Nat} : (s.tick n).Inv := hs.frame

theorem State.Inv.execClock (hs : s.Inv) {o : ClockArgs} : Out.Inv (execClock o s) :=
  hs.runWeft fun _ _ ht => ht.operate fun _ _ => ht.tick.setWeft

theorem State.Inv.execCanon (hs : s.Inv) {o : PlainArgs} : Out.Inv (execCanon o s) := by
  unfold Machine.execCanon
  refine hs.runWeft fun _ _ ht => ht.operate fun _ _ => ?_
  split <;> exact ht

theorem State.Inv.execHalt (hs : s.Inv) {o : HaltArgs} : Out.Inv (execHalt o s) := by
  unfold Machine.execHalt
  refine hs.runWeft fun _ _ ht => ht.operate fun _ _ => ?_
  dsimp only
  split
  · exact ht
  · exact ht.endSpan.withdraw

end Sys2Proof.Machine
end

section
/-! ## What every step keeps: the heddle, queues, the front end and the package -/

namespace Sys2Proof.Machine

set_option Elab.async false

variable {s : State}

/-! ### Time and progress (R372, R384 to R386) -/

theorem State.Inv.progressed (hs : s.Inv) {asid : Nat} : (s.progressed asid).Inv := by
  unfold State.progressed
  split
  · exact hs.setCtx
  · exact hs

theorem State.Inv.noteExempt (hs : s.Inv) {asid : Nat} : (s.noteExempt asid).Inv := .ite hs.progressed hs

theorem State.Inv.advanceTime (hs : s.Inv) {now : Nat} : (s.advanceTime now).Inv := .ite hs hs.frame

theorem State.Inv.takePend (hs : s.Inv) {h : Nat} {t : Trap} : (s.takePend h t).Inv := .ite hs.setWeft.takeTrap.setWeft hs.setWeft.takeTrap

/-! ### The heddle and the delivery of traps (R182, R251 to R263, R375) -/

theorem State.Inv.markPublished (hs : s.Inv) {h : Nat} {r : TrapRec} {seq : Nat} : (s.markPublished h r seq).Inv := hs.frame

theorem State.Inv.ringPut (hs : s.Inv) {l : List Byte} : (s.ringPut l).Inv := hs.frame

theorem State.Inv.publishRing (hs : s.Inv) {h : Nat} {r : TrapRec} : (s.publishRing h r).Inv :=
  .markPublished (.event (.ringPut (.ite hs.pullFor hs)))

theorem State.Inv.publishMailbox (hs : s.Inv) {h : Nat} {r : TrapRec} : (s.publishMailbox h r).Inv := by
  unfold State.publishMailbox
  dsimp only
  split
  · exact hs.route.publishRing
  · split
    · exact hs.route.evictPath
    · exact hs.route.event.sendRequest.markPublished

theorem State.Inv.execTrapRecordPublish (hs : s.Inv) {w : Nat} : Out.Inv (execTrapRecordPublish w s) := by
  unfold Machine.execTrapRecordPublish
  dsimp only
  split
  · exact hs
  · split
    · exact hs
    · split
      · split
        · exact hs.markAll.mapWeft
        · split
          · exact hs
          · exact hs.publishMailbox
      · split
        · exact hs.publishRing
        · exact hs

theorem State.Inv.ringRetry (hs : s.Inv) {p : Nat × Weft} : (s.ringRetry p).Inv := .ite hs.setWeft.ready.admitWefts hs.setWeft

theorem State.Inv.execTrapRingSlotFree (hs : s.Inv) : Out.Inv (execTrapRingSlotFree s) := by
  unfold Machine.execTrapRingSlotFree
  dsimp only
  split
  · exact hs
  · exact State.Inv.foldl hs.frame fun _ _ ht => ht.ringRetry

theorem State.Inv.execHeddlePendingTimeout (hs : s.Inv) {w : Nat} : Out.Inv (execHeddlePendingTimeout w s) := by
  unfold Machine.execHeddlePendingTimeout
  dsimp only
  split
  · split
    · exact hs.setWeft.admitWefts
    · exact hs
  · split
    · exact hs.setWeft.admitWefts
    · exact hs
  · split
    · exact hs.setWeft.admitWefts
    · exact hs
  · split
    · exact hs.setWeft.admitWefts
    · exact hs

theorem State.Inv.evictFor (hs : s.Inv) {n h x : Nat} : (s.evictFor n h x).Inv := by
  fun_induction State.evictFor
  · exact hs
  · exact hs
  · exact hs
  next ih => exact ih hs.ready

theorem State.Inv.rotate (hs : s.Inv) {n : Nat} : (s.rotate n).Inv :=
  .foldl (.foldl hs.admitWefts fun _ _ ht => ht.setWeft) fun _ _ ht => .ite ht.evictFor.admitTo ht.evictFor

theorem State.Inv.execHeddleRotation (hs : s.Inv) {core : Nat} : Out.Inv (execHeddleRotation core s) := by
  unfold Machine.execHeddleRotation
  split
  · exact hs
  · exact hs.rotate

theorem State.Inv.execLeaseWindow (hs : s.Inv) {w misses : Nat} : Out.Inv (execLeaseWindow w misses s) := by
  unfold Machine.execLeaseWindow
  dsimp only
  split
  · exact hs
  · exact hs.setWeft

theorem State.Inv.execFastSwitch (hs : s.Inv) {core span : Nat} : Out.Inv (execFastSwitch core span s) := by
  unfold Machine.execFastSwitch
  dsimp only
  split
  · exact hs.setCore
  · exact hs

theorem State.Inv.execBankSwap (hs : s.Inv) {core : Nat} : Out.Inv (execBankSwap core s) := by
  unfold Machine.execBankSwap
  dsimp only
  split
  · split
    · exact State.Inv.admitWefts (.setSpan (.foldl (.setCore (.foldl hs fun _ _ ht => ht.boltOff)) fun _ _ ht => ht.boltOn))
    · exact hs
  · exact hs

theorem State.Inv.execSpillComplete (hs : s.Inv) {core : Nat} : Out.Inv (execSpillComplete core s) := by
  unfold Machine.execSpillComplete
  dsimp only
  split
  · exact hs.setCore
  · exact hs

theorem State.Inv.execSlowSwitch (hs : s.Inv) {out inn : Nat} : Out.Inv (execSlowSwitch out inn s) := by
  unfold Machine.execSlowSwitch
  dsimp only
  split
  · split
    · exact hs.spanOn.setSpan
    · exact hs
  · split
    · exact hs.spanOff.spanOn.setSpan
    · exact hs

theorem State.Inv.refetch (hs : s.Inv) {h : Nat} : (s.refetch h).Inv := by
  unfold State.refetch
  dsimp only
  split
  · exact .ite hs (.ite hs.setWeft hs.setWeft)
  · exact hs

theorem State.Inv.execBoltReload (hs : s.Inv) {b : Nat} : Out.Inv (execBoltReload b s) := by
  unfold Machine.execBoltReload
  dsimp only
  split
  · exact hs
  · split
    · exact State.Inv.foldl hs.setBolt fun _ _ ht => ht.refetch
    · exact State.Inv.admitWefts (.foldl (.foldl hs.setBolt fun _ _ ht => ht.refetch) fun _ _ ht => .ite ht.ready ht)

theorem State.Inv.execHeddleRebuild (hs : s.Inv) {cluster : Nat} : Out.Inv (execHeddleRebuild cluster s) := by
  refine State.Inv.foldl (.event (.foldl (.foldl hs fun _ _ ht => ht.setCore) fun _ _ ht => ?_)) fun _ _ ht => ht.admitWefts
  exact .foldl ht fun _ _ hu => hu.ready

/-! ### Queues from outside the front end (R389 to R396, R424) -/

theorem State.Inv.journal (hs : s.Inv) {e : JEntry} : (s.journal e).Inv := hs.frame

theorem State.Inv.commit (hs : s.Inv) {e : JEntry} : (s.commit e).Inv := by
  have ht : (s.journal e).Inv := hs.journal
  unfold State.commit
  dsimp only
  split
  · exact ht.frame
  · exact .ite ht.setSpan ht
  · exact ht

theorem State.Inv.execJournalCommit (hs : s.Inv) {e : JEntry} : Out.Inv (execJournalCommit e s) := hs.commit

theorem State.Inv.dropKick (hs : s.Inv) {qid : Nat} : (s.dropKick qid).Inv := hs.frame

theorem State.Inv.kick (hs : s.Inv) {qid value : Nat} : (s.kick qid value).Inv :=
  .ite hs.dropKick (.ite hs.setQueue.event.frame hs.setQueue.event)

theorem State.Inv.doorbell (hs : s.Inv) {qid value : Nat} : (s.doorbell qid value).Inv := .ite hs (.ite hs.dropKick hs.kick)

theorem State.Inv.execDoorbellKick (hs : s.Inv) {qid : Nat} {value : Dword} {now : Nat} : Out.Inv (execDoorbellKick qid value now s) :=
  hs.advanceTime.doorbell

theorem State.Inv.bindSlot (hs : s.Inv) {qid slot : Nat} : (s.bindSlot qid slot).Inv := by
  have ht : (s.journal (.bind qid slot)).Inv := hs.journal
  exact .ite ht.frame hs

theorem State.Inv.writeSlot (hs : s.Inv) {qid slot : Nat} : (s.writeSlot qid slot).Inv :=
  .ite (.ite hs.setQueue (.ite hs.journal.setQueue hs)) hs.bindSlot

theorem State.Inv.execQueueBind (hs : s.Inv) {qid slot : Nat} : Out.Inv (execQueueBind qid slot s) := hs.writeSlot

theorem State.Inv.haltPut (hs : s.Inv) {qid : Nat} {l : List Byte} : (s.haltPut qid l).Inv := hs.frame

theorem State.Inv.putRecord (hs : s.Inv) {qid asid compl status flags code seq : Nat} {t : State}
    (h : s.putRecord qid asid compl status flags code seq = .inl t) :
    t.Inv := by
  unfold State.putRecord at h
  split at h
  · cases h
    exact hs
  · split at h <;> cases h
    next heq => exact hs.hubWrite.fst heq
    next heq => exact (hs.hubWrite.fst heq).haltPut

theorem State.Inv.heldOn (hs : s.Inv) {asid va : Nat} : (s.heldOn asid va).Inv := hs.pullFor.frame

theorem State.Inv.halt (hs : s.Inv) {qid err compl : Nat} : (s.halt qid err compl).Inv := by
  have ht : (s.event 2 qid (128 + err)).Inv := hs.event
  unfold State.halt
  dsimp only
  split
  next heq =>
    refine State.Inv.setQueue ?_
    split at heq
    · cases heq
      exact ht.haltPut
    · exact ht.putRecord heq
  · exact hs.heldOn.setQueue

theorem State.Inv.haltGoing (hs : s.Inv) {qid : Nat} {g : Going} {err : Nat} : (s.haltGoing qid g err).Inv := by
  unfold State.haltGoing
  exact hs.setQueue.halt

theorem State.Inv.endGoing (hs : s.Inv) {qid : Nat} {g : Going} : (s.endGoing qid g).Inv := hs.frame

theorem State.Inv.endCapturing (hs : s.Inv) {qid sp : Nat} : (s.endCapturing qid sp).Inv := by
  unfold State.endCapturing
  split
  · exact hs.endGoing
  · exact hs

theorem State.Inv.haltCapturing (hs : s.Inv) {qid sp err : Nat} : (s.haltCapturing qid sp err).Inv := by
  unfold State.haltCapturing
  split
  · exact hs.haltGoing
  · exact hs

theorem State.Inv.execQueueResume (hs : s.Inv) {qid : Nat} : Out.Inv (execQueueResume qid s) := by
  unfold Machine.execQueueResume
  dsimp only
  split
  · exact hs.setQueue
  · exact hs

/-! ### The walkers and the page tables (R352 to R360) -/

theorem State.Inv.execPageWalkComplete (hs : s.Inv) {core asid : Nat} {va : Va} {kind : XKind} :
    Out.Inv (execPageWalkComplete core asid va kind s) := by
  unfold Machine.execPageWalkComplete
  split
  · exact hs.useWalk
  · exact hs

theorem State.Inv.hubPutWord (hs : s.Inv) {a : Nat} {x : Dword} : (s.hubPutWord a x).Inv := hs.frame

theorem State.Inv.hubPutByte (hs : s.Inv) {a : Nat} {b : Byte} : (s.hubPutByte a b).Inv := .ite hs.errEvent hs.frame

theorem State.Inv.hubPut (hs : s.Inv) {a : Nat} {x : Dword} : (s.hubPut a x).Inv :=
  .ite hs.hubPutWord (.foldl hs fun _ _ ht => ht.hubPutByte)

theorem State.Inv.hubPutBytes (hs : s.Inv) {a : Nat} {l : List Byte} : (s.hubPutBytes a l).Inv := .foldl hs fun _ _ ht => ht.hubPutByte

theorem State.Inv.execInvalidate (hs : s.Inv) {c : InvCmd} : Out.Inv (execInvalidate c s) := by
  unfold Machine.execInvalidate
  split
  · exact hs.hubPut
  · split
    · exact hs
    · exact hs.frame

theorem State.Inv.execInvalidationComplete (hs : s.Inv) {n : Nat} : Out.Inv (execInvalidationComplete n s) := by
  unfold Machine.execInvalidationComplete
  dsimp only
  split
  · exact hs
  · split
    · exact hs.frame.hubPut.event
    · exact hs

theorem State.Inv.countSplit (hs : s.Inv) {c : Contribution} {p : Option Contribution × Option Contribution} : (s.countSplit c p).Inv :=
  .ite hs.mapWeft hs

theorem State.Inv.addAcc (hs : s.Inv) {p len next : Nat} {held : List Contribution} : (s.addAcc p len next held).Inv := hs.frame

theorem State.Inv.moveSequence (hs : s.Inv) {old new p : Nat} : (s.moveSequence old new p).Inv := by
  unfold State.moveSequence
  dsimp only
  split
  · refine .addAcc ?_
    split
    · exact .addAcc (.foldl hs.setAcc fun _ _ ht => ht.countSplit)
    · exact .foldl hs.setAcc fun _ _ ht => ht.countSplit
  · split
    · exact .addAcc (.foldl hs.setAcc fun _ _ ht => ht.countSplit)
    · exact .foldl hs.setAcc fun _ _ ht => ht.countSplit

theorem State.Inv.moveAccumulators (hs : s.Inv) {old new : Nat} : (s.moveAccumulators old new).Inv := by
  unfold State.moveAccumulators
  extract_lets hit t fly u cut
  have hu : u.Inv := .foldl (.foldl hs fun _ _ ht => ht.moveSequence) fun _ _ ht => ht.countSplit
  exact hu.frame

theorem State.Inv.moveMailboxes (hs : s.Inv) {old new : Nat} : (s.moveMailboxes old new).Inv := hs.frame

theorem State.Inv.execMigrationCopy (hs : s.Inv) {asid : Nat} {va : Va} {newFrame : Nat} :
    Out.Inv (execMigrationCopy asid va newFrame s) := by
  unfold Machine.execMigrationCopy
  dsimp only
  split
  · split
    · exact hs.takePage.dropFrame.moveAccumulators.moveMailboxes
    · exact hs
  · exact hs

theorem State.Inv.landSequences (hs : s.Inv) {f frame : Nat} : (s.landSequences f frame).Inv :=
  .foldl (.moveAccumulators (.foldl hs fun _ _ ht => ht.setAcc.addAcc)) fun _ _ ht => .foldl ht fun _ _ hu => hu.arriveContribution

theorem State.Inv.landMailboxes (hs : s.Inv) {f frame : Nat} : (s.landMailboxes f frame).Inv :=
  .foldl hs.moveMailboxes fun _ _ ht => ht.startHandler

theorem State.Inv.landReady (hs : s.Inv) : s.landReady.Inv := by
  unfold State.landReady
  refine .foldl hs fun _ _ ht => ?_
  split
  · exact ht.landSequences.landMailboxes
  · exact ht

theorem State.Inv.retryHeld (hs : s.Inv) {h : Nat} : (s.retryHeld h).Inv := .ite (.ite hs.setWeft.ready.admitWefts hs.setWeft) hs

theorem State.Inv.execHeldWalkRetry (hs : s.Inv) {pa : Nat} {entry : Dword} : Out.Inv (execHeldWalkRetry pa entry s) := by
  unfold Machine.execHeldWalkRetry
  dsimp only
  split
  · exact State.Inv.foldl hs.homeWrite.landReady fun _ _ ht => ht.retryHeld
  · exact hs

theorem State.Inv.execCodeRewrite (hs : s.Inv) {x : CodeIn} : Out.Inv (execCodeRewrite x s) := by
  unfold Machine.execCodeRewrite
  dsimp only
  split
  · split
    · exact State.Inv.setCtx (.writePlaces (.foldl hs fun _ _ ht => ht.writePlaces))
    · exact hs
  · exact hs

/-! ### Context commands and the watchdog (R373 to R377, R386) -/

theorem State.Inv.result (hs : s.Inv) {c : CtxCmd} {op status : Nat} {value : Dword} {tag : BitVec 6} {full : Bool} :
    (s.result c op status value tag full).Inv := .ite hs.hubPut.hubPut.event hs.hubPut.hubPut

theorem State.Inv.onParked (hs : s.Inv) {c : CtxCmd} {op : Nat} {f : Nat → Weft → TrapRec → State} (hf : ∀ t x y, (f t x y).Inv) :
    Out.Inv (s.onParked c op f) := by
  unfold State.onParked
  split
  · exact hs.result
  · split
    · split
      · exact hf _ _ _
      · exact hs.result
    · exact hs.result

theorem State.Inv.unpark (hs : s.Inv) {h : Nat} {pc : Va} : (s.unpark h pc).Inv := hs.setWeft.acquire.ready.retireIfEmpty.admitWefts

theorem State.Inv.execResume (hs : s.Inv) {c : CtxCmd} : Out.Inv (execResume c s) := hs.onParked fun _ _ _ => hs.unpark.result

theorem State.Inv.execRedirect (hs : s.Inv) {c : CtxCmd} : Out.Inv (execRedirect c s) :=
  hs.onParked fun _ _ _ => .ite hs.unpark.result hs.result

theorem State.Inv.execSetreg (hs : s.Inv) {c : CtxCmd} : Out.Inv (execSetreg c s) := by
  unfold Machine.execSetreg
  refine hs.onParked fun _ _ _ => ?_
  dsimp only
  split
  · exact hs.result
  · exact .ite hs.result (.ite hs.result hs.setWeft.result)

theorem State.Inv.execGetreg (hs : s.Inv) {c : CtxCmd} : Out.Inv (execGetreg c s) := by
  unfold Machine.execGetreg
  refine hs.onParked fun _ _ _ => ?_
  dsimp only
  split
  · exact hs.result
  · split
    · exact hs.result
    · split <;> exact hs.result

theorem State.Inv.stopHandlers (hs : s.Inv) {asid : Nat} : (s.stopHandlers asid).Inv := .foldl hs.setCtx.stopWefts fun _ _ ht => ht.setCore

theorem State.Inv.killCtx (hs : s.Inv) {asid : Nat} : (s.killCtx asid).Inv :=
  .setCtx (.flushFailures (.dropImages (.withdraw (.stopHandlers (.foldl hs.setCtx fun _ _ ht => ht.endSpan)))))

theorem State.Inv.execKill (hs : s.Inv) {c : CtxCmd} : Out.Inv (execKill c s) := by
  unfold Machine.execKill
  split
  · exact hs.result
  · exact hs.killCtx.result.wake
  · exact hs.result
  · exact hs.result

theorem State.Inv.execCtxset (hs : s.Inv) {c : CtxCmd} : Out.Inv (execCtxset c s) := by
  unfold Machine.execCtxset
  dsimp only
  split
  · exact hs.result
  · split
    · exact hs.result
    · exact hs.setCtx.journal.result

theorem State.Inv.answerHold (hs : s.Inv) {seq : Nat} {refuse : Bool} : (s.answerHold seq refuse).Inv := hs.frame

theorem State.Inv.execEngreply (hs : s.Inv) {c : CtxCmd} : Out.Inv (execEngreply c s) := by
  unfold Machine.execEngreply
  dsimp only
  split
  · exact hs.result
  · split
    · exact hs.result
    · exact hs.noteExempt.answerHold.result

theorem State.Inv.execWatchdogFire (hs : s.Inv) {asid now : Nat} : Out.Inv (execWatchdogFire asid now s) := by
  unfold Machine.execWatchdogFire
  dsimp only
  split
  · exact State.Inv.foldl hs.advanceTime.event fun _ _ ht => ht.takePend
  · exact hs.advanceTime

/-! ### The front end (R391 to R403, R412) -/

theorem State.Inv.slotRead (hs : s.Inv) {q : Queue} {level n off len : Nat} : (s.slotRead q level n off len).1.Inv := by
  unfold State.slotRead
  dsimp only
  split
  · split
    next heq' => exact hs.homeRead.fst heq'
    next heq' => exact hs.homeRead.fst heq'
  · exact hs.hubRead
  · exact hs

theorem State.Inv.refreshWords (hs : s.Inv) {x y : List Byte} {z : Nat} : (refreshWords s x y z).1.Inv := by
  fun_induction Machine.refreshWords
  · exact hs
  next heq _ _ heq₂ ih => exact (ih (hs.choose.fst heq)).fst heq₂

theorem State.Inv.refreshSlots (hs : s.Inv) {qid : Nat} {l : List FSlot} : (s.refreshSlots qid l).Inv := by
  induction l generalizing s with
  | nil => exact hs
  | cons f rest ih =>
    unfold State.refreshSlots
    dsimp only
    refine ih ?_
    split
    next heq => exact (hs.slotRead.fst heq).refreshWords.setQueue
    · exact hs

theorem State.Inv.fetchNext (hs : s.Inv) {qid : Nat} : (s.fetchNext qid).Inv := by
  unfold State.fetchNext
  dsimp only
  split
  · exact hs
  · split
    next heq' =>
      have ht := hs.slotRead.fst heq'
      split
      · exact ht
      · split
        next heq₃ => exact (ht.slotRead.fst heq₃).setQueue
        next heq₃ => exact (ht.slotRead.fst heq₃).heldOn
        next heq₃ =>
          have hu := ht.slotRead.fst heq₃
          split
          · exact hu.halt
          · exact hu
        next heq₃ =>
          have hv := ht.slotRead.fst heq₃
          split
          · exact hv.halt
          · exact hv
    next heq' => exact (hs.slotRead.fst heq').heldOn
    next heq' => exact .ite (hs.slotRead.fst heq').halt (hs.slotRead.fst heq')
    next heq' => exact .ite (hs.slotRead.fst heq').halt (hs.slotRead.fst heq')

theorem State.Inv.takeTurn (hs : s.Inv) {qid : Nat} : (s.takeTurn qid).Inv := hs.frame

theorem State.Inv.startPk (hs : s.Inv) {qid : Nat} : (s.startPk qid).2.Inv := hs.frame.setQueue

theorem State.Inv.finishPk (hs : s.Inv) {qid : Nat} : (s.finishPk qid).Inv := hs.frame

theorem State.Inv.goOn (hs : s.Inv) {qid : Nat} {k : GoKind} : (s.goOn qid k).Inv := hs.frame

theorem State.Inv.domainClean (hs : s.Inv) {asid : Nat} : (s.domainClean asid).1.Inv := by
  unfold State.domainClean
  dsimp only
  split
  · exact hs.markAll
  · exact hs

theorem State.Inv.settle (hs : s.Inv) {qid : Nat} {r : PkRes} (hr : r.Inv) : (s.settle qid r).Inv := by
  unfold State.settle
  dsimp only
  split
  · exact hr.finishPk
  · exact .setQueue (.mapD hs fun _ => hs.heldOn)
  · exact hr.halt
  · exact hr
  · exact hr.goOn

theorem State.Inv.settleGoing (hs : s.Inv) {qid : Nat} {g : Going} {r : PkRes} (hr : r.Inv) : (s.settleGoing qid g r).Inv := by
  unfold State.settleGoing
  split
  · exact hr.endGoing
  · exact .mapD hs fun _ => hs.heldOn
  · exact hr.haltGoing
  · exact hr
  · exact hr

theorem State.Inv.goClean (hs : s.Inv) {qid : Nat} {g : Going} : (s.goClean qid g).1.Inv := by
  unfold State.goClean
  split
  · exact hs.domainClean
  · exact hs

theorem State.Inv.retryGoing (hs : s.Inv) {qid : Nat} {k : GoKind → Bool} {f : State → Queue → Going → PkRes}
    (hf : ∀ t x y, t.Inv → (f t x y).Inv) :
    (s.retryGoing qid k f).Inv := by
  unfold State.retryGoing
  refine .foldl hs fun _ _ ht => .ite ht ?_
  split
  next heq' => exact ht.goClean.fst heq'
  next heq' => exact (ht.goClean.fst heq').settleGoing (hf _ _ _ (ht.goClean.fst heq'))

theorem State.Inv.packet (hs : s.Inv) {qid typ : Nat} {own : Bool} {f : State → Queue → List Byte → PkRes}
    (hf : ∀ t x y, t.Inv → (f t x y).Inv) :
    Out.Inv (s.packet qid typ own f) := by
  have ht : (if typ = 1 then s else s.takeTurn qid).Inv := .ite hs hs.takeTurn
  unfold State.packet
  dsimp only
  split
  · exact hs
  · split
    · exact hs
    · split
      · exact ht.halt
      · split
        · split
          next heq => exact State.Inv.settle (r := .held none) (ht.domainClean.fst heq) trivial
          next heq =>
            have hu := ht.domainClean.fst heq
            exact hu.settle (hf _ _ _ hu)
        · exact ht.settle (hf _ _ _ ht)

theorem State.Inv.hubThen {r : State × HubAns} {f : State → List Byte → PkRes} (hr : r.1.Inv) (hf : ∀ t x, t.Inv → (f t x).Inv) :
    (hubThen r f).Inv := by
  unfold Machine.hubThen
  split
  · exact hf _ _ hr
  · exact trivial
  · exact hr
  · exact hr

theorem State.Inv.hubDone {r : State × HubAns} (hr : r.1.Inv) : (hubDone r).Inv := hr.hubThen fun _ _ ht => ht

theorem State.Inv.execNopPacket (hs : s.Inv) {qid : Nat} : Out.Inv (execNopPacket qid s) := by
  unfold Machine.execNopPacket
  refine hs.packet fun _ _ _ ht => ?_
  split <;> exact ht

theorem State.Inv.testThen (hs : s.Inv) {q : Queue} {d : List Byte} {f : State → Bool → PkRes} (hf : ∀ t x, t.Inv → (f t x).Inv) :
    (testThen s q d f).Inv := by
  unfold Machine.testThen
  refine hs.hubRead.hubThen fun _ _ ht => ?_
  split
  · exact hf _ _ ht
  · exact ht

theorem State.Inv.execPredicate (hs : s.Inv) {qid : Nat} : Out.Inv (execPredicate qid s) := by
  unfold Machine.execPredicate
  refine hs.packet fun _ _ _ ht => ?_
  dsimp only
  split
  · exact ht
  · refine ht.testThen fun _ _ ht => ?_
    split
    · exact ht
    · exact ht.setQueue

theorem State.Inv.execLoop (hs : s.Inv) {qid : Nat} : Out.Inv (execLoop qid s) := by
  unfold Machine.execLoop
  refine hs.packet fun _ _ _ ht => ?_
  dsimp only
  split
  · exact ht
  · split
    · exact ht
    · split
      · split
        · exact trivial
        · exact ht
      · exact ht.setQueue

theorem State.Inv.moveLines (hs : s.Inv) {asid x y z : Nat} : (s.moveLines asid x y z).Inv := by
  fun_induction State.moveLines
  · exact hs
  next heq _ _ heq₂ ih => exact ih ((hs.hubRead.fst heq).hubWrite.fst heq₂)
  · exact trivial
  next heq _ _ heq₂ => exact (hs.hubRead.fst heq).hubWrite.fst heq₂
  next heq _ heq₂ => exact (hs.hubRead.fst heq).hubWrite.fst heq₂
  · exact trivial
  next heq => exact hs.hubRead.fst heq
  next heq => exact hs.hubRead.fst heq

theorem State.Inv.memPacket (hs : s.Inv) {asid n : Nat} {d : List Byte} : (s.memPacket asid n d).Inv := by
  unfold State.memPacket
  split
  · exact hs.hubWrite.hubDone
  · exact hs.hubWrite.hubDone
  · exact hs.moveLines

theorem State.Inv.memStart (hs : s.Inv) {q : Queue} {d : List Byte} : (s.memStart q d).Inv := by
  unfold State.memStart
  split
  next heq => exact hs.choose.fst heq
  next heq => exact (hs.choose.fst heq).memPacket

theorem State.Inv.memGo (hs : s.Inv) {q : Queue} {g : Going} : (s.memGo q g).Inv := by
  unfold State.memGo
  split
  next heq => exact hs.choose.fst heq
  next heq => exact (hs.choose.fst heq).memPacket

theorem State.Inv.execWritePacket (hs : s.Inv) {qid : Nat} : Out.Inv (execWritePacket qid s) := by
  unfold Machine.execWritePacket
  refine hs.packet fun _ _ _ ht => ?_
  dsimp only
  split
  · exact ht
  · exact ht.memStart

theorem State.Inv.execWait (hs : s.Inv) {qid now : Nat} : Out.Inv (execWait qid now s) := by
  unfold Machine.execWait
  refine hs.advanceTime.packet fun _ _ _ ht => ?_
  split
  · exact ht
  · refine ht.testThen fun _ _ ht => ?_
    split <;> exact ht

theorem State.Inv.execWaitPoll (hs : s.Inv) {qid : Nat} : Out.Inv (execWaitPoll qid s) := by
  unfold Machine.execWaitPoll
  refine hs.retryGoing fun _ _ _ ht => ht.testThen fun _ _ hu => ?_
  split <;> exact hu

theorem State.Inv.execWaitTimeout (hs : s.Inv) {qid now : Nat} : Out.Inv (execWaitTimeout qid now s) := by
  unfold Machine.execWaitTimeout
  dsimp only
  split
  · exact hs.advanceTime.haltGoing
  · exact hs.advanceTime

theorem State.Inv.execFetchfence (hs : s.Inv) {qid : Nat} : Out.Inv (execFetchfence qid s) := by
  unfold Machine.execFetchfence
  refine hs.packet fun _ _ _ ht => ?_
  dsimp only
  split
  · exact ht.setQueue
  · exact ht

theorem State.Inv.execSignalPacket (hs : s.Inv) {qid : Nat} : Out.Inv (execSignalPacket qid s) := by
  unfold Machine.execSignalPacket
  refine hs.packet fun _ _ _ ht => ?_
  split
  · exact ht
  · exact ht.memStart

theorem State.Inv.execCopy (hs : s.Inv) {qid : Nat} : Out.Inv (execCopy qid s) := by
  unfold Machine.execCopy
  refine hs.packet fun _ _ _ ht => ?_
  split
  · exact ht
  · exact ht.memStart

theorem State.Inv.execIndirect (hs : s.Inv) {qid : Nat} : Out.Inv (execIndirect qid s) := by
  unfold Machine.execIndirect
  refine hs.packet fun _ _ _ ht => ?_
  dsimp only
  split
  · exact ht
  · split
    · exact ht
    · exact ht.startPk.setQueue

theorem State.Inv.feedAll (hs : s.Inv) {fq : Nat} {l : List (List Byte)} {t : State} (h : s.feedAll fq l = some t) : t.Inv := by
  induction l generalizing s with
  | nil =>
    cases h
    exact hs
  | cons r rest ih =>
    unfold State.feedAll at h
    split at h
    next heq => exact ih (hs.feedAppend.fst heq) h
    next heq => exact ih (hs.feedAppend.fst heq) h
    · cases h

theorem State.Inv.execFeed (hs : s.Inv) {qid : Nat} : Out.Inv (execFeed qid s) := by
  unfold Machine.execFeed
  refine hs.packet fun _ _ _ ht => ?_
  dsimp only
  split
  · exact ht
  · split
    next heq₂ => exact ht.feedAll heq₂
    · exact ht

theorem State.Inv.execFeedAppendRetry (hs : s.Inv) {qid : Nat} : Out.Inv (execFeedAppendRetry qid s) := by
  unfold Machine.execFeedAppendRetry
  refine hs.retryGoing fun _ _ _ ht => ?_
  split
  next heq' => exact ht.feedAll heq'
  · exact ht

theorem State.Inv.execFeedMove (hs : s.Inv) {q : Nat} : Out.Inv (execFeedMove q s) := hs.feedMove1

theorem State.Inv.execSlotFetch (hs : s.Inv) {qid : Nat} : Out.Inv (execSlotFetch qid s) := by
  unfold Machine.execSlotFetch
  dsimp only
  split
  · split
    · exact hs.retryGoing fun _ _ _ ht => ht.memGo
    · split
      · exact State.Inv.fetchNext (.refreshSlots (hs.retryGoing fun _ _ _ ht => ht.memGo))
      · split
        · exact State.Inv.fetchNext (.refreshSlots (hs.retryGoing fun _ _ _ ht => ht.memGo))
        · split
          · exact State.Inv.setQueue (.fetchNext (.refreshSlots (hs.retryGoing fun _ _ _ ht => ht.memGo)))
          · split
            · exact State.Inv.halt (.fetchNext (.refreshSlots (hs.retryGoing fun _ _ _ ht => ht.memGo)))
            · exact State.Inv.fetchNext (.refreshSlots (hs.retryGoing fun _ _ _ ht => ht.memGo))
  · split
    · exact hs
    · split
      · exact hs.refreshSlots.fetchNext
      · split
        · exact hs.refreshSlots.fetchNext
        · split
          · exact hs.refreshSlots.fetchNext.setQueue
          · split
            · exact hs.refreshSlots.fetchNext.halt
            · exact hs.refreshSlots.fetchNext

theorem State.Inv.execBind (hs : s.Inv) {qid : Nat} : Out.Inv (execBind qid s) := by
  unfold Machine.execBind
  refine hs.packet fun _ _ _ ht => ?_
  dsimp only
  split
  · exact ht
  · refine ht.hubRead.hubThen fun _ _ ht => ?_
    split
    · exact ht
    · exact ht.setQueue

/-! ### The package's service (R331 to R334, R361 to R368, R448 to R453) -/

theorem State.Inv.degrade (hs : s.Inv) : s.degrade.Inv := hs.frame

theorem State.Inv.killUnreadable (hs : s.Inv) {bs : List Nat} : (s.killUnreadable bs).Inv := .foldl hs fun _ _ ht => ht.killCtx

theorem State.Inv.emptyCaches (hs : s.Inv) {n : Nat} : (s.emptyCaches n).Inv := by
  unfold State.emptyCaches
  exact State.Inv.frame (.foldl hs fun _ _ ht => ht.recall)

theorem State.Inv.clusterLeaves (hs : s.Inv) {c : Nat} : (s.clusterLeaves c).Inv := by
  unfold State.clusterLeaves
  extract_lets mine t u v
  have hu : u.Inv := .foldl hs.killUnreadable fun _ _ ht => ht.emptyCaches
  exact .degrade (.foldl hu.frame fun _ _ ht => ht.boltOff)

theorem State.Inv.retirePosition (hs : s.Inv) {n : Nat} : (s.retirePosition n).Inv := by
  unfold State.retirePosition
  dsimp only
  split
  · exact hs
  · split
    · exact hs.clusterLeaves
    · refine .admitWefts (.foldl (.frame (.foldl hs.killUnreadable.emptyCaches fun _ _ ht => ?_)) fun _ _ ht => ?_)
      · exact ht.boltOff
      · exact ht.boltOn

theorem State.Inv.retirePhysical (hs : s.Inv) {c p : Nat} : (s.retirePhysical c p).Inv := by
  unfold State.retirePhysical
  dsimp only
  split
  · exact hs.frame
  · split
    · exact hs.retirePosition
    · exact hs

theorem State.Inv.repairRow (hs : s.Inv) {die idx : Nat} : (s.repairRow die idx).Inv := .ite hs.degrade hs.frame

theorem State.Inv.eraseDie (hs : s.Inv) {die idx : Nat} : (s.eraseDie die idx).Inv := .ite hs.frame.degrade hs

theorem State.Inv.setPort (hs : s.Inv) {n : Nat} {p : Port} : (s.setPort n p).Inv := hs.frame

theorem State.Inv.putMap (hs : s.Inv) {i : Nat} {l : List Byte} : (s.putMap i l).Inv := hs.frame

theorem State.Inv.tellPeers (hs : s.Inv) : s.tellPeers.Inv := .foldl hs fun _ _ ht => ht.frame.emit

theorem State.Inv.portChange (hs : s.Inv) {port : Nat} {up : Bool} : (s.portChange port up).Inv := hs.setPort.event.putMap.tellPeers

theorem State.Inv.laneLost (hs : s.Inv) {port : Nat} : (s.laneLost port).Inv := .ite hs.setPort hs.portChange.degrade

theorem State.Inv.setQcore (hs : s.Inv) {h : Nat} {q : QCore} : (s.setQcore h q).Inv := hs.frame

theorem State.Inv.giveBack (hs : s.Inv) {h : Nat} : (s.giveBack h).Inv := by
  unfold State.giveBack
  dsimp only
  split
  · exact hs.frame
  · exact hs

theorem State.Inv.takeOver (hs : s.Inv) : s.takeOver.Inv := by
  unfold State.takeOver
  dsimp only
  split
  · exact hs.degrade
  · refine .foldl (.foldl hs.frame.setHart fun _ _ ht => ?_) fun _ _ ht => ht.commit
    split
    · exact ht.bindSlot
    · exact ht

theorem State.Inv.execSupervisorTakeover (hs : s.Inv) : Out.Inv (execSupervisorTakeover s) := hs.takeOver

theorem State.Inv.retireHart (hs : s.Inv) {h : Nat} : (s.retireHart h).Inv := hs.frame

theorem State.Inv.hartLost (hs : s.Inv) {h : Nat} : (s.hartLost h).Inv := by
  have ht : (s.retireHart h).Inv := hs.retireHart
  unfold State.hartLost
  dsimp only
  split
  · exact .ite ht.degrade ht
  · split
    · exact .ite ht.takeOver ht.frame.degrade
    · exact ht.giveBack.setQcore

theorem State.Inv.setUnit (hs : s.Inv) {u : UnitRec} : (s.setUnit u).Inv := hs.frame

theorem State.Inv.unitAction (hs : s.Inv) {u : UnitRec} : (s.unitAction u).Inv := by
  unfold State.unitAction
  split
  · exact hs.retirePhysical
  · exact hs.retirePhysical
  · exact hs.repairRow
  · exact hs.eraseDie
  · exact hs.laneLost
  · exact hs.hartLost
  · exact hs

theorem State.Inv.countOne (hs : s.Inv) {cls die idx : Nat} {atOnce enough : Bool} : (s.countOne cls die idx atOnce enough).Inv :=
  .ite hs.setUnit.unitAction hs.setUnit

theorem State.Inv.countUnit (hs : s.Inv) {cls die idx : Nat} {atOnce : Bool} : (s.countUnit cls die idx atOnce).Inv :=
  .ite hs.countOne.countOne hs.countOne

theorem State.Inv.errNow (hs : s.Inv) {e : ErrIn} : (s.errNow e).2.Inv := .ite hs.event.irqErr hs.event

theorem State.Inv.execErrorRecord (hs : s.Inv) {e : ErrIn} : Out.Inv (execErrorRecord e s) := by
  unfold Machine.execErrorRecord
  dsimp only
  split
  · split
    · exact hs.advanceTime.frame.frame.countUnit
    · exact hs.advanceTime.frame.frame
  · split
    · exact hs.advanceTime.errNow.frame.countUnit
    · exact hs.advanceTime.errNow.frame

theorem State.Inv.execLateralLinkRetry (hs : s.Inv) {link now : Nat} : Out.Inv (execLateralLinkRetry link now s) := hs.advanceTime.countUnit

theorem State.Inv.execPatrolScrub (hs : s.Inv) {pa now : Nat} : Out.Inv (execPatrolScrub pa now s) := by
  unfold Machine.execPatrolScrub
  dsimp only
  split
  · exact State.Inv.ite hs.advanceTime.lineEvent hs.advanceTime
  · split
    · exact hs.advanceTime.errEvent
    · exact State.Inv.ite hs.advanceTime.errEvent hs.advanceTime

theorem State.Inv.execHbmStackLoss (hs : s.Inv) {stack : Nat} : Out.Inv (execHbmStackLoss stack s) := by
  unfold Machine.execHbmStackLoss
  split
  · exact hs.frame.degrade
  · exact hs

theorem State.Inv.accessFault (hs : s.Inv) {hart : Nat} {write : Bool} : (s.accessFault hart write).Inv := hs.setHart.countUnit

theorem State.Inv.execHubAccessFault (hs : s.Inv) {hart : Nat} {res : HubRes} {write : Bool} {now : Nat} :
    Out.Inv (execHubAccessFault hart res write now s) := by
  unfold Machine.execHubAccessFault
  dsimp only
  split
  · exact hs.advanceTime
  · exact hs.advanceTime.accessFault

theorem State.Inv.execEventDispatch (hs : s.Inv) {hart : Nat} : Out.Inv (execEventDispatch hart s) := by
  unfold Machine.execEventDispatch
  dsimp only
  split
  · exact hs
  · split
    · exact hs.setQcore
    · exact hs.frame

theorem State.Inv.execQueueCoreWatchdog (hs : s.Inv) {hart now : Nat} : Out.Inv (execQueueCoreWatchdog hart now s) := by
  unfold Machine.execQueueCoreWatchdog
  dsimp only
  split
  · exact hs.advanceTime
  · split
    · exact hs.advanceTime.giveBack.setQcore.countUnit
    · exact hs.advanceTime.setQcore

theorem State.Inv.loadImage (hs : s.Inv) {l : List (List Byte)} {kind : Nat} {t : State} (h : s.loadImage l kind = .inr t) : t.Inv := by
  unfold State.loadImage at h
  split at h <;> cases h
  exact State.Inv.hubPutBytes hs.frame

theorem State.Inv.loadImages (hs : s.Inv) {l : List (List Byte)} {kinds : List Nat} {t : State} (h : s.loadImages l kinds = .inr t) :
    t.Inv := by
  induction kinds generalizing s with
  | nil =>
    cases h
    exact hs
  | cons k rest ih =>
    unfold State.loadImages at h
    split at h
    · cases h
    next heq => exact ih (hs.loadImage heq) h

theorem State.Inv.startHart (hs : s.Inv) {h kind : Nat} : (s.startHart h kind).Inv := hs.frame

theorem State.Inv.bootStop (hs : s.Inv) {b : BootIn} {code step : Nat} : (s.bootStop b code step).Inv := by
  unfold State.bootStop
  exact hs.frame

theorem State.Inv.bootEnd (hs : s.Inv) {b : BootIn} : (s.bootEnd b).Inv := by
  unfold State.bootEnd
  extract_lets qs t u
  have hu : u.Inv := .foldl hs.startHart.startHart.startHart fun _ _ ht => ht.startHart
  exact .ite hs.bootStop hu.frame

theorem State.Inv.bootPorts (hs : s.Inv) {b : BootIn} : (s.bootPorts b).Inv := .ite hs.bootStop hs.frame.bootEnd

theorem State.Inv.bootDies (hs : s.Inv) {b : BootIn} : (s.bootDies b).Inv := .ite hs.bootStop hs.frame.bootPorts

theorem State.Inv.bootLoad (hs : s.Inv) {b : BootIn} : (s.bootLoad b).Inv := by
  unfold State.bootLoad
  split
  · exact hs.bootStop
  next heq => exact .bootDies (hs.loadImages heq)

theorem State.Inv.bootHbm (hs : s.Inv) {b : BootIn} : (s.bootHbm b).Inv := .ite hs.bootStop hs.frame.bootLoad

theorem State.Inv.bootStart (hs : s.Inv) {b : BootIn} : (s.bootStart b).Inv := by
  unfold State.bootStart
  dsimp only
  split
  · exact hs.bootStop
  · split
    · exact hs.frame.bootStop
    · split
      · exact hs.frame.bootStop
      next heq =>
        have ht := State.Inv.loadImage hs.frame heq
        exact ht.frame.startHart.bootHbm

theorem State.Inv.kept : s.kept.Inv := State.Inv.frame resetHasInvariant

theorem State.Inv.execDeviceReset {b : BootIn} : Out.Inv (execDeviceReset b s) := State.Inv.kept.bootStart

theorem State.Inv.execAttestationReport (hs : s.Inv) {nonce : List Byte} : Out.Inv (execAttestationReport nonce s) := by
  unfold Machine.execAttestationReport
  dsimp only
  split
  · exact hs.frame
  · exact hs

theorem State.Inv.execSvnMinimumRaise (hs : s.Inv) {kind : Nat} {cmd sig : List Byte} : Out.Inv (execSvnMinimumRaise kind cmd sig s) := by
  unfold Machine.execSvnMinimumRaise
  dsimp only
  split
  · exact hs.frame
  · exact hs

theorem State.Inv.execPldmFirmwareUpdate (hs : s.Inv) {image : List Byte} : Out.Inv (execPldmFirmwareUpdate image s) := hs.frame

theorem State.Inv.execPstepEval (hs : s.Inv) {watts temp now : Nat} : Out.Inv (execPstepEval watts temp now s) := by
  have ht : (s.advanceTime now).Inv := hs.advanceTime
  have hk : (s.advanceTime now).kept.Inv := State.Inv.kept
  unfold Machine.execPstepEval
  dsimp only
  split
  · exact hk.frame
  · exact ht.frame

theorem State.Inv.execPowerCapCall (hs : s.Inv) {watts : Nat} : Out.Inv (execPowerCapCall watts s) := hs.frame

/-! ### Spans from dispatch to completion (R404 to R408, R425) -/

theorem State.Inv.setSplit (hs : s.Inv) {k split : Nat} : (s.setSplit k split).Inv := hs.frame

theorem State.Inv.launchBolt (hs : s.Inv) {k : Kernel} {args : List (Dword × BitVec 6)} {course id core : Nat} :
    (s.launchBolt k args course id core).Inv := .foldl hs.setBolt fun _ _ ht => ht.addWeft

theorem State.Inv.acquireCores (hs : s.Inv) {x : Span} {cores : List Nat} : (s.acquireCores x cores).Inv :=
  .ite hs (.foldl hs fun _ _ ht => ht.acquireL1)

theorem State.Inv.launchCourse (hs : s.Inv) {sp : Nat} {cores : List Nat} : (s.launchCourse sp cores).Inv :=
  .progressed (.foldl (.setSpan (.foldl hs.setSplit.setCourse.acquireCores fun _ _ ht => ht.launchBolt)) fun _ _ ht => ht.admitWefts)

theorem State.Inv.replant (hs : s.Inv) {sp c : Nat} {cores : List Nat} {t : State} (h : s.replant sp c cores = some t) : t.Inv := by
  unfold State.replant at h
  dsimp only at h
  split at h
  · cases h
  · split at h <;> cases h
    refine State.Inv.progressed (.foldl (.foldl (.foldl (.foldl ?_ ?_) ?_) ?_) ?_)
    · exact hs.setSplit.setCourse
    · exact fun _ _ ht => ht.setBolt
    · exact fun _ _ ht => ht.acquireL1
    · exact fun _ _ ht => ht.boltOn
    · exact fun _ _ ht => ht.admitWefts

theorem State.Inv.replantAll (hs : s.Inv) {sp : Nat} {l cores : List Nat} {t : State} (h : s.replantAll sp l cores = some t) : t.Inv := by
  induction l generalizing s cores with
  | nil =>
    cases h
    exact hs
  | cons c rest ih =>
    unfold State.replantAll at h
    dsimp only at h
    split at h
    · cases h
    · split at h
      next heq => exact ih (hs.replant heq) h
      · cases h

theorem State.Inv.launchAll (hs : s.Inv) {sp n : Nat} {cores : List Nat} {t : State} (h : s.launchAll sp n cores = some t) : t.Inv := by
  induction n generalizing s cores with
  | zero =>
    cases h
    exact hs
  | succ n ih =>
    unfold State.launchAll at h
    dsimp only at h
    split at h
    · exact ih hs.launchCourse h
    · cases h

theorem State.Inv.dispatchStarts (hs : s.Inv) {sp : Nat} : (s.dispatchStarts sp).Inv := .ite hs.frame hs

theorem State.Inv.execCoursePlacement (hs : s.Inv) {span cluster : Nat} {cores : List Nat} :
    Out.Inv (execCoursePlacement span cluster cores s) := by
  unfold Machine.execCoursePlacement
  dsimp only
  split
  · split
    · exact hs
    · split
      · exact State.Inv.getD hs fun _ e => hs.replantAll e
      · split
        · split
          · exact hs
          · split
            next heq₅ => exact State.Inv.dispatchStarts (hs.launchAll heq₅)
            · exact hs
        · split
          · exact hs
          · split
            next heq₅ => exact State.Inv.dispatchStarts (hs.launchAll heq₅)
            · exact hs
  · split
    · exact hs
    · split
      · exact State.Inv.getD hs fun _ e => hs.replantAll e
      · split
        · split
          · exact hs
          · split
            next heq₅ => exact State.Inv.dispatchStarts (hs.launchAll heq₅)
            · exact hs
        · split
          · exact hs
          · split
            next heq₅ => exact State.Inv.dispatchStarts (hs.launchAll heq₅)
            · exact hs

theorem State.Inv.readThen {r : State × HubAns} {f : State → List Byte → State × DispRes} (hr : r.1.Inv)
    (hf : ∀ t x, t.Inv → (f t x).1.Inv) :
    (readThen r f).1.Inv := by
  unfold Machine.readThen
  split
  · exact hf _ _ hr
  · exact hr
  · exact hr
  · exact hr

theorem State.Inv.dispatchCheck (hs : s.Inv) {asid : Nat} {d : List Byte} : (s.dispatchCheck asid d).1.Inv := by
  unfold State.dispatchCheck
  dsimp only
  split
  · exact hs
  · refine hs.hubRead.readThen fun _ _ ht => ht.hubRead.readThen fun _ _ hu => ?_
    split
    · exact hu
    · split
      · exact hu
      · split
        · exact hu
        · split
          · exact hu
          · split
            · exact hu
            · split <;> exact hu

theorem State.Inv.refuseDispatch (hs : s.Inv) {qid : Nat} {q : Queue} {d : List Byte} {status : Nat} :
    (s.refuseDispatch qid q d status).Inv := by
  unfold State.refuseDispatch
  dsimp only
  split
  · split
    next heq' => exact (hs.domainClean.fst heq').setQueue
    next heq' =>
      split
      next heq₂ => exact State.Inv.takeTurn ((hs.domainClean.fst heq').event.putRecord heq₂)
      · exact trivial
  · split
    next heq' => exact State.Inv.takeTurn (hs.event.putRecord heq')
    · exact trivial

theorem State.Inv.execDispatch (hs : s.Inv) {qid : Nat} : Out.Inv (execDispatch qid s) := by
  unfold Machine.execDispatch
  refine hs.packet fun _ _ _ ht => ?_
  dsimp only
  split
  · exact ht
  · split
    · exact trivial
    next heq₂ => exact ht.dispatchCheck.fst heq₂
    next heq₂ => exact (ht.dispatchCheck.fst heq₂).refuseDispatch
    next heq₂ => exact (ht.dispatchCheck.fst heq₂).setSpan.setQueue

theorem State.Inv.dropCapture (hs : s.Inv) {sp : Nat} : (s.dropCapture sp).Inv := by
  unfold State.dropCapture
  dsimp only
  split
  · exact hs
  · exact hs.setSpan.endCapturing

theorem State.Inv.completeSpan (hs : s.Inv) {sp : Nat} : (s.completeSpan sp).Inv := by
  unfold State.completeSpan
  dsimp only
  split
  · exact hs.dropCapture.setSpan.event.flushFailures
  · exact hs.dropCapture.setSpan.event

theorem State.Inv.execSpanComplete (hs : s.Inv) {span : Nat} : Out.Inv (execSpanComplete span s) := State.Inv.ite hs.completeSpan hs

theorem State.Inv.recordDone (hs : s.Inv) {sp : Nat} : (s.recordDone sp).Inv := by
  unfold State.recordDone
  dsimp only
  split
  · exact .ite hs.setSpan.setQueue.finishPk hs.setSpan.setQueue
  · split
    · exact State.Inv.finishPk hs.frame
    · exact hs.frame

theorem State.Inv.execCompletionRecordWrite (hs : s.Inv) {span : Nat} : Out.Inv (execCompletionRecordWrite span s) := by
  have hp : (if (s.span span).rel % 4 = 2 then s.domainClean (s.span span).asid else (s, true)).1.Inv := by
    split
    · exact hs.domainClean
    · exact hs
  unfold Machine.execCompletionRecordWrite
  dsimp only
  split
  · exact hs
  · split
    · exact hs
    · split
      next heq => exact hp.fst heq
      next heq =>
        have ht := hp.fst heq
        split
        · exact ht.heldOn
        next heq' => exact (ht.putRecord heq').recordDone

theorem State.Inv.makeRoom (hs : s.Inv) {qid asid : Nat} {d : List Byte} {x : List Nat} : (s.makeRoom qid asid d x).Inv := by
  fun_induction State.makeRoom
  · exact hs
  · exact hs
  next heq _ ih => exact ih (hs.stamp.snd heq).spanOff.setSpan

theorem State.Inv.deadlineOf (hs : s.Inv) {qid : Nat} : (s.deadlineOf qid).Inv := by
  unfold State.deadlineOf
  dsimp only
  split
  · exact hs
  · exact .ite hs.makeRoom hs

theorem State.Inv.comeBack (hs : s.Inv) : s.comeBack.Inv := .foldl hs fun _ _ ht => .ite ht.spanOn.setSpan ht

theorem State.Inv.execDeadlineCheck (hs : s.Inv) {now : Nat} : Out.Inv (execDeadlineCheck now s) :=
  State.Inv.comeBack (.foldl hs.advanceTime fun _ _ ht => ht.deadlineOf)

/-! ### Pre-emption and checkpoint (R427 to R430, R442, R443) -/

theorem State.Inv.resetSeek (hs : s.Inv) {sp : Nat} : (s.resetSeek sp).Inv := .foldl hs fun _ _ ht => ht.mapWeft

theorem State.Inv.trySeek (hs : s.Inv) {sp : Nat} : (s.trySeek sp).Inv := by
  unfold State.trySeek
  dsimp only
  split
  · exact hs
  · exact .ite hs hs.setSpan.resetSeek

theorem State.Inv.execDeferExpiry (hs : s.Inv) {span now : Nat} : Out.Inv (execDeferExpiry span now s) := hs.advanceTime.trySeek

theorem State.Inv.askCapture (hs : s.Inv) {sp : Nat} {c : CaptureReq} : (s.askCapture sp c).Inv := by
  unfold State.askCapture
  dsimp only
  split
  · exact trivial
  · exact hs.setSpan.trySeek

theorem State.Inv.preempt (hs : s.Inv) {qid md : Nat} {f : State → Queue → List Byte → PkRes} (hf : ∀ t x y, t.Inv → (f t x y).Inv) :
    Out.Inv (s.preempt qid md f) := by
  unfold State.preempt
  split
  · exact hs
  · split
    · exact hs
    · refine hs.packet fun _ _ _ ht => ?_
      split
      · exact ht
      · exact hf _ _ _ ht

theorem State.Inv.execPreemptSwitch (hs : s.Inv) {qid : Nat} : Out.Inv (execPreemptSwitch qid s) := by
  unfold Machine.execPreemptSwitch
  refine hs.preempt fun _ _ _ ht => ?_
  split
  · exact ht
  · exact ht.spanOff

theorem State.Inv.preemptImage (hs : s.Inv) {qid md : Nat} : Out.Inv (s.preemptImage qid md) := by
  unfold State.preemptImage
  refine hs.preempt fun _ _ _ ht => ?_
  split
  · exact ht
  · exact ht.askCapture

theorem State.Inv.execPreemptSave (hs : s.Inv) {qid now : Nat} : Out.Inv (execPreemptSave qid now s) := hs.advanceTime.preemptImage

theorem State.Inv.execPreemptMove (hs : s.Inv) {qid now : Nat} : Out.Inv (execPreemptMove qid now s) := hs.advanceTime.preemptImage

theorem State.Inv.readTiers (hs : s.Inv) {asid x y : Nat} {z : List (Nat × Dword × Nat × Nat × Dword)}
    {u : State → List (Nat × Dword × Nat × Nat × Dword) → PkRes} (hu : ∀ t x, t.Inv → (u t x).Inv) :
    (s.readTiers asid x y z u).Inv := by
  fun_induction State.readTiers
  · exact hu _ _ hs
  next ih =>
    refine hs.hubRead.hubThen fun _ _ ht => ?_
    split
    · exact hu _ _ ht
    · split
      · exact ht
      · exact ih _ _ ht fun _ _ ht => hu _ _ ht

theorem State.Inv.execCheckpoint (hs : s.Inv) {qid now : Nat} : Out.Inv (execCheckpoint qid now s) := by
  unfold Machine.execCheckpoint
  refine hs.advanceTime.packet fun _ _ _ ht => ?_
  split
  · exact ht
  · split
    · exact ht
    · exact ht.readTiers fun _ _ ht => ht.askCapture

theorem State.Inv.pendFailures (hs : s.Inv) {asid : Nat} {x : List Nat} : (s.pendFailures asid x).Inv := by
  fun_induction State.pendFailures
  · exact hs.flushFailures
  next ih => exact ih hs
  · exact hs
  next heq _ ih => exact ih (.mapWeft (hs.takeFailure heq))

theorem State.Inv.quiesce (hs : s.Inv) {sp : Nat} : (s.quiesce sp).Inv := .foldl hs.frame fun _ _ ht => ht.recall

theorem State.Inv.abandon (hs : s.Inv) {sp qid err : Nat} : (s.abandon sp qid err).Inv := hs.setSpan.resetSeek.haltCapturing

theorem State.Inv.dropSeqs (hs : s.Inv) {sp : Nat} {pages : List (Nat × Nat)} {last : Bool} : (s.dropSeqs sp pages last).Inv :=
  .foldl hs.frame fun _ _ ht => ht.setAcc

theorem State.Inv.releaseSpan (hs : s.Inv) {sp : Nat} {pages : List (Nat × Nat)} : (s.releaseSpan sp pages).Inv := by
  unfold State.releaseSpan
  extract_lets _ _ _ _ _ _ _ t _ u v w x y
  have ht : t.Inv := .foldl hs.dropSeqs fun _ _ ht => ht.setCore
  have hv : v.Inv := State.Inv.frame (s := t) ht
  have hw : w.Inv := .foldl hv fun _ _ ht => ht.mapWeft
  have hx : x.Inv := .foldl hw fun _ _ ht => ht.setBolt
  have hy : y.Inv := .foldl hx fun _ _ ht => ht.setCourse
  exact .foldl (State.Inv.frame hy) fun _ _ ht => ht.admitWefts

theorem State.Inv.holdPages (hs : s.Inv) {asid : Nat} {digest : List Byte} {leaves : List Leaf} : (s.holdPages asid digest leaves).Inv := by
  unfold State.holdPages
  extract_lets t pages
  have ht : t.Inv := .foldl hs fun _ _ ht => ht.homeWrite
  exact ht.frame

theorem State.Inv.takeImage (hs : s.Inv) {sp : Nat} {c : CaptureReq} : (s.takeImage sp c).Inv := by
  unfold State.takeImage
  dsimp only
  split
  next heq => exact .endCapturing (.ite (hs.hubWrite.fst heq).releaseSpan.holdPages (hs.hubWrite.fst heq).releaseSpan)
  · exact hs.heldOn
  next heq => exact (hs.hubWrite.fst heq).abandon

theorem State.Inv.takeCheckpoint (hs : s.Inv) {sp : Nat} {c : CaptureReq} : (s.takeCheckpoint sp c).Inv :=
  .ite hs.abandon hs.setSpan.resetSeek.frame

theorem State.Inv.execCapture (hs : s.Inv) {span : Nat} : Out.Inv (execCapture span s) := by
  unfold Machine.execCapture
  dsimp only
  split
  · exact hs
  · split
    · exact hs
    · split
      next heq₂ => exact hs.domainClean.fst heq₂
      next heq₂ =>
        have ht := hs.domainClean.fst heq₂
        split
        · exact ht.pendFailures.quiesce.abandon
        · split
          · exact ht.pendFailures.quiesce.takeCheckpoint
          · split
            · exact ht.pendFailures.quiesce
            · exact ht.pendFailures.quiesce.takeImage.wake

theorem State.Inv.ckptDone (hs : s.Inv) : s.ckptDone.Inv := by
  unfold State.ckptDone
  dsimp only
  split
  · exact hs
  · exact hs.frame.endCapturing

theorem State.Inv.ckptFail (hs : s.Inv) {c : Ckpt} {err : Nat} : (s.ckptFail c err).Inv := hs.frame.haltCapturing

theorem State.Inv.execCheckpointDrain (hs : s.Inv) {n : Nat} : Out.Inv (execCheckpointDrain n s) := by
  unfold Machine.execCheckpointDrain
  dsimp only
  split
  · exact hs
  · split
    · exact hs.sendPiece.frame
    · split
      · exact hs.recallRange.lineEvent.ckptFail
      · exact hs.recallRange.drainOf.frame
    · exact hs.ckptDone

end Sys2Proof.Machine
end

section
/-! ## What every step keeps: the fabric, restores, gateways and the step -/

namespace Sys2Proof.Machine

set_option Elab.async false

variable {s : State}

/-! ### The decode instructions (R167 to R171) -/

theorem State.Inv.issueDecode (hs : s.Inv) {h : Nat} {d c : Reg} {sel : Mask} {x : Expansion} : (s.issueDecode h d c sel x).Inv := by
  unfold State.issueDecode
  extract_lets w b dead curDead u
  have hu : u.Inv := .foldl hs fun _ _ ht => ht.spaceSplit
  refine State.Inv.setWeft ?_
  split
  · exact hu.stamp.errEvent
  · exact hu.stamp

theorem State.Inv.decode (hs : s.Inv) {h : Nat} {g : Guard} {ops : List Opnd} {a : Src} {d c : Reg}
    {ex : Weft → Bolt → Stream → Expansion} :
    (s.decode h g ops a d c ex).Inv := by
  unfold State.decode
  refine hs.access fun _ _ => ?_
  dsimp only
  split
  · exact hs
  · split
    · exact hs
    · exact hs.issueDecode

theorem State.Inv.execDecrle (hs : s.Inv) {o : DecArgs} : Out.Inv (execDecrle o s) := hs.runWeft fun _ _ ht => ht.decode

theorem State.Inv.execDecbits (hs : s.Inv) {o : DecArgs} : Out.Inv (execDecbits o s) := hs.runWeft fun _ _ ht => ht.decode

theorem State.Inv.execDecdelta (hs : s.Inv) {o : DecdArgs} : Out.Inv (execDecdelta o s) := hs.runWeft fun _ _ ht => ht.decode

theorem State.Inv.execDecsign (hs : s.Inv) {o : DecsArgs} : Out.Inv (execDecsign o s) := hs.runWeft fun _ _ ht => ht.decode

/-! ### Links and the router (R456 to R469) -/

theorem State.Inv.countLane (hs : s.Inv) {port lane : Nat} : (s.countLane port lane).Inv := hs.countUnit

theorem State.Inv.countLink (hs : s.Inv) {port : Nat} : (s.countLink port).Inv := hs.frame

theorem State.Inv.damaged (hs : s.Inv) {port : Nat} {f : Flit} : (s.damaged port f).Inv := by
  unfold State.damaged
  dsimp only
  split
  · exact hs.setPort.countLink
  · exact .foldl hs.setPort fun _ _ ht => ht.countLane

theorem State.Inv.execFlitReceive (hs : s.Inv) {port : Nat} {f : Flit} {now : Nat} : Out.Inv (execFlitReceive port f now s) := by
  unfold Machine.execFlitReceive
  dsimp only
  split
  · exact hs.advanceTime
  · split
    · exact hs.advanceTime.damaged
    · split <;> split <;> exact hs.advanceTime.setPort

theorem State.Inv.execSymbolLockLoss (hs : s.Inv) {port lane now : Nat} : Out.Inv (execSymbolLockLoss port lane now s) := by
  unfold Machine.execSymbolLockLoss
  dsimp only
  split
  · exact hs.advanceTime.countLane
  · exact hs.advanceTime

theorem State.Inv.execPortStateChange (hs : s.Inv) {port : Nat} {up : Bool} : Out.Inv (execPortStateChange port up s) := by
  unfold Machine.execPortStateChange
  dsimp only
  split
  · exact hs
  · exact hs.setPort.portChange

theorem State.Inv.sendOn (hs : s.Inv) {port vc : Nat} {x : Packet} {t : State} (h : s.sendOn port vc x = some t) : t.Inv := by
  unfold State.sendOn at h
  dsimp only at h
  split at h <;> cases h
  exact hs.frame

theorem State.Inv.dropPacket (hs : s.Inv) {p : Packet} {reason : Nat} : (s.dropPacket p reason).Inv := .ite hs (.ite hs.frame hs.emit)

theorem State.Inv.deliver (hs : s.Inv) {p : Packet} : (s.deliver p).Inv := .ite hs.dropPacket (.ite hs.event hs.frame)

theorem State.Inv.forward (hs : s.Inv) {p : Packet} {t : State} (h : s.forward p = some t) : t.Inv := by
  unfold State.forward at h
  split at h
  · cases h
    exact hs.dropPacket
  · exact hs.sendOn h

theorem State.Inv.atRouter (hs : s.Inv) {p : Packet} {t : State} (h : s.atRouter p = some t) : t.Inv := by
  unfold State.atRouter at h
  split at h
  · cases h
    exact hs.dropPacket
  · split at h
    · exact hs.forward h
    · split at h
      · cases h
        exact hs.deliver
      · split at h
        · cases h
          exact hs.dropPacket
        · exact hs.forward h

theorem State.Inv.startPacket (hs : s.Inv) {p : Packet} {t : State} (h : s.startPacket p = some t) : t.Inv := by
  unfold State.startPacket at h
  split at h
  · cases h
    exact hs.dropPacket
  · split at h
    · cases h
      exact hs.dropPacket
    · exact hs.forward h

theorem State.Inv.execRouterHop (hs : s.Inv) {p : Packet} : Out.Inv (execRouterHop p s) := by
  unfold Machine.execRouterHop
  dsimp only
  split
  · split
    · exact hs.frame
    · split
      · exact State.Inv.getD hs fun _ e => hs.frame.startPacket e
      · exact hs
  · split
    · exact State.Inv.getD hs fun _ e => hs.atRouter e
    · exact hs

/-! ### RESTORE (R435 to R438) -/

theorem State.Inv.followLeaf (hs : s.Inv) {digest : List Byte} {perm vpn a : Nat} : (s.followLeaf digest perm vpn a).Inv := hs.homeWrite

theorem State.Inv.followPages (hs : s.Inv) {asid : Nat} {x : Image} : (s.followPages asid x).Inv := by
  unfold State.followPages
  extract_lets all t away new u v
  have hu : u.Inv := .foldl hs.frame fun _ _ ht => .foldl ht fun _ _ hv => by
    split
    · exact hv.followLeaf
    · exact hv
  exact .ite hs (.releaseHolders hu.frame)

theorem State.Inv.plantWeft (hs : s.Inv) {p : Planting} {x : ImgWeft} : (p.weft s x).Inv := by
  unfold Planting.weft
  refine State.Inv.foldl hs.frame fun t f ht => ?_
  split
  · exact ht.setFeed
  · exact ht

theorem State.Inv.fillFeed (hs : s.Inv) {x : ImgFeed} {q : FeedQ} : (ImgFeed.fill x q s).Inv := .foldl hs fun _ _ ht => ht.aperWrite

theorem State.Inv.plantBox (hs : s.Inv) {p : Planting} {b : Nat × Nat × Bool × Kernel} : (Planting.box p s b).Inv := hs.frame

theorem State.Inv.plantSeq (hs : s.Inv) {p : Planting} {q : ImgSeq} : (Planting.seq p s q).Inv := hs.frame

theorem State.Inv.plant (hs : s.Inv) {qid : Nat} {q : Queue} {d : List Byte} {x : Image} : (s.plant qid q d x).Inv := by
  unfold State.plant
  extract_lets _ _ _ t _ _ pages feeds _ courses bolts wefts boxes seqs ready _ pulls
  have ht : t.Inv := hs.frame
  have hpages : pages.Inv := ht.setCtx.followPages
  have hfeeds : feeds.Inv := .foldl hpages fun _ _ hu => hu.fillFeed.setFeed
  have hcourses : courses.Inv := .foldl hfeeds fun _ _ hu => hu.setCourse
  have hbolts : bolts.Inv := .foldl hcourses fun _ _ hu => hu.setBolt
  have hwefts : wefts.Inv := .foldl hbolts fun _ _ hu => hu.plantWeft
  have hboxes : boxes.Inv := .foldl hwefts fun _ _ hu => hu.plantBox
  have hseqs : seqs.Inv := .foldl hboxes fun _ _ hu => hu.plantSeq
  have hpulls : pulls.Inv := .foldl hseqs.landReady fun _ _ hu => hu.pullFor
  exact .foldl hpulls fun _ _ hu => hu.feedServe

theorem State.Inv.badImage (hs : s.Inv) {qid : Nat} : (s.badImage qid).Inv := hs.event.haltPut

theorem State.Inv.refuseImage (hs : s.Inv) {qid asid compl status : Nat} : (s.refuseImage qid asid compl status).Inv := by
  unfold State.refuseImage
  split
  next heq => exact hs.event.putRecord heq
  · exact trivial

theorem State.Inv.execPreemptRestore (hs : s.Inv) {qid : Nat} : Out.Inv (execPreemptRestore qid s) := by
  unfold Machine.execPreemptRestore
  refine hs.preempt fun _ _ _ ht => ?_
  dsimp only
  split
  · exact ht
  · refine ht.hubRead.hubThen fun _ _ ht => ?_
    split
    · exact ht.badImage
    · refine ht.hubRead.hubThen fun _ _ ht => ?_
      split
      · exact ht.badImage
      · split
        · split
          · exact ht.plant
          · exact trivial
        · exact ht.refuseImage

theorem State.Inv.execPullTimeout (hs : s.Inv) {n now : Nat} : Out.Inv (execPullTimeout n now s) := by
  unfold Machine.execPullTimeout
  dsimp only
  split
  · exact hs.advanceTime
  · split
    · exact hs.advanceTime.frame
    · exact hs.advanceTime

/-! ### Packets that arrive (R469, R477 to R485) -/

theorem State.Inv.takePacket (hs : s.Inv) {p : Packet} : (s.takePacket p).Inv := hs.frame

theorem State.Inv.onPacket (hs : s.Inv) {p : Packet} {typ : BitVec 8} {f : State → State} (hf : ∀ t, t.Inv → (f t).Inv) :
    Out.Inv (s.onPacket p typ f) := by
  unfold State.onPacket
  split
  · exact State.Inv.wake (hf _ hs.takePacket)
  · exact hs

theorem State.Inv.refusePacket (hs : s.Inv) {p : Packet} {reason : Nat} : (s.refusePacket p reason).Inv := hs.emit

theorem State.Inv.atDestination (hs : s.Inv) {p : Packet} {typ : BitVec 8} {f : State → Nat → FabRes} (hf : ∀ t x, t.Inv → (f t x).Inv) :
    Out.Inv (s.atDestination p typ f) := by
  unfold State.atDestination
  split
  · exact hs
  · split
    · exact hs.takePacket.refusePacket
    · split
      · exact hs.takePacket.refusePacket
      · split
        next heq₃ => exact ((hf _ _ hs.takePacket).of_eq heq₃).wake
        · exact hs.pullFor
        next heq₃ => exact ((hf _ _ hs.takePacket).of_eq heq₃).refusePacket.wake

theorem State.Inv.execFabricWrite (hs : s.Inv) {p : Packet} : Out.Inv (execFabricWrite p s) := by
  unfold Machine.execFabricWrite
  refine hs.atDestination fun _ _ ht => ?_
  split
  next heq' => exact ht.hubWrite.fst heq'
  · exact trivial
  next heq' => exact ht.hubWrite.fst heq'

theorem State.Inv.readFlagged (hs : s.Inv) {asid fuel at_ va n : Nat} : (s.readFlagged asid fuel at_ va n).1.Inv := by
  induction fuel generalizing s at_ va n with
  | zero => exact hs
  | succ fuel ih =>
    unfold State.readFlagged
    dsimp only
    split
    · exact hs
    · split
      next heq => exact hs.hubTranslate.fst heq
      next heq => exact hs.hubTranslate.fst heq
      next heq =>
        generalize hr : State.homeRead _ _ _ _ _ = r
        obtain ⟨v, o⟩ := r
        have hv : v.Inv := (hs.hubTranslate.fst heq).homeRead.fst hr
        cases o with
        | none | some _ =>
          dsimp only
          split
          next heq => exact (ih hv).fst heq
          next => exact ih hv

theorem State.Inv.execRead (hs : s.Inv) {p : Packet} : Out.Inv (execRead p s) := by
  unfold Machine.execRead
  refine hs.atDestination fun _ _ ht => ?_
  split
  next heq' => exact (ht.readFlagged.fst heq').emit
  · exact trivial
  next heq' => exact ht.readFlagged.fst heq'

theorem State.Inv.answerAtom (hs : s.Inv) {p : Packet} {r : Option Nat} : (s.answerAtom p r).Inv := by
  unfold State.answerAtom
  split
  · exact hs
  · split <;> exact hs.emit

theorem State.Inv.execFabricAtom (hs : s.Inv) {p : Packet} : Out.Inv (execFabricAtom p s) := by
  unfold Machine.execFabricAtom
  refine hs.atDestination fun _ _ ht => ?_
  split
  · exact ht
  · split
    · exact ht
    · split
      · exact trivial
      next heq₃ =>
        split
        · exact trivial
        · exact ht.hubTranslate.fst heq₃
      next heq₃ =>
        have hu := ht.hubTranslate.fst heq₃
        refine State.Inv.answerAtom ?_
        dsimp only
        split
        next heq₅ => exact hu.homeRead.fst heq₅
        next heq₅ => exact (hu.homeRead.fst heq₅).writeLine

theorem State.Inv.markRemote (hs : s.Inv) {bh off : Nat} : (s.markRemote bh off).Inv := hs.frame

theorem State.Inv.execFabricSignal (hs : s.Inv) {p : Packet} : Out.Inv (execFabricSignal p s) := by
  unfold Machine.execFabricSignal
  refine hs.atDestination fun _ _ ht => ?_
  dsimp only
  split
  · exact ht
  · split
    · exact ht
    · split
      · exact ht.barLand
      · exact ht.markRemote.noteExempt.barLand

theorem State.Inv.execMarker (hs : s.Inv) {p : Packet} : Out.Inv (execMarker p s) := by
  unfold Machine.execMarker
  split
  · exact hs.takePacket.emit
  · exact hs

theorem State.Inv.checkBarriers (hs : s.Inv) {asid : Nat} : (s.checkBarriers asid).Inv :=
  .foldl hs fun _ _ ht => .foldl ht fun _ _ hu => .ite hu.peerCheck hu

theorem State.Inv.execWithdraw (hs : s.Inv) {p : Packet} : Out.Inv (execWithdraw p s) := by
  unfold Machine.execWithdraw
  refine hs.onPacket fun _ ht => ?_
  dsimp only
  split
  · exact ht
  · exact ht.frame.checkBarriers

theorem State.Inv.failPath (hs : s.Inv) {asid ridx info : Nat} {addr : Va} : (s.failPath asid ridx info addr).Inv :=
  .ite hs.mapPath hs.frame

theorem State.Inv.failRead (hs : s.Inv) {q : Req} {info : Nat} : (s.failRead q info).Inv := by
  unfold State.failRead
  dsimp only
  split
  · exact hs.remoteLost
  · split
    · exact hs
    · exact .ite hs hs.mapWeft

theorem State.Inv.dropReq (hs : s.Inv) {q : Req} : (s.dropReq q).Inv := hs.frame

theorem State.Inv.dropMarker (hs : s.Inv) {asid ridx tag : Nat} : (s.dropMarker asid ridx tag).Inv := hs.frame

theorem State.Inv.failReq (hs : s.Inv) {q : Req} {info : Nat} : (s.failReq q info).Inv := by
  unfold State.failReq
  dsimp only
  split
  · exact hs.dropReq.failRead
  · exact .ite hs.dropReq.dropMarker.failPath hs.dropReq.failPath

theorem State.Inv.failPull (hs : s.Inv) {tag : Nat} : (s.failPull tag).Inv := hs.frame

theorem State.Inv.failPiece (hs : s.Inv) {tag : Nat} : (s.failPiece tag).Inv := by
  unfold State.failPiece
  split
  · exact hs.ckptFail
  · exact hs

theorem State.Inv.failTag (hs : s.Inv) {tag info : Nat} : (s.failTag tag info).Inv := by
  unfold State.failTag
  split
  · exact .ite hs.dropReq.ringPut hs.failReq
  · exact hs.failPull.failPiece

theorem State.Inv.execNotice (hs : s.Inv) {p : Packet} : Out.Inv (execNotice p s) := by
  unfold Machine.execNotice
  refine hs.onPacket fun _ ht => .ite (.failTag (.event (.breakRoute ?_))) ?_
  · dsimp only
    split
    · exact ht
    · split
      · exact ht.lineEvent
      · exact ht.frame
  · dsimp only
    split
    · exact ht
    · split
      · exact ht.lineEvent
      · exact ht.frame

theorem State.Inv.execError (hs : s.Inv) {p : Packet} : Out.Inv (execError p s) := hs.onPacket fun _ ht => ht.failTag

theorem State.Inv.execRemoteTimeout (hs : s.Inv) {tag now : Nat} : Out.Inv (execRemoteTimeout tag now s) := by
  unfold Machine.execRemoteTimeout
  dsimp only
  split
  · exact hs.advanceTime
  · split
    · exact hs.advanceTime.failReq.wake
    · exact hs.advanceTime

theorem State.Inv.fillXld (hs : s.Inv) {q : Req} {l : List Byte} {bad : List Nat} : (s.fillXld q l bad).Inv := by
  unfold State.fillXld
  dsimp only
  split
  · exact hs
  · exact hs.mapWeft.landXld

theorem State.Inv.execRdata (hs : s.Inv) {p : Packet} : Out.Inv (execRdata p s) := by
  unfold Machine.execRdata
  refine hs.onPacket fun _ ht => ?_
  split
  · exact ht
  · exact ht.dropReq.fillXld

theorem State.Inv.fillXatom (hs : s.Inv) {q : Req} {old : Option Nat} : (s.fillXatom q old).Inv := by
  unfold State.fillXatom
  dsimp only
  split
  · exact hs
  · split
    · exact .ite hs (.landLane (.ite hs.acquireL1 hs))
    · exact hs

theorem State.Inv.execAdata (hs : s.Inv) {p : Packet} : Out.Inv (execAdata p s) := by
  unfold Machine.execAdata
  refine hs.onPacket fun _ ht => ?_
  split
  · exact ht
  · exact ht.dropReq.fillXatom

theorem State.Inv.marked (hs : s.Inv) {q : Req} : (s.marked q).Inv := hs.frame

theorem State.Inv.execMack (hs : s.Inv) {p : Packet} : Out.Inv (execMack p s) := by
  unfold Machine.execMack
  refine hs.onPacket fun _ ht => ?_
  split
  · exact ht
  · exact ht.marked

theorem State.Inv.execPull (hs : s.Inv) {p : Packet} : Out.Inv (execPull p s) := by
  unfold Machine.execPull
  dsimp only
  split
  · exact hs
  · refine hs.onPacket fun _ ht => ?_
    split
    · exact ht.refusePacket
    · split
      next heq₃ => exact (ht.homeRead.fst heq₃).refusePacket
      next heq₃ => exact .foldl (ht.homeRead.fst heq₃) fun _ _ ht => ht.emit

theorem State.Inv.execRelease (hs : s.Inv) {p : Packet} : Out.Inv (execRelease p s) := by
  unfold Machine.execRelease
  split
  · exact hs
  · exact hs.onPacket fun _ ht => ht.frame

theorem State.Inv.pageHere (hs : s.Inv) {x : Pull} {data : List Byte} : (s.pageHere x data).Inv := by
  unfold State.pageHere
  extract_lets t _
  have ht : t.Inv := hs.frame
  split
  · exact ht
  · extract_lets _ _ u v w y
    have hu : u.Inv := ht.homeWrite
    have hv : v.Inv := hu.frame
    have hw : w.Inv := hv.homeWrite.landReady
    split
    · exact ht
    · exact State.Inv.releaseHolders hw.frame

theorem State.Inv.execPage (hs : s.Inv) {p : Packet} : Out.Inv (execPage p s) := by
  unfold Machine.execPage
  refine hs.onPacket fun _ ht => ?_
  dsimp only
  split
  · exact ht
  · exact .ite ht.pageHere ht.frame

theorem State.Inv.pieceDone (hs : s.Inv) {tag : Nat} : (s.pieceDone tag).Inv := hs.frame.ckptDone

theorem State.Inv.execPiece (hs : s.Inv) {p : Packet} : Out.Inv (execPiece p s) := by
  unfold Machine.execPiece
  dsimp only
  split
  · exact hs.onPacket fun _ ht => ht.pieceDone
  · exact hs.onPacket fun _ ht => ht.frame.emit

theorem State.Inv.execLinkstate (hs : s.Inv) {p : Packet} : Out.Inv (execLinkstate p s) := hs.onPacket fun _ ht => ht.putMap

theorem State.Inv.dropNotify (hs : s.Inv) {qid reason : Nat} : (s.dropNotify qid reason).Inv := .event (.ite hs.dropKick hs)

theorem State.Inv.notify (hs : s.Inv) {l : List Byte} : (s.notify l).Inv := by
  unfold State.notify
  dsimp only
  split
  · exact hs.dropNotify
  · split
    · exact hs.dropNotify
    · split
      · exact hs.dropNotify
      · exact .ite hs.dropNotify hs.setQueue.event.kick

theorem State.Inv.execQnotify (hs : s.Inv) {p : Packet} : Out.Inv (execQnotify p s) := by
  unfold Machine.execQnotify
  split
  · exact hs
  · exact hs.onPacket fun _ ht => .ite ht ht.notify

/-! ### Gateways (R487 to R489) -/

theorem State.Inv.gatewayAnswer (hs : s.Inv) {q : Req} {ok : Bool} {data : List Byte} : (s.gatewayAnswer q ok data).Inv := by
  unfold State.gatewayAnswer
  split
  · exact .ite hs.dropReq.pieceDone hs.dropReq.failPiece
  · split
    · exact hs.failReq
    · split
      · exact hs.dropReq.fillXld
      · exact .ite hs.dropReq.fillXatom hs.dropReq

theorem State.Inv.execGatewayResponse (hs : s.Inv) {tag : Nat} {ok : Bool} {data : List Byte} :
    Out.Inv (execGatewayResponse tag ok data s) := by
  unfold Machine.execGatewayResponse
  split
  · exact hs
  · exact hs.gatewayAnswer.wake

theorem State.Inv.gwAnswer (hs : s.Inv) {a : GwAns} : (s.gwAnswer a).Inv := hs.frame

theorem State.Inv.admitted (hs : s.Inv) {r : GwReq} {n : Nat} {write : Bool} {f : Region → Out} (hf : ∀ g, Out.Inv (f g)) :
    Out.Inv (s.admitted r n write f) := by
  unfold State.admitted
  split
  · exact hs.gwAnswer
  · split
    · exact hf _
    · exact hs.gwAnswer

theorem State.Inv.gwWrite (hs : s.Inv) {r : GwReq} {done : State → Region → State} (hdone : ∀ t x, t.Inv → (done t x).Inv) :
    Out.Inv (s.gwWrite r done) := by
  unfold State.gwWrite
  refine hs.admitted fun _ => ?_
  split
  next heq' => exact State.Inv.wake (hdone _ _ (hs.hubWrite.fst heq'))
  · exact hs.pullFor
  next heq' => exact (hs.hubWrite.fst heq').gwAnswer

theorem State.Inv.gwRead (hs : s.Inv) {r : GwReq} : Out.Inv (s.gwRead r) := by
  unfold State.gwRead
  refine hs.admitted fun _ => ?_
  split
  next heq' => exact (hs.hubRead.fst heq').gwAnswer
  · exact hs.pullFor
  next heq' => exact (hs.hubRead.fst heq').gwAnswer

theorem State.Inv.execUetRmaWrite (hs : s.Inv) {r : GwReq} : Out.Inv (execUetRmaWrite r s) := by
  unfold Machine.execUetRmaWrite
  split
  · exact hs.gwWrite fun _ _ ht => ht.gwAnswer
  · exact hs

theorem State.Inv.execUetRmaRead (hs : s.Inv) {r : GwReq} : Out.Inv (execUetRmaRead r s) := by
  unfold Machine.execUetRmaRead
  split
  · exact hs.gwRead
  · exact hs

theorem State.Inv.execUetSend (hs : s.Inv) {r : GwReq} : Out.Inv (execUetSend r s) := by
  unfold Machine.execUetSend
  split
  · refine hs.gwWrite fun _ _ ht => ?_
    split
    · exact ht.gwAnswer
    · split
      next heq₃ => exact (ht.feedAppend.fst heq₃).gwAnswer
      next heq₃ => exact (ht.feedAppend.fst heq₃).gwAnswer
  · exact hs

theorem State.Inv.gwAtom (hs : s.Inv) {r : GwReq} {op : AtomOp} : Out.Inv (s.gwAtom r op) := by
  unfold State.gwAtom
  dsimp only
  split
  · exact hs.gwAnswer
  · refine hs.admitted fun _ => ?_
    split
    · exact hs.gwAnswer
    · split
      · exact hs
      next heq₃ =>
        split
        · exact hs.pullFor
        · exact (hs.hubTranslate.fst heq₃).gwAnswer
      next heq₃ =>
        have ht := hs.hubTranslate.fst heq₃
        split
        next heq₄ => exact (ht.homeAtom.fst heq₄).gwAnswer.wake
        next heq₄ => exact (ht.homeAtom.fst heq₄).gwAnswer

theorem State.Inv.execUalinkRequest (hs : s.Inv) {r : GwReq} : Out.Inv (execUalinkRequest r s) := by
  unfold Machine.execUalinkRequest
  split
  · exact hs
  · split
    · exact hs.gwAtom
    · split
      · exact hs.gwRead
      · exact hs.gwWrite fun _ _ ht => ht.gwAnswer

/-! ### Physical addresses of harts (R347, R370, R372) -/

theorem State.Inv.flushRoutes (hs : s.Inv) : s.flushRoutes.Inv := hs.frame

theorem State.Inv.execRtflush (hs : s.Inv) {value : Dword} : Out.Inv (execRtflush value s) := State.Inv.ite hs.flushRoutes hs

theorem State.Inv.writeFabric (hs : s.Inv) {off : Nat} {x : Dword} : (s.writeFabric off x).Inv := by
  unfold State.writeFabric
  dsimp only
  split
  · exact hs.frame
  · exact hs.frame
  · exact hs.frame
  · exact .ite hs.flushRoutes hs
  · exact .ite hs.frame hs

theorem State.Inv.writeQueue (hs : s.Inv) {md : HMode} {qid k : Nat} {x : Dword} : (s.writeQueue md qid k x).Inv :=
  .ite hs.setQueue.writeSlot hs.setQueue

theorem State.Inv.writeHalt (hs : s.Inv) {qid k : Nat} {x : Dword} : (s.writeHalt qid k x).Inv := hs.frame

theorem State.Inv.writeRegister (hs : s.Inv) {md : HMode} {addr : Nat} {x : Dword} : (s.writeRegister md addr x).Inv := by
  unfold State.writeRegister
  dsimp only
  split
  · exact hs.writeQueue
  · exact hs.writeHalt
  · exact hs.doorbell
  · exact hs.writeFabric
  · exact hs.frame
  · exact hs.setFeed.feedServe
  · exact hs.frame
  · exact hs
  · exact hs
  · exact hs
  · exact hs.hubPutWord
  · exact hs.homeWrite
  · exact hs.aperWrite
  · exact hs.errEvent

theorem State.Inv.execRegisterWrite (hs : s.Inv) {addr : Nat} {value : Dword} {mode : HMode} :
    Out.Inv (execRegisterWrite addr value mode s) := by
  unfold Machine.execRegisterWrite
  split
  · exact hs.writeRegister
  · exact hs

/-! ### One arm per instruction and machine step -/

theorem State.Inv.exec (hs : s.Inv) {i : Instr} : Out.Inv (exec i s) := by
  cases i with
  | iadd _ => exact hs.execIadd
  | isub _ => exact hs.execIsub
  | ineg _ => exact hs.execIneg
  | imul _ => exact hs.execImul
  | imulhi _ => exact hs.execImulhi
  | imad _ => exact hs.execImad
  | imin _ => exact hs.execImin
  | imax _ => exact hs.execImax
  | iabs _ => exact hs.execIabs
  | isel _ => exact hs.execIsel
  | icmpk _ => exact hs.execIcmpk
  | icmp _ => exact hs.execIcmp
  | lea _ => exact hs.execLea
  | and _ => exact hs.execAnd
  | or _ => exact hs.execOr
  | xor _ => exact hs.execXor
  | not _ => exact hs.execNot
  | andn _ => exact hs.execAndn
  | shl _ => exact hs.execShl
  | shr _ => exact hs.execShr
  | sar _ => exact hs.execSar
  | rot _ => exact hs.execRot
  | bfx _ => exact hs.execBfx
  | bfi _ => exact hs.execBfi
  | popc _ => exact hs.execPopc
  | clz _ => exact hs.execClz
  | ctz _ => exact hs.execCtz
  | brev _ => exact hs.execBrev
  | fadd _ => exact hs.execFadd
  | fsub _ => exact hs.execFsub
  | fmul _ => exact hs.execFmul
  | ffma _ => exact hs.execFfma
  | fmin _ => exact hs.execFmin
  | fmax _ => exact hs.execFmax
  | fabs _ => exact hs.execFabs
  | fneg _ => exact hs.execFneg
  | fcmpk _ => exact hs.execFcmpk
  | fcmp _ => exact hs.execFcmp
  | fdiv _ => exact hs.execFdiv
  | fsqrt _ => exact hs.execFsqrt
  | frcp _ => exact hs.execFrcp
  | frsq _ => exact hs.execFrsq
  | fexp2 _ => exact hs.execFexp2
  | flog2 _ => exact hs.execFlog2
  | fsin _ => exact hs.execFsin
  | fcos _ => exact hs.execFcos
  | frint _ => exact hs.execFrint
  | fclass _ => exact hs.execFclass
  | fscale _ => exact hs.execFscale
  | fgetexp _ => exact hs.execFgetexp
  | padd _ => exact hs.execPadd
  | pmul _ => exact hs.execPmul
  | pfma _ => exact hs.execPfma
  | dot8F8 _ => exact hs.execDot8F8
  | dot8I8 _ => exact hs.execDot8I8
  | cvt _ => exact hs.execCvt
  | cvts _ => exact hs.execCvts
  | pack _ => exact hs.execPack
  | unpack _ => exact hs.execUnpack
  | settag _ => exact hs.execSettag
  | gettag _ => exact hs.execGettag
  | cvtk _ => exact hs.execCvtk
  | mov _ => exact hs.execMov
  | movi96 _ => exact hs.execMovi96
  | movi128 _ => exact hs.execMovi128
  | sel _ => exact hs.execSel
  | bcast _ => exact hs.execBcast
  | movkFromScalar _ => exact hs.execMovkFromScalar
  | movkImmediate _ => exact hs.execMovkImmediate
  | movkToScalar _ => exact hs.execMovkToScalar
  | kand _ => exact hs.execKand
  | kor _ => exact hs.execKor
  | kxor _ => exact hs.execKxor
  | knot _ => exact hs.execKnot
  | kpopc _ => exact hs.execKpopc
  | vote _ => exact hs.execVote
  | ballot _ => exact hs.execBallot
  | lxch _ => exact hs.execLxch
  | scan _ => exact hs.execScan
  | reduce _ => exact hs.execReduce
  | matchLanes _ => exact hs.execMatchLanes
  | elect _ => exact hs.execElect
  | compact _ => exact hs.execCompact
  | bra _ => exact hs.execBra
  | brx _ => exact hs.execBrx
  | call _ => exact hs.execCall
  | callR _ => exact hs.execCallR
  | ret _ => exact hs.execRet
  | join _ => exact hs.execJoin
  | exit _ => exact hs.execExit
  | yield _ => exact hs.execYield
  | nop _ => exact hs.execNop
  | brk _ => exact hs.execBrk
  | trap _ => exact hs.execTrap
  | rft _ => exact hs.execRft
  | decrle _ => exact hs.execDecrle
  | decbits _ => exact hs.execDecbits
  | decdelta _ => exact hs.execDecdelta
  | decsign _ => exact hs.execDecsign
  | ld _ => exact hs.execLd
  | st _ => exact hs.execSt
  | ldu _ => exact hs.execLdu
  | stu _ => exact hs.execStu
  | lds _ => exact hs.execLds
  | sts _ => exact hs.execSts
  | ldv _ => exact hs.execLdv
  | stv _ => exact hs.execStv
  | atom _ => exact hs.execAtom
  | red _ => exact hs.execRed
  | fence _ => exact hs.execFence
  | waitv _ => exact hs.execWaitv
  | pref _ => exact hs.execPref
  | cline _ => exact hs.execCline
  | lease _ => exact hs.execLease
  | brload _ => exact hs.execBrload
  | bufdecl _ => exact hs.execBufdecl
  | bufrel _ => exact hs.execBufrel
  | bufstateGet _ => exact hs.execBufstateGet
  | bufstateFill _ => exact hs.execBufstateFill
  | bufstateDrain _ => exact hs.execBufstateDrain
  | bufstateFree _ => exact hs.execBufstateFree
  | bufstateWfull _ => exact hs.execBufstateWfull
  | bufstateWfree _ => exact hs.execBufstateWfree
  | barinit _ => exact hs.execBarinit
  | barinval _ => exact hs.execBarinval
  | bararrive _ => exact hs.execBararrive
  | barexpect _ => exact hs.execBarexpect
  | barwait _ => exact hs.execBarwait
  | barphase _ => exact hs.execBarphase
  | cpyslice _ => exact hs.execCpyslice
  | cpyregLd _ => exact hs.execCpyregLd
  | cpyregSt _ => exact hs.execCpyregSt
  | cpystat _ => exact hs.execCpystat
  | cpycancel _ => exact hs.execCpycancel
  | layout _ => exact hs.execLayout
  | mclaim _ => exact hs.execMclaim
  | mrel _ => exact hs.execMrel
  | mload _ => exact hs.execMload
  | mloop _ => exact hs.execMloop
  | mma _ => exact hs.execMma
  | mscale _ => exact hs.execMscale
  | msparse _ => exact hs.execMsparse
  | mfence _ => exact hs.execMfence
  | mwait _ => exact hs.execMwait
  | mcommit _ => exact hs.execMcommit
  | popw _ => exact hs.execPopw
  | pushw _ => exact hs.execPushw
  | notify _ => exact hs.execNotify
  | mbind _ => exact hs.execMbind
  | xld _ => exact hs.execXld
  | xst _ => exact hs.execXst
  | xatom _ => exact hs.execXatom
  | xsig _ => exact hs.execXsig
  | xfence _ => exact hs.execXfence
  | getsr _ => exact hs.execGetsr
  | setsr _ => exact hs.execSetsr
  | getid _ => exact hs.execGetid
  | clock _ => exact hs.execClock
  | canon _ => exact hs.execCanon
  | halt _ => exact hs.execHalt
  | trapRecordPublish _ => exact hs.execTrapRecordPublish
  | trapRingSlotFree => exact hs.execTrapRingSlotFree
  | loadDataLands _ _ _ => exact hs.execLoadDataLands
  | abortCompletion _ _ => exact hs.execAbortCompletion
  | weftEnd _ => exact hs.execWeftEnd
  | decodeLands _ _ => exact hs.execDecodeLands
  | waitvPoll _ _ => exact hs.execWaitvPoll
  | homeSliceAccess _ _ => exact hs.execHomeSliceAccess
  | heddlePendingTimeout _ => exact hs.execHeddlePendingTimeout
  | heddleRotation _ => exact hs.execHeddleRotation
  | leaseWindow _ _ => exact hs.execLeaseWindow
  | fastSwitch _ _ => exact hs.execFastSwitch
  | bankSwap _ => exact hs.execBankSwap
  | spillComplete _ => exact hs.execSpillComplete
  | slowSwitch _ _ => exact hs.execSlowSwitch
  | boltReload _ => exact hs.execBoltReload
  | heddleRebuild _ => exact hs.execHeddleRebuild
  | copyStart _ _ => exact hs.execCopyStart
  | copyElementLand _ _ _ => exact hs.execCopyElementLand
  | mloadComplete _ _ => exact hs.execMloadComplete
  | matrixStep _ _ => exact hs.execMatrixStep
  | contributionArrival _ => exact hs.execContributionArrival
  | batchComplete _ _ => exact hs.execBatchComplete
  | pageWalkComplete _ _ _ _ => exact hs.execPageWalkComplete
  | heldWalkRetry _ _ => exact hs.execHeldWalkRetry
  | invalidate _ => exact hs.execInvalidate
  | invalidationComplete _ => exact hs.execInvalidationComplete
  | patrolScrub _ _ => exact hs.execPatrolScrub
  | errorRecord _ => exact hs.execErrorRecord
  | lateralLinkRetry _ _ => exact hs.execLateralLinkRetry
  | resume _ => exact hs.execResume
  | redirect _ => exact hs.execRedirect
  | setreg _ => exact hs.execSetreg
  | getreg _ => exact hs.execGetreg
  | kill _ => exact hs.execKill
  | ctxset _ => exact hs.execCtxset
  | engreply _ => exact hs.execEngreply
  | watchdogFire _ _ => exact hs.execWatchdogFire
  | deviceReset _ => exact State.Inv.execDeviceReset
  | attestationReport _ => exact hs.execAttestationReport
  | svnMinimumRaise _ _ _ => exact hs.execSvnMinimumRaise
  | supervisorTakeover => exact hs.execSupervisorTakeover
  | journalCommit _ => exact hs.execJournalCommit
  | hubAccessFault _ _ _ _ => exact hs.execHubAccessFault
  | doorbellKick _ _ _ => exact hs.execDoorbellKick
  | queueBind _ _ => exact hs.execQueueBind
  | queueResume _ => exact hs.execQueueResume
  | slotFetch _ => exact hs.execSlotFetch
  | nopPacket _ => exact hs.execNopPacket
  | dispatch _ => exact hs.execDispatch
  | feed _ => exact hs.execFeed
  | indirect _ => exact hs.execIndirect
  | predicate _ => exact hs.execPredicate
  | loop _ => exact hs.execLoop
  | writePacket _ => exact hs.execWritePacket
  | wait _ _ => exact hs.execWait
  | waitPoll _ => exact hs.execWaitPoll
  | waitTimeout _ _ => exact hs.execWaitTimeout
  | fetchfence _ => exact hs.execFetchfence
  | signalPacket _ => exact hs.execSignalPacket
  | copy _ => exact hs.execCopy
  | checkpoint _ _ => exact hs.execCheckpoint
  | preemptSwitch _ => exact hs.execPreemptSwitch
  | preemptSave _ _ => exact hs.execPreemptSave
  | preemptMove _ _ => exact hs.execPreemptMove
  | preemptRestore _ => exact hs.execPreemptRestore
  | bind _ => exact hs.execBind
  | coursePlacement _ _ _ => exact hs.execCoursePlacement
  | spanComplete _ => exact hs.execSpanComplete
  | completionRecordWrite _ => exact hs.execCompletionRecordWrite
  | feedMove _ => exact hs.execFeedMove
  | feedAppendRetry _ => exact hs.execFeedAppendRetry
  | eventDispatch _ => exact hs.execEventDispatch
  | queueCoreWatchdog _ _ => exact hs.execQueueCoreWatchdog
  | deferExpiry _ _ => exact hs.execDeferExpiry
  | capture _ => exact hs.execCapture
  | checkpointDrain _ => exact hs.execCheckpointDrain
  | pullTimeout _ _ => exact hs.execPullTimeout
  | deadlineCheck _ => exact hs.execDeadlineCheck
  | codeRewrite _ => exact hs.execCodeRewrite
  | pstepEval _ _ _ => exact hs.execPstepEval
  | powerCapCall _ => exact hs.execPowerCapCall
  | pldmFirmwareUpdate _ => exact hs.execPldmFirmwareUpdate
  | flitReceive _ _ _ => exact hs.execFlitReceive
  | portStateChange _ _ => exact hs.execPortStateChange
  | routerHop _ => exact hs.execRouterHop
  | fabricWrite _ => exact hs.execFabricWrite
  | read _ => exact hs.execRead
  | rdata _ => exact hs.execRdata
  | fabricAtom _ => exact hs.execFabricAtom
  | adata _ => exact hs.execAdata
  | fabricSignal _ => exact hs.execFabricSignal
  | marker _ => exact hs.execMarker
  | mack _ => exact hs.execMack
  | notice _ => exact hs.execNotice
  | error _ => exact hs.execError
  | withdraw _ => exact hs.execWithdraw
  | pull _ => exact hs.execPull
  | page _ => exact hs.execPage
  | piece _ => exact hs.execPiece
  | linkstate _ => exact hs.execLinkstate
  | qnotify _ => exact hs.execQnotify
  | remoteTimeout _ _ => exact hs.execRemoteTimeout
  | rtflush _ => exact hs.execRtflush
  | registerWrite _ _ _ => exact hs.execRegisterWrite
  | uetRmaWrite _ => exact hs.execUetRmaWrite
  | uetRmaRead _ => exact hs.execUetRmaRead
  | uetSend _ => exact hs.execUetSend
  | ualinkRequest _ => exact hs.execUalinkRequest
  | symbolLockLoss _ _ _ => exact hs.execSymbolLockLoss
  | release _ => exact hs.execRelease
  | gatewayResponse _ _ _ => exact hs.execGatewayResponse
  | hbmStackLoss _ => exact hs.execHbmStackLoss
  | migrationCopy _ _ _ => exact hs.execMigrationCopy

/-! ### The turn of a weft and the step (R22, R23, R36) -/

theorem State.Inv.fetch (hs : s.Inv) {h : Nat} : (s.fetch h).1.Inv := by
  unfold State.fetch
  dsimp only
  split
  next heq => exact hs.translate.fst heq
  next heq => exact hs.translate.fst heq
  next heq =>
    have ht := hs.translate.fst heq
    split
    · exact ht
    · split
      next heq₂ => exact ht.codeRead.fst heq₂
      next heq₂ => exact ht.codeRead.fst heq₂

theorem State.Inv.noteTurn {h : Nat} {i : Option Instr} {t : State} (ht : t.Inv) : (s.noteTurn h i t).Inv := by
  unfold State.noteTurn
  dsimp only
  split
  · exact .ite ht.mapWeft.progressed ht.mapWeft.noteExempt
  · exact .ite ht.progressed ht.noteExempt

theorem State.Inv.stay (hs : s.Inv) {h : Nat} : (s.stay h).Inv := hs.frame

theorem State.Inv.issueInstr (hs : s.Inv) {h : Nat} {i : Instr} : Out.Inv (s.issueInstr h i) := by
  have ht : State.Inv { s with cur := h } := hs.frame
  unfold State.issueInstr
  dsimp only
  split
  · exact hs.stay
  · split
    next heq =>
      have hu := State.Inv.noteTurn (s := s) (h := h) (i := some i) (ht.exec.of_eq heq)
      split
      · exact hs.stay
      · exact State.Inv.ite hu.mapWeft hu
    next => exact ht.exec

theorem State.Inv.issueActive (hs : s.Inv) {h : Nat} : Out.Inv (s.issueActive h) := by
  unfold State.issueActive
  dsimp only
  split
  · exact hs
  · split
    · exact State.Inv.noteTurn hs.takePend
    · split
      next heq₂ => exact State.Inv.noteTurn (hs.fetch.fst heq₂).setWeft
      next heq₂ => exact State.Inv.noteTurn (hs.fetch.fst heq₂).takeTrap
      next heq₂ => exact (hs.fetch.fst heq₂).issueInstr

theorem State.Inv.retryPending (hs : s.Inv) {h : Nat} : Out.Inv (s.retryPending h) := by
  unfold State.retryPending
  dsimp only
  split
  next heq =>
    split
    · exact (hs.setWeft.issueActive.of_eq heq).setWeft
    · exact hs.ready.admitWefts
  · exact hs.setWeft.issueActive

theorem State.Inv.issue (hs : s.Inv) {h : Nat} : Out.Inv (s.issue h) := by
  unfold State.issue
  dsimp only
  split
  · exact hs
  · split
    · exact hs.issueActive
    · exact hs.retryPending
    · exact hs

theorem State.Inv.runTask (hs : s.Inv) {t : Task} : Out.Inv (s.runTask t) := by
  cases t with
  | issue => exact hs.issue
  | ev => exact hs.exec

theorem State.Inv.step (hs : s.Inv) : Out.Inv (Machine.step s) := by
  unfold Machine.step
  split
  · trivial
  · split
    · exact State.Inv.runTask hs.frame
    · exact hs.issue

/-- Settles O56: each function that builds a step keeps the invariant, so every arm of a step does. -/
theorem stepKeepsInvariant : Obligations.StepKeepsInvariant :=
  fun _ _ hs ht => hs.step.of_eq ht

end Sys2Proof.Machine
end

section
/-! ## Work instructions (R413, R415 to R420) -/

namespace Sys2Proof.Machine

section Work

variable {s u : State} {w : Weft} {sel : Mask}

/-- A feed queue of the weft's own context is used (R415). -/
theorem ownFeed_of_own {q : Nat} (hown : (s.feed q).asid = s.asidOf w) (hbound : (s.feed q).cap ≠ 0) (next : FeedQ → Eff) :
    s.ownFeed w q sel next = next (s.feed q) :=
  if_pos (by simp [hown, hbound])

/-- A line that is the weft's own is used at its physical address (R413, R415). -/
theorem ownLine_of_own {va pa : Nat} {k : XKind} (h : OwnLine s w va k sel u pa) (next : State → Nat → Eff) :
    s.ownLine w va k sel next = next u pa := by
  obtain ⟨haligned, hplace, hown⟩ := h
  simp only [State.ownLine, haligned, hplace, ne_eq, not_true_eq_false, if_false]
  cases hbox : u.mailboxAt pa with
  | none => rfl
  | some b =>
    obtain ⟨asid, m⟩ := b
    exact if_pos (hown asid m hbox)

/-- A descriptor and its buffer records that are read make a kernel (R420). -/
theorem readKernel_of_read {h va : Nat} {s2 s3 : State} {l r : List Byte} (hdescr : s.weftRead h w sel 3 va 64 [] = .ok s2 l)
    (hrecs : s2.weftRead h w sel 3 (recTab l).1 (40 * (recTab l).2) [] = .ok s3 r) (next : State → Kernel → Bool → Eff) :
    s.readKernel h w sel va next =
      next s3 { Kernel.ofBytes va l with recs := (List.range (recTab l).2).map (fun i => BufRec.ofBytes (r.drop (40 * i))) }
        (descrOk l && ((List.range (recTab l).2).map (fun i => BufRec.ofBytes (r.drop (40 * i)))).all BufRec.ok) := by
  simp only [State.readKernel, hdescr, hrecs]

end Work

/-- Settles O22: each body finds its feed or its line the context's own, makes its release, and then its effect. That a NOTIFY is
performed at once at its home is the model's choice (log 100). -/
theorem workInstructionsComplete : Obligations.WorkInstructionsComplete := by
  refine ⟨fun o => .of_access (fun _ => rfl) ?popw, fun o => .of_access (fun _ => rfl) ?pushw, fun o => .of_access (fun _ => rfl) ?notify,
    fun o => .of_access (fun _ => rfl) ?mbind⟩
  case popw =>
    rintro s w sel u ⟨hown, hbound, rfl⟩
    exact ownFeed_of_own hown hbound _
  case pushw =>
    rintro s w sel u ⟨hown, hbound, s1, hrel, rfl⟩
    exact (ownFeed_of_own hown hbound _).trans (releasing_of_released hrel _)
  case notify =>
    rintro s w sel u ⟨s1, pa, s2, hline, hrel, rfl⟩
    exact (ownLine_of_own hline _).trans (releasing_of_released hrel _)
  case mbind =>
    intro s w sel u hu
    by_cases hzero : o.k.reg = .zero
    · rw [if_pos hzero] at hu
      exact (if_pos hzero).trans (congrArg Eff.done hu.symm)
    · rw [if_neg hzero] at hu
      obtain ⟨s1, pa, hline, hu⟩ := hu
      refine (if_neg hzero).trans ((ownLine_of_own hline _).trans ?_)
      by_cases hused : s1.reservedUsed (s1.coreOf w) = true
      · rw [if_pos hused] at hu ⊢
        exact congrArg Eff.done hu.symm
      · rw [if_neg hused] at hu ⊢
        by_cases hbox : (s1.mailboxAt pa).isSome = true
        · rw [if_pos hbox] at hu ⊢
          exact congrArg Eff.done hu.symm
        · rw [if_neg hbox] at hu ⊢
          obtain ⟨haligned, s2, l, s3, r, hdescr, hrecs, recs, s4, st, rfl, hbind, rfl⟩ := hu
          rw [if_neg (not_not_intro haligned), readKernel_of_read hdescr hrecs, hbind]
          rfl

end Sys2Proof.Machine
end

section
/-! ## Fabric instructions (R470 to R476, R480) -/

namespace Sys2Proof.Machine

section Fabric

variable {s u : State} {w : Weft} {sel : Mask} {r : Rec} {e : RtEnt}

/-- A record and its route that may be used pass the first four checks (R471). -/
theorem remoteCheck_of_routed {br : BitVec 8} (h : Routed s w br u r e) (next : State → Rec → RtEnt → Eff) :
    s.remoteCheck w br sel next = next u r e := by
  obtain ⟨rfl, hrec, hvalid, hroute, husable, hwhole⟩ := h
  simp only [State.remoteCheck, hrec, hvalid, hroute, husable, hwhole, Bool.not_true, Bool.false_eq_true, if_false]

/-- A path on which the egress can count a request takes it (R480). -/
theorem pathReady_of_ready {asid : Nat} (h : PathReady s asid r e) (next : State → Eff) : s.pathReady asid r e next = next s :=
  if_pos (by simpa [PathReady] using h)

/-- No thread is at fault where each passes the check. -/
theorem maskOf_filter_eq_zero {bad : Nat → Bool} (h : ∀ t ∈ threads sel, bad t = false) : maskOf ((threads sel).filter bad) = 0 := by
  rw [List.filter_eq_nil_iff.mpr fun t ht => Bool.eq_false_iff.mp (h t ht)]
  rfl

end Fabric

/-- Settles O23: each body makes the checks of its record, its route and its elements in the statement's order, its release, and finds
room on its path; then it sends its requests. -/
theorem fabricInstructionsComplete : Obligations.FabricInstructionsComplete := by
  refine ⟨fun o => .of_access (fun _ => rfl) ?xld, fun o => .of_access (fun _ => rfl) ?xst, fun o => .of_access (fun _ => rfl) ?xatom,
    fun o => .of_access (fun _ => rfl) ?xsig, fun o => .of_body (fun _ => rfl) ?xfence⟩
  case xld =>
    rintro s w sel u ⟨s1, r, e, p, locs, hrouted, hpair, hcut, hlocs, rfl⟩
    refine (remoteCheck_of_routed hrouted _).trans ?_
    simp only [hpair, hcut, hlocs, ne_eq, not_true_eq_false, if_false]
  case xst =>
    rintro s w sel u ⟨_, rfl, s1, r, e, locs, s2, hrouted, htags, hcut, hlocs, hrel, hpath, rfl⟩
    refine (remoteCheck_of_routed hrouted _).trans ?_
    simp only [htags, hcut, hlocs, ne_eq, not_true_eq_false, if_false]
    exact (releasing_of_released hrel _).trans (pathReady_of_ready hpath _)
  case xatom =>
    rintro s w sel u ⟨s1, r, e, locs, s2, hrouted, hcas, hwidths, hknown, hlocs, hrel, hpath, rfl⟩
    have hbad : maskOf ((threads sel).filter (fun t => !atomEnc r (atomBytes (w.atomCell o.c t o.op).tag))) = 0 :=
      maskOf_filter_eq_zero fun t ht => by rw [hwidths t ht, Bool.not_true]
    refine (remoteCheck_of_routed hrouted _).trans ?_
    simp only [hcas, hbad, maskOf_filter_eq_zero hknown, hlocs, ne_eq, not_true_eq_false, if_false]
    exact (releasing_of_released hrel _).trans (pathReady_of_ready hpath _)
  case xsig =>
    rintro s w sel u ⟨s1, r, e, hrouted, hhub, htop, halign, hcount, hpath, rfl⟩
    refine (remoteCheck_of_routed hrouted _).trans ?_
    simp only [hhub, htop, halign, Nat.not_le.mpr hcount, ne_eq, not_true_eq_false, decide_false, Bool.or_self, Bool.false_eq_true, if_false]
    exact pathReady_of_ready hpath _
  case xfence =>
    rintro s w sel u ⟨s1, hrel, hanswered, hu⟩
    refine (releasing_of_released hrel _).trans ?_
    rw [if_neg fun hwait => ?unanswered]
    case unanswered =>
      obtain ⟨hreleases, howes⟩ := (Bool.and_eq_true _ _).mp hwait
      exact Bool.false_ne_true ((hanswered hreleases).symm.trans howes)
    by_cases hacq : Sem.acquires o.sem = true
    · rw [if_pos hacq] at hu
      obtain ⟨hquiet, rfl⟩ := hu
      rw [if_pos hacq, fenceAcquire_done (.inr hquiet)]
    · rw [if_neg hacq] at hu
      rw [if_neg hacq, hu]

end Sys2Proof.Machine
end

section
/-! ## Kicks, bindings, fetches, resumes and the packets that go on (R389, R390, R397, R399, R411, R412, R444) -/

namespace Sys2Proof.Machine

variable {s : State} {qid : Nat}

@[simp] theorem State.queue_setQueue_same (s : State) (q : Nat) (x : Queue) : (s.setQueue q x).queue q = x := by
  simp [State.queue, Store.get]

/-! ### From outside the front end (R389, R390, R399) -/

/-- A kick that the device accepts goes to its queue, which takes none while it is KEYED (R383). -/
theorem exec_doorbellKick {now : Nat} {value : Dword} (hq : qid < 4096) (hboot : (s.advanceTime now).booted = true) :
    exec (.doorbellKick qid value now) s =
      .next (if ((s.advanceTime now).queue qid).keyed then (s.advanceTime now).dropKick qid
        else (s.advanceTime now).kick qid value.toNat) := by
  have hin : ¬numQueues ≤ qid := Nat.not_le.mpr hq
  change Host.Outcome.next ((s.advanceTime now).doorbell qid value.toNat) = _
  simp only [State.doorbell, hin, hboot, decide_false, Bool.not_true, Bool.or_self, Bool.false_eq_true, if_false]

/-- A queue whose SETUP is good is bound to a free slot, and the journal notes it. -/
theorem exec_queueBind {slot : Nat} (hq : qid < 4096) (hslot : slot < 64) (hfree : (s.queue qid).bound = false)
    (hsetup : (s.queue qid).setUp = true) (hopen : s.slotFree slot = true) :
    exec (.queueBind qid slot) s =
      .next { (s.journal (.bind qid slot)).setQueue qid { s.queue qid with hwslot := slot, bound := true } with
        kicks := (s.journal (.bind qid slot)).kicks.filter (fun x => x ≠ qid) } := by
  have hbind : slot ≠ unboundSlot := by unfold unboundSlot; omega
  refine congrArg Host.Outcome.next ((if_neg hbind).trans (if_pos ?_))
  simp [numQueues, hwSlots, hq, hslot, hfree, hsetup, hopen]

/-- A bound queue whose packets have all completed is unbound. -/
theorem exec_queueUnbind (hbound : (s.queue qid).bound = true) (hquiet : (s.queue qid).quiet = true) :
    exec (.queueBind qid 255) s =
      .next ((s.journal (.bind qid 255)).setQueue qid { s.queue qid with hwslot := 255, bound := false, fetched := [] }) := by
  change Host.Outcome.next (s.writeSlot qid unboundSlot) = _
  simp only [State.writeSlot, hbound, hquiet, Bool.not_true, Bool.false_eq_true, if_false, if_true]
  rfl

theorem exec_queueResume (hhalted : (s.queue qid).halted = true) :
    exec (.queueResume qid) s = .next (s.setQueue qid { s.queue qid with halted := false, fetched := [], phase := .idle }) :=
  if_pos hhalted

/-! ### Slots (R397) -/

section Fetch

variable {u v : State} (hv : v = if (s.queue qid).bound then s.retryGoing qid (fun k => k = .writing) State.memGo else s)

include hv

/-- Without a queue that the front end works on, only the packets that had started go on. -/
theorem exec_slotFetch_of_stopped (hworks : (v.queue qid).works = false) : exec (.slotFetch qid) s = .next v := by
  change execSlotFetch qid s = _
  simp only [execSlotFetch, ← hv, hworks, Bool.not_false, if_true]

variable (hworks : (v.queue qid).works = true) (hu : u = (v.refreshSlots qid (v.queue qid).ahead).fetchNext qid)

include hworks hu

theorem exec_slotFetch_of_absent (hcurrent : (u.queue qid).current = none) : exec (.slotFetch qid) s = .next u := by
  change execSlotFetch qid s = _
  simp only [execSlotFetch, ← hv, hworks, ← hu, hcurrent, Bool.not_true, Bool.false_eq_true, if_false]

/-- Once the current packet is there, a skip passes over it, and a reserved ORD or TYPE halts the queue at it. -/
theorem exec_slotFetch_of_present {d : List Byte} (hcurrent : (u.queue qid).current = some d) (hruns : (u.queue qid).halted = false)
    (hidle : (u.queue qid).phase = .idle) :
    exec (.slotFetch qid) s =
      .next (if (u.queue qid).skip ≠ 0 then u.setQueue qid ({ u.queue qid with skip := (u.queue qid).skip - 1 }).next
        else if 3 ≤ tOrd d ∨ (0x0E ≤ tType d ∧ (u.queue qid).canStart d = true) then
          u.halt qid 1 (if tType d = 1 then dispatchCompl d else 0)
        else u) := by
  change execSlotFetch qid s = _
  simp only [execSlotFetch, ← hv, hworks, ← hu, hcurrent, hruns, hidle, Bool.not_true, Bool.false_or, decide_false, Bool.false_eq_true,
    ne_eq, not_true_eq_false, if_false, apply_ite Host.Outcome.next, Bool.or_eq_true, Bool.and_eq_true, decide_eq_true_eq]

end Fetch

/-! ### Packets that have started (R395, R411, R412) -/

section Going

variable {g : Going} {k : GoKind → Bool} {u v : State}

/-- The one packet of its kind that has started is tried again, once its release is performed; until then nothing of it happens but
the markers that go out. -/
theorem retryGoing_of_single (hg : (s.queue qid).going.filter (fun g => k g.kind) = [g]) {clean : Bool} (hclean : s.goClean qid g = (u, clean))
    (f : State → Queue → Going → PkRes) :
    s.retryGoing qid k f = if clean then u.settleGoing qid g (f u (u.queue qid) g) else u := by
  have hin : g ∈ (s.queue qid).going := List.mem_of_mem_filter (hg ▸ List.mem_singleton_self g)
  have hstands : (s.queue qid).going.any (fun x => x.stamp = g.stamp) = true := List.any_eq_true.mpr ⟨g, hin, decide_eq_true rfl⟩
  simp only [State.retryGoing, hg, List.foldl_cons, List.foldl_nil, hstands, hclean, Bool.not_true, Bool.false_eq_true, if_false]
  cases clean <;> rfl

theorem exec_feedAppendRetry (hg : (s.queue qid).going.filter (fun g => g.kind = .feeding) = [g]) (hclean : s.goClean qid g = (u, true)) :
    exec (.feedAppendRetry qid) s =
      .next ((u.feedAll (fieldAt g.data 0 2) (feedRecords g.data)).elim u (fun t => t.endGoing qid g)) := by
  refine congrArg Host.Outcome.next ((retryGoing_of_single (k := fun k => k = .feeding) hg hclean _).trans ?_)
  cases u.feedAll (fieldAt g.data 0 2) (feedRecords g.data) <;> rfl

/-- The word of a PREDICATE or a WAIT that is read is tested (R401, R412). -/
theorem testThen_of_read {q : Queue} {d l : List Byte} {c : Bool} (hread : s.hubRead q.asid (fieldAt d 0 8) 8 = (v, .ok l))
    (htest : wordTest (fieldAt d 24 1) (leNat l) (fieldAt d 8 8) (fieldAt d 16 8) = some c) (f : State → Bool → PkRes) :
    testThen s q d f = f v c := by
  simp only [testThen, hubThen, hread, htest]

theorem exec_waitPoll {l : List Byte} {c : Bool} (hg : (s.queue qid).going.filter (fun g => g.kind.waits) = [g])
    (hclean : s.goClean qid g = (u, true)) (hread : u.hubRead (u.queue qid).asid (fieldAt g.data 0 8) 8 = (v, .ok l))
    (htest : wordTest (fieldAt g.data 24 1) (leNat l) (fieldAt g.data 8 8) (fieldAt g.data 16 8) = some c) :
    exec (.waitPoll qid) s = .next (if c then v.endGoing qid g else v) := by
  refine congrArg Host.Outcome.next ((retryGoing_of_single hg hclean _).trans ?_)
  rw [testThen_of_read hread htest]
  cases c <;> rfl

theorem exec_waitTimeout {now : Nat} (hu : u = s.advanceTime now) (hlate : (u.queue qid).going.find? (fun g => g.late u.ltime) = some g) :
    exec (.waitTimeout qid now) s = .next (u.haltGoing qid g 5) := by
  change execWaitTimeout qid now s = _
  simp only [execWaitTimeout, ← hu, hlate]

end Going

/-- Settles O34: each step makes its change once its conditions hold. That a resume discards the slots fetched (log 92) and that the
packets of a kind that have started are tried again beside later ones (log 90) is the model's choice. -/
theorem queueStepsComplete : Obligations.QueueStepsComplete := by
  refine ⟨?kick, ?bind, ?unbind, fun _ _ => exec_queueResume, ?fetch, fun _ _ => rfl, ?feed, ?poll, ?unclean, fun _ _ _ _ _ => exec_waitTimeout,
    ?deadline⟩
  case kick =>
    intro s qid value now hq hboot
    rw [exec_doorbellKick hq hboot]
    exact ⟨fun hkeyed => by rw [hkeyed]; rfl, fun hopen => by rw [hopen]; rfl⟩
  case bind =>
    intro s qid slot hq hslot hfree hsetup hopen
    refine ⟨_, exec_queueBind hq hslot hfree hsetup hopen, State.queue_setQueue_same .., fun hin => ?_, rfl⟩
    exact of_decide_eq_true (List.mem_filter.mp hin).2 rfl
  case unbind =>
    intro s qid hbound hquiet
    exact ⟨_, exec_queueUnbind hbound hquiet, State.queue_setQueue_same .., rfl⟩
  case fetch =>
    intro s qid v u hv
    refine ⟨exec_slotFetch_of_stopped hv, fun hworks hu => ⟨exec_slotFetch_of_absent hv hworks hu, fun d hcurrent hruns hidle => ?_⟩⟩
    rw [exec_slotFetch_of_present hv hworks hu hcurrent hruns hidle]
    refine ⟨fun hskip => by rw [if_pos hskip], fun hskip hord => ?_, fun hskip hord htype hstart => ?_, fun hskip hord htype => ?_⟩
    · rw [if_neg (not_not_intro hskip), if_pos (.inl hord)]
    · rw [if_neg (not_not_intro hskip), if_pos (.inr ⟨htype, hstart⟩), if_neg (by omega)]
    · rw [if_neg (not_not_intro hskip), if_neg (by omega)]
  case feed =>
    intro s qid g u t hg hclean
    rw [exec_feedAppendRetry hg hclean]
    exact ⟨fun hfits => by rw [hfits]; rfl, fun hfull => by rw [hfull]; rfl⟩
  case poll =>
    intro s qid g u v l hg hclean hread
    exact ⟨exec_waitPoll hg hclean hread, exec_waitPoll hg hclean hread⟩
  case unclean =>
    intro s qid g u hg hclean
    exact congrArg Host.Outcome.next (retryGoing_of_single hg hclean _)
  case deadline =>
    rintro s now qs rfl
    rfl

end Sys2Proof.Machine
end

section
/-! ## Packets (R382, R391 to R406, R411) -/

namespace Sys2Proof.Machine

variable {s u v : State} {qid : Nat} {d : List Byte}

/-! ### Running the current packet (R391 to R396) -/

/-- A release at DOMAIN scope that is performed changes nothing. -/
theorem domainClean_eq_self {asid : Nat} (h : s.domainClean asid = (u, true)) : u = s := by
  unfold State.domainClean at h
  dsimp only at h
  split at h
  · exact absurd (congrArg Prod.snd h) Bool.false_ne_true
  · exact (congrArg Prod.fst h).symm

section Run

variable {typ : Nat} {own : Bool}

/-- The effect is made in the state in which the turn has been taken. -/
theorem Packeted.taken (h : Packeted s qid typ own u d) : u = if typ = 1 then s else s.takeTurn qid := by
  obtain ⟨t, ht, hrel⟩ := h.released
  rw [← ht]
  split_ifs at hrel with hdomain
  · exact domainClean_eq_self hrel
  · exact hrel

theorem Packeted.queue (h : Packeted s qid typ own u d) : u.queue qid = s.queue qid := by
  rw [Packeted.taken h]
  split_ifs <;> rfl

/-- What follows from running a packet of its type that may start and has its turn. -/
theorem Packeted.packet_eq (h : Packeted s qid typ own u d) (f : State → Queue → List Byte → PkRes) :
    s.packet qid typ own f = .next (u.settle qid (f u (s.queue qid) d)) := by
  have hgo : (!(s.queue qid).works || !((s.queue qid).phase = .idle || (s.queue qid).phase = .held : Bool) || decide ((s.queue qid).skip ≠ 0) ||
      decide (tType d ≠ typ) || decide (3 ≤ tOrd d) || !(s.queue qid).canStart d || !s.myTurn qid) = false := by
    obtain hphase | hphase := h.phase <;> simp [h.works, hphase, h.unskipped, h.type, h.ord, h.starts, h.turn]
  obtain ⟨t, ht, hrel⟩ := h.released
  simp only [State.packet, h.current, hgo, ← ht, h.trailer, Bool.false_eq_true, if_false]
  by_cases hdomain : tRel d = 2 ∧ own = false
  · rw [if_pos hdomain] at hrel
    simp only [hdomain, hrel, Bool.not_false, Bool.and_self, decide_true, if_true]
  · rw [if_neg hdomain] at hrel
    subst hrel
    exact if_neg (by simpa using hdomain)

variable {f : State → Queue → List Byte → PkRes} (h : Packeted s qid typ own u d)

include h

theorem Packeted.packet_done {t : State} (hf : f u (s.queue qid) d = .done t) : s.packet qid typ own f = .next (t.finishPk qid) := by
  rw [Packeted.packet_eq h, hf]
  rfl

theorem Packeted.packet_wait {t : State} (hf : f u (s.queue qid) d = .wait t) : s.packet qid typ own f = .next t := by
  rw [Packeted.packet_eq h, hf]
  rfl

end Run

/-! ### What a packet reads and writes (R395, R401, R403) -/

section Access

variable {q : Queue} {l : List Byte}

/-- A packet goes on with the bytes that the hub reads or writes. -/
theorem hubThen_of_ok {r : State × HubAns} (hr : r = (v, .ok l)) (f : State → List Byte → PkRes) : hubThen r f = f v l := by
  rw [hr]
  rfl

/-- A memory packet may perform its writes later. -/
theorem memStart_of_later (hlater : u.choose = (v, true)) : u.memStart q d = .start v .writing := by
  simp only [State.memStart, hlater]

/-- A memory packet may perform its writes at once. -/
theorem memStart_of_now (hnow : u.choose = (v, false)) : u.memStart q d = v.memPacket q.asid q.pos d := by
  simp only [State.memStart, hnow]

end Access

/-! ### Each packet (R382, R398 to R404, R411) -/

theorem exec_nopPacket (h : Packeted s qid 0x00 false u d) (hzero : zeroAt d 0 252 = true) :
    exec (.nopPacket qid) s = .next (u.finishPk qid) := by
  change execNopPacket qid s = _
  exact Packeted.packet_done h (if_pos hzero)

/-- A DISPATCH that passes its checks makes its span and waits for a place (R404 to R406). -/
theorem exec_dispatch {k : Kernel} (h : Packeted s qid 0x01 true u d) (hbody : dispatchBad d = false)
    (hchecks : u.dispatchCheck (s.queue qid).asid d = (v, .ok k)) :
    ∃ n w, n = Store.fresh v.spans ∧ w = v.setSpan n (v.newSpan qid (s.queue qid) d k) ∧
      exec (.dispatch qid) s = .next (w.setQueue qid { w.queue qid with phase := .dispatching n }) := by
  refine ⟨_, _, rfl, rfl, ?_⟩
  change execDispatch qid s = _
  refine Packeted.packet_wait h ?_
  simp only [hbody, hchecks, Bool.false_eq_true, if_false]

/-- A FEED whose fields are good appends all its records at once, or goes on until they fit (R411). -/
theorem exec_feed (h : Packeted s qid 0x02 false u d) (hq : fieldAt d 0 2 ≤ 255) (hlo : 1 ≤ fieldAt d 2 1) (hhi : fieldAt d 2 1 ≤ 3)
    (hz1 : zeroAt d 3 8 = true) (hz2 : zeroAt d 200 252 = true) (hown : (u.feed (fieldAt d 0 2)).asid = (s.queue qid).asid) :
    exec (.feed qid) s =
      .next ((u.feedAll (fieldAt d 0 2) (feedRecords d)).elim (u.goOn qid .feeding) (fun t => t.finishPk qid)) := by
  have hsome : fieldAt d 2 1 ≠ 0 := by omega
  change execFeed qid s = _
  refine (Packeted.packet_eq h _).trans ?_
  simp only [Nat.not_lt.mpr hq, hsome, Nat.not_lt.mpr hhi, hz1, hz2, hown, ne_eq, not_true_eq_false, decide_false, Bool.not_true, Bool.or_self,
    Bool.false_eq_true, if_false]
  cases u.feedAll (fieldAt d 0 2) (feedRecords d) <;> rfl

/-- An INDIRECT opens one more level (R400). -/
theorem exec_indirect (h : Packeted s qid 0x03 false u d) (halign : fieldAt d 0 8 % 256 = 0) (hlo : 1 ≤ fieldAt d 8 4)
    (hhi : fieldAt d 8 4 ≤ 65536) (hzero : zeroAt d 12 252 = true) (hdepth : (s.queue qid).depth < 4) (hv : v = (u.startPk qid).2) :
    exec (.indirect qid) s = .next (v.setQueue qid { v.queue qid with
      stack := (v.queue qid).stack ++ [{ addr := fieldAt d 0 8, count := fieldAt d 8 4, pos := 0 }], depth := (v.queue qid).depth + 1,
      phase := .idle, skip := 0, lastPk := Store.erase (v.queue qid).lastPk ((v.queue qid).depth + 1) }) := by
  subst hv
  have hsome : fieldAt d 8 4 ≠ 0 := by omega
  have hlevels : ¬maxDepth ≤ (s.queue qid).depth := Nat.not_le.mpr hdepth
  change execIndirect qid s = _
  refine Packeted.packet_wait h ?_
  simp only [halign, hsome, Nat.not_lt.mpr hhi, hzero, hlevels, ne_eq, not_true_eq_false, decide_false, Bool.not_true, Bool.or_self,
    Bool.false_eq_true, if_false]

/-- A PREDICATE whose test fails sets the skip (R401). -/
theorem exec_predicate {l : List Byte} {c : Bool} (h : Packeted s qid 0x04 false u d) (hop : fieldAt d 24 1 ≤ 3) (hskip : fieldAt d 25 1 ≠ 0)
    (hzero : zeroAt d 26 252 = true) (hread : u.hubRead (s.queue qid).asid (fieldAt d 0 8) 8 = (v, .ok l))
    (htest : wordTest (fieldAt d 24 1) (leNat l) (fieldAt d 8 8) (fieldAt d 16 8) = some c) :
    exec (.predicate qid) s =
      .next ((if c then v else v.setQueue qid { v.queue qid with skip := fieldAt d 25 1 }).finishPk qid) := by
  change execPredicate qid s = _
  refine Packeted.packet_done h ?_
  simp only [Nat.not_lt.mpr hop, hskip, hzero, testThen_of_read hread htest, decide_false, Bool.not_true, Bool.or_self, Bool.false_eq_true,
    if_false]
  cases c <;> rfl

/-- A LOOP opens its body where none is open and the level holds it (R402). -/
theorem exec_loop (h : Packeted s qid 0x05 false u d) (hn : fieldAt d 0 1 ≠ 0) (hpasses : fieldAt d 1 1 ≠ 0) (hzero : zeroAt d 2 252 = true)
    (hclosed : (s.queue qid).loopn = 0) (hfits : (s.queue qid).pos + 1 + fieldAt d 0 1 ≤ (s.queue qid).limit) :
    exec (.loop qid) s = .next ((u.setQueue qid { u.queue qid with
      loopn := fieldAt d 0 1, loopleft := fieldAt d 1 1 - 1, loopdepth := (s.queue qid).depth,
      loopstart := (s.queue qid).pos + 1 }).finishPk qid) := by
  change execLoop qid s = _
  refine Packeted.packet_done h ?_
  simp only [hn, hpasses, hzero, hclosed, Nat.not_lt.mpr hfits, ne_eq, not_true_eq_false, decide_false, Bool.not_true, Bool.or_self,
    Bool.false_eq_true, if_false]

/-- A WAIT whose test fails has started, and waits from now (R412). -/
theorem exec_wait {now : Nat} {l : List Byte} {c : Bool} (h : Packeted (s.advanceTime now) qid 0x07 false u d) (hop : fieldAt d 24 1 ≤ 3)
    (hz1 : zeroAt d 25 32 = true) (hz2 : zeroAt d 36 252 = true)
    (hread : u.hubRead ((s.advanceTime now).queue qid).asid (fieldAt d 0 8) 8 = (v, .ok l))
    (htest : wordTest (fieldAt d 24 1) (leNat l) (fieldAt d 8 8) (fieldAt d 16 8) = some c) :
    exec (.wait qid now) s = .next (if c then v.finishPk qid else v.goOn qid (.waiting v.ltime)) := by
  change execWait qid now s = _
  refine (Packeted.packet_eq h _).trans ?_
  simp only [Nat.not_lt.mpr hop, hz1, hz2, testThen_of_read hread htest, decide_false, Bool.not_true, Bool.or_self, Bool.false_eq_true,
    if_false]
  cases c <;> rfl

theorem exec_fetchfence (h : Packeted s qid 0x08 false u d) (hzero : zeroAt d 0 252 = true) :
    exec (.fetchfence qid) s = .next ((u.setQueue qid { u.queue qid with fetched := [] }).finishPk qid) := by
  change execFetchfence qid s = _
  exact Packeted.packet_done h (if_pos hzero)

/-- A BIND whose ciphertext decapsulates gives its queue a key (R382). -/
theorem exec_bind {l x : List Byte} (h : Packeted s qid 0x0D false u d) (hzero : zeroAt d 8 252 = true)
    (hread : u.hubRead (s.queue qid).asid (fieldAt d 0 8) 1600 = (v, .ok l))
    (hx : x = Config.mlkemDecap (natLe 8 v.boot.kemKey ++ l.take 1568)) (hsome : x ≠ []) :
    exec (.bind qid) s = .next ((v.setQueue qid { v.queue qid with
      key := some (Config.kmac x (natLe 2 qid ++ l.drop 1568 ++ keyLabel)), lastseq := 0 }).finishPk qid) := by
  change execBind qid s = _
  refine Packeted.packet_done h ?_
  simp only [hzero, hubThen_of_ok hread, ← hx, Bool.not_true, Bool.false_eq_true, if_false]

/-! ### Packets that write memory (R395, R403) -/

/-- A memory packet may have started before its writes are performed. -/
theorem settle_memStart_of_later {q : Queue} (hlater : u.choose = (v, true)) : u.settle qid (u.memStart q d) = v.goOn qid .writing := by
  rw [memStart_of_later hlater]
  rfl

/-- One whose writes are performed at once completes. -/
theorem settle_memStart_of_now {q : Queue} {w : State} (hnow : u.choose = (v, false)) (hwrites : v.memPacket q.asid q.pos d = .done w) :
    u.settle qid (u.memStart q d) = w.finishPk qid := by
  rw [memStart_of_now hnow, hwrites]
  rfl

theorem exec_writePacket (h : Packeted s qid 0x06 false u d) (hsize : fieldAt d 16 1 = 4 ∨ fieldAt d 16 1 = 8)
    (halign : fieldAt d 0 8 % fieldAt d 16 1 = 0) (hzero : zeroAt d 17 252 = true) :
    exec (.writePacket qid) s = .next (u.settle qid (u.memStart (s.queue qid) d)) := by
  have hwidth : (fieldAt d 16 1 = 4 || fieldAt d 16 1 = 8 : Bool) = true := by simpa using hsize
  change execWritePacket qid s = _
  refine (Packeted.packet_eq h _).trans ?_
  simp only [hwidth, halign, hzero, ne_eq, not_true_eq_false, decide_false, Bool.not_true, Bool.or_self, Bool.false_eq_true, if_false]

theorem exec_signalPacket (h : Packeted s qid 0x09 false u d) (halign : fieldAt d 0 8 % 64 = 0) (hzero : zeroAt d 64 252 = true) :
    exec (.signalPacket qid) s = .next (u.settle qid (u.memStart (s.queue qid) d)) := by
  change execSignalPacket qid s = _
  refine (Packeted.packet_eq h _).trans ?_
  simp only [halign, hzero, ne_eq, not_true_eq_false, decide_false, Bool.not_true, Bool.or_self, Bool.false_eq_true, if_false]

theorem exec_copy (h : Packeted s qid 0x0A false u d) (hsrc : fieldAt d 0 8 % 64 = 0) (hdst : fieldAt d 8 8 % 64 = 0)
    (hlen : fieldAt d 16 8 % 64 = 0) (hzero : zeroAt d 24 252 = true) :
    exec (.copy qid) s = .next (u.settle qid (u.memStart (s.queue qid) d)) := by
  change execCopy qid s = _
  refine (Packeted.packet_eq h _).trans ?_
  simp only [hsrc, hdst, hlen, hzero, ne_eq, not_true_eq_false, decide_false, Bool.not_true, Bool.or_self, Bool.false_eq_true, if_false]

/-- Settles O35: each packet passes the checks of its fields in `u` and then has its effect. Choices of the model, not of the manual:
the DOMAIN release of a packet is performed before its effect, LOOPLEFT holds the passes after the current one (log 92), and the writes of
WRITE, SIGNAL and COPY may be performed at once or after later packets have started (log 90). -/
theorem packetsComplete : Obligations.PacketsComplete := by
  refine ⟨fun _ _ _ _ => exec_nopPacket, fun _ _ _ _ _ _ => exec_dispatch, ?feed, fun _ _ _ _ _ => exec_indirect, ?predicate,
    fun _ _ _ _ => exec_loop, ?write, ?wait, fun _ _ _ _ => exec_fetchfence, ?signal, ?copy, fun _ _ _ _ _ _ _ => exec_bind⟩
  case feed =>
    intro s qid u d h hq hlo hhi hz1 hz2 hown
    rw [exec_feed h hq hlo hhi hz1 hz2 hown]
    exact ⟨fun t hfits => by rw [hfits]; rfl, fun hfull => by rw [hfull]; rfl⟩
  case predicate =>
    intro s qid u d v l h hop hskip hzero hread
    exact ⟨exec_predicate h hop hskip hzero hread, exec_predicate h hop hskip hzero hread⟩
  case wait =>
    intro s now qid u d v l h hop hz1 hz2 hread
    exact ⟨exec_wait h hop hz1 hz2 hread, exec_wait h hop hz1 hz2 hread⟩
  case write =>
    intro s qid u d h hsize halign hzero
    rw [exec_writePacket h hsize halign hzero]
    refine ⟨fun v hlater => by rw [settle_memStart_of_later hlater], fun v w l hnow hwrite => ?_⟩
    rw [settle_memStart_of_now hnow]
    simp only [State.memPacket, h.type]
    exact hubThen_of_ok hwrite _
  case signal =>
    intro s qid u d h halign hzero
    rw [exec_signalPacket h halign hzero, Packeted.queue h]
    refine ⟨fun v hlater => by rw [settle_memStart_of_later hlater], fun v w l hnow hwrite => ?_⟩
    rw [settle_memStart_of_now hnow]
    simp only [State.memPacket, h.type]
    exact hubThen_of_ok hwrite _
  case copy =>
    intro s qid u d h hsrc hdst hlen hzero
    rw [exec_copy h hsrc hdst hlen hzero]
    refine ⟨fun v hlater => by rw [settle_memStart_of_later hlater], fun v w hnow hmoves => ?_⟩
    rw [settle_memStart_of_now hnow]
    simp only [State.memPacket, h.type]
    exact hmoves

end Sys2Proof.Machine
end

section
/-! ## Placement, completion and records of spans (R404 to R408, R425) -/

namespace Sys2Proof.Machine

variable {s t : State} {sp : Nat}

section Placement

variable {cluster : Nat} {cores : List Nat} (hlive : (s.span sp).completed = none) (hrun : (s.span sp).ending = .running)
  (hfree : ∀ c, (s.span sp).capture = some c → c.seeking = false) (hcluster : cores.headD 0 / 256 = cluster)

include hlive hrun hfree hcluster

/-- A displaced course, or every displaced one of a CORESIDENT span, takes the cores given before a new one does. -/
theorem exec_coursePlacement_of_displaced {c : Nat} {rest : List Nat} (hwait : s.homeless sp = c :: rest)
    (ht : s.replantAll sp (if (s.span sp).coresident then c :: rest else [c]) cores = some t) :
    exec (.coursePlacement sp cluster cores) s = .next t := by
  change execCoursePlacement sp cluster cores s = _
  cases hcapture : (s.span sp).capture <;>
    simp only [execCoursePlacement, hlive, hrun, hcapture, hfree, hcluster, hwait, ht, Option.isSome_none, ne_eq, not_true_eq_false, decide_false,
      Bool.or_self, Bool.false_eq_true, if_false, Option.getD_some]

/-- With no course displaced the next one, or all that are left of a CORESIDENT span, takes the cores given. -/
theorem exec_coursePlacement_of_next (hturn : s.startsNow sp = true) (hplaced : s.homeless sp = [])
    (hmore : (s.span sp).placed < (s.span sp).courses) (hon : s.spanIsOff sp = false) {m : Nat}
    (hm : m = if (s.span sp).coresident then (s.span sp).courses - (s.span sp).placed else 1)
    (hcores : m * (s.span sp).kernel.bolts ≤ cores.length) (ht : s.launchAll sp m cores = some t) :
    exec (.coursePlacement sp cluster cores) s = .next (t.dispatchStarts sp) := by
  have hone : min 1 ((s.span sp).courses - (s.span sp).placed) = 1 := by omega
  have hsome : m ≠ 0 := by rw [hm]; split_ifs <;> omega
  change execCoursePlacement sp cluster cores s = _
  cases hcapture : (s.span sp).capture <;>
    simp only [execCoursePlacement, hlive, hrun, hcapture, hfree, hcluster, hplaced, hone, ← hm, hsome, hon, Nat.not_lt.mpr hcores, hturn, ht,
      Option.isSome_none, ne_eq, not_true_eq_false, decide_false, Bool.not_true, Bool.or_self, Bool.false_eq_true, if_false]

end Placement

theorem exec_spanComplete (hover : s.spanOver sp = true) : exec (.spanComplete sp) s = .next (s.completeSpan sp) :=
  congrArg Host.Outcome.next (if_pos hover)

/-- The record of a span is written once its release is committed and performed. -/
theorem exec_completionRecordWrite {seq : Nat} {u : State} (hover : (s.span sp).completed = some seq) (hreleased : (s.span sp).released = true)
    (hnew : (s.span sp).recorded = false)
    (hclean : if (s.span sp).rel % 4 = 2 then s.domainClean (s.span sp).asid = (u, true) else u = s)
    (hput : u.putRecord (s.span sp).qid (s.span sp).asid (s.span sp).compl (s.span sp).ending.status (s.span sp).ending.originBit
      (s.span sp).ending.code seq = .inl t) :
    exec (.completionRecordWrite sp) s = .next (t.recordDone sp) := by
  have hperformed : (if (s.span sp).rel % 4 = 2 then s.domainClean (s.span sp).asid else (s, true)) = (u, true) := by
    split_ifs at hclean ⊢ with hdomain
    · exact hclean
    · rw [hclean]
  change execCompletionRecordWrite sp s = _
  simp only [execCompletionRecordWrite, hover, hreleased, hnew, hperformed, hput, Bool.not_true, Bool.or_self, Bool.false_eq_true, if_false]

/-- Settles O36: each step makes its change once its conditions hold. -/
theorem spanStepsComplete : Obligations.SpanStepsComplete := by
  refine ⟨?next, ?displaced, fun _ _ => exec_spanComplete, fun _ _ _ _ _ => exec_completionRecordWrite⟩
  case next =>
    intro s sp cluster cores t hlive hrun hfree hturn hcluster hplaced hmore hon m
    exact exec_coursePlacement_of_next hlive hrun hfree hcluster hturn hplaced hmore hon
  case displaced =>
    intro s sp cluster cores c rest t hlive hrun hfree hcluster
    exact exec_coursePlacement_of_displaced hlive hrun hfree hcluster

end Sys2Proof.Machine
end

section
/-! ## PREEMPT, CHECKPOINT, captures, checkpoint pieces and restores (R427 to R443) -/

namespace Sys2Proof.Machine

variable {s u v : State} {qid sp : Nat} {d : List Byte}

/-! ### Requests (R427 to R430, R434, R443) -/

/-- What follows from a PREEMPT of its mode whose fields are good (R434). -/
theorem preempt_of_packeted {md : Nat} (h : Packeted s qid 0x0C false u d) (hmode : fieldAt d 8 1 % 4 = md) (hbody : preemptBad d = false)
    (f : State → Queue → List Byte → PkRes) : s.preempt qid md f = .next (u.settle qid (f u (s.queue qid) d)) := by
  have hmine : (decide (tType d = 0x0C) && decide (fieldAt d 8 1 % 4 ≠ md)) = false := by simp [hmode]
  simp only [State.preempt, h.current, hmine, Bool.false_eq_true, if_false]
  refine (Packeted.packet_eq h _).trans ?_
  simp only [hbody, Bool.false_eq_true, if_false]

/-- A capture of a span that no capture seeks has started (R428, R429). -/
theorem settle_askCapture {c : CaptureReq} (hfree : (u.span sp).capture = none) :
    s.settle qid (u.askCapture sp c) = ((u.setSpan sp { u.span sp with capture := some c }).trySeek sp).goOn qid (.capturing sp) := by
  simp only [State.askCapture, hfree, Option.isSome_none, Bool.false_eq_true, if_false, State.settle]

theorem exec_preemptSwitch (h : Packeted s qid 0x0C false u d) (hmode : fieldAt d 8 1 % 4 = 0) (hbody : preemptBad d = false)
    (hspan : u.spanRef qid (fieldAt d 0 8) = some sp) : exec (.preemptSwitch qid) s = .next ((u.spanOff sp).finishPk qid) := by
  change execPreemptSwitch qid s = _
  refine (preempt_of_packeted h hmode hbody _).trans ?_
  simp only [hspan, State.settle]

/-- A SAVE or a MOVE asks for an image of its span at its address (R429). -/
theorem preemptImage_of_packeted {md : Nat} {c : CaptureReq} (h : Packeted s qid 0x0C false u d) (hmode : fieldAt d 8 1 % 4 = md)
    (hbody : preemptBad d = false) (hspan : u.spanRef qid (fieldAt d 0 8) = some sp) (hfree : (u.span sp).capture = none)
    (hc : c = { mode := md, qid := qid, addr := fieldAt d 16 8, tiers := [], seeking := false, deadline := u.ltime + deferOf (fieldAt d 8 1) }) :
    s.preemptImage qid md = .next (((u.setSpan sp { u.span sp with capture := some c }).trySeek sp).goOn qid (.capturing sp)) := by
  refine (preempt_of_packeted h hmode hbody _).trans ?_
  simp only [hspan, settle_askCapture hfree, hc]

/-- A CHECKPOINT whose tier list ends at once asks for a capture without tiers (R443). -/
theorem exec_checkpoint {now : Nat} {l : List Byte} {c : CaptureReq} (h : Packeted (s.advanceTime now) qid 0x0B false u d)
    (hzero : zeroAt d 16 252 = true) (hspan : u.spanRef qid (fieldAt d 0 8) = some sp)
    (hread : u.hubRead ((s.advanceTime now).queue qid).asid (fieldAt d 8 8) 64 = (v, .ok l)) (hend : fieldAt l 0 8 = 0)
    (hfree : (v.span sp).capture = none)
    (hc : c = { mode := 3, qid := qid, addr := 0, tiers := [], seeking := false, deadline := v.ltime + deferOf 0 }) :
    exec (.checkpoint qid now) s =
      .next (((v.setSpan sp { v.span sp with capture := some c }).trySeek sp).goOn qid (.capturing sp)) := by
  change execCheckpoint qid now s = _
  refine (Packeted.packet_eq h _).trans ?_
  simp only [hzero, hspan, maxTiers, State.readTiers, hubThen_of_ok hread, hend, settle_askCapture hfree, hc, Bool.not_true,
    Bool.false_eq_true, if_false, if_true]

/-- A RESTORE whose image is whole, passes its checks and finds its slots puts the span in place and completes (R435). -/
theorem exec_preemptRestore {w : State} {l r : List Byte} {x : Image} (h : Packeted s qid 0x0C false u d) (hmode : fieldAt d 8 1 % 4 = 3)
    (hbody : preemptBad d = false) (hnone : fieldAt d 0 8 = 0)
    (hhead : u.hubRead (s.queue qid).asid (fieldAt d 16 8) 128 = (v, .ok l)) (hok : headOk l = true)
    (hwhole : v.hubRead (s.queue qid).asid (fieldAt d 16 8) (fieldAt l 8 8) = (w, .ok r)) (himage : readImage r = some x)
    (hchecks : w.restoreCheck (s.queue qid).asid x = 0) (hslots : w.slotsReady (s.queue qid).asid x = true) :
    exec (.preemptRestore qid) s = .next ((w.plant qid (s.queue qid) d x).finishPk qid) := by
  change execPreemptRestore qid s = _
  refine (preempt_of_packeted h hmode hbody _).trans ?_
  simp only [hnone, hubThen_of_ok hhead, hok, hubThen_of_ok hwhole, himage, hchecks, hslots, ne_eq, not_true_eq_false, Bool.not_true,
    Bool.false_eq_true, if_false, if_true, State.settle]

/-! ### Captures (R430 to R433, R439) -/

section Capture

variable {c : CaptureReq}

/-- A span whose wefts all stand at canonical points, and whose DOMAIN release is performed, is captured; a MOVE waits for the
accesses of its context that are under way. -/
theorem exec_capture (hcapture : (s.span sp).capture = some c) (hseeks : c.seeking = true) (hready : s.captureReady sp = true)
    (hclean : s.domainClean (s.span sp).asid = (u, true))
    (hv : v = (u.pendFailures (s.span sp).asid ((u.spanWefts sp).map (·.1))).quiesce sp) (hreads : v.spanReadable sp = true) :
    exec (.capture sp) s = .next (if c.mode = 3 then v.takeCheckpoint sp c
      else if c.mode = 2 ∧ v.ctxBusy sp = true then v else (v.takeImage sp c).wake) := by
  subst hv
  change execCapture sp s = _
  simp only [execCapture, hcapture, hseeks, hready, hclean, hreads, Bool.not_true, Bool.or_self, Bool.false_eq_true, if_false,
    apply_ite Host.Outcome.next, Bool.and_eq_true, decide_eq_true_eq]

end Capture

/-! ### Checkpoints that drain (R442, R443), and pulls (R440) -/

section Drain

variable {n : Nat} {c : Ckpt}

theorem exec_checkpointDrain_of_piece {i : Nat} {rest tags : List Nat} (hc : s.ckpts[n]? = some c) (hleft : c.imgLeft = i :: rest)
    (hsend : s.sendPiece c i ((c.image.drop (granule * i)).take granule) = (u, tags)) :
    exec (.checkpointDrain n) s = .next { u with ckpts := u.ckpts.set n { c with imgLeft := rest, sent := c.sent ++ tags } } := by
  change execCheckpointDrain n s = _
  simp only [execCheckpointDrain, hc, hleft, hsend]

theorem exec_checkpointDrain_of_empty (hc : s.ckpts[n]? = some c) (hleft : c.imgLeft = []) (hframes : c.frames = []) :
    exec (.checkpointDrain n) s = .next s.ckptDone := by
  change execCheckpointDrain n s = _
  simp only [execCheckpointDrain, hc, hleft, hframes]

theorem exec_pullTimeout {now : Nat} {p : Pull} (hu : u = s.advanceTime now) (hp : u.pulls[n]? = some p)
    (hlate : 1000000000 ≤ u.ltime - p.since) :
    exec (.pullTimeout n now) s = .next { u with pulls := u.pulls.set n { p with dead := true } } := by
  change execPullTimeout n now s = _
  simp only [execPullTimeout, ← hu, hp, hlate, if_true]

end Drain

/-- Settles O37: each step makes its change once its conditions hold. That a CHECKPOINT has the default deferral (log 105) and that a RESTORE
completes at once (log 108) is the model's choice; of CHECKPOINT the statement takes an empty tier list alone. -/
theorem imageStepsComplete : Obligations.ImageStepsComplete := by
  refine ⟨fun _ _ _ _ _ => exec_preemptSwitch, ?image, fun _ _ _ _ _ _ _ _ _ => exec_preemptRestore, ?checkpoint, fun _ _ _ => rfl, ?capture,
    fun _ _ _ _ _ _ _ => exec_checkpointDrain_of_piece, fun _ _ _ => exec_checkpointDrain_of_empty, fun _ _ _ _ _ => exec_pullTimeout⟩
  case image =>
    intro s now qid u d sp h hbody hspan hfree c
    exact ⟨fun hmode hc => preemptImage_of_packeted h hmode hbody hspan hfree hc,
      fun hmode hc => preemptImage_of_packeted h hmode hbody hspan hfree hc⟩
  case checkpoint =>
    intro s now qid u d sp v l h hzero hspan hread hend hfree c
    exact exec_checkpoint h hzero hspan hread hend hfree
  case capture =>
    intro s sp c u v hcapture hseeks hready hclean hv hreads
    rw [exec_capture hcapture hseeks hready hclean hv hreads]
    refine ⟨fun hmode => by rw [if_pos hmode], fun hmode hidle => ?_⟩
    rw [if_neg hmode, if_neg fun hbusy => Bool.false_ne_true ((hidle hbusy.1).symm.trans hbusy.2)]

end Sys2Proof.Machine
end

section
/-! ## Requests at their destination (R467 to R469, R475 to R481) -/

namespace Sys2Proof.Machine

variable {s u v : State} {p : Packet} {asid : Nat}

/-- A packet that is admitted is performed in the context of its domain (R477). -/
theorem Admitted.atDestination {typ : BitVec 8} {t : State} (h : Admitted s p typ asid) {f : State → Nat → FabRes}
    (hf : f (s.takePacket p) asid = .done t) : s.atDestination p typ f = .next t.wake := by
  obtain ⟨i, e, hdomain, rfl⟩ := h.domain
  simp only [State.atDestination, h.type, List.contains_iff_mem.mpr h.arrived, h.first, hdomain, h.alive, hf, ne_eq, not_true_eq_false,
    decide_false, Bool.not_true, Bool.or_self, Bool.false_eq_true, if_false]

theorem exec_fabricWrite {l : List Byte} (h : Admitted s p tWRITE asid)
    (hwrite : (s.takePacket p).hubWrite asid p.addr.toNat (p.payload.take p.len) = (u, .ok l)) :
    exec (.fabricWrite p) s = .next u.wake := by
  change execFabricWrite p s = _
  refine Admitted.atDestination h ?_
  simp only [hwrite]

/-- A READ is answered with the bytes, and with the places of those that do not read (R478). -/
theorem exec_read {l : List Byte} {bad : List Nat} (h : Admitted s p tREAD asid)
    (hread : (s.takePacket p).readFlagged asid (p.len / 64 + 2) 0 p.addr.toNat p.len = (u, .inl (l, bad))) :
    exec (.read p) s = .next (u.emit (u.mkResponse p tRDATA l bad.eraseDups)).wake := by
  change execRead p s = _
  refine Admitted.atDestination h ?_
  simp only [hread]

theorem exec_fabricAtom {op : AtomOp} {n a c1 pa : Nat} {r : Option Nat} (h : Admitted s p tATOM asid)
    (hop : atomOf p.payload = some (op, n, a, c1)) (halign : p.addr.toNat % n = 0)
    (hplace : (s.takePacket p).hubTranslate asid p.addr.toNat .rw = (u, .ok pa))
    (hatom : u.homeAtom op n (op = .fadd) pa a c1 asid = (v, r)) :
    exec (.fabricAtom p) s = .next (v.answerAtom p r).wake := by
  change execFabricAtom p s = _
  refine Admitted.atDestination h ?_
  simp only [hop, halign, hplace, hatom, ne_eq, not_true_eq_false, if_false]

/-- A SIGNAL lands at a LIVE barrier whose count can hold it (R475, R481). -/
theorem exec_fabricSignal {bh : Nat} (h : Admitted s p tSIGNAL asid) (hu : u = s.takePacket p)
    (hbolt : u.signalBolt asid p.addr.toNat = some bh) (hlive : u.barState bh (p.addr.toNat % 2 ^ 20) = 1)
    (hfits : ((u.bolt bh).obj (p.addr.toNat % 2 ^ 20)).bcnt + fieldAt p.payload 0 8 < 2 ^ 40) :
    exec (.fabricSignal p) s = .next (((u.markRemote bh (p.addr.toNat % 2 ^ 20)).noteExempt asid).barLand bh (p.addr.toNat % 2 ^ 20)
      (fieldAt p.payload 0 8)).wake := by
  subst hu
  change execFabricSignal p s = _
  refine Admitted.atDestination h ?_
  simp only [hbolt, hlive, Nat.not_le.mpr hfits, ne_eq, not_true_eq_false, if_false]

theorem exec_marker (htyp : p.typ = tMARKER) (hin : p ∈ s.fab.inbox) (hfirst : s.blocked p = false) :
    exec (.marker p) s = .next ((s.takePacket p).emit (s.mkResponse p tMACK [] [])) :=
  if_pos (by simp [htyp, hin, hfirst])

/-- Settles O39: each request is admitted and its access finds no fault, so it is performed and answered. That the payload of an ATOM is its
operand and its compare value (log 21), and that a SIGNAL finds its bolt among the courses of live spans (log 122), is the model's choice. -/
theorem requestsAtDestinationComplete : Obligations.RequestsAtDestinationComplete :=
  ⟨fun _ _ _ _ _ => exec_fabricWrite, fun _ _ _ _ _ _ => exec_read, fun _ _ _ _ _ _ _ _ _ _ _ => exec_fabricAtom,
    fun _ _ _ _ _ => exec_fabricSignal, fun _ _ => exec_marker⟩

end Sys2Proof.Machine
end

section
/-! ## Responses, notices, withdrawals, pulls and pieces (R440, R443, R472 to R485) -/

namespace Sys2Proof.Machine

variable {s u : State} {p : Packet}

/-! ### What taking a packet leaves -/

@[simp] theorem takePacket_reqs (s : State) (p : Packet) : (s.takePacket p).fab.reqs = s.fab.reqs := rfl
@[simp] theorem takePacket_domainOf (s : State) (p : Packet) (x : BitVec 32) : (s.takePacket p).domainOf x = s.domainOf x := rfl
@[simp] theorem takePacket_heldImages (s : State) (p : Packet) : (s.takePacket p).heldImages = s.heldImages := rfl
@[simp] theorem takePacket_pulls (s : State) (p : Packet) : (s.takePacket p).pulls = s.pulls := rfl

/-! ### Responses (R472, R474, R480) -/

section Response

variable {q : Req}

theorem exec_rdata (htyp : p.typ = tRDATA) (hin : p ∈ s.fab.inbox)
    (hq : s.fab.reqs.find? (fun q => q.tag = p.tag.toNat && q.typ = tREAD && !q.gw) = some q) :
    exec (.rdata p) s = .next (((s.takePacket p).dropReq q).fillXld q p.payload p.aborts).wake := by
  change execRdata p s = _
  refine (State.onPacket_of_arrived htyp hin _).trans ?_
  simp only [takePacket_reqs, hq]

theorem exec_adata (htyp : p.typ = tADATA) (hin : p ∈ s.fab.inbox)
    (hq : s.fab.reqs.find? (fun q => q.tag = p.tag.toNat && q.typ = tATOM && !q.gw) = some q) :
    exec (.adata p) s =
      .next (((s.takePacket p).dropReq q).fillXatom q (if p.aborts.isEmpty then some (fieldAt p.payload 0 8) else none)).wake := by
  change execAdata p s = _
  refine (State.onPacket_of_arrived htyp hin _).trans ?_
  simp only [takePacket_reqs, hq]

theorem exec_mack (htyp : p.typ = tMACK) (hin : p ∈ s.fab.inbox)
    (hq : s.fab.reqs.find? (fun q => q.tag = p.tag.toNat && q.typ = tMARKER) = some q) :
    exec (.mack p) s = .next ((s.takePacket p).marked q).wake := by
  change execMack p s = _
  refine (State.onPacket_of_arrived htyp hin _).trans ?_
  simp only [takePacket_reqs, hq]

end Response

/-! ### Notices, errors and withdrawals (R478, R484, R485) -/

/-- A NOTICE that names the route of an entry breaks it, and its request fails. -/
theorem exec_notice {r : Nat} {e : RtEnt} (htyp : p.typ = tNOTICE) (hin : p ∈ s.fab.inbox) (hr : r = fieldAt p.payload 2 2)
    (hroute : (s.takePacket p).route r = (u, e)) (hvalid : e.valid = true) (hours : e.fwd = p.ret) :
    exec (.notice p) s = .next (((u.breakRoute r).event 5 6 (r + fieldAt p.payload 0 1 * 2 ^ 16)).failTag p.tag.toNat 1).wake := by
  subst hr
  change execNotice p s = _
  refine (State.onPacket_of_arrived htyp hin _).trans ?_
  simp only [hroute, hvalid, hours, decide_true, Bool.and_self, if_true]

theorem exec_error (htyp : p.typ = tERROR) (hin : p ∈ s.fab.inbox) :
    exec (.error p) s = .next ((s.takePacket p).failTag (fieldAt p.payload 4 4) (fieldAt p.payload 0 4)).wake :=
  State.onPacket_of_arrived htyp hin fun t => t.failTag (fieldAt p.payload 4 4) (fieldAt p.payload 0 4)

/-- A withdraw notice marks its domain's peer as lost, and every LIVE barrier of the context is checked. -/
theorem exec_withdraw {i : Nat} {e : DomEnt} (htyp : p.typ = tWITHDRAW) (hin : p ∈ s.fab.inbox) (hdomain : s.domainOf p.domid = some (i, e))
    (hu : u = s.takePacket p) :
    exec (.withdraw p) s = .next (State.checkBarriers
      { u with fab := { u.fab with domains := Store.insert u.fab.domains i { e with peerlost := true } } } e.asid).wake := by
  subst hu
  change execWithdraw p s = _
  refine (State.onPacket_of_arrived htyp hin _).trans ?_
  simp only [takePacket_domainOf, hdomain]

/-! ### Pages (R440) -/

/-- The holder answers a PULL of a page that it keeps with the page's eight parts. -/
theorem exec_pull {h : HeldImage} {x : Nat × Nat} {l : List Byte} (htyp : p.typ = tPULL) (hpage : p.addr.toNat ≠ releaseAddr)
    (hin : p ∈ s.fab.inbox) (hheld : s.heldImages.find? (fun h => h.digest = p.payload) = some h)
    (hx : h.pages.find? (fun x => x.1 * granule = p.addr.toNat) = some x)
    (hread : (s.takePacket p).homeRead (x.2 * granule) granule 0 0 = (u, some l)) :
    exec (.pull p) s = .next (((chunks 8 l).zipIdx).foldl (fun (s : State) c =>
      s.emit { s.mkResponse p tPAGE c.1 [] with addr := p.addr + BitVec.ofNat 64 (4096 * c.2) }) u).wake := by
  change execPull p s = _
  refine (if_neg hpage).trans ((State.onPacket_of_arrived htyp hin _).trans ?_)
  simp only [takePacket_heldImages, hheld, Option.bind_some, hx, hread]

theorem exec_release (htyp : p.typ = tPULL) (hall : p.addr.toNat = releaseAddr) (hin : p ∈ s.fab.inbox) :
    exec (.release p) s = .next (State.wake
      { s.takePacket p with heldImages := s.heldImages.filter (fun h => h.digest ≠ p.payload) }) := by
  change execRelease p s = _
  exact (if_neg (not_not_intro hall)).trans (State.onPacket_of_arrived htyp hin _)

/-- A part of a page joins those that have come; the eighth makes the page whole. -/
theorem exec_page {x : Pull} {got : Store (List Byte)} (htyp : p.typ = tPAGE) (hin : p ∈ s.fab.inbox)
    (hx : s.pulls.find? (fun x => x.tag = p.tag.toNat && !x.dead) = some x)
    (hgot : got = Store.insert x.got ((p.addr.toNat - x.va) / 4096) p.payload) :
    exec (.page p) s = .next (State.wake (if got.length = 8 then (s.takePacket p).pageHere x (got.flatMap (·.2))
      else { s.takePacket p with pulls := s.pulls.map (fun y => if y = x then { x with got := got } else y) })) := by
  change execPage p s = _
  refine (State.onPacket_of_arrived htyp hin _).trans ?_
  simp only [takePacket_pulls, hx, ← hgot]

/-- Waking wefts changes neither memory nor the images held. -/
theorem wake_mem (s : State) : s.wake.mem = s.mem := by
  have h := congrArg State.mem (Heddled.wake s).device
  exact h

theorem wake_heldImages (s : State) : s.wake.heldImages = s.heldImages := by
  have h := congrArg State.heldImages (Heddled.wake s).device
  exact h

/-! ### Checkpoint pieces (R443) -/

theorem exec_piece (htyp : p.typ = tPIECE) (hin : p ∈ s.fab.inbox) (hu : u = s.takePacket p) :
    exec (.piece p) s = .next (State.wake (State.emit { u with ckptRegion := Store.putBytes u.ckptRegion p.addr.toNat p.payload }
      (u.mkResponse p tPACK [] []))) := by
  subst hu
  have hnew : p.typ ≠ tPACK := by rw [htyp]; decide
  change execPiece p s = _
  exact (if_neg hnew).trans (State.onPacket_of_arrived htyp hin _)

theorem exec_piece_of_acknowledged (htyp : p.typ = tPACK) (hin : p ∈ s.fab.inbox) :
    exec (.piece p) s = .next ((s.takePacket p).pieceDone p.tag.toNat).wake := by
  change execPiece p s = _
  exact (if_pos htyp).trans (State.onPacket_of_arrived htyp hin fun t => t.pieceDone p.tag.toNat)

/-- Settles O40: each packet has arrived and finds what it answers, so it takes effect. Choices of the model, not of the manual: the places
in the payloads of a NOTICE and an ERROR (log 21), RELEASE as the PULL of an address of all ones (log 107), a NOTICE that counts when its RET
is the entry's FWD (log 113), and PACK dealt with by the step of PIECE (log 122). -/
theorem responsesAndNoticesComplete : Obligations.ResponsesAndNoticesComplete := by
  refine ⟨fun _ _ _ => exec_rdata, fun _ _ _ => exec_adata, fun _ _ _ => exec_mack, fun _ _ _ _ _ => exec_notice, fun _ _ => exec_error,
    fun _ _ _ _ _ => exec_withdraw, fun _ _ _ _ _ _ => exec_pull, ?release, ?page, fun _ _ _ => exec_piece,
    fun _ _ => exec_piece_of_acknowledged⟩
  case release =>
    intro s p htyp hall hin
    refine ⟨_, exec_release htyp hall hin, fun h hheld => ?_, wake_mem _⟩
    rw [wake_heldImages] at hheld
    exact of_decide_eq_true (List.mem_filter.mp hheld).2
  case page =>
    intro s p x got htyp hin hx hgot
    rw [exec_page htyp hin hx hgot]
    exact ⟨fun hwhole => by rw [if_pos hwhole], fun hpart => by rw [if_neg hpart]⟩

end Sys2Proof.Machine
end

section
/-! ## Gateways (R487 to R489) -/

namespace Sys2Proof.Machine

variable {s u v : State} {r : GwReq} {g : Region} {l : List Byte}

section Region

variable {n : Nat} {write : Bool}

/-- A request that its region admits goes on there (R488). -/
theorem admitted_of_region (h : RegionOf s r n write g) (f : Region → Out) : s.admitted r n write f = f g := by
  obtain ⟨hfind, hkey, hadmits⟩ := h
  have hin : r.key < numRegions := hkey
  simp only [State.admitted, hfind, hin, hadmits, decide_true, Bool.and_self, if_true]

/-- The bytes of a write land in its region. -/
theorem gwWrite_of_written (h : RegionOf s r r.data.length true g) (hwrite : s.hubWrite g.asid (g.base + r.off) r.data = (u, .ok l))
    (done : State → Region → State) : s.gwWrite r done = .next (done u g).wake := by
  refine (admitted_of_region h _).trans ?_
  simp only [hwrite]

/-- A read returns the bytes of its region. -/
theorem gwRead_of_read (h : RegionOf s r r.len false g) (hread : s.hubRead g.asid (g.base + r.off) r.len = (u, .ok l)) :
    s.gwRead r = .next (u.gwAnswer (.ok l)) := by
  refine (admitted_of_region h _).trans ?_
  simp only [hread]

/-- An atomic that the port knows is performed at its aligned word (R489). -/
theorem gwAtom_of_performed {op : AtomOp} {pa old : Nat} (hknown : Config.ualinkAtom op r.len = true) (hwidth : r.len = 4 ∨ r.len = 8)
    (h : RegionOf s r r.len true g) (hreads : g.r = true) (halign : (g.base + r.off) % r.len = 0)
    (hplace : s.hubTranslate g.asid (g.base + r.off) .rw = (u, .ok pa))
    (hatom : u.homeAtom op r.len (op = .fadd) pa (fieldAt r.data 0 8) (fieldAt r.data 8 8) g.asid = (v, some old)) :
    s.gwAtom r op = .next (v.gwAnswer (.ok (natLe r.len old))).wake := by
  have hword : (r.len = 4 || r.len = 8 : Bool) = true := by simpa using hwidth
  simp only [State.gwAtom, hknown, hword, Bool.not_true, Bool.or_self, Bool.false_eq_true, if_false]
  refine (admitted_of_region h _).trans ?_
  simp only [hreads, halign, hplace, hatom, ne_eq, not_true_eq_false, decide_false, Bool.not_true, Bool.or_self, Bool.false_eq_true, if_false]

end Region

/-- A send is written, and its record appended where the feed has room (R488). -/
theorem exec_uetSend {q st : Nat} (hport : s.gwRuns r.port 0 = true) (h : RegionOf s r r.data.length true g)
    (hwrite : s.hubWrite g.asid (g.base + r.off) r.data = (u, .ok l)) (hfeed : g.feed = some q)
    (happend : u.feedAppend q (sendRecord r) = (v, st)) :
    exec (.uetSend r) s = .next (v.gwAnswer (if st = 2 then .notReady else .ok [])).wake := by
  change execUetSend r s = _
  refine (if_pos hport).trans ((gwWrite_of_written h hwrite _).trans ?_)
  simp only [hfeed, happend]
  by_cases hfull : st = 2
  · subst hfull
    rfl
  · rw [if_neg hfull]
    split
    next heq => exact absurd (Prod.mk.inj heq).2 hfull
    next heq => rw [(Prod.mk.inj heq).1]

/-- A port in UALink mode takes an atomic, a read or a write, by what the request carries. -/
theorem exec_ualinkRequest (hport : s.gwRuns r.port 1 = true) :
    exec (.ualinkRequest r) s = r.atomOp.elim (if r.data = [] then s.gwRead r else s.gwWrite r (fun s _ => s.gwAnswer (.ok []))) (s.gwAtom r) := by
  change execUalinkRequest r s = _
  simp only [execUalinkRequest, hport, Bool.not_true, Bool.false_eq_true, if_false, List.isEmpty_iff]
  cases r.atomOp <;> rfl

theorem exec_gatewayResponse {tag : Nat} {ok : Bool} {data : List Byte} {q : Req}
    (hq : s.fab.reqs.find? (fun q => q.gw && q.tag = tag) = some q) :
    exec (.gatewayResponse tag ok data) s = .next (s.gatewayAnswer q ok data).wake := by
  change execGatewayResponse tag ok data s = _
  simp only [execGatewayResponse, hq]

/-- Settles O41: each request finds a port of its mode and a region that admits it, and has its effect there. Which atomics a UALink port knows
(log 15), the layout of an atomic's operands and that of a send's record (log 126) are the model's choice. -/
theorem gatewayStepsComplete : Obligations.GatewayStepsComplete := by
  refine ⟨?write, ?read, fun _ _ _ _ _ _ _ _ => exec_uetSend, ?ualink, ?atom, fun _ _ _ _ _ => exec_gatewayResponse⟩
  case write =>
    intro s r g u l hport h hwrite
    exact (if_pos hport).trans (gwWrite_of_written h hwrite _)
  case read =>
    intro s r g u l hport h hread
    exact (if_pos hport).trans (gwRead_of_read h hread)
  case ualink =>
    intro s r g hport hplain
    rw [exec_ualinkRequest hport, hplain]
    refine ⟨fun u l hempty h hread => ?_, fun u l hdata h hwrite => ?_⟩
    · exact (if_pos hempty).trans (gwRead_of_read h hread)
    · exact (if_neg hdata).trans (gwWrite_of_written h hwrite _)
  case atom =>
    intro s r op g u pa v old hport hop hknown hwidth h hreads halign hplace hatom
    rw [exec_ualinkRequest hport, hop]
    exact gwAtom_of_performed hknown hwidth h hreads halign hplace hatom

end Sys2Proof.Machine
end

section
/-! ## A module without power (R452) -/

namespace Sys2Proof.Machine

/-- Settles O53: a step looks at the module's power before anything else (R452). -/
theorem poweredOffStops : Obligations.PoweredOffStops :=
  fun _ hoff => if_pos hoff

end Sys2Proof.Machine
end
